-- ==== Sys2Proof/Word.lean ====
section
/-! DEFINITION. The plain word types of the machine and the group width (R2, R10, R59, R71). -/

namespace Sys2Proof

/-- A register or instruction word: 32 bits. -/
abbrev Word := BitVec 32

/-- The smallest addressable unit of every memory. -/
abbrev Byte := BitVec 8

/-- A set of lanes of one group: bit i belongs to lane i (R71). -/
abbrev Mask := BitVec 64

/-- Group width W on this part (R2). -/
abbrev W : Nat := 64

/-- The 32-bit elements of a vector register, lane 0 first: a list of W words. -/
abbrev Lanes := List Word

end Sys2Proof
end

