-- ==== Sys2Proof/Config.lean ====
section
/-! DEFINITION. What an implementation fixes and the values the spec leaves free. A constant without a body has no
value that Lean can know: a statement holds whatever it is. -/

namespace Sys2Proof.Config

/-- Which of the agents able to move does so at a step (R361, R283, R160: no order is stated). -/
opaque pick : Nat → Nat

/-- Cycles of the arithmetic clock that pass after a step (R35: the part may issue later, never earlier). -/
opaque clkAdvance : Nat → Nat

/-- A read of a register with a write on its way sees the written value (R36, R37): by step, register and write. -/
opaque raceNew : Nat → Nat → Nat → Bool

/-- A load of a remote line is served by the die's read copy (R211, R282): by step and line. -/
opaque useCopy : Nat → Nat → Bool

/-- A relaxed load of device memory is performed after its issue (R281, R287): by step and address. -/
opaque lateLoad : Nat → Nat → Bool

/-- An access that misses creates a read copy (R211): by step and line. -/
opaque keepCopy : Nat → Nat → Bool

/-- The clk at which a walk element was read is free (R88): a fetched step is kept, or fetched again at the read. -/
opaque useAhead : Nat → Bool

/-- SFU results that R156 bounds and does not fix, by function number and operands (R156, R157). -/
opaque sfu : Nat → Word → Word → Word

/-- The code of an inline constant that a format, by its exponent and mantissa bits, does not hold exactly (R143). -/
opaque immOpen : Nat → Nat → BitVec 7 → Word

/-- FACT's y for a widened x whose t is NaN or negative (R162): by the FP32 codes of x and t. -/
opaque factOpen : Word → Word → Word

/-- The near-bank ACT stage's 2^(x × P1 − P2), which R239 bounds and does not fix. -/
opaque nbExp : Word → Word → Word → Word

/-- Which step and which word an engine that works on many at once turns to next, and how much of a segment it takes: by step and
choice (R242, R244, R260). -/
opaque engine : Nat → Nat → Nat

/-- How many of the late writes of a scratchpad word a load does not find: by step and word (R249, R273). -/
opaque lateWord : Nat → Nat → Nat

/-- Host address of the first frame of the CXL capacity tier (R205, R378). -/
opaque cxlBase : Nat

/-- An access to the line that the one before it reached is of one line request with it (R272): by step and line. -/
opaque sameRequest : Nat → Nat → Bool

/-- The die that carries a line of device memory which no buffer places, by the line: the spec places the lines of buffers alone
(R8, R223; DESIGN CHOICE, log 104). -/
opaque lineDie : Nat → Nat

/-- Bytes that an object takes in a lodge or an annex: 16 bytes of a SYNC buffer, a mailbox by its capacity, a replica of a cell; the
spec gives the bytes of the lodge and not of an object (R292). -/
opaque syncBytes : Nat
opaque mailboxBytes : Nat → Nat
opaque cellBytes : Nat

/-- The Pelroth public key in the boot ROM (R387), and the seed of the module's identity key (R388): 32 bytes each. -/
opaque romKey : List (BitVec 8)
opaque identitySeed : List (BitVec 8)

/-- The certificate chain of the module's identity key (R388). -/
opaque certChain : List Byte

/-- Dies are declared lost by their links or heartbeat; which of two dead replicas serves first is free (R317). -/
opaque choose : Nat → Nat → Nat

/-- Bytes of the save area that a group of so many v, s and y registers takes, and that matrix state takes on an array of
so many columns; the spec gives no layout (R368, R369, R382). -/
opaque saveBytes : Nat → Nat → Nat → Nat
opaque saveMx : Nat → Nat

/-- The bytes that a save writes there: by step and place. -/
opaque saveImage : Nat → Nat → BitVec 8

end Sys2Proof.Config
end

