-- ==== Sys2Proof/Syntax.lean ====
section
/-! DEFINITION. The whole syntax: operands, field codes and one constructor of `Instr` for every row of
spec/opcode_table.json. The encoded instructions come first, in the order of R40. The rows of the table that are
steps of the part and not instructions (a line move commits, a host posts) follow, each with plain data that names
the object it concerns. -/

namespace Sys2Proof

/-- Execution scope, SCOPE field (R26). -/
inductive Scope where
  | lane | group | party | team
  deriving DecidableEq, Repr

/-- Integer type code IT (R32). -/
inductive IT where
  | i8 | i16 | i32 | i64 | w8 | w16 | w32 | w64
  deriving DecidableEq, Repr

/-- Float type code FT (R32); code 3 is illegal. -/
inductive FT where
  | f32 | f16 | bf16
  deriving DecidableEq, Repr

/-- Rounding code RND (R32, R141). -/
inductive Rnd where
  | rne | rz | rp | rm | sr
  deriving DecidableEq, Repr

/-- Order of an access, ORD (R32, R218). -/
inductive Ordr where
  | rlx | acq | rel | ar
  deriving DecidableEq, Repr

/-- Memory scope of an access, SCP (R19, R32). -/
inductive Scp where
  | team | cluster | die | package | system
  deriving DecidableEq, Repr

/-- The 4-bit type code TC naming every scalar format (R32). -/
inductive TC where
  | f32 | f16 | bf16 | e4m3 | e5m2 | e2m3 | e3m2 | e2m1
  | i8 | i16 | i32 | i64 | w8 | w16 | w32 | w64
  deriving DecidableEq, Repr

/-- The read-only specials of R16 and R30. -/
inductive Special where
  | lane | group | party | team | width | core | die | clock | vpc
  deriving DecidableEq, Repr

abbrev VReg := BitVec 8
abbrev SReg := BitVec 9
abbrev YReg := BitVec 6
abbrev QReg := BitVec 3
abbrev MReg := Fin 12
abbrev LcReg := Fin 3
abbrev Tile := BitVec 2

/-- What a 10-bit operand code names (R30); the illegal codes name nothing. -/
inductive Opd where
  | v (n : VReg)
  | s (n : SReg)
  | y (n : YReg)
  | q (n : QReg)
  | m (n : MReg)
  | sp (x : Special)
  | lc (n : LcReg)
  | imm (k : BitVec 7)
  deriving DecidableEq, Repr

/-- The fields every base word carries (R26, R27), with AWAIT and the long form of R28. -/
structure Ctl where
  stall : BitVec 3
  scope : Scope
  guard : Option MReg
  await : Bool
  long : Bool
  deriving DecidableEq, Repr

/-- The branch hint of format J (R27, R65). -/
inductive Hint where
  | none | lk | ul | un
  deriving DecidableEq, Repr

/-- MOP's operation (R72). -/
inductive MopOp where
  | and | or | xor | andn
  deriving DecidableEq, Repr

/-- ICMP's predicate (R125). -/
inductive Pred where
  | eq | ne | lt | le | gt | ge
  deriving DecidableEq, Repr

/-- FCMP's predicate (R151). -/
inductive FPred where
  | eq | ne | lt | le | gt | ge | ord | unord
  deriving DecidableEq, Repr

/-- The four directions of LSH (R130). -/
inductive LshOp where
  | up | down | xor | rot
  deriving DecidableEq, Repr

/-- The combinations of LRED and LSCAN (R132). -/
inductive RedOp where
  | add | min | max | or
  deriving DecidableEq, Repr

/-- The tests of LVOTE (R133). -/
inductive VoteOp where
  | all | any | same
  deriving DecidableEq, Repr

/-- REDOP's type (R296). -/
inductive RedT where
  | w32 | i32 | f32
  deriving DecidableEq, Repr

/-- RECON's merge (R310, R315). -/
inductive ReconOp where
  | sum | min | max | or | and | pick
  deriving DecidableEq, Repr

/-- MMA's A kind (R188). -/
inductive AKind where
  | e4m3 | e5m2 | e2m3 | e3m2 | e2m1 | bf16 | i8
  deriving DecidableEq, Repr

/-- A format M address: H, B, OFF7, SCP, ORD (R27). -/
structure MemOpd where
  h : Opd
  b : Opd
  off : BitVec 7
  scp : Scp
  ord : Ordr
  deriving DecidableEq, Repr

/-- The name of a resident or evicted group: launch, team index, team group index (R16). -/
structure GKey where
  launch : Nat
  team : Nat
  grp : Nat
  deriving DecidableEq, Repr

/-- A core of a compute die by die number and INDEX (R15). -/
structure CKey where
  die : Nat
  core : Nat
  deriving DecidableEq, Repr

/-- One scheduler partition of a core. -/
structure PKey where
  die : Nat
  core : Nat
  part : Nat
  deriving DecidableEq, Repr

/-- `rowmap` of a launch (R354): a buffer, SHIFT, and the addresses of the row-map area and of the second placement map, which the
driver allocates. -/
structure RowMapReq where
  buf : Nat
  shift : Nat
  area : Nat
  map : Nat
  deriving DecidableEq, Repr

/-- What a .buffer directive declares: its kind, and whether a PLAIN buffer's section is .rodata (R51, R52). -/
inductive BufSort where
  | plain
  | readOnly
  | sync
  | versioned (replicas : Nat)
  deriving DecidableEq, Repr

/-- A buffer that the file declares, at the entry, the virtual base, the channel set, the placement map and the replica dies that the
driver chooses for it, with the bytes of its data section (R50, R51). -/
structure BufReq where
  idx : Nat
  sort : BufSort
  gathered : Bool
  lines : Nat
  vbase : Nat
  stk0 : Nat
  nstk : Nat
  cbase : Nat
  pmap : Nat
  reps : List Nat
  image : List (BitVec 8)
  deriving DecidableEq, Repr

/-- One mailbox of the `mbox` option (R394). -/
structure MboxReq where
  q : Nat
  home : Nat
  logDepth : Nat
  host : Bool
  deriving DecidableEq, Repr

/-- The context that keldb creates for a launch (R394): the .team directive's PRIO, the `nomark` option (R354), the areas that it
allocates, its dump and save areas in frames, and the `mbox` option. -/
structure KeldbReq where
  prio : Nat
  nomark : Bool
  wintab : Nat
  mbtab : Nat
  annex : Nat
  save : Nat
  saveLen : Nat
  dump : Nat
  dumpLen : Nat
  mbox : List MboxReq
  deriving DecidableEq, Repr

/-- A launch as the loader hands it to the part: the context, the 64-byte team descriptor of R356, where the code
image lies in device memory and its length in words, the form of R362, the scalars that receive handles (R50), the
dies that keldb's `place` allows each team (R351), and its `seghold` (R374). -/
structure LaunchReq where
  ctx : Nat
  desc : BitVec 512
  codeBase : Nat
  codeLen : Nat
  resident : Bool
  inits : List (SReg × Word)
  place : List (Nat × Nat)
  seghold : Option (Nat × Nat)
  /-- The buffers that the file declares (R51), those that `home` puts on a stack (R372), and the replica dies that `rep` gives
  (R351). -/
  buffers : List BufReq
  home : List (Nat × Nat)
  rep : List (Nat × List Nat)
  /-- The row maps that it prepares (R354). -/
  rowmaps : List RowMapReq
  /-- The context, where keldb launches (R394); none where it is one that the driver created. -/
  keldb : Option KeldbReq
  deriving DecidableEq, Repr

/-- One entry of the command ring (R381), less its CODE, which the constructor names. -/
structure Cmd where
  ctx : Word
  reserved : Bool
  p0 : BitVec 64
  p1 : BitVec 64
  deriving DecidableEq, Repr

/-- A read or a write of device memory by an agent outside the part: a byte address and, for a write, its bytes. -/
structure ExtAccess where
  addr : Nat
  len : Nat
  write : Option (List Byte)
  deriving DecidableEq, Repr

/-- What a cold reset meets: the bytes of the three images in the order in which the boot ROM verifies them (R387), and what the
checks of training show of each pseudo-channel, numbered 96 times its stack on (R390): of its 34 lanes the delays that pass, where
they do not all pass, and the channels whose final pattern check reports an error. -/
structure BootImages where
  images : List (List Byte)
  lanes : List (Nat × List (BitVec 64))
  finalBad : List Nat
  deriving DecidableEq, Repr

inductive Instr where
  -- Control, OP 0x00 to 0x07 (R64 to R93)
  | nop (c : Ctl)
  | yield (c : Ctl)
  | bra (c : Ctl) (hint : Hint) (off : BitVec 18)
  | brc (c : Ctl) (neg : Bool) (dim : Fin 3) (a : Opd) (hint : Hint) (off : BitVec 18)
  | brx (c : Ctl) (t : Opd)
  | call (c : Ctl) (k : Opd) (hint : Hint) (off : BitVec 18)
  | callReg (c : Ctl) (k t : Opd)
  | ret (c : Ctl) (k : Opd)
  | exit (c : Ctl)
  | join (c : Ctl) (m : MReg)
  | leave (c : Ctl) (m : MReg)
  | waitm (c : Ctl) (m : MReg)
  | mop (c : Ctl) (op : MopOp) (d a b : MReg)
  | mcnt (c : Ctl) (d : Opd) (a : MReg)
  | mfrom (c : Ctl) (d : MReg) (a : Opd)
  | mto (c : Ctl) (d : Opd) (a : MReg)
  | loop (c : Ctl) (lc : LcReg) (count : Opd) (len : BitVec 10)
  | loopq (c : Ctl) (lc : LcReg) (q : QReg) (len : BitVec 10) (dim : Fin 3)
  | lbrk (c : Ctl) (n : Fin 3)
  | qbind (c : Ctl) (q : QReg) (h d : SReg) (it : IT)
  | qstat (c : Ctl) (d : Opd) (q : QReg) (sel : Fin 4)
  | qskip (c : Ctl) (q : QReg) (n : Opd)
  -- Scope and convergence, OP 0x10 to 0x11 (R112 to R116)
  | sign (c : Ctl)
  | cvwait (c : Ctl) (a : Opd) (sel : Fin 10)
  | cvrd (c : Ctl) (d : Opd) (sel : Fin 10)
  | elect (c : Ctl) (d : Opd)
  | bcast (c : Ctl) (d a l : Opd)
  -- Integer, OP 0x18 to 0x23 (R121 to R128)
  | iadd (c : Ctl) (it : IT) (sat : Bool) (d a b : Opd)
  | isub (c : Ctl) (it : IT) (sat : Bool) (d a b : Opd)
  | iaddc (c : Ctl) (it : IT) (d a b : Opd) (m : MReg)
  | isubb (c : Ctl) (it : IT) (d a b : Opd) (m : MReg)
  | imul (c : Ctl) (it : IT) (d a b : Opd)
  | imulh (c : Ctl) (it : IT) (d a b : Opd)
  | imad (c : Ctl) (it : IT) (d a b e : Opd)
  | imin (c : Ctl) (it : IT) (d a b : Opd)
  | imax (c : Ctl) (it : IT) (d a b : Opd)
  | iabs (c : Ctl) (it : IT) (d a : Opd)
  | shl (c : Ctl) (it : IT) (d a b : Opd)
  | shr (c : Ctl) (it : IT) (d a b : Opd)
  | sar (c : Ctl) (it : IT) (d a b : Opd)
  | rotl (c : Ctl) (it : IT) (d a b : Opd)
  | bfx (c : Ctl) (it : IT) (d a pos len : Opd)
  | bfi (c : Ctl) (it : IT) (d a b f : Opd)
  | popc (c : Ctl) (it : IT) (d a : Opd)
  | clz (c : Ctl) (it : IT) (d a : Opd)
  | ctz (c : Ctl) (it : IT) (d a : Opd)
  | brev (c : Ctl) (it : IT) (d a : Opd)
  | icmp (c : Ctl) (it : IT) (p : Pred) (d a b : Opd)
  | isel (c : Ctl) (d a b e : Opd)
  | mov (c : Ctl) (d a : Opd)
  | movw (c : Ctl) (hi : Bool) (d a : Opd) (imm : BitVec 16)
  | movi (c : Ctl) (d : Opd) (imm : Word)
  | cvti (c : Ctl) (dst src : IT) (sat : Bool) (d a : Opd)
  | bitfn (c : Ctl) (k : BitVec 8) (d a b e : Opd)
  -- Cross-lane, OP 0x26 to 0x2B (R129 to R134)
  | lsh (c : Ctl) (op : LshOp) (d a b : Opd)
  | lxch (c : Ctl) (d a b : Opd)
  | lred (c : Ctl) (op : RedOp) (it : IT) (d a : Opd)
  | lscan (c : Ctl) (op : RedOp) (it : IT) (excl : Bool) (d a : Opd)
  | lbal (c : Ctl) (d a : Opd)
  | lvote (c : Ctl) (op : VoteOp) (d a : Opd)
  | lget (c : Ctl) (d : SReg) (a l : Opd)
  | lput (c : Ctl) (d a l : Opd)
  -- Floating point and SFU, OP 0x30 to 0x40 (R149 to R164)
  | fadd (c : Ctl) (ft : FT) (r : Rnd) (sat : Bool) (d a b seed : Opd)
  | fsub (c : Ctl) (ft : FT) (r : Rnd) (sat : Bool) (d a b seed : Opd)
  | fmul (c : Ctl) (ft : FT) (r : Rnd) (sat : Bool) (d a b seed : Opd)
  | ffma (c : Ctl) (ft : FT) (r : Rnd) (d a b e : Opd)
  | fmin (c : Ctl) (ft : FT) (d a b : Opd)
  | fmax (c : Ctl) (ft : FT) (d a b : Opd)
  | fminn (c : Ctl) (ft : FT) (d a b : Opd)
  | fmaxn (c : Ctl) (ft : FT) (d a b : Opd)
  | fcmp (c : Ctl) (ft : FT) (p : FPred) (d a b : Opd)
  | fclass (c : Ctl) (ft : FT) (d a : Opd)
  | fcvt (c : Ctl) (dst src : TC) (r : Rnd) (sat : Bool) (d a seed : Opd)
  | frnd (c : Ctl) (ft : FT) (r : Rnd) (d a : Opd)
  | fscale (c : Ctl) (ft : FT) (r : Rnd) (d a n : Opd)
  | fsqrt (c : Ctl) (ft : FT) (r : Rnd) (d a : Opd)
  | frcp (c : Ctl) (ft : FT) (d a : Opd)
  | frsq (c : Ctl) (ft : FT) (d a : Opd)
  | fdivs (c : Ctl) (ft : FT) (d a b : Opd)
  | fexp2 (c : Ctl) (ft : FT) (d a : Opd)
  | flog2 (c : Ctl) (ft : FT) (d a : Opd)
  | fsin (c : Ctl) (ft : FT) (d a : Opd)
  | fcos (c : Ctl) (ft : FT) (d a : Opd)
  | ftanh (c : Ctl) (ft : FT) (d a : Opd)
  | fsigm (c : Ctl) (ft : FT) (d a : Opd)
  | fact (c : Ctl) (ft : FT) (d a : Opd)
  | tblsel (c : Ctl) (a : Opd)
  | tblld (c : Ctl) (a : Opd) (bank : Fin 2)
  | pradd (c : Ctl) (ft : FT) (r : Rnd) (swb : Bool) (d a b seed : Opd)
  | prmul (c : Ctl) (ft : FT) (r : Rnd) (swb : Bool) (d a b seed : Opd)
  | prfma (c : Ctl) (ft : FT) (r : Rnd) (swb : Bool) (d a b e : Opd)
  -- Packed narrow and sort, OP 0x48 to 0x4F (R168 to R177)
  | dp4i (c : Ctl) (sat : Bool) (d a b e : Opd)
  | dp8i (c : Ctl) (sat : Bool) (d a b e : Opd)
  | dpf8 (c : Ctl) (ka kb : Bool) (d a b e : Opd)
  | dpf4 (c : Ctl) (d a b e : Opd)
  | mxsc (c : Ctl) (one : Bool) (d a sa sb : Opd)
  | pcvt (c : Ctl) (dst src : TC) (r : Rnd) (sat : Bool) (d a seed : Opd)
  | punp (c : Ctl) (src : TC) (hi : Bool) (d a : Opd)
  | vtopk (c : Ctl) (asc : Bool) (d a : VReg) (b k : Opd)
  | vtopkm (c : Ctl) (asc : Bool) (d a : VReg) (k : Opd)
  | argmx (c : Ctl) (ft : FT) (asc : Bool) (d a b : Opd)
  -- Matrix, OP 0x50 to 0x5D (R191 to R199)
  | mwld (c : Ctl) (fmt : TC) (a b : Opd)
  | mwsw (c : Ctl)
  | mwfm (c : Ctl)
  | mma (c : Ctl) (ka : AKind) (reuse : Bool) (t : Tile) (i j : BitVec 2) (a b e : Opd)
  | mzero (c : Ctl) (t : Tile)
  | mrda (c : Ctl) (raw : Bool) (t : Tile) (d : Opd) (n : BitVec 6) (row0 col : Opd)
  | mwra (c : Ctl) (t : Tile) (d : Opd) (n : BitVec 6) (row0 col : Opd)
  | msta (c : Ctl) (t : Tile) (a : Opd) (ft : TC)
  | mlda (c : Ctl) (t : Tile) (a : Opd)
  | mrow (c : Ctl) (i : BitVec 2) (a : Opd)
  | mcol (c : Ctl) (j : BitVec 2) (a : Opd)
  | msca (c : Ctl) (a : Opd)
  | mrel (c : Ctl)
  | mfin (c : Ctl)
  -- Memory access, OP 0x60 to 0x69 (R215 to R222)
  | ld (c : Ctl) (it : IT) (d : Opd) (x : MemOpd)
  | st (c : Ctl) (it : IT) (d : Opd) (x : MemOpd)
  | ldx (c : Ctl) (it : IT) (d : Opd) (x : MemOpd)
  | stx (c : Ctl) (it : IT) (d : Opd) (x : MemOpd)
  | ldv (c : Ctl) (it : IT) (d : Opd) (x : MemOpd)
  | stv (c : Ctl) (it : IT) (d : Opd) (x : MemOpd)
  | pref (c : Ctl) (h b : Opd) (off : BitVec 7)
  | fence (c : Ctl) (ord : Ordr) (scp : Scp)
  | btrd (c : Ctl) (d : Opd) (h : SReg) (w : Fin 16)
  | rowmap (c : Ctl) (ind : Bool) (h : SReg) (row val : Opd)
  -- Restripe, in place, near bank, OP 0x70 to 0x73 (R232 to R245)
  | restripe (c : Ctl) (gathered : Bool) (h : SReg) (tag : BitVec 6) (pace : Opd)
  | rsqry (c : Ctl) (d : Opd) (h : SReg)
  | ipadd (c : Ctl) (it : IT) (sat : Bool) (h : SReg) (dst a b : Opd)
  | ipsub (c : Ctl) (it : IT) (sat : Bool) (h : SReg) (dst a b : Opd)
  | ipmin (c : Ctl) (it : IT) (h : SReg) (dst a b : Opd)
  | ipmax (c : Ctl) (it : IT) (h : SReg) (dst a b : Opd)
  | ipmac (c : Ctl) (ft : FT) (h : SReg) (dst a b : Opd)
  | ipcpy (c : Ctl) (h : SReg) (dst a : Opd)
  | nbkick (c : Ctl) (h : SReg) (slot : Opd) (args : SReg) (tag : BitVec 6)
  | nbstat (c : Ctl) (d : Opd) (tag : BitVec 6)
  -- Scratchpad and tag table, OP 0x74 to 0x76 (R250 to R252)
  | ldsp (c : Ctl) (it : IT) (d a b : Opd)
  | stsp (c : Ctl) (it : IT) (d a b : Opd)
  | tlook (c : Ctl) (d key : Opd)
  | tset (c : Ctl) (slot key : Opd)
  | tclr (c : Ctl) (slot : Opd)
  -- Copy, tags, shadow, publish, OP 0x78 to 0x7B (R255 to R268)
  | copy (c : Ctl) (tag : BitVec 6) (a : SReg)
  | copyShadow (c : Ctl) (tag : BitVec 6) (a : SReg)
  | blkcpy (c : Ctl) (tag : BitVec 6) (h : SReg) (idx : VReg) (a : SReg)
  | waitany (c : Ctl) (d : SReg) (mask : Opd) (scp : Scp)
  | waitall (c : Ctl) (d : SReg) (mask : Opd) (scp : Scp)
  | ffrdy (c : Ctl) (d : SReg) (mask : Opd)
  | tagclr (c : Ctl) (mask : Opd)
  | shadow (c : Ctl) (tag : BitVec 6) (h : SReg) (first count : Opd)
  | publish (c : Ctl) (h : SReg)
  -- Atomics, sync, mailboxes, versioned cells, OP 0x7C to 0x7E (R295 to R315)
  | aadd (c : Ctl) (it : IT) (d : Opd) (x : MemOpd)
  | amin (c : Ctl) (it : IT) (d : Opd) (x : MemOpd)
  | amax (c : Ctl) (it : IT) (d : Opd) (x : MemOpd)
  | aand (c : Ctl) (it : IT) (d : Opd) (x : MemOpd)
  | aor (c : Ctl) (it : IT) (d : Opd) (x : MemOpd)
  | axor (c : Ctl) (it : IT) (d : Opd) (x : MemOpd)
  | axchg (c : Ctl) (it : IT) (d : Opd) (x : MemOpd)
  | acas (c : Ctl) (it : IT) (d : Opd) (x : MemOpd)
  | afadd (c : Ctl) (ft : FT) (d : Opd) (x : MemOpd)
  | redop (c : Ctl) (t : RedT) (o : RedOp) (d : Opd) (x : MemOpd)
  | barr (c : Ctl) (h : SReg) (off : Opd)
  | barw (c : Ctl) (h : SReg) (off : Opd)
  | mbput (c : Ctl) (q : Opd) (a : SReg)
  | mbget (c : Ctl) (d : SReg) (q : Opd)
  | mbtry (c : Ctl) (d : SReg) (q : Opd)
  | vld (c : Ctl) (w64 : Bool) (d : Opd) (h : SReg) (off ctx : Opd)
  | vlds (c : Ctl) (w64 : Bool) (d : Opd) (h : SReg) (off i : Opd)
  | vst (c : Ctl) (w64 : Bool) (d : Opd) (h : SReg) (off ctx : Opd)
  | recon (c : Ctl) (op : ReconOp) (all : Bool) (d : Opd) (h : SReg) (off ctx : Opd)
  -- System, OP 0x7F (R324 to R330)
  | trap (c : Ctl) (a : Opd)
  | rteReplay (c : Ctl) (a : Opd)
  | rteSkip (c : Ctl)
  | rteResume (c : Ctl)
  | gsr (c : Ctl) (d : SReg) (sel : BitVec 6)
  | ssr (c : Ctl) (sel : BitVec 6) (b : Opd)
  | halt (c : Ctl)
  | brk (c : Ctl)
  | clk (c : Ctl) (d : Opd)
  -- Steps of the part that no instruction word encodes, in the table's order
  | streamPrefetch (k : GKey) (q : QReg)
  | instanceIssue (n : Nat)
  | tblldLoadComplete (core : CKey) (bank : Nat)
  | weightLoadComplete (p : PKey)
  | bankSwap (p : PKey)
  | mmaPass (p : PKey)
  | arraySequenceStep (p : PKey)
  | resultWrite (k : GKey) (n : Nat)
  | checksDecided (k : GKey)
  | clauseFetch (k : GKey)
  | readCopyExpiry (die line : Nat)
  | lineMoveStart (buf : Nat)
  | lineMoveCommit (buf : Nat)
  | kickStep (core : CKey) (tag : Nat)
  | copySegment (core : CKey) (tag : Nat)
  | publishExchange (k : GKey)
  | siblingArrival (buf off src dst : Nat)
  | heldSiblingRelease (buf off src dst : Nat)
  | compaction (buf off : Nat)
  | haltLineArrival (ctx die : Nat)
  | dumpWrite (ctx : Nat)
  | handlerOverrun (k : GKey)
  | debugStop (ctx : Nat)
  | debugResume (ctx : Nat)
  | singleStep (k : GKey)
  | launch (r : LaunchReq)
  | teamPlacement (launch : Nat)
  | partialEviction (launch : Nat)
  | partyRestore (core : CKey)
  | groupExchange (p : PKey)
  | pendingGroupEntry (p : PKey)
  | ctxCreate (x : Cmd)
  | ctxHalt (x : Cmd)
  | ctxDestroy (x : Cmd)
  | contextRetire (ctx : Nat)
  | ctxAnnex (x : Cmd)
  | slotLoad (x : Cmd)
  | slotLoadComplete
  | frameRef (x : Cmd)
  | bufAdopt (x : Cmd)
  | hostPost (off : Nat) (bytes : List Byte)
  | cxlMemRequest (x : ExtAccess)
  | acccntWrite (tier : Bool) (frame : Word) (val : BitVec 16)
  | evqHead (val : Word)
  | eventOverflowDelivery (die : Nat)
  | lostev (die : Nat)
  | controlRegisterWrite (off : Nat) (val : BitVec 64)
  | getVersion
  | getCapabilities
  | negotiateAlgorithms (sigs hashes : List Nat)
  | getDigests
  | getCertificate
  | challenge (nonce : List Byte)
  | getMeasurements (index : Nat)
  | coldReset (x : BootImages)
  | warmReset
  | throttle (die : Nat)
  | thermalPowerRemoval
  | spanLinkDown (link : Nat)
  | spanLinkUp (link : Nat)
  | spanRequestTimeout (k : GKey)
  | linkRetrain (link : Nat)
  | flitCrcResend (link : Nat)
  | dieLost (die : Nat)
  | heartbeatTimeout (die : Nat)
  | unassignedEncoding (w : Word)
  | peerModuleRequest (link : Nat) (x : ExtAccess)
  | throttleEnd (die : Nat)
  | breakpointSet (ctx : Nat) (addr : Word) (on : Bool)
  | segholdRelease (ctx : Nat) (tag : Nat)
  deriving DecidableEq, Repr

end Sys2Proof
end

