-- ==== Sys2Proof/Machine/Bits.lean ====
section
/-! DEFINITION. Bit fields, sign extension, masks of lanes and list helpers. -/

namespace Sys2Proof.Machine

/-- Bits [lo + n - 1 : lo] of a number. -/
def fld (x lo n : Nat) : Nat := x / 2 ^ lo % 2 ^ n

/-- Bit `i` of a number. -/
def bitOf (x i : Nat) : Bool := x / 2 ^ i % 2 == 1

/-- Bit `i` of a mask; false from lane 64 on. -/
def laneBit (m : Mask) (i : Nat) : Bool := m.getLsbD i

/-- The number read as a two's-complement value of `n` bits. -/
def sext (n x : Nat) : Int :=
  let y := x % 2 ^ n
  if y < 2 ^ (n - 1) then (y : Int) else (y : Int) - (2 ^ n : Nat)

/-- The low `n` bits of an integer. -/
def lowBits (n : Nat) (z : Int) : Nat := (z % (2 ^ n : Nat)).toNat

/-- The lowest set bit at or above `i`, looking at `fuel` bits. -/
def lowestFrom (x : Nat) (i : Nat) : Nat → Option Nat
  | 0 => none
  | n + 1 => if bitOf x i then some i else lowestFrom x (i + 1) n

/-- Lowest lane of a mask. -/
def lowestLane (m : Mask) : Option Nat := lowestFrom m.toNat 0 64

/-- The mask of the lanes of `List.range 64` that satisfy a test. -/
def maskFrom (f : Nat → Bool) (i : Nat) : Nat → Nat
  | 0 => 0
  | n + 1 => (if f i then 2 ^ i else 0) + maskFrom f (i + 1) n

/-- The lanes that satisfy a test. -/
def maskOf (f : Nat → Bool) : Mask := BitVec.ofNat 64 (maskFrom f 0 64)

/-- Lanes of a mask, ascending. -/
def lanesOf (m : Mask) : List Nat := (List.range 64).filter (laneBit m)

/-- The mask bits of a list of tests, lane 0 first. -/
def maskFromList (i : Nat) : List Bool → Nat
  | [] => 0
  | b :: t => (if b then 2 ^ i else 0) + maskFromList (i + 1) t
def maskOfList (bs : List Bool) : Mask := BitVec.ofNat 64 (maskFromList 0 bs)

/-- Count of set bits. -/
def popMask (m : Mask) : Nat := (lanesOf m).length

/-- All lanes. -/
def allLanes : Mask := BitVec.allOnes 64

/-- Replace entry `i` of a list. -/
def setAt {α : Type} : List α → Nat → α → List α
  | [], _, _ => []
  | _ :: t, 0, x => x :: t
  | y :: t, n + 1, x => y :: setAt t n x

/-- Element `i`, or a default. -/
def nth {α : Type} (d : α) : List α → Nat → α
  | [], _ => d
  | x :: _, 0 => x
  | _ :: t, n + 1 => nth d t n

/-- Apply a function to entry `i`. -/
def modAt {α : Type} : List α → Nat → (α → α) → List α
  | [], _, _ => []
  | x :: t, 0, f => f x :: t
  | y :: t, n + 1, f => y :: modAt t n f

/-- Merge lane values: new values in the lanes of the mask, the old ones elsewhere. -/
def mergeFrom (m : Nat) (i : Nat) : Lanes → Lanes → Lanes
  | o :: os, n :: ns => (if bitOf m i then n else o) :: mergeFrom m (i + 1) os ns
  | os, _ => os

/-- Merge lane values under a mask. -/
def mergeLanes (m : Mask) (old new : Lanes) : Lanes := mergeFrom m.toNat 0 old new

/-- Division of naturals rounded up. -/
def cdiv (a b : Nat) : Nat := (a + b - 1) / b

/-- A 64-bit value from a low and a high word. -/
def pairOf (lo hi : Word) : BitVec 64 := BitVec.ofNat 64 (lo.toNat + hi.toNat * 2 ^ 32)

/-- The low and high word of a 64-bit value. -/
def loWord (x : BitVec 64) : Word := BitVec.ofNat 32 x.toNat
def hiWord (x : BitVec 64) : Word := BitVec.ofNat 32 (x.toNat / 2 ^ 32)

end Sys2Proof.Machine
end

