-- ==== Sys2Proof/Machine/Desc.lean ====
section
/-! DEFINITION. One description of every encoded instruction, from the opcode map (R40) and the entries: its OP, FN
and format, what each operand field holds and accepts (R30, R31), its latency class, and the scopes it allows. The
encoder, well-formedness, the scope checks, the budget check (R393) and the checking scoreboard (R38) all read it. -/

namespace Sys2Proof

/-- Instruction formats (R27). -/
inductive Fmt where
  | S | R | I | J | M | L
  deriving DecidableEq, Repr

/-- How an instruction uses the registers a field names. -/
inductive Use where
  | none | rd | wr | rw
  deriving DecidableEq, Repr

/-- A 10-bit field: its code, whether the entry accepts it, and the registers it names (R31, R393). -/
structure Slot where
  code : Nat
  ok : Bool
  opd : Option Opd
  run : Nat
  use : Use
  /-- A floating-point source, whose registers are checked for the marker (R146). -/
  fp : Bool := false
  deriving DecidableEq, Repr

/-- The Lat column of R40. -/
inductive Lat where
  | fixed (n : Nat)
  | var
  | none
  deriving DecidableEq, Repr

/-- What .await means for an instruction: allowed, a scope fault because its effect is given once (R104), or no
encoding (R27, R112). -/
inductive AwaitRule where
  | perLane | once | never
  deriving DecidableEq, Repr

/-- The description of an encoded instruction. -/
structure Desc where
  op : Nat
  fn : Nat
  fmt : Fmt
  lat : Lat
  scopes : List Scope
  await : AwaitRule
  d : Slot
  a : Slot
  b : Slot
  c : Slot
  m : Nat
  deriving DecidableEq, Repr

/-- The clause class of an OP (R40, R24): none where the map does not list it. -/
def classOf (op : Nat) : Option Nat :=
  if op ≤ 0x07 then some 4
  else if op < 0x10 then none
  else if op ≤ 0x11 then some 5
  else if op < 0x18 then none
  else if op ≤ 0x23 then some 0
  else if op < 0x26 then none
  else if op ≤ 0x2B then some 0
  else if op < 0x30 then none
  else if op ≤ 0x40 then some 1
  else if op < 0x48 then none
  else if op ≤ 0x4F then some 0
  else if op ≤ 0x5D then some 3
  else if op < 0x60 then none
  else if op ≤ 0x69 then some 2
  else if op < 0x70 then none
  else if op ≤ 0x73 then some 6
  else if op ≤ 0x76 then some 2
  else if op < 0x78 then none
  else if op ≤ 0x7B then some 6
  else if op ≤ 0x7E then some 5
  else if op = 0x7F then some 7
  else none

def Scope.code : Scope → Nat
  | .lane => 0 | .group => 1 | .party => 2 | .team => 3

def IT.code : IT → Nat
  | .i8 => 0 | .i16 => 1 | .i32 => 2 | .i64 => 3 | .w8 => 4 | .w16 => 5 | .w32 => 6 | .w64 => 7

/-- Width in bits (R118). -/
def IT.bits : IT → Nat
  | .i8 => 8 | .i16 => 16 | .i32 => 32 | .i64 => 64 | .w8 => 8 | .w16 => 16 | .w32 => 32 | .w64 => 64

def IT.signed : IT → Bool
  | .i8 => true | .i16 => true | .i32 => true | .i64 => true | _ => false

def FT.code : FT → Nat
  | .f32 => 0 | .f16 => 1 | .bf16 => 2

def Rnd.code : Rnd → Nat
  | .rne => 0 | .rz => 1 | .rp => 2 | .rm => 3 | .sr => 4

def Ordr.code : Ordr → Nat
  | .rlx => 0 | .acq => 1 | .rel => 2 | .ar => 3

def Scp.code : Scp → Nat
  | .team => 0 | .cluster => 1 | .die => 2 | .package => 3 | .system => 4

def TC.code : TC → Nat
  | .f32 => 0 | .f16 => 1 | .bf16 => 2 | .e4m3 => 3 | .e5m2 => 4 | .e2m3 => 5 | .e3m2 => 6 | .e2m1 => 7
  | .i8 => 8 | .i16 => 9 | .i32 => 10 | .i64 => 11 | .w8 => 12 | .w16 => 13 | .w32 => 14 | .w64 => 15

def TC.isInt (t : TC) : Bool := 8 ≤ t.code

/-- A TC that names an integer type also names 64-bit ones (R32, R153). -/
def TC.is64 : TC → Bool
  | .i64 => true | .w64 => true | _ => false

def Special.code : Special → Nat
  | .lane => 0x360 | .group => 0x361 | .party => 0x362 | .team => 0x363 | .width => 0x364 | .core => 0x365
  | .die => 0x366 | .clock => 0x367 | .vpc => 0x368

/-- The 10-bit operand code (R30). -/
def Opd.code : Opd → Nat
  | .v n => n.toNat
  | .s n => 0x100 + n.toNat
  | .y n => 0x300 + n.toNat
  | .q n => 0x340 + n.toNat
  | .m n => 0x350 + n.val
  | .sp x => x.code
  | .lc n => 0x369 + n.val
  | .imm k => 0x380 + k.toNat

def Opd.isV : Opd → Bool | .v _ => true | _ => false
def Opd.isS : Opd → Bool | .s _ => true | _ => false
def Opd.isY : Opd → Bool | .y _ => true | _ => false
def Opd.isQ : Opd → Bool | .q _ => true | _ => false
def Opd.isM : Opd → Bool | .m _ => true | _ => false
def Opd.isLc : Opd → Bool | .lc _ => true | _ => false
def Opd.isImm : Opd → Bool | .imm _ => true | _ => false
def Opd.isVS (o : Opd) : Bool := o.isV || o.isS
def Opd.isVY (o : Opd) : Bool := o.isV || o.isY
def Opd.isVSY (o : Opd) : Bool := o.isV || o.isS || o.isY
def Opd.isVSI (o : Opd) : Bool := o.isV || o.isS || o.isImm
def Opd.isSI (o : Opd) : Bool := o.isS || o.isImm
def Opd.isVSYI (o : Opd) : Bool := o.isV || o.isS || o.isY || o.isImm

/-- An inline constant from 0 to 63 (R30). -/
def Opd.isU6 : Opd → Bool | .imm k => k.toNat < 64 | _ => false
def Opd.isSU6 (o : Opd) : Bool := o.isS || o.isU6

/-- The inline constant 0 to `n`. -/
def Opd.isUpTo (n : Nat) : Opd → Bool | .imm k => k.toNat ≤ n | _ => false

/-- A destination in scalar form: an s or lc register (R117). -/
def Opd.isScalarDst (o : Opd) : Bool := o.isS || o.isLc

/-- A source of the integer and float classes (R121): any but a mask; in scalar form none that is per lane (R117). -/
def Opd.isSrc (scalar : Bool) : Opd → Bool
  | .v _ => !scalar
  | .y _ => !scalar
  | .sp .lane => !scalar
  | .sp .vpc => !scalar
  | .m _ => false
  | _ => true

/-- The operand `j` registers on. -/
def Opd.plus (o : Opd) (j : Nat) : Opd :=
  match o with
  | .v n => .v (n + BitVec.ofNat 8 j)
  | .s n => .s (n + BitVec.ofNat 9 j)
  | .y n => .y (n + BitVec.ofNat 6 j)
  | x => x

/-- Registers named by a run fit the register file (R393, R31). DESIGN CHOICE (log 108): a run that passes the last register is no
encoding, and so FAULTREG is 0, also where its registers lie at or above the budget as well. -/
def Opd.fits (run align : Nat) : Opd → Bool
  | .v n => n.toNat + run ≤ 256 && n.toNat % align == 0
  | .s n => n.toNat + run ≤ 512 && n.toNat % align == 0
  | .y n => n.toNat + run ≤ 64 && n.toNat % align == 0
  | _ => true

def Slot.zero : Slot := ⟨0, true, none, 0, .none, false⟩

/-- A field that holds a number and no operand. -/
def Slot.num (n : Nat) : Slot := ⟨n, n < 1024, none, 0, .none, false⟩

/-- An operand kept in the syntax and not used by this form: it must be code 0 (R29). -/
def Slot.unused (o : Opd) : Slot := ⟨o.code, o == .v 0, none, 0, .none, false⟩

/-- A field that reads `run` registers from the operand. -/
def Slot.rd (acc : Opd → Bool) (o : Opd) (run : Nat := 1) (align : Nat := 1) : Slot :=
  ⟨o.code, acc o && o.fits run align, some o, run, .rd, false⟩

/-- A field that writes `run` registers from the operand. -/
def Slot.wr (acc : Opd → Bool) (o : Opd) (run : Nat := 1) (align : Nat := 1) : Slot :=
  ⟨o.code, acc o && o.fits run align, some o, run, .wr, false⟩

/-- A field that reads and writes. -/
def Slot.rw (acc : Opd → Bool) (o : Opd) (run : Nat := 1) (align : Nat := 1) : Slot :=
  ⟨o.code, acc o && o.fits run align, some o, run, .rw, false⟩

/-- A field that names a register for its number alone, or state that no budget covers. -/
def Slot.name (acc : Opd → Bool) (o : Opd) : Slot := ⟨o.code, acc o, some o, 1, .none, false⟩

/-- The field is a floating-point source (R146). -/
def Slot.float (x : Slot) : Slot := { x with fp := true }

/-- Registers a 64-bit type takes (R118). -/
def IT.run (it : IT) : Nat := if it.bits = 64 then 2 else 1

def scopesAll : List Scope := [.lane, .group, .party, .team]
def scopesLane : List Scope := [.lane]
def scopesWide : List Scope := [.group, .party, .team]

/-- Integer source and destination fields (R117, R118, R121). -/
def Slot.isrc (d : Opd) (it : IT) (o : Opd) : Slot := Slot.rd (Opd.isSrc d.isScalarDst) o it.run it.run
def Slot.isrc1 (d : Opd) (o : Opd) : Slot := Slot.rd (Opd.isSrc d.isScalarDst) o
def Slot.idst (it : IT) (o : Opd) : Slot := Slot.wr Opd.isVSY o it.run it.run

/-- An integer-class instruction of format R with fixed latency 4 (R121). -/
def Desc.int (op fn : Nat) (d a b c : Slot) (m : Nat) : Desc :=
  ⟨op, fn, .R, .fixed 4, scopesAll, .perLane, d, a, b, c, m⟩

/-- A control instruction of format R (R64). -/
def Desc.ctl (op fn : Nat) (lat : Lat) (d a b c : Slot) : Desc :=
  ⟨op, fn, .R, lat, scopesLane, .perLane, d, a, b, c, 0⟩

/-- A one-word instruction (R27). -/
def Desc.short (op fn : Nat) (scopes : List Scope) (d : Slot) : Desc :=
  ⟨op, fn, .S, .none, scopes, .perLane, d, .zero, .zero, .zero, 0⟩

def b2n (b : Bool) : Nat := if b then 1 else 0

/-- HINT and OFF18 of format J as the B and C fields (R27). -/
def Hint.code : Hint → Nat
  | .none => 0 | .lk => 1 | .ul => 2 | .un => 3
def jB (h : Hint) (off : BitVec 18) : Nat := h.code * 256 + off.toNat / 1024
def jC (off : BitVec 18) : Nat := off.toNat % 1024

/-- A branch of format J. -/
def Desc.jump (fn : Nat) (op : Nat) (d a : Slot) (h : Hint) (off : BitVec 18) (m : Nat) : Desc :=
  ⟨op, fn, .J, .none, scopesLane, .perLane, d, a, .num (jB h off), .num (jC off), m⟩

/-- A cross-lane instruction (R119, R129). -/
def Desc.cross (op fn : Nat) (lat : Lat) (d a b c : Slot) (m : Nat) : Desc :=
  ⟨op, fn, .R, lat, [.lane, .group, .party], .once, d, a, b, c, m⟩

/-- A floating-point instruction (R147). -/
def Desc.fp (op fn : Nat) (lat : Lat) (d a b c : Slot) (m : Nat) : Desc :=
  ⟨op, fn, .R, lat, scopesAll, .perLane, d, a, b, c, m⟩

def Slot.fsrc (d : Opd) (o : Opd) : Slot := (Slot.rd (Opd.isSrc d.isScalarDst) o).float
def Slot.fdst (o : Opd) : Slot := Slot.wr Opd.isVSY o

/-- The seed field: an s register under .sr, else zero (R33). -/
def Slot.seed (r : Rnd) (o : Opd) : Slot := if r = .sr then Slot.rd Opd.isS o else Slot.unused o

/-- A rounding code that an instruction without a seed accepts (R33). -/
def Slot.noSr (r : Rnd) (x : Slot) : Slot := { x with ok := x.ok && r != .sr }

/-- The FP functions of FT (R40): FN[18:17] FT and FN[16:14] x. -/
def ftx (ft : FT) (x : Nat) : Nat := ft.code * 8 + x
def itx (it : IT) (x : Nat) : Nat := it.code * 4 + x

/-- FT .f16 or .bf16 (R158). -/
def FT.half : FT → Bool
  | .f32 => false | _ => true

def Pred.code : Pred → Nat
  | .eq => 0 | .ne => 1 | .lt => 2 | .le => 3 | .gt => 4 | .ge => 5
def FPred.code : FPred → Nat
  | .eq => 0 | .ne => 1 | .lt => 2 | .le => 3 | .gt => 4 | .ge => 5 | .ord => 6 | .unord => 7
def LshOp.code : LshOp → Nat
  | .up => 0 | .down => 1 | .xor => 2 | .rot => 3
def RedOp.code : RedOp → Nat
  | .add => 0 | .min => 1 | .max => 2 | .or => 3
def VoteOp.code : VoteOp → Nat
  | .all => 1 | .any => 2 | .same => 3
def MopOp.code : MopOp → Nat
  | .and => 0 | .or => 1 | .xor => 2 | .andn => 3
def RedT.code : RedT → Nat
  | .w32 => 0 | .i32 => 1 | .f32 => 2
def ReconOp.code : ReconOp → Nat
  | .sum => 0 | .min => 1 | .max => 2 | .or => 3 | .and => 4 | .pick => 5
def AKind.code : AKind → Nat
  | .e4m3 => 0 | .e5m2 => 1 | .e2m3 => 2 | .e3m2 => 3 | .e2m1 => 4 | .bf16 => 5 | .i8 => 6

/-- LSH's offset field (R130): an s register, 0 to 63, or −7 to −1. -/
def Opd.isLshOff : Opd → Bool
  | .s _ => true
  | .imm k => k.toNat < 64 || 121 ≤ k.toNat
  | _ => false

/-- The IT codes QBIND accepts (R86). -/
def IT.qOk : IT → Bool
  | .i64 => false | .w64 => false | _ => true

/-- The mask operand of RTE.replay (R325): four-aligned scalars or −1. -/
def Opd.isRteMask : Opd → Bool
  | .s n => n.toNat % 4 == 0
  | .imm k => k == 127
  | _ => false

/-- Widths of the state registers of R320: selectors 2, 4, 12 and 13 are 64 bits wide; 18 to 63 are unassigned. -/
def stateRegWide (sel : Nat) : Bool := sel == 2 || sel == 4 || sel == 12 || sel == 13
def stateRegRun (sel : Nat) : Nat := if stateRegWide sel then 2 else 1

/-- A format M field group (R27): SCP and OFF7 as the C field, ORD as M. -/
def mC (x : MemOpd) : Nat := x.scp.code * 128 + x.off.toNat

/-- Slots of a packed register (R166), and their width. -/
def TC.slots : TC → Nat
  | .f16 => 2 | .bf16 => 2 | .e4m3 => 4 | .e5m2 => 4 | .e2m3 => 4 | .e3m2 => 4 | .e2m1 => 8
  | .i8 => 4 | .w8 => 4 | .i16 => 2 | .w16 => 2 | _ => 1
def TC.slotBits (t : TC) : Nat := 32 / t.slots

/-- The pairs that PCVT accepts (R172) and the types that PUNP accepts (R173). -/
def pcvtOk (dst src : TC) : Bool :=
  (src.code ≤ 2 && 1 ≤ dst.code && dst.code ≤ 7) || ((src == .i32 || src == .w32) && (dst == .i8 || dst == .w8))
def punpOk (src : TC) : Bool := (1 ≤ src.code && src.code ≤ 9) || src == .w8 || src == .w16

/-- DPF8's and DPF4's accumulator (R169), DP4I's and DP8I's (R168), and a scale of MXSC (R171). -/
def Slot.dpAcc (d o : Opd) : Slot := (Slot.rd (fun x => (x.isVSY || x.isQ || x.isImm) && Opd.isSrc d.isScalarDst x) o).float
def Slot.dpInt (d o : Opd) : Slot := Slot.rd (fun x => !x.isLc && Opd.isSrc d.isScalarDst x) o
def Slot.scale (d o : Opd) : Slot := Slot.rd (fun x => x.isVSYI && Opd.isSrc d.isScalarDst x) o

/-- VTOPK's k: a scalar or 1 to 63 (R175). -/
def Opd.isTopK : Opd → Bool
  | .s _ => true
  | .imm k => 1 ≤ k.toNat && k.toNat < 64
  | _ => false

def Opd.isSp : Opd → Bool | .sp _ => true | _ => false

/-- An offset of a scratchpad or buffer access (R215, R250), and a key of the tag table (R252). -/
def Opd.isAddr (scalar : Bool) (o : Opd) : Bool := (o.isVSY || o.isQ || o.isSp || o.isU6) && Opd.isSrc scalar o
def Opd.isKey (scalar : Bool) (o : Opd) : Bool := (o.isVSYI || o.isQ || o.isSp) && Opd.isSrc scalar o
def Slot.addr (d o : Opd) : Slot := Slot.rd (Opd.isAddr d.isScalarDst) o

/-- A matrix instruction (R183). -/
def Desc.mx (op fn : Nat) (d a b c : Slot) (m : Nat) : Desc :=
  ⟨op, fn, .R, .none, [.group, .party], .once, d, a, b, c, m⟩

/-- Weight formats (R179), those with scales, and the types MSTA stores (R199). -/
def TC.mxFmt : TC → Bool
  | .e4m3 => true | .e5m2 => true | .e2m3 => true | .e3m2 => true | .e2m1 => true | .bf16 => true | .i32 => true | _ => false
def TC.mxScaled : TC → Bool
  | .e4m3 => true | .e5m2 => true | .e2m3 => true | .e3m2 => true | .e2m1 => true | _ => false
def TC.mstaOk : TC → Bool
  | .f32 => true | .f16 => true | .bf16 => true | .i32 => true | _ => false

/-- A kinds that carry scales, and the registers of an A row at the smaller K (R189). -/
def AKind.scaled : AKind → Bool
  | .bf16 => false | .i8 => false | _ => true
def AKind.runA : AKind → Nat
  | .e2m1 => 16 | _ => 32

/-- K of a weight format (R179). -/
def mxK (fmt : TC) : Nat := if fmt = .e2m1 then 256 else if fmt = .bf16 then 64 else 128

/-- A kind pairs with a weight format (R188). -/
def mxPairs (ka : AKind) (fmt : TC) : Bool :=
  match ka with | .bf16 => fmt == .bf16 | .i8 => fmt == .i32 | _ => fmt.mxScaled

/-- Bits of an element of an A kind (R166), and the registers of an A run and of a scale run (R189). -/
def aSlotBits : AKind → Nat
  | .e2m1 => 4 | .bf16 => 16 | _ => 8
def aRun (ka : AKind) (k : Nat) : Nat := k * aSlotBits ka / 32
def scaleRun (ka : AKind) (k : Nat) (e : Opd) : Nat := if ka.scaled && !e.isImm then k / 128 else 0

/-- A predicate's source (R197): four scalars, or the constant 0 or −1. -/
def Opd.isPredSrc : Opd → Bool
  | .s _ => true
  | .imm k => k == 0 || k == 127
  | _ => false

/-- The offset of a format M access (R215), its handle or address pair, and the six access instructions. -/
def Opd.isOff (scalar : Bool) (o : Opd) : Bool := (o.isVSYI || o.isQ || o.isSp) && Opd.isSrc scalar o
def Slot.hnd (d o : Opd) (run : Nat := 1) : Slot := Slot.rd (fun x => x.isVS && Opd.isSrc d.isScalarDst x) o run run
def Desc.mem (op : Nat) (it : IT) (lat : Lat) (d h : Slot) (dst : Opd) (x : MemOpd) (ordOk : Bool) : Desc :=
  ⟨op, itx it 0, .M, lat, scopesAll, .never, { d with ok := d.ok && ordOk }, h,
    .rd (Opd.isOff dst.isScalarDst) x.b, .num (mC x), x.ord.code⟩

/-- An in-place operation (R234) and the offset of one of its words. -/
def Slot.ipw (o : Opd) : Slot := Slot.rd (fun x => x.isVSY || x.isU6) o
def Desc.ip (op fn : Nat) (h : SReg) (dst a : Opd) (b : Slot) (m : Nat) : Desc :=
  ⟨op, fn, .R, .none, scopesAll, .perLane, .rd Opd.isS (.s h), .ipw dst, .ipw a, b, m⟩

/-- A tag mask (R255): an even pair of scalars, or a constant that names one tag. -/
def Slot.tags (o : Opd) : Slot := if o.isS then Slot.rd Opd.isS o 2 2 else Slot.rd Opd.isU6 o

/-- The types of an integer atomic (R295), and an atomic in format M. -/
def IT.atomic (it : IT) : Bool := 32 ≤ it.bits
def Desc.atom (op : Nat) (it : IT) (sub : Nat) (d : Opd) (x : MemOpd) : Desc :=
  { Desc.mem op it .var (.rw Opd.isVSY d it.run it.run) (.hnd d x.h) d x it.atomic with fn := itx it sub }

/-- Registers of a versioned value (R310), and a quad in the form that D has. -/
def vRun (w64 : Bool) : Nat := if w64 then 2 else 1
def Opd.isQuad (d o : Opd) : Bool := if d.isS then o.isS else o.isV

/-- The description of every encoded instruction; a step of the part that no word encodes has none (R40). DESIGN CHOICE (log 118): on
the integer pairs of PCVT, where nothing is rounded (R172), every RND is legal and without effect, .sr and its seed in C among them; R153
faults .sr alone where a CVT converts to an integer. -/
def Instr.desc : Instr → Option Desc
  | .nop _ => some (Desc.short 0x00 0 scopesAll .zero)
  | .yield _ => some (Desc.short 0x00 1 scopesLane .zero)
  | .bra _ h o => some (Desc.jump 0 0x01 .zero .zero h o 0)
  | .brc _ neg dim a h o => some (Desc.jump 1 0x01 { Slot.num dim.val with ok := dim.val == 0 || a.isQ }
      (match a with
        | .q _ => Slot.name (fun _ => true) a
        | _ => Slot.rd (fun x => x.isV || x.isS || x.isM) a) h o (b2n neg))
  | .brx _ t => some (Desc.ctl 0x02 0 .none .zero (.rd Opd.isVS t) .zero .zero)
  | .call _ k h o => some (Desc.jump 1 0x02 (.wr Opd.isVS k) .zero h o 0)
  | .callReg _ k t => some (Desc.ctl 0x02 2 .none (.wr Opd.isVS k) (.rd Opd.isVS t) .zero .zero)
  | .ret _ k => some (Desc.short 0x02 3 scopesLane (.rd Opd.isVS k))
  | .exit _ => some (Desc.short 0x03 0 scopesLane .zero)
  | .join _ m => some (Desc.ctl 0x04 0 .none (.rw Opd.isM (.m m)) .zero .zero .zero)
  | .leave _ m => some (Desc.ctl 0x04 1 .none (.rw Opd.isM (.m m)) .zero .zero .zero)
  | .waitm _ m => some (Desc.ctl 0x04 2 .none .zero (.rd Opd.isM (.m m)) .zero .zero)
  | .mop _ op d a b => some (Desc.ctl 0x05 op.code (.fixed 4) (.wr Opd.isM (.m d)) (.rd Opd.isM (.m a)) (.rd Opd.isM (.m b)) .zero)
  | .mcnt _ d a => some (Desc.ctl 0x05 4 (.fixed 4) (.wr Opd.isVS d) (.rd Opd.isM (.m a)) .zero .zero)
  | .mfrom _ d a => some (Desc.ctl 0x05 5 (.fixed 4) (.wr Opd.isM (.m d)) (.rd Opd.isVS a (if a.isS then 2 else 1)) .zero .zero)
  | .mto _ d a => some (Desc.ctl 0x05 6 (.fixed 4) (.wr Opd.isVS d (if d.isS then 2 else 1)) (.rd Opd.isM (.m a)) .zero .zero)
  | .loop _ lc n len => some ⟨0x06, 0, .I, .none, scopesLane, .perLane, .wr Opd.isLc (.lc lc), .rd Opd.isSI n, .num 0, .num len.toNat, 0⟩
  | .loopq _ lc q len dim => some ⟨0x06, 1, .I, .none, scopesLane, .perLane, .wr Opd.isLc (.lc lc), .name Opd.isQ (.q q), .num dim.val, .num len.toNat, 0⟩
  | .lbrk _ n => some (Desc.ctl 0x06 2 .none .zero (.num (0x380 + n.val)) .zero .zero)
  | .qbind _ q h d it => some (Desc.ctl 0x07 0 .var (.name Opd.isQ (.q q)) (.rd Opd.isS (.s h)) (.rd Opd.isS (.s d) 8) { Slot.num (0x380 + it.code) with ok := it.qOk })
  | .qstat _ d q sel => some (Desc.ctl 0x07 1 (.fixed 4) (.wr Opd.isVS d) (.name Opd.isQ (.q q)) (.num (0x380 + sel.val)) .zero)
  | .qskip _ q n => some (Desc.ctl 0x07 2 .none (.name Opd.isQ (.q q)) (.rd Opd.isSI n) .zero .zero)
  | .sign _ => some { Desc.short 0x10 0 scopesWide .zero with await := .never }
  | .cvwait _ a sel => some (Desc.ctl 0x10 1 .none .zero (.rd Opd.isVSI a) (.num (0x380 + sel.val)) .zero)
  | .cvrd _ d sel => some (Desc.ctl 0x10 2 (.fixed 4) (.wr Opd.isVS d) .zero (.num (0x380 + sel.val)) .zero)
  | .elect _ d => some ⟨0x11, 0, .R, .var, scopesWide, .once, .wr Opd.isVS d, .zero, .zero, .zero, 0⟩
  | .bcast _ d a l => some ⟨0x11, 1, .R, .var, scopesWide, .once, .wr Opd.isVSY d, .rd Opd.isVY a, .rd Opd.isSU6 l, .zero, 0⟩
  | .iadd _ it sat d a b => some (.int 0x18 (itx it 0) (.idst it d) (.isrc d it a) (.isrc d it b) .zero (b2n sat))
  | .isub _ it sat d a b => some (.int 0x18 (itx it 1) (.idst it d) (.isrc d it a) (.isrc d it b) .zero (b2n sat))
  | .iaddc _ it d a b m => some (.int 0x18 (itx it 2) (.wr Opd.isVY d it.run it.run) (.isrc d it a) (.isrc d it b) (.rw Opd.isM (.m m)) 0)
  | .isubb _ it d a b m => some (.int 0x18 (itx it 3) (.wr Opd.isVY d it.run it.run) (.isrc d it a) (.isrc d it b) (.rw Opd.isM (.m m)) 0)
  | .imul _ it d a b => some (.int 0x19 (itx it 0) (.idst it d) (.isrc d it a) (.isrc d it b) .zero 0)
  | .imulh _ it d a b => some (.int 0x19 (itx it 1) (.idst it d) (.isrc d it a) (.isrc d it b) .zero 0)
  | .imad _ it d a b e => some (.int 0x19 (itx it 2) (.idst it d) (.isrc d it a) (.isrc d it b) (.isrc d it e) 0)
  | .imin _ it d a b => some (.int 0x1A (itx it 0) (.idst it d) (.isrc d it a) (.isrc d it b) .zero 0)
  | .imax _ it d a b => some (.int 0x1A (itx it 1) (.idst it d) (.isrc d it a) (.isrc d it b) .zero 0)
  | .iabs _ it d a => some (.int 0x1A (itx it 2) (.idst it d) (.isrc d it a) .zero .zero 0)
  | .shl _ it d a b => some (.int 0x1B (itx it 0) (.idst it d) (.isrc d it a) (.isrc1 d b) .zero 0)
  | .shr _ it d a b => some (.int 0x1B (itx it 1) (.idst it d) (.isrc d it a) (.isrc1 d b) .zero 0)
  | .sar _ it d a b => some (.int 0x1B (itx it 2) (.idst it d) (.isrc d it a) (.isrc1 d b) .zero 0)
  | .rotl _ it d a b => some (.int 0x1B (itx it 3) (.idst it d) (.isrc d it a) (.isrc1 d b) .zero 0)
  | .bfx _ it d a p l => some (.int 0x1C (itx it 0) (.idst it d) (.isrc d it a) (.isrc1 d p) (.isrc1 d l) 0)
  | .bfi _ it d a b f => some (.int 0x1C (itx it 1) (.idst it d) (.isrc d it a) (.isrc d it b) (.isrc1 d f) 0)
  | .popc _ it d a => some (.int 0x1D (itx it 0) (.wr Opd.isVSY d) (.isrc d it a) .zero .zero 0)
  | .clz _ it d a => some (.int 0x1D (itx it 1) (.wr Opd.isVSY d) (.isrc d it a) .zero .zero 0)
  | .ctz _ it d a => some (.int 0x1D (itx it 2) (.wr Opd.isVSY d) (.isrc d it a) .zero .zero 0)
  | .brev _ it d a => some (.int 0x1D (itx it 3) (.idst it d) (.isrc d it a) .zero .zero 0)
  | .icmp _ it p d a b => some (.int 0x1E (itx it (p.code / 2)) (.wr (fun o => o.isVSY || o.isM) d) (.isrc d it a) (.isrc d it b) .zero (p.code % 2))
  | .isel _ d a b e => some (.int 0x1F 0 (.wr Opd.isVSY d) (.isrc1 d a) (.isrc1 d b)
      (.rd (fun o => o.isS || o.isImm || (!d.isS && (o.isV || o.isM))) e) 0)
  | .mov _ d a => some (.int 0x1F 1 (.wr (fun o => o.isVSY || o.isLc) d) (.isrc1 d a) .zero .zero 0)
  | .movw _ hi d a imm => some { Desc.int 0x1F 2 (.wr Opd.isVSY d) (.isrc1 d a) (.num (b2n hi * 64 + imm.toNat / 1024)) (.num (imm.toNat % 1024)) 0 with fmt := .I }
  | .movi _ d imm => some { Desc.int 0x20 0 (.wr (fun o => o.isVSY || o.isLc) d) (.num (imm.toNat / 2 ^ 22)) (.num (imm.toNat / 2 ^ 12 % 1024)) (.num (imm.toNat / 4 % 1024)) (imm.toNat % 4) with fmt := .L, await := .never }
  | .cvti _ dst src sat d a => some (.int 0x21 (itx dst 0) (.idst dst d) (.isrc d src a) (.num (src.code * 128)) .zero (b2n sat))
  | .bitfn _ k d a b e => some { Desc.int (0x22 + k.toNat / 128) (k.toNat / 4 % 32) (.wr Opd.isVSY d) (.isrc1 d a) (.isrc1 d b) (.isrc1 d e) (k.toNat % 4) with scopes := scopesLane, await := .never }
  | .lsh _ op d a b => some (.cross 0x26 op.code (.fixed 4) (.wr Opd.isVY d) (.rd Opd.isVY a) (.rd Opd.isLshOff b) .zero 0)
  | .lxch _ d a b => some (.cross 0x27 0 (.fixed 4) (.wr Opd.isVY d) (.rd Opd.isVY a) (.rd Opd.isVSI b) .zero 0)
  | .lred _ op it d a => some (.cross 0x28 (itx it op.code) .var (.wr Opd.isVSY d it.run it.run) (.rd Opd.isVY a it.run it.run) .zero .zero 0)
  | .lscan _ op it ex d a => some (.cross 0x29 (itx it op.code) .var (.wr Opd.isVY d it.run it.run) (.rd Opd.isVY a it.run it.run) .zero .zero (b2n ex))
  | .lbal _ d a => some (.cross 0x2A 0 (.fixed 4) (.wr (fun o => o.isS || o.isM) d (if d.isS then 2 else 1)) (.rd Opd.isVY a) .zero .zero 0)
  | .lvote _ op d a => some (.cross 0x2A op.code (.fixed 4) (.wr Opd.isVS d) (.rd Opd.isVY a) .zero .zero 0)
  | .lget _ d a l => some { Desc.cross 0x2B 0 (.fixed 4) (.wr Opd.isS (.s d)) (.rd Opd.isVY a) (.rd Opd.isSU6 l) .zero 0 with scopes := scopesLane }
  | .lput _ d a l => some { Desc.cross 0x2B 1 (.fixed 4) (.wr Opd.isVY d) (.rd Opd.isSI a) (.rd Opd.isSU6 l) .zero 0 with scopes := scopesLane }
  | .fadd _ ft r sat d a b e => some (.fp 0x30 (ftx ft r.code) (.fixed 6) (.fdst d) (.fsrc d a) (.fsrc d b) (.seed r e) (b2n sat))
  | .fsub _ ft r sat d a b e => some (.fp 0x31 (ftx ft r.code) (.fixed 6) (.fdst d) (.fsrc d a) (.fsrc d b) (.seed r e) (b2n sat))
  | .fmul _ ft r sat d a b e => some (.fp 0x32 (ftx ft r.code) (.fixed 6) (.fdst d) (.fsrc d a) (.fsrc d b) (.seed r e) (b2n sat))
  | .ffma _ ft r d a b e => some (.fp 0x33 (ftx ft r.code) (.fixed 6) (.noSr r (.fdst d)) (.fsrc d a) (.fsrc d b) (.fsrc d e) 0)
  | .fmin _ ft d a b => some (.fp 0x34 (ftx ft 0) (.fixed 6) (.fdst d) (.fsrc d a) (.fsrc d b) .zero 0)
  | .fmax _ ft d a b => some (.fp 0x34 (ftx ft 1) (.fixed 6) (.fdst d) (.fsrc d a) (.fsrc d b) .zero 0)
  | .fminn _ ft d a b => some (.fp 0x34 (ftx ft 2) (.fixed 6) (.fdst d) (.fsrc d a) (.fsrc d b) .zero 0)
  | .fmaxn _ ft d a b => some (.fp 0x34 (ftx ft 3) (.fixed 6) (.fdst d) (.fsrc d a) (.fsrc d b) .zero 0)
  | .fcmp _ ft p d a b => some (.fp 0x35 (ftx ft p.code) (.fixed 6) (.wr (fun o => o.isVSY || o.isM) d) (.fsrc d a) (.fsrc d b) .zero 0)
  | .fclass _ ft d a => some (.fp 0x36 (ftx ft 0) (.fixed 6) (.fdst d) (.isrc1 d a) .zero .zero 0)
  | .fcvt _ dst src r sat d a e => some (.fp 0x37 dst.code (.fixed 6)
      { Slot.wr Opd.isVSY d (if dst.is64 then 2 else 1) (if dst.is64 then 2 else 1) with
        ok := (Slot.wr Opd.isVSY d (if dst.is64 then 2 else 1) (if dst.is64 then 2 else 1)).ok && !(dst.isInt && src.isInt) && !(dst.isInt && r == .sr) }
      { Slot.rd (Opd.isSrc d.isScalarDst) a (if src.is64 then 2 else 1) (if src.is64 then 2 else 1) with fp := !src.isInt }
      (.num (src.code * 64 + r.code * 8)) (.seed r e) (b2n sat))
  | .frnd _ ft r d a => some (.fp 0x38 (ftx ft r.code) (.fixed 6) (.noSr r (.fdst d)) (.fsrc d a) .zero .zero 0)
  | .fscale _ ft r d a n => some (.fp 0x39 (ftx ft r.code) (.fixed 6) (.noSr r (.fdst d)) (.fsrc d a) (.isrc1 d n) .zero 0)
  | .fsqrt _ ft r d a => some (.fp 0x3A (ftx ft r.code) .var (.noSr r (.fdst d)) (.fsrc d a) .zero .zero 0)
  | .frcp _ ft d a => some (.fp 0x3B (ftx ft 0) .var (.fdst d) (.fsrc d a) .zero .zero 0)
  | .frsq _ ft d a => some (.fp 0x3B (ftx ft 1) .var (.fdst d) (.fsrc d a) .zero .zero 0)
  | .fdivs _ ft d a b => some (.fp 0x3B (ftx ft 2) .var (.fdst d) (.fsrc d a) (.fsrc d b) .zero 0)
  | .fexp2 _ ft d a => some (.fp 0x3B (ftx ft 3) .var (.fdst d) (.fsrc d a) .zero .zero 0)
  | .flog2 _ ft d a => some (.fp 0x3B (ftx ft 4) .var (.fdst d) (.fsrc d a) .zero .zero 0)
  | .fsin _ ft d a => some (.fp 0x3B (ftx ft 5) .var (.fdst d) (.fsrc d a) .zero .zero 0)
  | .fcos _ ft d a => some (.fp 0x3B (ftx ft 6) .var (.fdst d) (.fsrc d a) .zero .zero 0)
  | .ftanh _ ft d a => some (.fp 0x3B (ftx ft 7) .var (.fdst d) (.fsrc d a) .zero .zero 0)
  | .fsigm _ ft d a => some (.fp 0x3C (ftx ft 0) .var (.fdst d) (.fsrc d a) .zero .zero 0)
  | .fact _ ft d a => some (.fp 0x3C (ftx ft 1) .var (.fdst d) (.fsrc d a) .zero .zero 0)
  | .tblsel _ a => some { Desc.fp 0x3D 1 .none .zero (.rd (fun o => o.isS || Opd.isUpTo 1 o) a) .zero .zero 0 with scopes := scopesLane }
  | .tblld _ a k => some { Desc.fp 0x3D 0 .none .zero (.rd Opd.isSI a) (.num (0x380 + k.val)) .zero 0 with scopes := scopesLane }
  | .pradd _ ft r sw d a b e => some (.fp 0x3E (ftx ft r.code) (.fixed 6) { Slot.fdst d with ok := (Slot.fdst d).ok && ft.half } (.fsrc d a) (.fsrc d b) (.seed r e) (b2n sw))
  | .prmul _ ft r sw d a b e => some (.fp 0x3F (ftx ft r.code) (.fixed 6) { Slot.fdst d with ok := (Slot.fdst d).ok && ft.half } (.fsrc d a) (.fsrc d b) (.seed r e) (b2n sw))
  | .prfma _ ft r sw d a b e => some (.fp 0x40 (ftx ft r.code) (.fixed 6) (.noSr r { Slot.fdst d with ok := (Slot.fdst d).ok && ft.half }) (.fsrc d a) (.fsrc d b) (.fsrc d e) (b2n sw))
  | .dp4i _ sat d a b e => some (.int 0x48 0 (.wr Opd.isVSY d) (.isrc1 d a) (.isrc1 d b) (.dpInt d e) (b2n sat))
  | .dp8i _ sat d a b e => some (.int 0x48 1 (.wr Opd.isVSY d) (.isrc1 d a) (.isrc1 d b) (.dpInt d e) (b2n sat))
  | .dpf8 _ ka kb d a b e => some (.fp 0x49 (b2n ka + 2 * b2n kb) (.fixed 6) (.fdst d) (.fsrc d a) (.fsrc d b) (.dpAcc d e) 0)
  | .dpf4 _ d a b e => some (.fp 0x4A 0 (.fixed 6) (.fdst d) (.fsrc d a) (.fsrc d b) (.dpAcc d e) 0)
  | .mxsc _ one d a sa sb => some (.fp 0x4D 0 (.fixed 6) (.fdst d) (.fsrc d a) (.scale d sa) (if one then .unused sb else .scale d sb) (b2n one))
  -- DESIGN CHOICE (log 91): a run of scalars is the scalar form of PCVT, so that a v or y destination beside it is no encoding (R172).
  | .pcvt _ dst src r sat d a e => some (.fp 0x4B dst.code (.fixed 6)
      { Slot.fdst d with ok := (Slot.fdst d).ok && pcvtOk dst src && d.isS == a.isS }
      { Slot.rd Opd.isVSY a dst.slots with fp := !src.isInt } (.num (src.code * 64 + r.code * 8)) (.seed r e) (b2n sat))
  | .punp _ src hi d a => some (.int 0x4C src.code { Slot.wr Opd.isVSY d (src.slots / 2) with ok := (Slot.wr Opd.isVSY d (src.slots / 2)).ok && punpOk src }
      (.rd (fun o => (o.isVSY || o.isQ) && Opd.isSrc d.isScalarDst o) a) .zero .zero (b2n hi))
  | .vtopk _ asc d a b k => some ⟨0x4E, 0, .R, .var, [.group], .once, .rw Opd.isV (.v d) 2 2, .rd Opd.isV (.v a),
      .rd (fun o => o.isV || o.isSU6) b, .rd Opd.isTopK k, b2n asc⟩
  | .vtopkm _ asc d a k => some ⟨0x4E, 1, .R, .var, [.group], .once, .rw Opd.isV (.v d) 2 2, .rd Opd.isV (.v a) 2 2,
      .rd Opd.isTopK k, .zero, b2n asc⟩
  | .argmx _ ft asc d a b => some ⟨0x4F, ftx ft 0, .R, .var, [.group, .party], .once, .wr Opd.isVS d 2 2, (Slot.rd Opd.isVY a).float,
      .rd (fun o => o.isV || o.isSU6) b, .zero, b2n asc⟩
  | .mwld _ f a b => some (.mx 0x50 f.code .zero { Slot.rd Opd.isSU6 a with ok := Opd.isSU6 a && f.mxFmt } (if f.mxScaled then .rd Opd.isSU6 b else .unused b) .zero 0)
  | .mwsw _ => some { Desc.short 0x51 0 [.group, .party] .zero with await := .once }
  | .mwfm _ => some (.mx 0x52 0 .zero .zero .zero .zero 0)
  | .mma cc ka reuse t i j a b e => some (.mx 0x53 (ka.code * 4 + t.toNat) (.num (i.toNat + 4 * j.toNat))
      ⟨a.code, if cc.scope = .party then a.isY else a.isVY, some a, ka.runA, .rd, false⟩ (.rd Opd.isSU6 b)
      (if ka.scaled then ⟨e.code, e == .imm 0 || (if cc.scope = .party then e.isY else e.isVY), some e, 1, .rd, false⟩ else .unused e) (b2n reuse))
  | .mzero _ t => some { Desc.short 0x54 t.toNat [.group, .party] .zero with await := .once }
  | .mrda _ raw t d n r0 col => some { Desc.mx 0x55 t.toNat ⟨d.code, d.isVY && (d.isY || d.fits n.toNat 1), some d, n.toNat, .wr, false⟩
      { Slot.num (0x380 + n.toNat) with ok := 1 ≤ n.toNat && n.toNat ≤ 32 } (.rd Opd.isSU6 r0) (.rd Opd.isSU6 col) (b2n raw) with lat := .var }
  | .mwra _ t d n r0 col => some (.mx 0x56 t.toNat ⟨d.code, d.isVY && (d.isY || d.fits n.toNat 1), some d, n.toNat, .rd, false⟩
      { Slot.num (0x380 + n.toNat) with ok := 1 ≤ n.toNat && n.toNat ≤ 32 } (.rd Opd.isSU6 r0) (.rd Opd.isSU6 col) 0)
  | .msta _ t a ft => some (.mx 0x57 t.toNat .zero (.rd Opd.isSU6 a) { Slot.num (0x380 + ft.code) with ok := ft.mstaOk } .zero 0)
  | .mlda _ t a => some (.mx 0x58 t.toNat .zero (.rd Opd.isSU6 a) .zero .zero 0)
  | .mrow _ i a => some (.mx 0x59 i.toNat .zero (.rd Opd.isPredSrc a (if a.isS then 4 else 1)) .zero .zero 0)
  | .mcol _ j a => some (.mx 0x5A j.toNat .zero (.rd Opd.isPredSrc a (if a.isS then 4 else 1)) .zero .zero 0)
  | .msca _ a => some (.mx 0x5B 0 .zero (.rd Opd.isSI a) .zero .zero 0)
  | .mrel _ => some { Desc.short 0x5C 0 [.group, .party] .zero with await := .once }
  | .mfin _ => some { Desc.short 0x5D 0 [.group, .party] .zero with await := .once }
  | .ld _ it d x => some (.mem 0x60 it .var (.wr Opd.isVSY d it.run it.run) (.hnd d x.h) d x (x.ord != .rel))
  | .st _ it d x => some (.mem 0x61 it .none (.rd Opd.isVSY d it.run it.run) (.hnd d x.h) d x (x.ord == .rlx || x.ord == .rel))
  | .ldx _ it d x => some (.mem 0x62 it .var (.wr Opd.isVSY d it.run it.run) (.hnd d x.h) d x (x.ord != .rel))
  | .stx _ it d x => some (.mem 0x63 it .none (.rd Opd.isVSY d it.run it.run) (.hnd d x.h) d x (x.ord == .rlx || x.ord == .rel))
  | .ldv _ it d x => some (.mem 0x64 it .var (.wr Opd.isVSY d it.run it.run) (.hnd d x.h 2) d x (x.ord != .rel))
  | .stv _ it d x => some (.mem 0x65 it .none (.rd Opd.isVSY d it.run it.run) (.hnd d x.h 2) d x (x.ord == .rlx || x.ord == .rel))
  | .pref _ h b off => some ⟨0x66, 0, .M, .none, scopesAll, .never, .zero, .rd Opd.isVS h, .rd (Opd.isOff false) b, .num off.toNat, 0⟩
  | .fence cc ord scp => some (Desc.short 0x67 (ord.code * 8 + scp.code) scopesAll { Slot.zero with ok := ord != .rlx && cc.guard.isNone })
  | .btrd _ d h w => some ⟨0x68, 0, .R, .var, [.lane, .group], .perLane, .wr Opd.isVS d, .rd Opd.isS (.s h), .num (0x380 + w.val), .zero, 0⟩
  | .rowmap _ ind h row val => some ⟨0x69, 0, .R, .none, scopesLane, .perLane, .zero, .rd Opd.isS (.s h), .rd (fun o => o.isVS || o.isU6) row,
      .rd (fun o => o.isVS || o.isU6) val, b2n ind⟩
  | .ldsp _ it d a b => some ⟨0x74, itx it 0, .R, .var, scopesAll, .perLane, .wr Opd.isVSY d it.run it.run, .addr d a, .addr d b, .zero, 0⟩
  | .stsp _ it d a b => some ⟨0x75, itx it 0, .R, .none, scopesAll, .perLane, .rd Opd.isVSY d it.run it.run, .addr d a, .addr d b, .zero, 0⟩
  | .tlook _ d key => some ⟨0x76, 0, .R, .var, scopesAll, .perLane, .wr Opd.isVS d, .rd (Opd.isKey d.isS) key, .zero, .zero, 0⟩
  | .tset _ slot key => some ⟨0x76, 1, .R, .none, [.lane, .group], .perLane, .zero, .rd (fun o => o.isV || o.isSU6) slot, .rd (Opd.isKey false) key, .zero, 0⟩
  | .tclr _ slot => some ⟨0x76, 2, .R, .none, [.lane, .group], .perLane, .zero, .rd (fun o => o.isV || o.isSU6) slot, .zero, .zero, 0⟩
  | .restripe _ ga h tag pace => some ⟨0x70, 0, .R, .none, [.lane, .group], .perLane, .zero, .rd Opd.isS (.s h), .num (0x380 + tag.toNat), .rd Opd.isSU6 pace, b2n ga⟩
  | .rsqry _ d h => some ⟨0x70, 1, .R, .var, [.lane, .group], .perLane, .wr Opd.isVS d 2, .rd Opd.isS (.s h), .zero, .zero, 0⟩
  | .ipadd _ it sat h dst a b => some (.ip 0x71 (itx it 0) h dst a (.ipw b) (b2n sat))
  | .ipsub _ it sat h dst a b => some (.ip 0x71 (itx it 1) h dst a (.ipw b) (b2n sat))
  | .ipmin _ it h dst a b => some (.ip 0x71 (itx it 2) h dst a (.ipw b) 0)
  | .ipmax _ it h dst a b => some (.ip 0x71 (itx it 3) h dst a (.ipw b) 0)
  | .ipmac _ ft h dst a b => some (.ip 0x72 (ftx ft 0) h dst a (.ipw b) 0)
  | .ipcpy _ h dst a => some (.ip 0x72 4 h dst a .zero 0)
  | .nbkick _ h slot args tag => some ⟨0x73, 0, .R, .none, [.lane, .group], .perLane, .num tag.toNat, .rd Opd.isS (.s h), .rd Opd.isSU6 slot, .rd Opd.isS (.s args) 14, 0⟩
  | .nbstat _ d tag => some ⟨0x73, 1, .R, .var, [.lane, .group], .perLane, .wr Opd.isVS d 4, .num (0x380 + tag.toNat), .zero, .zero, 0⟩
  | .copy _ tag a => some ⟨0x78, 0, .R, .none, [.lane, .group], .perLane, .num tag.toNat, .rd Opd.isS (.s a) 9, .zero, .zero, 0⟩
  | .copyShadow _ tag a => some ⟨0x78, 1, .R, .none, [.lane, .group], .perLane, .num tag.toNat, .rd Opd.isS (.s a) 9, .zero, .zero, 0⟩
  | .blkcpy _ tag h idx a => some ⟨0x79, 0, .R, .none, [.lane, .group], .perLane, .num tag.toNat, .rd Opd.isS (.s h), .rd Opd.isV (.v idx), .rd Opd.isS (.s a) 4, 0⟩
  | .waitany _ d mask scp => some ⟨0x7A, 0, .R, .var, [.lane, .group], .perLane, .wr Opd.isS (.s d) 2 2, .tags mask, .num (0x380 + scp.code), .zero, 0⟩
  | .waitall _ d mask scp => some ⟨0x7A, 1, .R, .var, [.lane, .group], .perLane, .wr Opd.isS (.s d) 2 2, .tags mask, .num (0x380 + scp.code), .zero, 0⟩
  | .ffrdy _ d mask => some ⟨0x7A, 2, .R, .fixed 4, [.lane, .group], .perLane, .wr Opd.isS (.s d), .tags mask, .zero, .zero, 0⟩
  | .tagclr _ mask => some ⟨0x7A, 3, .R, .none, [.lane, .group], .perLane, .zero, .tags mask, .zero, .zero, 0⟩
  | .shadow _ tag h first count => some ⟨0x7B, 0, .R, .none, [.lane, .group], .perLane, .num tag.toNat, .rd Opd.isS (.s h), .rd Opd.isSU6 first, .rd Opd.isSU6 count, 0⟩
  | .publish _ h => some ⟨0x7B, 1, .R, .none, [.lane, .group], .perLane, .zero, .rd Opd.isS (.s h), .zero, .zero, 0⟩
  | .aadd _ it d x => some (.atom 0x7C it 0 d x)
  | .amin _ it d x => some (.atom 0x7C it 1 d x)
  | .amax _ it d x => some (.atom 0x7C it 2 d x)
  | .aand _ it d x => some (.atom 0x7C it 3 d x)
  | .aor _ it d x => some (.atom 0x7D it 0 d x)
  | .axor _ it d x => some (.atom 0x7D it 1 d x)
  | .axchg _ it d x => some (.atom 0x7D it 2 d x)
  | .acas _ it d x => some { Desc.atom 0x7D it 3 d x with
      d := { Slot.rw Opd.isVSY d (2 * it.run) (2 * it.run) with ok := (Slot.rw Opd.isVSY d (2 * it.run) (2 * it.run)).ok && it.atomic } }
  | .afadd _ ft d x => some { Desc.mem 0x7E .i8 .var (Slot.rw Opd.isVSY d).float (.hnd d x.h) d x true with fn := ft.code }
  | .redop _ t o d x => some { Desc.mem 0x7E .i8 .none { Slot.rd Opd.isVSY d with fp := t == .f32 } (.hnd d x.h) d x
      ((x.ord == .rlx || x.ord == .rel) && !(t == .f32 && o == .or)) with fn := 0x14 + 4 * t.code + o.code }
  | .barr _ h off => some ⟨0x7E, 0x0C, .R, .none, [.lane, .group], .perLane, .zero, .rd Opd.isS (.s h), .rd Opd.isSU6 off, .zero, 0⟩
  | .barw _ h off => some ⟨0x7E, 0x0D, .R, .none, [.lane, .group], .perLane, .zero, .rd Opd.isS (.s h), .rd Opd.isSU6 off, .zero, 0⟩
  | .mbput _ q a => some ⟨0x7E, 0x0E, .R, .none, [.lane, .group], .perLane, .zero, .rd Opd.isSU6 q, .rd Opd.isS (.s a) 4, .zero, 0⟩
  | .mbget _ d q => some ⟨0x7E, 0x0F, .R, .var, [.lane, .group], .perLane, .wr Opd.isS (.s d) 4, .rd Opd.isSU6 q, .zero, .zero, 0⟩
  | .mbtry _ d q => some ⟨0x7E, 0x10, .R, .var, [.lane, .group], .perLane, .wr Opd.isS (.s d) 5, .rd Opd.isSU6 q, .zero, .zero, 0⟩
  | .vld _ w d h off e => some ⟨0x7E, 0x03, .R, .var, scopesAll, .perLane, .wr Opd.isVS d (vRun w + 1) (vRun w), .rd Opd.isS (.s h), .addr d off,
      .wr (Opd.isQuad d) e 4 4, b2n w⟩
  | .vlds _ w d h off i => some ⟨0x7E, 0x04, .R, .var, scopesAll, .perLane, .wr Opd.isVS d (vRun w + 2) (vRun w), .rd Opd.isS (.s h), .addr d off,
      .rd (fun o => o.isS || o.isUpTo 7) i, b2n w⟩
  | .vst _ w d h off e => some ⟨0x7E, 0x05, .R, .none, scopesAll, .perLane, .rd Opd.isVS d (vRun w) (vRun w), .rd Opd.isS (.s h), .addr d off,
      .rd (Opd.isQuad d) e 4 4, b2n w⟩
  | .recon _ op all d h off e => some ⟨0x7E, 0x06 + op.code, .R, .var, scopesAll, .perLane, .wr Opd.isVS d 2, .rd Opd.isS (.s h), .addr d off,
      if all then .unused e else .rd (Opd.isQuad d) e 4 4, b2n all⟩
  | .trap _ a => some (Desc.ctl 0x7F 0 .none .zero (.rd Opd.isSU6 a) .zero .zero)
  | .rteReplay _ a => some (Desc.ctl 0x7F 1 .none .zero (.rd Opd.isRteMask a (if a.isS then 2 else 1)) .zero .zero)
  | .rteSkip _ => some (Desc.short 0x7F 2 scopesLane .zero)
  | .rteResume _ => some (Desc.short 0x7F 3 scopesLane .zero)
  | .gsr _ d sel => some (Desc.ctl 0x7F 4 .var (.wr Opd.isS (.s d) (stateRegRun sel.toNat) (stateRegRun sel.toNat))
      { Slot.num (0x380 + sel.toNat) with ok := sel.toNat < 18 } .zero .zero)
  | .ssr _ sel b => some (Desc.ctl 0x7F 5 .none .zero { Slot.num (0x380 + sel.toNat) with ok := sel.toNat < 18 }
      (.rd Opd.isSI b (if b.isS then stateRegRun sel.toNat else 1) (if b.isS then stateRegRun sel.toNat else 1)) .zero)
  | .halt _ => some (Desc.short 0x7F 6 scopesLane .zero)
  | .brk _ => some (Desc.short 0x7F 7 scopesLane .zero)
  | .clk _ d => some ⟨0x7F, 8, .R, .fixed 4, scopesAll, .perLane, .wr Opd.isVS d 2 2, .zero, .zero, .zero, 0⟩
  | .streamPrefetch _ _ => none
  | .instanceIssue _ => none
  | .tblldLoadComplete _ _ => none
  | .weightLoadComplete _ => none
  | .bankSwap _ => none
  | .mmaPass _ => none
  | .arraySequenceStep _ => none
  | .resultWrite _ _ => none
  | .checksDecided _ => none
  | .clauseFetch _ => none
  | .readCopyExpiry _ _ => none
  | .lineMoveStart _ => none
  | .lineMoveCommit _ => none
  | .kickStep _ _ => none
  | .copySegment _ _ => none
  | .publishExchange _ => none
  | .siblingArrival _ _ _ _ => none
  | .heldSiblingRelease _ _ _ _ => none
  | .compaction _ _ => none
  | .haltLineArrival _ _ => none
  | .dumpWrite _ => none
  | .handlerOverrun _ => none
  | .debugStop _ => none
  | .debugResume _ => none
  | .singleStep _ => none
  | .launch _ => none
  | .teamPlacement _ => none
  | .partialEviction _ => none
  | .partyRestore _ => none
  | .groupExchange _ => none
  | .pendingGroupEntry _ => none
  | .ctxCreate _ => none
  | .ctxHalt _ => none
  | .ctxDestroy _ => none
  | .contextRetire _ => none
  | .ctxAnnex _ => none
  | .slotLoad _ => none
  | .slotLoadComplete => none
  | .frameRef _ => none
  | .bufAdopt _ => none
  | .hostPost _ _ => none
  | .cxlMemRequest _ => none
  | .acccntWrite _ _ _ => none
  | .evqHead _ => none
  | .eventOverflowDelivery _ => none
  | .lostev _ => none
  | .controlRegisterWrite _ _ => none
  | .getVersion => none
  | .getCapabilities => none
  | .negotiateAlgorithms _ _ => none
  | .getDigests => none
  | .getCertificate => none
  | .challenge _ => none
  | .getMeasurements _ => none
  | .coldReset _ => none
  | .warmReset => none
  | .throttle _ => none
  | .thermalPowerRemoval => none
  | .spanLinkDown _ => none
  | .spanLinkUp _ => none
  | .spanRequestTimeout _ => none
  | .linkRetrain _ => none
  | .flitCrcResend _ => none
  | .dieLost _ => none
  | .heartbeatTimeout _ => none
  | .unassignedEncoding _ => none
  | .peerModuleRequest _ _ => none
  | .throttleEnd _ => none
  | .breakpointSet _ _ _ => none
  | .segholdRelease _ _ => none

/-- The operand fields of an instruction. -/
def Desc.slots (d : Desc) : List Slot := [d.d, d.a, d.b, d.c]

/-- The walks that the source fields read, each once (R87). -/
def Desc.walks (d : Desc) : List Nat :=
  (d.slots.filterMap (fun x => if x.use == .rd then (match x.opd with | some (.q n) => some n.toNat | _ => none) else none)).dedup

end Sys2Proof
end

