-- ==== Sys2Proof/Machine/Sparse.lean ====
section
/-! DEFINITION. A map from Nat to values in one canonical form: keys strictly rising and no entry equal to the value
that an unlisted key reads as. Device memory, scratchpads, accumulator tiles and the tables use it. -/

namespace Sys2Proof.Machine

/-- The value at key `k`; `d` where nothing is listed. -/
def Sparse.get {α : Type} (d : α) : List (Nat × α) → Nat → α
  | [], _ => d
  | (a, x) :: t, k => if k < a then d else if k = a then x else Sparse.get d t k

/-- The map with `x` at key `k`; writing `d` removes the entry. -/
def Sparse.set {α : Type} [DecidableEq α] (d : α) : List (Nat × α) → Nat → α → List (Nat × α)
  | [], k, x => if x = d then [] else [(k, x)]
  | (a, y) :: t, k, x =>
    if k < a then (if x = d then (a, y) :: t else (k, x) :: (a, y) :: t)
    else if k = a then (if x = d then t else (k, x) :: t)
    else (a, y) :: Sparse.set d t k x

/-- The map with `f` applied to each of `n` keys from `k` on; `l` lists no key below `k`. -/
def Sparse.mapFrom {α : Type} [DecidableEq α] (d : α) (f : Nat → α → α) (k : Nat) : Nat → List (Nat × α) → List (Nat × α)
  | 0, l => l
  | n + 1, [] => let y := f k d; if y = d then Sparse.mapFrom d f (k + 1) n [] else (k, y) :: Sparse.mapFrom d f (k + 1) n []
  | n + 1, (a, x) :: t =>
    let y := if a = k then f k x else f k d
    let r := Sparse.mapFrom d f (k + 1) n (if a = k then t else (a, x) :: t)
    if y = d then r else (k, y) :: r

/-- Keys rise strictly from above `lo` and no entry is the default. -/
def Sparse.okFrom {α : Type} [DecidableEq α] (d : α) : Nat → List (Nat × α) → Bool
  | _, [] => true
  | lo, (a, x) :: t => decide (lo ≤ a) && decide (x ≠ d) && Sparse.okFrom d (a + 1) t

/-- The canonical form. -/
def Sparse.wf {α : Type} [DecidableEq α] (d : α) (m : List (Nat × α)) : Bool := Sparse.okFrom d 0 m

/-- What a byte of memory that nothing has written reads as: 0. DESIGN CHOICE (assumption 1): R206 zeroes a frame
that changes owner, and the spec gives no other power-on contents. -/
def Memory.unlisted : Byte := 0

/-- One byte of a memory. -/
def Memory.get (m : List Host.Cell) (a : Nat) : Byte := Sparse.get Memory.unlisted m a

/-- Write one byte. -/
def Memory.set (m : List Host.Cell) (a : Nat) (x : Byte) : List Host.Cell := Sparse.set Memory.unlisted m a x

/-- The canonical form of a memory. -/
def Memory.wf (m : List Host.Cell) : Bool := Sparse.wf Memory.unlisted m

/-- `n` bytes from address `a`. -/
def Memory.bytes (m : List Host.Cell) (a : Nat) : Nat → List Byte
  | 0 => []
  | n + 1 => Memory.get m a :: Memory.bytes m (a + 1) n

/-- Write a run of bytes from address `a`. -/
def Memory.store (m : List Host.Cell) (a : Nat) : List Byte → List Host.Cell
  | [] => m
  | x :: t => Memory.store (Memory.set m a x) (a + 1) t

/-- Bytes as a number, the first least significant (R44, R215: little-endian). -/
def leNat : List Byte → Nat
  | [] => 0
  | x :: t => x.toNat + 256 * leNat t

/-- The low `n` bytes of a number, least significant first. -/
def leBytes : Nat → Nat → List Byte
  | 0, _ => []
  | n + 1, x => BitVec.ofNat 8 x :: leBytes n (x / 256)

end Sys2Proof.Machine
end

