-- ==== Sys2Proof/Machine/State.lean ====
section
/-! DEFINITION. The state of the whole module as plain data, the reasons a step can stop, and the state after reset.
Every field cites the rule of spec/ that names it; fields marked MODEL are the model's own (free-value counters and
the plain data that says which agent moves next). -/

namespace Sys2Proof.Machine

/-- Why a step stops with a model fault. Architectural faults (R318) are not these: they are next states. -/
inductive Fault where
  /-- Raised by every instruction's issue when the issue names no group: no step of the machine issues an
  instruction without a group, so only a call of `exec` from outside `step` raises it. Safe. -/
  | noIssuer
  deriving DecidableEq, Repr

/-- Why a step has no meaning. -/
inductive Refusal where
  /-- Raised by an arm of exec whose instruction has no meaning yet. Safe. -/
  | notModelled (mnemonic : String)
  /-- Raised by an event row whose event cannot occur in this state (a line move commits where no line is in
  transit): the spec gives the event no effect there, and no step of the machine chooses it. Safe. -/
  | eventNotEnabled
  deriving DecidableEq, Repr

/-- The fault codes of R318. -/
inductive FaultCode where
  | illegalEnc | scopeIllegal | stallShort | loopSetup | rdvSplit | snanUninit | fpTrap | matrixState
  | addrBounds | addrRights | addrOwner | xlateMiss | addrMisalign
  | ipAlign | ipSplit | ipTransit | restripeBusy | verFull | verKind | tagState | eccUncorr
  | dieLost | handlerOverrun | softTrap
  deriving DecidableEq, Repr

/-- How a live lane waits (R73, R97, R103, R104, R113); `issuing` is a lane of a complete instance that has not yet
issued (R98). -/
inductive LaneWait where
  | free
  | parked (m : MReg)
  | held (sc : Scope)
  | sigHold (sc : Scope) (gen : BitVec 16)
  | awaiting (sc : Scope) (gen : BitVec 16)
  | cvwait (sel : Fin 10) (gen : BitVec 16)
  | issuing (sc : Scope)
  deriving DecidableEq, Repr

/-- Where a lane stands inside a clause: the address of the clause's header and the instructions left, the next one
included (R61). A lane with none stands at a clause header. -/
structure ClausePos where
  hdr : Word
  left : Nat
  deriving DecidableEq, Repr

/-- Kind of an active loop level (R76). -/
inductive LoopKind where
  | count
  | queue (q : QReg) (dim : Fin 3)
  deriving DecidableEq, Repr

/-- One active hardware loop level (R76). -/
structure LoopLevel where
  start : Word
  exit : Word
  kind : LoopKind
  deriving DecidableEq, Repr

/-- One fetched step of a walk: W elements, or the fault its fetch met (R88, R89). -/
inductive Step where
  | data (x : Lanes)
  | fault (f : FaultCode) (off : Int)
  deriving DecidableEq, Repr

/-- The binding of a q register (R85) and the steps fetched ahead of their reads (R88). -/
structure QBind where
  handle : Word
  it : IT
  b : Word
  ls : Word
  n0 : Word
  st0 : Word
  n1 : Word
  st1 : Word
  n2 : Word
  st2 : Word
  i0 : Nat
  i1 : Nat
  i2 : Nat
  e0 : Bool
  e1 : Bool
  e2 : Bool
  ahead : List Step
  deriving DecidableEq, Repr

/-- A write of registers on its way (R36, R37). -/
inductive Write where
  | v (n : Nat) (lanes : Mask) (x : Lanes)
  | y (n : Nat) (lanes : Mask) (x : Lanes)
  | s (n : Nat) (x : Word)
  | m (n : Nat) (lanes : Mask) (bits : Mask)
  | lc (n : Nat) (x : Word)
  | flags (f : BitVec 5)
  | q (n : Nat) (x : Option QBind)
  deriving DecidableEq, Repr

/-- Which memory a request reached: device frames of a tier (R205), host memory or a peer module through a window (R212),
or the cells of a VERSIONED buffer (R308). -/
inductive Space where
  | dev | host | peer (k : Nat) | cells
  deriving DecidableEq, Repr

/-- A byte of memory that a request reached: where it lies, its home die, and the buffer and line that name it. -/
structure Phys where
  space : Space
  addr : Nat
  die : Nat
  buf : Nat
  line : Nat
  deriving DecidableEq, Repr

/-- The new value of a read-modify-write, by its operation (R295, R296). -/
inductive RmwFn where
  | add | least (it : IT) | greatest (it : IT) | and | or | xor | xchg | cas
  | fadd (ft : FT) | fleast | fgreatest
  deriving DecidableEq, Repr

/-- The operation of an in-place instruction (R234, R236). -/
inductive IpFn where
  | add (it : IT) (sat : Bool) | sub (it : IT) (sat : Bool) | least (it : IT) | greatest (it : IT) | mac (ft : FT) | copy
  deriving DecidableEq, Repr

/-- What a pending access does when it is performed. -/
inductive PendOp where
  /-- A fence that later writes of its lanes stand behind (R220). -/
  | fence
  /-- A load into the lanes `lanes` of a register or run (R281, R284, R285). -/
  | load (it : IT) (dst : Opd) (lanes : Mask)
  | store (bytes : List Byte)
  /-- An atomic or a reduction of `z` bytes with its operands, and where the old value goes (R295, R296, R298). -/
  | rmw (f : RmwFn) (z x y : Nat) (ret : Option (Opd × Nat × Mask))
  /-- An in-place lane on the word at hand with its sources a and b (R236, R237). -/
  | inPlace (f : IpFn) (a b : Phys)
  deriving DecidableEq, Repr

/-- An access that has issued and is not yet performed (R237, R281, R284, R285, R298), or a fence. A group's list of them is in
program order of its lanes. -/
structure Pending where
  /-- The lanes in whose program order it stands (R274). -/
  lanes : Mask
  at_ : Phys
  /-- The context of its group. -/
  ctx : Nat
  op : PendOp
  /-- Scope of its release, and of its acquire (R218, R299). -/
  rel : Option Scp
  acq : Option Scp
  /-- MODEL: tick of the issue: the accesses of one instruction are told by it (R216, R298). -/
  issue : Nat
  /-- The releases that the access stands before, each with its scope and its tick, in their order: of a write, an observer that the
  scope spans finds it when it comes to the bytes; a read comes before such an observer's write of them (R19, R277). -/
  seen : List (Scp × Nat)
  /-- A later access of its lane was performed before it, as only observers outside this scope may find (R19): of a read that an
  acquire or a fence of the scope orders before that access. -/
  passed : Option Scp
  deriving DecidableEq, Repr

/-- The writes of one instruction that have not landed: `due` is the clk at which a fixed-latency result is seen, and
none for a Lat V result, which counts on scoreboard `sb` until a RESULT_WRITE (R36, R37). -/
structure InFlight where
  due : Option Nat
  sb : Nat
  writes : List Write
  /-- Operand codes of the registers that its pending accesses will write, and the tick of its issue, by which they find it. -/
  coming : List Nat
  issue : Nat
  /-- The activation-table bank of a FACT that has not completed (R164). -/
  bank : Option Nat
  /-- An MRDA that the array has not run yet, by the tick of its issue, and the registers it will write (R198). -/
  token : Option Nat
  regs : List Nat
  /-- Clause class of its instruction (R24, R365). -/
  cls : Nat
  deriving DecidableEq, Repr

/-- A barrier arrival record (R303). -/
structure Arrival where
  buf : Nat
  off : Nat
  phase : Word
  /-- The view that the arrival went through (R204). -/
  view : Nat
  deriving DecidableEq, Repr

/-- A request held on a span link that is down, since a clk: its 10 ms have passed, or the link came up in them and it went
through (R385). -/
structure SpanHold where
  link : Nat
  since : Nat
  expired : Bool
  passed : Bool
  deriving DecidableEq, Repr

/-- A versioned store of a group that some replica may still lack (R220, R314): buffer, offset, era and dot. -/
structure VStore where
  buf : Nat
  off : Nat
  era : Nat
  h : Nat
  n : Nat
  deriving DecidableEq, Repr

/-- The fault registers FAULTCODE to FAULTGROUPS of R320. -/
structure FaultRegs where
  code : Word
  pc : Word
  lanes : Mask
  reg : Word
  addr : BitVec 64
  scope : Word
  groups : Word
  deriving DecidableEq, Repr

/-- How the instruction at hand comes to issue. -/
inductive Phase where
  /-- One group's lanes at its issue point (R60). -/
  | group
  /-- A complete wider-scope instance (R98). -/
  | instance_
  /-- RTE.replay of a faulting instruction (R210, R325). -/
  | replay
  /-- A group's lanes that an .await instruction has released (R104). -/
  | awaited
  /-- The handler thread (R322). -/
  | handler
  deriving DecidableEq, Repr

/-- A member group of an issue: the lanes that arrived and those allowed to execute before the guard is applied. -/
structure Member where
  key : GKey
  lanes : Mask
  may : Mask
  deriving DecidableEq, Repr

/-- The instruction at hand: who issues it, from where (R26, R35, R59). -/
structure Issue where
  phase : Phase
  scope : Scope
  pc : Word
  /-- Address of the word after the instruction. -/
  next : Word
  pos : ClausePos
  /-- SB field of its clause header (R24). -/
  sb : Nat
  /-- CLS field of its clause header (R24). -/
  cls : Nat
  /-- YIELD bit of its clause header (R24). -/
  yieldBit : Bool
  /-- clk at which its rendezvous completed (R98, R184). -/
  doneAt : Nat
  members : List Member
  deriving DecidableEq, Repr

/-- An instruction whose lanes pass it only once their checks are decided, since a unit makes the last of them as it performs the
lanes (R238, R319): its issue, its scope, and the operand code that FAULTREG would name. -/
structure Deciding where
  iss : Issue
  scope : Scope
  reg : Nat
  deriving DecidableEq, Repr

/-- A group, resident on a partition or evicted from it (R59 to R111, R144, R303, R320, R364, R369). -/
structure Group where
  /-- Launch, team index and team group index (R16). -/
  key : GKey
  /-- The context it belongs to (R320 CONTEXT). -/
  ctx : Nat
  /-- The core it runs on, or left at its eviction (R15, R370). -/
  core : CKey
  /-- Scheduler partition (R10, R356 PART). -/
  part : Nat
  /-- Party index when the group is in a party (R14, R356 PIDX). -/
  party : Option Nat
  /-- False while evicted (R367, R369). -/
  resident : Bool
  /-- Active slot, none in the pending set (R364). -/
  slot : Option Nat
  /-- .regs budget and party registers: v, s, y counts (R393, R106). -/
  nv : Nat
  ns : Nat
  ny : Nat
  /-- vpc, lane i at i (R59). -/
  pcs : Lanes
  /-- Where each lane stands in its clause (R61). -/
  clause : List (Option ClausePos)
  /-- Live lanes (R60). -/
  live : Mask
  /-- How each lane waits (R60, R97). -/
  wait : List LaneWait
  /-- m0 to m11 (R71). -/
  m : List Mask
  /-- lc0 to lc2 (R76). -/
  lc : List Word
  /-- Active loop levels, level 0 first (R76). -/
  levels : List LoopLevel
  /-- q0 to q7 (R85). -/
  q : List (Option QBind)
  /-- Scalar, vector and party registers (R10, R106). -/
  s : List Word
  v : List Lanes
  y : List Lanes
  /-- Scoreboards sb0 to sb5 (R37). -/
  sb : List Nat
  /-- Results on their way (R36, R37). -/
  inFlight : List InFlight
  /-- Accesses issued and not performed (R281). -/
  pending : List Pending
  /-- Earliest clk of the next issue (R35). -/
  nextIssue : Nat
  /-- The group waits for its in-flight results before it issues (R145). -/
  drain : Bool
  /-- The checks of the last class 2, 5 or 6 instruction are not yet decided (R319). -/
  checks : Bool
  /-- The in-place instruction whose checks they are, and the lanes of it that a bad word has met, with their dst offsets (R238). -/
  deciding : Option Deciding
  ipBad : List (Mask × Nat)
  /-- The group is yielding (R92, R364). -/
  yielding : Bool
  /-- The group is held by an instruction of R363's list, since this clk (R365). -/
  heldSince : Option Nat
  /-- The group is to be exchanged for one of higher priority after a YIELD clause: it issues nothing (R365). -/
  outgoing : Bool
  /-- clk of the last issue (R365). -/
  lastIssue : Nat
  /-- Signatures for GROUP, PARTY and TEAM, one per lane (R103). -/
  sigG : List (Option (BitVec 16))
  sigP : List (Option (BitVec 16))
  sigT : List (Option (BitVec 16))
  /-- GEN of the group's cvg (R102). -/
  cvg : BitVec 16
  /-- FPSTAT: flags [4:0] and enables [12:8] (R144). -/
  fpstat : Word
  /-- Activation-table bank select (R163). -/
  bank : Bool
  /-- Barrier arrival records, oldest first, at most four (R303). -/
  arrivals : List Arrival
  /-- MODEL: tick at which lanes of the group last arrived at a wider-scope instruction (R97, R99). -/
  arrivedAt : Nat
  /-- Fault registers (R320, R321). -/
  fault : FaultRegs
  /-- Lanes that stood at the faulting instruction (R111, R325). -/
  arrived : Mask
  /-- RESUMEPC and the value set at entry (R321, R325). -/
  resume : Word
  resume0 : Word
  /-- Address after the faulting instruction and its clause position, for RTE (R325). -/
  faultNext : Word
  faultPos : Option ClausePos
  /-- HSTAT INH, MASK, SUSP, DSTOP, ENTRIES (R321). -/
  inh : Bool
  mask : Bool
  susp : Bool
  dstop : Bool
  entries : Nat
  /-- Handler thread: program counter and clause position (R322). -/
  hpc : Word
  hpos : Option ClausePos
  /-- One issue is allowed during a debug stop (R332). -/
  stepOne : Bool
  /-- A stop at the group's breakpoint has taken effect: a resume lets it issue that instruction (R331, R352). -/
  broke : Bool
  /-- clk from which the group has waited on a scoreboard, and from which its eviction has waited for its RTE (R346, R365). -/
  sbWait : Option Nat
  rteWait : Option Nat
  /-- The group took the fault that halted its context, or a fault after it: it issues no later instruction (R319, R323). -/
  stopped : Bool
  /-- Its fault was a secondary one, raised while the context was halting (R335, R377). -/
  lateFault : Bool
  /-- A request waits on a span link that is down (R385). -/
  spanHold : List SpanHold
  /-- Versioned stores that a FENCE may wait for (R220). -/
  vsts : List VStore
  /-- A PUBLISH of a buffer that has issued, and whether its exchange has taken effect (R268). -/
  publish : Option (Nat × Bool)
  deriving DecidableEq, Repr

/-- A team of a launch (R13, R359, R360). -/
structure Team where
  launch : Nat
  idx : Nat
  ctx : Nat
  core : CKey
  /-- GEN of the team's cvt (R102). -/
  cvt : BitVec 16
  /-- Cores of the team's cluster (R19, R360). -/
  cluster : List CKey
  /-- Placement order, for R367. -/
  placedAt : Nat
  deriving DecidableEq, Repr

/-- Parties chosen for eviction together: one party, or every party of a context whose matrix state must go (R367). -/
structure Victim where
  keys : List GKey
  core : CKey
  part : Nat
  ctx : Nat
  /-- The matrix state of the context in the partition goes with the first of them (R181, R368). -/
  mx : Bool
  deriving DecidableEq, Repr

/-- Where a team of a launch goes, and the parties that leave for it (R362, R367). -/
structure Plan where
  core : CKey
  cluster : List CKey
  victims : List Victim
  /-- clk at which the victims were chosen (R346, R368). -/
  since : Nat
  deriving DecidableEq, Repr

/-- A party that is out, with its context; parties that went with the matrix state are out together (R181, R369, R370). -/
structure Evicted where
  keys : List GKey
  core : CKey
  part : Nat
  ctx : Nat
  deriving DecidableEq, Repr

/-- A launch in dispatch (R356 to R362). -/
structure Launch where
  id : Nat
  ctx : Nat
  desc : BitVec 512
  codeBase : Nat
  codeLen : Nat
  inits : List (SReg × Word)
  place : List (Nat × Nat)
  /-- Next team to place (R359). -/
  next : Nat
  /-- Pointer into the candidate list (R359). -/
  ptr : Nat
  /-- The form of the launch (R362), and the teams whose place is decided (R362, R367). -/
  resident : Bool
  plan : List Plan
  deriving DecidableEq, Repr

/-- A fault record of the dump (R337). -/
structure FaultRec where
  valid : Bool
  code : BitVec 8
  scope : BitVec 2
  origin : BitVec 2
  die : Nat
  core : Nat
  part : Nat
  team : Nat
  grp : Nat
  pc : Word
  reg : Word
  addr : BitVec 64
  lanes : Mask
  fscope : Word
  fgroups : Word
  clk : Nat
  deriving DecidableEq, Repr

/-- A stop record (R335). -/
structure StopRec where
  kind : Nat
  die : Nat
  unit : Nat
  part : Nat
  status : Nat
  pc : Word
  a : Word
  b : Word
  c : BitVec 64
  d : BitVec 64
  clk : Nat
  deriving DecidableEq, Repr

/-- A context's halt in progress (R333 to R340). -/
structure Halt where
  cause : Nat
  clk : Nat
  /-- Touched dies the halt line has reached (R334). -/
  reached : List Nat
  primary : FaultRec
  secondary : FaultRec
  secCount : Nat
  /-- Sections a secondary fault truncates, with the first tag not written for TAGS (R340). -/
  tagsCut : Option (CKey × Nat)
  stops : List StopRec
  dumped : Bool
  deriving DecidableEq, Repr

/-- A mailbox's messages and the gets that wait on it, in arrival order (R304, R306). -/
structure Mailbox where
  q : Nat
  msgs : List (List Word)
  waiting : List GKey
  deriving DecidableEq, Repr

/-- A context (R320, R329, R333, R342, R381, R382). -/
structure Ctx where
  num : Nat
  /-- CTXFLAGS (R329). -/
  flags : Word
  /-- TRAPVEC (R320). -/
  trapvec : Word
  /-- Areas of the context descriptor (R382). -/
  wintab : Nat
  mbtab : Nat
  annex : Nat
  save : Nat
  dump : Nat
  annexLen : Nat
  saveLen : Nat
  dumpLen : Nat
  /-- ANNEX_FULL has been posted for a request that is held (R292). -/
  annexFull : Bool
  /-- TOUCHED (R342). -/
  touched : BitVec 8
  halt : Option Halt
  /-- CTX_DESTROY was given (R381). -/
  destroying : Bool
  /-- Debug stop in force, and its clk, from which no bound counts time (R331). -/
  stopped : Bool
  stopAt : Nat
  /-- Breakpoints (R331, R348). -/
  breaks : List Word
  mailboxes : List Mailbox
  /-- cv0 to cv7 of each partition the context occupies: GEN (R102). -/
  cvs : List (PKey × Nat × BitVec 16)
  /-- Tag and segment of `launch seghold=`, and the cores where it has had its effect (R374). -/
  seghold : Option (Nat × Nat)
  segUsed : List CKey
  deriving DecidableEq, Repr

/-- A step of a kick in progress (R242 to R244): the column words read so far, by number, whether one read with an error, and,
once all are read, the column words still to be written, with none for the poison syndrome. -/
structure KickRun where
  step : Nat
  got : List (Nat × List Byte)
  bad : Bool
  outs : Option (List (Nat × Option (List Byte)))
  deriving DecidableEq, Repr

/-- What an operation on a completion tag still has to do (R253, R257, R263, R267, R242). -/
inductive TagOp where
  | none
  /-- COPY, COPY.shadow and SHADOW: KIND, source handle, the placement map of its checks (R269) and offset, destination handle
  and offset, row length, rows, strides, and the position: row and byte within the row (R257, R259, R267). -/
  | copy (kind : Nat) (srcH : Word) (srcMap src : Nat) (dstH : Word) (dst : Nat) (len rows : Nat) (ss ds : Int) (row at_ : Nat)
  /-- BLKCPY: handle, the placement map of its checks, block size, base, destination, each lane's block (none: skipped), the row
  size and rows of the row map that it reads through, and bytes done (R265). -/
  | blk (h : Word) (srcMap size base d0 : Nat) (blocks : List (Option Nat)) (map : Option (Nat × List (Nat × Nat))) (done : Nat)
  /-- RESTRIPE of a buffer (R232). -/
  | restripe (buf : Nat)
  /-- NBKICK: handle, the placement map at issue, slot, slot image, argument block, steps not yet begun, steps in progress, and
  the number done (R240, R242). -/
  | kick (h : Word) (map slot : Nat) (img : BitVec 64) (args : List Word) (todo : List Nat) (runs : List KickRun) (done : Nat)
  deriving DecidableEq, Repr

/-- Kinds of the dump's TAGS section (R339). -/
inductive TagKind where
  | copy | copyShadow | blkcpy | shadow | restripe | nbkick
  deriving DecidableEq, Repr

/-- What NBSTAT reads of the last kick on a tag (R243, R245). -/
structure KickStat where
  slot : Nat
  err : Bool
  npois : Nat
  low : Word
  map : BitVec 64
  deriving DecidableEq, Repr

/-- What a segment held under seghold has read, and which of its words are poisoned (R374). -/
structure HeldSeg where
  bytes : List Byte
  pois : List Nat
  deriving DecidableEq, Repr

/-- A completion tag that is not CLEAR (R253), with TAGERR (R254). -/
structure Tag where
  num : Nat
  ctx : Nat
  done : Bool
  err : Bool
  kind : TagKind
  key : GKey
  pc : Word
  op : TagOp
  /-- Segments performed; the segment to hold at, what a held segment has read, and its release (R374). -/
  segs : Nat
  hold : Option Nat
  held : Option HeldSeg
  released : Bool
  /-- A segment is in flight: part of it is written (R260, R334). -/
  mid : Bool
  /-- The placement that the segment in flight writes (R269). -/
  into : Option Nat
  /-- The operation stopped at a halt or a fault (R253, R261, R262). -/
  stopped : Bool
  /-- The owner's last group has left the core: the tag is CLEAR and its operation runs on (R70, R253). -/
  orphan : Bool
  /-- MODEL: tick of the issue; the group's earlier stores are seen by the operation (R244, R260). -/
  born : Nat
  deriving DecidableEq, Repr

/-- A valid tag-table entry (R251). -/
structure TagEntry where
  slot : Nat
  key : Word
  owner : Nat
  deriving DecidableEq, Repr

/-- An activation-table bank: owner and its bytes (R161). -/
structure ActBank where
  owner : Option Nat
  bytes : List (Nat × Byte)
  deriving DecidableEq, Repr

/-- A TBLLD waiting, running or complete on a bank, in issue order, until its group moves on (R164). -/
structure TblLoad where
  bank : Nat
  off : Nat
  ctx : Nat
  key : GKey
  pc : Word
  running : Bool
  done : Bool
  deriving DecidableEq, Repr

/-- The reuse latch (R178, R194): lanes present, rows by tile row, kind and K. -/
structure Latch where
  kind : AKind
  k : Nat
  /-- For each tile row: none when no lane is present, else element codes and scale bytes. -/
  rows : List (Option (List Nat × List Nat))
  deriving DecidableEq, Repr

/-- A weight bank: FMT, FULL, element codes k × N + n, scale bytes b × N + n (R178, R195). -/
structure MxBank where
  fmt : Option TC
  w : List (Nat × Nat)
  sc : List (Nat × Nat)
  deriving DecidableEq, Repr

/-- A queued matrix instruction with what it read at issue (R184, R192). -/
inductive MxOp where
  | mwld (fmt : TC) (a b : Nat)
  | mwsw
  | mma (ka : AKind) (reuse : Bool) (t : Tile) (i j : BitVec 2) (useLatch : Bool)
      (rows : List (Option (List Nat × List Nat))) (rowMask colMask : BitVec 128) (pass : Nat)
  | mzero (t : Tile)
  | mrda (raw : Bool) (t : Tile) (dst : Opd) (n : Nat) (row0 col : Nat) (members : List (GKey × Mask × Nat)) (token : Nat)
  | mwra (t : Tile) (words : List (Nat × Nat × Word))
  | msta (t : Tile) (off : Nat) (ft : TC)
  | mlda (t : Tile) (off : Nat)
  | mrow (i : BitVec 2) (x : BitVec 128)
  | mcol (j : BitVec 2) (x : BitVec 128)
  | msca (x : Word)
  | mrel
  deriving DecidableEq, Repr

/-- A queue entry: the operation and the address of its instruction (R184, R335). -/
structure MxEntry where
  op : MxOp
  pc : Word
  deriving DecidableEq, Repr

/-- The state that will be in force for the next matrix instruction to issue (R182, R185). -/
structure MxView where
  active : Bool
  fmt0 : Option TC
  fmt1 : Option TC
  latch : Option (AKind × Nat)
  row : List (BitVec 128)
  col : List (BitVec 128)
  deriving DecidableEq, Repr

/-- A context's matrix-unit state in one partition (R178, R180). -/
structure Mx where
  ctx : Nat
  active : Bool
  bank0 : MxBank
  bank1 : MxBank
  /-- acc0 to acc3: entry m × N + n (R178). -/
  tiles : List (List (Nat × Word))
  row : List (BitVec 128)
  col : List (BitVec 128)
  oscale : Word
  latch : Option Latch
  queue : List MxEntry
  view : MxView
  /-- Last instruction that took effect and its passes (R200, R335). -/
  lastPc : Word
  lastPasses : Nat
  discarded : Nat
  /-- The context's last resident group has left other than by eviction: the state is freed when the queue is empty (R180). -/
  ending : Bool
  deriving DecidableEq, Repr

/-- A scheduler partition (R10, R178, R364). -/
structure Part where
  /-- Slot of the group that issued last (R364). -/
  lastSlot : Option Nat
  /-- clk of the last issue, plus one (R364: at most one issue per clk). -/
  freeAt : Nat
  mx : Option Mx
  /-- Matrix state saved with evicted parties (R181, R369). -/
  mxSaved : List Mx
  deriving DecidableEq, Repr

/-- A core that has been used (R10). -/
structure Core where
  key : CKey
  /-- Scratchpad bytes, 0 where not listed (R246, R247). -/
  sp : List (Nat × Byte)
  /-- Segment owners (R247). -/
  segs : List (Nat × Nat)
  /-- Scratchpad words that read as poison (R262). -/
  spPoison : List Nat
  tagTable : List TagEntry
  tags : List Tag
  /-- Tags whose last use was a kick, with its status (R245). -/
  kicks : List (Nat × KickStat)
  tables : List ActBank
  loads : List TblLoad
  parts : List Part
  deriving DecidableEq, Repr

/-- A sibling of a versioned cell (R309). -/
structure Sib where
  value : BitVec 64
  h : Nat
  n : Nat
  vw : List Nat
  deriving DecidableEq, Repr

/-- A cell at one replica: era, cell vector, siblings in (h, n) order (R309). -/
structure Rep where
  era : Nat
  cv : List Nat
  sibs : List Sib
  deriving DecidableEq, Repr

/-- Siblings queued from one replica to another for this cell, oldest first (R314). -/
structure SibQueue where
  src : Nat
  dst : Nat
  held : Bool
  sibs : List Sib
  deriving DecidableEq, Repr

/-- A versioned cell (R308, R309). -/
structure Cell where
  buf : Nat
  off : Nat
  width : Nat
  reps : List Rep
  queues : List SibQueue
  /-- clk of the last compaction (R316). -/
  lastCompact : Option Nat
  deriving DecidableEq, Repr

/-- What the sync engine of a die holds an object for (R292): 16 bytes of a SYNC buffer, a mailbox queue, a cell. -/
inductive ObjKey where
  | sync (buf blk : Nat)
  | mailbox (ctx q : Nat)
  | cell (buf off : Nat)
  deriving DecidableEq, Repr

/-- An object of a die's lodge, or of its context's annex (R292). -/
structure LodgeObj where
  die : Nat
  ctx : Nat
  key : ObjKey
  annex : Bool
  deriving DecidableEq, Repr

/-- Who may not be served any more from bytes that lack a write, since the write comes before their accesses: lanes of a group, by
their own read-modify-write (R275, R299); the groups of a team, or of a launch on the cores of a cluster, to whom a release or a wait
of that scope has shown it (R18, R256, R273, R278); and whoever comes to wait for the write's operation: on a completion tag (R256,
R278), or at MFIN for the matrix state of a context in a partition (R196, R278). -/
inductive Bar where
  | lanes (k : GKey) (m : Mask)
  | team (launch idx : Nat)
  | cluster (launch : Nat) (cores : List CKey)
  | tag (k : CKey) (born : Nat)
  | mx (p : PKey) (ctx : Nat)
  deriving DecidableEq, Repr

/-- A scratchpad word that a copy engine or a matrix unit has written and whose write is not yet in the order of R249 for every group
of the core: the word as it was before, whether it read as poison then, and who must find the new one (R249, R273). -/
structure LateWord where
  core : CKey
  word : Nat
  bytes : List Byte
  pois : Bool
  bars : List Bar
  deriving DecidableEq, Repr

/-- A read copy of a remote line in a die cache (R211, R282, R283). -/
structure ReadCopy where
  die : Nat
  line : Nat
  bytes : List Byte
  ctxs : List Nat
  bars : List Bar
  /-- The clk at which the die took it (R283). -/
  since : Nat
  deriving DecidableEq, Repr

/-- The one dirty copy of a line: the die that owns it and the storing context (R211, R282). -/
structure Dirty where
  line : Nat
  die : Nat
  ctx : Nat
  deriving DecidableEq, Repr

/-- A host event (R380). -/
structure Event where
  kind : Nat
  die : Nat
  ctx : Nat
  p0 : Word
  p1 : BitVec 64
  clk : Nat
  deriving DecidableEq, Repr

/-- The driver-visible control registers (R379). -/
structure Regs where
  bootstat : Word
  cmdqBase : BitVec 64
  cmdqTail : Word
  cmdqHead : Word
  evqBase : BitVec 64
  evqHead : Word
  evqTail : Word
  lostev : List Word
  throttle : BitVec 8
  spanstat : BitVec 12
  hotthr0 : BitVec 16
  hotthr1 : BitVec 16
  deriving DecidableEq, Repr

/-- A response of the Imfer core over SPDM (R388). -/
inductive SpdmResponse where
  | version (major minor : Nat)
  | capabilities (flags : Nat)
  | algorithms (ok : Bool)
  | digests (d : BitVec 512)
  | certificate (chain : List Byte)
  | challengeAuth (sig : List Byte)
  | measurement (index : Nat) (d : BitVec 512) (sig : List Byte)
  | error
  deriving DecidableEq, Repr

/-- A complete instance, or a replay, that waits to issue, the earliest clk of its issue (R98, R325), whether its
instruction has held it (R363), and whether a single step issues it in a debug stop (R332). -/
structure Instance where
  due : Nat
  iss : Issue
  held : Bool
  step : Bool
  deriving DecidableEq, Repr

/-- The register that holds a rendezvous of a group at a scope (R95). -/
inductive ConvReg where
  | cvg (k : GKey)
  | cv (p : PKey) (ctx idx : Nat)
  | cvt (launch team : Nat)
  deriving DecidableEq, Repr

/-- A generation whose last member has arrived or signed at clk `doneAt`: it completes at `due` (R98, R102). `step` as in an
instance. -/
structure Completion where
  reg : ConvReg
  scope : Scope
  doneAt : Nat
  due : Nat
  step : Bool
  deriving DecidableEq, Repr

/-- What an agent outside the part does. -/
inductive Outside where
  /-- It acts on the part; a command of the host goes into the ring (R381). -/
  | act (i : Instr)
  /-- The host stores to its own memory. -/
  | hostWrite (addr : Nat) (bytes : List Byte)
  /-- The host reads BAR0 or BAR2 (R378). -/
  | barRead (bar2 : Bool) (off len : Nat)
  deriving DecidableEq, Repr

structure State where
  /-- Cycles of the arithmetic clock since module reset (R330). -/
  clk : Nat
  /-- MODEL: counter that free values are drawn at. -/
  tick : Nat
  /-- MODEL: plain data that says which of the agents able to move does so next. -/
  turn : Nat
  /-- Actions of outside agents that are still to land, oldest first. -/
  inbox : List Outside
  /-- The instruction at hand. -/
  cur : Issue
  /-- Complete instances that wait to issue (R98). -/
  instances : List Instance
  /-- Generations that complete when their time has come (R98). -/
  completing : List Completion
  /-- Scratchpad words whose last writes some group of the core need not find yet, the oldest write first (R249, R273). -/
  late : List LateWord
  /-- Ranges of device memory, address and length, that an agent outside the part has written to frames whose next owner has not yet
  reached them (R206, R392). DESIGN CHOICE (log 113): they are kept when it does. -/
  renewed : List (Nat × Nat)
  /-- An instance or replay that issues next (R98, R325). -/
  issuing : Option Issue
  groups : List Group
  teams : List Team
  launches : List Launch
  ctxs : List Ctx
  cores : List Core
  /-- Bytes of HBM4E by device address; a byte not listed reads 0 (R17, R206). Those of TIER 1 lie in host memory (R205, R378). -/
  mem : List Host.Cell
  /-- Column words of 32 bytes that hold the poison syndrome (R238). -/
  poison : List Nat
  /-- Host memory and peer memory that windows reach (R212). -/
  hostMem : List Host.Cell
  peerMem : List (Nat × Byte)
  /-- The buffer table: entries that are not all zero (R201, R202). -/
  bufs : List (Nat × BitVec 512)
  /-- Base of the buffer table in device memory, set by firmware at boot (R201). -/
  bufBase : Nat
  /-- Lines in transit: buffer index (R227). -/
  transit : List Nat
  /-- Of each restripe the clk of its last line-move start, and the first clk after that move's commit (R227). -/
  moveAt : List (Nat × Nat × Nat)
  /-- The frame table, by tier and frame number (R270). -/
  frames : List (Nat × BitVec 64)
  /-- MODEL: the line that the last counted request reached. -/
  lastLine : Option Nat
  /-- Frames whose TIER_HOT has been posted since ACCCNT was last written (R272). -/
  hot : List Nat
  /-- Frames whose contents are of before a warm reset: their next owner reads zeros (R206, R392). -/
  retained : List Nat
  readCopies : List ReadCopy
  dirty : List Dirty
  /-- Versioned cells, and the objects of the lodges, the least recently used first (R292, R308). -/
  cells : List Cell
  lodge : List LodgeObj
  /-- Controller microcode slots by slot number and stack: owner and image (R239, R383). -/
  slots : List ((Nat × Nat) × (Nat × BitVec 64))
  /-- The SLOT_LOAD that waits for a running kick (R383). -/
  slotWait : List Cmd
  /-- Working cores and their classes' bytes from the configuration image (R20, R389). -/
  harvest : List (CKey × Byte)
  repair : List (Nat × BitVec 16)
  /-- Training results: of a pseudo-channel the delays of its 34 lanes, none for a bad one (R390). -/
  delays : List (Nat × List (Option Nat))
  /-- The power limits of the configuration image in mW: module, M-die, B-die, stack, I/O die (R389, R391). -/
  limits : List Nat
  /-- Measurements 1 to 4 (R387, R388). -/
  measurements : List (BitVec 512)
  regs : Regs
  /-- Host event ring, and each die's overflow queue (R344, R379). -/
  events : List Event
  overflow : List (Nat × List Event)
  /-- The next discard of die d raises the summary interrupt (R344). -/
  armed : List Nat
  /-- Interrupts raised to the host: MSI-X vector 0 and 1, and audit interrupts to the Imfer core (R271, R344, R379). -/
  msi0 : Nat
  msi1 : Nat
  audit : Nat
  /-- Completion words written to the command ring, latest first (R381). -/
  cmdDone : List Word
  spdm : List SpdmResponse
  /-- Dies declared lost (R343). -/
  lost : List Nat
  /-- Number of launches accepted and refused, and the next launch identity (R362). -/
  nextLaunch : Nat
  refusedLaunches : Nat
  /-- Evicted parties, oldest eviction first (R370). -/
  evicted : List Evicted
  /-- Last access made from outside the part: the bytes it read (R274, R378). -/
  extRead : List Byte
  /-- The module has power (R391, R392). -/
  powered : Bool
  deriving DecidableEq, Repr

/-- An issue that names no group. -/
def Issue.idle : Issue :=
  { phase := .group, scope := .lane, pc := 0, next := 0, pos := { hdr := 0, left := 0 }, sb := 7, cls := 0,
    yieldBit := false, doneAt := 0, members := [] }

/-- The control registers at reset (R379). -/
def Regs.reset : Regs :=
  { bootstat := 0, cmdqBase := 0, cmdqTail := 0, cmdqHead := 0, evqBase := 0, evqHead := 0, evqTail := 0,
    lostev := List.replicate 8 0, throttle := 0, spanstat := 0, hotthr0 := 0, hotthr1 := 0 }

/-- Where firmware puts the buffer table at boot: the last 64 MiB of device memory. DESIGN CHOICE (log 2): R201 gives no address. -/
def bufTableBase : Nat := 1536 * 2 ^ 30 - 2 ^ 26

/-- The module right after a cold reset, before measured boot (R379, R387, R392): no context, no resident group, no
buffer, nothing in any memory, BOOTSTAT 0 (booting). -/
def State.reset : State :=
  { clk := 0, tick := 0, turn := 0, inbox := [], cur := Issue.idle, instances := [], completing := [], late := [], renewed := [], issuing := none,
    groups := [], teams := [], launches := [], ctxs := [], cores := [],
    mem := [], poison := [], hostMem := [], peerMem := [], bufs := [], bufBase := bufTableBase,
    transit := [], moveAt := [], frames := [], lastLine := none, hot := [], retained := [], readCopies := [], dirty := [], cells := [], lodge := [],
    slots := [], slotWait := [], harvest := [], repair := [], delays := [], limits := [], measurements := [],
    regs := Regs.reset, events := [], overflow := [], armed := [], msi0 := 0, msi1 := 0, audit := 0,
    cmdDone := [], spdm := [], lost := [], nextLaunch := 0, refusedLaunches := 0, evicted := [],
    extRead := [], powered := true }

end Sys2Proof.Machine
end

