-- ==== Sys2Proof/Machine/Ops.lean ====
section
/-! DEFINITION. Named operations over the state: who and where (groups, parties, teams, cores), the registers with
the writes on their way, host events, the halt of a context, TAKING A FAULT (R321) and RETURNING FROM ONE (R325). -/

namespace Sys2Proof.Machine

/- ### Groups, parties, teams -/

def State.group? (s : State) (k : GKey) : Option Group := s.groups.find? (fun g => g.key == k)

/-- Apply a function to the group named `k`. -/
def State.modGroup (s : State) (k : GKey) (f : Group → Group) : State :=
  { s with groups := s.groups.map (fun g => if g.key == k then f g else g) }

/-- Apply a function to every group. -/
def State.modGroups (s : State) (f : Group → Group) : State := { s with groups := s.groups.map f }

def State.launch? (s : State) (n : Nat) : Option Launch := s.launches.find? (fun l => l.id == n)

def State.team? (s : State) (k : GKey) : Option Team :=
  s.teams.find? (fun t => t.launch == k.launch && t.idx == k.team)

def State.modTeam (s : State) (k : GKey) (f : Team → Team) : State :=
  { s with teams := s.teams.map (fun t => if t.launch == k.launch && t.idx == k.team then f t else t) }

def State.ctx? (s : State) (n : Nat) : Option Ctx := s.ctxs.find? (fun c => c.num == n)

def State.modCtx (s : State) (n : Nat) (f : Ctx → Ctx) : State :=
  { s with ctxs := s.ctxs.map (fun c => if c.num == n then f c else c) }

/-- CTXFLAGS of a context (R329). -/
def State.ctxFlags (s : State) (n : Nat) : Nat := match s.ctx? n with | some c => c.flags.toNat | none => 0
def State.stallchk (s : State) (n : Nat) : Bool := bitOf (s.ctxFlags n) 0
def State.nomark (s : State) (n : Nat) : Bool := bitOf (s.ctxFlags n) 1
def State.dbg (s : State) (n : Nat) : Bool := bitOf (s.ctxFlags n) 2
def State.prio (s : State) (n : Nat) : Nat := fld (s.ctxFlags n) 4 2
def State.halted (s : State) (n : Nat) : Bool := match s.ctx? n with | some c => c.halt.isSome | none => true

/-- The groups of a team in ascending team group index (R13). -/
def State.teamGroups (s : State) (k : GKey) : List Group :=
  (List.range 32).filterMap (fun i => s.group? ⟨k.launch, k.team, i⟩)

/-- The groups of a group's party, ascending; the group alone when it is in none (R14, R95). -/
def State.partyGroups (s : State) (g : Group) : List Group :=
  match g.party with
  | none => [g]
  | some p => (s.teamGroups g.key).filter (fun h => h.party == some p && h.part == g.part)

/-- The member groups of an instance at a scope (R95). -/
def State.members (s : State) (g : Group) : Scope → List Group
  | .lane => [g]
  | .group => [g]
  | .party => s.partyGroups g
  | .team => s.teamGroups g.key

/-- Position of a key in a list of groups. -/
def indexOfKey (k : GKey) : List Group → Nat
  | [] => 0
  | g :: t => if g.key == k then 0 else indexOfKey k t + 1

/-- Member index k (R95). -/
def State.memberIndex (s : State) (g : Group) : Nat := indexOfKey g.key (s.partyGroups g)

/-- The scope lane number of lane 0 of a member, less its own lane (R95). -/
def State.laneBase (s : State) (g : Group) : Scope → Nat
  | .lane => 0
  | .group => 0
  | .party => s.memberIndex g * W
  | .team => g.key.grp * W

/- ### Cores and partitions -/

def ActBank.fresh : ActBank := ⟨none, []⟩
def Part.fresh : Part := ⟨none, 0, none, []⟩
def Core.fresh (k : CKey) : Core :=
  { key := k, sp := [], segs := [], spPoison := [], tagTable := [], tags := [], kicks := [], tables := [.fresh, .fresh],
    loads := [], parts := List.replicate 4 .fresh }

/-- A core; one that nothing has used yet is as reset left it. -/
def State.core (s : State) (k : CKey) : Core := (s.cores.find? (fun c => c.key == k)).getD (Core.fresh k)

def State.setCore (s : State) (c : Core) : State :=
  if s.cores.any (fun x => x.key == c.key) then
    { s with cores := s.cores.map (fun x => if x.key == c.key then c else x) }
  else { s with cores := s.cores ++ [c] }

def State.modCore (s : State) (k : CKey) (f : Core → Core) : State := s.setCore (f (s.core k))

def State.part (s : State) (p : PKey) : Part := nth .fresh (s.core ⟨p.die, p.core⟩).parts p.part

def State.modPart (s : State) (p : PKey) (f : Part → Part) : State :=
  s.modCore ⟨p.die, p.core⟩ (fun c => { c with parts := modAt c.parts p.part f })

def Group.pkey (g : Group) : PKey := ⟨g.core.die, g.core.core, g.part⟩

/-- A B-die has number 4 to 7 (R7). -/
def isBDie (d : Nat) : Bool := 4 ≤ d

/-- Capability class of R15 and R20, from the configuration image's byte (R389): working vector units in the low
half and working matrix units in the high half. A core with no byte counts as whole. -/
def State.coreByte (s : State) (k : CKey) : Option Byte :=
  (s.harvest.find? (fun x => x.1 == k)).map (fun x => x.2)

def State.coreClass (s : State) (k : CKey) : Nat :=
  let full := match s.coreByte k with | some b => b.toNat / 16 == 15 | none => true
  (if isBDie k.die then 2 else 0) + (if full then 0 else 1)

/-- %core (R15). -/
def State.coreWord (s : State) (k : CKey) : Word :=
  BitVec.ofNat 32 (k.core + (k.core / 12) * 2 ^ 8 + (k.core % 12) * 2 ^ 12 + s.coreClass k * 2 ^ 16)

/-- The die that carries a stack (R8). -/
def homeDie (stk : Nat) : Nat := if stk < 4 then stk else 4 + (stk - 4) / 3

/-- %party (R108). -/
def State.partyWord (s : State) (g : Group) : Word :=
  let n := ((s.partyGroups g).filter (fun h => h.live != 0)).length
  BitVec.ofNat 32 (g.party.getD 0 + (if g.party.isNone then 8 else 0) + s.memberIndex g * 16 + n * 256)

/- ### Registers and the writes on their way -/

/-- Registers of a list, 0 where there is none. -/
def regS (g : Group) (n : Nat) : Word := nth 0 g.s n
def regV (g : Group) (n : Nat) : Lanes := nth [] g.v n
def regY (g : Group) (n : Nat) : Lanes := nth [] g.y n
def regM (g : Group) (n : Nat) : Mask := nth 0 g.m n
def regLc (g : Group) (n : Nat) : Word := nth 0 g.lc n
def regQ (g : Group) (n : Nat) : Option QBind := nth none g.q n

/-- Land one write. -/
def Write.apply (g : Group) : Write → Group
  | .v n k x => { g with v := modAt g.v n (fun o => mergeLanes k o x) }
  | .y n k x => { g with y := modAt g.y n (fun o => mergeLanes k o x) }
  | .s n x => { g with s := setAt g.s n x }
  | .m n l b => { g with m := modAt g.m n (fun o => (o &&& ~~~l) ||| (b &&& l)) }
  | .lc n x => { g with lc := setAt g.lc n x }
  | .flags f => { g with fpstat := g.fpstat ||| f.zeroExtend 32 }
  | .q n x => { g with q := setAt g.q n x }

/-- The operand code of the register a write changes (R30); FPSTAT has none. -/
def Write.code : Write → Nat
  | .v n _ _ => n
  | .y n _ _ => 0x300 + n
  | .s n _ => 0x100 + n
  | .m n _ _ => 0x350 + n
  | .lc n _ => 0x369 + n
  | .flags _ => 0x3FE
  | .q n _ => 0x340 + n

def Write.applyAll (g : Group) (ws : List Write) : Group := ws.foldl Write.apply g

/-- The group as one read of register `code` finds it: each write of that register on its way is seen or not, a free
choice for each read (R36, R37); a wider-scope instance sees every fixed-latency write that issued by a tick, at which the group had
arrived (R99). -/
def seenFrom (tick fldNo code : Nat) (by_ : Option Nat) (g : Group) (i : Nat) : List InFlight → Group
  | [] => g
  | e :: t =>
    let ws := e.writes.filter (fun w => w.code == code)
    let sees := (e.due.isSome && by_.any (fun t => e.issue ≤ t)) || Config.raceNew tick (fldNo * 1024 + code) i
    seenFrom tick fldNo code by_ (if ws.isEmpty then g else if sees then Write.applyAll g ws else g) (i + 1) t

/-- An issue of a wider-scope instance: complete, or issued again by RTE.replay. DEDUCED (log 98): R99 is read of both, and not of
lanes that an .await released, which form no instance (R104). -/
def Issue.wide (i : Issue) : Bool := i.phase == .instance_ || (i.phase == .replay && i.scope != .lane)

/-- The tick by which the fixed-latency writes of a group issued that the issue at hand surely sees: of an instance that of its arrival
(R99). -/
def State.seesTo (s : State) (g : Group) : Option Nat := if s.cur.wide then some g.arrivedAt else none

def State.seen (s : State) (g : Group) (fldNo code : Nat) : Group :=
  seenFrom s.tick fldNo code (s.seesTo g) g 0 g.inFlight

/-- %clock and CLK's value: the 64-bit count of clk (R330). -/
def State.clock (s : State) : BitVec 64 := BitVec.ofNat 64 s.clk

/-- One special, in lane `i` (R16, R30). -/
def State.special (s : State) (g : Group) (i : Nat) : Special → Word
  | .lane => BitVec.ofNat 32 i
  | .group => BitVec.ofNat 32 g.key.grp
  | .party => s.partyWord g
  | .team => BitVec.ofNat 32 g.key.team
  | .width => BitVec.ofNat 32 W
  | .core => s.coreWord g.core
  | .die => BitVec.ofNat 32 g.core.die
  | .clock => loWord s.clock
  | .vpc => s.cur.pc

/-- An inline constant (R30). -/
def immWord (k : BitVec 7) : Word := k.signExtend 32

/-- The step of a walk that an instruction reads: the first one fetched (R87). -/
def qStep (g : Group) (n : Nat) : Lanes :=
  match regQ g n with
  | some b => (match b.ahead with | .data x :: _ => x | _ => List.replicate W 0)
  | none => List.replicate W 0

/-- Register `j` of the run that an operand names, in every lane, as field `f` of the instruction reads it. -/
def State.vec (s : State) (g : Group) (f : Nat) (j : Nat) : Opd → Lanes
  | .v n => regV (s.seen g f (n.toNat + j)) (n.toNat + j)
  | .y n => regY (s.seen g f (0x300 + n.toNat + j)) (n.toNat + j)
  | .s n => List.replicate W (regS (s.seen g f (0x100 + n.toNat + j)) (n.toNat + j))
  | .q n => qStep g n.toNat
  | .m n => (List.range W).map (fun i => if laneBit (regM (s.seen g f (0x350 + n.val)) n.val) i then 1 else 0)
  | .sp x => (List.range W).map (fun i => s.special g i x)
  | .lc n => List.replicate W (regLc (s.seen g f (0x369 + n.val)) n.val)
  | .imm k => List.replicate W (immWord k)

/-- The same, read once: lane 0's element of a walk (R87). -/
def State.scal (s : State) (g : Group) (f : Nat) (j : Nat) : Opd → Word
  | .v n => nth 0 (regV (s.seen g f (n.toNat + j)) (n.toNat + j)) 0
  | .y n => nth 0 (regY (s.seen g f (0x300 + n.toNat + j)) (n.toNat + j)) 0
  | .s n => regS (s.seen g f (0x100 + n.toNat + j)) (n.toNat + j)
  | .q n => nth 0 (qStep g n.toNat) 0
  | .m _ => 0
  | .sp x => s.special g 0 x
  | .lc n => regLc (s.seen g f (0x369 + n.val)) n.val
  | .imm k => immWord k

/-- A mask register as a field reads it. -/
def State.mask (s : State) (g : Group) (f : Nat) (n : MReg) : Mask := regM (s.seen g f (0x350 + n.val)) n.val

/-- The lanes the guard selects (R26). -/
def State.guardMask (s : State) (g : Group) : Option MReg → Mask
  | none => allLanes
  | some m => s.mask g 9 m

/-- Queue writes that land `lat` clk after issue (R36). -/
def State.putFixed (s : State) (k : GKey) (lat : Nat) (ws : List Write) : State :=
  s.modGroup k (fun g => { g with inFlight := g.inFlight ++ [⟨some (s.clk + lat), 0, ws, [], s.tick, none, none, [], s.cur.cls⟩] })

/-- Queue the writes of a Lat V instruction, counted on its clause's scoreboard (R37), and the registers that its pending accesses
will write. -/
def State.putVar (s : State) (k : GKey) (ws : List Write) (coming : List Nat := []) : State :=
  s.modGroup k (fun g =>
    { g with inFlight := g.inFlight ++ [⟨none, s.cur.sb, ws, coming, s.tick, none, none, [], s.cur.cls⟩]
             sb := modAt g.sb s.cur.sb (· + 1) })

/-- The writes of one register of a run: by lane under a mask, or once. -/
def writeVec (o : Opd) (j : Nat) (m : Mask) (x : Lanes) : List Write :=
  match o with
  | .v n => [.v (n.toNat + j) m x]
  | .y n => [.y (n.toNat + j) m x]
  | .s n => if m == 0 then [] else [.s (n.toNat + j) (nth 0 x ((lowestLane m).getD 0))]
  | .lc n => if m == 0 then [] else [.lc n.val (nth 0 x ((lowestLane m).getD 0))]
  | _ => []

def writeScal (o : Opd) (j : Nat) (x : Word) : List Write :=
  match o with
  | .s n => [.s (n.toNat + j) x]
  | .lc n => [.lc n.val x]
  | _ => []

/- ### Host events (R344, R379, R380) -/

/-- The 32-byte record (R380). -/
def Event.bytes (e : Event) : List Byte :=
  leBytes 4 (e.kind + e.die * 2 ^ 8 + e.ctx * 2 ^ 16) ++ leBytes 4 e.p0.toNat ++ leBytes 8 e.p1.toNat ++
    leBytes 8 0 ++ leBytes 8 e.clk

/-- The ring holds an event, and vector 1 is raised. -/
def State.ringEvent (s : State) (e : Event) : State :=
  { s with
    events := s.events ++ [e]
    hostMem := Memory.store s.hostMem (s.regs.evqBase.toNat + 32 * s.regs.evqTail.toNat) e.bytes
    regs := { s.regs with evqTail := BitVec.ofNat 32 ((s.regs.evqTail.toNat + 1) % 4096) }
    msi1 := s.msi1 + 1 }

def State.ringFull (s : State) : Bool := (s.regs.evqTail.toNat + 1) % 4096 == s.regs.evqHead.toNat % 4096

def State.overflowOf (s : State) (d : Nat) : List Event := ((s.overflow.find? (fun x => x.1 == d)).map (·.2)).getD []

def State.setOverflow (s : State) (d : Nat) (l : List Event) : State :=
  { s with overflow := (s.overflow.filter (fun x => x.1 != d)) ++ (if l.isEmpty then [] else [(d, l)]) }

/-- An event of a die is delivered, held in the die's overflow queue, or discarded and counted (R344). -/
def State.post (s : State) (kind die ctx : Nat) (p0 : Word) (p1 : BitVec 64) : State :=
  let e : Event := { kind := kind, die := die, ctx := ctx, p0 := p0, p1 := p1, clk := s.clk }
  let q := s.overflowOf die
  if q.isEmpty && !s.ringFull then s.ringEvent e
  else if q.length < 256 then s.setOverflow die (q ++ [e])
  else
    let first := !s.armed.contains die
    { s with
      regs := { s.regs with lostev := modAt s.regs.lostev die (fun x => BitVec.ofNat 32 (min (x.toNat + 1) 0xFFFFFFFF)) }
      msi0 := if first then s.msi0 + 1 else s.msi0
      armed := if first then s.armed ++ [die] else s.armed }

/- ### Fault codes and records -/

/-- The codes of R318. -/
def FaultCode.num : FaultCode → Nat
  | .illegalEnc => 0x01 | .scopeIllegal => 0x02 | .stallShort => 0x03 | .loopSetup => 0x04 | .rdvSplit => 0x05
  | .snanUninit => 0x06 | .fpTrap => 0x07 | .matrixState => 0x08
  | .addrBounds => 0x10 | .addrRights => 0x11 | .addrOwner => 0x12 | .xlateMiss => 0x13 | .addrMisalign => 0x14
  | .ipAlign => 0x18 | .ipSplit => 0x19 | .ipTransit => 0x1A | .restripeBusy => 0x1B
  | .verFull => 0x20 | .verKind => 0x21 | .tagState => 0x28 | .eccUncorr => 0x30
  | .dieLost => 0x38 | .handlerOverrun => 0x3C | .softTrap => 0x3F

/-- A fault with all that its record and its return need (R110, R320, R321): the faulting lanes and the lanes at the
instruction of each member group, the lowest-numbered first. -/
structure FaultInfo where
  scope : Scope
  code : FaultCode
  pc : Word
  reg : Nat
  addr : BitVec 64
  lanes : List (GKey × Mask)
  arrived : List (GKey × Mask)
  next : Word
  pos : Option ClausePos
  deriving DecidableEq, Repr

def FaultRec.blank : FaultRec :=
  { valid := false, code := 0, scope := 0, origin := 0, die := 0, core := 0, part := 0, team := 0, grp := 0,
    pc := 0, reg := 0, addr := 0, lanes := 0, fscope := 0, fgroups := 0, clk := 0 }

/-- The record of a group's fault registers (R337). -/
def Group.faultRec (g : Group) (clk : Nat) : FaultRec :=
  { valid := true, code := BitVec.ofNat 8 g.fault.code.toNat, scope := BitVec.ofNat 2 g.fault.scope.toNat, origin := 0,
    die := g.core.die, core := g.core.core, part := g.part, team := g.key.team, grp := g.key.grp,
    pc := g.fault.pc, reg := g.fault.reg, addr := g.fault.addr, lanes := g.fault.lanes,
    fscope := g.fault.scope, fgroups := g.fault.groups, clk := clk }

/-- A halt as it stands when its line is raised (R333, R337). -/
def Halt.start (cause clk : Nat) (p : FaultRec) : Halt :=
  { cause := cause, clk := clk, reached := [], primary := p, secondary := FaultRec.blank, secCount := 0,
    tagsCut := none, stops := [], dumped := false }

/-- Halt a context (R333, R345): only the first cause counts, and HALTED is posted when the line is raised. -/
def State.haltCtx (s : State) (n cause : Nat) (p : FaultRec) : State :=
  if s.halted n then s
  else (s.modCtx n (fun c => { c with halt := some (Halt.start cause s.clk p) })).post 1 p.die n (BitVec.ofNat 32 cause) 0

/-- Where a tag stands among the entries of TAGS (R339). -/
def cutNum (x : CKey × Nat) : Nat := (x.1.die * 128 + x.1.core) * 64 + x.2

/-- A fault after the halt line: the first is recorded, every one counts, and TAGS stops before the first entry of a tag that
faulted (R340). -/
def Halt.second (h : Halt) (r : FaultRec) (cut : Option (CKey × Nat)) : Halt :=
  { h with secondary := if h.secondary.valid then h.secondary else r
           secCount := min (h.secCount + 1) 255
           tagsCut := match h.tagsCut, cut with
             | some a, some b => if cutNum b < cutNum a then some b else some a
             | a, b => a <|> b }

/-- Record a secondary fault of a context, up to its DUMP_DONE (R340). -/
def State.secondary (s : State) (n : Nat) (r : FaultRec) (cut : Option (CKey × Nat)) : State :=
  s.modCtx n (fun c => { c with halt := c.halt.map (fun h => if h.dumped then h else h.second r cut) })

/-- An engine of a halted context has stopped and writes its stop record (R334). -/
def State.addStop (s : State) (n : Nat) (r : StopRec) : State :=
  s.modCtx n (fun c => { c with halt := c.halt.map (fun h => { h with stops := h.stops ++ [r] }) })

/-- The halt line of a context has reached a die (R334). -/
def State.lineAt (s : State) (n die : Nat) : Bool :=
  match s.ctx? n with | some c => (match c.halt with | some h => h.reached.contains die | none => false) | none => false

/- ### Taking a fault (R110, R319, R321, R323) -/

/-- SCOPE of FAULTSCOPE: 1 also for a per-group fault (R110). -/
def scopeFaultNum : Scope → Nat
  | .lane => 1 | .group => 1 | .party => 2 | .team => 3

/-- FAULTSCOPE.SEL's number of a member (R110). -/
def State.selOf (s : State) (g : Group) : Scope → Nat
  | .lane => 0 | .group => 0 | .party => s.memberIndex g | .team => g.key.grp

/-- Lanes listed for a group. -/
def lanesFor (k : GKey) : List (GKey × Mask) → Mask
  | [] => 0
  | (a, m) :: t => if a == k then m else lanesFor k t

/-- FAULTGROUPS (R110, R377). -/
def groupsWord : List (GKey × Mask) → Nat
  | [] => 0
  | (k, _) :: t => 2 ^ k.grp + groupsWord t

/-- Write the fault registers of every suspended member (R321, R341). -/
def State.writeFaultRegs (s : State) (f : FaultInfo) (sel : Nat) : State :=
  s.modGroups (fun g =>
    if f.arrived.any (fun x => x.1 == g.key) then
      { g with
        fault :=
          { code := BitVec.ofNat 32 f.code.num, pc := f.pc, lanes := lanesFor g.key f.lanes,
            reg := BitVec.ofNat 32 f.reg, addr := f.addr,
            scope := BitVec.ofNat 32 (scopeFaultNum f.scope + sel * 2 ^ 8 + f.arrived.length * 2 ^ 16),
            groups := BitVec.ofNat 32 (groupsWord f.arrived) }
        arrived := lanesFor g.key f.arrived
        faultNext := f.next
        faultPos := f.pos }
    else g)

/-- Enter the handler (R321): the handling member runs its thread at TRAPVEC with traps masked, the other members
are suspended. -/
def State.enterHandler (s : State) (f : FaultInfo) (h : GKey) (vec : Word) : State :=
  s.modGroups (fun g =>
    if g.key == h then
      { g with resume := f.next, resume0 := f.next, inh := true, mask := true,
               entries := min (g.entries + 1) 65535, hpc := vec, hpos := none }
    else if f.arrived.any (fun x => x.1 == g.key) then { g with susp := true }
    else g)

/-- The member that handles: the lowest-numbered with a live lane (R110). -/
def State.handling (s : State) (f : FaultInfo) : Option Group :=
  (f.arrived.filterMap (fun x => s.group? x.1)).find? (fun g => g.live != 0)

/-- The group issues no later instruction (R319); a fault while its context halts shows in its stop record (R377). -/
def State.stopGroups (s : State) (f : FaultInfo) (secondary : Bool) : State :=
  s.modGroups (fun g => if f.arrived.any (fun x => x.1 == g.key) then { g with stopped := true, lateFault := g.lateFault || secondary } else g)

/-- TOUCHED (R342). -/
def State.touch (s : State) (ctx die : Nat) : State :=
  s.modCtx ctx (fun c => { c with touched := c.touched ||| BitVec.ofNat 8 (2 ^ die) })

/-- The record of a die declared lost (R343). -/
def FaultRec.lostDie (die clk : Nat) : FaultRec :=
  { FaultRec.blank with valid := true, code := 0x38, origin := 3, die := die, clk := clk }

/-- A context meets a lost die: it has touched it, and halts with cause 4 (R343); after its halt line that is a secondary
fault (R340), before whose tag, if it is a copy's, TAGS ends. -/
def State.meetLostAt (s : State) (n die : Nat) (cut : Option (CKey × Nat)) : State :=
  let r := FaultRec.lostDie die s.clk
  if s.halted n then (s.touch n die).secondary n r cut else (s.touch n die).haltCtx n 4 r

def State.meetLost (s : State) (n die : Nat) : State := s.meetLostAt n die none

/-- The fault ends a single step in every suspended group (R332). -/
def State.endSteps (s : State) (f : FaultInfo) : State :=
  s.modGroups (fun g => if f.arrived.any (fun x => x.1 == g.key) then { g with stepOne := false } else g)

/-- Take a fault, in one step: write the fault registers, then enter the handler or halt the context (R321, R323);
after the halt line it is a secondary fault and writes no group's registers (R340, R377); a request for a lost die, named
by the address, halts the context (R343). DESIGN CHOICE (log 88): at entry to the handler SEL of FAULTSCOPE names the handling member,
of which R110 gives only the reset value. -/
def State.takeFault (s0 : State) (f : FaultInfo) : State :=
  let s := s0.endSteps f
  match s.handling f with
  | none => s
  | some h =>
    match s.ctx? h.ctx with
    | none => s
    | some c =>
      let sel := s.selOf h f.scope
      let masked := (f.arrived.filterMap (fun x => s.group? x.1)).any (fun g => g.mask || g.susp)
      let s1 := s.writeFaultRegs f sel
      let r := match s1.group? h.key with | some g => g.faultRec s.clk | none => FaultRec.blank
      if f.code == .dieLost then (s.meetLost h.ctx f.addr.toNat).stopGroups f c.halt.isSome
      else if c.halt.isSome then (s.secondary h.ctx r none).stopGroups f true
      else if masked then (s1.haltCtx h.ctx 2 r).stopGroups f false
      else if c.trapvec == 0 then (s1.haltCtx h.ctx 1 r).stopGroups f false
      else s1.enterHandler f h.key c.trapvec

/- ### Returning from a fault (R325, R111, R83) -/

/-- Set the lanes of a mask to a counter and clause position, free. -/
def Group.moveLanes (g : Group) (m : Mask) (pc : Word) (pos : Option ClausePos) : Group :=
  { g with
    pcs := mergeLanes m g.pcs (List.replicate W pc)
    clause := (List.range W).map (fun i => if laneBit m i then pos else nth none g.clause i)
    wait := (List.range W).map (fun i => if laneBit m i then .free else nth .free g.wait i) }

/-- The end test of one level: the group with its counter stepped, and whether it goes back to its start (R80, R126). DESIGN CHOICE
(log 99): a write of the counter on its way is not seen by the test, and stands once it lands; R36 would let a read see either. -/
def Group.levelTest (g : Group) (k : Nat) (l : LoopLevel) : Group × Bool :=
  let c := regLc g k
  match l.kind with
  | .count =>
    let n := if c.toNat ≤ 1 then 0 else c.toNat - 1
    ({ g with lc := setAt g.lc k (BitVec.ofNat 32 n) }, n != 0)
  | .queue q dim =>
    let n := min (c.toNat + 1) 0xFFFFFFFF
    let e := match regQ g q.toNat with
      | some b => if dim.val = 0 then b.e0 else if dim.val = 1 then b.e1 else b.e2
      | none => false
    ({ g with lc := setAt g.lc k (BitVec.ofNat 32 n) }, !e)

/-- The end test for every level whose exit is the address, innermost first: where the lanes go (R80). -/
def Group.endTest (g : Group) (exit : Word) : Nat → Group × Option Word
  | 0 => (g, none)
  | fuel + 1 =>
    match g.levels.getLast? with
    | none => (g, none)
    | some l =>
      if l.exit != exit then (g, none)
      else
        let r := g.levelTest (g.levels.length - 1) l
        if r.2 then (r.1, some l.start)
        else
          let g1 := { r.1 with levels := g.levels.dropLast }
          match g1.endTest exit fuel with
          | (g2, some t) => (g2, some t)
          | (g2, none) => (g2, some exit)

/-- Lanes pass an instruction: to the next one of the clause or to the next header, by way of the end test (R60, R80). -/
def Group.pass (g : Group) (m : Mask) (next : Word) (pos : Option ClausePos) : Group :=
  match pos with
  | some p => g.moveLanes m next (some p)
  | none =>
    match g.endTest next 3 with
    | (g1, some t) => g1.moveLanes m t none
    | (g1, none) => g1.moveLanes m next none

/-- The lanes of F: faulting lanes that stand at FAULTPC, live (R325). -/
def Group.faultSet (g : Group) : Mask :=
  g.fault.lanes &&& g.live &&& maskOf (fun i => nth 0 g.pcs i == g.fault.pc)

/-- The arrived lanes that are still at the instruction. -/
def Group.arrivedSet (g : Group) : Mask :=
  (g.arrived ||| g.fault.lanes) &&& g.live &&& maskOf (fun i => nth 0 g.pcs i == g.fault.pc)

/-- The groups that one fault suspended (R110). -/
def State.suspendedWith (s : State) (g : Group) : List Group :=
  if g.fault.scope.toNat % 4 < 2 then [g]
  else (s.teamGroups g.key).filter (fun h => bitOf g.fault.groups.toNat h.key.grp)

/-- How RTE moves the lanes of a suspended group. -/
inductive Rte where
  /-- The arrived lanes pass the instruction. -/
  | skip
  /-- The lanes of F go to an address and the other arrived lanes pass. -/
  | resume (t : Word)
  /-- The lanes of the mask stay, free, to come to the instruction again; the other arrived lanes pass. -/
  | stay (m : Mask)
  /-- The arrived lanes stay for the replay that issues next. -/
  | replay (sc : Scope)
  deriving DecidableEq, Repr

/-- The end of the handler for one suspended group (R325): its lanes move, the instruction's walks advance where it
counts as issued, and the handler bits clear. -/
def Group.endFault (g : Group) (kind : Rte) (adv : Group → Group) (at_ : Nat) : Group :=
  let f := g.faultSet
  let arr := g.arrivedSet
  let others := fun (m : Mask) => if m == 0 then g else (adv g).pass m g.faultNext g.faultPos
  let g1 := match kind with
    | .skip => others arr
    | .resume t => (others (arr &&& ~~~f)).moveLanes f t none
    | .stay m => (others (arr &&& ~~~(f &&& m))).moveLanes (f &&& m) g.fault.pc (lowestLane f |>.bind (fun i => nth none g.clause i))
    | .replay sc =>
      { g with wait := (List.range W).map (fun i => if laneBit arr i then .issuing sc else nth .free g.wait i) }
  { g1 with inh := false, mask := false, susp := false, hpos := none, nextIssue := max g1.nextIssue at_ }

/-- RETURN FROM A FAULT: every suspended group resumes together (R111, R325). -/
def State.returnFault (s : State) (g : Group) (kind : Rte) (adv : Group → Group) (at_ : Nat) : State :=
  let keys := (s.suspendedWith g).map (·.key)
  s.modGroups (fun h => if keys.contains h.key then h.endFault kind adv at_ else h)

end Sys2Proof.Machine
end

