-- ==== Sys2Proof/Machine/Flags.lean ====
section
/-! DEFINITION. The floating-point flags and enables of FPSTAT (R144), and which lanes of an instruction trap (R145). -/

namespace Sys2Proof.Machine

/-- Flags of one result, by their bit in FPSTAT (R144). -/
abbrev Fl := Nat
def flNone : Fl := 0
def flNV : Fl := 1
def flDZ : Fl := 2
def flOF : Fl := 4
def flUF : Fl := 8
def flNX : Fl := 16

/-- The OR of two flag sets, bit by bit. -/
def flOr (x y : Fl) : Fl := (BitVec.ofNat 5 x ||| BitVec.ofNat 5 y).toNat

/-- The OR of the flags of the lanes of a mask (R144). -/
def flOrLanes (m : Mask) (i : Nat) : List Fl → Fl
  | [] => 0
  | f :: t => flOr (if laneBit m i then f else 0) (flOrLanes m (i + 1) t)

/-- The enables of FPSTAT, each at its flag's bit (R144). -/
def enablesOf (fpstat : Word) : Nat := fld fpstat.toNat 8 5

/-- A flag whose enable is set is raised (R145). -/
def traps (en : Nat) (f : Fl) : Bool := (BitVec.ofNat 5 en &&& BitVec.ofNat 5 f) != 0

/-- What GSR reads of FPSTAT: the flags of every earlier instruction, those on their way included (R144, R326). -/
def fpstatSeen (g : Group) : Word :=
  g.inFlight.foldl (fun x e => e.writes.foldl (fun x w => match w with | .flags f => x ||| f.zeroExtend 32 | _ => x) x) g.fpstat

/-- What SSR writes to FPSTAT: ones clear flags, the enables are replaced (R144, R326). -/
def fpstatWrite (old x : Word) : Word :=
  BitVec.ofNat 32 ((BitVec.ofNat 5 old.toNat &&& ~~~(BitVec.ofNat 5 x.toNat)).toNat + fld x.toNat 8 5 * 256)

end Sys2Proof.Machine
end

