-- ==== Sys2Proof/Machine/FP.lean ====
section
/-! DEFINITION. Floating-point formats and exact arithmetic with one rounding (R136 to R142). A finite value is
(−1)^neg × m × 2^e with m a natural number; nothing is rounded before `fpRound`. -/

namespace Sys2Proof.Machine

/-- A format of R137. -/
structure FFmt where
  ebits : Nat
  mbits : Nat
  bias : Nat
  hasInf : Bool
  hasNan : Bool
  /-- Code of the largest finite magnitude. -/
  maxCode : Nat
  /-- The canonical NaN, 0 where the format has none (R140). -/
  nan : Nat
  deriving DecidableEq, Repr

def fmtF32 : FFmt := ⟨8, 23, 127, true, true, 0x7F7FFFFF, 0x7FC00000⟩
def fmtF16 : FFmt := ⟨5, 10, 15, true, true, 0x7BFF, 0x7E00⟩
def fmtBf16 : FFmt := ⟨8, 7, 127, true, true, 0x7F7F, 0x7FC0⟩
def fmtE4m3 : FFmt := ⟨4, 3, 7, false, true, 0x7E, 0x7F⟩
def fmtE5m2 : FFmt := ⟨5, 2, 15, true, true, 0x7B, 0x7E⟩
def fmtE2m3 : FFmt := ⟨2, 3, 1, false, false, 0x1F, 0⟩
def fmtE3m2 : FFmt := ⟨3, 2, 3, false, false, 0x1F, 0⟩
def fmtE2m1 : FFmt := ⟨2, 1, 1, false, false, 0x7, 0⟩

def ftFmt : FT → FFmt
  | .f32 => fmtF32 | .f16 => fmtF16 | .bf16 => fmtBf16

/-- The format of a float type code. -/
def tcFmt : TC → FFmt
  | .f32 => fmtF32 | .f16 => fmtF16 | .bf16 => fmtBf16 | .e4m3 => fmtE4m3 | .e5m2 => fmtE5m2
  | .e2m3 => fmtE2m3 | .e3m2 => fmtE3m2 | .e2m1 => fmtE2m1 | _ => fmtF32

/-- Bits of a format (R136). -/
def FFmt.bits (f : FFmt) : Nat := 1 + f.ebits + f.mbits

/-- A datum of a format, or an exact result. -/
inductive FV where
  | nan (signalling : Bool)
  | inf (neg : Bool)
  | fin (neg : Bool) (m : Nat) (e : Int)
  deriving DecidableEq, Repr

/-- The value of a code (R137). -/
def fpDecode (f : FFmt) (x : Nat) : FV :=
  let neg := bitOf x (f.ebits + f.mbits)
  let ex := fld x f.mbits f.ebits
  let ma := x % 2 ^ f.mbits
  if ex = 2 ^ f.ebits - 1 && f.hasInf then
    if ma = 0 then .inf neg else .nan (!bitOf ma (f.mbits - 1))
  else if f.hasNan && !f.hasInf && ex = 2 ^ f.ebits - 1 && ma = 2 ^ f.mbits - 1 then .nan false
  else if ex = 0 then .fin neg ma (1 - (f.bias : Int) - f.mbits)
  else .fin neg (ma + 2 ^ f.mbits) ((ex : Int) - f.bias - f.mbits)

def FFmt.signBit (f : FFmt) (neg : Bool) : Nat := if neg then 2 ^ (f.ebits + f.mbits) else 0

/-- ±∞ of a format that has one. -/
def FFmt.infCode (f : FFmt) (neg : Bool) : Nat := f.signBit neg + (2 ^ f.ebits - 1) * 2 ^ f.mbits
def FFmt.maxFin (f : FFmt) (neg : Bool) : Nat := f.signBit neg + f.maxCode

/-- Double where `k` doubles: `m × 2^k` for a natural `k`. -/
def shiftUp (m : Nat) (k : Nat) : Nat := m * 2 ^ k

/-- The result of an overflow (R141). -/
def overflowCode (f : FFmt) (r : Rnd) (sat neg : Bool) : Nat :=
  if r = .rz || (r = .rm && !neg) || (r = .rp && neg) then f.maxFin neg
  else if sat then f.maxFin neg
  else if f.hasInf then f.infCode neg
  else if f.hasNan then f.nan
  else f.maxFin neg

/-- Whether a magnitude goes up to the next representable one (R141, R142): `k` the kept bits, `rem` of `2^sh` left. -/
def roundsUp (r : Rnd) (neg : Bool) (u k rem sh : Nat) : Bool :=
  match r with
  | .rne => 2 * rem > 2 ^ sh || (2 * rem = 2 ^ sh && k % 2 = 1)
  | .rz => false
  | .rp => !neg && rem != 0
  | .rm => neg && rem != 0
  | .sr => rem != 0 && decide (u < rem * 2 ^ 16 / 2 ^ sh)

/-- Largest finite magnitude, as m × 2^e. -/
def FFmt.maxVal (f : FFmt) : Nat × Int :=
  match fpDecode f f.maxCode with | .fin _ m e => (m, e) | _ => (0, 0)

/-- m1 × 2^e1 < m2 × 2^e2. -/
def magLt (m1 : Nat) (e1 : Int) (m2 : Nat) (e2 : Int) : Bool :=
  let lo := min e1 e2
  decide (shiftUp m1 (e1 - lo).toNat < shiftUp m2 (e2 - lo).toNat)

/-- Code of a magnitude `k × 2^q` that the format represents. -/
def codeOf (f : FFmt) (k : Nat) (q : Int) : Nat :=
  if k = 0 then 0
  else
    let ev := (Nat.log2 k : Int) + q
    if ev < 1 - (f.bias : Int) then k
    else
      let mant := if Nat.log2 k ≤ f.mbits then shiftUp k (f.mbits - Nat.log2 k) else k / 2 ^ (Nat.log2 k - f.mbits)
      (ev + f.bias).toNat * 2 ^ f.mbits + mant - 2 ^ f.mbits

/-- Round a nonzero exact magnitude once (R141, R142): the code and its flags. -/
def roundMag (f : FFmt) (r : Rnd) (sat neg : Bool) (u m : Nat) (e : Int) : Nat × Fl :=
  let emin : Int := 1 - (f.bias : Int)
  let q := max ((Nat.log2 m : Int) + e) emin - f.mbits
  let sh := (q - e).toNat
  let k0 := if q ≤ e then shiftUp m (e - q).toNat else m / 2 ^ sh
  let rem := if q ≤ e then 0 else m % 2 ^ sh
  let k := if roundsUp r neg u k0 rem sh then k0 + 1 else k0
  let mv := f.maxVal
  if magLt mv.1 mv.2 k q then (overflowCode f r sat neg, flOr flOF flNX)
  else
    let tiny := magLt k q 1 emin
    (f.signBit neg + codeOf f k q, if rem = 0 then flNone else if tiny then flOr flUF flNX else flNX)

/-- A result rounded to a format (R140, R141): NaN is canonical, and +0 where the format has none; the flags do not
include NV of the operation. -/
def fpRound (f : FFmt) (r : Rnd) (sat : Bool) (u : Nat) : FV → Nat × Fl
  | .nan _ => (f.nan, if f.hasNan then flNone else flNV)
  | .inf neg => (if f.hasInf then f.infCode neg else f.maxFin neg, flNone)
  | .fin neg m e => if m = 0 then (f.signBit neg, flNone) else roundMag f r sat neg u m e

def FV.isSnan : FV → Bool | .nan s => s | _ => false
def FV.isNan : FV → Bool | .nan _ => true | _ => false
def FV.isZero : FV → Bool | .fin _ m _ => m == 0 | _ => false
def FV.isInf : FV → Bool | .inf _ => true | _ => false
def FV.neg : FV → Bool | .nan _ => false | .inf n => n | .fin n _ _ => n
def FV.negate : FV → FV | .nan s => .nan s | .inf n => .inf (!n) | .fin n m e => .fin (!n) m e

/-- The signed integer numerator of a finite value at exponent `lo`. -/
def FV.at_ (lo : Int) : FV → Int
  | .fin n m e => let x := (shiftUp m (e - lo).toNat : Int); if n then -x else x
  | _ => 0

def FV.exp : FV → Int | .fin _ _ e => e | _ => 0

/-- The exact sum (R139): the zero of an exact cancellation is −0 under .rm only. -/
def fvAdd (r : Rnd) (x y : FV) : FV × Fl :=
  match x, y with
  | .nan a, .nan b => (.nan false, if a || b then flNV else flNone)
  | .nan a, _ => (.nan false, if a then flNV else flNone)
  | _, .nan b => (.nan false, if b then flNV else flNone)
  | .inf a, .inf b => if a = b then (.inf a, flNone) else (.nan false, flNV)
  | .inf a, _ => (.inf a, flNone)
  | _, .inf b => (.inf b, flNone)
  | .fin na ma ea, .fin nb mb eb =>
    if ma = 0 && mb = 0 then (.fin (if na = nb then na else r == .rm) 0 0, flNone)
    else
      let lo := min ea eb
      let z := FV.at_ lo x + FV.at_ lo y
      if z = 0 then (.fin (r == .rm) 0 0, flNone) else (.fin (decide (z < 0)) z.natAbs lo, flNone)

/-- The exact product (R139, R149). -/
def fvMul (x y : FV) : FV × Fl :=
  match x, y with
  | .nan a, .nan b => (.nan false, if a || b then flNV else flNone)
  | .nan a, _ => (.nan false, if a then flNV else flNone)
  | _, .nan b => (.nan false, if b then flNV else flNone)
  | .inf a, .inf b => (.inf (a != b), flNone)
  | .inf a, .fin b m _ => if m = 0 then (.nan false, flNV) else (.inf (a != b), flNone)
  | .fin a m _, .inf b => if m = 0 then (.nan false, flNV) else (.inf (a != b), flNone)
  | .fin na ma ea, .fin nb mb eb => (.fin (na != nb) (ma * mb) (ea + eb), flNone)

/-- The exact x × y + z (R149): NV for 0 × ∞ even when z is a quiet NaN. -/
def fvFma (r : Rnd) (x y z : FV) : FV × Fl :=
  let p := fvMul x y
  let t := fvAdd r p.1 z
  (t.1, flOr p.2 t.2)

/-- Exact comparison of two values that are not NaN: −0 equals +0 (R151). -/
def fvLt (x y : FV) : Bool :=
  match x, y with
  | .inf a, .inf b => a && !b
  | .inf a, _ => a
  | _, .inf b => !b
  | _, _ => let lo := min x.exp y.exp; decide (FV.at_ lo x < FV.at_ lo y)

def fvEq (x y : FV) : Bool := !fvLt x y && !fvLt y x

/-- x comes before y when −0 is ordered below +0 (R150). -/
def fvBefore (x y : FV) : Bool := fvLt x y || (x.isZero && y.isZero && x.neg && !y.neg)

/-- minimum and maximum, and minimumNumber and maximumNumber, of IEEE 754-2019 (R150). -/
def fvMinMax (isMax number : Bool) (x y : FV) : FV × Fl :=
  if x.isSnan || y.isSnan then (.nan false, flNV)
  else if x.isNan && y.isNan then (.nan false, flNone)
  else if x.isNan then (if number then y else .nan false, flNone)
  else if y.isNan then (if number then x else .nan false, flNone)
  else (if isMax then (if fvBefore x y then y else x) else (if fvBefore y x then y else x), flNone)

/-- Integer square root by its bits, from bit `n − 1` down. -/
def isqrt (x : Nat) : Nat → Nat → Nat
  | 0, r => r
  | n + 1, r => isqrt x n (if (r + 2 ^ n) * (r + 2 ^ n) ≤ x then r + 2 ^ n else r)

/-- The square root of a positive value, with 40 bits and a sticky bit below (R155). -/
def fvSqrtMag (m : Nat) (e : Int) : Nat × Int :=
  let up0 := 80 - Nat.log2 m
  let up := if (e - up0) % 2 = 0 then up0 else up0 + 1
  let x := shiftUp m up
  let r := isqrt x 42 0
  (2 * r + (if r * r = x then 0 else 1), (e - up) / 2 - 1)

/-- FSQRT (R155). -/
def fvSqrt : FV → FV × Fl
  | .nan s => (.nan false, if s then flNV else flNone)
  | .inf neg => if neg then (.nan false, flNV) else (.inf false, flNone)
  | .fin neg m e =>
    if m = 0 then (.fin neg 0 0, flNone)
    else if neg then (.nan false, flNV)
    else let r := fvSqrtMag m e; (.fin false r.1 r.2, flNone)

/-- A value rounded to an integer under a mode (R153, R154): the magnitude, and whether it was inexact. -/
def fvToInt (r : Rnd) (neg : Bool) (m : Nat) (e : Int) : Nat × Bool :=
  if 0 ≤ e then (shiftUp m e.toNat, false)
  else
    let sh := (-e).toNat
    let k := m / 2 ^ sh
    let rem := m % 2 ^ sh
    (if roundsUp r neg 0 k rem sh then k + 1 else k, rem != 0)

/-- An integer as an exact value. -/
def fvOfInt (x : Int) : FV := .fin (decide (x < 0)) x.natAbs 0

/-- The random value of R142 for element `e` of a seed. -/
def srDraw (seed : Word) (e : Nat) : Nat :=
  ((seed ^^^ BitVec.ofNat 32 (e * 0x9E3779B9)).toNat) / 2 ^ 16

/-- The result of an operation rounded, its flags the operation's and the rounding's (R148). -/
def fpFinish (f : FFmt) (r : Rnd) (sat : Bool) (u : Nat) (x : FV × Fl) : Nat × Fl :=
  let y := fpRound f r sat u x.1
  (y.1, flOr x.2 y.2)

end Sys2Proof.Machine
end

