-- ==== Sys2Proof/Machine/Rmw.lean ====
section
/-! DEFINITION. The operations that are performed at the home of their word: atomics and reductions (R295 to R297), and the
in-place operations on column words (R236). -/

namespace Sys2Proof.Machine

/-- Limits of a type (R121). -/
def itMin (it : IT) : Int := if it.signed then -(2 ^ (it.bits - 1) : Nat) else 0
def itMax (it : IT) : Int := if it.signed then (2 ^ (it.bits - 1) : Nat) - 1 else (2 ^ it.bits : Nat) - 1
def clampTo (it : IT) (r : Int) : Int := max (itMin it) (min (itMax it) r)

/-- Three lists at once. -/
def zip3 {α β γ δ : Type} (f : α → β → γ → δ) : List α → List β → List γ → List δ
  | a :: as, b :: bs, x :: xs => f a b x :: zip3 f as bs xs
  | _, _, _ => []

/- ### Atomics and reductions (R295 to R297) -/

/-- The integer that `n` bits give at a type. -/
def itVal (it : IT) (n : Nat) : Int := if it.signed then sext it.bits n else ((n % 2 ^ it.bits : Nat) : Int)

/-- A floating-point operation on codes of a format: one rounding, no flag (R297). -/
def fpCode (f : FFmt) (op : FV → FV → FV) (m x : Nat) : Nat :=
  (fpRound f .rne false 0 (op (fpDecode f (m % 2 ^ f.bits)) (fpDecode f (x % 2 ^ f.bits)))).1

/-- The new value of `z` bytes from the old one `m` and the operands: x, and for ACAS the compare x and the new value y. -/
def RmwFn.new (f : RmwFn) (z m x y : Nat) : Nat :=
  match f with
  | .add => (m + x) % 2 ^ (8 * z)
  | .least it => lowBits it.bits (min (itVal it m) (itVal it x))
  | .greatest it => lowBits it.bits (max (itVal it m) (itVal it x))
  | .and => m.land x
  | .or => m.lor x
  | .xor => m.xor x
  | .xchg => x
  | .cas => if m = x then y else m
  | .fadd ft => fpCode (ftFmt ft) (fun a b => (fvAdd .rne a b).1) m x
  | .fleast => fpCode fmtF32 (fun a b => (fvMinMax false true a b).1) m x
  | .fgreatest => fpCode fmtF32 (fun a b => (fvMinMax true true a b).1) m x

/- ### In-place operations (R236) -/

/-- Bytes of a column word. -/
def wordBytes : Nat := 32

/-- Elements of a list of bytes, `n` bytes each. -/
def chunk (n : Nat) : Nat → List Byte → List Nat
  | 0, _ => []
  | k + 1, bs => leNat (bs.take n) :: chunk n k (bs.drop n)

/-- An elementwise operation over column words of elements of `n` bytes. -/
def ipWords (n : Nat) (f : Nat → Nat → Nat → Nat) (d a b : List Byte) : List Byte :=
  let k := wordBytes / n
  (zip3 f (chunk n k d) (chunk n k a) (chunk n k b)).flatMap (fun x => leBytes n x)

/-- What sets the in-place operations apart: the sources besides dst, whether dst is read, and the new word from dst, a
and b. -/
structure IpOp where
  readsDst : Bool
  usesB : Bool
  f : List Byte → List Byte → List Byte → List Byte

/-- IPADD to IPMAX (R236). -/
def ipInt (it : IT) (sat : Bool) (op : Int → Int → Int) : IpOp :=
  let n := it.bits / 8
  { readsDst := false, usesB := true
    f := ipWords n (fun _ x y =>
      let v := fun (z : Nat) => if it.signed then sext it.bits z else (z : Int)
      let r := op (v x) (v y)
      lowBits it.bits (if sat then clampTo it r else r)) }

/-- IPMAC (R236): one rounding, no flag. -/
def ipMac (ft : FT) : IpOp :=
  let f := ftFmt ft
  { readsDst := true, usesB := true
    f := ipWords (f.bits / 8) (fun z x y => (fpRound f .rne false 0 (fvFma .rne (fpDecode f x) (fpDecode f y) (fpDecode f z)).1).1) }

/-- IPCPY (R236). -/
def ipCopy : IpOp := { readsDst := false, usesB := false, f := fun _ a _ => a }

/-- What an in-place instruction computes (R236). -/
def IpFn.op : IpFn → IpOp
  | .add it sat => ipInt it sat (· + ·)
  | .sub it sat => ipInt it sat (· - ·)
  | .least it => ipInt it false min
  | .greatest it => ipInt it false max
  | .mac ft => ipMac ft
  | .copy => ipCopy

end Sys2Proof.Machine
end

