-- ==== Sys2Proof/Machine/Mem.lean ====
section
/-! DEFINITION. Buffers, translation, placement and the accesses themselves: the entry fields (R202, R225), the
checks in the order of R207, frames (R205, R206, R272), the die caches (R18, R211, R282), and the accesses that have issued
and are not yet performed, in the order that R218, R220 and R273 to R287 leave them. -/

namespace Sys2Proof.Machine

/- ### The buffer-table entry (R202, R225) -/

abbrev Entry := BitVec 512

def State.entry (s : State) (idx : Nat) : Entry := Sparse.get 0 s.bufs idx
def State.setEntry (s : State) (idx : Nat) (e : Entry) : State := { s with bufs := Sparse.set 0 s.bufs idx e }

/-- Field [lo + n - 1 : lo] of an entry. -/
def Entry.f (e : Entry) (lo n : Nat) : Nat := fld e.toNat lo n
/-- The entry with a field replaced. -/
def Entry.put (e : Entry) (lo n x : Nat) : Entry :=
  BitVec.ofNat 512 (e.toNat - (fld e.toNat lo n) * 2 ^ lo + x % 2 ^ n * 2 ^ lo)

def Entry.valid (e : Entry) : Bool := bitOf e.toNat 56
def Entry.lines (e : Entry) : Nat := if e.f 64 24 = 0 then 2 ^ 24 else e.f 64 24
/-- Length in bytes. -/
def Entry.len (e : Entry) : Nat := e.lines * 256
def Entry.rd (e : Entry) : Bool := bitOf e.toNat 96
def Entry.wr (e : Entry) : Bool := bitOf e.toNat 97
def Entry.at_ (e : Entry) : Bool := bitOf e.toNat 98
def Entry.vr (e : Entry) : Bool := bitOf e.toNat 99
def Entry.ip (e : Entry) : Bool := bitOf e.toNat 100
/-- 0 PLAIN, 1 VERSIONED, 2 SYNC. -/
def Entry.kind (e : Entry) : Nat := e.f 104 2
def Entry.ilv (e : Entry) : Nat := e.f 106 1
def Entry.owner (e : Entry) : Nat := e.f 112 16
def Entry.stk0 (e : Entry) : Nat := e.f 128 4
def Entry.nstk (e : Entry) : Nat := e.f 132 5
def Entry.cbase (e : Entry) : Nat := e.f 137 11
def Entry.milestone (e : Entry) : Nat := e.f 160 32
def Entry.rstate (e : Entry) : Nat := e.f 192 3
def Entry.rtag (e : Entry) : Nat := e.f 195 6
def Entry.target (e : Entry) : Nat := e.f 201 1
def Entry.pace (e : Entry) : Nat := e.f 202 12
def Entry.rdie (e : Entry) : Nat := e.f 214 3
def Entry.rcore (e : Entry) : Nat := e.f 217 7
def Entry.pmap (e : Entry) : Nat := e.f 224 56
def Entry.smap (e : Entry) : Nat := e.f 288 56
def Entry.rmap (e : Entry) : Nat := e.f 352 56
def Entry.rmlen (e : Entry) : Nat := e.f 408 12
def Entry.rshift (e : Entry) : Nat := e.f 420 5
def Entry.rmsel (e : Entry) : Nat := e.f 425 1
def Entry.nrep (e : Entry) : Nat := e.f 448 2
def Entry.rep (e : Entry) (i : Nat) : Nat := e.f (450 + 3 * i) 3
def Entry.vbase (e : Entry) : Nat := e.f 0 56

/-- The entry describes a buffer that requests may use (R203). -/
def Entry.ok (e : Entry) : Bool :=
  e.valid && e.kind != 3 && 1 ≤ e.nstk && e.nstk ≤ 16 && e.cbase < 96 * e.nstk && e.pmap != 0 &&
    (e.rmap == 0 || (8 ≤ e.rshift && e.rshift ≤ 23)) && (e.kind != 1 || (1 ≤ e.nrep && e.nrep ≤ 3))

/- ### Handles (R17, R204) -/

def hIndex (h : Word) : Nat := fld h.toNat 0 20
def hView (h : Word) : Nat := fld h.toNat 20 4

/-- The handle names an entry and a view of it. -/
def handleOk (h : Word) (e : Entry) : Bool :=
  h.toNat < 2 ^ 24 && e.ok && (hView h == 0 || (hView h == 1 && e.smap != 0))

/- ### Placement (R223, R226) -/

/-- Interleave of line `n`: the authoritative one (R226). -/
def Entry.lineIlv (e : Entry) (n : Nat) : Nat :=
  if e.rstate = 0 then e.ilv else if n < e.milestone then e.target else e.ilv

/-- Channel of line `n` under an interleave, 0 STRIPED, 1 GATHERED. -/
def Entry.channel (e : Entry) (ilv n : Nat) : Nat :=
  (e.cbase + (if ilv = 0 then n else n / 4)) % (96 * e.nstk)

/-- Bank group of line `n` under an interleave (R223). -/
def Entry.bankGroup (e : Entry) (ilv n : Nat) : Nat :=
  (e.cbase + (if ilv = 0 then n else n / 4)) / (96 * e.nstk) % 4

/-- Home die of line `n` under an interleave (R8, R202). -/
def Entry.dieOf (e : Entry) (ilv n : Nat) : Nat := homeDie ((e.stk0 + e.channel ilv n / 96) % 16)

/-- Home die of line `n`. -/
def Entry.home (e : Entry) (n : Nat) : Nat := e.dieOf (e.lineIlv n) n

/- ### Frames (R205) -/

/-- The placement map a view uses (R204). -/
def Entry.mapBase (e : Entry) (view : Nat) : Nat := if view = 0 then e.pmap else e.smap

/-- A little-endian number in device memory of tier 0. -/
def State.memNat (s : State) (a n : Nat) : Nat := leNat (Memory.bytes s.mem a n)

/-- The frame descriptor of an offset (R205). -/
def State.descr (s : State) (e : Entry) (view off : Nat) : Nat := s.memNat (e.mapBase view + 8 * (off / 65536)) 8

def dPresent (d : Nat) : Bool := bitOf d 32
def dTier (d : Nat) : Nat := fld d 33 1
def dFrame (d : Nat) : Nat := fld d 0 32

/-- Byte address in device memory: the tier in the high part, then the frame and the offset in it. -/
def physAddr (d off : Nat) : Nat := dTier d * 2 ^ 56 + dFrame d * 2 ^ 16 + off % 65536

/-- Key of a frame record: tier and frame number (R270). -/
def frameKey (a : Nat) : Nat := a / 65536

/-- Tier of a byte of device memory. -/
def tierOf (a : Nat) : Nat := a / 2 ^ 56

/-- The number that stands for no die: a word of a PLAIN buffer in a TIER 1 frame executes in the I/O die and has no home die
(R291). -/
def noDie : Nat := 8

/-- Home die of an offset through a view: by its line, of a SYNC buffer in either tier, and none for another frame of TIER 1 (R211,
R223, R291). -/
def State.homeAt (s : State) (e : Entry) (view off : Nat) : Nat :=
  if dTier (s.descr e view off) = 0 || e.kind = 2 then e.home (off / 256) else noDie

def State.phys (s : State) (e : Entry) (h : Word) (off : Nat) : Phys :=
  { space := .dev, addr := physAddr (s.descr e (hView h) off) off, die := s.homeAt e (hView h) off, buf := hIndex h,
    line := off / 256 }

/-- Where a byte of the CXL capacity tier lies in host memory (R205, R378). -/
def cxlAddr (a : Nat) : Nat := Config.cxlBase + a % 2 ^ 56

/-- One of a list, by a free choice. -/
def choice {α : Type} (n : Nat) (l : List α) : Option α := l[n % l.length]?

/- ### Frame records (R270 to R272) -/

def frameCount (r : BitVec 64) : Nat := fld r.toNat 16 16
def frameOwner (r : BitVec 64) : Nat := fld r.toNat 32 16
def framePinned (r : BitVec 64) : Bool := bitOf r.toNat 12
def frameRefs (r : BitVec 64) : Nat := fld r.toNat 0 12
def frameRec (refs : Nat) (pin : Bool) (cnt owner : Nat) : BitVec 64 :=
  BitVec.ofNat 64 (refs + (if pin then 4096 else 0) + cnt * 2 ^ 16 + owner * 2 ^ 32)

def State.frame (s : State) (k : Nat) : BitVec 64 := Sparse.get 0 s.frames k
def State.setFrame (s : State) (k : Nat) (r : BitVec 64) : State := { s with frames := Sparse.set 0 s.frames k r }

/-- TIER_HOT is posted, once until ACCCNT is written, for a frame whose count has reached its tier's threshold (R272). -/
def State.checkHot (s : State) (ctx die k : Nat) : State :=
  let tier := k / 2 ^ 40
  let thr := (if tier = 0 then s.regs.hotthr0 else s.regs.hotthr1).toNat
  if thr ≠ 0 && thr ≤ frameCount (s.frame k) && !s.hot.contains k then
    { s with hot := s.hot ++ [k] }.post 5 (die % 8) ctx (BitVec.ofNat 32 tier) (BitVec.ofNat 64 (k % 2 ^ 40))
  else s

/-- A write of ACCCNT: the count is what was written, and the frame's event is armed again (R272). -/
def State.setCount (s : State) (k n : Nat) : State :=
  let r := s.frame k
  ({ s with hot := s.hot.filter (fun x => x != k) }.setFrame k (frameRec (frameRefs r) (framePinned r) n (frameOwner r))).checkHot (frameOwner r) 0 k

/-- A request reaches a line: the ACCCNT of its frame rises (R272). An access to the line that the one before it reached may be of
one request with it: a free choice, since no rule says what makes one line request. -/
def State.countFrame (s : State) (ctx die line : Nat) : State :=
  if s.lastLine == some line && Config.sameRequest s.tick line then s
  else
    let k := line / 256
    let r := s.frame k
    (({ s with lastLine := some line } : State).setFrame k
      (frameRec (frameRefs r) (framePinned r) (min (frameCount r + 1) 65535) (frameOwner r))).checkHot ctx die k

/- ### Tables of the part in device memory (R201, R270, R304) -/

/-- Frames of HBM4E, and the frame table: the records of its frames, then those of the CXL tier's frame numbers, below the buffer
table. DESIGN CHOICE (log 46): R270 gives neither place nor order. -/
def hbmFrames : Nat := 1536 * 2 ^ 14
def frameTableBase : Nat := bufTableBase - 8 * (hbmFrames + 2 ^ 32)
/-- The frame of a record. -/
def recordFrame (n : Nat) : Nat := if n < hbmFrames then n else 2 ^ 40 + (n - hbmFrames)

/-- The byte of a table that lies at an address. -/
def State.tableByte (s : State) (a : Nat) : Option Byte :=
  let b := a - s.bufBase
  let f := a - frameTableBase
  if s.bufBase ≤ a && a < s.bufBase + 2 ^ 26 then some (BitVec.ofNat 8 ((s.entry (b / 64)).toNat / 2 ^ (8 * (b % 64))))
  else if frameTableBase ≤ a && a < bufTableBase then some (BitVec.ofNat 8 ((s.frame (recordFrame (f / 8))).toNat / 2 ^ (8 * (f % 8))))
  else none

/-- Bytes of a range lie in a table. -/
def State.meetsTable (s : State) (a n : Nat) : Bool :=
  (s.bufBase < a + n && a < s.bufBase + 2 ^ 26) || (frameTableBase < a + n && a < bufTableBase)

/-- A buffer-table entry as it is written: the fields of the part keep their values, reserved fields stay zero, and ILV changes only
while the entry is not valid (R201, R202). -/
def Entry.written (old new : Entry) : Entry :=
  let keep := fun (e : Entry) (x : Nat × Nat) => e.put x.1 x.2 (old.f x.1 x.2)
  let e := [(57, 7), (88, 8), (101, 3), (107, 5), (148, 12), (160, 64), (280, 8), (344, 8), (425, 23), (459, 53)].foldl keep new
  if old.valid then e.put 106 1 old.ilv else e

/-- The objects of a buffer that is created anew are gone from the engines: a VERSIONED buffer starts with every cell empty (R51,
R308). -/
def State.dropObjects (s : State) (buf : Nat) : State :=
  { s with
    cells := s.cells.filter (fun c => c.buf != buf)
    lodge := s.lodge.filter (fun o => match o.key with | .sync b _ => b != buf | .cell b _ => b != buf | .mailbox _ _ => true) }

/-- The buffer that an entry describes is another one now. -/
def Entry.renewed (old new : Entry) : Bool := !(old.valid && new.valid && old.owner == new.owner && old.kind == new.kind)

/-- Bytes written to one entry of the buffer table. -/
def State.putEntry (s : State) (i off : Nat) (bs : List Byte) : State :=
  let old := s.entry i
  let m := 8 * bs.length
  let new := old.written (old.put (8 * off) m (leNat bs))
  (if old.renewed new then s.dropObjects i else s).setEntry i new

/-- Bytes written to one record of the frame table: ACCCNT alone is written (R270, R272). -/
def State.putRecord (s : State) (k off : Nat) (bs : List Byte) : State :=
  let old := (s.frame k).toNat
  let new := old - fld old (8 * off) (8 * bs.length) * 2 ^ (8 * off) + leNat bs * 2 ^ (8 * off)
  if off < 4 && 2 < off + bs.length then s.setCount k (fld new 16 16) else s

/-- A byte written to a mailbox table: COUNT, DROPS and the reserved fields keep their values (R304). -/
def State.mbKept (s : State) (a : Nat) (x : Byte) : Byte :=
  match s.ctxs.find? (fun c => c.mbtab ≤ a && a < c.mbtab + 8192) with
  | none => x
  | some c =>
    let old := Memory.get s.mem a
    if (a - c.mbtab) % 8 = 0 then x else if (a - c.mbtab) % 8 = 1 then (old &&& 0xFE) ||| (x &&& 1) else old

/-- Bytes of a range lie in the mailbox table of a context. -/
def State.meetsMailboxes (s : State) (a n : Nat) : Bool := s.ctxs.any (fun c => c.mbtab < a + n && a < c.mbtab + 8192)

/-- The range is memory and nothing else: no table of the part lies in it. -/
def State.isPlain (s : State) (a n : Nat) : Bool := !s.meetsTable a n && !s.meetsMailboxes a n

/-- The part writes a mailbox table itself. -/
def State.putOwn (s : State) (a : Nat) (bs : List Byte) : State := { s with mem := Memory.store s.mem a bs }

/-- Write memory in which no table but mailbox tables lies. -/
def State.putMem (s : State) (a : Nat) (bs : List Byte) : State :=
  s.putOwn a (if s.meetsMailboxes a bs.length then bs.zipIdx.map (fun y => s.mbKept (a + y.2) y.1) else bs)

/-- Write bytes of HBM4E where tables lie, each record apart. -/
def State.putTables (s : State) (a : Nat) (bs : List Byte) : Nat → State
  | 0 => s
  | n + 1 =>
    if bs.isEmpty then s
    else
      let k := min bs.length (8 - a % 8)
      let f := a - frameTableBase
      let b := a - s.bufBase
      let s1 := if s.bufBase ≤ a && a < s.bufBase + 2 ^ 26 then
          let m := min bs.length (64 - a % 64)
          (s.putEntry (b / 64) (b % 64) (bs.take m), m)
        else if frameTableBase ≤ a && a < bufTableBase then (s.putRecord (recordFrame (f / 8)) (f % 8) (bs.take k), k)
        else (s.putMem a (bs.take k), k)
      s1.1.putTables (a + s1.2) (bs.drop s1.2) n

/-- Bytes of device memory of either tier. -/
def State.devBytes (s : State) (a n : Nat) : List Byte :=
  if tierOf a ≠ 0 then Memory.bytes s.hostMem (cxlAddr a) n
  else if s.meetsTable a n then (List.range n).map (fun j => (s.tableByte (a + j)).getD (Memory.get s.mem (a + j)))
  else Memory.bytes s.mem a n

/-- Write bytes of device memory of either tier. -/
def State.putDev (s : State) (a : Nat) (bs : List Byte) : State :=
  if tierOf a ≠ 0 then { s with hostMem := Memory.store s.hostMem (cxlAddr a) bs }
  else if s.meetsTable a bs.length then s.putTables a bs bs.length
  else s.putMem a bs

/-- The active row-map copy's word for a row (R213). -/
def State.rowWord (s : State) (e : Entry) (copy row : Nat) : Nat := s.memNat (e.rmap + 16384 * copy + 4 * row) 4

/-- A logical offset through the row map (R213). -/
def State.mapped (s : State) (e : Entry) (off : Nat) : Nat :=
  let row := off / 2 ^ e.rshift
  let r := if row ≤ e.rmlen then s.rowWord e e.rmsel row else row
  r * 2 ^ e.rshift + off % 2 ^ e.rshift

/-- The die of the row-map word that maps an offset (R8, R342). -/
def State.mapDie (e : Entry) (off : Nat) : Option Nat :=
  let row := off / 2 ^ e.rshift
  if row ≤ e.rmlen then some (Config.lineDie ((e.rmap + 16384 * e.rmsel + 4 * row) / 256) % 8) else none

/-- A column word that reads with an uncorrectable error lies under the bytes (R238). -/
def State.poisoned (s : State) (a z : Nat) : Bool := s.poison.any (fun c => a / 32 ≤ c && c ≤ (a + z - 1) / 32)

/-- Line in transit of a buffer (R227). -/
def State.inTransit (s : State) (buf line : Nat) : Bool := s.transit.contains buf && (s.entry buf).milestone == line

/- ### The checks (R207, R208) -/

/-- A frame comes to a context from another owner, or from before a warm reset: it reads zeros there (R206, R392). -/
def State.changesHands (s : State) (ctx k : Nat) : Bool :=
  let r := s.frame k
  !((frameOwner r = ctx && !s.retained.contains k) || framePinned r) && !(frameOwner r = 0 && !s.retained.contains k)

/-- What a request asks for. -/
structure Req where
  ctx : Nat
  h : Word
  off : Int
  z : Nat
  align : Nat
  /-- The right the entry must give, and the kinds it may have. -/
  right : Entry → Bool
  kind : Nat → Bool
  useMap : Bool
  reads : Bool
  /-- Of a VERSIONED buffer too the descriptor must be PRESENT (R207, R311). -/
  mapped : Bool := true

/-- The checks of R207 in order; the first that fails decides. -/
def State.check (s : State) (r : Req) : Except FaultCode Phys :=
  let e := s.entry (hIndex r.h)
  if r.off % (r.align : Int) ≠ 0 then .error .addrMisalign
  else if !handleOk r.h e then .error .addrBounds
  else if r.off < 0 || (e.len : Int) < r.off + r.z || 2 ^ 32 ≤ r.off then .error .addrBounds
  else if !r.right e then .error .addrRights
  else if e.owner ≠ r.ctx then .error .addrOwner
  else if !r.kind e.kind then .error .verKind
  else
    let o := r.off.toNat
    let maps := r.useMap && hView r.h == 0 && e.rmap != 0
    let o' := if maps then s.mapped e o else o
    if maps && (State.mapDie e o).any s.lost.contains then .error .dieLost
    else if e.len < o' + r.z then .error .addrBounds
    else if (e.kind ≠ 1 || r.mapped) && !dPresent (s.descr e (hView r.h) o') then .error .xlateMiss
    else if e.kind = 1 then .ok { space := .cells, addr := o', die := e.rep 0, buf := hIndex r.h, line := o' / 256 }
    else
      let p := s.phys e r.h o'
      if s.lost.contains p.die then .error .dieLost
      else if r.reads && s.poisoned p.addr r.z && !s.changesHands r.ctx (frameKey p.addr) then .error .eccUncorr
      else .ok p

/-- The die of the row-map word that a request reads: it passes the checks that come before the mapping (R207, R342). -/
def State.mapReached (s : State) (r : Req) : Option Nat :=
  let e := s.entry (hIndex r.h)
  if r.useMap && hView r.h == 0 && e.rmap != 0 then
    match s.check { r with useMap := false, reads := false } with
    | .error .addrMisalign | .error .addrBounds | .error .addrRights | .error .addrOwner | .error .verKind => none
    | _ => State.mapDie e r.off.toNat
  else none

/- ### What an access leaves behind -/

/-- Every byte of a frame reads 0, and with no error (R206), but those that an agent outside the part has written for the frame's
next owner. -/
def State.zeroFrame (s : State) (k : Nat) : State :=
  let lo := cxlAddr (k * 65536)
  let s1 := if k < 2 ^ 40 then
      { s with
        mem := s.mem.filter (fun c => c.1 / 65536 != k || s.renewed.any (fun x => x.1 / 65536 == k && x.1 ≤ c.1 && c.1 < x.1 + x.2))
        renewed := s.renewed.filter (fun x => x.1 / 65536 != k) }
    else { s with hostMem := s.hostMem.filter (fun c => c.1 < lo || lo + 65536 ≤ c.1) }
  { s1 with
    poison := s.poison.filter (fun c => c / 2048 != k)
    readCopies := s.readCopies.filter (fun c => c.line / 256 != k)
    dirty := s.dirty.filter (fun c => c.line / 256 != k) }

/-- A frame that another context owned, or that a warm reset left, is zeroed when this one first reaches it (R206, R392). -/
def State.ownFrame (s : State) (ctx k : Nat) : State :=
  let r := s.frame k
  if (frameOwner r = ctx && !s.retained.contains k) || framePinned r then s
  else
    let s1 := if s.changesHands ctx k then { s.zeroFrame k with retained := s.retained.filter (fun x => x != k) } else s
    s1.setFrame k (frameRec (frameRefs r) false (frameCount r) ctx)

/-- The frame is still the context's: an access of a former owner finds nothing and leaves nothing (R206). -/
def State.holdsFrame (s : State) (ctx : Nat) (p : Phys) : Bool :=
  p.space != .dev || frameOwner (s.frame (frameKey p.addr)) == ctx || framePinned (s.frame (frameKey p.addr))

/-- An object on a die is used: it is the most recently used one there (R292). -/
def State.useObj (s : State) (die : Nat) (key : ObjKey) : State :=
  match s.lodge.find? (fun o => o.die == die && o.key == key) with
  | some o => { s with lodge := s.lodge.filter (fun x => x != o) ++ [o] }
  | none => s

/-- A cell has a width while some replica holds a sibling of it (R308). -/
def Cell.live (c : Cell) : Bool := c.reps.any (fun r => !r.sibs.isEmpty)

/-- The cell whose bytes a read finds is used. -/
def State.useCell (s : State) (die buf off : Nat) : State :=
  match s.cells.find? (fun c => c.buf == buf && c.live && c.off ≤ off && off < c.off + c.width) with
  | some c => s.useObj die (.cell buf c.off)
  | none => s

/-- An access reached its line: the die is touched and the frame counts it. -/
def State.reach (s : State) (ctx : Nat) (p : Phys) : State :=
  match p.space with
  | .dev => ((s.touch ctx p.die).ownFrame ctx (frameKey p.addr)).countFrame ctx p.die (p.addr / 256)
  | .cells => (s.touch ctx p.die).useCell p.die p.buf p.addr
  | _ => s

/- ### Scopes (R19, R211) -/

/-- The scopes from the narrowest to the widest. -/
def scpRank : Scp → Nat
  | .team => 0 | .cluster => 1 | .die => 2 | .package => 3 | .system => 4

/-- The wider of two scopes. -/
def scpMax (a : Option Scp) (b : Scp) : Scp :=
  match a with | some x => if scpRank x < scpRank b then b else x | none => b

/-- The scope of an access of a group spans another (R19). -/
def State.spans (s : State) (scp : Scp) (h g : Group) : Bool :=
  match scp with
  | .team => h.key.launch == g.key.launch && h.key.team == g.key.team
  | .cluster => h.key.launch == g.key.launch && (match s.team? h.key with | some t => t.cluster.contains g.core | none => false)
  | .die => h.core.die == g.core.die
  | .package => true
  | .system => true

/- ### Pending accesses: what one must follow -/

/-- Two byte ranges meet. -/
def overlaps (a n b m : Nat) : Bool := a < b + m && b < a + n

def Pending.isFence (p : Pending) : Bool := p.op == .fence

/-- It reads: a load, or a read-modify-write (R275). -/
def Pending.reads (p : Pending) : Bool :=
  match p.op with | .load _ _ _ => true | .rmw _ _ _ _ _ => true | .inPlace _ _ _ => true | _ => false
def Pending.writes (p : Pending) : Bool :=
  match p.op with | .store _ => true | .rmw _ _ _ _ _ => true | .inPlace _ _ _ => true | _ => false

/-- Bytes of the access. -/
def Pending.size (p : Pending) : Nat :=
  match p.op with
  | .fence => 0
  | .load it _ _ => it.bits / 8
  | .store bs => bs.length
  | .rmw _ z _ _ _ => z
  | .inPlace _ _ _ => wordBytes

/-- The bytes it reaches: an in-place lane also its sources. -/
def Pending.ranges (p : Pending) : List (Phys × Nat) :=
  (p.at_, p.size) :: (match p.op with | .inPlace _ a b => [(a, wordBytes), (b, wordBytes)] | _ => [])

/-- Bytes from one place and bytes from another meet. -/
def meetAt (p : Phys) (n : Nat) (q : Phys) (m : Nat) : Bool := p.space == q.space && overlaps p.addr n q.addr m
def Pending.meetsAt (e : Pending) (p : Phys) (n : Nat) : Bool := e.ranges.any (fun x => meetAt x.1 x.2 p n)
def Pending.meets (e p : Pending) : Bool := p.ranges.any (fun y => e.meetsAt y.1 y.2)

/-- It is the same access, whatever has been shown of it. -/
def Pending.same (e p : Pending) : Bool := e.issue == p.issue && e.lanes == p.lanes && e.at_ == p.at_ && e.op == p.op

/-- The lanes of a mask are among its threads. -/
def Pending.of (e : Pending) (who : Mask) : Bool := (e.lanes &&& who) != 0

/-- Two accesses of one instruction meet, and one writes: the higher lane's stands (R216, R298). -/
def Pending.sameIssue (e p : Pending) : Bool := e.issue == p.issue && (e.writes || p.writes) && e.meets p

/-- Memory whose loads come before later writes of their lane (R281, R284). -/
def Space.ordered (x : Space) : Bool := x == .dev || x == .host

/-- An earlier access of a group is performed before a later one, as every observer finds them: accesses of one lane to the same
bytes (R281 item 3, R275, R237), its loads of device memory in order (R281 item 1), its loads before its writes (R281 item 2, R284,
R287), and, at system scope, an acquire before all that follows, all before a release, the loads before a fence that acquires, and
what a releasing fence stands behind before later writes (R218, R220, R299). -/
def Pending.bars (e p : Pending) : Bool :=
  e.sameIssue p ||
    (e.of p.lanes &&
      (e.meets p ||
        (e.reads && p.reads && e.at_.space == .dev && p.at_.space == .dev) ||
        (e.reads && p.writes && e.at_.space.ordered && p.at_.space.ordered) ||
        e.acq == some .system || p.rel == some .system ||
        (e.isFence && e.rel == some .system && p.writes)))

/-- The order that the observers of a scope find: what holds everywhere, and an acquire or a fence of that scope or a wider one before
what follows it, and the loads that the fence orders before it (R19, R218, R220). -/
def Pending.blocksAt (scp : Scp) (e p : Pending) : Bool :=
  let spans := fun (a : Option Scp) => a.any (fun x => scpRank scp ≤ scpRank x)
  e.bars p || (e.of p.lanes && (spans e.acq || (p.isFence && spans p.acq && e.reads)))

/-- The order that some observer finds. -/
def Pending.blocks (e p : Pending) : Bool := e.blocksAt .team p

/-- The same among the groups of a team in ascending order: of different groups only accesses of one instruction (R216, R217). -/
def pendBefore (scp : Scp) (x y : GKey × Pending) : Bool := if x.1 == y.1 then x.2.blocksAt scp y.2 else x.2.sameIssue y.2

/-- What must be performed before those that a test selects, those included, as the observers of a scope find it, walking back from the
newest. -/
def mustPerform (scp : Scp) (need : GKey × Pending → Bool) : List (GKey × Pending) → List ((GKey × Pending) × Bool)
  | [] => []
  | x :: t =>
    let r := mustPerform scp need t
    (x, need x || r.any (fun y => y.2 && pendBefore scp x y.1)) :: r

/-- The pending accesses of a group's team. -/
def State.pendings (s : State) (k : GKey) : List (GKey × Pending) :=
  (s.teamGroups k).flatMap (fun g => g.pending.map (fun p => (g.key, p)))

/-- Fences with nothing left that they order are over. -/
def tidy : List Pending → List Pending → List Pending
  | _, [] => []
  | before, p :: t => if p.isFence && !before.any (fun e => e.of p.lanes) then tidy before t else p :: tidy (before ++ [p]) t

/-- The tick of the first release that shows an access of one group to another (R277). -/
def State.shownAt (s : State) (h g : Group) (e : Pending) : Option Nat :=
  (e.seen.find? (fun m => s.spans m.1 h g)).map (·.2)

/-- A write of the line that a release has shown to a group of the die is not yet performed: the die takes no copy that lacks it
(R282). -/
def State.lacksShown (s : State) (die line : Nat) : Bool :=
  s.groups.any (fun h => h.pending.any (fun e => e.writes && e.meetsAt ⟨.dev, line * 256, 0, 0, 0⟩ 256 &&
    s.groups.any (fun g => g.core.die == die && (s.shownAt h g e).isSome)))

/- ### Bytes and copies (R211, R282) -/

def State.spaceBytes (s : State) (sp : Space) (a n : Nat) : List Byte :=
  match sp with
  | .dev => s.devBytes a n
  | .host => Memory.bytes s.hostMem a n
  | .peer k => Memory.bytes s.peerMem (k * 2 ^ 56 + a) n
  | .cells => List.replicate n 0

/-- Write bytes where they lie. -/
def State.putBytes (s : State) (sp : Space) (a : Nat) (bs : List Byte) : State :=
  match sp with
  | .dev =>
    let full := fun c => a ≤ c * 32 && c * 32 + 32 ≤ a + bs.length
    { s with poison := s.poison.filter (fun c => !full c) }.putDev a bs
  | .host => { s with hostMem := Memory.store s.hostMem a bs }
  | .peer k => { s with peerMem := Memory.store s.peerMem (k * 2 ^ 56 + a) bs }
  | .cells => s

/-- How long a die holds a read copy: 64 µs at 2.5 GHz (R283). -/
def copyLife : Nat := 160000

/-- The read copy of a line on a die, if it is not too old (R211, R283). -/
def State.readCopy (s : State) (die line : Nat) : Option ReadCopy :=
  s.readCopies.find? (fun c => c.die == die && c.line == line && s.clk ≤ c.since + copyLife)

/-- It keeps lanes of a group from bytes that lack its write. -/
def Bar.holds (b : Bar) (g : Group) (who : Mask) : Bool :=
  match b with
  | .lanes k m => k == g.key && (m &&& who) != 0
  | .team l t => l == g.key.launch && t == g.key.team
  | .cluster l ks => l == g.key.launch && ks.contains g.core
  | _ => false

/-- Lanes of a group may not be served from what has the bars (R275, R278, R280). -/
def barred (bs : List Bar) (g : Group) (who : Mask) : Bool := bs.any (fun b => b.holds g who)

/-- Those on its die to whom a release or a wait of a group at a scope shows what comes before it; none where it is everyone (R18,
R19). -/
def State.shownBar (s : State) (g : Group) (scp : Scp) : Option Bar :=
  match scp with
  | .team => some (.team g.key.launch g.key.team)
  | .cluster => some (.cluster g.key.launch (match s.team? g.key with | some t => t.cluster | none => []))
  | _ => none

def addBar (b : Bar) (bs : List Bar) : List Bar := if bs.contains b then bs else bs ++ [b]

/-- Late words of a die whose bars satisfy a test are new for those of a bar, or for everyone, and with them what was written to the
same words before (R273). -/
def showLate (die : Nat) (test : List Bar → Bool) (whom : Option Bar) : List LateWord → List LateWord
  | [] => []
  | x :: t =>
    let r := showLate die test whom t
    match whom with
    | some b => (if x.core.die == die && test x.bars then { x with bars := addBar b x.bars } else x) :: r
    | none => if x.core.die == die && (x :: t).any (fun y => y.core == x.core && y.word == x.word && test y.bars) then r else x :: r

/-- Writes whose bars satisfy a test come before what those of a bar, or everyone on the die, do from now on: no copy of the die, and
no scratchpad word as it was, serves those (R18, R256, R273, R278). -/
def State.showWrites (s : State) (die : Nat) (test : List Bar → Bool) (whom : Option Bar) : State :=
  { s with
    readCopies := s.readCopies.filterMap (fun c =>
      if c.die == die && test c.bars then whom.map (fun b => { c with bars := addBar b c.bars }) else some c)
    late := showLate die test whom s.late }

/-- The load is served by the die's read copy: a free choice, never for an acquire at package or system scope (R282), and never
where the copy lacks a write that comes before it (R275, R278, R280). -/
def State.fromCopy (s : State) (g : Group) (who : Mask) (p : Phys) (fresh : Bool) : Option ReadCopy :=
  if p.space == .dev && p.die != g.core.die && !fresh then
    match s.readCopy g.core.die (p.addr / 256) with
    | some c => if Config.useCopy s.tick (p.addr / 256) && !barred c.bars g who then some c else none
    | none => none
  else none

/-- The bytes that a load finds. -/
def State.loadBytes (s : State) (g : Group) (who : Mask) (p : Phys) (z : Nat) (fresh : Bool) : List Byte :=
  match s.fromCopy g who p fresh with
  | some c => (c.bytes.drop (p.addr % 256)).take z
  | none => s.spaceBytes p.space p.addr z

/-- Lines of the die cache of an M-die or a B-die (R9). -/
def cacheLines (die : Nat) : Nat := (if isBDie die then 192 else 96) * 4096

/-- Copies of lines homed elsewhere that a die cache holds. -/
def State.cached (s : State) (die : Nat) : Nat :=
  (s.readCopies.filter (fun c => c.die == die)).length + (s.dirty.filter (fun c => c.die == die)).length

/-- A full die cache gives up a copy before it takes another: a read copy by a free choice, or a dirty one, which is written back
(R9, R211, R282). -/
def State.cacheRoom (s : State) (die : Nat) : State :=
  if s.cached die < cacheLines die then s
  else match choice (Config.engine s.tick 2) (s.readCopies.filter (fun c => c.die == die)) with
    | some c => { s with readCopies := s.readCopies.filter (fun x => !(x.die == die && x.line == c.line)) }
    | none =>
      match s.dirty.find? (fun c => c.die == die) with
      | some c => { s with dirty := s.dirty.filter (fun x => !(x.die == die && x.line == c.line)) }
      | none => s

/-- A die cache takes a read copy of a line. -/
def State.takeCopy (s : State) (die line ctx : Nat) : State :=
  let s1 := { s with readCopies := s.readCopies.filter (fun x => !(x.die == die && x.line == line)) }.cacheRoom die
  { s1 with readCopies := s1.readCopies ++ [⟨die, line, s.devBytes (line * 256) 256, [ctx], [], s.clk⟩] }

/-- A load of a remote line may leave a read copy, or refresh the one it passed by; one that is served from the
copy marks it with its context (R211, R282). -/
def State.keepCopy (s : State) (g : Group) (who : Mask) (p : Phys) (fresh : Bool) : State :=
  if p.space == .dev && p.die != g.core.die then
    let line := p.addr / 256
    match s.fromCopy g who p fresh with
    | some c =>
      { s with readCopies := s.readCopies.map (fun x =>
          if x == c then { x with ctxs := if x.ctxs.contains g.ctx then x.ctxs else x.ctxs ++ [g.ctx] } else x) }
    | none =>
      if s.dirty.any (fun x => x.line == line && x.die == g.core.die) then s
      else if Config.keepCopy s.tick line && !s.lacksShown g.core.die line then s.takeCopy g.core.die line g.ctx
      else { s with readCopies := s.readCopies.filter (fun x => !(x.die == g.core.die && x.line == line)) }
  else s

/-- Perform a store: the newest value of the line changes; a store from another die takes ownership of the line, and
one at the home recalls the dirty copy (R211, R282). -/
def State.perform (s : State) (die ctx : Nat) (p : Phys) (bs : List Byte) : State :=
  let s1 := s.putBytes p.space p.addr bs
  match p.space with
  | .dev =>
    let line := p.addr / 256
    let s2 := { s1 with
      dirty := s1.dirty.filter (fun x => x.line != line)
      readCopies := s1.readCopies.filter (fun x => !(x.die == die && x.line == line)) }
    if p.die = die then s2 else { s2.cacheRoom die with dirty := (s2.cacheRoom die).dirty ++ [⟨line, die, ctx⟩] }
  | _ => s1

/-- A write made at the home of a line: a dirty copy that another die holds is recalled, and read copies stay (R237,
R282). -/
def State.homeWrite (s : State) (a : Nat) (bs : List Byte) : State :=
  { s.putBytes .dev a bs with dirty := (s.putBytes .dev a bs).dirty.filter (fun x => x.line != a / 256) }

/-- Who comes after a write at the home that the die's copy of the line lacks (R256, R275). -/
def State.barCopy (s : State) (die line : Nat) (b : Bar) : State :=
  { s with readCopies := s.readCopies.map (fun c => if c.die == die && c.line == line then { c with bars := addBar b c.bars } else c) }

/-- The same of a pending operation of a group: its own lanes, and those to whom releases have shown it while it was pending; the copy
goes where that is everyone on the die (R275, R277, R280). -/
def State.barCopyFor (s : State) (g : Group) (p : Pending) (line : Nat) : State :=
  let whom := p.seen.map (fun m => s.shownBar g m.1)
  if whom.any Option.isNone then
    { s with readCopies := s.readCopies.filter (fun c => !(c.die == g.core.die && c.line == line)) }
  else (.lanes g.key p.lanes :: whom.reduceOption).foldl (fun s b => s.barCopy g.core.die line b) s

/-- A column word gets the poison syndrome (R238). -/
def State.setPoison (s : State) (a : Nat) : State := { s with poison := s.poison.filter (fun w => w != a / 32) ++ [a / 32] }

/- ### Acquires and releases of a die cache (R211) -/

/-- A wide scope: package or system (R211). -/
def scpWide : Scp → Bool
  | .package => true | .system => true | _ => false

/-- An acquire at a scope: at package or system scope the die drops every copy the context has read (R211). -/
def State.acquire (s : State) (die ctx : Nat) (scp : Scp) : State :=
  if scpWide scp then { s with readCopies := s.readCopies.filter (fun c => !(c.die == die && c.ctxs.contains ctx)) } else s

/-- A release at a scope: at package or system scope dirty copies of the context on the die are written back (R211). -/
def State.release (s : State) (die ctx : Nat) (scp : Scp) : State :=
  if scpWide scp then { s with dirty := s.dirty.filter (fun c => !(c.die == die && c.ctx == ctx)) } else s

/-- What a release of lanes does to what the die holds: it writes back (R211), and what lacks a write that comes before it serves those
no more whom its scope spans (R18, R280). -/
def State.releaseCopies (s : State) (g : Group) (who : Mask) (scp : Scp) : State :=
  (s.release g.core.die g.ctx scp).showWrites g.core.die (fun bs => barred bs g who) (s.shownBar g scp)

/- ### Tags and line moves (R227 to R231, R253) -/

/-- Put another entry, or none, in the place of a tag's entry. -/
def replaceTag (t : Tag) (t' : Option Tag) : List Tag → List Tag
  | [] => []
  | x :: r => if x == t then t'.toList ++ r else x :: replaceTag t t' r

/-- An operation ends: its tag becomes DONE, with TAGERR where asked; one that was given up is forgotten (R253). -/
def Core.endTag (c : Core) (t : Tag) (t' : Tag) : Core :=
  { c with tags := replaceTag t (if t.orphan then none else some { t' with done := true }) c.tags }

/-- The tag of a number whose operation restripes a buffer: the one started last, since an earlier owner of the buffer may have left
one that stopped (R230, R231). -/
def Core.restripeTag (c : Core) (num buf : Nat) : Option Tag :=
  (c.tags.filter (fun t => t.num == num && t.op == .restripe buf && !t.done)).getLast?

/-- The physical lines that line `n` of a buffer has in its placements (R226). -/
def State.lineFrames (s : State) (e : Entry) (n : Nat) : List Nat :=
  ([0] ++ (if e.smap = 0 then [] else [1])).filterMap (fun v =>
    let d := s.descr e v (n * 256)
    if dPresent d && dTier d = 0 then some (physAddr d (n * 256) / 256) else none)

/-- The homes of the line that a restripe of a buffer moves next, or has in transit: the old and the new one, and none of a line with
no move, whose frame is not PRESENT or has TIER 1 (R227, R231). -/
def State.moveHomes (s : State) (buf : Nat) : List Nat :=
  let e := s.entry buf
  if (s.lineFrames e e.milestone).isEmpty then [] else [e.dieOf e.ilv e.milestone, e.dieOf e.target e.milestone]

/-- RSTATE returns to IDLE and the restripe's tag completes (R230). -/
def State.endRestripe (s : State) (buf : Nat) : State :=
  let e := s.entry buf
  let k : CKey := ⟨e.rdie, e.rcore⟩
  let s1 := s.setEntry buf ((e.put 106 1 e.target).put 192 3 0)
  match (s.core k).restripeTag e.rtag buf with
  | some t => s1.modCore k (fun c => c.endTag t t)
  | none => s1

/-- The line in transit commits: MILESTONE advances, its new home holds it as its own, and the next move starts no earlier than
the clk after; a move of a line with a lost home does not commit (R227, R228, R231). -/
def State.commitLine (s : State) (buf : Nat) : State :=
  let e := s.entry buf
  let n := e.milestone
  if !s.transit.contains buf || (s.moveHomes buf).any s.lost.contains then s
  else
    let die := e.dieOf e.target n
    let ls := s.lineFrames e n
    let s1 := { s.setEntry buf (e.put 160 32 (n + 1)) with
      transit := s.transit.filter (fun b => b != buf)
      dirty := s.dirty.filter (fun x => !(ls.contains x.line && x.die == die))
      readCopies := s.readCopies.filter (fun x => !(ls.contains x.line && x.die == die))
      moveAt := s.moveAt.map (fun x => if x.1 == buf then (x.1, x.2.1, s.clk + 1) else x) }
    if n + 1 = e.lines then s1.endRestripe buf else s1

/- ### Numbers (R118) -/

/-- The word or pair a loaded number gives, extended by the type (R118). -/
def itExtend (it : IT) (x : Nat) : Nat :=
  if it.signed then lowBits 64 (sext it.bits x) else x % 2 ^ it.bits

/-- Word `j` of an extended value: the low or the high half. -/
def halfWord (x j : Nat) : Word := BitVec.ofNat 32 (x / 2 ^ (32 * j))

/- ### Pending accesses: performing them -/

/-- A release is made to the observers that a scope spans: accesses of a group that a test selects, and those that come before
them, come before what the observers do from now on (R19, R277). -/
def State.markSeen (s : State) (k : GKey) (test : Pending → Bool) (scp : Scp) : State :=
  let xs := ((mustPerform scp (fun x => x.1 == k && test x.2) (s.pendings k)).filter (·.2)).map (·.1)
  s.modGroups (fun g =>
    if g.key.launch == k.launch && g.key.team == k.team then
      { g with pending := g.pending.map (fun e =>
          if xs.contains (g.key, e) && !e.seen.any (fun m => scpRank scp ≤ scpRank m.1) then { e with seen := e.seen ++ [(scp, s.tick)] }
          else e) }
    else g)

/-- The releases that are made as a write is performed, by their places in the group's order: its own, and those of the fences it
stands behind (R218, R220, R277). -/
def Group.releases (g : Group) (p : Pending) : List (Nat × Scp) :=
  let fences := g.pending.filter (fun f => f.isFence && f.of p.lanes && f.issue < p.issue)
  (match p.rel with | some scp => [(p.issue, scp)] | none => []) ++ fences.filterMap (fun f => f.rel.map (fun scp => (f.issue, scp)))

/-- As a write is performed, its releases are made. -/
def State.makeReleases (s : State) (g : Group) (p : Pending) : State :=
  (g.releases p).foldl (fun s x =>
    (s.markSeen g.key (fun e => e.of p.lanes && e.issue < x.1) x.2).releaseCopies g p.lanes x.2) s

/-- The acquires that are made as a read is performed: its own, and those of the fences that stand behind it (R218, R220, R277). -/
def State.makeAcquires (s : State) (g : Group) (p : Pending) : State :=
  let fences := g.pending.filter (fun f => f.isFence && f.of p.lanes && p.issue < f.issue)
  (p.acq.toList ++ fences.filterMap (·.acq)).foldl (fun s scp => s.acquire g.core.die g.ctx scp) s

/-- The writes of a loaded number. -/
def loadWrites (dst : Opd) (run : Nat) (lanes : Mask) (x : Nat) : List Write :=
  (List.range run).flatMap (fun j => writeVec dst j lanes (List.replicate W (halfWord x j)))

/-- A result is on its way with those of its instruction; of one that has faulted it is written at once (R209). -/
def State.deliver (s : State) (k : GKey) (n : Nat) (ws : List Write) : State :=
  s.modGroup k (fun g =>
    if g.inFlight.any (fun e => e.issue == n && e.due.isNone) then
      { g with inFlight := g.inFlight.map (fun e => if e.issue == n && e.due.isNone then { e with writes := e.writes ++ ws } else e) }
    else Write.applyAll g ws)

/-- The place as it is homed now (R228). -/
def State.rehome (s : State) (p : Phys) : Phys :=
  let e := s.entry p.buf
  if p.space == .dev && e.ok && (tierOf p.addr = 0 || e.kind = 2) then { p with die := e.home p.line } else p

/-- The word of an in-place lane, in one indivisible step at the home: its bytes, or none where a source reads with an error
(R236, R238). -/
def State.ipWord (s : State) (f : IpFn) (d a b : Phys) : Option (List Byte) :=
  let rd := fun (x : Phys) => s.devBytes x.addr wordBytes
  let srcs := [a] ++ (if f.op.usesB then [b] else []) ++ (if f.op.readsDst then [d] else [])
  if srcs.any (fun x => s.poisoned x.addr wordBytes) then none else some (f.op.f (rd d) (rd a) (rd b))

/-- What a pending access does as it is performed, to a frame its context still owns (R206): a load finds its bytes; a store,
an atomic, a reduction or an in-place lane writes them; an in-place lane that meets a bad word leaves the poison syndrome, and its
group is told (R238). -/
def State.performOp (s : State) (g : Group) (p : Pending) : State :=
  let at_ := s.rehome p.at_
  let own := s.holdsFrame p.ctx at_
  match p.op with
  | .fence => s
  | .load it dst lanes =>
    let fresh := p.acq.any scpWide
    let bs := if own then s.loadBytes g p.lanes at_ p.size fresh else List.replicate p.size 0
    (if own then s.keepCopy g p.lanes at_ fresh else s).deliver g.key p.issue (loadWrites dst it.run lanes (itExtend it (leNat bs)))
  | .store bs => if own then s.perform g.core.die p.ctx at_ bs else s
  | .rmw f z x y ret =>
    let m := if own then leNat (s.devBytes at_.addr z) else 0
    let s1 := if own then (s.homeWrite at_.addr (leBytes z (f.new z m x y))).barCopyFor g p (at_.addr / 256) else s
    (match ret with | some (dst, run, lanes) => s1.deliver g.key p.issue (loadWrites dst run lanes m) | none => s1)
  | .inPlace f a b =>
    if !own then s
    else match s.ipWord f at_ a b with
      | some w => (s.homeWrite at_.addr w).barCopyFor g p (at_.addr / 256)
      | none => (s.setPoison at_.addr).modGroup g.key (fun g =>
          { g with ipBad := g.ipBad ++ [(p.lanes, 256 * p.at_.line + p.at_.addr % 256)] })

/-- Perform one access: at the commit, where its line is in transit (R228). -/
def State.performOne (s : State) (k : GKey) (p : Pending) : State :=
  let s1 := p.ranges.foldl (fun s x =>
    if x.1.space == .dev && s.inTransit x.1.buf x.1.line then s.commitLine x.1.buf else s) s
  match s1.group? k with
  | none => s1
  | some g =>
    let s2 := (if p.writes then s1.makeReleases g p else s1).performOp g p
    if p.reads then s2.makeAcquires g p else s2

/-- A release has shown an access of a group to another before what that one issued at a tick (R277). -/
def State.shownBy (s : State) (h g : Group) (e : Pending) (at_ : Nat) : Bool := (s.shownAt h g e).any (fun t => t ≤ at_)

/-- A release of lanes of a group at a scope, issued at a tick, must come after an access of another thread: one that the group has been
shown by then, so that it is shown to those whom this release reaches (R278), or a read that a later access of its own thread has
passed, whose acquire could otherwise find this release (R19, R218). -/
def State.beforeRelease (s : State) (h : Group) (e : Pending) (g : Group) (lanes : Mask) (at_ : Nat) (scp : Scp) : Bool :=
  (s.shownBy h g e at_ && e.seen.all (fun m => scpRank m.1 < scpRank scp)) ||
    (e.passed.any (fun o => s.spans o h g) && s.spans scp g h && !(h.key == g.key && e.of lanes))

/-- An access of another thread comes before one of a group that is performed now: it had been shown to the group when this one issued,
and both reach the same bytes, or when this one's release issued (R275, R277, R278, R280). -/
def State.comesFirst (s : State) (h : Group) (e : Pending) (g : Group) (p : Pending) : Bool :=
  (s.shownBy h g e p.issue && (e.writes || p.writes) && e.meets p) ||
    (p.writes && (g.releases p).any (fun x => s.beforeRelease h e g p.lanes x.1 x.2))

/-- Perform a pending access once `first` has performed those of other threads that come before it. -/
def State.performWith (first : GKey → (Pending → Bool) → State → State) (s : State) (k : GKey) (p : Pending) : State :=
  match s.group? k with
  | none => s
  | some g =>
    if !g.pending.any p.same then s
    else
      let s1 := s.modGroup k (fun g => { g with pending := g.pending.eraseP p.same })
      let s2 := (s1.groups.filter (fun h => h.pending.any (fun e => s1.comesFirst h e g p))).foldl (fun u h =>
        first h.key (fun e => s1.comesFirst h e g p) u) s1
      (s2.performOne k p).modGroup k (fun g => if g.pending.any Pending.isFence then { g with pending := tidy [] g.pending } else g)

/-- Perform the pending accesses of a group that a test selects, and those that must come before them. -/
def State.performSome : Nat → GKey → (Pending → Bool) → State → State
  | 0, _, _, s => s
  | n + 1, k, need, s =>
    (((mustPerform .team (fun x => x.1 == k && need x.2) (s.pendings k)).filter (·.2)).map (·.1)).foldl (fun s x =>
      s.performWith (State.performSome n) x.1 x.2) s

/-- Accesses that are pending: each performs once, so that so many rounds perform all that a need names. -/
def State.pendingCount (s : State) : Nat := (s.groups.map (fun g => g.pending.length)).sum

/-- The same, with as many rounds as there can be. -/
def State.performNeed (s : State) (k : GKey) (need : Pending → Bool) : State := State.performSome (s.pendingCount + 1) k need s

/-- A pending access may be performed: nothing before it forbids it, in its group or in its instruction (R216 to R220, R281), and
its line is not in transit (R228). -/
def State.canPerform (s : State) (k : GKey) (p : Pending) (before : List Pending) : Bool :=
  !p.isFence && before.all (fun e => !e.bars p) &&
    (s.teamGroups k).all (fun h => k.grp ≤ h.key.grp || h.pending.all (fun e => !e.sameIssue p)) &&
    p.ranges.all (fun x => !(x.1.space == .dev && s.inTransit x.1.buf x.1.line))

/-- The widest scope at which an acquire puts a pending read before what its lanes do next, of those lanes that a mask names: its own,
or that of a fence behind it, of those a test selects (R218, R220). -/
def Group.holdsBack (g : Group) (who : Mask) (among : Pending → Bool) (e : Pending) : Option Scp :=
  if among e && e.reads && e.of who then
    (g.pending.filter (fun f => f.isFence && among f && f.of (e.lanes &&& who) && e.issue < f.issue)).foldl (fun a f =>
      match f.acq with | some x => some (scpMax a x) | none => a) e.acq
  else none

/-- An access of lanes is performed, or a release of theirs made, that pending acquires of the group stand before, of those a test
selects. At system scope they are performed first. At a narrower one only the observers of each acquire's scope find that its reads
come first (R19, R218, R220): a read is performed before one of those makes a release that it could find, and before one of those
writes the bytes; and at package scope no copy from before the acquire serves what follows. -/
def State.letPass (s : State) (k : GKey) (who : Mask) (among : Pending → Bool) : State :=
  let s1 := s.performNeed k (fun e => among e && e.of who && e.acq == some .system)
  match s1.group? k with
  | none => s1
  | some g =>
    (g.pending.filterMap (fun e => (g.holdsBack who among e).map (fun scp => (e, scp)))).foldl (fun s x =>
      ((s.markSeen k x.1.same x.2).modGroup k (fun g => { g with pending := g.pending.map (fun e =>
        if x.1.same e then { e with passed := some (scpMax e.passed x.2) } else e) })).acquire g.core.die g.ctx x.2) s1

/-- Perform the `n`-th pending access of a group, if it may be. -/
def State.performNth (s : State) (k : GKey) (n : Nat) : State :=
  match s.group? k with
  | none => s
  | some g =>
    match g.pending[n]? with
    | none => s
    | some p =>
      if s.canPerform k p (g.pending.take n) then
        let s1 := if (g.pending.take n).any (fun e => e.blocks p) then s.letPass k p.lanes (fun e => (g.pending.take n).any e.same) else s
        s1.performWith (State.performSome s1.pendingCount) k p
      else s

/- ### What an access stands behind -/

/-- Accesses of other threads that a test names are performed before something else. -/
def State.pullIf (s : State) (test : Group → Pending → Bool) : State :=
  (s.groups.filter (fun h => h.pending.any (test h))).foldl (fun u h => u.performNeed h.key (test h)) s

/-- Accesses that a release has shown to a group, or its lanes to one another, are performed before an access of it that a test
names (R19, R277). -/
def State.pull (s : State) (k : GKey) (test : Pending → Bool) : State :=
  match s.group? k with
  | none => s
  | some g => s.pullIf (fun h e => test e && (s.shownAt h g e).isSome)

/-- What comes before an access of lanes to bytes that is performed now: their own accesses to those bytes and those that it must
follow, and what releases have shown them (R275, R281). -/
def State.before (s : State) (k : GKey) (p : Pending) : State :=
  (s.performNeed k (fun e => e.blocks p)).pull k (fun e => e.meets p)

/-- What comes before a release of lanes of a group, by the tick of its issue. -/
def State.passOn (s : State) (k : GKey) (who : Mask) (at_ : Nat) (scp : Scp) : State :=
  match s.group? k with
  | none => s
  | some g => s.pullIf (fun h e => s.beforeRelease h e g who at_ scp)

/-- Accesses of lanes come before what follows, toward the observers that a scope spans: they are performed at system scope; the
observers of a narrower scope find them so from now on (R19, R218, R220). -/
def State.orderBefore (s : State) (k : GKey) (scp : Scp) (test : Pending → Bool) : State :=
  if scp == .system then s.performNeed k test else (s.letPass k allLanes test).markSeen k test scp

/-- A release of lanes at a scope that is performed now (R75, R100, R218, R220). -/
def State.releaseLanes (s : State) (k : GKey) (who : Mask) (scp : Scp) : State :=
  let s1 := (s.passOn k who s.tick scp).orderBefore k scp (fun e => e.of who)
  match s1.group? k with
  | none => s1
  | some g => s1.releaseCopies g who scp

/-- The threads' loads of device memory are performed (R281). -/
def State.devLoadsFirst (s : State) (k : GKey) (who : Mask) : State :=
  s.performNeed k (fun e => e.of who && e.reads && e.at_.space == .dev)

/-- What the fences before a write of the threads that is performed at its issue order (R220, R277). -/
def State.fencesFirst (s : State) (k : GKey) (who : Mask) : State :=
  match s.group? k with
  | none => s
  | some g =>
    (g.pending.filter (fun f => f.isFence && f.of who)).foldl (fun s f =>
      match f.rel with
      | some scp =>
        ((s.passOn k who f.issue scp).orderBefore k scp (fun e => e.of who && e.issue < f.issue)).releaseCopies g who scp
      | none => s) s

/-- What comes before such a write to memory whose stores come after loads: the threads' loads of device and host memory (R281,
R284, R287), and what fences order. -/
def State.beforeWrite (s : State) (k : GKey) (who : Mask) : State :=
  (s.performNeed k (fun e => e.of who && e.reads && e.at_.space.ordered)).fencesFirst k who

def Pending.isInPlace (p : Pending) : Bool := match p.op with | .inPlace _ _ _ => true | _ => false

/-- It returns a result. -/
def Pending.returns (p : Pending) : Bool :=
  match p.op with | .load _ _ _ => true | .rmw _ _ _ _ (some _) => true | _ => false

/-- The pending accesses of one instruction of a group are performed, since its results are wanted (R37, R209). -/
def State.performIssue (s : State) (k : GKey) (n : Nat) : State := s.performNeed k (fun e => e.issue == n && e.returns)

/-- A release at team scope for a lane set of a group (R75, R100). -/
def State.fenceTeam (s : State) (k : GKey) (lanes : Mask) : State := s.releaseLanes k lanes .team

end Sys2Proof.Machine
end

