-- ==== Sys2Proof/Machine/Leave.lean ====
section
/-! DEFINITION. The scratchpad's segments and bytes (R246, R247, R262), and what a context leaves behind when its last
group leaves a partition or a core other than by eviction (R180, R247, R251, R253). -/

namespace Sys2Proof.Machine

/-- Scratchpad bytes of a core, and bytes of a segment (R10, R247). -/
def spBytes : Nat := 524288
def segBytes : Nat := 16384

/-- Owner of a segment (R247). -/
def Core.segOwner (c : Core) (j : Nat) : Option Nat := (c.segs.find? (fun x => x.1 == j)).map (·.2)

/-- Segments that `n` bytes from an offset touch. -/
def segsOf (o n : Nat) : List Nat := if n = 0 then [] else (List.range ((o + n - 1) / segBytes - o / segBytes + 1)).map (· + o / segBytes)

/-- Another context owns a segment under the bytes (R247). -/
def Core.segRefused (c : Core) (ctx o n : Nat) : Bool :=
  (segsOf o n).any (fun j => match c.segOwner j with | some w => w != ctx | none => false)

/-- Claim one segment if it is unowned: every byte of it reads 0 (R247). -/
def Core.claim1 (c : Core) (ctx j : Nat) : Core :=
  match c.segOwner j with
  | some _ => c
  | none =>
    { c with
      segs := c.segs ++ [(j, ctx)]
      sp := c.sp.filter (fun x => x.1 / segBytes != j)
      spPoison := c.spPoison.filter (fun w => w * 4 / segBytes != j) }

/-- The first access of a context claims the unowned segments under it (R247). -/
def Core.claim (c : Core) (ctx o n : Nat) : Core := (segsOf o n).foldl (fun c j => c.claim1 ctx j) c

/-- The scratchpad as a unit of a context reads it once the context may have left: 0 in what it does not own (R247; DEDUCED, log 111). -/
def Core.seenBy (c : Core) (ctx : Nat) : Core :=
  { c with
    sp := c.sp.filter (fun x => c.segOwner (x.1 / segBytes) == some ctx)
    spPoison := c.spPoison.filter (fun w => c.segOwner (w * 4 / segBytes) == some ctx) }

/-- `n` scratchpad bytes from an offset. -/
def Core.spRead (c : Core) (o : Nat) : Nat → List Byte
  | 0 => []
  | n + 1 => Sparse.get (0 : Byte) c.sp o :: c.spRead (o + 1) n

/-- Write a run of scratchpad bytes; a word written whole loses its poison (R238, R262). -/
def spStore (m : List (Nat × Byte)) (o : Nat) : List Byte → List (Nat × Byte)
  | [] => m
  | x :: t => spStore (Sparse.set (0 : Byte) m o x) (o + 1) t

def Core.spWrite (c : Core) (o : Nat) (bs : List Byte) : Core :=
  { c with
    sp := spStore c.sp o bs
    spPoison := c.spPoison.filter (fun w => !(o ≤ w * 4 && w * 4 + 4 ≤ o + bs.length)) }

/-- The words that `n` bytes from an offset touch. -/
def wordsOf (o n : Nat) : List Nat := if n = 0 then [] else (List.range ((o + n - 1) / 4 - o / 4 + 1)).map (· + o / 4)

/- ### Words that copy engines and matrix units write (R249, R273) -/

/-- A unit writes scratchpad bytes: a group finds the words as they were or as they are until an edge from a wait for the unit's
operation reaches it (R249, R273). -/
def State.spLate (s : State) (k : CKey) (o n : Nat) (b : Bar) : State :=
  let c := s.core k
  { s with late := s.late ++ (wordsOf o n).map (fun w => ⟨k, w, c.spRead (4 * w) 4, c.spPoison.contains w, [b]⟩) }

/-- The late writes of a word that lanes of a group need not find, the newest first. -/
def State.lateOf (s : State) (g : Group) (who : Mask) (w : Nat) : List LateWord :=
  (s.late.filter (fun x => x.core == g.core && x.word == w)).reverse.takeWhile (fun x => !barred x.bars g who)

/-- How many of them a load does not find: a free choice. -/
def State.lateSkip (s : State) (g : Group) (who : Mask) (w : Nat) : Nat :=
  Config.lateWord s.tick w % ((s.lateOf g who w).length + 1)

/-- The core with one word as it was before a late write. -/
def Core.backTo (c : Core) (x : LateWord) : Core :=
  let kept := c.spPoison.filter (fun w => w != x.word)
  { c with sp := spStore c.sp (4 * x.word) x.bytes, spPoison := if x.pois then kept ++ [x.word] else kept }

/-- The scratchpad as a load of lanes of a group finds the words under its bytes. -/
def State.spView (s : State) (g : Group) (who : Mask) (o n : Nat) : Core :=
  if s.late.isEmpty then s.core g.core
  else (wordsOf o n).foldl (fun c w =>
    match s.lateSkip g who w with
    | 0 => c
    | j + 1 => match (s.lateOf g who w)[j]? with | some x => c.backTo x | none => c) (s.core g.core)

/-- Lanes have found all writes of a word but the newest `n`: they find those from now on (R275). -/
def noteLate (k : CKey) (w n : Nat) (b : Bar) : List LateWord → List LateWord
  | [] => []
  | x :: t =>
    (if x.core == k && x.word == w && n ≤ (t.filter (fun y => y.core == k && y.word == w)).length then
      { x with bars := addBar b x.bars } else x) :: noteLate k w n b t

def State.spNote (s : State) (g : Group) (who : Mask) (o n : Nat) : State :=
  if s.late.isEmpty then s
  else { s with late := (wordsOf o n).foldl (fun l w => noteLate g.core w (s.lateSkip g who w) (.lanes g.key who) l) s.late }

/-- A store of a lane stands in the words as they are and as they were (R249). -/
def LateWord.store (o : Nat) (bs : List Byte) (x : LateWord) : LateWord :=
  { x with
    bytes := (List.range 4).map (fun j =>
      let a := 4 * x.word + j
      if o ≤ a && a < o + bs.length then nth 0 bs (a - o) else nth 0 x.bytes j)
    pois := x.pois && !(o ≤ 4 * x.word && 4 * x.word + 4 ≤ o + bs.length) }

def State.lateStore (s : State) (k : CKey) (o : Nat) (bs : List Byte) : State :=
  { s with late := s.late.map (fun x => if x.core == k then x.store o bs else x) }

/-- Data bank and bank row of a byte offset (R246). -/
def spBank (o : Nat) : Nat := o / 4 % 32
def spRow (o : Nat) : Nat := o / 128

/-- The word of a data bank at a row. -/
def Core.bankWord (c : Core) (bank row : Nat) : Word := BitVec.ofNat 32 (leNat (c.spRead (128 * row + 4 * bank) 4))

/-- The word of a parity bank at a row: the exclusive-or of its four data banks, as they stand (R246). -/
def Core.parityWord (c : Core) (g row : Nat) : Word :=
  c.bankWord (4 * g) row ^^^ c.bankWord (4 * g + 1) row ^^^ c.bankWord (4 * g + 2) row ^^^ c.bankWord (4 * g + 3) row

/-- A word under the bytes reads as poison (R262). -/
def Core.spPoisoned (c : Core) (o n : Nat) : Bool := c.spPoison.any (fun w => o < w * 4 + 4 && w * 4 < o + n)

/-- A context has a live group on a core, or in a partition: one that is out by eviction comes back there (R370). -/
def State.onCore (s : State) (k : CKey) (ctx : Nat) : Bool :=
  s.groups.any (fun g => g.core == k && g.ctx == ctx && g.live != 0)
def State.onPart (s : State) (p : PKey) (ctx : Nat) : Bool :=
  s.groups.any (fun g => g.pkey == p && g.ctx == ctx && g.live != 0)

/-- A tag that its context gives up: an operation that still runs is kept, without a tag (R70, R253). -/
def Tag.release (t : Tag) : Option Tag := if t.done then none else some { t with orphan := true }

/-- Late words of the segments of a context are over with its ownership (R247). -/
def State.dropLate (s : State) (ctx : Nat) (test : CKey → Bool) : State :=
  { s with late := s.late.filter (fun x => !(test x.core && (s.core x.core).segOwner (x.word * 4 / segBytes) == some ctx)) }

/-- When no group of a context is left on a core, its segments, tag-table entries and tags are released (R247, R251,
R253). -/
def State.leaveCore (s : State) (k : CKey) (ctx : Nat) : State :=
  if s.onCore k ctx then s
  else (s.dropLate ctx (fun j => j == k)).modCore k (fun c =>
    { c with
      segs := c.segs.filter (fun x => x.2 != ctx)
      tagTable := c.tagTable.filter (fun e => e.owner != ctx)
      tags := c.tags.filterMap (fun t => if t.ctx == ctx then t.release else some t) })

def MxBank.empty : MxBank := ⟨none, [], []⟩
def allPred : BitVec 128 := BitVec.allOnes 128

/-- A context's matrix state when it first comes to a partition (R180). -/
def Mx.fresh (ctx : Nat) : Mx :=
  { ctx := ctx, active := false, bank0 := .empty, bank1 := .empty, tiles := List.replicate 4 [],
    row := List.replicate 4 allPred, col := List.replicate 4 allPred, oscale := 0x3F800000, latch := none, queue := [],
    view := ⟨false, none, none, none, List.replicate 4 allPred, List.replicate 4 allPred⟩,
    lastPc := 0, lastPasses := 0, discarded := 0, ending := false }

/-- A context has a live group resident in a partition. -/
def State.residentOn (s : State) (p : PKey) (ctx : Nat) : Bool :=
  s.groups.any (fun g => g.pkey == p && g.ctx == ctx && g.resident && g.live != 0)

/-- Matrix state that its context has left is freed once its queue is empty; groups of the context that have come since
receive fresh state (R180). -/
def State.freeMx (s : State) (p : PKey) : State :=
  match (s.part p).mx with
  | some m =>
    if m.ending && m.queue.isEmpty then
      s.modPart p (fun x => { x with mx := if s.residentOn p m.ctx then some (Mx.fresh m.ctx) else none })
    else s
  | none => s

/-- The last resident group of a context has left a partition other than by eviction: its matrix state is freed when the
queue is empty (R180). -/
def State.endMx (s : State) (p : PKey) (ctx : Nat) : State :=
  if s.residentOn p ctx then s
  else (s.modPart p (fun x => { x with mx := x.mx.map (fun m => if m.ctx == ctx then { m with ending := true } else m) })).freeMx p

/-- When no group of a context is left in a partition, it no longer owns cv registers there (R102). -/
def State.freeCvs (s : State) (p : PKey) (ctx : Nat) : State :=
  if s.onPart p ctx then s else s.modCtx ctx (fun c => { c with cvs := c.cvs.filter (fun x => x.1 != p) })

/-- A group has ended (R70). -/
def State.groupEnded (s : State) (g : Group) : State := ((s.endMx g.pkey g.ctx).freeCvs g.pkey g.ctx).leaveCore g.core g.ctx

end Sys2Proof.Machine
end

