-- ==== Sys2Proof/Machine/Approx.lean ====
section
/-! DEFINITION. The limits that the spec sets to a function whose result it leaves open (R156, R239): the exact value as
a dyadic rational, exact or with an error far below the limit, and the free value kept where it lies within it. -/

namespace Sys2Proof.Machine

/-- The number m × 2^e. -/
structure Dy where
  m : Int
  e : Int
  deriving DecidableEq, Repr

/-- The numerator at exponent `k`, cut below it. -/
def Dy.num (x : Dy) (k : Int) : Int := if k ≤ x.e then x.m * 2 ^ (x.e - k).toNat else x.m / 2 ^ (k - x.e).toNat

def Dy.sub (x y : Dy) : Dy := let k := min x.e y.e; ⟨x.num k - y.num k, k⟩
def Dy.add (x y : Dy) : Dy := let k := min x.e y.e; ⟨x.num k + y.num k, k⟩
def Dy.abs (x : Dy) : Dy := ⟨x.m.natAbs, x.e⟩
def Dy.le (x y : Dy) : Bool := let k := min x.e y.e; decide (x.num k ≤ y.num k)
/-- The value at FP32, rounded once. -/
def Dy.f32 (x : Dy) : FV := fpDecode fmtF32 (fpRound fmtF32 .rne false 0 (.fin (decide (x.m < 0)) x.m.natAbs x.e)).1

/-- The finite value of a datum, 0 for another. -/
def FV.dy : FV → Dy
  | .fin neg m e => ⟨if neg then -(m : Int) else m, e⟩
  | _ => ⟨0, 0⟩

/-- One unit in the last place of FP32 at a value. -/
def Dy.ulp (x : Dy) : Dy := ⟨1, max ((x.m.natAbs.log2 : Int) + x.e - 23) (-149)⟩

/- ### Fixed point: numbers times 2^320 -/

def fixOne : Int := 2 ^ 320
def fixPi : Int := 0x3243f6a8885a308d313198a2e03707344a4093822299f31d0082efa98ec4e6c89452821e638d01377
def fixLn2 : Int := 0xb17217f7d1cf79abc9e3b39803f2f6af40f343267298b62d8a0d175b8baafa2be7b876206debac98

/-- Σ x^k / k! from the term `t` on. -/
def expSeries (x : Int) : Nat → Int → Int → Int → Int
  | 0, _, _, acc => acc
  | n + 1, k, t, acc => expSeries x n (k + 1) (t * x / fixOne / (k + 1)) (acc + t)

/-- e^x for |x| ≤ 1. -/
def fixExp (x : Int) : Int := expSeries x 70 0 fixOne 0

/-- e^−y for y ≥ 0. -/
def fixExpNeg (y : Int) : Int := fixExp (-(y % fixLn2)) / 2 ^ (y / fixLn2).toNat

/-- Σ of the terms that follow `t` by the factor −x² / ((k + 1)(k + 2)). -/
def trigSeries (x : Int) : Nat → Int → Int → Int → Int
  | 0, _, _, acc => acc
  | n + 1, k, t, acc => trigSeries x n (k + 2) (-(t * x / fixOne * x / fixOne / ((k + 1) * (k + 2)))) (acc + t)

/-- Binary digits of the logarithm of a number from 1 to 2. -/
def logDigits : Nat → Int → Int → Int
  | 0, _, acc => acc
  | n + 1, y, acc =>
    let z := y * y / fixOne
    if 2 * fixOne ≤ z then logDigits n (z / 2) (2 * acc + 1) else logDigits n z (2 * acc)

/- ### The functions -/

/-- 2^y; beyond the exponents of FP32 a value as far beyond them. -/
def exp2Dy (y : Dy) : Dy :=
  if Dy.le ⟨129, 0⟩ y then ⟨1, 200⟩
  else if Dy.le y ⟨-200, 0⟩ then ⟨1, -400⟩
  else
    let f := y.num (-320)
    ⟨fixExp (f % fixOne * fixLn2 / fixOne), f / fixOne - 320⟩

/-- log2 of a positive number. -/
def log2Dy (x : Dy) : Dy :=
  let n := x.m.natAbs.log2
  ⟨((n : Int) + x.e) * 2 ^ 90 + logDigits 90 (Dy.num ⟨x.m, -(n : Int)⟩ (-320)) 0, -90⟩

/-- The angle less whole turns. -/
def fixAngle (x : Dy) : Int := x.num (-320) % (2 * fixPi)

/-- The exact value of an SFU function of finite operands where R157 gives none, with a relative error below 2^−60. -/
def sfuExact (fn : Nat) (x y : Dy) : Dy :=
  let a := x.abs
  let y320 := fun (k : Int) => min (a.num (-320) * k) (200 * fixOne)
  match fn with
  | 0 => ⟨2 ^ 300 / x.m, -300 - x.e⟩
  | 1 =>
    let odd := x.e % 2
    ⟨isqrt (2 ^ 400 / (x.m * 2 ^ odd.toNat).toNat) 200 0, -200 - (x.e - odd) / 2⟩
  | 2 => ⟨x.m * 2 ^ 300 / y.m, x.e - y.e - 300⟩
  | 3 => exp2Dy x
  | 4 => log2Dy x
  | 5 => ⟨trigSeries (fixAngle x) 60 1 (fixAngle x) 0, -320⟩
  | 6 => ⟨trigSeries (fixAngle x) 60 0 fixOne 0, -320⟩
  | 7 =>
    let t := fixExpNeg (y320 2)
    let r := (fixOne - t) * fixOne / (fixOne + t)
    ⟨if x.m < 0 then -r else r, -320⟩
  | _ =>
    let t := fixExpNeg (y320 1)
    ⟨(if x.m < 0 then t else fixOne) * fixOne / (fixOne + t), -320⟩

/-- The error bound of R156's table at the exact value. -/
def sfuBound (fn : Nat) (x exact : Dy) : Dy :=
  let ulps := fun (n : Int) => let u := exact.ulp; ⟨n * u.m, u.e⟩
  match fn with
  | 0 => ulps 1
  | 1 => ulps 1
  | 4 => if Dy.le ⟨1, -1⟩ x && Dy.le x ⟨2, 0⟩ then ⟨1, -22⟩ else ulps 2
  | 5 => ⟨1, -21⟩
  | 6 => ⟨1, -21⟩
  | 7 => ⟨1, -22⟩
  | 8 => ⟨1, -22⟩
  | _ => ulps 2

/-- A free FP32 value within a bound of the exact value, which may be ∞ where the bound passes the largest finite value
(R157); a candidate outside it gives the rounded exact value. -/
def within (exact bound : Dy) (candidate : Word) : FV :=
  let b : Dy := ⟨bound.m * (2 ^ 40 + 1), bound.e - 40⟩
  match fpDecode fmtF32 candidate.toNat with
  | .fin neg m e => if (Dy.sub (FV.dy (.fin neg m e)) exact).abs.le b then .fin neg m e else exact.f32
  | .inf neg => if neg == decide (exact.m < 0) && !(Dy.add exact.abs b).le ⟨2 ^ 24 - 1, 104⟩ then .inf neg else exact.f32
  | .nan _ => exact.f32

/-- An SFU result within R156's bound; a quotient has the exclusive-or of the operands' signs (R139). -/
def sfuWithin (fn : Nat) (x y : FV) (candidate : Word) : FV :=
  let exact := sfuExact fn x.dy y.dy
  let sign := fun (neg : Bool) => BitVec.ofNat 32 (candidate.toNat % 2 ^ 31 + if neg then 2 ^ 31 else 0)
  within exact (sfuBound fn x.dy exact) (if fn = 2 then sign (x.neg != y.neg) else candidate)

/-- 2^y within 2 ulp (R239). -/
def exp2Within (y : FV) (candidate : Word) : FV :=
  let exact := exp2Dy y.dy
  within exact ⟨2 * exact.ulp.m, exact.ulp.e⟩ candidate

end Sys2Proof.Machine
end

