-- ==== Sys2Proof/Machine/Fetch.lean ====
section
/-! DEFINITION. Code words, clause headers and issue points (R24, R41, R59 to R63), loads as one lane performs them,
and the walks of the stream registers (R85 to R89). -/

namespace Sys2Proof.Machine

/- ### Code (R44, R59, R63) -/

/-- Address of the code image of a group's launch, and its length in bytes. -/
def State.codeBase (s : State) (g : Group) : Nat := match s.launch? g.key.launch with | some l => l.codeBase | none => 0
def State.codeLen (s : State) (g : Group) : Nat := match s.launch? g.key.launch with | some l => 4 * l.codeLen | none => 0

/-- The word at a code address. -/
def State.codeWord (s : State) (g : Group) (a : Word) : Word := BitVec.ofNat 32 (s.memNat (s.codeBase g + a.toNat) 4)

/-- The address lies inside the code image. -/
def State.inImage (s : State) (g : Group) (a : Word) : Bool := a.toNat < s.codeLen g

/-- Fields of a clause header (R24). -/
def hdrN (w : Word) : Nat := fld w.toNat 28 4
def hdrCls (w : Word) : Nat := fld w.toNat 25 3
def hdrWait (w : Word) : Nat := fld w.toNat 19 6
def hdrSb (w : Word) : Nat := fld w.toNat 16 3
def hdrYield (w : Word) : Bool := bitOf w.toNat 15
def hdrRest (w : Word) : Nat := fld w.toNat 0 15

/-- Fields of a base word (R26). -/
def wX (w : Word) : Bool := bitOf w.toNat 26
def wOp (w : Word) : Nat := fld w.toNat 19 7
def wFn (w : Word) : Nat := fld w.toNat 14 5

/-- Bytes an instruction takes (R26, R41). -/
def instrBytes (base : Word) : Nat := if wX base then 8 else 4

/-- Addresses and base words of `n` instructions from an address, and the address after them (R41). -/
def State.instrs (s : State) (g : Group) (a : Word) : Nat → List (Word × Word) × Word
  | 0 => ([], a)
  | n + 1 =>
    let w := s.codeWord g a
    let r := s.instrs g (a + BitVec.ofNat 32 (instrBytes w)) n
    ((a, w) :: r.1, r.2)

/-- Position after the next instruction of a clause. -/
def ClausePos.after (p : ClausePos) : Option ClausePos := if p.left ≤ 1 then none else some { p with left := p.left - 1 }

/- ### Issue point (R60) -/

def LaneWait.isFree : LaneWait → Bool
  | .free => true | _ => false

/-- Live lanes that are not parked or held. -/
def Group.freeLanes (g : Group) : Mask := g.live &&& maskOf (fun i => (nth .free g.wait i).isFree)

/-- The lowest counter among lanes. -/
def minPc (pcs : Lanes) : List Nat → Option Word
  | [] => none
  | i :: t => match minPc pcs t with
    | none => some (nth 0 pcs i)
    | some m => some (if (nth 0 pcs i).toNat ≤ m.toNat then nth 0 pcs i else m)

/-- The issue point: the minimum counter over live lanes that do not wait (R60, R97). -/
def Group.issuePoint (g : Group) : Option Word := minPc g.pcs (lanesOf g.freeLanes)

/-- The lanes at the issue point that stand alike in their clause: those that stand as the lowest of them does. -/
def Group.pointLanes (g : Group) (pc : Word) : Mask :=
  let at_ := g.freeLanes &&& maskOf (fun i => nth 0 g.pcs i == pc)
  match lowestLane at_ with
  | none => 0
  | some j => at_ &&& maskOf (fun i => nth none g.clause i == nth none g.clause j)

/- ### Loads as a lane performs them -/

/-- The serving replica of a VERSIONED buffer for a die (R308). -/
def servingRep (e : Entry) (die : Nat) : Nat :=
  ((List.range e.nrep).find? (fun i => e.rep i == die)).getD 0

/-- Sibling 0 of a cell at a replica. -/
def Cell.sib0 (c : Cell) (r : Nat) : Option Sib := match c.reps[r]? with | some x => x.sibs.head? | none => none


def State.cell? (s : State) (buf off : Nat) : Option Cell := s.cells.find? (fun c => c.buf == buf && c.off == off)

/-- A cell with a width stands in the way of an access: another width at its offset, or bytes of another cell. -/
def State.cellClash (s : State) (buf off w : Nat) : Bool :=
  s.cells.any (fun c => c.buf == buf && c.live &&
    (if c.off == off then c.width != w else overlaps c.off c.width off w))

/-- The width of the cell that begins at an offset, 4 when it has none (R311). -/
def State.cellWidth (s : State) (buf off : Nat) : Nat :=
  match s.cell? buf off with | some c => if c.live then c.width else 4 | none => 4

/-- One byte of a VERSIONED buffer: of sibling 0 of the cell that holds it, or 0 (R208, R308). -/
def State.versionedByte (s : State) (buf die off : Nat) : Byte :=
  let r := servingRep (s.entry buf) die
  match s.cells.find? (fun c => c.buf == buf && c.live && c.off ≤ off && off < c.off + c.width) with
  | some c => (match c.sib0 r with | some x => BitVec.ofNat 8 (x.value.toNat / 2 ^ (8 * (off - c.off))) | none => 0)
  | none => 0

/-- The bytes that an access of VERSIONED cells or of memory finds (R208, R282). -/
def State.laneLoad (s : State) (g : Group) (who : Mask) (p : Phys) (z : Nat) (fresh : Bool) : List Byte :=
  if p.space == .cells then (List.range z).map (fun j => s.versionedByte p.buf g.core.die (p.addr + j))
  else s.loadBytes g who p z fresh

/- ### Walks (R85 to R89) -/

/-- A count of 0 binds an empty walk (R86). -/
def QBind.empty (b : QBind) : Bool := b.n0 == 0 || b.n1 == 0 || b.n2 == 0

/-- Byte offset of lane `l`'s element at a position (R85). -/
def QBind.offAt (b : QBind) (l i0 i1 i2 : Nat) : Int :=
  b.b.toInt + l * b.ls.toInt + i0 * b.st0.toInt + i1 * b.st1.toInt + i2 * b.st2.toInt

/-- Advance the position by one step (R85). -/
def QBind.next (b : QBind) : QBind :=
  let b1 := { b with e0 := false, e1 := false, e2 := false }
  if b.i0 + 1 < b.n0.toNat then { b1 with i0 := b.i0 + 1 }
  else if b.i1 + 1 < b.n1.toNat then { b1 with i0 := 0, e0 := true, i1 := b.i1 + 1 }
  else if b.i2 + 1 < b.n2.toNat then { b1 with i0 := 0, e0 := true, i1 := 0, e1 := true, i2 := b.i2 + 1 }
  else { b1 with i0 := 0, e0 := true, i1 := 0, e1 := true, i2 := 0, e2 := true }

/-- Advance by `n` steps, kept within one lap of the walk (R91): the flags are those of the last step taken. -/
def QBind.skip (b : QBind) (n : Nat) : QBind :=
  let lap := b.n0.toNat * b.n1.toNat * b.n2.toNat
  let p := (b.i0 + b.n0.toNat * (b.i1 + b.n1.toNat * b.i2) + n) % lap
  let i0 := p % b.n0.toNat
  let i1 := p / b.n0.toNat % b.n1.toNat
  let i2 := p / b.n0.toNat / b.n1.toNat
  if n = 0 || b.empty then b
  else { b with i0 := i0, i1 := i1, i2 := i2, e0 := i0 == 0, e1 := i0 == 0 && i1 == 0,
                e2 := i0 == 0 && i1 == 0 && i2 == 0 }

/-- The request for one element of a walk (R86, R88): a read under the buffer's read right. -/
def QBind.req (b : QBind) (ctx : Nat) (off : Int) (z : Nat) : Req :=
  { ctx := ctx, h := b.handle, off := off, z := z, align := 1,
    right := fun e => if e.kind = 1 then e.vr else e.rd, kind := fun k => k ≤ 1, useMap := false, reads := true }

/-- The home die of a load's line; of a VERSIONED buffer the serving replica's (R308). -/
def State.atReplica (s : State) (g : Group) (p : Phys) : Phys :=
  if p.space == .cells then { p with die := (s.entry p.buf).rep (servingRep (s.entry p.buf) g.core.die) } else p

/-- The request for lane `l`'s element of the next step. -/
def State.qCheck (s : State) (g : Group) (b : QBind) (l : Nat) : Except FaultCode Phys :=
  s.check (b.req g.ctx (b.offAt l b.i0 b.i1 b.i2) (b.it.bits / 8))

/-- One element, extended to 32 bits (R87). -/
def State.qElem (s : State) (g : Group) (b : QBind) (l : Nat) : Except FaultCode Word :=
  match s.qCheck g b l with
  | .error f => .error f
  | .ok p => .ok (halfWord (itExtend b.it (leNat (s.laneLoad g allLanes p (b.it.bits / 8) false))) 0)

/-- The elements of a step, lane by lane, or the fault that its fetch met and the offset of the lowest element that
met it (R89). -/
def State.qFetchFrom (s : State) (g : Group) (b : QBind) : List Nat → Step
  | [] => .data []
  | l :: t =>
    match s.qElem g b l, s.qFetchFrom g b t with
    | .error f, _ => .fault f (b.offAt l b.i0 b.i1 b.i2)
    | .ok _, .fault f o => .fault f o
    | .ok x, .data xs => .data (x :: xs)

/-- The step that a fetch fetches: the one that follows those already fetched. -/
def QBind.fetching (b : QBind) : QBind := b.skip b.ahead.length

/-- The lines of a step are reached, behind the group's own accesses to its bytes: their dies are touched and their frames count
(R88, R206, R272, R342). -/
def State.qReach (s : State) (g : Group) (b : QBind) : State :=
  (List.range W).foldl (fun s l =>
    match s.qCheck g b l with
    | .ok p =>
      let z := b.it.bits / 8
      let s1 := (s.performNeed g.key (fun e => e.meetsAt p z)).pull g.key (fun e => e.meetsAt p z)
      (s1.reach g.ctx (s1.atReplica g p)).keepCopy g allLanes p false
    | .error .eccUncorr => s.touch g.ctx (s.homeAt (s.entry (hIndex b.handle)) (hView b.handle) (b.offAt l b.i0 b.i1 b.i2).toNat)
    | .error _ => s) s

/-- Fetch the next step of walk `n` (R88), behind the acquires that the group has made (R218, R220). -/
def State.qFetch (s : State) (k : GKey) (n : Nat) (b : QBind) : State :=
  match s.group? k with
  | none => s
  | some g =>
    let s1 := (s.letPass k allLanes (fun _ => true)).qReach g b.fetching
    s1.modGroup k (fun h => { h with q := setAt h.q n (some { b with ahead := b.ahead ++ [s1.qFetchFrom g b.fetching (List.range W)] }) })

/-- A step's fetch meets a line in transit (R228). -/
def State.qTransit (s : State) (g : Group) (b : QBind) : Bool :=
  (List.range W).any (fun l => match s.qCheck g b.fetching l with
    | .ok p => p.space == .dev && s.inTransit p.buf p.line
    | .error _ => false)

/-- The walk whose first step an instruction that reads it has to fetch now (R87). -/
def State.qWanted (s : State) (k : GKey) (n : Nat) : Option (Group × QBind) :=
  match s.group? k with
  | none => none
  | some g =>
    match regQ g n with
    | none => none
    | some b => if b.empty || (!b.ahead.isEmpty && Config.useAhead s.tick) then none else some (g, { b with ahead := [] })

/-- Make sure that the first step of walk `n` of a group has been fetched (R87). -/
def State.qEnsure (s : State) (k : GKey) (n : Nat) : State :=
  match s.qWanted k n with
  | some (_, b) => s.qFetch k n b
  | none => s

/-- The fault of the step that an instruction is about to read (R89). -/
def State.qFault (s : State) (k : GKey) (n : Nat) : Option (FaultCode × Int) :=
  match s.group? k with
  | none => none
  | some g =>
    match regQ g n with
    | some b => if b.empty then none else (match b.ahead with | .fault f o :: _ => some (f, o) | _ => none)
    | none => none

/-- The driver is told of a step that met XLATE_MISS, as it faults an instruction (R89, R205). -/
def State.qMiss (s : State) (k : GKey) (n : Nat) : State :=
  match s.group? k, s.qFault k n with
  | some g, some (.xlateMiss, o) =>
    s.post 4 g.core.die g.ctx (BitVec.ofNat 32 (match regQ g n with | some b => hIndex b.handle | none => 0)) (BitVec.ofInt 64 o)
  | _, _ => s

/-- FAULTADDR of a step's fault: the offset modulo 2^32, or the lost die that the element lies on (R89, R343). -/
def State.qFaultAddr (s : State) (g : Group) (n : Nat) (f : FaultCode) (o : Int) : BitVec 64 :=
  match f, regQ g n with
  | .dieLost, some b =>
    let e := s.entry (hIndex b.handle)
    BitVec.ofNat 64 (if e.kind = 1 then e.rep (servingRep e g.core.die) else s.homeAt e (hView b.handle) o.toNat)
  | _, _ => BitVec.ofNat 64 (lowBits 32 o)

/-- A step whose fetch met a fault is fetched again by the instruction that reads it after the fault (R89). -/
def State.qForget (s : State) (k : GKey) (n : Nat) : State :=
  if (s.qFault k n).isSome then
    s.modGroup k (fun g => { g with q := modAt g.q n (fun x => x.map (fun b => { b with ahead := [] })) })
  else s

/-- One step of walk `n` has been read: it advances once (R87); an empty walk sets its flags. -/
def Group.qAdvance (n : Nat) (g : Group) : Group :=
  { g with q := modAt g.q n (fun x => x.map (fun b =>
      if b.empty then { b with e0 := true, e1 := true, e2 := true }
      else { b.next with ahead := b.ahead.drop 1 })) }

/-- Drop the steps fetched ahead (R88). -/
def Group.dropAhead (g : Group) : Group := { g with q := g.q.map (fun x => x.map (fun b => { b with ahead := [] })) }

/-- FENCE.ar at team scope for a lane set of a group: earlier accesses are performed, and fetched steps discarded (R88,
R100). -/
def State.fenceArTeam (s : State) (k : GKey) (lanes : Mask) : State := (s.fenceTeam k lanes).modGroup k Group.dropAhead

end Sys2Proof.Machine
end

