-- ==== Sys2Proof/Machine/Conv.lean ====
section
/-! DEFINITION. Scope and rendezvous: convergence registers, signatures, arrival, completion and release (R95 to
R105), WAITM (R73 to R75), loop levels (R80, R81) and RDV_SPLIT (R105). -/

namespace Sys2Proof.Machine

/- ### Convergence registers (R95, R102) -/

def Group.convReg (g : Group) : Scope → ConvReg
  | .lane => .cvg g.key
  | .group => .cvg g.key
  | .party => match g.party with | some p => .cv g.pkey g.ctx p | none => .cvg g.key
  | .team => .cvt g.key.launch g.key.team

/-- GEN of a convergence register (R102). -/
def State.gen (s : State) : ConvReg → BitVec 16
  | .cvg k => match s.group? k with | some g => g.cvg | none => 0
  | .cv p ctx idx => match s.ctx? ctx with
    | some c => ((c.cvs.find? (fun x => x.1 == p && x.2.1 == idx)).map (·.2.2)).getD 0
    | none => 0
  | .cvt l t => match s.team? ⟨l, t, 0⟩ with | some x => x.cvt | none => 0

/-- GEN increments (R102). -/
def State.bumpGen (s : State) (r : ConvReg) : State :=
  let n := s.gen r + 1
  match r with
  | .cvg k => s.modGroup k (fun g => { g with cvg := n })
  | .cv p ctx idx => s.modCtx ctx (fun c =>
      { c with cvs := c.cvs.filter (fun x => !(x.1 == p && x.2.1 == idx)) ++ [(p, idx, n)] })
  | .cvt l t => s.modTeam ⟨l, t, 0⟩ (fun x => { x with cvt := n })

/-- The groups whose rendezvous a register holds: its member groups with a live lane (R96). -/
def State.regMembers (s : State) (r : ConvReg) : List Group :=
  (match r with
    | .cvg k => (s.group? k).toList
    | .cv p ctx idx => s.groups.filter (fun g => g.pkey == p && g.ctx == ctx && g.party == some idx)
    | .cvt l t => s.teamGroups ⟨l, t, 0⟩).filter (fun g => g.live != 0)

/-- The signatures of a scope (R103). -/
def Group.sig (g : Group) : Scope → List (Option (BitVec 16))
  | .lane => []
  | .group => g.sigG
  | .party => g.sigP
  | .team => g.sigT

def Group.setSig (g : Group) (sc : Scope) (x : List (Option (BitVec 16))) : Group :=
  match sc with
  | .lane => g
  | .group => { g with sigG := x }
  | .party => { g with sigP := x }
  | .team => { g with sigT := x }

/-- Fill the signatures of lanes of a mask. -/
def Group.fillSig (g : Group) (sc : Scope) (m : Mask) (v : Option (BitVec 16)) : Group :=
  g.setSig sc ((List.range W).map (fun i => if laneBit m i then v else nth none (g.sig sc) i))

def Group.setWait (g : Group) (m : Mask) (w : LaneWait) : Group :=
  { g with wait := (List.range W).map (fun i => if laneBit m i then w else nth .free g.wait i) }

/-- Lanes that wait in a way that a test selects. -/
def Group.waiting (g : Group) (f : LaneWait → Bool) : Mask := g.live &&& maskOf (fun i => f (nth .free g.wait i))

/- ### Loop levels (R80, R81) -/

/-- Active levels whose body does not hold the address are popped, with all inside them (R81). -/
def popLevels (pc : Word) : List LoopLevel → List LoopLevel
  | [] => []
  | l :: t => if l.start.toNat ≤ pc.toNat && pc.toNat < l.exit.toNat then l :: popLevels pc t else []

def Group.normLevels (g : Group) : Group :=
  if g.levels.isEmpty then g
  else match g.issuePoint with | some pc => { g with levels := popLevels pc g.levels } | none => g

/- ### WAITM (R73, R75) -/

/-- Every register write of earlier instructions becomes visible; scoreboards still count what is outstanding (R75). -/
def Group.landAll (g : Group) : Group :=
  { g.inFlight.foldl (fun g e => Write.applyAll g e.writes) g with
    inFlight := (g.inFlight.filter (fun e => e.due.isNone)).map (fun e => { e with writes := [] }) }

def isParked (k : Nat) : LaneWait → Bool
  | .parked m => m.val == k
  | _ => false

/-- Lane `i` moves past the two-word instruction it waits at. -/
def Group.passOwn (g : Group) (i : Nat) : Group :=
  let pos := match nth none g.clause i with | some p => p.after | none => none
  g.moveLanes (BitVec.ofNat 64 (2 ^ i)) (nth 0 g.pcs i + 8) pos

/-- Every live lane set in mask `k` is parked on it (R73). -/
def Group.maskMet (g : Group) (k : Nat) : Bool := (regM g k &&& g.live &&& ~~~(g.waiting (isParked k))) == 0

/-- A write of mask `k` is on its way (R36, R73). -/
def Group.maskComing (g : Group) (k : Nat) : Bool :=
  g.inFlight.any (fun e => e.writes.any (fun w => w.code == 0x350 + k))

/-- The array has still to run an MRDA of the group, whose registers a WAITM release makes visible (R75, R198). -/
def Group.awaitsArray (g : Group) : Bool := g.inFlight.any (fun e => e.token.isSome)

/-- Lanes of a mask move past the two-word instructions they wait at, those that stand alike together: the waiting instruction issues
for them then, and makes the end test of a body that it ends (R80, R113). -/
def Group.passWaiting (g : Group) (m : Mask) : Group :=
  let at_ := fun (i : Nat) => (nth 0 g.pcs i, nth none g.clause i)
  (((lanesOf m).map at_).dedup).foldl (fun h p =>
    h.pass (m &&& maskOf (fun i => at_ i == p)) (p.1 + 8) (p.2.bind ClausePos.after)) g

/-- Release the lanes parked on mask `k` when every live lane set in it is parked on it (R73): every earlier register write becomes
visible, an MRDA's and those of loads that are still pending too, and it acts as FENCE.ar at team scope (R75). -/
def State.releaseMask (s : State) (key : GKey) (k : Nat) : State :=
  match s.group? key with
  | none => s
  | some g =>
    let parked := g.waiting (isParked k)
    if parked == 0 || !g.maskMet k || g.awaitsArray then s
    else
      ((s.performNeed key Pending.returns).fenceTeam key g.live).modGroup key (fun g => ((lanesOf parked).foldl Group.passOwn g.landAll).dropAhead)

/-- The lanes parked on any mask. -/
def State.parkedOf (s : State) (key : GKey) : Mask :=
  match s.group? key with
  | none => 0
  | some g => g.waiting (fun w => match w with | .parked _ => true | _ => false)

/-- Release what the masks release, until nothing more is: a release lands writes, which may meet the condition of another mask
(R73, R75). -/
def State.releaseRounds (key : GKey) : Nat → State → State
  | 0, s => s
  | n + 1, s =>
    if s.parkedOf key == 0 then s
    else
      let t := (List.range 12).foldl (fun s k => s.releaseMask key k) s
      if t.parkedOf key == s.parkedOf key then t else State.releaseRounds key n t

/-- Each round that releases empties a mask of its parked lanes, so that twelve are enough. -/
def State.releaseMasks (s : State) (key : GKey) : State := State.releaseRounds key 12 s

/- ### Completion and release of a generation (R98, R100, R102 to R104, R113) -/

/-- The register that CVWAIT or CVRD names for a group (R113). -/
def Group.selReg (g : Group) (sel : Nat) : ConvReg :=
  if sel < 8 then .cv g.pkey g.ctx sel else if sel = 8 then .cvt g.key.launch g.key.team else .cvg g.key

/-- The scopes of a group whose rendezvous uses a register (R113). -/
def Group.scopesOf (g : Group) (r : ConvReg) : List Scope :=
  [Scope.group, .party, .team].filter (fun sc => g.convReg sc == r)

/-- Empty the signatures of a lane that name a generation, for the scopes that use a register (R103, R113). -/
def Group.emptySigs (g : Group) (r : ConvReg) (i : Nat) (gen : BitVec 16) : Group :=
  (g.scopesOf r).foldl (fun g sc =>
    if nth none (g.sig sc) i == some gen then g.fillSig sc (BitVec.ofNat 64 (2 ^ i)) none else g) g

/-- The lanes that CVWAIT holds on a register until its GEN is `gen` (R113). -/
def Group.freedBy (g : Group) (r : ConvReg) (gen : BitVec 16) : Mask :=
  g.waiting (fun w => match w with | .cvwait sel old => g.selReg sel.val == r && old != gen | _ => false)

/-- What the completion of a generation of a register does to one lane held by its signature (R103, R104). -/
def Group.releaseLane (r : ConvReg) (g : Group) (i : Nat) : Group :=
  let one : Mask := BitVec.ofNat 64 (2 ^ i)
  match nth .free g.wait i with
  | .sigHold sc _ => if g.convReg sc == r then (g.setWait one .free).fillSig sc one none else g
  | .awaiting sc _ => if g.convReg sc == r then (g.setWait one .free).dropAhead else g
  | _ => g

/-- A group as generation `gen` of a register completes: what it releases goes on (R103, R104, R113). -/
def Group.released (g : Group) (r : ConvReg) (gen : BitVec 16) : Group :=
  let m := g.freedBy r gen
  let g1 := (lanesOf g.live).foldl (Group.releaseLane r) g
  if m == 0 then g1 else (((lanesOf m).foldl (fun g i => g.emptySigs r i gen) g1).passWaiting m).dropAhead

/-- Release the lanes of every group that wait on a register; the release of an .await or of a CVWAIT is an acquire, which
discards fetched steps (R88, R100, R113). The levels that a group has left are popped (R81). -/
def State.releaseReg (s : State) (r : ConvReg) : State :=
  let gen := s.gen r
  s.modGroups (fun g =>
    if g.live &&& g.waiting (fun w => match w with
        | .sigHold _ _ => true | .awaiting _ _ => true | .cvwait _ _ => true | _ => false) == 0 then g
    else (g.released r gen).normLevels)

def isHeld (sc : Scope) : LaneWait → Bool
  | .held x => x == sc
  | _ => false

/-- Lanes of a member that have signed the open generation of a register, at any scope whose rendezvous it holds: PARTY
and GROUP share the cvg of a group in no party (R95, R98). -/
def State.signedFor (s : State) (g : Group) (r : ConvReg) : Mask :=
  maskOf (fun i => (g.scopesOf r).any (fun sc => nth none (g.sig sc) i == some (s.gen r + 1)))

/-- Lanes of a member that have arrived at a scope, or signed for the open generation of its register. -/
def State.arrivedOrSigned (s : State) (g : Group) (sc : Scope) : Mask :=
  g.live &&& (maskOf (fun i => isHeld sc (nth .free g.wait i)) ||| s.signedFor g (g.convReg sc))

/-- Address at which the arrived lanes of the members stand, when they all stand at one (R98). -/
def arrivedPcs (sc : Scope) (gs : List Group) : List Word :=
  gs.flatMap (fun g => (lanesOf (g.waiting (isHeld sc))).map (fun i => nth 0 g.pcs i))

def allSame : List Word → Bool
  | [] => true
  | x :: t => t.all (· == x)

/-- Clk from the last arrival to the issue (R98). -/
def scopeDelay : Scope → Nat
  | .party => 2
  | .team => 8
  | _ => 0

/-- The group is among the victims of a launch (R367). -/
def State.leaving (s : State) (k : GKey) : Bool :=
  s.launches.any (fun l => !s.halted l.ctx && l.plan.any (fun p => p.victims.any (fun v => v.keys.contains k)))

/-- A victim issues nothing more, but for one in its handler, which runs until its RTE (R368). -/
def State.stopsFor (s : State) (g : Group) : Bool := s.leaving g.key && !g.inh

/-- The scoreboards that the next instruction waits on: those of its clause, at the first instruction (R24, R35). -/
def State.waitBits (s : State) (g : Group) (p : ClausePos) : Nat :=
  let w := s.codeWord g p.hdr
  if p.left == hdrN w then hdrWait w else 0

/-- The scoreboards that an instruction of the group waits on read zero (R37). -/
def State.waitOver (s : State) (g : Group) (p : ClausePos) : Bool :=
  (List.range 6).all (fun k => !bitOf (s.waitBits g p) k || nth 0 g.sb k == 0)

/-- Nothing of the group's own stands against an instruction of its lanes: its vector unit runs, it has taken no fault that halts
its context, its checks are decided, and the clause's wait is over (R37, R319, R321). -/
def State.groupReady (s : State) (p : ClausePos) (g : Group) : Bool :=
  !g.inh && !g.susp && !g.stopped && !g.checks && s.waitOver g p

/-- Place of an instance of a group among those that complete at one clk: declared parties first (R184). -/
def Group.entryRank (g : Group) (sc : Scope) : Nat := if sc == .party then g.party.getD (8 + g.key.grp) else 8 + g.key.grp

/-- The matrix issue `j` enters the unit before `i`: both are of one partition and completed at one clk, and nothing but
time stands against `j` (R184). -/
def State.entersBefore (s : State) (j i : Issue) : Bool :=
  j.cls == 3 && i.cls == 3 && j.phase == .instance_ && i.phase == .instance_ && j.doneAt == i.doneAt &&
    j.members.all (fun m => (s.group? m.key).any (fun g =>
      g.resident && s.groupReady j.pos g && !s.stopsFor g && !s.lineAt g.ctx g.core.die && !g.dstop)) &&
    (match j.members.head?.bind (fun m => s.group? m.key), i.members.head?.bind (fun m => s.group? m.key) with
      | some g, some h => g.pkey == h.pkey && g.entryRank j.scope < h.entryRank i.scope
      | _, _ => false)

/-- The issue of a complete instance (R98). -/
def State.instanceIssueOf (s : State) (sc : Scope) (pc : Word) (gs : List Group) : Issue :=
  let ms := gs.filterMap (fun g =>
    let m := g.waiting (isHeld sc)
    if m == 0 then none else some (Member.mk g.key m m))
  let pos := match gs.find? (fun g => g.waiting (isHeld sc) != 0) with
    | some g => (match lowestLane (g.waiting (isHeld sc)) with | some i => nth none g.clause i | none => none)
    | none => none
  let hdr := match pos, gs.head? with
    | some p, some g => s.codeWord g p.hdr
    | _, _ => 0
  let w := match gs.head? with | some g => s.codeWord g pc | none => 0
  { phase := .instance_, scope := sc, pc := pc, next := pc + BitVec.ofNat 32 (instrBytes w),
    pos := pos.getD { hdr := 0, left := 1 }, sb := hdrSb hdr, cls := hdrCls hdr, yieldBit := hdrYield hdr,
    doneAt := s.clk, members := ms }

/-- The member groups of a generation that completes (R96). -/
def State.completers (s : State) (c : Completion) : List Group :=
  match (s.regMembers c.reg).head? with
  | some g => (s.members g c.scope).filter (fun x => x.live != 0)
  | none => []

/-- An instance that is complete, or that a rendezvous completed at the same clk will be once its time has come, enters the unit before an
issue (R98, R184). -/
def State.entersLater (s : State) (i : Issue) : Bool :=
  s.instances.any (fun j => s.entersBefore j.iss i) || s.completing.any (fun c =>
    let gs := s.completers c
    s.entersBefore { s.instanceIssueOf c.scope ((arrivedPcs c.scope gs).headD 0) gs with doneAt := c.doneAt } i)

/-- A GROUP-scope instance issues in the clk of its completion, as an ordinary issue: when nothing of the group's own stands against
it, its last issue's STALL included, its partition has its turn left, and no instance enters before it (R35, R98, R184, R364). -/
def State.issuesAtOnce (s : State) (g : Group) (i : Issue) : Bool :=
  s.issuing.isNone && s.groupReady i.pos g && (!g.dstop || g.stepOne) && (s.part g.pkey).freeAt ≤ s.clk && g.nextIssue ≤ s.clk &&
    !s.entersLater i

/-- A generation completes: GEN increments, with FENCE.ar at team scope for every member; lanes that have arrived wait for the issue of
their instance, and what waits on the register is released (R98, R100, R102). -/
def State.endGen (s : State) (c : Completion) : State :=
  let gs := s.completers c
  let iss := { s.instanceIssueOf c.scope ((arrivedPcs c.scope gs).headD 0) gs with doneAt := c.doneAt }
  let s1 := gs.foldl (fun s x => s.fenceArTeam x.key x.live) (s.bumpGen c.reg)
  let s2 := iss.members.foldl (fun s m => s.modGroup m.key (fun g => g.setWait m.lanes (.issuing c.scope))) s1
  let s3 := if iss.members.isEmpty then s2
    else if c.scope == .group && (iss.members.head?.bind (fun m => s2.group? m.key)).any (fun g => s2.issuesAtOnce g iss) then
      { s2 with issuing := some iss }
    else { s2 with instances := s2.instances ++ [⟨s2.clk, iss, false, c.step⟩] }
  s3.releaseReg c.reg

/-- Lanes of a group in no party have signed its register's open generation at PARTY scope, and none has arrived at GROUP scope: the
rendezvous is that of PARTY scope, with its delay. DESIGN CHOICE (log 126): where lanes signed at both scopes, the time is the wider
scope's; R98 gives the time of each. -/
def State.byParty (s : State) (g : Group) : Bool :=
  g.party.isNone && g.waiting (isHeld .group) == 0 &&
    (g.live &&& maskOf (fun i => nth none g.sigP i == some (s.gen (.cvg g.key) + 1))) != 0

/-- Complete the rendezvous of a group at a scope when every member lane has arrived or signed: at once at GROUP scope, and else after
2 or 8 clk (R98, R100 to R102); where lanes have arrived, so that an instance is to issue, only when every member group is resident.
DESIGN CHOICE (log 90): GEN's increment and the releases then wait with the issue, of which alone R101 speaks. -/
def State.tryComplete (s : State) (key : GKey) (sc : Scope) : State :=
  match s.group? key with
  | none => s
  | some g =>
    let gs := (s.members g sc).filter (fun x => x.live != 0)
    let pcs := arrivedPcs sc gs
    let c : Completion := ⟨g.convReg sc, sc, s.clk, s.clk + scopeDelay sc, g.dstop && g.stepOne⟩
    if gs.isEmpty || !(gs.all (fun x => (pcs.isEmpty || x.resident) && s.arrivedOrSigned x sc == x.live)) || !allSame pcs ||
      s.completing.any (fun x => x.reg == c.reg) || (sc == .group && s.byParty g) then s
    else if scopeDelay sc = 0 then s.endGen c
    else { s with completing := s.completing ++ [c] }

/- ### RDV_SPLIT (R105, R74) -/

/-- The register whose generation a blocked lane waits for, none for a lane parked on a mask. -/
def Group.waitsFor (g : Group) : LaneWait → Option ConvReg
  | .held sc => some (g.convReg sc)
  | .sigHold sc _ => some (g.convReg sc)
  | .awaiting sc _ => some (g.convReg sc)
  | .cvwait sel _ => some (g.selReg sel.val)
  | _ => none

/-- Every live lane of a group has arrived or signed for the open generation of a register. -/
def State.standsFor (s : State) (r : ConvReg) (g : Group) : Bool :=
  (g.scopesOf r).any (fun sc => s.arrivedOrSigned g sc == g.live)

/-- The open generation of a register cannot complete unless a lane of the groups moves: a member among them has not
arrived, or those that have stand at different addresses (R98, R105). Nothing completes a register without members, but for a
generation whose time is still to come. -/
def State.needsMove (s : State) (gs : List Group) (r : ConvReg) : Bool :=
  let ms := s.regMembers r
  let mine := ms.filter (fun x => gs.any (fun g => g.key == x.key))
  !s.completing.any (fun c => c.reg == r) &&
    (ms.isEmpty || !(mine.all (s.standsFor r)) ||
      !allSame (mine.flatMap (fun x => (x.scopesOf r).flatMap (fun sc => arrivedPcs sc [x]))))

/-- Every live lane of the groups is blocked, and only a lane of theirs that moves could release one (R105): a lane parked
on a mask whose condition is met, or to which a write is on its way, is released without one (R73, R74). -/
def State.splitSet (s : State) (gs : List Group) : Bool :=
  !gs.isEmpty && gs.all (fun g => !g.inh && !g.susp && !g.stopped &&
    (lanesOf g.live).all (fun i =>
      match nth .free g.wait i with
      | .free => false
      | .issuing _ => false
      | .parked m => !g.maskMet m.val && !g.maskComing m.val
      | w => (match g.waitsFor w with | some r => s.needsMove gs r | none => false)))

/-- Raise RDV_SPLIT in a set of groups (R105, R110). -/
def State.raiseSplit (s : State) (sc : Scope) (gs : List Group) : State :=
  let all := gs.flatMap (fun g => (lanesOf g.live).map (fun i => (g, i)))
  let pc := match minPc (all.map (fun x => nth 0 x.1.pcs x.2)) (List.range all.length) with | some p => p | none => 0
  let low := all.find? (fun x => nth 0 x.1.pcs x.2 == pc)
  let pos := match low with | some (g, i) => (match nth none g.clause i with | some p => p.after | none => none) | none => none
  let w := match low with | some (g, _) => s.codeWord g pc | none => 0
  s.takeFault
    { scope := if gs.length = 1 then .lane else sc, code := .rdvSplit, pc := pc, reg := 0, addr := 0,
      lanes := gs.map (fun g => (g.key, g.live)),
      arrived := gs.map (fun g => (g.key, g.live &&& maskOf (fun i => nth 0 g.pcs i == pc))),
      next := pc + BitVec.ofNat 32 (instrBytes w), pos := pos }

/-- The live groups of the parties of a team, party by party. -/
def partiesOf (gs : List Group) : List (List Group) :=
  ((gs.filterMap (fun g => g.party.map (fun p => (p, g.part)))).dedup).map (fun x =>
    gs.filter (fun g => g.party == some x.1 && g.part == x.2))

/-- Test the smallest sets first: the groups, the parties, the team (R105). -/
def State.splitTest (s : State) (key : GKey) : State :=
  match s.group? key with
  | none => s
  | some g =>
    let ts := (s.teamGroups key).filter (fun x => x.live != 0)
    if s.halted g.ctx then s
    else match ts.find? (fun x => s.splitSet [x]) with
      | some x => s.raiseSplit .group [x]
      | none =>
        match (partiesOf ts).find? (fun ps => 1 < ps.length && s.splitSet ps) with
        | some ps => s.raiseSplit .party ps
        | none => if 1 < ts.length && s.splitSet ts then s.raiseSplit .team ts else s

/-- The groups that CVWAIT holds on the register of the party that a group has left for good: no lane is left to advance it (R105). -/
def State.watchers (s : State) (key : GKey) : List GKey :=
  match s.group? key with
  | none => []
  | some g =>
    if g.live != 0 then []
    else (s.groups.filter (fun h => h.ctx == g.ctx && h.waiting (fun w => match w with
      | .cvwait sel _ => h.selReg sel.val == g.convReg .party
      | _ => false) != 0)).map (·.key)

/-- After a lane arrives, signs, parks or exits, or a mask changes: release what can be released, complete what is
complete, pop the levels the group has left, and test for RDV_SPLIT (R73, R81, R98, R105), those too that wait on a group that has
ended. -/
def State.settle (s : State) (key : GKey) : State :=
  let s1 := s.releaseMasks key
  let s2 := [Scope.group, .party, .team].foldl (fun s sc => s.tryComplete key sc) s1
  (s2.watchers key).foldl State.splitTest ((s2.modGroup key Group.normLevels).splitTest key)

/-- The generations whose time has come complete, those with an instance to issue once every member is resident (R98, R101). -/
def State.endGens (s : State) : State :=
  let now := s.completing.filter (fun c => c.due ≤ s.clk &&
    ((arrivedPcs c.scope (s.completers c)).isEmpty || (s.completers c).all (·.resident)))
  if now.isEmpty then s
  else
    let s1 := now.foldl State.endGen { s with completing := s.completing.filter (fun c => !now.contains c) }
    (now.flatMap (fun c => (s.completers c).map (·.key))).foldl State.settle s1

end Sys2Proof.Machine
end

