-- ==== Sys2Proof/Machine/Sched.lean ====
section
/-! DEFINITION. Where a group stands, and what the scheduler sees of it: long-latency stalls, the active slots, and the
groups chosen for eviction (R363 to R365, R367, R368). -/

namespace Sys2Proof.Machine

/-- Where a group issues next, its handler thread's place included, with its place in the clause (R60, R322). -/
def Group.nextPoint (g : Group) : Option (Word × Option ClausePos) :=
  if g.inh then some (g.hpc, g.hpos)
  else match g.issuePoint with
    | none => none
    | some pc => (lowestLane (g.pointLanes pc)).map (fun i => (pc, nth none g.clause i))

/-- Scoreboards of the group's wait that are not zero. -/
def State.waitsOn (s : State) (g : Group) : List Nat :=
  match g.nextPoint with
  | some (_, some p) => (List.range 6).filter (fun k => bitOf (s.waitBits g p) k && nth 0 g.sb k != 0)
  | _ => []

/-- Classes whose results come from memory, the scratchpad or the sync engines (R365). -/
def longClass (n : Nat) : Bool := n == 2 || n == 5 || n == 6

/-- The clk up to which a bound counts time for a context: none passes in its debug stop (R331). -/
def State.now (s : State) (ctx : Nat) : Nat :=
  match s.ctx? ctx with | some c => if c.stopped then min c.stopAt s.clk else s.clk | none => s.clk

/-- A wait of at least 64 clk on a scoreboard whose outstanding instructions are all of class 2, 5 or 6. -/
def State.sbStall (s : State) (g : Group) : Bool :=
  g.sbWait.any (fun t => t + 64 ≤ s.now g.ctx) && (s.waitsOn g).any (fun k =>
    (g.inFlight.filter (fun e => e.due.isNone && e.sb == k)).all (fun e => longClass e.cls))

/-- Every live lane is blocked (R105). -/
def Group.allBlocked (g : Group) : Bool :=
  !g.inh && (lanesOf g.live).all (fun i => match nth .free g.wait i with | .free => false | .issuing _ => false | _ => true)

/-- A long-latency stall (R365). -/
def State.stalled (s : State) (g : Group) : Bool :=
  g.heldSince.isSome || s.instances.any (fun i => i.held && i.iss.members.any (fun m => m.key == g.key)) || g.allBlocked || s.sbStall g ||
    (g.checks && g.lastIssue + 64 ≤ s.now g.ctx)

/-- Every scoreboard reads zero (R39). -/
def Group.drained (g : Group) : Bool := g.sb.all (· == 0)

/-- A group still takes its registers: it is resident, and live or not yet drained (R70). -/
def Group.holdsRegs (g : Group) : Bool := g.resident && (g.live != 0 || !g.drained)

/-- The resident groups of a partition that still run. -/
def State.partGroups (s : State) (p : PKey) : List Group := s.groups.filter (fun g => g.pkey == p && g.resident && g.live != 0)

/-- The lowest free active slot of a partition (R359, R364). -/
def State.freeSlot (s : State) (p : PKey) : Option Nat :=
  (List.range 8).find? (fun i => !s.groups.any (fun g => g.pkey == p && g.resident && g.slot == some i))

/-- A pending group can enter the active set (R365). -/
def State.canEnter (s : State) (g : Group) : Bool :=
  g.slot.isNone && !s.halted g.ctx && !s.stopsFor g && !s.stalled g

/-- The group stands before an instruction that has a breakpoint (R331, R348): at the instruction's address or, before
the first instruction of its clause, at the header's. -/
def State.atBreak (s : State) (g : Group) : Bool :=
  match s.ctx? g.ctx, g.nextPoint with
  | some c, some (pc, some p) => c.breaks.contains pc || (p.left == hdrN (s.codeWord g p.hdr) && c.breaks.contains p.hdr)
  | _, _ => false

/-- The group's next instruction may issue but for the partition's choice: its clause's wait is met (R35, R319, R352). -/
def State.waitMet (s : State) (g : Group) : Bool := (s.waitsOn g).isEmpty && !g.checks && decide (g.nextIssue ≤ s.clk)

/-- The eviction of a member of a fault waits for the RTE of the group that handles it (R346, R368). -/
def State.awaitsRte (s : State) (g : Group) : Bool := g.inh && (s.suspendedWith g).any (fun h => s.leaving h.key)

/-- The waits that a bound is counted from begin, or are over (R346, R365). -/
def State.noteWaits (s : State) : State :=
  s.modGroups (fun g =>
    { g with
      sbWait := if (s.waitsOn g).isEmpty || s.clk < g.nextIssue then none else g.sbWait <|> some s.clk
      rteWait := if s.awaitsRte g then g.rteWait <|> some s.clk else none })

/-- A time that a bound is counted from, moved past a debug stop that ends (R331). -/
def afterStop (stopAt clk t : Nat) : Nat := t + (clk - max t stopAt)

/-- Pending groups of a partition that can enter. -/
def State.entrants (s : State) (p : PKey) : List Group := (s.partGroups p).filter s.canEnter

/-- The groups of the active set. -/
def State.active (s : State) (p : PKey) : List Group := (s.partGroups p).filter (fun g => g.slot.isSome)

/-- A pending group of higher priority than an active one wants its slot: no slot is free and no active group is
stalled (R365). -/
def State.exchangeWanted (s : State) (g : Group) : Bool :=
  (s.freeSlot g.pkey).isNone && !(s.active g.pkey).any s.stalled && (s.entrants g.pkey).any (fun q => s.prio g.ctx < s.prio q.ctx)

/-- The group issues nothing because it is going out for another of higher priority (R365). -/
def State.goingOut (s : State) (g : Group) : Bool :=
  g.outgoing && (s.entrants g.pkey).any (fun q => s.prio g.ctx < s.prio q.ctx)

end Sys2Proof.Machine
end

