-- ==== Sys2Proof/Machine/Issue.lean ====
section
/-! DEFINITION. The issue of one instruction, shared by every meaning: the checks before it (R22, R38, R42, R104,
R107, R109, R322, R393), arrival at a wider scope (R96 to R104), the stream steps it reads (R87, R89), and what
follows it: lanes pass, faults are taken, timing and yielding (R35, R60, R80, R145, R209, R319). -/

namespace Sys2Proof.Machine

/-- Faulting lanes of one member group of an issue (R209). -/
structure LaneFault where
  key : GKey
  lanes : Mask
  code : FaultCode
  reg : Nat
  addr : BitVec 64
  deriving DecidableEq, Repr

/-- What the effect of an instruction comes to. -/
inductive Eff where
  /-- It took place; the lanes pass the instruction. -/
  | done (s : State)
  /-- It took place and moved the lanes itself; the branch penalty (R65). -/
  | moved (s : State) (penalty : Nat)
  /-- The instruction is held and has not issued (R363). -/
  | hold (s : State)
  /-- No lane passes: each waits at the instruction, which has not issued for it, on a condition of its own (R103, R113, R363). -/
  | waits (s : State)
  /-- Some lanes fault; the others completed in this state (R209). -/
  | fault (s : State) (fs : List LaneFault)

/- ### The lanes that execute -/

/-- The executing lanes of a member: those allowed that its guard selects, the handler's one thread, or those that a
replay names, whatever its guard reads by now (R60, R98, R111, R210, R322). -/
def State.execLanes (s : State) (c : Ctl) (m : Member) : Mask :=
  match s.group? m.key with
  | none => 0
  | some g => if s.cur.phase == .handler || s.cur.phase == .replay then m.may else m.may &&& s.guardMask g c.guard

/-- Each member group of the issue with its executing lanes. -/
def State.execs (s : State) (c : Ctl) : List (Group × Mask) :=
  s.cur.members.filterMap (fun m => (s.group? m.key).map (fun g => (g, s.execLanes c m)))

/-- An issue that takes its partition's turn: all but those of PARTY and TEAM scope (R98, R364). -/
def Issue.ordinary (i : Issue) : Bool := i.scope == .lane || i.scope == .group

/-- The first member group of the issue. -/
def State.issuer (s : State) : Option Group := match s.cur.members with | m :: _ => s.group? m.key | [] => none

/-- The lowest-numbered member with a live lane, whose scalars an instance reads once (R395): of every member of its scope,
those whose lanes have all signed too. -/
def State.readerOf (s : State) : Option Group :=
  match s.issuer with
  | some g => (s.members g s.cur.scope).find? (fun g => g.live != 0)
  | none => none

/-- Merge the faulting lanes of a group. -/
def faultLanesOf (fs : List LaneFault) (k : GKey) : Mask :=
  fs.foldl (fun m f => if f.key == k then m ||| f.lanes else m) 0

/-- The fault that decides the record: of the lowest member, the lowest lane (R209). -/
def firstFault (ms : List Member) (fs : List LaneFault) : Option LaneFault :=
  let ranked := ms.flatMap (fun m => (List.range W).filterMap (fun i =>
    fs.find? (fun f => f.key == m.key && laneBit f.lanes i)))
  ranked.head? <|> fs.head?

/- ### The uninitialised marker (R146) -/

/-- A value is an uninitialised marker (R146). -/
def isMarker (x : Word) : Bool := x.toNat / 2 ^ 10 == 0x7FA00000 / 2 ^ 10

/-- Fields that the marker check reads: all but inline constants (R146). -/
def checkedOpd : Opd → Bool
  | .imm _ => false | _ => true

/-- Lanes of a mask whose value in a field holds a marker; in scalar form all of them or none (R146). -/
def State.markerLanes (s : State) (g : Group) (scalar : Bool) (m : Mask) (f : Nat) (o : Opd) : Mask :=
  if !checkedOpd o then 0
  else if scalar then (if isMarker (s.scal g f 0 o) then m else 0)
  else m &&& maskOfList ((s.vec g f 0 o).map isMarker)

/-- The marker faults of one group: each lane by its first field that holds one (R146). -/
def State.markerFaults (s : State) (g : Group) (scalar : Bool) (m : Mask) : List (Nat × Opd) → List LaneFault
  | [] => []
  | (f, o) :: t =>
    let hit := s.markerLanes g scalar m f o
    (if hit == 0 then [] else [⟨g.key, hit, .snanUninit, o.code, 0⟩]) ++ s.markerFaults g scalar (m &&& ~~~hit) t

/-- The fields that an instruction's marker check reads: place and operand of each register (R146). -/
def markedFields (d : Desc) : List (Nat × Opd) :=
  (d.slots.zipIdx).flatMap (fun x => match x.1.opd with
    | some o => if x.1.fp then (List.range x.1.run).map (fun j => (x.2, o.plus j)) else []
    | none => [])

/-- The destination makes the scalar form (R117). -/
def scalarDst (d : Desc) : Bool := match d.d.opd with | some o => o.isScalarDst | none => false

/-- The executing lanes whose floating-point sources hold a marker (R146). -/
def State.fpMarkers (s : State) (c : Ctl) (d : Desc) : List LaneFault :=
  if (markedFields d).isEmpty then []
  else (s.execs c).flatMap (fun x =>
    if s.nomark x.1.ctx then [] else s.markerFaults x.1 (scalarDst d && !(d.a.opd.any Opd.isVY)) x.2 (markedFields d))

/-- Faults of lanes, those that hold a marker first: SNAN_UNINIT goes before any other fault but ILLEGAL_ENC and
SCOPE_ILLEGAL (R146, R297). -/
def markersFirst (mk fs : List LaneFault) : List LaneFault :=
  mk ++ (fs.map (fun f => { f with lanes := f.lanes &&& ~~~(faultLanesOf mk f.key) })).filter (fun f => f.lanes != 0)

/- ### The checks before an issue -/

/-- Member groups of the fault: the arrived lanes of each; at wider scope every member with a live lane (R110). -/
def State.faultArrived (s : State) (sc : Scope) : List (GKey × Mask) :=
  let own := s.cur.members.map (fun m => (m.key, m.lanes))
  if sc == .lane || sc == .group || s.cur.phase == .handler then own
  else match s.issuer with
    | none => own
    | some g => ((s.members g sc).filter (fun x => x.live != 0)).map (fun x => (x.key, lanesFor x.key own))

/-- A fault of the group at its own issue point, or of an instance before it issues: every lane that stands there (R38, R43, R109). -/
def State.pointFault (s : State) (code : FaultCode) (reg : Nat) (addr : BitVec 64) : FaultInfo :=
  { scope := if s.cur.phase == .replay || s.cur.phase == .instance_ then s.cur.scope else .lane, code := code, pc := s.cur.pc, reg := reg, addr := addr,
    lanes := s.cur.members.map (fun m =>
      (m.key, if s.cur.phase == .handler then 0 else if s.cur.phase == .replay then m.may else m.lanes)),
    arrived := if s.cur.phase == .instance_ then s.faultArrived s.cur.scope
      else s.cur.members.map (fun m => (m.key, if s.cur.phase == .handler then 0 else m.lanes)),
    next := s.cur.next, pos := s.cur.pos.after }

/-- The first v or s register of a field at or above the budget (R393). DESIGN CHOICE (log 114): FAULTREG names the register of a run that
is the first at or above the budget, and of several fields that of the first in the order D, A, B, C. -/
def slotBudget (g : Group) (x : Slot) : Option Nat :=
  if x.use == .none then none
  else match x.opd with
    | some (.v n) => if g.nv < n.toNat + x.run then some (max n.toNat g.nv) else none
    | some (.s n) => if g.ns < n.toNat + x.run then some (0x100 + max n.toNat g.ns) else none
    | _ => none

/-- The first y register of a field at or above the team's yregs (R107). -/
def slotParty (g : Group) (x : Slot) : Option Nat :=
  match x.opd with
  | some (.y n) => if g.ny < n.toNat + x.run then some (0x300 + max n.toNat g.ny) else none
  | _ => none

/-- The operand codes of the registers a field names. -/
def slotCodes (x : Slot) : List Nat :=
  match x.opd with
  | some (.v n) => (List.range x.run).map (fun j => n.toNat + j)
  | some (.s n) => (List.range x.run).map (fun j => 0x100 + n.toNat + j)
  | some (.y n) => (List.range x.run).map (fun j => 0x300 + n.toNat + j)
  | some (.m n) => [0x350 + n.val]
  | some (.lc n) => [0x369 + n.val]
  | some (.q n) => [0x340 + n.toNat]
  | _ => []

def InFlight.codes (e : InFlight) : List Nat := e.writes.map Write.code ++ e.coming ++ e.regs

/-- The register that the instruction would use before R36 or R37 allows (R38), by the fields it uses, but for the fixed-latency writes
that it surely sees: a walk's register is read where a field names it for its number, and written by QBIND and QSKIP. DESIGN CHOICE
(log 115): of several registers FAULTREG names the first in the order of the fields read, D, A, B, C, then the guard, then the fields
written. -/
def stallShort (g : Group) (sees : InFlight → Bool) (c : Ctl) (slots : List Slot) : Option Nat :=
  let named := fun (x : Slot) => x.use == .none && x.opd.any Opd.isQ
  let rds := (slots.filter (fun x => x.use == .rd || x.use == .rw || named x)).flatMap slotCodes ++
    (match c.guard with | some m => [0x350 + m.val] | none => [])
  let wrs := (slots.filter (fun x => x.use == .wr || x.use == .rw)).flatMap slotCodes
  let fixed := (g.inFlight.filter (fun e => e.due.isSome && !sees e)).flatMap InFlight.codes
  let var := (g.inFlight.filter (fun e => e.due.isNone)).flatMap InFlight.codes
  (rds.find? (fun r => var.contains r || fixed.contains r)) <|> (wrs.find? (fun r => var.contains r))

/-- Instructions that end a handler (R325). -/
def isRte : Instr → Bool
  | .rteReplay _ _ => true | .rteSkip _ => true | .rteResume _ => true | _ => false

/-- Instructions that a handler may not run (R322). -/
def notInHandler : Instr → Bool
  | .join _ _ => true | .leave _ _ => true | .waitm _ _ => true | .loop _ _ _ _ => true
  | .loopq _ _ _ _ _ => true | .lbrk _ _ => true | .exit _ => true
  | _ => false

/-- LGET and LPUT, the vector forms a handler may run (R322). -/
def isLaneReach : Instr → Bool
  | .lget _ _ _ _ => true | .lput _ _ _ _ => true | _ => false

def perLaneOpd : Opd → Bool
  | .v _ => true | .y _ => true | .sp .lane => true | .sp .vpc => true | _ => false

/-- Vector form (R117): a field names a value per lane, or a mask is written lane by lane. -/
def vectorForm (d : Desc) : Bool :=
  d.slots.any (fun x => match x.opd with | some o => perLaneOpd o | none => false) ||
  ((classOf d.op == some 0 || classOf d.op == some 1) && (match d.d.opd with | some o => o.isM | none => false)) ||
  (d.op == 0x01 && (match d.a.opd with | some o => o.isM | none => false))

/-- RECON names, in a lane that executes it, a cell of 8 bytes (R310). -/
def State.reconWide (s : State) (c : Ctl) (h : SReg) (off : Opd) (scalar : Bool) : Bool :=
  (s.execs c).any (fun x => (if scalar then (lowestLane x.2).toList else lanesOf x.2).any (fun i =>
    let o := if scalar then s.scal x.1 2 0 off else nth 0 (s.vec x.1 2 0 off) i
    s.cellWidth (hIndex (s.scal x.1 1 0 (.s h))) o.toNat == 8))

/-- The fields with the runs that the state decides: LBAL at PARTY scope writes two scalars for each group of the party
(R133), and RECON three registers where a cell has 8 bytes (R310). -/
def State.fields (s : State) (g : Group) (i : Instr) (c : Ctl) (d : Desc) : List Slot :=
  match i with
  | .lbal _ (.s n) _ =>
    if c.scope == .party then [Slot.wr (fun _ => true) (.s n) (2 * (s.partyGroups g).length), d.a] else d.slots
  | .recon _ _ _ dd h off _ => { d.d with run := if s.reconWide c h off dd.isScalarDst then 3 else 2 } :: [d.a, d.b, d.c]
  | _ => d.slots

/-- The fields as the budget checks see them before an arrival: MMA's A and scale runs are checked at its issue, and not where the
bank is empty or does not pair, or the latch is held. DEDUCED (log 100): R185's order for MMA goes before R107's general place of
the check. -/
def State.budgetSlots (s : State) (g : Group) (i : Instr) (c : Ctl) (d : Desc) : List Slot :=
  match i with
  | .mma _ _ _ _ _ _ _ _ _ => [d.b]
  | _ => s.fields g i c d

/-- The format of the bank that will be active (R185). -/
def MxView.activeFmt (v : MxView) : Option TC := if v.active then v.fmt1 else v.fmt0

/-- The fields as the checking scoreboard sees them (R38): MMA reads the runs that the unit's state gives it, and none while
the latch is held (R189, R192). -/
def State.stallSlots (s : State) (g : Group) (i : Instr) (c : Ctl) (d : Desc) : List Slot :=
  match i with
  | .mma _ ka _ _ _ _ _ _ e =>
    match (s.part g.pkey).mx with
    | some m =>
      if m.view.latch.isSome then []
      else match m.view.activeFmt with
        | some fmt => if mxPairs ka fmt then [{ d.a with run := aRun ka (mxK fmt) }, d.b, { d.c with run := scaleRun ka (mxK fmt) e }] else []
        | none => []
    | none => []
  | _ => s.fields g i c d

/-- RECON's result for a cell of 8 bytes starts at an odd register (R310). -/
def State.reconOdd (s : State) (c : Ctl) : Instr → Bool
  | .recon _ _ _ dd h off _ => dd.code % 2 == 1 && s.reconWide c h off dd.isScalarDst
  | _ => false

/-- Lanes of the issue hold a signature whose generation is complete: with .await they issue at once (R104). -/
def State.awaitsNow (s : State) (g : Group) (c : Ctl) : Bool :=
  c.await && s.cur.members.any (fun m => m.key == g.key &&
    (m.lanes &&& maskOf (fun i => match nth none (g.sig c.scope) i with
      | some x => x != s.gen (g.convReg c.scope) + 1
      | none => false)) != 0)

/-- The fixed-latency writes that the instruction surely sees: at an arrival those that have issued, since its instance issues later, and
of an instance those that issued before its group arrived (R99). -/
def State.seesWrite (s : State) (g : Group) (c : Ctl) (e : InFlight) : Bool :=
  if s.cur.wide then e.issue ≤ g.arrivedAt else s.cur.phase == .group && c.scope != .lane && !s.awaitsNow g c

/-- STALL_SHORT at the issue point, behind the markers of its lanes (R38, R146). -/
def State.stallFault (s : State) (c : Ctl) (d : Desc) (reg : Nat) : FaultInfo :=
  let p := s.pointFault .stallShort reg 0
  let fs := markersFirst (s.fpMarkers c d) (p.lanes.map (fun x => ⟨x.1, x.2, .stallShort, reg, 0⟩))
  match firstFault s.cur.members fs with
  | some f => { p with code := f.code, reg := f.reg }
  | none => p

/-- The first check that an instruction fails before it issues or arrives. -/
def precheck (i : Instr) (c : Ctl) (d : Desc) (s : State) (g : Group) : Option FaultInfo :=
  let fail code reg := some (s.pointFault code reg 0)
  let handler := s.cur.phase == .handler
  if classOf d.op == some 3 && s.coreClass g.core % 2 == 1 then fail .illegalEnc 0
  else match (s.budgetSlots g i c d).findSome? (slotBudget g) with
  | some r => fail .illegalEnc r
  | none =>
    if isRte i && !handler then fail .illegalEnc 0
    else if s.reconOdd c i then fail .illegalEnc 0
    else if handler && (notInHandler i || classOf d.op == some 3) then fail .illegalEnc 0
    else if handler && vectorForm d && !isLaneReach i then fail .illegalEnc 0
    else if handler && c.scope != .lane then fail .scopeIllegal 0
    else match (s.budgetSlots g i c d).findSome? (slotParty g) with
    | some r => fail .scopeIllegal r
    | none =>
      if !d.scopes.contains c.scope then fail .scopeIllegal 0
      else if c.await && d.await == .once then fail .scopeIllegal 0
      else if s.stallchk g.ctx then
        match stallShort g (s.seesWrite g c) c (s.stallSlots g i c d) with
        | some r => some (s.stallFault c d r)
        | none => none
      else none

/-- STALL_SHORT of an instance (R38): a member group, or the one whose scalars it reads once (R395), has a write of a register in flight
since it arrived or signed. -/
def instanceShort (i : Instr) (c : Ctl) (d : Desc) (s : State) : Option FaultInfo :=
  let gs := s.cur.members.filterMap (fun m => s.group? m.key) ++ (if d.await == .once then s.readerOf.toList else [])
  (gs.filter (fun g => s.stallchk g.ctx)).findSome? (fun g =>
    (stallShort g (s.seesWrite g c) c (s.stallSlots g i c d)).map (s.stallFault c d))

/- ### After the issue -/

/-- Classes whose checks are decided after the issue (R319). -/
def lateChecked (d : Desc) : Bool := classOf d.op == some 2 || classOf d.op == some 5 || classOf d.op == some 6

/-- Instructions that set FPSTAT and trap by R144 and R145: the class of floating point, and DPF8, DPF4, PCVT, MXSC (R170). -/
def fpHolds (d : Desc) : Bool := classOf d.op == some 1 || d.op == 0x49 || d.op == 0x4A || d.op == 0x4B || d.op == 0x4D

/-- What an issue leaves with a member group: its next issue, its checks, yielding until another group of the partition issues
(R35, R92, R145, R319). -/
def Group.stamp (g : Group) (clk : Nat) (c : Ctl) (d : Desc) (pen : Nat) (yields wanted : Bool) : Group :=
  { g with
    nextIssue := max g.nextIssue (clk + 1 + c.stall.toNat + pen)
    lastIssue := clk
    heldSince := none
    checks := lateChecked d
    drain := fpHolds d && fld g.fpstat.toNat 8 5 != 0
    yielding := g.yielding || yields
    outgoing := wanted
    stepOne := false
    broke := false }

/-- Every member group of a wider-scope instance, those too whose lanes have all signed: its STALL applies in each (R98). -/
def State.instanceKeys (s : State) : List GKey :=
  if s.cur.ordinary || !s.cur.wide then []
  else match s.issuer with
    | some g => ((s.members g s.cur.scope).filter (fun x => x.live != 0)).map (·.key)
    | none => []

/-- The issue is over: timing of the members, and the partition's turn (R35, R364, R365). -/
def State.stampAll (s : State) (c : Ctl) (d : Desc) (pen : Nat) (yieldNow : Bool) : State :=
  let ends := s.cur.yieldBit && s.cur.pos.left ≤ 1
  let keys := s.cur.members.map (·.key)
  let pks := (s.cur.members.filterMap (fun m => s.group? m.key)).map (fun g => (g.pkey, g.slot))
  let all := s.instanceKeys
  let s1 := s.modGroups (fun g0 =>
    let g := if all.contains g0.key then { g0 with nextIssue := max g0.nextIssue (s.clk + 1 + c.stall.toNat + pen) } else g0
    if keys.contains g.key then
      g.stamp s.clk c d pen (yieldNow || ends) ((yieldNow || ends) && s.exchangeWanted g || s.goingOut g)
    else if pks.any (fun p => p.1 == g.pkey) then { g with yielding := false } else g)
  if s.cur.ordinary then
    pks.foldl (fun s p => s.modPart p.1 (fun x => { x with lastSlot := p.2 <|> x.lastSlot, freeAt := s.clk + 1 })) s1
  else s1

/-- The lanes of every member pass the instruction (R60, R98, R322). -/
def State.passAll (s : State) : State :=
  if s.cur.phase == .handler then
    match s.cur.members with
    | m :: _ => s.modGroup m.key (fun g => { g with hpc := s.cur.next, hpos := s.cur.pos.after })
    | [] => s
  else s.cur.members.foldl (fun s m => s.modGroup m.key (fun g => g.pass (m.lanes &&& g.live) s.cur.next s.cur.pos.after)) s

def State.onWalks (s : State) (d : Desc) (f : State → GKey → Nat → State) : State :=
  if d.walks.isEmpty then s
  else s.cur.members.foldl (fun s m => d.walks.foldl (fun s n => f s m.key n) s) s

def State.settleAll (s : State) : State := s.cur.members.foldl (fun s m => s.settle m.key) s

/-- Branches: when one faults no lane moves, so that the lanes without a fault come to it again (R68). -/
def isBranch : Instr → Bool
  | .bra _ _ _ => true | .brc _ _ _ _ _ _ => true | .brx _ _ => true | .call _ _ _ _ => true
  | .callReg _ _ _ => true | .ret _ _ => true | _ => false

/-- The fault that decides: a request for a lost die halts the context whichever lane makes it (R343); else the lowest lane
of the lowest member (R209). -/
def decidingFault (ms : List Member) (fs : List LaneFault) : Option LaneFault :=
  fs.find? (fun f => f.code == .dieLost) <|> firstFault ms fs

/-- Take the fault of an issue in some lanes (R209, R110). -/
def State.faultOf (s : State) (branch : Bool) (sc : Scope) (fs : List LaneFault) : State :=
  match decidingFault s.cur.members fs with
  | none => s
  | some f =>
    let handler := s.cur.phase == .handler
    s.takeFault
      { scope := if handler then .lane else sc, code := f.code, pc := s.cur.pc, reg := f.reg, addr := f.addr,
        lanes := s.cur.members.map (fun m => (m.key, if handler then 0 else faultLanesOf fs m.key)),
        arrived := if branch then s.cur.members.map (fun m => (m.key, faultLanesOf fs m.key)) else s.faultArrived sc
        next := s.cur.next, pos := s.cur.pos.after }

def State.laneFault (s : State) (i : Instr) (c : Ctl) (fs : List LaneFault) : State := s.faultOf (isBranch i) c.scope fs

/-- Lanes of the issue stand as those of a complete instance do. -/
def State.isIssuing (s : State) : Bool :=
  s.cur.members.any (fun m => match s.group? m.key with
    | some g => (g.waiting (fun w => match w with | .issuing _ => true | _ => false) &&& m.lanes) != 0
    | none => false)

/-- Put an issue that is held back to where it waits: an instance or a replay waits among the instances, and so do
lanes that have used up their signature (R104). -/
def State.holdIssue (s : State) : State :=
  match s.cur.phase with
  | .instance_ => { s with instances := s.instances ++ [⟨s.clk, s.cur, true, false⟩] }
  | .replay => { s with instances := s.instances ++ [⟨s.clk, s.cur, true, false⟩] }
  | _ =>
    if s.isIssuing then { s with instances := s.instances ++ [⟨s.clk, { s.cur with phase := .instance_ }, true, false⟩] }
    else s.modGroups (fun g =>
      if s.cur.members.any (fun m => m.key == g.key) && g.heldSince.isNone then { g with heldSince := some s.clk } else g)

/-- The YIELD instruction yields from its issue (R92). -/
def yieldsNow : Instr → Bool
  | .yield _ => true | _ => false

/-- A single step ends with an arrival, unless the arrival has completed an instance, which issues within the step (R332). -/
def State.endStep (s : State) (k : GKey) : State :=
  let mine := fun (i : Issue) => i.members.any (fun m => m.key == k)
  if s.issuing.any mine || s.instances.any (fun x => x.step && mine x.iss) || s.completing.any (fun c => c.step) then s
  else s.modGroup k (fun g => { g with stepOne := false })

/-- What follows an effect. -/
def finish (i : Instr) (c : Ctl) (d : Desc) : Eff → State
  | .done s1 => (((s1.onWalks d (fun s k n => s.modGroup k (Group.qAdvance n))).passAll).stampAll c d 0 (yieldsNow i)).settleAll
  | .moved s1 pen => ((s1.onWalks d (fun s k n => s.modGroup k (Group.qAdvance n))).stampAll c d pen false).settleAll
  | .hold s1 => s1.holdIssue
  | .waits s1 => s1.cur.members.foldl (fun s m => s.endStep m.key) s1.settleAll
  | .fault s1 fs => ((s1.stampAll c d 0 false).laneFault i c fs).settleAll

/-- The step of a walk that an executing instruction would read met a fault (R89). -/
def State.walkFaults (s : State) (c : Ctl) (d : Desc) : List LaneFault :=
  if d.walks.isEmpty then []
  else (s.execs c).filterMap (fun x =>
    match d.walks.findSome? (fun n => (s.qFault x.1.key n).map (fun f => (n, f))) with
    | some (n, f, o) => some ⟨x.1.key, x.2, f, 0x340 + n, s.qFaultAddr x.1 n f o⟩
    | none => none)

/-- A walk's step that the issue must fetch now lies on a line in transit (R228). -/
def State.walkTransit (s : State) (d : Desc) : Bool :=
  s.cur.members.any (fun m => d.walks.any (fun n =>
    match s.qWanted m.key n with | some (g, b) => s.qTransit g b | none => false))

/-- The issue in the member groups that a walk does not make fault: the others execute in no lane. -/
def State.withoutLanes (s : State) (bad : List GKey) : State :=
  { s with cur := { s.cur with members := s.cur.members.map (fun m => if bad.contains m.key then { m with may := 0 } else m) } }

/-- An effect beside the walk faults of some member groups: it takes place in the others (R98, R209, R319), but where it is one for the
whole instance. -/
def besideFaults (whole : Bool) (fs : List LaneFault) (s : State) (eff : State → Eff) : Eff :=
  let t := s.withoutLanes (fs.map (·.key))
  if whole || t.cur.members.all (fun m => m.may == 0) then .fault s fs
  else
    let back := fun (x : State) => { x with cur := s.cur }
    match eff t with
    | .done x => .fault (back x) fs
    | .moved x _ => .fault (back x) fs
    | .waits x => .fault (back x) fs
    | .hold x => .hold (back x)
    | .fault x gs => .fault (back x) (fs ++ gs)

/-- An instruction whose accesses are performed at its issue, or by a unit of its own from then on. -/
def directAccess : Instr → Bool
  | .fact .. => true | .tblld .. => true | .msta .. => true | .mlda .. => true | .rowmap .. => true | .restripe .. => true
  | .nbkick .. => true | .ldsp .. => true | .stsp .. => true | .tlook .. => true | .tset .. => true | .tclr .. => true
  | .copy .. => true | .copyShadow .. => true | .blkcpy .. => true | .shadow .. => true | .publish .. => true | .barr .. => true
  | .barw .. => true | .mbput .. => true | .mbget .. => true | .mbtry .. => true | .vld .. => true | .vlds .. => true
  | .vst .. => true | .recon .. => true
  | _ => false

/-- Such accesses come after the acquires that the issuing groups have made (R218, R220, R289, R299). -/
def State.pastAcquires (s : State) : State := s.cur.members.foldl (fun s m => s.letPass m.key m.lanes (fun _ => true)) s

/- ### In-place lanes, whose last check is made as they are performed (R238, R319) -/

/-- The in-place lanes of the issue are performed. -/
def State.performIps (s : State) : State := s.cur.members.foldl (fun s m => s.performNeed m.key Pending.isInPlace) s

/-- The faults of the lanes that have met a bad word. -/
def State.ipFaults (s : State) (reg : Nat) : List LaneFault :=
  s.cur.members.flatMap (fun m => match s.group? m.key with
    | some g => g.ipBad.map (fun x => ⟨m.key, x.1, .eccUncorr, reg, BitVec.ofNat 64 x.2⟩)
    | none => [])

/-- The groups of the issue with other marks of an in-place instruction whose checks are not decided. -/
def State.setDeciding (s : State) (d : Option Deciding) : State :=
  s.modGroups (fun g => if s.cur.members.any (fun m => m.key == g.key) then
    { g with deciding := d, ipBad := if d.isSome then g.ipBad else [], checks := g.checks && d.isSome } else g)

/-- The checks of an in-place instruction are decided, its lanes performed: they pass it, or those that met a bad word fault (R209, R238,
R319). -/
def State.decideChecks (s : State) (d : Deciding) : State :=
  let s1 := State.performIps { s with cur := d.iss }
  let fs := s1.ipFaults d.reg
  let s2 := s1.setDeciding none
  { (if fs.isEmpty then s2.passAll else s2.faultOf false d.scope fs).settleAll with cur := s.cur }

/-- Run an instruction that issues now; it waits while its scoreboard stands at 63 (R37), and while a walk's step that it must have
fetched lies on a line in transit (R228). A group whose walk faults has no effect; the other member groups have theirs. -/
def run (i : Instr) (c : Ctl) (d : Desc) (s : State) (eff : State → Eff) : State :=
  let s1 := (if directAccess i then s.pastAcquires else s).onWalks d State.qEnsure
  let wf := s1.walkFaults c d
  if d.lat == .var && (s.cur.members.filterMap (fun m => s.group? m.key)).any (fun g => 63 ≤ nth 0 g.sb s.cur.sb) || s.walkTransit d then
    finish i c d (.hold s)
  else if wf.isEmpty then finish i c d (eff s1)
  else
    let whole := d.await == .once
    let mk := (s1.fpMarkers c d).filter (fun f => whole || wf.any (fun w => w.key == f.key))
    finish i c d (besideFaults whole (markersFirst mk wf) ((s1.onWalks d State.qMiss).onWalks d State.qForget) eff)

/- ### Arrival at a wider scope (R97, R103, R104) -/

/-- The lanes whose signature for the scope names the open generation, and those whose names a complete one. -/
def State.signedLanes (s : State) (g : Group) (sc : Scope) (lanes : Mask) : Mask × Mask :=
  let openGen := s.gen (g.convReg sc) + 1
  (lanes &&& maskOf (fun i => nth none (g.sig sc) i == some openGen),
   lanes &&& maskOf (fun i => match nth none (g.sig sc) i with | some x => x != openGen | none => false))

/-- Lanes reach a wider-scope instruction: they arrive and are held, or are held by their signature (R97, R103, R104);
with .await the lanes whose generation is complete issue it for themselves, with an acquire at team scope (R100). -/
def arrive (i : Instr) (c : Ctl) (d : Desc) (s : State) (g : Group) (m : Member) (eff : State → Eff) : State :=
  let sg := s.signedLanes g c.scope m.lanes
  let fresh := m.lanes &&& ~~~sg.1 &&& ~~~sg.2
  let openGen := s.gen (g.convReg c.scope) + 1
  if c.await then
    let s1 := s.modGroup m.key (fun g =>
      { (g.setWait sg.1 (.awaiting c.scope openGen)).setWait fresh (.held c.scope) with
        heldSince := none, arrivedAt := if fresh == 0 then g.arrivedAt else s.tick })
    if sg.2 == 0 then (s1.settle m.key).endStep m.key
    else
      let s2 := s1.modGroup m.key (fun g => ((g.fillSig c.scope sg.2 none).setWait sg.2 (.issuing c.scope)).dropAhead)
      run i c d { s2 with cur := { s2.cur with phase := .awaited, members := [{ m with lanes := sg.2, may := sg.2 }] } } eff
  else
    let s1 := s.modGroup m.key (fun g =>
      { ((g.fillSig c.scope sg.2 none).setWait sg.1 (.sigHold c.scope openGen)).setWait (fresh ||| sg.2) (.held c.scope) with
        heldSince := none, arrivedAt := s.tick })
    (s1.settle m.key).endStep m.key

/-- How an instruction is reached at a wider scope: lanes arrive at a rendezvous, or act at once as SIGN does (R103). -/
def issueWith (local_ : Bool) (i : Instr) (c : Ctl) (s : State) (eff : State → Eff) : Host.Outcome State Fault Refusal :=
  match i.desc, s.cur.members, s.issuer with
  | some d, m :: _, some g =>
    if s.cur.phase == .instance_ then
      match instanceShort i c d s with
      | some f => .next (s.takeFault f).settleAll
      | none => .next (run i c d s eff)
    else match precheck i c d s g with
      | some f => .next ((s.takeFault f).settle m.key)
      | none =>
        if c.scope == .lane || s.cur.phase == .handler || s.cur.phase == .replay || local_ then .next (run i c d s eff)
        else .next (arrive i c d s g m eff)
  | _, _, _ => .fault .noIssuer

/-- THE ISSUE of an encoded instruction, common to all of them: its checks, then arrival or its effect. -/
def issue (i : Instr) (c : Ctl) (s : State) (eff : State → Eff) : Host.Outcome State Fault Refusal :=
  issueWith false i c s eff

end Sys2Proof.Machine
end

