-- ==== Sys2Proof/Machine/Operands.lean ====
section
/-! DEFINITION. Operand forms of the integer and float classes: values at a width (R118), the vector and the scalar
form (R117), and results written back. -/

namespace Sys2Proof.Machine

/-- The integer that a word, or a pair, holds at a type (R118). -/
def intVal (it : IT) (lo hi : Word) : Int :=
  let x := if it.bits = 64 then lo.toNat + hi.toNat * 2 ^ 32 else lo.toNat
  if it.signed then sext it.bits x else ((x % 2 ^ it.bits : Nat) : Int)

/-- The high word of a 32-bit source of a 64-bit operand: extended by the type (R118). -/
def extWord (it : IT) (lo : Word) : Word := if it.signed && lo.getLsbD 31 then BitVec.allOnes 32 else 0

/-- The operand is a register file's, so that its 64-bit form is a pair. -/
def pairOpd (o : Opd) : Bool := o.isV || o.isS || o.isY

/-- A source at a type, in every lane. -/
def State.ints (s : State) (g : Group) (f : Nat) (it : IT) (o : Opd) : List Int :=
  let lo := s.vec g f 0 o
  if it.bits = 64 then
    if pairOpd o then List.zipWith (intVal it) lo (s.vec g f 1 o) else lo.map (fun x => intVal it x (extWord it x))
  else lo.map (fun x => intVal it x 0)

/-- A source at a type, read once. -/
def State.int1 (s : State) (g : Group) (f : Nat) (it : IT) (o : Opd) : Int :=
  let lo := s.scal g f 0 o
  if it.bits = 64 then intVal it lo (if pairOpd o then s.scal g f 1 o else extWord it lo) else intVal it lo 0

/-- The 64-bit number that a result takes when it is written at a type: its low bits, extended (R118). -/
def resNat (it : IT) (r : Int) : Nat := itExtend it (lowBits it.bits r)

/-- The writes of a result of `run` registers, lane by lane or once. -/
def resWrites (d : Opd) (run : Nat) (m : Mask) (xs : List Nat) : List Write :=
  (List.range run).flatMap (fun j => writeVec d j m (xs.map (fun x => halfWord x j)))
def resWrites1 (d : Opd) (run : Nat) (x : Nat) : List Write :=
  (List.range run).flatMap (fun j => writeScal d j (halfWord x j))

/-- The writes of one member group for a vector or a scalar destination (R117). -/
def groupWrites (d : Opd) (run : Nat) (m : Mask) (vecR : Unit → List Nat) (scalR : Unit → Nat) : List Write :=
  if d.isScalarDst then resWrites1 d run (scalR ()) else resWrites d run m (vecR ())

/-- The per-lane effect of a fixed-latency instruction: each member group with an executing lane computes from its
own files and queues its result (R98, R117, R395). -/
def State.perLane (s : State) (c : Ctl) (lat : Nat) (f : Group → Mask → List Write) : State :=
  (s.execs c).foldl (fun s1 x => if x.2 == 0 then s1 else s1.putFixed x.1.key lat (f x.1 x.2)) s

/-- The same for a Lat V instruction: every member counts on its scoreboard (R37). -/
def State.perLaneVar (s : State) (c : Ctl) (f : Group → Mask → List Write) : State :=
  (s.execs c).foldl (fun s1 x => s1.putVar x.1.key (if x.2 == 0 then [] else f x.1 x.2)) s

/-- An elementwise integer instruction of one source. -/
def intUnary (c : Ctl) (src dst : IT) (d a : Opd) (op : Int → Int) (s : State) : Eff :=
  .done (s.perLane c 4 (fun g m =>
    groupWrites d dst.run m (fun _ => (s.ints g 1 src a).map (fun x => resNat dst (op x)))
      (fun _ => resNat dst (op (s.int1 g 1 src a)))))

/-- An elementwise integer instruction of two sources, saturating where asked (R121). -/
def intBinary (c : Ctl) (it : IT) (ib : IT) (sat : Bool) (d a b : Opd) (op : Int → Int → Int) (s : State) : Eff :=
  let post := fun r => resNat it (if sat then clampTo it r else r)
  .done (s.perLane c 4 (fun g m =>
    groupWrites d it.run m
      (fun _ => List.zipWith (fun x y => post (op x y)) (s.ints g 1 it a) (s.ints g 2 ib b))
      (fun _ => post (op (s.int1 g 1 it a) (s.int1 g 2 ib b)))))

/-- An elementwise integer instruction of three sources. -/
def intTernary (c : Ctl) (it ib ie : IT) (d a b e : Opd) (op : Int → Int → Int → Int) (s : State) : Eff :=
  .done (s.perLane c 4 (fun g m =>
    groupWrites d it.run m
      (fun _ => zip3 (fun x y z => resNat it (op x y z)) (s.ints g 1 it a) (s.ints g 2 ib b) (s.ints g 3 ie e))
      (fun _ => resNat it (op (s.int1 g 1 it a) (s.int1 g 2 ib b) (s.int1 g 3 ie e)))))

end Sys2Proof.Machine
end

