-- ==== Sys2Proof/Machine/Integer.lean ====
section
/-! DEFINITION. Integer instructions, OP 0x18 to 0x23 (R121 to R128): none faults on its values or sets a flag (R120). -/

namespace Sys2Proof.Machine

/-- IADD (R122). -/
def execIadd (c : Ctl) (it : IT) (sat : Bool) (d a b : Opd) (s : State) : Host.Outcome State Fault Refusal :=
  issue (.iadd c it sat d a b) c s (intBinary c it it sat d a b (fun x y => x + y))

/-- ISUB (R122). -/
def execIsub (c : Ctl) (it : IT) (sat : Bool) (d a b : Opd) (s : State) : Host.Outcome State Fault Refusal :=
  issue (.isub c it sat d a b) c s (intBinary c it it sat d a b (fun x y => x - y))

def bInt (b : Bool) : Int := if b then 1 else 0

/-- The n bits of a value of a type, read as unsigned (R123). -/
def unsInt (it : IT) (x : Int) : Int := (lowBits it.bits x : Nat)

/-- IADDC and ISUBB: the sum or difference with the lane's carry bit, and the new carry (R123); a 32-bit source of a 64-bit
operand is extended by the type before it is read as unsigned (R118). -/
def carryEff (c : Ctl) (it : IT) (d a b : Opd) (k : MReg) (op : Int → Int → Int → Int) (out : Int → Bool) (s : State) : Eff :=
  .done (s.perLane c 4 (fun g m =>
    let cin := (List.range W).map (fun i => bInt (laneBit (s.mask g 3 k) i))
    let rs := zip3 op ((s.ints g 1 it a).map (unsInt it)) ((s.ints g 2 it b).map (unsInt it)) cin
    resWrites d it.run m (rs.map (resNat it)) ++ [.m k.val m (maskOfList (rs.map out))]))

/-- IADDC (R123). -/
def execIaddc (c : Ctl) (it : IT) (d a b : Opd) (m : MReg) (s : State) : Host.Outcome State Fault Refusal :=
  issue (.iaddc c it d a b m) c s (carryEff c it d a b m (fun x y k => x + y + k) (fun r => decide ((2 ^ it.bits : Nat) ≤ r)))

/-- ISUBB (R123). -/
def execIsubb (c : Ctl) (it : IT) (d a b : Opd) (m : MReg) (s : State) : Host.Outcome State Fault Refusal :=
  issue (.isubb c it d a b m) c s (carryEff c it d a b m (fun x y k => x - y - k) (fun r => decide (r < 0)))

/-- IMUL (R122). -/
def execImul (c : Ctl) (it : IT) (d a b : Opd) (s : State) : Host.Outcome State Fault Refusal :=
  issue (.imul c it d a b) c s (intBinary c it it false d a b (fun x y => x * y))

/-- IMULH: the high half of the 2n-bit product (R122). -/
def execImulh (c : Ctl) (it : IT) (d a b : Opd) (s : State) : Host.Outcome State Fault Refusal :=
  issue (.imulh c it d a b) c s (intBinary c it it false d a b (fun x y => (x * y) / ((2 ^ it.bits : Nat) : Int)))

/-- IMAD (R122). -/
def execImad (c : Ctl) (it : IT) (d a b e : Opd) (s : State) : Host.Outcome State Fault Refusal :=
  issue (.imad c it d a b e) c s (intTernary c it it it d a b e (fun x y z => x * y + z))

/-- IMIN (R122). -/
def execImin (c : Ctl) (it : IT) (d a b : Opd) (s : State) : Host.Outcome State Fault Refusal :=
  issue (.imin c it d a b) c s (intBinary c it it false d a b min)

/-- IMAX (R122). -/
def execImax (c : Ctl) (it : IT) (d a b : Opd) (s : State) : Host.Outcome State Fault Refusal :=
  issue (.imax c it d a b) c s (intBinary c it it false d a b max)

/-- IABS: the minimum of the type returns itself (R122). -/
def execIabs (c : Ctl) (it : IT) (d a : Opd) (s : State) : Host.Outcome State Fault Refusal :=
  issue (.iabs c it d a) c s (intUnary c it it d a (fun x => if x < 0 then -x else x))

/-- The low `n` bits of an operand as a natural number. -/
def uns (n : Nat) (x : Int) : Nat := lowBits n x

/-- The shift count: the low 8 bits of B (R122). -/
def shAmt (y : Int) : Nat := lowBits 8 y

/-- SHL (R122). -/
def execShl (c : Ctl) (it : IT) (d a b : Opd) (s : State) : Host.Outcome State Fault Refusal :=
  issue (.shl c it d a b) c s (intBinary c it .w32 false d a b
    (fun x y => if it.bits ≤ shAmt y then 0 else x * ((2 ^ shAmt y : Nat) : Int)))

/-- SHR, logical (R122). -/
def execShr (c : Ctl) (it : IT) (d a b : Opd) (s : State) : Host.Outcome State Fault Refusal :=
  issue (.shr c it d a b) c s (intBinary c it .w32 false d a b
    (fun x y => if it.bits ≤ shAmt y then 0 else ((uns it.bits x / 2 ^ shAmt y : Nat) : Int)))

/-- SAR, arithmetic on the n bits read as signed (R122). -/
def execSar (c : Ctl) (it : IT) (d a b : Opd) (s : State) : Host.Outcome State Fault Refusal :=
  issue (.sar c it d a b) c s (intBinary c it .w32 false d a b
    (fun x y => sext it.bits (uns it.bits x) / ((2 ^ min (shAmt y) it.bits : Nat) : Int)))

/-- ROTL: rotate left by s mod n (R122). -/
def execRotl (c : Ctl) (it : IT) (d a b : Opd) (s : State) : Host.Outcome State Fault Refusal :=
  issue (.rotl c it d a b) c s (intBinary c it .w32 false d a b
    (fun x y =>
      let k := shAmt y % it.bits
      ((uns it.bits x * 2 ^ k % 2 ^ it.bits + uns it.bits x / 2 ^ (it.bits - k) : Nat) : Int)))

/-- BFX's field, extended from bit len − 1 by the type (R124). -/
def bfxOp (it : IT) (x p l : Int) : Int :=
  let pos := lowBits 8 p
  let len := min (lowBits 8 l) it.bits
  let fldv := uns it.bits x / 2 ^ pos % 2 ^ len
  if len = 0 then 0 else if it.signed then sext len fldv else (fldv : Int)

/-- BFX (R124). -/
def execBfx (c : Ctl) (it : IT) (d a pos len : Opd) (s : State) : Host.Outcome State Fault Refusal :=
  issue (.bfx c it d a pos len) c s (intTernary c it .w32 .w32 d a pos len (bfxOp it))

/-- BFI's result: b with its bits [pos + len − 1 : pos] replaced by the low len bits of a (R124). -/
def bfiOp (it : IT) (x y f : Int) : Int :=
  let pos := lowBits 8 f
  let len := lowBits 16 f / 256
  let base := uns it.bits y
  let old := base / 2 ^ pos % 2 ^ len
  (((base - old * 2 ^ pos) + uns it.bits x % 2 ^ len * 2 ^ pos : Nat) : Int)

/-- BFI (R124). -/
def execBfi (c : Ctl) (it : IT) (d a b f : Opd) (s : State) : Host.Outcome State Fault Refusal :=
  issue (.bfi c it d a b f) c s (intTernary c it it .w32 d a b f (bfiOp it))

/-- Count of ones in the low `n` bits. -/
def popNat (x : Nat) : Nat → Nat
  | 0 => 0
  | n + 1 => x % 2 + popNat (x / 2) n

/-- Trailing zeros in `n` bits. -/
def ctzNat (x : Nat) : Nat → Nat
  | 0 => 0
  | n + 1 => if x % 2 = 1 then 0 else 1 + ctzNat (x / 2) n

/-- The `n` bits in reverse order. -/
def revNat (x : Nat) : Nat → Nat
  | 0 => 0
  | n + 1 => x % 2 * 2 ^ n + revNat (x / 2) n

/-- POPC (R122). -/
def execPopc (c : Ctl) (it : IT) (d a : Opd) (s : State) : Host.Outcome State Fault Refusal :=
  issue (.popc c it d a) c s (intUnary c it .w32 d a (fun x => (popNat (uns it.bits x) it.bits : Int)))

/-- CLZ: the trailing zeros of the reversed bits (R122). -/
def execClz (c : Ctl) (it : IT) (d a : Opd) (s : State) : Host.Outcome State Fault Refusal :=
  issue (.clz c it d a) c s (intUnary c it .w32 d a (fun x => (ctzNat (revNat (uns it.bits x) it.bits) it.bits : Int)))

/-- CTZ (R122). -/
def execCtz (c : Ctl) (it : IT) (d a : Opd) (s : State) : Host.Outcome State Fault Refusal :=
  issue (.ctz c it d a) c s (intUnary c it .w32 d a (fun x => (ctzNat (uns it.bits x) it.bits : Int)))

/-- BREV (R122). -/
def execBrev (c : Ctl) (it : IT) (d a : Opd) (s : State) : Host.Outcome State Fault Refusal :=
  issue (.brev c it d a) c s (intUnary c it it d a (fun x => (revNat (uns it.bits x) it.bits : Int)))

/-- ICMP's test (R125). -/
def predTest (p : Pred) (x y : Int) : Bool :=
  match p with
  | .eq => x == y | .ne => x != y | .lt => decide (x < y) | .le => decide (x ≤ y)
  | .gt => decide (y < x) | .ge => decide (y ≤ x)

/-- A test written as ICMP writes it: 1 or 0, or the mask bits of the executing lanes (R125). -/
def testWrites (d : Opd) (m : Mask) (vecT : Unit → List Bool) (scalT : Unit → Bool) : List Write :=
  match d with
  | .m k => [.m k.val m (maskOfList (vecT ()))]
  | _ => groupWrites d 1 m (fun _ => (vecT ()).map b2n) (fun _ => b2n (scalT ()))

/-- ICMP (R125). -/
def execIcmp (c : Ctl) (it : IT) (p : Pred) (d a b : Opd) (s : State) : Host.Outcome State Fault Refusal :=
  issue (.icmp c it p d a b) c s (fun s => .done (s.perLane c 4 (fun g m =>
    testWrites d m (fun _ => List.zipWith (predTest p) (s.ints g 1 it a) (s.ints g 2 it b))
      (fun _ => predTest p (s.int1 g 1 it a) (s.int1 g 2 it b)))))

/-- A source as raw words (R126). -/
def State.raws (s : State) (g : Group) (f : Nat) (o : Opd) : List Nat := (s.vec g f 0 o).map (·.toNat)
def State.raw1 (s : State) (g : Group) (f : Nat) (o : Opd) : Nat := (s.scal g f 0 o).toNat

/-- ISEL (R126). -/
def execIsel (c : Ctl) (d a b e : Opd) (s : State) : Host.Outcome State Fault Refusal :=
  issue (.isel c d a b e) c s (fun s => .done (s.perLane c 4 (fun g m =>
    groupWrites d 1 m
      (fun _ => zip3 (fun x y z => if z ≠ 0 then x else y) (s.raws g 1 a) (s.raws g 2 b) (s.raws g 3 e))
      (fun _ => if s.raw1 g 3 e ≠ 0 then s.raw1 g 1 a else s.raw1 g 2 b))))

/-- MOV (R126). -/
def execMov (c : Ctl) (d a : Opd) (s : State) : Host.Outcome State Fault Refusal :=
  issue (.mov c d a) c s (fun s => .done (s.perLane c 4 (fun g m =>
    groupWrites d 1 m (fun _ => s.raws g 1 a) (fun _ => s.raw1 g 1 a))))

/-- MOVW's result: one half replaced (R126). -/
def movwOp (hi : Bool) (imm : BitVec 16) (x : Nat) : Nat :=
  if hi then x % 2 ^ 16 + imm.toNat * 2 ^ 16 else x / 2 ^ 16 * 2 ^ 16 + imm.toNat

/-- MOVW (R126). -/
def execMovw (c : Ctl) (hi : Bool) (d a : Opd) (imm : BitVec 16) (s : State) : Host.Outcome State Fault Refusal :=
  issue (.movw c hi d a imm) c s (fun s => .done (s.perLane c 4 (fun g m =>
    groupWrites d 1 m (fun _ => (s.raws g 1 a).map (movwOp hi imm)) (fun _ => movwOp hi imm (s.raw1 g 1 a)))))

/-- MOVI (R126). -/
def execMovi (c : Ctl) (d : Opd) (imm : Word) (s : State) : Host.Outcome State Fault Refusal :=
  issue (.movi c d imm) c s (fun s => .done (s.perLane c 4 (fun _ m =>
    groupWrites d 1 m (fun _ => List.replicate W imm.toNat) (fun _ => imm.toNat))))

/-- CVTI (R127). -/
def execCvti (c : Ctl) (dst src : IT) (sat : Bool) (d a : Opd) (s : State) : Host.Outcome State Fault Refusal :=
  issue (.cvti c dst src sat d a) c s (intUnary c src dst d a (fun x => if sat then clampTo dst x else x))

/-- BITFN at one bit position: k[4c + 2b + a] (R128). -/
def bitfnAt (k : Nat) (x y z i : Nat) : Nat :=
  b2n (bitOf k (4 * b2n (bitOf z i) + 2 * b2n (bitOf y i) + b2n (bitOf x i)))

/-- BITFN over the low `n` bits (R128). -/
def bitfnNat (k x y z : Nat) : Nat → Nat
  | 0 => 0
  | n + 1 => bitfnAt k x y z n * 2 ^ n + bitfnNat k x y z n

/-- BITFN (R128). -/
def execBitfn (c : Ctl) (k : BitVec 8) (d a b e : Opd) (s : State) : Host.Outcome State Fault Refusal :=
  issue (.bitfn c k d a b e) c s (fun s => .done (s.perLane c 4 (fun g m =>
    groupWrites d 1 m
      (fun _ => zip3 (fun x y z => bitfnNat k.toNat x y z 32) (s.raws g 1 a) (s.raws g 2 b) (s.raws g 3 e))
      (fun _ => bitfnNat k.toNat (s.raw1 g 1 a) (s.raw1 g 2 b) (s.raw1 g 3 e) 32))))

end Sys2Proof.Machine
end

