-- ==== Sys2Proof/Machine/Float.lean ====
section
/-! DEFINITION. Floating-point and SFU instructions, OP 0x30 to 0x40 but for the activation tables (R146 to R158). -/

namespace Sys2Proof.Machine

/- ### The shared effect (R145, R146, R148) -/

def faultMask (fs : List LaneFault) : Mask := fs.foldl (fun m f => m ||| f.lanes) 0

/-- What one group's lanes compute: the results with their flags, lane by lane or once. -/
structure FpOut where
  vec : Unit → List (Nat × Fl)
  scal : Unit → Nat × Fl

/-- How the results of a group are written: to registers of a run, or as a test (R125, R151). -/
inductive FpDst where
  | run (n : Nat)
  | test

/-- What one member group does in a floating-point instruction (R145, R146, R148): its marker faults, flags, traps and
results; `s` is the state that the sources are read from. -/
def fpStep (lat : Option Nat) (d : Opd) (how : FpDst) (srcs : List (Nat × Opd)) (out : State → Group → FpOut) (s : State)
    (acc : State × List LaneFault) (x : Group × Mask) : State × List LaneFault :=
  let g := x.1
  let m := x.2
  let scalar := d.isScalarDst
  let mf := if s.nomark g.ctx then [] else s.markerFaults g scalar m srcs
  let live := m &&& ~~~(faultMask mf)
  let o := out s g
  let rs := if scalar then List.replicate W (o.scal ()) else o.vec ()
  let en := enablesOf g.fpstat
  let fls := rs.map (·.2)
  let trapped := if en = 0 then 0 else live &&& maskOfList (fls.map (traps en))
  let ok := live &&& ~~~trapped
  let fl := if live == 0 then 0 else flOrLanes live 0 fls
  let ws := (match how with
    | .run n => groupWrites d n ok (fun _ => rs.map (·.1)) (fun _ => (nth (0, 0) rs 0).1)
    | .test => testWrites d ok (fun _ => rs.map (fun r => r.1 != 0)) (fun _ => (nth (0, 0) rs 0).1 != 0))
  let ws := (if ok == 0 then [] else ws) ++ (if fl = 0 then [] else [.flags (BitVec.ofNat 5 fl)])
  let tf := if trapped == 0 then [] else [LaneFault.mk g.key trapped .fpTrap 0 0]
  let s1 := match lat with
    | some n => if m == 0 then acc.1 else acc.1.putFixed g.key n ws
    | none => acc.1.putVar g.key ws
  (s1, acc.2 ++ mf ++ tf)

/-- The shared effect of a floating-point instruction (R148): its member groups one after another. -/
def fpEff (c : Ctl) (lat : Option Nat) (d : Opd) (how : FpDst) (srcs : List (Nat × Opd))
    (out : State → Group → FpOut) (s : State) : Eff :=
  let r := (s.execs c).foldl (fpStep lat d how srcs out s) (s, [])
  if r.2.isEmpty then .done r.1 else .fault r.1 r.2

/- ### Operands at a format (R136, R143) -/

/-- The code of an inline constant, converted exactly (R143); of an integer that a narrow format cannot hold the spec states
no code, and it is a free value of the format and the constant (assumption 84). -/
def immCode (f : FFmt) (k : BitVec 7) : Nat :=
  let z := fpRound f .rne false 0 (fvOfInt k.toInt)
  if z.2 = flNone then z.1 else (Config.immOpen f.ebits f.mbits k).toNat % 2 ^ f.bits

/-- A source field as codes of a format, in every lane. -/
def State.fvec (s : State) (g : Group) (n : Nat) (f : FFmt) (o : Opd) : List FV :=
  match o with
  | .imm k => List.replicate W (fpDecode f (immCode f k))
  | _ => (s.vec g n 0 o).map (fun x => fpDecode f (x.toNat % 2 ^ f.bits))

/-- The same, read once. -/
def State.fscal (s : State) (g : Group) (n : Nat) (f : FFmt) (o : Opd) : FV :=
  match o with
  | .imm k => fpDecode f (immCode f k)
  | _ => fpDecode f ((s.scal g n 0 o).toNat % 2 ^ f.bits)

/-- The random values of the lanes of a group under .sr, and of the scalar form (R142). -/
def State.draws (s : State) (c : Ctl) (g : Group) (r : Rnd) (seed : Opd) : List Nat :=
  if r = .sr then (List.range W).map (fun i => srDraw (s.scal g 3 0 seed) (s.laneBase g c.scope + i))
  else List.replicate W 0
def State.draw1 (s : State) (g : Group) (r : Rnd) (seed : Opd) : Nat :=
  if r = .sr then srDraw (s.scal g 3 0 seed) 0 else 0

/-- A two-operand arithmetic instruction (R149). -/
def fpBinary (c : Ctl) (ft : FT) (r : Rnd) (sat : Bool) (d a b seed : Opd) (op : FV → FV → FV × Fl) (s : State) : Eff :=
  let f := ftFmt ft
  fpEff c (some 6) d (.run 1) [(1, a), (2, b)] (fun s g =>
    { vec := fun _ => zip3 (fun x y u => fpFinish f r sat u (op x y)) (s.fvec g 1 f a) (s.fvec g 2 f b) (s.draws c g r seed)
      scal := fun _ => fpFinish f r sat (s.draw1 g r seed) (op (s.fscal g 1 f a) (s.fscal g 2 f b)) }) s

/-- FADD (R149). -/
def execFadd (c : Ctl) (ft : FT) (r : Rnd) (sat : Bool) (d a b seed : Opd) (s : State) : Host.Outcome State Fault Refusal :=
  issue (.fadd c ft r sat d a b seed) c s (fpBinary c ft r sat d a b seed (fvAdd r))

/-- FSUB (R149). -/
def execFsub (c : Ctl) (ft : FT) (r : Rnd) (sat : Bool) (d a b seed : Opd) (s : State) : Host.Outcome State Fault Refusal :=
  issue (.fsub c ft r sat d a b seed) c s (fpBinary c ft r sat d a b seed (fun x y => fvAdd r x y.negate))

/-- FMUL (R149). -/
def execFmul (c : Ctl) (ft : FT) (r : Rnd) (sat : Bool) (d a b seed : Opd) (s : State) : Host.Outcome State Fault Refusal :=
  issue (.fmul c ft r sat d a b seed) c s (fpBinary c ft r sat d a b seed fvMul)

/-- FFMA (R149). -/
def execFfma (c : Ctl) (ft : FT) (r : Rnd) (d a b e : Opd) (s : State) : Host.Outcome State Fault Refusal :=
  issue (.ffma c ft r d a b e) c s (fun s =>
    let f := ftFmt ft
    fpEff c (some 6) d (.run 1) [(1, a), (2, b), (3, e)] (fun s g =>
      { vec := fun _ => zip3 (fun x y z => fpFinish f r false 0 (fvFma r x y z)) (s.fvec g 1 f a) (s.fvec g 2 f b) (s.fvec g 3 f e)
        scal := fun _ => fpFinish f r false 0 (fvFma r (s.fscal g 1 f a) (s.fscal g 2 f b) (s.fscal g 3 f e)) }) s)

/-- FMIN (R150). -/
def execFmin (c : Ctl) (ft : FT) (d a b : Opd) (s : State) : Host.Outcome State Fault Refusal :=
  issue (.fmin c ft d a b) c s (fpBinary c ft .rne false d a b (.v 0) (fvMinMax false false))

/-- FMAX (R150). -/
def execFmax (c : Ctl) (ft : FT) (d a b : Opd) (s : State) : Host.Outcome State Fault Refusal :=
  issue (.fmax c ft d a b) c s (fpBinary c ft .rne false d a b (.v 0) (fvMinMax true false))

/-- FMINN (R150). -/
def execFminn (c : Ctl) (ft : FT) (d a b : Opd) (s : State) : Host.Outcome State Fault Refusal :=
  issue (.fminn c ft d a b) c s (fpBinary c ft .rne false d a b (.v 0) (fvMinMax false true))

/-- FMAXN (R150). -/
def execFmaxn (c : Ctl) (ft : FT) (d a b : Opd) (s : State) : Host.Outcome State Fault Refusal :=
  issue (.fmaxn c ft d a b) c s (fpBinary c ft .rne false d a b (.v 0) (fvMinMax true true))

/-- FCMP's test and its flag (R151). -/
def fcmpOp (p : FPred) (x y : FV) : Nat × Fl :=
  let nan := x.isNan || y.isNan
  let ordered := match p with | .lt => true | .le => true | .gt => true | .ge => true | _ => false
  let fl := if x.isSnan || y.isSnan || (ordered && nan) then flNV else flNone
  let t := match p with
    | .eq => !nan && fvEq x y | .ne => nan || !fvEq x y
    | .lt => !nan && fvLt x y | .le => !nan && !fvLt y x
    | .gt => !nan && fvLt y x | .ge => !nan && !fvLt x y
    | .ord => !nan | .unord => nan
  (b2n t, fl)

/-- FCMP (R151). -/
def execFcmp (c : Ctl) (ft : FT) (p : FPred) (d a b : Opd) (s : State) : Host.Outcome State Fault Refusal :=
  issue (.fcmp c ft p d a b) c s (fun s =>
    let f := ftFmt ft
    fpEff c (some 6) d .test [(1, a), (2, b)] (fun s g =>
      { vec := fun _ => List.zipWith (fcmpOp p) (s.fvec g 1 f a) (s.fvec g 2 f b)
        scal := fun _ => fcmpOp p (s.fscal g 1 f a) (s.fscal g 2 f b) }) s)

/-- FCLASS's class word of a code, less its marker bit (R152). -/
def fclassOp (f : FFmt) (x : FV) : Nat :=
  match x with
  | .nan sg => if sg then 2 ^ 8 else 2 ^ 9
  | .inf neg => if neg then 1 else 2 ^ 7
  | .fin neg m e =>
    if m = 0 then (if neg then 2 ^ 3 else 2 ^ 4)
    else if magLt m e 1 (1 - (f.bias : Int)) then (if neg then 2 ^ 2 else 2 ^ 5)
    else (if neg then 2 else 2 ^ 6)

/-- FCLASS (R152). -/
def execFclass (c : Ctl) (ft : FT) (d a : Opd) (s : State) : Host.Outcome State Fault Refusal :=
  issue (.fclass c ft d a) c s (fun s =>
    let f := ftFmt ft
    fpEff c (some 6) d (.run 1) [] (fun s g =>
      { vec := fun _ => List.zipWith (fun x w => (fclassOp f x + (if isMarker w then 2 ^ 10 else 0), flNone))
          (s.fvec g 1 f a) (s.vec g 1 0 a)
        scal := fun _ => (fclassOp f (s.fscal g 1 f a) + (if isMarker (s.scal g 1 0 a) then 2 ^ 10 else 0), flNone) }) s)

/- ### Conversion (R153) -/

/-- The integer type of a TC. -/
def tcIt : TC → IT
  | .i8 => .i8 | .i16 => .i16 | .i32 => .i32 | .i64 => .i64
  | .w8 => .w8 | .w16 => .w16 | .w32 => .w32 | _ => .w64

/-- FCVT to a float format (R153). -/
def cvtToFloat (f : FFmt) (r : Rnd) (sat : Bool) (u : Nat) (x : FV) : Nat × Fl :=
  match x with
  | .nan sg => if f.hasNan then (f.nan, if sg then flNV else flNone) else (0, flNV)
  | .inf neg =>
    if f.hasInf then (f.infCode neg, flNone)
    else if f.hasNan then (if sat then (f.maxFin neg, flNX) else (f.nan, flOr flOF flNX))
    else (f.maxFin neg, flNX)
  | .fin _ _ _ => fpRound f r sat u x

/-- FCVT to an integer type (R153): the number, before it is written at the type. -/
def cvtToInt (it : IT) (r : Rnd) (sat : Bool) (x : FV) : Int × Fl :=
  match x with
  | .nan _ => (0, flNV)
  | .inf neg => (if neg then itMin it else itMax it, if sat then flNX else flNV)
  | .fin neg m e =>
    let z := fvToInt r neg m (max e (-400))
    let v : Int := if neg then -(z.1 : Int) else z.1
    if v < itMin it then (itMin it, if sat then flNX else flNV)
    else if itMax it < v then (itMax it, if sat then flNX else flNV)
    else (v, if z.2 then flNX else flNone)

/-- A source of FCVT, by its type code. -/
def State.cvtSrc (s : State) (g : Group) (src : TC) (a : Opd) : List FV :=
  if src.isInt then (s.ints g 1 (tcIt src) a).map fvOfInt else s.fvec g 1 (tcFmt src) a
def State.cvtSrc1 (s : State) (g : Group) (src : TC) (a : Opd) : FV :=
  if src.isInt then fvOfInt (s.int1 g 1 (tcIt src) a) else s.fscal g 1 (tcFmt src) a

/-- One conversion (R153). -/
def cvtOp (dst : TC) (r : Rnd) (sat : Bool) (u : Nat) (x : FV) : Nat × Fl :=
  if dst.isInt then let z := cvtToInt (tcIt dst) r sat x; (resNat (tcIt dst) z.1, z.2)
  else cvtToFloat (tcFmt dst) r sat u x

/-- FCVT (R153). -/
def execFcvt (c : Ctl) (dst src : TC) (r : Rnd) (sat : Bool) (d a seed : Opd) (s : State) : Host.Outcome State Fault Refusal :=
  issue (.fcvt c dst src r sat d a seed) c s (fun s =>
    fpEff c (some 6) d (.run (if dst.is64 then 2 else 1)) (if src.isInt then [] else [(1, a)]) (fun s g =>
      { vec := fun _ => List.zipWith (fun x u => cvtOp dst r sat u x) (s.cvtSrc g src a) (s.draws c g r seed)
        scal := fun _ => cvtOp dst r sat (s.draw1 g r seed) (s.cvtSrc1 g src a) }) s)

/- ### Integral rounding, scaling, square root (R154, R155) -/

/-- FRND's result (R154): no NX. -/
def frndOp (f : FFmt) (r : Rnd) (x : FV) : Nat × Fl :=
  match x with
  | .nan sg => (f.nan, if sg then flNV else flNone)
  | .inf neg => (f.infCode neg, flNone)
  | .fin neg m e =>
    if m = 0 then (f.signBit neg, flNone)
    else
      let z := fvToInt r neg m e
      ((fpRound f .rne false 0 (.fin neg z.1 0)).1, flNone)

/-- FRND (R154). -/
def execFrnd (c : Ctl) (ft : FT) (r : Rnd) (d a : Opd) (s : State) : Host.Outcome State Fault Refusal :=
  issue (.frnd c ft r d a) c s (fun s =>
    let f := ftFmt ft
    fpEff c (some 6) d (.run 1) [(1, a)] (fun s g =>
      { vec := fun _ => (s.fvec g 1 f a).map (frndOp f r), scal := fun _ => frndOp f r (s.fscal g 1 f a) }) s)

/-- FSCALE's result: a × 2^n, the exponent held to a range past which no result changes (R154). -/
def fscaleOp (f : FFmt) (r : Rnd) (x : FV) (n : Int) : Nat × Fl :=
  match x with
  | .nan sg => (f.nan, if sg then flNV else flNone)
  | .inf neg => (f.infCode neg, flNone)
  | .fin neg m e => fpRound f r false 0 (.fin neg m (e + max (-2000) (min 2000 n)))

/-- FSCALE (R154). -/
def execFscale (c : Ctl) (ft : FT) (r : Rnd) (d a n : Opd) (s : State) : Host.Outcome State Fault Refusal :=
  issue (.fscale c ft r d a n) c s (fun s =>
    let f := ftFmt ft
    fpEff c (some 6) d (.run 1) [(1, a)] (fun s g =>
      { vec := fun _ => List.zipWith (fscaleOp f r) (s.fvec g 1 f a) (s.ints g 2 .i32 n)
        scal := fun _ => fscaleOp f r (s.fscal g 1 f a) (s.int1 g 2 .i32 n) }) s)

/-- FSQRT (R155). -/
def execFsqrt (c : Ctl) (ft : FT) (r : Rnd) (d a : Opd) (s : State) : Host.Outcome State Fault Refusal :=
  issue (.fsqrt c ft r d a) c s (fun s =>
    let f := ftFmt ft
    fpEff c none d (.run 1) [(1, a)] (fun s g =>
      { vec := fun _ => (s.fvec g 1 f a).map (fun x => fpFinish f r false 0 (fvSqrt x))
        scal := fun _ => fpFinish f r false 0 (fvSqrt (s.fscal g 1 f a)) }) s)

/- ### The special-function unit (R156, R157) -/

/-- The exact special values of the SFU functions (R157): the result at FP32 and its flags, or none where R156's error
bound alone holds. FDIVS with one infinite operand, or with 0 over a finite one, has an exact quotient that R157's table does
not list: it raises NX as every other result does. Functions by FN: 0 FRCP, 1 FRSQ, 2 FDIVS, 3 FEXP2, 4 FLOG2, 5 FSIN, 6 FCOS, 7 FTANH, 8 FSIGM. -/
def sfuSpecial (fn : Nat) (x y : FV) : Option (FV × Fl) :=
  if x.isNan || (fn = 2 && y.isNan) then some (.nan false, if x.isSnan || (fn = 2 && y.isSnan) then flNV else flNone)
  else match fn with
  | 0 => if x.isZero then some (.inf x.neg, flDZ) else if x.isInf then some (.fin x.neg 0 0, flNone) else none
  | 1 =>
    if x.isZero then some (.inf x.neg, flDZ)
    else if x.neg then some (.nan false, flNV)
    else if x.isInf then some (.fin false 0 0, flNone) else none
  | 2 =>
    let n := x.neg != y.neg
    if x.isZero && y.isZero then some (.nan false, flNV)
    else if x.isInf && y.isInf then some (.nan false, flNV)
    else if x.isInf then some (.inf n, flNX)
    else if y.isInf || x.isZero then some (.fin n 0 0, flNX)
    else if y.isZero then some (.inf n, flDZ) else none
  | 3 =>
    if x.isInf then some (if x.neg then .fin false 0 0 else .inf false, flNone)
    else if x.isZero then some (.fin false 1 0, flNone) else none
  | 4 =>
    if x.isZero then some (.inf true, flDZ)
    else if x.neg then some (.nan false, flNV)
    else if x.isInf then some (.inf false, flNone)
    else if fvEq x (.fin false 1 0) then some (.fin false 0 0, flNone) else none
  | 5 => if x.isInf then some (.nan false, flNV) else if x.isZero then some (.fin x.neg 0 0, flNone) else none
  | 6 => if x.isInf then some (.nan false, flNV) else none
  | 7 => if x.isInf then some (.fin x.neg 1 0, flNone) else if x.isZero then some (.fin x.neg 0 0, flNone) else none
  | _ =>
    if x.isInf then some (if x.neg then .fin false 0 0 else .fin false 1 0, flNone)
    else if x.isZero then some (.fin false 1 (-1), flNone) else none

/-- The FP32 code of an exactly widened operand (R156). -/
def widen32 (x : FV) : Word := BitVec.ofNat 32 (fpRound fmtF32 .rne false 0 x).1

/-- The magnitude is below the smallest normal of a format (R141). -/
def FV.tiny (f : FFmt) : FV → Bool
  | .fin _ m e => magLt m e 1 (1 - (f.bias : Int))
  | _ => false

/-- Flags of a result outside R157's table, which counts as inexact: NX, with OF where the FP32 result `r` passes the largest
finite value, and UF where the result `z` at FT is tiny (R141, R157). -/
def sfuInexact (f : FFmt) (r : FV) (z : Nat) : Fl :=
  flOr flNX (if r.isInf then flOF else if (fpDecode f z).tiny f then flUF else flNone)

/-- An SFU function at FT: in FP32 from the widened operand, rounded once to FT under .rne (R156). The FP32 result
is a free value of the operands within R156's bound (assumption 15). -/
def sfuOp (ft : FT) (fn : Nat) (x y : FV) : Nat × Fl :=
  let f := ftFmt ft
  match sfuSpecial fn x y with
  | some (r, fl) => ((fpRound f .rne false 0 r).1, fl)
  | none =>
    let xw := widen32 x
    let yw := if fn = 2 then widen32 y else 0
    let r := sfuWithin fn x y (Config.sfu fn xw yw)
    let z := fpRound f .rne false 0 r
    (z.1, flOr (sfuInexact f r z.1) z.2)

/-- An SFU instruction (R156). -/
def sfuEff (c : Ctl) (ft : FT) (fn : Nat) (d a b : Opd) (s : State) : Eff :=
  let f := ftFmt ft
  fpEff c none d (.run 1) (if fn = 2 then [(1, a), (2, b)] else [(1, a)]) (fun s g =>
    { vec := fun _ => List.zipWith (sfuOp ft fn) (s.fvec g 1 f a) (s.fvec g 2 f b)
      scal := fun _ => sfuOp ft fn (s.fscal g 1 f a) (s.fscal g 2 f b) }) s

/-- FRCP (R156). -/
def execFrcp (c : Ctl) (ft : FT) (d a : Opd) (s : State) : Host.Outcome State Fault Refusal :=
  issue (.frcp c ft d a) c s (sfuEff c ft 0 d a a)
/-- FRSQ (R156). -/
def execFrsq (c : Ctl) (ft : FT) (d a : Opd) (s : State) : Host.Outcome State Fault Refusal :=
  issue (.frsq c ft d a) c s (sfuEff c ft 1 d a a)
/-- FDIVS (R156). -/
def execFdivs (c : Ctl) (ft : FT) (d a b : Opd) (s : State) : Host.Outcome State Fault Refusal :=
  issue (.fdivs c ft d a b) c s (sfuEff c ft 2 d a b)
/-- FEXP2 (R156). -/
def execFexp2 (c : Ctl) (ft : FT) (d a : Opd) (s : State) : Host.Outcome State Fault Refusal :=
  issue (.fexp2 c ft d a) c s (sfuEff c ft 3 d a a)
/-- FLOG2 (R156). -/
def execFlog2 (c : Ctl) (ft : FT) (d a : Opd) (s : State) : Host.Outcome State Fault Refusal :=
  issue (.flog2 c ft d a) c s (sfuEff c ft 4 d a a)
/-- FSIN (R156). -/
def execFsin (c : Ctl) (ft : FT) (d a : Opd) (s : State) : Host.Outcome State Fault Refusal :=
  issue (.fsin c ft d a) c s (sfuEff c ft 5 d a a)
/-- FCOS (R156). -/
def execFcos (c : Ctl) (ft : FT) (d a : Opd) (s : State) : Host.Outcome State Fault Refusal :=
  issue (.fcos c ft d a) c s (sfuEff c ft 6 d a a)
/-- FTANH (R156). -/
def execFtanh (c : Ctl) (ft : FT) (d a : Opd) (s : State) : Host.Outcome State Fault Refusal :=
  issue (.ftanh c ft d a) c s (sfuEff c ft 7 d a a)
/-- FSIGM (R156). -/
def execFsigm (c : Ctl) (ft : FT) (d a : Opd) (s : State) : Host.Outcome State Fault Refusal :=
  issue (.fsigm c ft d a) c s (sfuEff c ft 8 d a a)

/- ### Packed pairs (R158) -/

/-- A source's two halves at FT; an inline constant stands in both (R143). -/
def halves (f : FFmt) (w : Word) : FV × FV := (fpDecode f (w.toNat % 2 ^ 16), fpDecode f (w.toNat / 2 ^ 16))
def State.pvec (s : State) (g : Group) (n : Nat) (f : FFmt) (o : Opd) : List (FV × FV) :=
  match o with
  | .imm k => List.replicate W (fpDecode f (immCode f k), fpDecode f (immCode f k))
  | _ => (s.vec g n 0 o).map (halves f)
def State.pscal (s : State) (g : Group) (n : Nat) (f : FFmt) (o : Opd) : FV × FV :=
  match o with
  | .imm k => (fpDecode f (immCode f k), fpDecode f (immCode f k))
  | _ => halves f (s.scal g n 0 o)

def swapIf (b : Bool) (x : FV × FV) : FV × FV := if b then (x.2, x.1) else x

/-- Two half results in one register, their flags ORed (R158). -/
def packHalves (x y : Nat × Fl) : Nat × Fl := (x.1 + y.1 * 2 ^ 16, flOr x.2 y.2)

/-- PRADD and PRMUL: element 2i + h draws its own random value under .sr (R142, R158). DESIGN CHOICE: in scalar form half h
draws for element h, where R142's lines for the scalar form and for a packed pair both speak (assumption 85). -/
def pairBinary (c : Ctl) (ft : FT) (r : Rnd) (swb : Bool) (d a b seed : Opd) (op : FV → FV → FV × Fl) (s : State) : Eff :=
  let f := ftFmt ft
  let one := fun (u0 u1 : Nat) (x y : FV × FV) =>
    let y := swapIf swb y
    packHalves (fpFinish f r false u0 (op x.1 y.1)) (fpFinish f r false u1 (op x.2 y.2))
  let dr := fun (s : State) (g : Group) (e : Nat) => if r = .sr then srDraw (s.scal g 3 0 seed) e else 0
  fpEff c (some 6) d (.run 1) [(1, a), (2, b)] (fun s g =>
    { vec := fun _ => zip3 (fun i x y => one (dr s g (2 * i)) (dr s g (2 * i + 1)) x y)
        ((List.range W).map (fun i => s.laneBase g c.scope + i)) (s.pvec g 1 f a) (s.pvec g 2 f b)
      scal := fun _ => one (dr s g 0) (dr s g 1) (s.pscal g 1 f a) (s.pscal g 2 f b) }) s

/-- PRADD (R158). -/
def execPradd (c : Ctl) (ft : FT) (r : Rnd) (swb : Bool) (d a b seed : Opd) (s : State) : Host.Outcome State Fault Refusal :=
  issue (.pradd c ft r swb d a b seed) c s (pairBinary c ft r swb d a b seed (fvAdd r))
/-- PRMUL (R158). -/
def execPrmul (c : Ctl) (ft : FT) (r : Rnd) (swb : Bool) (d a b seed : Opd) (s : State) : Host.Outcome State Fault Refusal :=
  issue (.prmul c ft r swb d a b seed) c s (pairBinary c ft r swb d a b seed fvMul)

/-- PRFMA (R158). -/
def execPrfma (c : Ctl) (ft : FT) (r : Rnd) (swb : Bool) (d a b e : Opd) (s : State) : Host.Outcome State Fault Refusal :=
  issue (.prfma c ft r swb d a b e) c s (fun s =>
    let f := ftFmt ft
    let one := fun (x y z : FV × FV) =>
      let y := swapIf swb y
      packHalves (fpFinish f r false 0 (fvFma r x.1 y.1 z.1)) (fpFinish f r false 0 (fvFma r x.2 y.2 z.2))
    fpEff c (some 6) d (.run 1) [(1, a), (2, b), (3, e)] (fun s g =>
      { vec := fun _ => zip3 one (s.pvec g 1 f a) (s.pvec g 2 f b) (s.pvec g 3 f e)
        scal := fun _ => one (s.pscal g 1 f a) (s.pscal g 2 f b) (s.pscal g 3 f e) }) s)

end Sys2Proof.Machine
end

