-- ==== Sys2Proof/Machine/Control.lean ====
section
/-! DEFINITION. Control instructions, OP 0x00 to 0x07 (R64 to R93). -/

namespace Sys2Proof.Machine

/-- The group of a LANE-scope issue, its member record and its executing lanes. -/
def onGroup (c : Ctl) (s : State) (f : Group → Member → Mask → Eff) : Eff :=
  match s.cur.members with
  | m :: _ => (match s.group? m.key with | some g => f g m (s.execLanes c m) | none => .done s)
  | [] => .done s

/-- A fault of the whole instruction, in every lane that stands at it. DESIGN CHOICE (log 88): also where a guard leaves some of them
out, since no rule says which lanes a LOOP_SETUP fault names. -/
def wholeFault (s : State) (m : Member) (code : FaultCode) (reg : Nat) (addr : BitVec 64) : Eff :=
  .fault s [⟨m.key, m.lanes, code, reg, addr⟩]

/-- A fault of an instruction that acts once, in its executing lanes (R325, R340). -/
def execFault (s : State) (m : Member) (e : Mask) (code : FaultCode) (reg : Nat) (addr : BitVec 64) : Eff :=
  .fault s [⟨m.key, e, code, reg, addr⟩]

/-- NOP (R93). -/
def execNop (c : Ctl) (s : State) : Host.Outcome State Fault Refusal := issue (.nop c) c s (fun s => .done s)

/-- YIELD (R92): `finish` makes the group yield. -/
def execYield (c : Ctl) (s : State) : Host.Outcome State Fault Refusal := issue (.yield c) c s (fun s => .done s)

/- ### Branches (R65 to R69) -/

/-- What a branch target fails (R63, R68). -/
def State.targetFault (s : State) (g : Group) (t : Word) : Option FaultCode :=
  if t.toNat % 4 ≠ 0 then some .addrMisalign else if s.inImage g t then none else some .addrBounds

/-- Send lanes to an address that is a clause header; in a handler, its thread (R322). -/
def State.goTo (s : State) (k : GKey) (m : Mask) (t : Word) : State :=
  if s.cur.phase == .handler then s.modGroup k (fun g => { g with hpc := t, hpos := none })
  else s.modGroup k (fun g => g.moveLanes (m &&& g.live) t none)

/-- Branch penalty with a hint (R65). -/
def hintPenalty (h : Hint) (taken executing : Nat) : Nat :=
  if taken = 0 then (match h with | .lk => 4 | _ => 0)
  else if taken = executing then (match h with | .lk => 0 | .un => 0 | _ => 4)
  else (match h with | .un => 8 | _ => 4)

/-- Penalty of a branch to a register target (R65). -/
def indirectPenalty (ts : List Word) : Nat :=
  if ts.isEmpty then 0 else 4 + 2 * (ts.dedup.length - 1)

/-- A branch (R67, R68): the executing lanes for which `tgt` gives a target go there and the others at the issue point
fall through; when a target fails its checks no lane moves. `link` is queued when the branch does not fault. -/
def jumpEff (c : Ctl) (tgt : State → Group → Nat → Option Word) (link : Mask → List Write)
    (pen : List Word → Nat → Nat) (s : State) : Eff :=
  onGroup c s (fun g m e =>
    let takes := (lanesOf e).filterMap (fun i => (tgt s g i).map (fun t => (i, t)))
    let bad := takes.filterMap (fun x => (s.targetFault g x.2).map (fun f =>
      LaneFault.mk g.key (BitVec.ofNat 64 (2 ^ x.1)) f 0 (x.2.zeroExtend 64)))
    if !bad.isEmpty then .fault s bad
    else
      let s1 := match link e with | [] => s | ws => s.putFixed g.key 4 ws
      let s2 := s1.goTo g.key m.lanes s.cur.next
      .moved (takes.foldl (fun s x => s.goTo g.key (BitVec.ofNat 64 (2 ^ x.1)) x.2) s2)
        (pen (takes.map (·.2)) (popMask e)))

/-- The direct target (R67). -/
def directTarget (s : State) (off : BitVec 18) : Word := s.cur.pc + 4 * off.signExtend 32

/-- BRA (R67). -/
def execBra (c : Ctl) (hint : Hint) (off : BitVec 18) (s : State) : Host.Outcome State Fault Refusal :=
  issue (.bra c hint off) c s
    (jumpEff c (fun s _ _ => some (directTarget s off)) (fun _ => []) (fun ts n => hintPenalty hint ts.length n))

/-- Flag E[dim] of a walk (R85, R87); 0 when the register is unbound. -/
def qFlag (g : Group) (q dim : Nat) : Bool :=
  match regQ g q with
  | some b => b.empty || (if dim = 0 then b.e0 else if dim = 1 then b.e1 else b.e2)
  | none => false

/-- The condition of BRC in a lane (R67). -/
def brcTest (s : State) (g : Group) (neg : Bool) (dim : Nat) (a : Opd) (i : Nat) : Bool :=
  let t := match a with
    | .q n => qFlag g n.toNat dim
    | _ => nth 0 (s.vec g 1 0 a) i != 0
  t != neg

/-- BRC (R67). -/
def execBrc (c : Ctl) (neg : Bool) (dim : Fin 3) (a : Opd) (hint : Hint) (off : BitVec 18) (s : State) :
    Host.Outcome State Fault Refusal :=
  issue (.brc c neg dim a hint off) c s
    (jumpEff c (fun s g i => if brcTest s g neg dim.val a i then some (directTarget s off) else none) (fun _ => [])
      (fun ts n => hintPenalty hint ts.length n))

/-- BRX, CALL and RET fault LOOP_SETUP while a loop level is active (R81). -/
def noLoops (c : Ctl) (eff : State → Eff) (s : State) : Eff :=
  onGroup c s (fun g m _ => if g.levels.isEmpty then eff s else wholeFault s m .loopSetup 0 0)

/-- The target in a register, lane by lane (R68). -/
def regTarget (f : Nat) (t : Opd) (s : State) (g : Group) (i : Nat) : Option Word := some (nth 0 (s.vec g f 0 t) i)

/-- BRX (R68). -/
def execBrx (c : Ctl) (t : Opd) (s : State) : Host.Outcome State Fault Refusal :=
  issue (.brx c t) c s (noLoops c (jumpEff c (regTarget 1 t) (fun _ => []) (fun ts _ => indirectPenalty ts)))

/-- The write of a return address (R69). -/
def linkWrites (k : Opd) (next : Word) (e : Mask) : List Write :=
  if e == 0 then [] else writeVec k 0 e (List.replicate W next)

/-- CALL, direct (R69). -/
def execCall (c : Ctl) (k : Opd) (hint : Hint) (off : BitVec 18) (s : State) : Host.Outcome State Fault Refusal :=
  issue (.call c k hint off) c s
    (noLoops c (fun s => jumpEff c (fun s _ _ => some (directTarget s off)) (linkWrites k s.cur.next)
      (fun ts n => hintPenalty hint ts.length n) s))

/-- CALL with a register target (R69). -/
def execCallReg (c : Ctl) (k t : Opd) (s : State) : Host.Outcome State Fault Refusal :=
  issue (.callReg c k t) c s
    (noLoops c (fun s => jumpEff c (regTarget 1 t) (linkWrites k s.cur.next) (fun ts _ => indirectPenalty ts) s))

/-- RET (R69). -/
def execRet (c : Ctl) (k : Opd) (s : State) : Host.Outcome State Fault Refusal :=
  issue (.ret c k) c s (noLoops c (jumpEff c (regTarget 0 k) (fun _ => []) (fun ts _ => indirectPenalty ts)))

/-- Lanes exit: counters, mask bits and signatures (R59, R70, R103). -/
def Group.exitLanes (g : Group) (e : Mask) : Group :=
  let none_ := fun (x : List (Option (BitVec 16))) =>
    (List.range W).map (fun i => if laneBit e i then none else nth none x i)
  { g with
    pcs := mergeLanes e g.pcs (List.replicate W 0xFFFFFFFF)
    clause := (List.range W).map (fun i => if laneBit e i then none else nth none g.clause i)
    wait := (List.range W).map (fun i => if laneBit e i then .free else nth .free g.wait i)
    m := g.m.map (fun x => x &&& ~~~e)
    sigG := none_ g.sigG, sigP := none_ g.sigP, sigT := none_ g.sigT
    live := g.live &&& ~~~e
    slot := if g.live &&& ~~~e == 0 then none else g.slot }

/-- EXIT (R70). -/
def execExit (c : Ctl) (s : State) : Host.Outcome State Fault Refusal :=
  issue (.exit c) c s (fun s => onGroup c s (fun g m e =>
    let s1 := (s.goTo g.key (m.lanes &&& ~~~e) s.cur.next).modGroup g.key (fun g => g.exitLanes e)
    .moved (if g.live &&& ~~~e == 0 then s1.groupEnded g else s1) 0))

/- ### Masks (R71 to R75) -/

/-- JOIN (R72): it takes effect before the group's next issue. -/
def execJoin (c : Ctl) (m : MReg) (s : State) : Host.Outcome State Fault Refusal :=
  issue (.join c m) c s (fun s => onGroup c s (fun g _ e =>
    .done (s.modGroup g.key (fun g => { g with m := modAt g.m m.val (fun x => x ||| e) }))))

/-- LEAVE (R72). -/
def execLeave (c : Ctl) (m : MReg) (s : State) : Host.Outcome State Fault Refusal :=
  issue (.leave c m) c s (fun s => onGroup c s (fun g _ e =>
    .done (s.modGroup g.key (fun g => { g with m := modAt g.m m.val (fun x => x &&& ~~~e) }))))

/-- WAITM (R73): the executing lanes park, the others pass; the release is `releaseMask`. -/
def execWaitm (c : Ctl) (m : MReg) (s : State) : Host.Outcome State Fault Refusal :=
  issue (.waitm c m) c s (fun s => onGroup c s (fun g mb e =>
    .moved (s.modGroup g.key (fun g =>
      ((g.pass (mb.lanes &&& ~~~e &&& g.live) s.cur.next s.cur.pos.after).setWait (e &&& g.live) (.parked m)))) 0))

/-- MOP's operation on whole masks (R72). -/
def mopOp (op : MopOp) (x y : Mask) : Mask :=
  match op with | .and => x &&& y | .or => x ||| y | .xor => x ^^^ y | .andn => x &&& ~~~y

/-- MOP (R72): every bit is written whatever the guard. -/
def execMop (c : Ctl) (op : MopOp) (d a b : MReg) (s : State) : Host.Outcome State Fault Refusal :=
  issue (.mop c op d a b) c s (fun s => onGroup c s (fun g _ _ =>
    .done (s.putFixed g.key 4 [.m d.val allLanes (mopOp op (s.mask g 1 a) (s.mask g 2 b))])))

/-- A word written once to a scalar, or in the executing lanes of a vector register; nothing when no lane executes
(R60, R117). -/
def wordWrites (d : Opd) (e : Mask) (x : Word) : List Write :=
  if e == 0 then [] else if d.isScalarDst then writeScal d 0 x else writeVec d 0 e (List.replicate W x)

/-- MCNT (R72). -/
def execMcnt (c : Ctl) (d : Opd) (a : MReg) (s : State) : Host.Outcome State Fault Refusal :=
  issue (.mcnt c d a) c s (fun s => onGroup c s (fun g _ e =>
    .done (s.putFixed g.key 4 (wordWrites d e (BitVec.ofNat 32 (popMask (s.mask g 1 a)))))))

/-- MFROM (R72): a whole mask from a vector register's tests or from two scalars. -/
def execMfrom (c : Ctl) (d : MReg) (a : Opd) (s : State) : Host.Outcome State Fault Refusal :=
  issue (.mfrom c d a) c s (fun s => onGroup c s (fun g _ e =>
    let x : Mask := if a.isS then pairOf (s.scal g 1 0 a) (s.scal g 1 1 a)
      else e &&& maskOfList ((s.vec g 1 0 a).map (· != 0))
    .done (s.putFixed g.key 4 [.m d.val allLanes x])))

/-- MTO (R72). DESIGN CHOICE (log 89): to a scalar it writes nothing where no lane executes, which R72 does not say. -/
def execMto (c : Ctl) (d : Opd) (a : MReg) (s : State) : Host.Outcome State Fault Refusal :=
  issue (.mto c d a) c s (fun s => onGroup c s (fun g _ e =>
    let x := s.mask g 1 a
    .done (s.putFixed g.key 4
      (if e == 0 then [] else if d.isS then writeScal d 0 (loWord x) ++ writeScal d 1 (hiWord x)
       else writeVec d 0 e ((List.range W).map (fun i => if laneBit x i then 1 else 0))))))

/- ### Loops (R76 to R84) -/

/-- Walk the clauses of a loop body up to its exit: instructions counted, the last one's base word, and whether the
exit follows a clause's end (R78). -/
def State.loopBody (s : State) (g : Group) (exit : Word) (a : Word) (n : Nat) (last : Word) : Nat → Nat × Word × Bool
  | 0 => (n, last, a == exit)
  | fuel + 1 =>
    if a == exit then (n, last, true)
    else if exit.toNat < a.toNat then (n, last, false)
    else
      let r := s.instrs g (a + 4) (hdrN (s.codeWord g a))
      s.loopBody g exit r.2 (n + r.1.length) ((r.1.getLast?.map (·.2)).getD last) fuel

/-- A control instruction other than NOP or YIELD (R78). -/
def badLoopEnd (w : Word) : Bool := wOp w ≤ 0x0F && !(wOp w == 0 && wFn w ≤ 1)

/-- The checks of R78 hold. -/
def State.loopOk (s : State) (g : Group) (lc : Nat) (len : Nat) (bound : Bool) : Bool :=
  let start := s.cur.next
  let exit := start + BitVec.ofNat 32 (4 * len)
  let b := s.loopBody g exit start 0 0 (len + 1)
  let inside := match g.levels.getLast? with
    | some l => l.start.toNat ≤ start.toNat && exit.toNat ≤ l.exit.toNat
    | none => true
  g.levels.length < 3 && lc == g.levels.length && len != 0 && b.1 ≤ 256 && s.cur.pos.left ≤ 1 && b.2.2 &&
    !badLoopEnd b.2.1 && inside && bound

/-- The effect of LOOP and LOOPQ when the setup is legal (R79): the counter is written at once. -/
def State.enterLoop (s : State) (g : Group) (m : Mask) (lc len : Nat) (skip : Bool) (kind : LoopKind) (count : Word) : State :=
  let start := s.cur.next
  let exit := start + BitVec.ofNat 32 (4 * len)
  s.modGroup g.key (fun g =>
    let g1 := { g with lc := setAt g.lc lc (if skip then 0 else count) }
    if skip then g1.moveLanes (m &&& g.live) exit none
    else ({ g1 with levels := g1.levels ++ [LoopLevel.mk start exit kind] }).moveLanes (m &&& g.live) start none)

/-- LOOP (R78, R79). -/
def execLoop (c : Ctl) (lc : LcReg) (count : Opd) (len : BitVec 10) (s : State) : Host.Outcome State Fault Refusal :=
  issue (.loop c lc count len) c s (fun s => onGroup c s (fun g m _ =>
    let n := s.scal g 1 0 count
    if s.loopOk g lc.val len.toNat true then .moved (s.enterLoop g m.lanes lc.val len.toNat (n == 0) .count n) 0
    else wholeFault s m .loopSetup 0 0))

/-- LOOPQ (R78, R79): it does not advance the walk. -/
def execLoopq (c : Ctl) (lc : LcReg) (q : QReg) (len : BitVec 10) (dim : Fin 3) (s : State) : Host.Outcome State Fault Refusal :=
  issue (.loopq c lc q len dim) c s (fun s => onGroup c s (fun g m _ =>
    let empty := match regQ g q.toNat with | some b => b.empty | none => false
    if s.loopOk g lc.val len.toNat (regQ g q.toNat).isSome then
      .moved (s.enterLoop g m.lanes lc.val len.toNat empty (.queue q dim) 0) 0
    else wholeFault s m .loopSetup 0 0))

/-- LBRK (R82). -/
def execLbrk (c : Ctl) (n : Fin 3) (s : State) : Host.Outcome State Fault Refusal :=
  issue (.lbrk c n) c s (fun s => onGroup c s (fun g m e =>
    match g.levels.reverse[n.val]? with
    | none => wholeFault s m .loopSetup 0 0
    | some l => .moved ((s.goTo g.key m.lanes s.cur.next).goTo g.key e l.exit) 0))

/- ### Stream registers (R85 to R91) -/

/-- The lowest and the highest byte of every step over the lanes (R86). -/
def QBind.low (b : QBind) : Int :=
  b.b.toInt + min 0 (63 * b.ls.toInt) + min 0 (((b.n0.toNat : Int) - 1) * b.st0.toInt) +
    min 0 (((b.n1.toNat : Int) - 1) * b.st1.toInt) + min 0 (((b.n2.toNat : Int) - 1) * b.st2.toInt)
def QBind.high (b : QBind) : Int :=
  b.b.toInt + max 0 (63 * b.ls.toInt) + max 0 (((b.n0.toNat : Int) - 1) * b.st0.toInt) +
    max 0 (((b.n1.toNat : Int) - 1) * b.st1.toInt) + max 0 (((b.n2.toNat : Int) - 1) * b.st2.toInt) + b.it.bits / 8 - 1

/-- The check of a whole walk as one read of the buffer, up to its kind (R86, R207, R208). -/
def State.bindFault (s : State) (ctx : Nat) (b : QBind) : Option FaultCode :=
  let e := s.entry (hIndex b.handle)
  if !handleOk b.handle e then some .addrBounds
  else if b.low < 0 || (e.len : Int) ≤ b.high then some .addrBounds
  else if !(if e.kind = 1 then e.vr else e.rd) then some .addrRights
  else if e.owner ≠ ctx then some .addrOwner
  else if e.kind = 2 then some .verKind
  else none

/-- QBIND (R86): a failed check leaves the register unbound. DESIGN CHOICE (log 88): its fault names every lane at the issue point,
the register that holds the handle, and the walk's lowest byte modulo 2^32; R86 gives none of the three. -/
def execQbind (c : Ctl) (q : QReg) (h d : SReg) (it : IT) (s : State) : Host.Outcome State Fault Refusal :=
  issue (.qbind c q h d it) c s (fun s => onGroup c s (fun g m x =>
    let w := fun (j : Nat) => s.scal g 2 j (.s d)
    let empty := w 2 == 0 || w 4 == 0 || w 6 == 0
    let b : QBind :=
      { handle := s.scal g 1 0 (.s h), it := it, b := w 0, ls := w 1, n0 := w 2, st0 := w 3, n1 := w 4,
        st1 := w 5, n2 := w 6, st2 := w 7, i0 := 0, i1 := 0, i2 := 0, e0 := empty, e1 := empty, e2 := empty, ahead := [] }
    if x == 0 then .done (s.putVar g.key [])
    else if empty then .done (s.putVar g.key [.q q.toNat (some b)])
    else match s.bindFault g.ctx b with
      | some f => wholeFault (s.modGroup g.key (fun g => { g with q := setAt g.q q.toNat none })) m f (0x100 + h.toNat)
          (BitVec.ofInt 64 (b.low % 2 ^ 32))
      | none => .done (s.putVar g.key [.q q.toNat (some b)])))

/-- QSTAT's word (R90). -/
def qstatWord (b : Option QBind) (sel : Nat) : Nat :=
  match b with
  | none => 0
  | some b =>
    if sel = 0 then 1 + 2 * b2n b.empty + 4 * b2n (b.empty || b.e0) + 8 * b2n (b.empty || b.e1) + 16 * b2n (b.empty || b.e2)
    else if sel = 1 then b.i0 else if sel = 2 then b.i1 else b.i2

/-- QSTAT (R90). -/
def execQstat (c : Ctl) (d : Opd) (q : QReg) (sel : Fin 4) (s : State) : Host.Outcome State Fault Refusal :=
  issue (.qstat c d q sel) c s (fun s => onGroup c s (fun g _ e =>
    .done (s.putFixed g.key 4 (wordWrites d e (BitVec.ofNat 32 (qstatWord (regQ g q.toNat) sel.val))))))

/-- QSKIP (R91). DESIGN CHOICE (log 89): it skips nothing where no lane executes. -/
def execQskip (c : Ctl) (q : QReg) (n : Opd) (s : State) : Host.Outcome State Fault Refusal :=
  issue (.qskip c q n) c s (fun s => onGroup c s (fun g _ e =>
    let k := if e == 0 then 0 else (s.scal g 1 0 n).toNat
    .done (s.modGroup g.key (fun g => { g with q := modAt g.q q.toNat (fun x => x.map (fun b =>
      if k = 0 || b.empty then b else { b.skip k with ahead := b.ahead.drop k })) }))))

end Sys2Proof.Machine
end

