-- ==== Sys2Proof/Machine/Sync.lean ====
section
/-! DEFINITION. Scope and convergence instructions, OP 0x10 and 0x11 (R112 to R116), and the spans of member groups
that they and the cross-lane instructions work over. -/

namespace Sys2Proof.Machine

/- ### Spans -/

/-- The member groups of the issue at its scope, exited ones included, in scope lane order (R95, R129). -/
def State.span (s : State) (c : Ctl) : List Group :=
  match s.issuer with
  | some g => s.members g c.scope
  | none => []

/-- The executing lanes of one group of the span. -/
def State.execOf (s : State) (c : Ctl) (k : GKey) : Mask :=
  match s.cur.members.find? (fun m => m.key == k) with
  | some m => s.execLanes c m
  | none => 0

/-- Executing scope lanes of a span, ascending: the scope lane number of each. -/
def State.spanExec (s : State) (c : Ctl) : List Nat :=
  ((s.span c).zipIdx).flatMap (fun x => (lanesOf (s.execOf c x.1.key)).map (fun i => x.2 * W + i))

/-- Every value of an operand over the span, scope lane 0 first. -/
def State.spanVec (s : State) (c : Ctl) (f j : Nat) (o : Opd) : Lanes := (s.span c).flatMap (fun g => s.vec g f j o)

/-- Queue writes in each member group that has a live lane; `k` is its place in the span and `e` its executing lanes. -/
def State.everyMember (s : State) (c : Ctl) (lat : Option Nat) (f : Nat → Mask → List Write) : State :=
  ((s.span c).zipIdx).foldl (fun s1 x =>
    if x.1.live == 0 then s1
    else match lat with
      | some n => s1.putFixed x.1.key n (f x.2 (s.execOf c x.1.key))
      | none => s1.putVar x.1.key (f x.2 (s.execOf c x.1.key))) s

/-- A word that each member gets: once in its scalar file, or in its executing lanes (R115, R116). -/
def memberWord (d : Opd) (x : Word) (e : Mask) : List Write :=
  if d.isScalarDst then writeScal d 0 x else if e == 0 then [] else writeVec d 0 e (List.replicate W x)

/-- A scalar source read once for the instance (R395). -/
def State.once (s : State) (f : Nat) (o : Opd) : Word :=
  match s.readerOf with | some g => s.scal g f 0 o | none => 0

/- ### The instructions -/

/-- SIGN's effect (R103, R112): lanes that signed the open generation already are held at the SIGN, which issues for them when
they are released; the others release their earlier accesses, sign and pass. -/
def signEff (c : Ctl) (s : State) : Eff :=
  match s.cur.members with
  | [] => .done s
  | m :: _ =>
    match s.group? m.key with
    | none => .done s
    | some g =>
      let openGen := s.gen (g.convReg c.scope) + 1
      let held := (s.signedLanes g c.scope m.lanes).1
      let go := m.lanes &&& ~~~held &&& g.live
      if go == 0 then .waits (s.modGroup m.key (fun g => g.setWait held (.sigHold c.scope openGen)))
      else .moved ((s.fenceTeam m.key go).modGroup m.key (fun g =>
        ((g.fillSig c.scope go (some openGen)).pass go s.cur.next s.cur.pos.after).setWait held (.sigHold c.scope openGen))) 0

/-- SIGN (R112). -/
def execSign (c : Ctl) (s : State) : Host.Outcome State Fault Refusal := issueWith true (.sign c) c s (signEff c)

/-- CVWAIT's effect (R113): each lane is held on its own condition, before the instruction issues for it (R363); a handler's thread
waits whole. DEDUCED (log 101): where it ends a loop body each such issue makes the end test, that of lanes released later too. -/
def cvwaitEff (c : Ctl) (a : Opd) (sel : Fin 10) (s : State) : Eff :=
  onGroup c s (fun g m e =>
    let r := g.selReg sel.val
    let gen := s.gen r
    let old := fun (i : Nat) => BitVec.ofNat 16 (nth 0 (s.vec g 1 0 a) i).toNat
    if s.cur.phase == .handler then (if gen == old 0 then .hold s else .done s)
    else
      let go := (lanesOf e).filter (fun i => old i != gen)
      let stay := (lanesOf e).filter (fun i => old i == gen)
      let past := m.lanes &&& ~~~(maskOf (fun i => stay.contains i)) &&& g.live
      let hold := fun (g : Group) => stay.foldl (fun g i => g.setWait (BitVec.ofNat 64 (2 ^ i)) (.cvwait sel (old i))) g
      if past == 0 then .waits (s.modGroup g.key hold)
      else .moved (s.modGroup g.key (fun g =>
        hold ((go.foldl (fun g i => g.emptySigs r i gen) g).pass past s.cur.next s.cur.pos.after))) 0)

/-- CVWAIT (R113). -/
def execCvwait (c : Ctl) (a : Opd) (sel : Fin 10) (s : State) : Host.Outcome State Fault Refusal :=
  issue (.cvwait c a sel) c s (cvwaitEff c a sel)

/-- Lanes of a group that have arrived or signed for the open generation of a register. -/
def State.arrivedAt (s : State) (g : Group) (r : ConvReg) : Mask :=
  (g.scopesOf r).foldl (fun m sc => m ||| s.arrivedOrSigned g sc) 0

/-- A convergence register's word (R102). A cv register of no declared party has no members and completes no generation, so
that it reads 0 (R114); one whose groups have all exited keeps its GEN. -/
def State.convWord (s : State) (r : ConvReg) : Nat :=
  let ms := s.regMembers r
  let full := ms.filter (fun g => s.arrivedAt g r == g.live)
  let isOpen := ms.any (fun g => s.arrivedAt g r != 0)
  (s.gen r).toNat + full.length * 2 ^ 16 + ms.length * 2 ^ 22 + b2n isOpen * 2 ^ 28

/-- CVRD (R114). -/
def execCvrd (c : Ctl) (d : Opd) (sel : Fin 10) (s : State) : Host.Outcome State Fault Refusal :=
  issue (.cvrd c d sel) c s (fun s => onGroup c s (fun g _ e =>
    .done (s.putFixed g.key 4 (wordWrites d e (BitVec.ofNat 32 (s.convWord (g.selReg sel.val)))))))

/-- ELECT (R115). -/
def execElect (c : Ctl) (d : Opd) (s : State) : Host.Outcome State Fault Refusal :=
  issue (.elect c d) c s (fun s =>
    let e : Word := match (s.spanExec c).head? with | some n => BitVec.ofNat 32 n | none => 0xFFFFFFFF
    .done (s.everyMember c none (fun _ m => memberWord d e m)))

/-- BCAST (R116). -/
def execBcast (c : Ctl) (d a l : Opd) (s : State) : Host.Outcome State Fault Refusal :=
  issue (.bcast c d a l) c s (fun s =>
    let n := (s.once 2 l).toNat
    let x := nth 0 (s.spanVec c 1 0 a) n
    .done (s.everyMember c none (fun _ m => memberWord d x m)))

end Sys2Proof.Machine
end

