-- ==== Sys2Proof/Machine/Packed.lean ====
section
/-! DEFINITION. Packed narrow arithmetic and partial sort, OP 0x48 to 0x4F (R166 to R177). -/

namespace Sys2Proof.Machine

/-- Slot `j` of width `w` (R166). -/
def slotOf (w x j : Nat) : Nat := fld x (w * j) w

/-- The exact sum of the signed products of `n` slots (R168). -/
def dotInt (w x y : Nat) : Nat → Int
  | 0 => 0
  | n + 1 => dotInt w x y n + sext w (slotOf w x n) * sext w (slotOf w y n)

/-- DP4I and DP8I (R168). -/
def dotIntEff (c : Ctl) (w : Nat) (sat : Bool) (d a b e : Opd) (s : State) : Eff :=
  let op := fun (x y z : Nat) =>
    let r := sext 32 z + dotInt w x y (32 / w)
    resNat .i32 (if sat then clampTo .i32 r else r)
  .done (s.perLane c 4 (fun g m =>
    groupWrites d 1 m (fun _ => zip3 op (s.raws g 1 a) (s.raws g 2 b) (s.raws g 3 e))
      (fun _ => op (s.raw1 g 1 a) (s.raw1 g 2 b) (s.raw1 g 3 e))))

/-- DP4I (R168). -/
def execDp4i (c : Ctl) (sat : Bool) (d a b e : Opd) (s : State) : Host.Outcome State Fault Refusal :=
  issue (.dp4i c sat d a b e) c s (dotIntEff c 4 sat d a b e)
/-- DP8I (R168). -/
def execDp8i (c : Ctl) (sat : Bool) (d a b e : Opd) (s : State) : Host.Outcome State Fault Refusal :=
  issue (.dp8i c sat d a b e) c s (dotIntEff c 8 sat d a b e)

/-- The exact sum of products of values and an accumulator, with the cases of R169 in their order. -/
def dotFloat (xs ys : List FV) (z : FV) : Nat × Fl :=
  let all := z :: (xs ++ ys)
  if all.any FV.isNan then (fmtF32.nan, if all.any FV.isSnan then flNV else flNone)
  else
    let ps := List.zipWith fvMul xs ys
    let sum := ps.foldl (fun (acc : FV × Fl) p =>
      let t := fvAdd .rne acc.1 p.1
      (t.1, flOr acc.2 (flOr p.2 t.2))) (z, flNone)
    fpFinish fmtF32 .rne false 0 sum

/-- The values of the slots of a packed register at a format of `w`-bit slots. -/
def slotsFV (f : FFmt) (w x : Nat) : List FV := (List.range (32 / w)).map (fun j => fpDecode f (slotOf w x j % 2 ^ f.bits))

/-- DPF8 and DPF4 (R169, R170). DESIGN CHOICE (log 91): an inline constant in A or B gives the bits of its 32-bit integer as the slots;
no rule says whether R143's conversion applies to each. -/
def dotFloatEff (c : Ctl) (fa fb : FFmt) (w : Nat) (d a b e : Opd) (s : State) : Eff :=
  let op := fun (x y : Nat) (z : FV) => dotFloat (slotsFV fa w x) (slotsFV fb w y) z
  fpEff c (some 6) d (.run 1) [(1, a), (2, b), (3, e)] (fun s g =>
    { vec := fun _ => zip3 op (s.raws g 1 a) (s.raws g 2 b) (s.fvec g 3 fmtF32 e)
      scal := fun _ => op (s.raw1 g 1 a) (s.raw1 g 2 b) (s.fscal g 3 fmtF32 e) }) s

/-- FP8 kind of DPF8: 0 .e4m3, 1 .e5m2 (R169). -/
def fp8Of (k : Bool) : FFmt := if k then fmtE5m2 else fmtE4m3

/-- DPF8 (R169). -/
def execDpf8 (c : Ctl) (ka kb : Bool) (d a b e : Opd) (s : State) : Host.Outcome State Fault Refusal :=
  issue (.dpf8 c ka kb d a b e) c s (dotFloatEff c (fp8Of ka) (fp8Of kb) 8 d a b e)
/-- DPF4 (R169). -/
def execDpf4 (c : Ctl) (d a b e : Opd) (s : State) : Host.Outcome State Fault Refusal :=
  issue (.dpf4 c d a b e) c s (dotFloatEff c fmtE2m1 fmtE2m1 4 d a b e)

/-- MXSC's result (R171). -/
def mxscOp (x : FV) (sa sb : Nat) : Nat × Fl :=
  let ea := sa % 256
  let eb := sb % 256
  match x with
  | .nan sg => (fmtF32.nan, if sg then flNV else flNone)
  | .inf neg => if ea = 255 || eb = 255 then (fmtF32.nan, flNone) else (fmtF32.infCode neg, flNone)
  | .fin neg m e =>
    if ea = 255 || eb = 255 then (fmtF32.nan, flNone)
    else fpRound fmtF32 .rne false 0 (.fin neg m (e + ((ea : Int) + eb - 254)))

/-- MXSC (R171). -/
def execMxsc (c : Ctl) (one : Bool) (d a sa sb : Opd) (s : State) : Host.Outcome State Fault Refusal :=
  issue (.mxsc c one d a sa sb) c s (fun s =>
    fpEff c (some 6) d (.run 1) [(1, a)] (fun s g =>
      { vec := fun _ => zip3 mxscOp (s.fvec g 1 fmtF32 a) (s.raws g 2 sa) (if one then List.replicate W 127 else s.raws g 3 sb)
        scal := fun _ => mxscOp (s.fscal g 1 fmtF32 a) (s.raw1 g 2 sa) (if one then 127 else s.raw1 g 3 sb) }) s)

/-- One slot of PCVT (R172, R127, R153). -/
def pcvtSlot (dst src : TC) (r : Rnd) (sat : Bool) (u : Nat) (x : Word) : Nat × Fl :=
  if src.isInt then
    let v := intVal (tcIt src) x 0
    (lowBits 8 (if sat then clampTo (tcIt dst) v else v), flNone)
  else cvtToFloat (tcFmt dst) r sat u (fpDecode (tcFmt src) (x.toNat % 2 ^ (tcFmt src).bits))

/-- The packed result of the registers of a run in one lane: element `e0 + j` draws for slot `j` (R142, R172). -/
def pcvtPack (dst src : TC) (r : Rnd) (sat : Bool) (seed : Word) (e0 : Nat) (j : Nat) : List Word → Nat × Fl
  | [] => (0, flNone)
  | x :: t =>
    let u := if r = .sr then srDraw seed (e0 + j) else 0
    let y := pcvtSlot dst src r sat u x
    let z := pcvtPack dst src r sat seed e0 (j + 1) t
    (y.1 * 2 ^ (dst.slotBits * j) + z.1, flOr y.2 z.2)

/-- PCVT (R172). DESIGN CHOICE (log 85): in scalar form slot `j` draws for element `j`, as of lane 0: R142 gives element 0 to a scalar
form and R172 one to each slot. -/
def execPcvt (c : Ctl) (dst src : TC) (r : Rnd) (sat : Bool) (d a seed : Opd) (s : State) : Host.Outcome State Fault Refusal :=
  issue (.pcvt c dst src r sat d a seed) c s (fun s =>
    let n := dst.slots
    let run := (List.range n).map (fun j => Opd.plus a j)
    fpEff c (some 6) d (.run 1) (if src.isInt then [] else run.map (fun o => (1, o))) (fun s g =>
      let sd := if r = .sr then s.scal g 3 0 seed else 0
      { vec := fun _ =>
          let regs := run.map (fun o => s.vec g 1 0 o)
          (List.range W).map (fun i => pcvtPack dst src r sat sd ((s.laneBase g c.scope + i) * n) 0 (regs.map (fun v => nth 0 v i)))
        scal := fun _ => pcvtPack dst src r sat sd 0 0 (run.map (fun o => s.scal g 1 0 o)) }) s)

/-- One slot of PUNP widened to 32 bits (R173). -/
def punpSlot (src : TC) (x : Nat) : Nat :=
  if src.isInt then resNat .w32 (if (tcIt src).signed then sext src.slotBits x else (x : Int))
  else (fpRound fmtF32 .rne false 0 (fpDecode (tcFmt src) (x % 2 ^ (tcFmt src).bits))).1

/-- PUNP (R173). -/
def execPunp (c : Ctl) (src : TC) (hi : Bool) (d a : Opd) (s : State) : Host.Outcome State Fault Refusal :=
  issue (.punp c src hi d a) c s (fun s =>
    let n := src.slots / 2
    let one := fun (m x : Nat) => punpSlot src (slotOf src.slotBits x ((if hi then n else 0) + m))
    .done (s.perLane c 4 (fun g e => (List.range n).flatMap (fun m =>
      if d.isScalarDst then writeScal d m (BitVec.ofNat 32 (one m (s.raw1 g 1 a)))
      else writeVec d m e ((s.raws g 1 a).map (fun x => BitVec.ofNat 32 (one m x)))))))

/- ### Partial sort (R174 to R177) -/

/-- An entry that takes part: value, its bits, index, source and lane (R174). -/
structure TopEntry where
  value : FV
  bits : Word
  index : Word
  source : Nat
  lane : Nat
  deriving DecidableEq, Repr

/-- The key of R174. -/
def topBefore (asc : Bool) (x y : TopEntry) : Bool :=
  if fvLt x.value y.value then asc
  else if fvLt y.value x.value then !asc
  else if x.index ≠ y.index then x.index.toNat < y.index.toNat
  else if x.source ≠ y.source then x.source < y.source
  else x.lane < y.lane

/-- Insertion into a list sorted by the key. -/
def topInsert (asc : Bool) (x : TopEntry) : List TopEntry → List TopEntry
  | [] => [x]
  | y :: t => if topBefore asc x y then x :: y :: t else y :: topInsert asc x t

def topSort (asc : Bool) : List TopEntry → List TopEntry
  | [] => []
  | x :: t => topInsert asc x (topSort asc t)

/-- The entries of lanes that a test selects, NaN values left out (R174). -/
def topEntries (f : FFmt) (source : Nat) (lanes : List Nat) (vals idxs : Lanes) : List TopEntry :=
  lanes.filterMap (fun i =>
    let v := nth 0 vals i
    let x := fpDecode f (v.toNat % 2 ^ f.bits)
    if x.isNan then none else some ⟨x, BitVec.ofNat 32 (v.toNat % 2 ^ f.bits), nth 0 idxs i, source, i⟩)

/-- The value of an empty entry (R174). -/
def emptyValue (f : FFmt) (asc : Bool) : Word := BitVec.ofNat 32 (f.infCode (!asc))

/-- Indices of candidates: a register, or a base that counts on by lane from `lane0` (R175, R177). -/
def State.topIndices (s : State) (g : Group) (b : Opd) (base : Word) (lane0 : Nat) : Lanes :=
  if b.isV then s.vec g 2 0 b else (List.range W).map (fun i => base + BitVec.ofNat 32 (lane0 + i))

/-- Lanes of a list of lanes that hold a marker, unless the context has none (R146). -/
def State.topMarkers (s : State) (g : Group) (lanes : Mask) (vals : Lanes) : Mask :=
  if s.nomark g.ctx then 0 else lanes &&& maskOfList (vals.map isMarker)

/-- The merge of VTOPK and VTOPKM: the list pair at `d` and the other entries (R175, R176). DESIGN CHOICE (log 91): where a lane finds
markers both in the list and in A, FAULTREG names the list's register, of which R146 gives no place in its order. -/
def topMerge (asc : Bool) (d : VReg) (k : Nat) (other : State → Group → Mask → List TopEntry)
    (marks : State → Group → Mask → List LaneFault) (c : Ctl) (s : State) : Eff :=
  let kk := min k W
  if kk = 0 then .done (s.perLaneVar c (fun _ _ => []))
  else
    match s.issuer with
    | none => .done s
    | some g =>
      let e := s.execOf c g.key
      let low := maskOf (fun i => decide (i < kk))
      let dv := s.vec g 0 0 (.v d)
      let di := s.vec g 0 1 (.v d)
      let own := s.topMarkers g low dv
      let fs := (if own == 0 then [] else [LaneFault.mk g.key own .snanUninit d.toNat 0]) ++ marks s g e
      if !fs.isEmpty then .fault s fs
      else
        let l := topSort asc (topEntries fmtF32 0 (List.range kk) dv di ++ other s g e)
        let at_ := fun (i : Nat) => if i < kk then l[i]? else none
        let vs := (List.range W).map (fun i => match at_ i with | some x => x.bits | none => emptyValue fmtF32 asc)
        let is := (List.range W).map (fun i => match at_ i with | some x => x.index | none => 0xFFFFFFFF)
        .done (s.putVar g.key [.v d.toNat allLanes vs, .v (d.toNat + 1) allLanes is])

/-- VTOPK (R175). -/
def execVtopk (c : Ctl) (asc : Bool) (d a : VReg) (b k : Opd) (s : State) : Host.Outcome State Fault Refusal :=
  issue (.vtopk c asc d a b k) c s (fun s =>
    let n := (s.once 3 k).toNat
    topMerge asc d n
      (fun s g e => topEntries fmtF32 1 (lanesOf e) (s.vec g 1 0 (.v a)) (s.topIndices g b (s.once 2 b) 0))
      (fun s g e =>
        let h := s.topMarkers g e (s.vec g 1 0 (.v a))
        if h == 0 then [] else [⟨g.key, h, .snanUninit, a.toNat, 0⟩]) c s)

/-- VTOPKM (R176). -/
def execVtopkm (c : Ctl) (asc : Bool) (d a : VReg) (k : Opd) (s : State) : Host.Outcome State Fault Refusal :=
  issue (.vtopkm c asc d a k) c s (fun s =>
    let n := (s.once 2 k).toNat
    topMerge asc d n
      (fun s g _ => topEntries fmtF32 1 (List.range (min n W)) (s.vec g 1 0 (.v a)) (s.vec g 1 1 (.v a)))
      (fun s g _ =>
        let h := s.topMarkers g (maskOf (fun i => decide (i < min n W))) (s.vec g 1 0 (.v a))
        if h == 0 then [] else [⟨g.key, h, .snanUninit, a.toNat, 0⟩]) c s)

/-- ARGMX (R177). -/
def execArgmx (c : Ctl) (ft : FT) (asc : Bool) (d a b : Opd) (s : State) : Host.Outcome State Fault Refusal :=
  issue (.argmx c ft asc d a b) c s (fun s =>
    let f := ftFmt ft
    let fs := (s.execs c).filterMap (fun x =>
      let h := s.topMarkers x.1 x.2 (s.vec x.1 1 0 a)
      if h == 0 then none else some (LaneFault.mk x.1.key h .snanUninit a.code 0))
    if !fs.isEmpty then .fault s fs
    else
      let base := s.once 2 b
      let es := ((s.span c).zipIdx).flatMap (fun x =>
        (topEntries f 0 (lanesOf (s.execOf c x.1.key)) (s.vec x.1 1 0 a) (s.topIndices x.1 b base (x.2 * W))).map
          (fun t => { t with lane := x.2 * W + t.lane }))
      let r : Word × Word := match (topSort asc es).head? with
        | some x => (x.bits, x.index)
        | none => (emptyValue f asc, 0xFFFFFFFF)
      .done (s.everyMember c none (fun _ m =>
        if d.isScalarDst then writeScal d 0 r.1 ++ writeScal d 1 r.2
        else if m == 0 then [] else writeVec d 0 m (List.replicate W r.1) ++ writeVec d 1 m (List.replicate W r.2))))

end Sys2Proof.Machine
end

