-- ==== Sys2Proof/Machine/Matrix.lean ====
section
/-! DEFINITION. The matrix unit: its state, its arithmetic, the fourteen instructions of OP 0x50 to 0x5D and the steps
of its two engines (R178 to R200). -/

namespace Sys2Proof.Machine

/- ### The unit (R178 to R181) -/

/-- Columns of a die's array (R178). -/
def colsOf (die : Nat) : Nat := if isBDie die then 64 else 128

/-- Weight and scale bytes of a format on an array of `n` columns (R179). -/
def weightBytes (n : Nat) : Nat := 128 * n
def scaleBytes (fmt : TC) (n : Nat) : Nat := if fmt.mxScaled then mxK fmt / 32 * n else 0

/-- The unit of a partition that a context uses: its own state, or fresh state where the unit holds none; none while the
unit holds another context's, or one that is to be freed once its queue is empty (R180). -/
def State.mxFor (s : State) (p : PKey) (ctx : Nat) : Option Mx :=
  match (s.part p).mx with
  | none => some (Mx.fresh ctx)
  | some m => if m.ctx = ctx && !m.ending then some m else none

def State.setMx (s : State) (p : PKey) (m : Mx) : State := s.modPart p (fun x => { x with mx := some m })

/-- MXSTAT: the state after every earlier matrix instruction has taken effect, and the queue (R182). DESIGN CHOICE (log 109): 0 while
another context holds the unit, or the state is about to be freed. -/
def State.mxstat (s : State) (p : PKey) (ctx : Nat) : Word :=
  match s.mxFor p ctx with
  | none => 0
  | some m =>
    let v := m.view
    let tc := fun (f : Option TC) => match f with | some x => x.code | none => 0
    BitVec.ofNat 32 (b2n v.active + 2 * b2n v.fmt0.isSome + 4 * b2n v.fmt1.isSome + 8 * tc v.fmt0 + 2 ^ 7 * tc v.fmt1 +
      2 ^ 11 * b2n v.latch.isSome + 2 ^ 12 * (match v.latch with | some x => x.1.code | none => 0) + 2 ^ 15 * m.queue.length)

/- ### Issue (R183 to R185) -/

/-- Faults of the whole instance: FAULTLANES of each member holds its executing lanes (R185). -/
def memberFaults (c : Ctl) (s : State) (code : FaultCode) (reg : Nat) (addr : Nat) : List LaneFault :=
  (s.execs c).map (fun x => ⟨x.1.key, x.2, code, reg, BitVec.ofNat 64 addr⟩)

/-- What a matrix instruction comes to at issue. -/
inductive MxIssue where
  | enter (s : State) (op : MxOp) (view : MxView)
  | fault (fs : List LaneFault)

/-- The shared issue of a matrix instruction: it is held while the queue is full, or while the unit belongs to another
context; else it faults whole, or enters the queue (R181, R184, R185). -/
def mxEff (f : State → Group → Mx → MxIssue) (s : State) : Eff :=
  match s.readerOf with
  | none => .done s
  | some g =>
    match s.mxFor g.pkey g.ctx with
    | none => .hold s
    | some m =>
      if 16 ≤ m.queue.length then .hold s
      else match f s g m with
        | .fault fs => .fault s fs
        | .enter s1 op v => .done (s1.setMx g.pkey { m with queue := m.queue ++ [⟨op, s.cur.pc⟩], view := v })

/-- An instruction that needs no check. -/
def mxPlain (op : MxOp) (v : MxView → MxView) : State → Eff := mxEff (fun s _ m => .enter s op (v m.view))

/-- The view after an MWLD: the inactive bank takes the format (R195). -/
def MxView.load (v : MxView) (f : TC) : MxView :=
  if v.active then { v with fmt0 := some f } else { v with fmt1 := some f }

/-- The first check that a scratchpad range fails: alignment, bounds, owner (R185, R247). -/
def spRangeFault (s : State) (g : Group) (off n align : Nat) : Option FaultCode :=
  if off % align ≠ 0 then some .addrMisalign
  else if spBytes < off + n then some .addrBounds
  else if (s.core g.core).segRefused g.ctx off n then some .addrOwner
  else none

/-- Rank of a check of R185: alignment before bounds before ownership. -/
def spRank : Option FaultCode → Nat
  | some .addrMisalign => 1 | some .addrBounds => 2 | some _ => 3 | none => 4

/-- MWLD (R195). -/
def execMwld (c : Ctl) (fmt : TC) (a b : Opd) (s : State) : Host.Outcome State Fault Refusal :=
  issue (.mwld c fmt a b) c s (mxEff (fun s g m =>
    let n := colsOf g.core.die
    let w := (s.once 1 a).toNat
    let sc := if fmt.mxScaled then (s.once 2 b).toNat else 0
    let fw := spRangeFault s g w (weightBytes n) 128
    let fs := if fmt.mxScaled then spRangeFault s g sc (scaleBytes fmt n) 16 else none
    let worst := if spRank fw ≤ spRank fs then (fw, w) else (fs, sc)
    match worst.1 with
    | some code => .fault (memberFaults c s code 0 worst.2)
    | none => .enter (s.modCore g.core (fun k => (k.claim g.ctx w (weightBytes n)).claim g.ctx sc (scaleBytes fmt n)))
        (.mwld fmt w sc) (m.view.load fmt)))

/-- MWSW (R196). -/
def execMwsw (c : Ctl) (s : State) : Host.Outcome State Fault Refusal :=
  issue (.mwsw c) c s (mxPlain .mwsw (fun v => { v with active := !v.active }))

/-- The groups of an issue. -/
def State.issueKeys (s : State) : List GKey := s.cur.members.map (·.key)

/-- MWFM and MFIN hold the issuing groups before they issue while the queue holds what they wait for, or is full (R184, R196,
R363); then they have their effect, and leave no entry. DESIGN CHOICE (log 121): they are no "last instruction that took effect" of the
stop record (R200), which names the last of those that the queue holds. -/
def mxWait (busy : List MxEntry → Bool) (f : State → State) (s : State) : Eff :=
  match s.readerOf with
  | none => .done s
  | some g =>
    match s.mxFor g.pkey g.ctx with
    | none => .hold s
    | some m => if 16 ≤ m.queue.length || busy m.queue then .hold s else .done (f s)

def isMwld : MxOp → Bool
  | .mwld _ _ _ => true | _ => false

/-- The registers that the array has written for MRDA are in place (R196); the scoreboards still count them (R37). -/
def Group.landMrda (g : Group) : Group :=
  let out := fun (e : InFlight) => e.token.isNone && !e.regs.isEmpty
  { (g.inFlight.filter out).foldl (fun g e => Write.applyAll g e.writes) g with
    inFlight := g.inFlight.map (fun e => if out e then { e with writes := [] } else e) }

/-- MFIN's release: an acquire at team scope, for the members, of what the unit wrote, registers and scratchpad words, which discards
fetched steps (R88, R196, R278). -/
def State.mxAcquire (s : State) : State :=
  s.issueKeys.foldl (fun s k =>
    (match s.group? k with
      | some g => s.showWrites g.core.die (fun bs => bs.contains (.mx g.pkey g.ctx)) (s.shownBar g .team)
      | none => s).modGroup k (fun g => g.landMrda.dropAhead)) s

/-- MWFM (R196): it waits for the loader only (R186). -/
def execMwfm (c : Ctl) (s : State) : Host.Outcome State Fault Refusal :=
  issue (.mwfm c) c s (mxWait (fun q => q.any (fun e => isMwld e.op)) id)

/-- MFIN (R196): it waits for both engines (R186). -/
def execMfin (c : Ctl) (s : State) : Host.Outcome State Fault Refusal :=
  issue (.mfin c) c s (mxWait (fun q => !q.isEmpty) State.mxAcquire)

/-- The A row of one lane: K element codes over the run (R189). -/
def aRow (s : State) (g : Group) (ka : AKind) (k : Nat) (a : Opd) (i : Nat) : List Nat :=
  let w := aSlotBits ka
  let n := 32 / w
  (List.range (k / n)).flatMap (fun j =>
    let x := (nth 0 (s.vec g 1 0 (Opd.plus a j)) i).toNat
    (List.range n).map (fun t => slotOf w x t))

/-- The scales of one lane: one byte a block of 32; an inline constant stands for 127 (R189). -/
def aScales (s : State) (g : Group) (k : Nat) (e : Opd) (i : Nat) : List Nat :=
  (List.range (k / 32)).map (fun b =>
    match e with
    | .imm _ => 127
    | _ => slotOf 8 ((nth 0 (s.vec g 3 0 (Opd.plus e (b / 4))) i).toNat) (b % 4))

/-- The first register of a run at or above the budget; where the run passes the last register that there is, its own first one. -/
def runPast (file budget r : Nat) : Nat := if budget < file then max r budget else r

/-- The fault of a run that passes the end of the registers it names (R189, R393). DESIGN CHOICE (log 119): FAULTREG names the register
of `runPast`, which R189 leaves open. -/
def runFault (g : Group) (o : Opd) (n : Nat) : Option (FaultCode × Nat) :=
  if n = 0 then none
  else match o with
    | .v r => if g.nv < r.toNat + n then some (.illegalEnc, runPast 256 g.nv r.toNat) else none
    | .y r => if g.ny < r.toNat + n then some (.scopeIllegal, 0x300 + runPast 64 g.ny r.toNat) else none
    | _ => none

/-- The lanes of the span that feed tile rows, with the row of each (R190). -/
def mmaRows (s : State) (c : Ctl) (row0 : Nat) : List (Nat × Group × Nat) :=
  ((s.span c).zipIdx).flatMap (fun x =>
    (lanesOf (s.execOf c x.1.key)).filterMap (fun i =>
      let m := row0 + x.2 * W + i
      if m < 128 then some (m, x.1, i) else none))

/-- The first register of a lane's runs that holds a marker, in the order of the fields (R146, R192). -/
def rowMarker (s : State) (g : Group) (runs : List (Nat × Opd × Nat)) (i : Nat) : Option Nat :=
  (runs.flatMap (fun r => (List.range r.2.2).map (fun j => (r.1, Opd.plus r.2.1 j)))).findSome? (fun r =>
    if isMarker (nth 0 (s.vec g r.1 0 r.2) i) then some r.2.code else none)

/-- The marker faults of an MMA, group by group (R192). -/
def mmaMarkers (s : State) (rows : List (Nat × Group × Nat)) (runs : List (Nat × Opd × Nat)) : List LaneFault :=
  rows.filterMap (fun x =>
    if s.nomark x.2.1.ctx then none
    else (rowMarker s x.2.1 runs x.2.2).map (fun reg => ⟨x.2.1.key, BitVec.ofNat 64 (2 ^ x.2.2), .snanUninit, reg, 0⟩))

/-- What an MMA reads at issue: its checks in the order of R185 and its rows (R192). DESIGN CHOICE (log 120): where the A run and the
scale run both fail, the A run's fault is the one taken. -/
def mmaIssue (c : Ctl) (ka : AKind) (reuse : Bool) (t : Tile) (i j : BitVec 2) (a b e : Opd) (s : State) (g : Group) (m : Mx) :
    MxIssue :=
  let v := m.view
  let op := fun (useLatch : Bool) rows => MxOp.mma ka reuse t i j useLatch rows (nth 0 v.row i.toNat) (nth 0 v.col j.toNat) 0
  match v.activeFmt with
  | none => .fault (memberFaults c s .matrixState 0 1)
  | some fmt =>
    let k := mxK fmt
    if !mxPairs ka fmt then .fault (memberFaults c s .matrixState 0 2)
    else match v.latch with
      | some l =>
        if l.1 ≠ ka || l.2 ≠ k then .fault (memberFaults c s .matrixState 0 3)
        else .enter s (op true []) (if reuse then v else { v with latch := none })
      | none =>
        match runFault g a (aRun ka k) <|> runFault g e (scaleRun ka k e) with
        | some f => .fault (memberFaults c s f.1 f.2 0)
        | none =>
          let rows := mmaRows s c (s.once 2 b).toNat
          let fs := mmaMarkers s rows [(1, a, aRun ka k), (3, e, scaleRun ka k e)]
          if !fs.isEmpty then .fault fs
          else
            let r := (List.range 128).map (fun n =>
              (rows.find? (fun x => x.1 == n)).map (fun x =>
                (aRow s x.2.1 ka k a x.2.2, if ka.scaled then aScales s x.2.1 k e x.2.2 else [])))
            .enter s (op false r) (if reuse then { v with latch := some (ka, k) } else v)

/-- MMA (R191, R192). -/
def execMma (c : Ctl) (ka : AKind) (reuse : Bool) (t : Tile) (i j : BitVec 2) (a b e : Opd) (s : State) :
    Host.Outcome State Fault Refusal :=
  issue (.mma c ka reuse t i j a b e) c s (mxEff (mmaIssue c ka reuse t i j a b e))

/-- MZERO (R197). -/
def execMzero (c : Ctl) (t : Tile) (s : State) : Host.Outcome State Fault Refusal :=
  issue (.mzero c t) c s (mxPlain (.mzero t) id)

/-- MRDA (R198): its registers count on the clause's scoreboard until the array has run it. -/
def execMrda (c : Ctl) (raw : Bool) (t : Tile) (d : Opd) (n : BitVec 6) (row0 col : Opd) (s : State) :
    Host.Outcome State Fault Refusal :=
  issue (.mrda c raw t d n row0 col) c s (mxEff (fun s _ m =>
    let ms := ((s.span c).zipIdx).filterMap (fun x =>
      if s.issueKeys.contains x.1.key then some (x.1.key, s.execOf c x.1.key, x.2 * W) else none)
    let regs := (List.range n.toNat).map (fun j => (Opd.plus d j).code)
    let s1 := ms.foldl (fun s1 x => s1.modGroup x.1 (fun g =>
      { g with inFlight := g.inFlight ++ [⟨none, s.cur.sb, [], [], s.tick, none, some s.tick, regs, s.cur.cls⟩]
               sb := modAt g.sb s.cur.sb (· + 1) })) s
    .enter s1 (.mrda raw t d n.toNat (s.once 2 row0).toNat (s.once 3 col).toNat ms s.tick) m.view))

/-- MWRA (R198): it reads its registers at issue. -/
def execMwra (c : Ctl) (t : Tile) (d : Opd) (n : BitVec 6) (row0 col : Opd) (s : State) : Host.Outcome State Fault Refusal :=
  issue (.mwra c t d n row0 col) c s (mxEff (fun s g m =>
    let c0 := (s.once 3 col).toNat
    let cols := colsOf g.core.die
    let ws := (mmaRows s c (s.once 2 row0).toNat).flatMap (fun x =>
      (List.range n.toNat).filterMap (fun j =>
        if c0 + j < cols then some (x.1, c0 + j, nth 0 (s.vec x.2.1 0 0 (Opd.plus d j)) x.2.2) else none))
    .enter s (.mwra t ws) m.view))

/-- Bytes of a tile entry of a type in scratchpad (R199). -/
def tileSize (ft : TC) : Nat := if ft = .f16 || ft = .bf16 then 2 else 4

/-- MSTA (R199). -/
def execMsta (c : Ctl) (t : Tile) (a : Opd) (ft : TC) (s : State) : Host.Outcome State Fault Refusal :=
  issue (.msta c t a ft) c s (mxEff (fun s g m =>
    let off := (s.once 1 a).toNat
    let n := 128 * colsOf g.core.die * tileSize ft
    match spRangeFault s g off n 128 with
    | some code => .fault (memberFaults c s code 0 off)
    | none => .enter (s.modCore g.core (fun k => k.claim g.ctx off n)) (.msta t off ft) m.view))

/-- MLDA (R199). -/
def execMlda (c : Ctl) (t : Tile) (a : Opd) (s : State) : Host.Outcome State Fault Refusal :=
  issue (.mlda c t a) c s (mxEff (fun s g m =>
    let off := (s.once 1 a).toNat
    let n := 128 * colsOf g.core.die * 4
    match spRangeFault s g off n 128 with
    | some code => .fault (memberFaults c s code 0 off)
    | none => .enter (s.modCore g.core (fun k => k.claim g.ctx off n)) (.mlda t off) m.view))

/-- A predicate's value (R197): four scalars, or a constant for every bit. -/
def predValue (s : State) (a : Opd) : BitVec 128 :=
  match a with
  | .imm k => if k = 0 then 0 else allPred
  | _ => match s.readerOf with
    | some g => BitVec.ofNat 128 ((s.scal g 1 0 a).toNat + (s.scal g 1 1 a).toNat * 2 ^ 32 + (s.scal g 1 2 a).toNat * 2 ^ 64 +
        (s.scal g 1 3 a).toNat * 2 ^ 96)
    | none => 0

/-- MROW (R197). -/
def execMrow (c : Ctl) (i : BitVec 2) (a : Opd) (s : State) : Host.Outcome State Fault Refusal :=
  issue (.mrow c i a) c s (mxEff (fun s _ m =>
    .enter s (.mrow i (predValue s a)) { m.view with row := setAt m.view.row i.toNat (predValue s a) }))

/-- MCOL (R197). -/
def execMcol (c : Ctl) (j : BitVec 2) (a : Opd) (s : State) : Host.Outcome State Fault Refusal :=
  issue (.mcol c j a) c s (mxEff (fun s _ m =>
    .enter s (.mcol j (predValue s a)) { m.view with col := setAt m.view.col j.toNat (predValue s a) }))

/-- MSCA (R197, R143). -/
def execMsca (c : Ctl) (a : Opd) (s : State) : Host.Outcome State Fault Refusal :=
  issue (.msca c a) c s (mxEff (fun s g m =>
    match a with
    | .imm k => .enter s (.msca (BitVec.ofNat 32 (immCode fmtF32 k))) m.view
    | _ =>
      let x := s.once 1 a
      if isMarker x && !s.nomark g.ctx then .fault (memberFaults c s .snanUninit a.code 0)
      else .enter s (.msca x) m.view))

/-- MREL (R197). -/
def execMrel (c : Ctl) (s : State) : Host.Outcome State Fault Refusal :=
  issue (.mrel c) c s (mxPlain .mrel (fun v => { v with latch := none }))

/- ### Arithmetic (R193) -/

/-- The value of an A element code. -/
def aValue (ka : AKind) (x : Nat) : FV :=
  match ka with
  | .e4m3 => fpDecode fmtE4m3 x | .e5m2 => fpDecode fmtE5m2 x | .e2m3 => fpDecode fmtE2m3 (x % 64)
  | .e3m2 => fpDecode fmtE3m2 (x % 64) | .e2m1 => fpDecode fmtE2m1 x | .bf16 => fpDecode fmtBf16 x
  | .i8 => fvOfInt (sext 8 x)

/-- The value of a weight code. -/
def wValue (fmt : TC) (x : Nat) : FV := if fmt = .i32 then fvOfInt (sext 8 x) else fpDecode (tcFmt fmt) (x % 2 ^ (tcFmt fmt).bits)

/-- Bits of a weight slot (R166, R179). -/
def wSlotBits (fmt : TC) : Nat := if fmt = .e2m1 then 4 else if fmt = .bf16 then 16 else 8

/-- The exact sum of a list of products, with the special cases of R193. -/
def exactSum : List FV → FV
  | [] => .fin false 0 0
  | x :: t => t.foldl (fun a y => (fvAdd .rne a y).1) x

/-- The block value before its rounding: NaN where an element is NaN or a scale is 0xFF (R193). -/
def blockValue (scaled : Bool) (as ws : List FV) (sa sb : Nat) : FV :=
  if (as ++ ws).any FV.isNan || (scaled && (sa = 255 || sb = 255)) then .nan false
  else match exactSum (List.zipWith (fun x y => (fvMul x y).1) as ws) with
    | .fin n m e => .fin n m (if scaled then e + ((sa : Int) + sb - 254) else e)
    | x => x

/-- One block added to an accumulator: two roundings in this order (R193). -/
def accBlock (scaled : Bool) (acc : Word) (as ws : List FV) (sa sb : Nat) : Word :=
  let v := fpDecode fmtF32 (fpRound fmtF32 .rne false 0 (blockValue scaled as ws sa sb)).1
  BitVec.ofNat 32 (fpRound fmtF32 .rne false 0 (fvAdd .rne (fpDecode fmtF32 acc.toNat) v).1).1

/-- The whole-row integer sum (R193). -/
def intSum (as ws : List Nat) : Int := (List.zipWith (fun x y => sext 8 x * sext 8 y) as ws).foldl (· + ·) 0

/-- Weights and scales of a bank at a column. -/
def MxBank.elem (b : MxBank) (n k col : Nat) : Nat := Sparse.get 0 b.w (k * n + col)
def MxBank.scale (b : MxBank) (n blk col : Nat) : Nat := Sparse.get 0 b.sc (blk * n + col)

/-- One entry of a tile updated by the K-blocks of one pass (R192, R193). -/
def mmaEntry (ka : AKind) (fmt : TC) (bank : MxBank) (n : Nat) (blocks : List Nat) (row : List Nat × List Nat) (col : Nat)
    (acc : Word) : Word :=
  if ka = .i8 then
    BitVec.ofInt 32 (sext 32 acc.toNat + intSum row.1 ((List.range 128).map (fun k => bank.elem n k col)))
  else blocks.foldl (fun acc b =>
    let ks := (List.range 32).map (fun j => b * 32 + j)
    accBlock ka.scaled acc (ks.map (fun k => aValue ka (nth 0 row.1 k))) (ks.map (fun k => wValue fmt (bank.elem n k col)))
      (nth 0 row.2 b) (bank.scale n b col)) acc

def Mx.activeBank (m : Mx) : MxBank := if m.active then m.bank1 else m.bank0
def Mx.setInactive (m : Mx) (b : MxBank) : Mx := if m.active then { m with bank0 := b } else { m with bank1 := b }
def Mx.tile (m : Mx) (t : Tile) : List (Nat × Word) := nth [] m.tiles t.toNat
def Mx.setTile (m : Mx) (t : Tile) (x : List (Nat × Word)) : Mx := { m with tiles := setAt m.tiles t.toNat x }

/-- Passes of an MMA (R187, R189). -/
def mxPasses (ka : AKind) (fmt : TC) : Nat := if fmt = .e2m1 && ka != .e2m1 then 2 else 1

/-- The blocks of a pass, in ascending order (R192). -/
def passBlocks (ka : AKind) (fmt : TC) (pass : Nat) : List Nat :=
  let n := mxK fmt / 32
  if mxPasses ka fmt = 1 then List.range n else (List.range (n / 2)).map (fun b => pass * (n / 2) + b)

/-- A tile after one pass (R192). -/
def mmaTile (ka : AKind) (fmt : TC) (bank : MxBank) (n pass : Nat) (rows : List (Option (List Nat × List Nat)))
    (rowMask colMask : BitVec 128) (tile : List (Nat × Word)) : List (Nat × Word) :=
  let blocks := passBlocks ka fmt pass
  Sparse.mapFrom (0 : Word) (fun key acc =>
    let r := key / n
    let col := key % n
    match nth none rows r with
    | some row => if rowMask.getLsbD r && colMask.getLsbD col then mmaEntry ka fmt bank n blocks row col acc else acc
    | none => acc) 0 (128 * n) tile

/- ### The two engines (R186, R187) -/

/-- The first entry that the weight loader may run: the first MWLD, with no MWSW before it (R186). -/
def loaderHead : List MxEntry → Option MxEntry
  | [] => none
  | e :: t => match e.op with
    | .mwld _ _ _ => some e
    | .mwsw => none
    | _ => loaderHead t

/-- The first entry of the array sequence, and whether an MWLD stands before it. -/
def arrayHead (ld : Bool) : List MxEntry → Option (MxEntry × Bool)
  | [] => none
  | e :: t => match e.op with
    | .mwld _ _ _ => arrayHead true t
    | _ => some (e, ld)

/-- Take the first entry equal to one out of the queue; the unit has done `passes` passes of it (R335). -/
def Mx.complete (m : Mx) (e : MxEntry) (passes : Nat) : Mx :=
  { m with queue := m.queue.erase e, lastPc := e.pc, lastPasses := passes }

/-- WEIGHT_LOAD_COMPLETE (R195): the inactive bank takes the weights, the scales and the format. -/
def execWeightLoadComplete (p : PKey) (s : State) : Host.Outcome State Fault Refusal :=
  match (s.part p).mx with
  | none => .refused .eventNotEnabled
  | some m =>
    match loaderHead m.queue with
    | some e =>
      match e.op with
      | .mwld fmt w sc =>
        let c := (s.core ⟨p.die, p.core⟩).seenBy m.ctx
        let n := colsOf p.die
        let bits := wSlotBits fmt
        let elem := fun (i : Nat) => leNat (c.spRead (w + i * bits / 8) ((bits + 7) / 8)) / 2 ^ (i * bits % 8) % 2 ^ bits
        let b : MxBank :=
          ⟨some fmt, Sparse.mapFrom 0 (fun i _ => elem i) 0 (mxK fmt * n) [],
            Sparse.mapFrom 0 (fun i _ => leNat (c.spRead (sc + i) 1)) 0 (scaleBytes fmt n) []⟩
        .next ((s.setMx p ((m.setInactive b).complete e 0)).freeMx p)
      | _ => .refused .eventNotEnabled
    | none => .refused .eventNotEnabled

/-- BANK_SWAP (R187): MWSW takes effect once no earlier MWLD is left. -/
def execBankSwap (p : PKey) (s : State) : Host.Outcome State Fault Refusal :=
  match (s.part p).mx with
  | none => .refused .eventNotEnabled
  | some m =>
    match arrayHead false m.queue with
    | some (e, ld) =>
      if e.op = .mwsw && !ld then .next ((s.setMx p ({ m with active := !m.active }.complete e 0)).freeMx p)
      else .refused .eventNotEnabled
    | none => .refused .eventNotEnabled

/-- Put another entry in the place of the first one equal to one. -/
def replaceFirst {α : Type} [DecidableEq α] (x y : α) : List α → List α
  | [] => []
  | z :: t => if z = x then y :: t else z :: replaceFirst x y t

/-- MMA_PASS (R192, R194): one pass; the last one completes the MMA and releases a latch it used up. -/
def execMmaPass (p : PKey) (s : State) : Host.Outcome State Fault Refusal :=
  match (s.part p).mx with
  | none => .refused .eventNotEnabled
  | some m =>
    match arrayHead false m.queue with
    | some (e, _) =>
      match e.op with
      | .mma ka reuse t i j useLatch rows rm cm pass =>
        match m.activeBank.fmt with
        | none => .refused .eventNotEnabled
        | some fmt =>
          let rs := if useLatch then (match m.latch with | some l => l.rows | none => []) else rows
          let m1 := m.setTile t (mmaTile ka fmt m.activeBank (colsOf p.die) pass rs rm cm (m.tile t))
          let m2 := if reuse && !useLatch then { m1 with latch := some ⟨ka, mxK fmt, rows⟩ } else m1
          if pass + 1 < mxPasses ka fmt then
            .next (s.setMx p { m2 with
              queue := replaceFirst e { e with op := .mma ka reuse t i j useLatch rows rm cm (pass + 1) } m2.queue
              lastPc := e.pc, lastPasses := pass + 1 })
          else
            let m3 := if useLatch && !reuse then { m2 with latch := none } else m2
            .next ((s.setMx p (m3.complete e (pass + 1))).freeMx p)
      | _ => .refused .eventNotEnabled
    | none => .refused .eventNotEnabled

/-- A tile entry times OSCALE, rounded once to a format (R198, R199). -/
def scaledEntry (f : FFmt) (m : Mx) (x : Word) : Nat :=
  (fpRound f .rne false 0 (fvMul (fpDecode fmtF32 x.toNat) (fpDecode fmtF32 m.oscale.toNat)).1).1

/-- The register writes of an MRDA in one member group (R198). -/
def mrdaWrites (m : Mx) (n : Nat) (raw : Bool) (t : Tile) (d : Opd) (cnt row0 col : Nat) (mask : Mask) (base : Nat) : List Write :=
  (List.range cnt).flatMap (fun j =>
    writeVec (Opd.plus d j) 0 mask ((List.range W).map (fun i =>
      let r := row0 + base + i
      if r < 128 && col + j < n then
        let x := Sparse.get (0 : Word) (m.tile t) (r * n + col + j)
        if raw then x else BitVec.ofNat 32 (scaledEntry fmtF32 m x)
      else 0)))

/-- An MRDA's results are on their way to be written (R37, R198). -/
def State.fillToken (s : State) (k : GKey) (token : Nat) (ws : List Write) : State :=
  s.modGroup k (fun g => { g with inFlight := g.inFlight.map (fun e =>
    if e.token == some token then { e with token := none, writes := ws } else e) })

/-- The bytes that MSTA writes (R199). -/
def mstaBytes (m : Mx) (n : Nat) (t : Tile) (ft : TC) : List Byte :=
  (List.range (128 * n)).flatMap (fun i =>
    let x := Sparse.get (0 : Word) (m.tile t) i
    leBytes (tileSize ft) (if ft = .i32 then x.toNat else scaledEntry (tcFmt ft) m x))

/-- One array instruction other than MMA and MWSW takes effect (R196 to R199). -/
def arrayStep (p : PKey) (m : Mx) (s : State) : MxOp → State × Mx
  | .mzero t => (s, m.setTile t [])
  | .mrda raw t d cnt row0 col ms token =>
    (ms.foldl (fun s x => s.fillToken x.1 token (mrdaWrites m (colsOf p.die) raw t d cnt row0 col x.2.1 x.2.2)) s, m)
  | .mwra t ws => (s, m.setTile t (ws.foldl (fun l x => Sparse.set (0 : Word) l (x.1 * colsOf p.die + x.2.1) x.2.2) (m.tile t)))
  | .msta t off ft =>
    let bs := mstaBytes m (colsOf p.die) t ft
    (if (segsOf off bs.length).all (fun j => (s.core ⟨p.die, p.core⟩).segOwner j == some m.ctx) then
      (s.spLate ⟨p.die, p.core⟩ off bs.length (.mx p m.ctx)).modCore ⟨p.die, p.core⟩ (fun c => c.spWrite off bs)
    else s, m)
  | .mlda t off =>
    let c := (s.core ⟨p.die, p.core⟩).seenBy m.ctx
    (s, m.setTile t (Sparse.mapFrom (0 : Word) (fun i _ => BitVec.ofNat 32 (leNat (c.spRead (off + 4 * i) 4))) 0 (128 * colsOf p.die) []))
  | .mrow i x => (s, { m with row := setAt m.row i.toNat x })
  | .mcol j x => (s, { m with col := setAt m.col j.toNat x })
  | .msca x => (s, { m with oscale := x })
  | .mrel => (s, { m with latch := none })
  | _ => (s, m)

/-- An instruction that takes effect in one step of the array sequence: MMA has its passes, and MWSW its swap (R186, R187). -/
def arrayMayRun : MxOp → Bool
  | .mma _ _ _ _ _ _ _ _ _ _ => false
  | .mwsw => false
  | .mwld _ _ _ => false
  | _ => true

/-- The groups whose registers an instruction of the array writes (R198). -/
def MxOp.writers : MxOp → List GKey
  | .mrda _ _ _ _ _ _ ms _ => ms.map (·.1)
  | _ => []

/-- ARRAY_SEQUENCE_STEP (R187, R196 to R199). -/
def execArraySequenceStep (p : PKey) (s : State) : Host.Outcome State Fault Refusal :=
  match (s.part p).mx with
  | none => .refused .eventNotEnabled
  | some m =>
    match arrayHead false m.queue with
    | some (e, _) =>
      if arrayMayRun e.op then
        let r := arrayStep p m s e.op
        .next (e.op.writers.foldl State.settle ((r.1.setMx p (r.2.complete e 0)).freeMx p))
      else .refused .eventNotEnabled
    | none => .refused .eventNotEnabled

end Sys2Proof.Machine
end

