-- ==== Sys2Proof/Machine/Access.lean ====
section
/-! DEFINITION. The lane-by-lane effect that memory, scratchpad, atomic and versioned instructions share (R209, R216):
each executing lane, ascending, or one access in scalar form; the lanes that fail fault together and the others
complete. -/

namespace Sys2Proof.Machine

/-- What one lane's access comes to. -/
inductive LaneRes where
  /-- It is performed; a load or an atomic returns the number. -/
  | val (x : Nat)
  /-- It is pending, and its result comes when it is performed (R281, R284, R285, R298). -/
  | late
  /-- It is performed and writes these registers. -/
  | regs (ws : List Write)
  /-- It is performed and writes no register. -/
  | skip
  /-- A check fails; FAULTADDR. -/
  | bad (f : FaultCode) (addr : BitVec 64)
  /-- A register is at or above the budget; FAULTREG (R393). -/
  | badReg (f : FaultCode) (reg : Nat)

/-- What the lanes of one group come to. -/
structure LaneRun where
  state : State
  vals : List Nat
  wrote : Mask
  extra : List Write
  late : Bool
  faults : List LaneFault

def oneLane (i : Nat) : Mask := BitVec.ofNat 64 (2 ^ i)

/-- Add one lane's result; `lanes` are the lanes it stands for. -/
def LaneRun.add (r : LaneRun) (k : GKey) (reg : Nat) (lanes : Mask) : State × LaneRes → LaneRun
  | (s, .val x) => { r with state := s, vals := r.vals ++ [x], wrote := r.wrote ||| lanes }
  | (s, .regs ws) => { r with state := s, vals := r.vals ++ [0], extra := r.extra ++ ws }
  | (s, .late) => { r with state := s, vals := r.vals ++ [0], late := true }
  | (s, .skip) => { r with state := s, vals := r.vals ++ [0] }
  | (s, .bad f a) => { r with state := s, vals := r.vals ++ [0], faults := r.faults ++ [⟨k, lanes, f, reg, a⟩] }
  | (s, .badReg f n) => { r with state := s, vals := r.vals ++ [0], faults := r.faults ++ [⟨k, lanes, f, n, 0⟩] }

/-- The lanes of a group in ascending order: `f s lane who` performs the access of one lane. -/
def laneRun (k : GKey) (reg : Nat) (m : Mask) (f : State → Nat → Mask → State × LaneRes) (s : State) : LaneRun :=
  (List.range W).foldl (fun r i =>
    if laneBit m i then r.add k reg (oneLane i) (f r.state i (oneLane i))
    else { r with vals := r.vals ++ [0] }) ⟨s, [], 0, [], false, []⟩

/-- One access for the group, in the program order of every executing lane (R274). -/
def scalarRun (k : GKey) (reg : Nat) (m : Mask) (f : State → Nat → Mask → State × LaneRes) (s : State) : LaneRun :=
  (⟨s, [], 0, [], false, []⟩ : LaneRun).add k reg m (f s 0 m)

/-- The lanes in whose program order a handler's accesses stand (R322), or those given. -/
def State.threads (s : State) (g : Group) (m : Mask) : Mask :=
  if s.cur.phase == .handler then g.fault.lanes &&& g.live else m

/-- The writes of a run's results. -/
def LaneRun.writes (r : LaneRun) (scalar : Bool) (d : Opd) (run : Nat) : List Write :=
  if r.wrote == 0 then []
  else if scalar then resWrites1 d run (nth 0 r.vals 0)
  else resWrites d run r.wrote r.vals

/-- Register writes made at once, with those of the lanes' accesses that are still pending: an instruction that faults leaves its
completed lanes' results written (R209). -/
def State.writeNow (s : State) (k : GKey) (ws : List Write) : State :=
  (s.performIssue k s.tick).modGroup k (fun g => Write.applyAll g ws)

/-- Operand codes of a register or run. -/
def runCodes (o : Opd) (run : Nat) : List Nat := (List.range run).map (fun j => o.code + j)

/-- One member group's part of an access, before its results are queued. -/
structure GroupRun where
  key : GKey
  writes : List Write
  coming : List Nat

/-- What one member group's lanes do: `dst` is the destination and its run, none when no register is written; `reg` is
the operand code that FAULTREG names; `pre` are lanes that have failed already. -/
def accessStep (pre : List LaneFault) (scalar : Bool) (reg : Nat) (dst : Option (Opd × Nat))
    (f : GKey → State → Nat → Mask → State × LaneRes) (acc : State × List GroupRun × List LaneFault) (y : Group × Mask) :
    State × List GroupRun × List LaneFault :=
  let x := (y.1, y.2 &&& ~~~(faultLanesOf pre y.1.key))
  if x.2 == 0 then (acc.1, acc.2.1 ++ [⟨x.1.key, [], []⟩], acc.2.2)
  else
    let r := (if scalar then scalarRun else laneRun) x.1.key reg x.2 (f x.1.key) acc.1
    let ws := (match dst with | some d => r.writes scalar d.1 d.2 | none => []) ++ r.extra
    let cs := match dst with | some d => if r.late then runCodes d.1 d.2 else [] | none => []
    (r.state, acc.2.1 ++ [⟨x.1.key, ws, cs⟩], acc.2.2 ++ r.faults)

/-- The accesses of every member, one after another. -/
def accessRun (pre : List LaneFault) (c : Ctl) (scalar : Bool) (reg : Nat) (dst : Option (Opd × Nat))
    (f : GKey → State → Nat → Mask → State × LaneRes) (s : State) : State × List GroupRun × List LaneFault :=
  (s.execs c).foldl (accessStep pre scalar reg dst f) (s, [], pre)

/-- The results of a run are on their way; nothing is where no register is written. -/
def accessDone (dst : Option (Opd × Nat)) (r : State × List GroupRun × List LaneFault) : State :=
  if dst.isNone then r.1 else r.2.1.foldl (fun s w => s.putVar w.key w.writes w.coming) r.1

/-- The shared effect. -/
def accessEffWith (pre : List LaneFault) (c : Ctl) (scalar : Bool) (reg : Nat) (dst : Option (Opd × Nat))
    (f : GKey → State → Nat → Mask → State × LaneRes) (s : State) : Eff :=
  let r := accessRun pre c scalar reg dst f s
  if r.2.2.isEmpty then .done (accessDone dst r)
  else .fault (r.2.1.foldl (fun s w => s.writeNow w.key w.writes) r.1) r.2.2

def accessEff (c : Ctl) (scalar : Bool) (reg : Nat) (dst : Option (Opd × Nat))
    (f : GKey → State → Nat → Mask → State × LaneRes) (s : State) : Eff := accessEffWith [] c scalar reg dst f s

/-- A value that an operand gives a lane, or gives once. -/
def State.lane (s : State) (g : Group) (f j : Nat) (o : Opd) (scalar : Bool) (i : Nat) : Word :=
  if scalar then s.scal g f j o else nth 0 (s.vec g f j o) i

/-- A datum of a type: the low word, or both words of a pair. -/
def State.laneData (s : State) (g : Group) (f : Nat) (it : IT) (o : Opd) (scalar : Bool) (i : Nat) : Nat :=
  let lo := (s.lane g f 0 o scalar i).toNat
  if it.bits = 64 then lo + (s.lane g f 1 o scalar i).toNat * 2 ^ 32 else lo % 2 ^ it.bits

end Sys2Proof.Machine
end

