-- ==== Sys2Proof/Machine/Scratch.lean ====
section
/-! DEFINITION. Scratchpad and tag-table instructions, OP 0x74 to 0x76 (R246 to R252). -/

namespace Sys2Proof.Machine

/-- The checks of a scratchpad access in their order (R247, R250), with the read of a poisoned word last (R262). -/
def Core.spCheck (c : Core) (ctx o z : Nat) (reads : Bool) : Option FaultCode :=
  if o % z ≠ 0 then some .addrMisalign
  else if spBytes < o + z then some .addrBounds
  else if c.segRefused ctx o z then some .addrOwner
  else if reads && c.spPoisoned o z then some .eccUncorr
  else none

/-- One LDSP or STSP for lanes: `data` is what a store writes (R250). A load finds the last store, and of what a copy or the matrix unit
has written what comes before it and, by a free choice, more (R249, R273). -/
def spLane (z : Nat) (it : IT) (o : Nat) (data : Option Nat) (who : Mask) (g : Group) (s : State) : State × LaneRes :=
  let c := if data.isNone then s.spView g who o z else s.core g.core
  match c.spCheck g.ctx o z data.isNone with
  | some f => (s, .bad f (BitVec.ofNat 64 o))
  | none =>
    let c1 := (s.core g.core).claim g.ctx o z
    match data with
    | none => ((s.spNote g who o z).setCore c1, .val (itExtend it (leNat ((c.claim g.ctx o z).spRead o z))))
    | some x => ((s.lateStore g.core o (leBytes z x)).setCore (c1.spWrite o (leBytes z x)), .skip)

/-- The effect of LDSP and STSP (R250): a load stands behind the lane's earlier loads of device memory, and a store behind those of
device and host memory and behind a fence (R281, R284, R287). -/
def spEff (c : Ctl) (it : IT) (store : Bool) (d a b : Opd) (s : State) : Eff :=
  let z := it.bits / 8
  accessEff c d.isScalarDst 0 (if store then none else some (d, it.run)) (fun k s1 i who =>
    match s.group? k with
    | none => (s1, .skip)
    | some g =>
      let o := (s.lane g 1 0 a d.isScalarDst i + s.lane g 2 0 b d.isScalarDst i).toNat
      spLane z it o (if store then some (s.laneData g 0 it d d.isScalarDst i) else none) (s.threads g who) g
        (if store then s1.beforeWrite k (s.threads g who) else s1.devLoadsFirst k (s.threads g who))) s

/-- LDSP (R250). -/
def execLdsp (c : Ctl) (it : IT) (d a b : Opd) (s : State) : Host.Outcome State Fault Refusal :=
  issue (.ldsp c it d a b) c s (spEff c it false d a b)
/-- STSP (R250). -/
def execStsp (c : Ctl) (it : IT) (d a b : Opd) (s : State) : Host.Outcome State Fault Refusal :=
  issue (.stsp c it d a b) c s (spEff c it true d a b)

/- ### The tag table (R251, R252) -/

/-- The slot at which a context holds a key (R252). -/
def Core.tlook (c : Core) (ctx : Nat) (key : Word) : Nat :=
  match c.tagTable.find? (fun e => e.owner == ctx && e.key == key) with | some e => e.slot | none => 0xFFFFFFFF

/-- TLOOK (R252): it stands behind the lane's earlier loads of device memory, as LDSP does (R249, R281, R287). -/
def execTlook (c : Ctl) (d key : Opd) (s : State) : Host.Outcome State Fault Refusal :=
  issue (.tlook c d key) c s (fun s =>
    accessEff c d.isScalarDst 0 (some (d, 1)) (fun k s1 i who =>
      match s.group? k with
      | none => (s1, .skip)
      | some g =>
        let s2 := s1.devLoadsFirst k (s.threads g who)
        (s2, .val ((s2.core g.core).tlook g.ctx (s.lane g 1 0 key d.isScalarDst i)))) s)

/-- The check of a slot that TSET or TCLR names (R252). -/
def Core.slotFault (c : Core) (ctx slot : Nat) : Option FaultCode :=
  if 255 < slot then some .addrBounds
  else match c.tagTable.find? (fun e => e.slot == slot) with
    | some e => if e.owner ≠ ctx then some .addrOwner else none
    | none => none

/-- The tag table with a key in a slot: a context holds a key in at most one slot (R251, R252). -/
def Core.tset (c : Core) (ctx slot : Nat) (key : Word) : Core :=
  { c with tagTable := c.tagTable.filter (fun e => e.slot != slot && !(e.owner == ctx && e.key == key)) ++ [⟨slot, key, ctx⟩] }
def Core.tclr (c : Core) (slot : Nat) : Core := { c with tagTable := c.tagTable.filter (fun e => e.slot != slot) }

/-- The instruction acts lane by lane when a source names a value per lane (R117). -/
def laneForm (os : List Opd) : Bool := os.any (fun o => perLaneOpd o || o.isQ)

/-- TSET's and TCLR's effect on one slot a lane, behind what a store to the scratchpad stands behind (R220, R249, R277, R287). -/
def slotEff (c : Ctl) (slot : Opd) (others : List Opd) (f : State → Group → Nat → Core → Nat → Core) (s : State) : Eff :=
  let scalar := !laneForm (slot :: others)
  accessEff c scalar 0 none (fun k s1 i who =>
    match s.group? k with
    | none => (s1, .skip)
    | some g =>
      let n := (s.lane g 1 0 slot scalar i).toNat
      let s2 := s1.beforeWrite k (s.threads g who)
      match (s2.core g.core).slotFault g.ctx n with
      | some e => (s2, .bad e (BitVec.ofNat 64 n))
      | none => (s2.setCore (f s g i (s2.core g.core) n), .skip)) s

/-- TSET (R252). -/
def execTset (c : Ctl) (slot key : Opd) (s : State) : Host.Outcome State Fault Refusal :=
  issue (.tset c slot key) c s
    (slotEff c slot [key] (fun s g i co n => co.tset g.ctx n (s.lane g 2 0 key (!laneForm [slot, key]) i)))

/-- TCLR (R252). -/
def execTclr (c : Ctl) (slot : Opd) (s : State) : Host.Outcome State Fault Refusal :=
  issue (.tclr c slot) c s (slotEff c slot [] (fun _ _ _ co n => co.tclr n))

end Sys2Proof.Machine
end

