-- ==== Sys2Proof/Machine/Memory.lean ====
section
/-! DEFINITION. Memory access, OP 0x60 to 0x69 (R201 to R222): loads and stores of device memory through handles, of
windows through flat addresses, PREF, FENCE, BTRD and ROWMAP, with the order that R218 and R281 to R285 give them. -/

namespace Sys2Proof.Machine

/- ### Windows and flat addresses (R212, R385) -/

/-- Entry `i` of a context's window table. -/
def State.window (s : State) (c : Ctx) (i : Nat) : Nat := s.memNat (c.wintab + 16 * i) 16
def wBase (w : Nat) : Nat := fld w 0 56
def wLen (w : Nat) : Nat := fld w 64 56
def wHolds (w a : Nat) : Bool := bitOf w 56 && wBase w ≤ a && a < wBase w + wLen w

/-- The lowest-numbered window that holds an address. -/
def State.windowAt (s : State) (c : Ctx) (a : Nat) : Option Nat := ((List.range 64).map (s.window c)).find? (fun w => wHolds w a)

/-- The valid buffer of a context that holds an address. DESIGN CHOICE (log 105): of several that overlap, the one of the lowest index;
R212 speaks of none. -/
def State.bufferAt (s : State) (ctx a : Nat) : Option Nat :=
  (s.bufs.find? (fun x =>
    let e : Entry := x.2
    e.ok && e.owner == ctx && e.vbase ≤ a && a < e.vbase + e.len)).map (·.1)

/-- What an access comes to before it is performed. -/
inductive Reach where
  | at_ (p : Phys)
  /-- A span link on the way is down. -/
  | down (link : Nat)
  | bad (f : FaultCode)
  deriving DecidableEq, Repr

def Reach.of : Except FaultCode Phys → Reach
  | .ok p => .at_ p
  | .error f => .bad f

/-- What sets the six access instructions apart. -/
structure Acc where
  it : IT
  store : Bool
  map : Bool
  flat : Bool
  deriving DecidableEq, Repr

def Acc.size (a : Acc) : Nat := a.it.bits / 8

/-- The right a buffer must give (R207, R208), and the kinds it may have. -/
def Acc.right (a : Acc) (e : Entry) : Bool := if a.store then e.wr else if e.kind = 1 then e.vr else e.rd
def Acc.kindOk (a : Acc) (k : Nat) : Bool := if a.store then k == 0 else k ≤ 1

def Acc.req (a : Acc) (ctx : Nat) (h : Word) (off : Int) : Req :=
  { ctx := ctx, h := h, off := off, z := a.size, align := a.size, right := a.right, kind := a.kindOk,
    useMap := a.map, reads := !a.store }

/-- A window's checks: alignment, length, rights; then the way to its memory: over a span link that is up, or was when the request
went through, and none for a request whose 10 ms are over (R212, R385). -/
def State.throughWindow (s : State) (g : Group) (w a : Nat) (x : Acc) : Reach :=
  if a % x.size ≠ 0 then .bad .addrMisalign
  else if wBase w + wLen w < a + x.size then .bad .addrBounds
  else if !bitOf w (if x.store then 59 else 58) then .bad .addrRights
  else if bitOf w 57 then .at_ ⟨.host, a, 0, 0, 0⟩
  else
    let k := fld w 60 4
    if bitOf s.regs.spanstat.toNat k && !g.spanHold.any (fun h => h.link == k && h.expired) ||
        g.spanHold.any (fun h => h.link == k && h.passed) then .at_ ⟨.peer k, a, 0, 0, 0⟩
    else .down k

/-- A flat address (R212): the windows, then the context's buffers. -/
def State.flatReach (s : State) (g : Group) (pair : Nat) (a : Int) (x : Acc) : Reach :=
  if 2 ^ 56 ≤ pair || a < 0 || 2 ^ 56 ≤ a then .bad .addrBounds
  else match s.ctx? g.ctx with
    | none => .bad .addrBounds
    | some c =>
      match s.windowAt c a.toNat with
      | some w => s.throughWindow g w a.toNat x
      | none =>
        match s.bufferAt g.ctx a.toNat with
        | some i => .of (s.check (x.req g.ctx (BitVec.ofNat 32 i) (a - (s.entry i).vbase)))
        | none => .bad .addrBounds

/- ### One lane's access (R216) -/

/-- The handle or address that field H gives, and the offset or flat address (R216); OFF7 is signed (R27). -/
def State.accAddr (s : State) (g : Group) (a : Acc) (x : MemOpd) (scalar : Bool) (i : Nat) : Nat × Int :=
  let b := s.lane g 2 0 x.b scalar i
  let k : Int := x.off.toInt * a.size
  let lo := (s.lane g 1 0 x.h scalar i).toNat
  if a.flat then
    let p := lo + (s.lane g 1 1 x.h scalar i).toNat * 2 ^ 32
    (p, (p : Int) + b.toInt + k)
  else (lo, (b.toNat : Int) + k)

/-- What a lane's access reaches. -/
def State.accReach (s : State) (g : Group) (a : Acc) (x : MemOpd) (scalar : Bool) (i : Nat) : Reach :=
  let t := s.accAddr g a x scalar i
  if a.flat then s.flatReach g t.1 t.2 a else .of (s.check (a.req g.ctx (BitVec.ofNat 32 t.1) t.2))

/-- An access goes through the row map (R213). -/
def Acc.maps (a : Acc) (h : Word) (e : Entry) : Bool := a.map && hView h == 0 && e.rmap != 0

/-- The offset that an access through a handle reaches (R213). -/
def State.placed (s : State) (a : Acc) (h : Word) (o : Int) : Int :=
  let e := s.entry (hIndex h)
  if a.maps h e then s.mapped e o.toNat else o

/-- The die at which a request fails: a lost one of the row map, or the home of the line (R342, R343). -/
def State.failDie (s : State) (g : Group) (a : Acc) (t : Nat × Int) : Nat :=
  let h : Word := BitVec.ofNat 32 (if a.flat then (s.bufferAt g.ctx t.2.toNat).getD 0 else t.1)
  let e := s.entry (hIndex h)
  let o := if a.flat then (t.2 - e.vbase).toNat else t.2.toNat
  match if a.maps h e then (State.mapDie e o).filter s.lost.contains else none with
  | some d => d
  | none => s.homeAt e (hView h) (s.placed a h o).toNat

/-- An access that reads the row map touches the die of the word that maps it, whatever its later checks find (R342). -/
def State.touchMap (s : State) (ctx : Nat) (a : Acc) (h : Word) (o : Int) : State :=
  match s.mapReached (a.req ctx h o) with
  | some d => s.touch ctx d
  | none => s

/-- A failed check with its FAULTADDR: XLATE_MISS is reported to the driver with the offset in the buffer whose frame is missing, so of
an access through the row map the mapped one (R205, R380; DEDUCED, log 106), and a lost die is named in place of the address. A read
that found an uncorrectable error has reached its home (R342). -/
def State.accFail (s : State) (g : Group) (f : FaultCode) (buf : Nat) (addr off : Int) (die : Nat) : State × LaneRes :=
  let a : BitVec 64 := BitVec.ofInt 64 addr
  if f == .xlateMiss then (s.post 4 g.core.die g.ctx (BitVec.ofNat 32 buf) (BitVec.ofInt 64 off), .bad f a)
  else if f == .dieLost then (s, .bad f (BitVec.ofNat 64 die))
  else if f == .eccUncorr then (s.touch g.ctx die, .bad f a)
  else (s, .bad f a)

/-- A write of the group to a byte inside a bound walk's extent discards the walk's fetched steps (R88). -/
def Group.dropSteps (g : Group) (buf off z : Nat) : Group :=
  { g with q := g.q.map (fun x => x.map (fun b =>
      if hIndex b.handle == buf && b.low < (off : Int) + z && (off : Int) ≤ b.high then { b with ahead := [] } else b)) }

/-- The offset inside the buffer that a physical access has. -/
def Phys.offset (p : Phys) : Nat := p.line * 256 + p.addr % 256

/-- An access of the group is pending from now on. -/
def Group.addPending (g : Group) (p : Pending) : Group :=
  let g1 := { g with pending := g.pending ++ [p] }
  if p.writes && p.at_.space == .dev then g1.dropSteps p.at_.buf p.at_.offset p.size else g1

/-- An access of a group reaches its memory and is pending until it is performed, what releases have shown it being performed
first (R277, R281). -/
def State.pend (s : State) (k : GKey) (p : Pending) : State :=
  ((s.pull k (fun e => e.meets p)).reach p.ctx p.at_).modGroup k (fun g => g.addPending p)

/-- A load that reaches its memory: it is performed now, behind what it must follow, or, unless it acquires at system scope, later
(R281, R284, R285): of host and peer memory always, of device memory as a free choice. -/
def State.performLoad (s : State) (k : GKey) (who : Mask) (a : Acc) (x : MemOpd) (p0 : Phys) (dst : Opd) (lanes : Mask) :
    State × LaneRes :=
  let acq := x.ord == .acq || x.ord == .ar
  let fresh := acq && scpWide x.scp
  match s.group? k with
  | none => (s, .skip)
  | some g =>
    let p := s.atReplica g p0
    let e : Pending := ⟨who, p, g.ctx, .load a.it dst lanes, none, if acq then some x.scp else none, s.tick, [], none⟩
    let s1 := if x.ord == .ar then s.orderBefore k x.scp (fun e => e.of who && e.rel.isSome && !e.isFence) else s
    if !(acq && x.scp == .system) && p.space != .cells && (p.space != .dev || Config.lateLoad s.tick p.addr) then
      (s1.pend k e, .late)
    else
      let s2 := (s1.before k e).reach g.ctx p
      let s3 := if acq then s2.acquire g.core.die g.ctx x.scp else s2
      (s3.keepCopy g who p fresh, .val (itExtend a.it (leNat (s3.laneLoad g who p a.size fresh))))

/-- A store that reaches its memory: it is pending until it is performed (R281). -/
def State.performStoreIssue (s : State) (k : GKey) (who : Mask) (a : Acc) (x : MemOpd) (p : Phys) (data : Nat) : State :=
  match s.group? k with
  | none => s
  | some g =>
    let e : Pending :=
      ⟨who, p, g.ctx, .store (leBytes a.size data), if x.ord == .rel then some x.scp else none, none, s.tick, [], none⟩
    s.pend k e

/-- One lane's LD, ST, LDX, STX, LDV or STV. -/
def memLane (a : Acc) (d : Opd) (x : MemOpd) (scalar : Bool) (s0 : State) (k : GKey) (s : State) (i : Nat) (who : Mask) :
    State × LaneRes :=
  match s0.group? k with
  | none => (s, .skip)
  | some g =>
    let t := s0.accAddr g a x scalar i
    let th := s0.threads g who
    let h : Word := BitVec.ofNat 32 t.1
    match s.accReach g a x scalar i with
    | .bad f =>
      let buf := if a.flat then (s.bufferAt g.ctx t.2.toNat).getD 0 else hIndex h
      let s1 := s.touchMap g.ctx a h t.2
      s1.accFail g f buf (if a.flat then t.2 else t.2 % 2 ^ 32) (if a.flat then t.2 - (s.entry buf).vbase else s.placed a h t.2)
        (s.failDie g a t)
    | .down _ => (s, .bad .xlateMiss (BitVec.ofInt 64 t.2))
    | .at_ p =>
      let s1 := s.touchMap g.ctx a h t.2
      if a.store then (s1.performStoreIssue k th a x p (s0.laneData g 0 a.it d scalar i), .skip)
      else s1.performLoad k th a x p d who

/- ### Holds (R228, R385) -/

/-- What every access of an issue reaches. -/
def State.allReach (s : State) (c : Ctl) (a : Acc) (x : MemOpd) (scalar : Bool) : List Reach :=
  (s.execs c).flatMap (fun g =>
    if g.2 == 0 then [] else (if scalar then [0] else lanesOf g.2).map (fun i => s.accReach g.1 a x scalar i))

/-- The links that requests of the issue find down, and on which they still wait. -/
def State.spanWait (s : State) (rs : List Reach) : List Nat :=
  let ended := (s.cur.members.filterMap (fun m => s.group? m.key)).flatMap (fun g =>
    (g.spanHold.filter (fun h => h.expired || h.passed)).map (·.link))
  (rs.filterMap (fun r => match r with | .down l => some l | _ => none)).dedup.filter (fun l => !ended.contains l)

/-- A load or an atomic of the issue meets a line in transit. -/
def State.meetsTransit (s : State) (rs : List Reach) : Bool :=
  rs.any (fun r => match r with | .at_ p => p.space == .dev && s.inTransit p.buf p.line | _ => false)

/-- The members' requests are held on links: the time of each counts from its first hold. -/
def State.setSpanHold (s : State) (ls : List Nat) : State :=
  s.modGroups (fun g =>
    if s.cur.members.any (fun m => m.key == g.key) then
      { g with spanHold := g.spanHold ++ (ls.filter (fun l => !g.spanHold.any (fun h => h.link == l))).map (fun l => ⟨l, s.clk, false, false⟩) }
    else g)

/-- No request of the members is held any more. -/
def State.endSpanHold (s : State) : State :=
  s.modGroups (fun g => if s.cur.members.any (fun m => m.key == g.key) then { g with spanHold := [] } else g)

/-- The effect of the six access instructions (R209, R216, R217). -/
def memEff (c : Ctl) (a : Acc) (d : Opd) (x : MemOpd) (s : State) : Eff :=
  let scalar := d.isScalarDst
  let rs := s.allReach c a x scalar
  let down := s.spanWait rs
  if down != [] then .hold (s.setSpanHold down)
  else if !a.store && s.meetsTransit rs then .hold s
  else
    accessEff c scalar x.h.code (if a.store then none else some (d, a.it.run)) (memLane a d x scalar s) s.endSpanHold

/-- LD (R215, R216). -/
def execLd (c : Ctl) (it : IT) (d : Opd) (x : MemOpd) (s : State) : Host.Outcome State Fault Refusal :=
  issue (.ld c it d x) c s (memEff c ⟨it, false, false, false⟩ d x)
/-- ST. -/
def execSt (c : Ctl) (it : IT) (d : Opd) (x : MemOpd) (s : State) : Host.Outcome State Fault Refusal :=
  issue (.st c it d x) c s (memEff c ⟨it, true, false, false⟩ d x)
/-- LDX: through the row map (R213). -/
def execLdx (c : Ctl) (it : IT) (d : Opd) (x : MemOpd) (s : State) : Host.Outcome State Fault Refusal :=
  issue (.ldx c it d x) c s (memEff c ⟨it, false, true, false⟩ d x)
/-- STX. -/
def execStx (c : Ctl) (it : IT) (d : Opd) (x : MemOpd) (s : State) : Host.Outcome State Fault Refusal :=
  issue (.stx c it d x) c s (memEff c ⟨it, true, true, false⟩ d x)
/-- LDV: at a flat address (R212). -/
def execLdv (c : Ctl) (it : IT) (d : Opd) (x : MemOpd) (s : State) : Host.Outcome State Fault Refusal :=
  issue (.ldv c it d x) c s (memEff c ⟨it, false, false, true⟩ d x)
/-- STV. -/
def execStv (c : Ctl) (it : IT) (d : Opd) (x : MemOpd) (s : State) : Host.Outcome State Fault Refusal :=
  issue (.stv c it d x) c s (memEff c ⟨it, true, false, true⟩ d x)

/- ### PREF (R219) -/

/-- PREF's request: the checks up to XLATE_MISS for one line, with no right; a SYNC buffer refuses it (R208). -/
def prefReq (ctx : Nat) (h : Word) (off : Int) : Req :=
  { ctx := ctx, h := h, off := off, z := 1, align := 1, right := fun _ => true, kind := fun k => k ≤ 1, useMap := false, reads := false }

/-- The issuing die holds a clean copy of a line homed elsewhere, with what releases have shown to the die's groups (R282). -/
def State.prefetch (s : State) (die ctx : Nat) (p : Phys) : State :=
  let line := p.addr / 256
  if p.die == die || (s.readCopy die line).isSome || s.dirty.any (fun x => x.line == line && x.die == die) then s
  else
    let shown := fun (h : Group) (e : Pending) => e.writes && e.meetsAt ⟨.dev, line * 256, 0, 0, 0⟩ 256 &&
      s.groups.any (fun g => g.core.die == die && (s.shownAt h g e).isSome)
    (s.pullIf shown).takeCopy die line ctx

/-- One lane's PREF: a failed check leaves no trace, but that a request for a lost die halts the context (R343). -/
def prefLane (h b : Opd) (off : BitVec 7) (scalar : Bool) (s0 : State) (k : GKey) (s : State) (i : Nat) : State × LaneRes :=
  match s0.group? k with
  | none => (s, .skip)
  | some g =>
    let o : Int := (s0.lane g 2 0 b scalar i).toNat + off.toInt * 256
    match s.check (prefReq g.ctx (s0.lane g 1 0 h scalar i) o) with
    | .ok p =>
      let q := s.atReplica g p
      if p.space == .cells then (s.reach g.ctx q, .skip)
      else ((s.reach g.ctx q).prefetch g.core.die g.ctx q, .skip)
    | .error .dieLost =>
      let e := s.entry (hIndex (s0.lane g 1 0 h scalar i))
      (s.meetLost g.ctx (s.homeAt e (hView (s0.lane g 1 0 h scalar i)) o.toNat), .skip)
    | .error _ => (s, .skip)

/-- PREF (R219). -/
def execPref (c : Ctl) (h b : Opd) (off : BitVec 7) (s : State) : Host.Outcome State Fault Refusal :=
  issue (.pref c h b off) c s (fun s =>
    let scalar := !laneForm [h, b]
    accessEff c scalar h.code none (fun k s1 i _ => prefLane h b off scalar s k s1 i) s)

/- ### FENCE (R220) -/

/-- A versioned store is present at every replica: each has received it, or the cell has moved to a later era (R314, R316). -/
def State.vstPresent (s : State) (v : VStore) : Bool :=
  match s.cells.find? (fun c => c.buf == v.buf && c.off == v.off) with
  | none => true
  | some c => c.reps.all (fun r => v.era < r.era || v.n ≤ nth 0 r.cv v.h)

/-- The scope spans every replica of a buffer for a group (R220). -/
def Entry.spanned (e : Entry) (die : Nat) (scp : Scp) : Bool :=
  match scp with
  | .team => false
  | .cluster => false
  | .die => (List.range e.nrep).all (fun i => e.rep i == die)
  | .package => true
  | .system => true

/-- An earlier versioned store of a group that a FENCE of this scope waits for. -/
def State.vstAwaited (s : State) (g : Group) (scp : Scp) : Bool :=
  g.vsts.any (fun v => (s.entry v.buf).spanned g.core.die scp && !s.vstPresent v)

/-- FENCE for the lanes of one group (R220): .rel has later writes stand behind it, .ar releases at once, and .acq and .ar acquire
and discard fetched steps. Earlier loads are performed at system scope, and at a narrower one they stand before what follows (R19). -/
def State.fence (s : State) (g : Group) (who : Mask) (ord : Ordr) (scp : Scp) : State :=
  let acq := if ord == .rel || scp == .system then none else some scp
  let mark : Pending := ⟨who, ⟨.dev, 0, 0, 0, 0⟩, g.ctx, .fence, if ord == .rel then some scp else none, acq, s.tick, [], none⟩
  let s1 := if scp == .system then s.performNeed g.key (fun e => e.of who && e.reads) else s
  let s2 := match ord with
    | .rel => (s1.passOn g.key who s1.tick scp).releaseCopies g who scp
    | .ar => s1.releaseLanes g.key who scp
    | _ => s1
  let s3 := if ord == .rel || acq.isSome then s2.modGroup g.key (fun g => { g with pending := tidy [] (g.pending ++ [mark]) }) else s2
  match ord with
  | .rel => s3
  | _ => (s3.acquire g.core.die g.ctx scp).modGroup g.key Group.dropAhead

/-- An in-place operation of the lanes is not yet performed (R237). -/
def Group.inPlaceWaits (g : Group) (who : Mask) : Bool :=
  g.pending.any (fun e => e.of who && e.isInPlace)

/-- The lanes that a FENCE acts for, group by group: those that execute it, and of a rendezvous every member lane, those too that have
signed (R96, R220). -/
def State.fenceLanes (s : State) (c : Ctl) : List (Group × Mask) :=
  match s.cur.phase, s.issuer with
  | .instance_, some g => ((s.members g c.scope).filter (fun x => x.live != 0)).map (fun x => (x, x.live))
  | _, _ => s.execs c

/-- FENCE's effect. It is held until the earlier versioned stores that its scope covers are present (R220), and, of .rel and .ar, until
the lanes' earlier in-place operations are performed (R237). -/
def fenceEff (c : Ctl) (ord : Ordr) (scp : Scp) (s : State) : Eff :=
  if (s.fenceLanes c).any (fun x => s.vstAwaited x.1 scp || (ord != .acq && x.1.inPlaceWaits (s.threads x.1 x.2))) then .hold s
  else .done ((s.fenceLanes c).foldl (fun s x =>
    let s1 := if x.2 == 0 then s else s.fence x.1 (s.threads x.1 x.2) ord scp
    s1.modGroup x.1.key (fun g => { g with vsts := g.vsts.filter (fun v => !s.vstPresent v) })) s)

/-- FENCE (R220). -/
def execFence (c : Ctl) (ord : Ordr) (scp : Scp) (s : State) : Host.Outcome State Fault Refusal :=
  issue (.fence c ord scp) c s (fenceEff c ord scp)

/- ### BTRD and ROWMAP (R221, R222) -/

/-- The checks of an instruction that reads a buffer's entry (R221, R233). -/
def State.entryFault (s : State) (ctx : Nat) (h : Word) : Option FaultCode :=
  let e := s.entry (hIndex h)
  if !handleOk h e then some .addrBounds else if e.owner ≠ ctx then some .addrOwner else none

/-- Words read from a handle's entry into executing lanes, or once (R221, R233). DESIGN CHOICE (log 33): FAULTADDR of its faults is 0,
which R221 and R233 leave open. -/
def entryEff (c : Ctl) (d : Opd) (h : SReg) (words : Entry → List Word) (s : State) : Eff :=
  let bad := (s.execs c).filterMap (fun x =>
    if x.2 == 0 then none else (s.entryFault x.1.ctx (s.scal x.1 1 0 (.s h))).map (fun f => LaneFault.mk x.1.key x.2 f (0x100 + h.toNat) 0))
  if !bad.isEmpty then .fault s bad
  else .done (s.perLaneVar c (fun g m =>
    ((words (s.entry (hIndex (s.scal g 1 0 (.s h))))).zipIdx).flatMap (fun w =>
      if d.isScalarDst then writeScal d w.2 w.1 else writeVec d w.2 m (List.replicate W w.1))))

/-- BTRD (R221). -/
def execBtrd (c : Ctl) (d : Opd) (h : SReg) (w : Fin 16) (s : State) : Host.Outcome State Fault Refusal :=
  issue (.btrd c d h w) c s (entryEff c d h (fun e => [BitVec.ofNat 32 (e.f (32 * w.val) 32)]))

/-- The die of a word of a row-map copy (R8, R342). -/
def Entry.rowDie (e : Entry) (copy row : Nat) : Nat := Config.lineDie ((e.rmap + 16384 * copy + 4 * row) / 256) % 8

/-- One lane's ROWMAP (R222), which touches the dies of the words that it reads and writes (R342, R343). DESIGN CHOICE (log 33):
FAULTADDR of its faults is the lane's row number, which R222 and R320 leave open. -/
def rowmapLane (ind : Bool) (h : SReg) (row val : Opd) (scalar : Bool) (s0 : State) (k : GKey) (s : State) (i : Nat) (who : Mask) :
    State × LaneRes :=
  match s0.group? k with
  | none => (s, .skip)
  | some g =>
    let hd := s0.scal g 1 0 (.s h)
    let e := s.entry (hIndex hd)
    let b := (s0.lane g 2 0 row scalar i).toNat
    let v := (s0.lane g 3 0 val scalar i).toNat
    let bad := fun (f : FaultCode) => (s, LaneRes.bad f (BitVec.ofNat 64 b))
    if !handleOk hd e || e.rmap = 0 || hView hd ≠ 0 || e.rmlen < b then bad .addrBounds
    else if !e.wr then bad .addrRights
    else if e.owner ≠ g.ctx then bad .addrOwner
    else
      let p := if ind && v ≤ e.rmlen then s.rowWord e e.rmsel v else v
      let dies := (if ind && v ≤ e.rmlen then [e.rowDie e.rmsel v] else []) ++ [e.rowDie (1 - e.rmsel) b]
      match dies.find? s.lost.contains with
      | some x => (s, .bad .dieLost (BitVec.ofNat 64 x))
      | none =>
      let s1 := dies.foldl (fun s x => s.touch g.ctx x) s
      if e.len < (p + 1) * 2 ^ e.rshift then (s1, .bad .addrBounds (BitVec.ofNat 64 b))
      else ((s1.beforeWrite k (s0.threads g who)).putBytes .dev (e.rmap + 16384 * (1 - e.rmsel) + 4 * b) (leBytes 4 p), .skip)

/-- ROWMAP (R222). -/
def execRowmap (c : Ctl) (ind : Bool) (h : SReg) (row val : Opd) (s : State) : Host.Outcome State Fault Refusal :=
  issue (.rowmap c ind h row val) c s (fun s =>
    let scalar := !laneForm [row, val]
    accessEff c scalar (0x100 + h.toNat) none (fun k s1 i who => rowmapLane ind h row val scalar s k s1 i who) s)

end Sys2Proof.Machine
end

