-- ==== Sys2Proof/Machine/Restripe.lean ====
section
/-! DEFINITION. Restripe and the in-place operations, OP 0x70 to 0x72 (R223 to R238), and the line moves. -/

namespace Sys2Proof.Machine

/- ### Completion tags (R253) -/

/-- A tag is CLEAR. -/
def Core.tagClear (c : Core) (n : Nat) : Bool := !c.tags.any (fun t => t.num == n && !t.orphan)

/-- A tag in state BUSY with its operation. -/
def State.newTag (s : State) (g : Group) (n : Nat) (kind : TagKind) (op : TagOp) : Tag :=
  { num := n, ctx := g.ctx, done := false, err := false, kind := kind, key := g.key, pc := s.cur.pc, op := op,
    segs := 0, hold := none, held := none, released := false, mid := false, into := none, stopped := false, orphan := false, born := s.tick }

/-- Start an operation on a tag, after the group's earlier reads and the writes that releases have shown it (R260); the tag's last
use is no kick. `seghold` meets the first operation of its tag on each core (R374). -/
def State.startTag (s : State) (k : CKey) (t : Tag) : State :=
  let hold := match s.ctx? t.ctx with
    | some x => (match x.seghold with | some h => if h.1 == t.num && !x.segUsed.contains k then some h.2 else none | none => none)
    | none => none
  let s0 := (s.performNeed t.key Pending.reads).pull t.key (fun _ => true)
  let s1 := if hold.isSome then s0.modCtx t.ctx (fun c => { c with segUsed := c.segUsed ++ [k] }) else s0
  s1.modCore k (fun c => { c with tags := c.tags ++ [{ t with hold := hold }], kicks := c.kicks.filter (fun x => x.1 != t.num) })

/- ### RESTRIPE and RSQRY (R232, R233) -/

/-- The first check that a RESTRIPE fails: code and FAULTADDR (R232). DESIGN CHOICE (log 33): FAULTADDR is 0 but of TAG_STATE, whose tag
it holds; R232 gives none. -/
def State.restripeFault (s : State) (g : Group) (h : Word) (gathered : Bool) (tag : Nat) : Option (FaultCode × Nat) :=
  let e := s.entry (hIndex h)
  if !handleOk h e || hView h ≠ 0 then some (.addrBounds, 0)
  else if !e.wr then some (.addrRights, 0)
  else if e.owner ≠ g.ctx then some (.addrOwner, 0)
  else if e.kind ≠ 0 then some (.verKind, 0)
  else if !(s.core g.core).tagClear tag then some (.tagState, tag)
  else if e.rstate = 1 || (e.rstate = 2 && e.target ≠ b2n gathered) then some (.restripeBusy, 0)
  else none

/-- RESTRIPE's effect once its checks pass (R232). -/
def State.restripe (s : State) (g : Group) (h : Word) (gathered : Bool) (tag pace : Nat) : State :=
  let i := hIndex h
  let e := s.entry i
  let t := s.newTag g tag .restripe (.restripe i)
  if e.rstate = 0 && e.ilv = b2n gathered then s.startTag g.core { t with done := true }
  else
    let e1 := if e.rstate = 0 then e.put 160 32 0 else e
    let e2 := ((((e1.put 201 1 (b2n gathered)).put 202 12 (min pace 4095)).put 195 6 tag).put 214 3 g.core.die).put 217 7 g.core.core
    let s1 := (s.setEntry i (e2.put 192 3 1)).startTag g.core t
    if e.rstate = 0 then { s1 with moveAt := s1.moveAt.filter (fun x => x.1 != i) } else s1

/-- RESTRIPE (R232). -/
def execRestripe (c : Ctl) (gathered : Bool) (h : SReg) (tag : BitVec 6) (pace : Opd) (s : State) : Host.Outcome State Fault Refusal :=
  issue (.restripe c gathered h tag pace) c s (fun s => onGroup c s (fun g m e =>
    let hd := s.scal g 1 0 (.s h)
    if e == 0 then .done s
    else match s.restripeFault g hd gathered tag.toNat with
      | some f => execFault s m e f.1 0 (BitVec.ofNat 64 f.2)
      | none => .done (s.restripe g hd gathered tag.toNat (s.scal g 3 0 pace).toNat)))

/-- RSQRY's status word (R233). -/
def rsqryWord (e : Entry) : Nat :=
  e.rstate + e.ilv * 2 ^ 3 + e.target * 2 ^ 4 + e.rtag * 2 ^ 5 + e.rdie * 2 ^ 11 + e.rcore * 2 ^ 14

/-- RSQRY (R233). -/
def execRsqry (c : Ctl) (d : Opd) (h : SReg) (s : State) : Host.Outcome State Fault Refusal :=
  issue (.rsqry c d h) c s (entryEff c d h (fun e => [BitVec.ofNat 32 e.milestone, BitVec.ofNat 32 (rsqryWord e)]))

/- ### Line moves (R227 to R231) -/

/-- Stacks of a buffer's channel set (R202). -/
def Entry.stacks (e : Entry) : List Nat := (List.range e.nstk).map (fun i => (e.stk0 + i) % 16)

/-- Two buffers have a stack in common, and so a controller. -/
def State.shareStack (s : State) (a b : Nat) : Bool := (s.entry a).stacks.any (s.entry b).stacks.contains

/-- A kick or an in-place operation that the buffer's controllers accepted before its restripe has not completed (R229). -/
def State.kickRuns (s : State) (buf : Nat) : Bool :=
  let e := s.entry buf
  let start := match (s.core ⟨e.rdie, e.rcore⟩).restripeTag e.rtag buf with | some t => t.born | none => s.tick
  s.cores.any (fun c => c.tags.any (fun t =>
    !t.done && t.born < start && (match t.op with | .kick h _ _ _ _ _ _ _ => s.shareStack (hIndex h) buf | _ => false))) ||
    s.groups.any (fun g => g.pending.any (fun p =>
      p.issue < start && (match p.op with | .inPlace _ _ _ => s.shareStack p.at_.buf buf | _ => false)))

/-- The earliest clk of the next line move; none before the first (R227). -/
def State.nextMove (s : State) (buf : Nat) : Option Nat :=
  (s.moveAt.find? (fun x => x.1 == buf)).map (fun x => max (x.2.1 + 16 * (s.entry buf).pace) x.2.2)

/-- The next line move of a restripe may start (R227, R229). -/
def State.mayMove (s : State) (buf : Nat) : Bool :=
  let e := s.entry buf
  e.rstate = 1 && !s.transit.contains buf && e.milestone < e.lines && !s.halted e.owner &&
    !s.kickRuns buf && (match s.nextMove buf with | some t => t ≤ s.clk | none => true)

/-- A lost die that the next line move would reach. -/
def State.moveLost (s : State) (buf : Nat) : Option Nat := (s.moveHomes buf).find? s.lost.contains

/-- LINE_MOVE_START (R227): the line is in transit, and the home dies of a move are touched (R342); a move that would reach a lost die
halts the owner instead (R343). -/
def execLineMoveStart (buf : Nat) (s : State) : Host.Outcome State Fault Refusal :=
  let e := s.entry buf
  if !s.mayMove buf then .refused .eventNotEnabled
  else match s.moveLost buf with
  | some d => .next (s.meetLost e.owner d)
  | none =>
    let s1 := (s.moveHomes buf).foldl (fun s d => s.touch e.owner d) s
    .next { s1 with
      transit := s1.transit ++ [buf]
      moveAt := s1.moveAt.filter (fun x => x.1 != buf) ++ [(buf, s1.clk, 0)] }

/-- LINE_MOVE_COMMIT (R227, R230, R231). -/
def execLineMoveCommit (buf : Nat) (s : State) : Host.Outcome State Fault Refusal :=
  if !s.transit.contains buf || (s.moveLost buf).isSome then .refused .eventNotEnabled else .next (s.commitLine buf)

/- ### In-place operations (R234 to R238) -/

/-- The line of an offset is placed GATHERED (R226). -/
def Entry.gathered (e : Entry) (off : Nat) : Bool := e.lineIlv (off / 256) == 1

/-- Offsets that share a bank neighbourhood, tiers given (R224). -/
def neighbours (e : Entry) (tier : Nat → Nat) : List Nat → Bool
  | [] => true
  | x :: t =>
    let all := x :: t
    all.all (fun o => tier o == 0) &&
      (all.all (fun o => o / 256 == x / 256) || all.all (fun o => o / 1024 == x / 1024 && e.gathered o))

/-- The first check that an in-place lane fails (R235). -/
def State.ipCheck (s : State) (ctx : Nat) (h : Word) (offs : List Nat) : Option FaultCode :=
  let e := s.entry (hIndex h)
  if offs.any (fun o => o % wordBytes != 0) then some .ipAlign
  else if !handleOk h e || hView h ≠ 0 then some .addrBounds
  else if offs.any (fun o => e.len < o + wordBytes) then some .addrBounds
  else if !e.ip then some .addrRights
  else if e.owner ≠ ctx then some .addrOwner
  else if e.kind ≠ 0 then some .verKind
  else if offs.any (fun o => !dPresent (s.descr e 0 o)) then some .xlateMiss
  else if e.rstate ≠ 0 && offs.any (fun o => e.milestone ≤ o / 256) then some .ipTransit
  else if !neighbours e (fun o => dTier (s.descr e 0 o)) offs then some .ipSplit
  else if offs.any (fun o => s.lost.contains (s.homeAt e 0 o)) then some .dieLost
  else none

/-- An accepted lane (R236, R237): it is pending, behind what it must follow. -/
def State.ipAccept (s : State) (k : GKey) (who : Mask) (g : Group) (h : Word) (f : IpFn) (dst a b : Nat) : State :=
  let e := s.entry (hIndex h)
  let p := fun (o : Nat) => s.phys e h o
  let used := [dst, a] ++ (if f.op.usesB then [b] else [])
  let s1 := used.foldl (fun s o =>
    ((s.performNeed k (fun e => e.of who && e.meetsAt (p o) wordBytes)).pull k (fun e => e.meetsAt (p o) wordBytes)).reach g.ctx (p o)) s
  let x : Pending := ⟨who, p dst, g.ctx, .inPlace f (p a) (p (if f.op.usesB then b else a)), none, none, s.tick, [], none⟩
  s1.modGroup k (fun g => g.addPending x)

/-- One lane of an in-place operation. -/
def ipLane (f : IpFn) (h : SReg) (dst a b : Opd) (s0 : State) (k : GKey) (s : State) (i : Nat) (who : Mask) : State × LaneRes :=
  match s0.group? k with
  | none => (s, .skip)
  | some g =>
    let hd := s0.scal g 0 0 (.s h)
    let od := (s0.lane g 1 0 dst false i).toNat
    let oa := (s0.lane g 2 0 a false i).toNat
    let ob := if f.op.usesB then (s0.lane g 3 0 b false i).toNat else 0
    match s.ipCheck g.ctx hd ([od, oa] ++ (if f.op.usesB then [ob] else [])) with
    | some x =>
      let e := s.entry (hIndex hd)
      let miss := ([od, oa] ++ (if f.op.usesB then [ob] else [])).find? (fun o => !dPresent (s.descr e 0 o))
      s.accFail g x (hIndex hd) od (miss.getD od) (s.homeAt e 0 od)
    | none => (s.ipAccept k (s0.threads g who) g hd f od oa ob, .skip)

/-- The effect of the in-place operations, on each executing lane whatever its operands are (R234, R235): the lanes pass the instruction
once the accepted ones are performed, since a bad word that the unit finds then is the last of their checks (R238, R319); where lanes
fail a check of R235, the others are performed before the fault (R209). -/
def ipEff (c : Ctl) (f : IpFn) (h : SReg) (dst a b : Opd) (s : State) : Eff :=
  let reg := 0x100 + h.toNat
  match accessEff c false reg none (ipLane f h dst a b s) s with
  | .done s1 => if (s.execs c).all (fun x => x.2 == 0) then .done s1 else .moved (s1.setDeciding (some ⟨s.cur, c.scope, reg⟩)) 0
  | .fault s1 fs => .fault (s1.performIps.setDeciding none) (fs ++ s1.performIps.ipFaults reg)
  | e => e

/-- IPADD (R236). -/
def execIpadd (c : Ctl) (it : IT) (sat : Bool) (h : SReg) (dst a b : Opd) (s : State) : Host.Outcome State Fault Refusal :=
  issue (.ipadd c it sat h dst a b) c s (ipEff c (.add it sat) h dst a b)
/-- IPSUB. -/
def execIpsub (c : Ctl) (it : IT) (sat : Bool) (h : SReg) (dst a b : Opd) (s : State) : Host.Outcome State Fault Refusal :=
  issue (.ipsub c it sat h dst a b) c s (ipEff c (.sub it sat) h dst a b)
/-- IPMIN. -/
def execIpmin (c : Ctl) (it : IT) (h : SReg) (dst a b : Opd) (s : State) : Host.Outcome State Fault Refusal :=
  issue (.ipmin c it h dst a b) c s (ipEff c (.least it) h dst a b)
/-- IPMAX. -/
def execIpmax (c : Ctl) (it : IT) (h : SReg) (dst a b : Opd) (s : State) : Host.Outcome State Fault Refusal :=
  issue (.ipmax c it h dst a b) c s (ipEff c (.greatest it) h dst a b)
/-- IPMAC. -/
def execIpmac (c : Ctl) (ft : FT) (h : SReg) (dst a b : Opd) (s : State) : Host.Outcome State Fault Refusal :=
  issue (.ipmac c ft h dst a b) c s (ipEff c (.mac ft) h dst a b)
/-- IPCPY. -/
def execIpcpy (c : Ctl) (h : SReg) (dst a : Opd) (s : State) : Host.Outcome State Fault Refusal :=
  issue (.ipcpy c h dst a) c s (ipEff c .copy h dst a a)

end Sys2Proof.Machine
end

