-- ==== Sys2Proof/Machine/NearBank.lean ====
section
/-! DEFINITION. Near-bank kicks: NBKICK, NBSTAT and the step of a kick (R239 to R245). -/

namespace Sys2Proof.Machine

/- ### The argument block (R240) -/

def kickWord (args : List Word) (j : Nat) : Nat := (nth 0 args j).toNat
def kickBypass (args : List Word) (stage : Nat) : Bool := bitOf (kickWord args 0) stage
def kickStreams (args : List Word) : Nat := fld (kickWord args 0) 4 2 + 1
def kickSteps (args : List Word) : Nat := kickWord args 10
def kickReds (args : List Word) : Bool := !kickBypass args 2

/-- Byte offset of stream `j`'s operand group at a step (R242). -/
def kickGroup (args : List Word) (j k : Nat) : Int :=
  (kickWord args (2 + 2 * j) : Int) + k * (nth (0 : Word) args (3 + 2 * j)).toInt * 1024

/-- Output of a step: its offset and its bytes. -/
def kickOut (args : List Word) (k : Nat) : Nat := kickWord args 1 + k * (if kickReds args then 4 else 1024)
def kickOutBytes (args : List Word) : Nat := if kickReds args then 4 else 1024

/-- Every operand group that a kick touches, and its output words (R241). -/
def kickGroups (args : List Word) : List Int :=
  (List.range (kickStreams args)).flatMap (fun j => (List.range (kickSteps args)).map (kickGroup args j))
def kickOuts (args : List Word) : List Nat := (List.range (kickSteps args)).map (kickOut args)

/-- Lines under the touched words. -/
def kickLines (args : List Word) : List Nat :=
  ((kickGroups args).flatMap (fun o => (List.range 4).map (fun n => o.toNat / 256 + n))) ++
    (kickOuts args).flatMap (fun o => if kickReds args then [o / 256] else (List.range 4).map (fun n => o / 256 + n))

/-- Operand groups that must be gathered: those of the streams, and of the output without RED (R241). -/
def kickGathered (args : List Word) : List Nat :=
  (kickGroups args).map Int.toNat ++ (if kickReds args then [] else kickOuts args)

/-- Slot of a controller (R239): its owner and image. -/
def State.slotAt (s : State) (slot stk : Nat) : Option (Nat × BitVec 64) := (s.slots.find? (fun x => x.1 == (slot, stk))).map (·.2)

/-- The first check that a kick fails: code and FAULTADDR (R241). DESIGN CHOICE (log 33): FAULTADDR is the first offset that fails, and
FAULTREG 0, or of XLATE_MISS the handle's register; R241 gives neither. -/
def State.kickFault (s : State) (g : Group) (h : Word) (slot tag : Nat) (args : List Word) : Option (FaultCode × Nat) :=
  let e := s.entry (hIndex h)
  let out := kickWord args 1
  if 63 < slot || kickWord args 0 / 2 ^ 6 ≠ 0 || kickSteps args = 0 || 65536 < kickSteps args || out % kickOutBytes args ≠ 0 then
    some (.illegalEnc, 0)
  else match (List.range (kickStreams args)).find? (fun j => kickWord args (2 + 2 * j) % 1024 != 0) with
  | some j => some (.ipAlign, kickWord args (2 + 2 * j))
  | none =>
    if !handleOk h e || hView h ≠ 0 then some (.addrBounds, 0)
    else match (kickGroups args).find? (fun o => decide (o < 0) || decide ((e.len : Int) < o + 1024)),
        (kickOuts args).find? (fun o => decide (e.len < o + kickOutBytes args)) with
    | some o, _ => some (.addrBounds, lowBits 32 o)
    | none, some o => some (.addrBounds, o)
    | none, none =>
      if !e.ip || !e.wr then some (.addrRights, 0)
      else if e.owner ≠ g.ctx then some (.addrOwner, 0)
      else if e.kind ≠ 0 then some (.verKind, 0)
      else if e.stacks.any (fun k => match s.slotAt slot k with | some x => x.1 != g.ctx | none => true) then some (.addrOwner, 0)
      else if !(s.core g.core).tagClear tag then some (.tagState, tag)
      else match (kickLines args).find? (fun n => !dPresent (s.descr e 0 (n * 256))) with
      | some n => some (.xlateMiss, n * 256)
      | none =>
        match (kickLines args).find? (fun n => e.rstate ≠ 0 && e.milestone ≤ n) with
        | some n => some (.ipTransit, n * 256)
        | none =>
          match (kickGathered args).find? (fun o =>
              !neighbours e (fun x => dTier (s.descr e 0 x)) ((List.range 4).map (fun n => o + 256 * n)) ||
                !(List.range 4).all (fun n => e.gathered (o + 256 * n))) with
          | some o => some (.ipSplit, o)
          | none =>
            match (kickLines args).find? (fun n => s.lost.contains (s.homeAt e 0 (n * 256))) with
            | some n => some (.dieLost, s.homeAt e 0 (n * 256))
            | none => none

/-- NBKICK (R240). -/
def execNbkick (c : Ctl) (h : SReg) (slot : Opd) (args : SReg) (tag : BitVec 6) (s : State) : Host.Outcome State Fault Refusal :=
  issue (.nbkick c h slot args tag) c s (fun s => onGroup c s (fun g m x =>
    let hd := s.scal g 1 0 (.s h)
    let n := (s.scal g 2 0 slot).toNat
    let ar := (List.range 14).map (fun j => s.scal g 3 j (.s args))
    if x == 0 then .done s
    else match s.kickFault g hd n tag.toNat ar with
      | some (.xlateMiss, a) =>
        execFault (s.post 4 g.core.die g.ctx (BitVec.ofNat 32 (hIndex hd)) (BitVec.ofNat 64 a)) m x .xlateMiss (0x100 + h.toNat) (BitVec.ofNat 64 a)
      | some f => execFault s m x f.1 0 (BitVec.ofNat 64 f.2)
      | none =>
        let e := s.entry (hIndex hd)
        let img := match s.slotAt n e.stk0 with | some i => i.2 | none => 0
        let t := s.newTag g tag.toNat .nbkick (.kick hd e.pmap n img ar (List.range (kickSteps ar)) [] 0)
        .done ((s.startTag g.core t).modCore g.core (fun k =>
          { k with kicks := k.kicks ++ [(tag.toNat, ⟨n, false, 0, 0xFFFFFFFF, 0⟩)] }))))

/- ### One step (R242, R243) -/

/-- The DEQ format of stream `j` (R383). -/
def slotFmt (img : BitVec 64) (j : Nat) : TC :=
  match fld img.toNat (4 * j) 4 with
  | 0 => .f32 | 1 => .f16 | 2 => .bf16 | 3 => .e4m3 | 4 => .e5m2 | 7 => .e2m1 | 8 => .i8
  | _ => .f32
def slotMul (img : BitVec 64) : Bool := bitOf img.toNat 16
def slotAct (img : BitVec 64) : Nat := fld img.toNat 17 2

/-- Bits of an element of a stream format. -/
def elemBits (t : TC) : Nat := if t = .f32 then 32 else t.slotBits

/-- The elements of an operand group as numbers. -/
def groupElems (t : TC) (bs : List Byte) : List Nat :=
  if elemBits t = 4 then bs.flatMap (fun b => [b.toNat % 16, b.toNat / 16])
  else chunk (elemBits t / 8) (1024 * 8 / elemBits t) bs

/-- DEQ: widened exactly and scaled; a scale of 0xFF gives NaN (R239, R193). -/
def deqElem (t : TC) (scale : Nat) (x : Nat) : FV :=
  let v := if t = .i8 then fvOfInt (sext 8 x) else fpDecode (tcFmt t) (x % 2 ^ (tcFmt t).bits)
  if scale = 255 then .nan false
  else match v with | .fin n m e => .fin n m (e + ((scale : Int) - 127)) | y => y

/-- ACT on an FP32 value (R239): one rounding. -/
def actValue (img : BitVec 64) (p1 p2 : Word) (x : Nat) : Nat :=
  let v := fpDecode fmtF32 x
  match slotAct img with
  | 1 => if v.isNan then fmtF32.nan else if v.neg then 0 else x
  | 2 => (fpRound fmtF32 .rne false 0 (fvMul v (fpDecode fmtF32 p1.toNat)).1).1
  | 3 =>
    let y := (fvAdd .rne (fvMul v (fpDecode fmtF32 p1.toNat)).1 (fpDecode fmtF32 p2.toNat).negate).1
    match y with
    | .nan _ => fmtF32.nan
    | .inf neg => if neg then 0 else fmtF32.infCode false
    | .fin _ _ _ => match exp2Within y (Config.nbExp (BitVec.ofNat 32 x) p1 p2) with
      | .fin neg m e => (fpRound fmtF32 .rne false 0 (.fin neg m e)).1
      | .inf neg => fmtF32.infCode neg
      | .nan _ => fmtF32.nan
  | _ => x

/-- The exact elementwise products, or stream 0 (R242). -/
def stageMul (mul : Bool) : List (List FV) → List FV
  | [] => []
  | x :: t => if mul then t.foldl (fun a y => List.zipWith (fun p q => (fvMul p q).1) a y) x else x

/-- The bytes of a step's output (R242). -/
def kickValue (img : BitVec 64) (args : List Word) (streams : List (List Byte)) : List Byte :=
  let raw := kickBypass args 0
  let xs := (streams.zipIdx).map (fun p =>
    if raw then (groupElems .f32 p.1).map (fun x => fpDecode fmtF32 x)
    else (groupElems (slotFmt img p.2) p.1).map (deqElem (slotFmt img p.2) (fld (kickWord args 11) (8 * p.2) 8)))
  let ps := stageMul (slotMul img && !kickBypass args 1) xs
  let act := fun (x : Nat) => if kickBypass args 3 then x else actValue img (nth 0 args 12) (nth 0 args 13) x
  let rnd := fun (v : FV) => (fpRound fmtF32 .rne false 0 v).1
  if kickReds args then leBytes 4 (act (rnd (exactSum ps)))
  else
    let t : TC := if raw then .f32 else slotFmt img 0
    let os := ps.map (fun p =>
      let y := act (rnd p)
      if t = .f32 then y else (cvtOp t .rne true 0 (fpDecode fmtF32 y)).1 % 2 ^ elemBits t)
    if elemBits t = 4 then leBytes 1024 (os.foldr (fun x acc => x + 16 * acc) 0)
    else os.flatMap (fun x => leBytes (elemBits t / 8) x)

/-- Descriptor of an offset in a placement map. -/
def State.descrAt (s : State) (map off : Nat) : Nat := s.memNat (map + 8 * (off / 65536)) 8

/-- Before an operation reads or writes bytes, what its group issued before it is performed there (R244, R260). -/
def State.opBefore (s : State) (t : Tag) (p : Phys) (n : Nat) : State :=
  s.performNeed t.key (fun e => e.issue < t.born && e.meetsAt p n)

/-- A byte of a buffer through a placement map. -/
def State.mapPhys (s : State) (map buf off : Nat) : Phys :=
  let d := s.descrAt map off
  { space := .dev, addr := physAddr d off, die := if dTier d = 0 then (s.entry buf).home (off / 256) else noDie, buf := buf, line := off / 256 }

/-- A write of an operation on a tag, at its home: whoever finds the tag DONE comes after it (R256, R278). -/
def State.opWrite (s : State) (k : CKey) (t : Tag) (a : Nat) (bs : List Byte) : State :=
  (s.homeWrite a bs).barCopy k.die (a / 256) (.tag k t.born)

/-- A kick's status after a poisoned step (R243, R245). -/
def KickStat.poisoned (k : KickStat) (step : Nat) : KickStat :=
  { k with err := true, npois := min (k.npois + 1) 65535
           low := if k.npois = 0 then BitVec.ofNat 32 step else BitVec.ofNat 32 (min k.low.toNat step)
           map := k.map ||| BitVec.ofNat 64 (2 ^ (step % 64)) }

/-- Column words of an operand group. -/
def groupWords : Nat := 1024 / wordBytes

/-- Offsets of the column words that a step reads, stream by stream (R242). -/
def kickSources (args : List Word) (k : Nat) : List Nat :=
  (List.range (kickStreams args)).flatMap (fun j => (List.range groupWords).map (fun n => (kickGroup args j k).toNat + wordBytes * n))

/-- The column words, or the one FP32 word, that a step writes once it has read its sources: poisoned where one of them read with an
error (R242, R243). -/
def KickRun.outputs (r : KickRun) (img : BitVec 64) (args : List Word) : List (Nat × Option (List Byte)) :=
  let word := fun (i : Nat) => ((r.got.find? (fun x => x.1 == i)).map (·.2)).getD []
  let streams := (List.range (kickStreams args)).map (fun j => (List.range groupWords).flatMap (fun n => word (groupWords * j + n)))
  let out := kickOut args r.step
  let bs := kickValue img args streams
  (List.range (if kickReds args then 1 else groupWords)).map (fun n =>
    (out + wordBytes * n, if r.bad then none else some ((bs.drop (wordBytes * n)).take wordBytes)))

/-- Lines of a step. -/
def kickStepLines (args : List Word) (k : Nat) : List Nat :=
  (List.range (kickStreams args)).flatMap (fun j => (List.range 4).map (fun n => (kickGroup args j k).toNat + 256 * n)) ++
    (if kickReds args then [kickOut args k] else (List.range 4).map (fun n => kickOut args k + 256 * n))

/-- A step begins: it reaches its lines. -/
def State.kickBegin (s : State) (t : Tag) (h : Word) (map : Nat) (args : List Word) (k : Nat) : State :=
  (kickStepLines args k).foldl (fun s o => s.reach t.ctx (s.mapPhys map (hIndex h) o)) s

/-- A step in progress goes on by one column word: it reads one, and works out its outputs after the last, or writes one; none is
left of it after its last write (R242 to R244). -/
def State.kickWord (s : State) (k : CKey) (t : Tag) (h : Word) (map : Nat) (img : BitVec 64) (args : List Word) (r : KickRun) :
    State × Option KickRun :=
  let ph := fun (o : Nat) => s.mapPhys map (hIndex h) o
  match r.outs with
  | none =>
    let src := kickSources args r.step
    let left := (src.zipIdx).filter (fun x => !r.got.any (fun y => y.1 == x.2))
    match choice (Config.engine s.tick 1) left with
    | none => (s, none)
    | some (o, i) =>
      let s1 := s.opBefore t (ph o) wordBytes
      let r1 := { r with got := r.got ++ [(i, s1.devBytes (ph o).addr wordBytes)], bad := r.bad || s1.poisoned (ph o).addr wordBytes }
      (s1, some (if left.length = 1 then { r1 with outs := some (r1.outputs img args) } else r1))
  | some outs =>
    match choice (Config.engine s.tick 1) outs with
    | none => (s, none)
    | some (o, w) =>
      let s1 := s.opBefore t (ph o) wordBytes
      let s2 := match w with
        | some bs => s1.opWrite k t (ph o).addr bs
        | none => s1.setPoison (ph o).addr
      let rest := outs.filter (fun x => x.1 != o)
      (s2, if rest.isEmpty then none else some { r with outs := some rest })

/-- A running kick of a tag number: the one that holds the tag, or one that was given up and goes on (R70, R244, R253), as a free
choice where there are several. -/
def State.kickOf (s : State) (k : CKey) (tag : Nat) : Option Tag :=
  choice (Config.choose s.tick (s.core k).tags.length) ((s.core k).tags.filter (fun t =>
    t.num == tag && !t.done && !t.stopped && (match t.op with | .kick _ _ _ _ _ _ _ _ => true | _ => false)))

/-- The stack number by which a kick's or a restripe's controller is named: the first of the buffer's channel set. -/
def State.kickStack (s : State) (h : Word) : Nat := (s.entry (hIndex h)).stk0

/-- The stop record of a kick (R335): STATUS 0, or 2 where it met a lost die. -/
def State.kickRec (s : State) (t : Tag) (h : Word) (steps status : Nat) : StopRec :=
  let k := s.kickStack h
  { kind := 4, die := homeDie k, unit := k, part := 0, status := status, pc := t.pc, a := BitVec.ofNat 32 t.num,
    b := BitVec.ofNat 32 steps, c := 0, d := 0, clk := s.clk }

/-- A kick that was in flight when the halt line came is over (R334, R335). -/
def State.kickStopped (s : State) (t : Tag) (h : Word) (steps status : Nat) : State :=
  if s.lineAt t.ctx (homeDie (s.kickStack h)) then s.addStop t.ctx (s.kickRec t h steps status) else s

/-- A lost die that a step of a kick would reach (R343). DEDUCED (log 112): the context then halts, and the kick stops with STATUS 2. -/
def State.kickMeetsLost (s : State) (h : Word) (map : Nat) (args : List Word) (step : Nat) : Option Nat :=
  ((kickStepLines args step).map (fun o => (s.mapPhys map (hIndex h) o).die)).find? s.lost.contains

/-- The step that a kick's controllers take up next, by a free choice among those in progress and those to come (R242). -/
def State.kickNext (s : State) (runs : List KickRun) (todo : List Nat) : Option Nat :=
  choice (Config.engine s.tick 0) (runs.map (·.step) ++ todo)

/-- The step has just found one of its words in error. -/
def KickRun.turnsBad (r : KickRun) (r1 : Option KickRun) : Bool :=
  match r1 with | some x => x.bad && !r.bad | none => false

/-- What a kick's controllers do next: a step, by a free choice, begins, or goes on by one column word (R242). -/
def State.kickStep (s : State) (k : CKey) (t : Tag) (h : Word) (map slot : Nat) (img : BitVec 64) (args : List Word) (todo : List Nat)
    (runs : List KickRun) (done : Nat) : State × Tag × Option Nat :=
  match s.kickNext runs todo with
  | none => (s, t, none)
  | some j =>
    match runs.find? (fun r => r.step == j) with
    | none => (s.kickBegin t h map args j,
        { t with op := .kick h map slot img args (todo.filter (· != j)) (runs ++ [⟨j, [], false, none⟩]) done }, none)
    | some r =>
      let x := s.kickWord k t h map img args r
      (x.1, { t with
          op := .kick h map slot img args todo (runs.filter (fun y => y.step != j) ++ x.2.toList) (done + if x.2.isNone then 1 else 0)
          err := t.err || r.turnsBad x.2 },
        if r.turnsBad x.2 then some j else none)

/-- KICK_STEP (R242, R243): after the last step the tag completes, with TAGERR if a step was poisoned. A step that would reach a lost
die halts the context instead, and the kick stops, its tag BUSY (R253, R343). -/
def execKickStep (k : CKey) (tag : Nat) (s : State) : Host.Outcome State Fault Refusal :=
  match s.kickOf k tag with
  | none => .refused .eventNotEnabled
  | some t =>
    match t.op with
    | .kick h map slot img args todo runs done =>
      match (s.kickNext runs todo).bind (s.kickMeetsLost h map args) with
      | some d => .next (((s.meetLost t.ctx d).modCore k (fun c =>
          { c with tags := replaceTag t (some { t with err := true, stopped := true }) c.tags })).kickStopped t h done 2)
      | none =>
      let r := s.kickStep k t h map slot img args todo runs done
      let s1 := match r.2.2 with
        | some j => r.1.modCore k (fun c =>
          { c with kicks := if t.orphan then c.kicks else c.kicks.map (fun (x : Nat × KickStat) => if x.1 == tag then (x.1, x.2.poisoned j) else x) })
        | none => r.1
      match r.2.1.op with
      | .kick _ _ _ _ _ [] [] n => .next ((s1.modCore k (fun c => c.endTag t r.2.1)).kickStopped t h n 0)
      | _ => .next (s1.modCore k (fun c => { c with tags := replaceTag t (some r.2.1) c.tags }))
    | _ => .refused .eventNotEnabled

/- ### NBSTAT (R245) -/

/-- The four words of NBSTAT. -/
def Core.nbstat (c : Core) (ctx tag : Nat) : List Word :=
  let done := c.tags.any (fun t => t.num == tag && !t.orphan && t.ctx == ctx && t.done)
  match c.kicks.find? (fun x => x.1 == tag) with
  | some x => [BitVec.ofNat 32 (b2n done + 2 * b2n x.2.err + 4 + x.2.slot * 2 ^ 8 + x.2.npois * 2 ^ 16), x.2.low, loWord x.2.map, hiWord x.2.map]
  | none => [BitVec.ofNat 32 (b2n done), 0xFFFFFFFF, 0, 0]

/-- NBSTAT (R245). -/
def execNbstat (c : Ctl) (d : Opd) (tag : BitVec 6) (s : State) : Host.Outcome State Fault Refusal :=
  issue (.nbstat c d tag) c s (fun s => .done (s.perLaneVar c (fun g m =>
    (((s.core g.core).nbstat g.ctx tag.toNat).zipIdx).flatMap (fun w =>
      if d.isScalarDst then writeScal d w.2 w.1 else writeVec d w.2 m (List.replicate W w.1)))))

end Sys2Proof.Machine
end

