-- ==== Sys2Proof/Machine/CopyTags.lean ====
section
/-! DEFINITION. Copies, completion tags, shadow placement and PUBLISH, OP 0x78 to 0x7B (R253 to R269), and the copy
engine's segments (R259 to R262, R266, R374). -/

namespace Sys2Proof.Machine

/- ### Tags (R253 to R256) -/

/-- The mask that field A gives: a pair of scalars, or one tag (R255). -/
def State.tagMask (s : State) (g : Group) (o : Opd) : BitVec 64 :=
  match o with
  | .s n => pairOf (s.scal g 1 0 (.s n)) (s.scal g 1 1 (.s n))
  | .imm k => BitVec.ofNat 64 (2 ^ (k.toNat % 64))
  | _ => 0

/-- TAGDONE and TAGERR as a context reads them (R254). -/
def Core.tagBits (c : Core) (ctx : Nat) (f : Tag → Bool) : BitVec 64 :=
  c.tags.foldl (fun m t => if t.ctx == ctx && !t.orphan && t.done && f t then m ||| BitVec.ofNat 64 (2 ^ t.num) else m) 0
def Core.tagDone (c : Core) (ctx : Nat) : BitVec 64 := c.tagBits ctx (fun _ => true)
def Core.tagErr (c : Core) (ctx : Nat) : BitVec 64 := c.tagBits ctx (fun t => t.err)

/-- A tag of the mask that satisfies a test, the lowest. -/
def Core.tagIn (c : Core) (mask : BitVec 64) (f : Tag → Bool) : Option Nat :=
  (lanesOf mask).find? (fun n => c.tags.any (fun t => t.num == n && !t.orphan && f t))

/-- The common part of R255: a tag of another context faults ADDR_OWNER. DESIGN CHOICE (log 127): FAULTADDR names the lowest such tag. -/
def tagEff (c : Ctl) (mask : Opd) (s : State) (f : Group → Member → Mask → Core → BitVec 64 → Eff) : Eff :=
  onGroup c s (fun g m x =>
    let k := s.core g.core
    let bits := s.tagMask g mask
    if x == 0 then .done s
    else match k.tagIn bits (fun t => t.ctx != g.ctx) with
      | some n => execFault s m x .addrOwner 0 (BitVec.ofNat 64 n)
      | none => f g m x k bits)

/-- The writes of the operations that a wait of a group finds DONE come before what those do from now on whom its scope spans (R256,
R273, R278). -/
def State.tagsSeen (s : State) (g : Group) (scp : Scp) (r : BitVec 64) : State :=
  let k := g.core
  let found := ((s.core k).tags.filter (fun t => t.done && !t.orphan && r.getLsbD t.num)).map (fun t => Bar.tag k t.born)
  s.showWrites k.die (fun bs => bs.any found.contains) (s.shownBar g scp)

/-- WAITANY and WAITALL (R255, R256): held until enough of the mask is DONE, then an acquire at their scope. -/
def waitEff (c : Ctl) (d : SReg) (mask : Opd) (scp : Scp) (enough : BitVec 64 → BitVec 64 → Bool) (s : State) : Eff :=
  if (s.execs c).all (fun x => x.2 == 0) then .done (s.perLaneVar c (fun _ _ => []))
  else tagEff c mask s (fun g _ _ k bits =>
    let r := k.tagDone g.ctx &&& bits
    if !enough r bits then .hold s
    else .done (((s.acquire g.core.die g.ctx scp).tagsSeen g scp r).putVar g.key [.s d.toNat (loWord r), .s (d.toNat + 1) (hiWord r)]))

/-- WAITANY (R255): a mask of 0 completes at once. -/
def execWaitany (c : Ctl) (d : SReg) (mask : Opd) (scp : Scp) (s : State) : Host.Outcome State Fault Refusal :=
  issue (.waitany c d mask scp) c s (waitEff c d mask scp (fun r bits => r != 0 || bits == 0))
/-- WAITALL (R255). -/
def execWaitall (c : Ctl) (d : SReg) (mask : Opd) (scp : Scp) (s : State) : Host.Outcome State Fault Refusal :=
  issue (.waitall c d mask scp) c s (waitEff c d mask scp (fun r bits => r == bits))

/-- FFRDY (R255). -/
def execFfrdy (c : Ctl) (d : SReg) (mask : Opd) (s : State) : Host.Outcome State Fault Refusal :=
  issue (.ffrdy c d mask) c s (fun s => tagEff c mask s (fun g _ _ k bits =>
    let r : Word := match lowestLane (k.tagDone g.ctx &&& bits) with | some n => BitVec.ofNat 32 n | none => 0xFFFFFFFF
    .done (s.putFixed g.key 4 [.s d.toNat r])))

/-- TAGCLR (R255). -/
def execTagclr (c : Ctl) (mask : Opd) (s : State) : Host.Outcome State Fault Refusal :=
  issue (.tagclr c mask) c s (fun s => tagEff c mask s (fun g m x k bits =>
    match k.tagIn bits (fun t => !t.done) with
    | some n => execFault s m x .tagState 0 (BitVec.ofNat 64 n)
    | none => .done (s.modCore g.core (fun k => { k with tags := k.tags.filter (fun t => t.orphan || !bits.getLsbD t.num) }))))

/- ### Checks of a copy (R258, R264, R267) -/

/-- A failed check of a whole operation: code, FAULTADDR, and the buffer that XLATE_MISS names. -/
structure OpFault where
  code : FaultCode
  addr : Nat
  buf : Nat

/-- One side of a copy: rows of bytes from a start, a stride apart. -/
structure Rows where
  start : Nat
  stride : Int
  len : Nat
  rows : Nat

def Rows.at_ (x : Rows) (r : Nat) : Int := (x.start : Int) + r * x.stride

/-- The first byte of the rows that lies outside [0, n). -/
def Rows.outside (x : Rows) (n : Nat) : Option Int :=
  if x.len = 0 then none
  else ((List.range x.rows).find? (fun r => decide (x.at_ r < 0) || decide ((n : Int) < x.at_ r + x.len))).map (fun r =>
    if x.at_ r < 0 then x.at_ r else max (x.at_ r) n)

/-- The frames under a row, by the first byte in each. -/
def framesUnder (o n : Nat) : List Nat :=
  if n = 0 then []
  else (List.range ((o + n - 1) / 65536 - o / 65536 + 1)).map (fun i => if i = 0 then o else (o / 65536 + i) * 65536)

/-- The first byte of the rows that satisfies a test of frames. -/
def Rows.frameWith (x : Rows) (f : Nat → Bool) : Option Nat :=
  (List.range x.rows).findSome? (fun r => (framesUnder (x.at_ r).toNat x.len).find? f)

/-- The checks of R207 over a global side (R258). -/
def State.globalSide (s : State) (ctx : Nat) (h : Word) (view : Nat) (write : Bool) (x : Rows) : Option OpFault :=
  let b := hIndex h
  let e := s.entry b
  if !handleOk h e then some ⟨.addrBounds, x.start, b⟩
  else match x.outside e.len with
  | some o => some ⟨.addrBounds, lowBits 32 o, b⟩
  | none =>
    if !(if write then e.wr else e.rd) then some ⟨.addrRights, x.start, b⟩
    else if e.owner ≠ ctx then some ⟨.addrOwner, x.start, b⟩
    else if e.kind ≠ 0 then some ⟨.verKind, x.start, b⟩
    else match x.frameWith (fun o => !dPresent (s.descr e view o)) with
    | some o => some ⟨.xlateMiss, o, b⟩
    | none => (x.frameWith (fun o => s.lost.contains (s.homeAt e view o))).map (fun o => ⟨.dieLost, s.homeAt e view o, b⟩)

/-- The segments of a core's scratchpad under the rows, by the first byte in each. -/
def segsUnder (o n : Nat) : List Nat :=
  if n = 0 then []
  else (List.range ((o + n - 1) / segBytes - o / segBytes + 1)).map (fun i => if i = 0 then o else (o / segBytes + i) * segBytes)

/-- The bounds and the ownership of a scratchpad side (R258, R247). -/
def State.scratchSide (s : State) (g : Group) (x : Rows) : Option OpFault :=
  match x.outside spBytes with
  | some o => some ⟨.addrBounds, lowBits 32 o, 0⟩
  | none =>
    ((List.range x.rows).findSome? (fun r => (segsUnder (x.at_ r).toNat x.len).find? (fun o =>
      (s.core g.core).segRefused g.ctx o 1))).map (fun o => ⟨.addrOwner, o, 0⟩)

/-- A scratchpad side claims the segments under it (R247). -/
def State.claimRows (s : State) (g : Group) (x : Rows) : State :=
  s.modCore g.core (fun c => (List.range x.rows).foldl (fun c r => c.claim g.ctx (x.at_ r).toNat x.len) c)

/-- The nine scalars of a COPY (R257). -/
structure CopyArgs where
  w : List Word
  shadow : Bool
def CopyArgs.n (x : CopyArgs) (j : Nat) : Nat := (nth 0 x.w j).toNat
def CopyArgs.kind (x : CopyArgs) : Nat := x.n 0 % 4
def CopyArgs.src (x : CopyArgs) : Rows :=
  ⟨if x.kind = 1 then x.n 1 else x.n 2, (nth (0 : Word) x.w 7).toInt, x.n 5, x.n 6⟩
def CopyArgs.dst (x : CopyArgs) : Rows :=
  ⟨if x.kind = 0 then x.n 3 else x.n 4, (nth (0 : Word) x.w 8).toInt, x.n 5, x.n 6⟩

/-- The handle whose view a side uses; COPY.shadow writes the shadow view (R258). -/
def shadowHandle (h : Word) : Word := BitVec.ofNat 32 (hIndex h + 2 ^ 20)

/-- The first check that a COPY fails (R258). DESIGN CHOICE (log 122): where no byte fails, FAULTADDR is 0 of an illegal operand, and of a
misaligned start that start, of a misaligned row length or stride the source's start. -/
def State.copyFault (s : State) (g : Group) (tag : Nat) (x : CopyArgs) : Option OpFault :=
  let srcH := nth (0 : Word) x.w 1
  let dstH := nth (0 : Word) x.w 3
  let e := s.entry (hIndex dstH)
  if x.n 0 = 3 || 4 ≤ x.n 0 || x.n 6 = 0 || 65536 < x.n 6 || (x.kind = 1 && x.n 2 ≠ 0) || (x.kind = 0 && x.n 4 ≠ 0) then
    some ⟨.illegalEnc, 0, 0⟩
  else if x.src.start % 4 ≠ 0 then some ⟨.addrMisalign, x.src.start, 0⟩
  else if x.dst.start % 4 ≠ 0 then some ⟨.addrMisalign, x.dst.start, 0⟩
  else if x.n 5 % 4 ≠ 0 || x.n 7 % 4 ≠ 0 || x.n 8 % 4 ≠ 0 then some ⟨.addrMisalign, x.src.start, 0⟩
  else if !(s.core g.core).tagClear tag then some ⟨.tagState, tag, 0⟩
  else
    (if x.kind = 1 then s.scratchSide g x.src else s.globalSide g.ctx srcH (hView srcH) false x.src) <|>
    (if x.kind = 0 then s.scratchSide g x.dst
      else s.globalSide g.ctx dstH (if x.shadow && e.smap ≠ 0 then 1 else hView dstH) true x.dst) <|>
    (if x.shadow && x.kind = 0 then some ⟨.illegalEnc, 0, 0⟩
      else if x.shadow && e.smap = 0 then some ⟨.addrBounds, x.dst.start, hIndex dstH⟩ else none)

/-- An operation's fault, XLATE_MISS reported to the driver (R205). -/
def opFault (s : State) (g : Group) (m : Member) (x : Mask) (f : OpFault) : Eff :=
  let s1 := if f.code == .xlateMiss then s.post 4 g.core.die g.ctx (BitVec.ofNat 32 f.buf) (BitVec.ofNat 64 f.addr) else s
  execFault s1 m x f.code 0 (BitVec.ofNat 64 f.addr)

/-- Start an operation, or complete it at once when it covers no byte. -/
def State.startOp (s : State) (g : Group) (n : Nat) (kind : TagKind) (op : TagOp) (atOnce : Bool) : State :=
  s.startTag g.core { s.newTag g n kind op with done := atOnce }

/-- COPY and COPY.shadow (R257, R258). -/
def copyEff (c : Ctl) (tag : BitVec 6) (a : SReg) (shadow : Bool) (s : State) : Eff :=
  onGroup c s (fun g m x =>
    let ar : CopyArgs := ⟨(List.range 9).map (fun j => s.scal g 1 j (.s a)), shadow⟩
    if x == 0 then .done s
    else match s.copyFault g tag.toNat ar with
      | some f => opFault s g m x f
      | none =>
        let dstH := nth (0 : Word) ar.w 3
        let srcH := nth (0 : Word) ar.w 1
        let op : TagOp := .copy ar.kind srcH ((s.entry (hIndex srcH)).mapBase (hView srcH)) ar.src.start (if shadow then shadowHandle dstH else dstH) ar.dst.start
          ar.src.len ar.src.rows ar.src.stride ar.dst.stride 0 0
        let s1 := if ar.kind = 0 then s.claimRows g ar.dst else if ar.kind = 1 then s.claimRows g ar.src else s
        .done (s1.startOp g tag.toNat (if shadow then .copyShadow else .copy) op (ar.src.len = 0)))

/-- COPY (R257). -/
def execCopy (c : Ctl) (tag : BitVec 6) (a : SReg) (s : State) : Host.Outcome State Fault Refusal :=
  issue (.copy c tag a) c s (copyEff c tag a false)
/-- COPY.shadow (R257). -/
def execCopyShadow (c : Ctl) (tag : BitVec 6) (a : SReg) (s : State) : Host.Outcome State Fault Refusal :=
  issue (.copyShadow c tag a) c s (copyEff c tag a true)

/- ### BLKCPY (R263 to R265) -/

/-- The rows of the row map that a block's bytes pass through, with what each names now (R265). -/
def State.rowsUsed (s : State) (e : Entry) (o n : Nat) : List (Nat × Nat) :=
  if n = 0 then []
  else (List.range ((o + n - 1) / 2 ^ e.rshift - o / 2 ^ e.rshift + 1)).map (fun i =>
    let r := o / 2 ^ e.rshift + i
    (r, if r ≤ e.rmlen then s.rowWord e e.rmsel r else r))

/-- A logical offset through the rows of a BLKCPY. -/
def blkMapped (map : Option (Nat × List (Nat × Nat))) (o : Nat) : Nat :=
  match map with
  | none => o
  | some (sh, rows) =>
    let r := o / 2 ^ sh
    (((rows.find? (fun x => x.1 == r)).map (·.2)).getD r) * 2 ^ sh + o % 2 ^ sh

/-- The dies of the row-map words of rows that a BLKCPY looks up (R265, R342). -/
def Entry.rowDies (e : Entry) (map : Option (Nat × List (Nat × Nat))) : List Nat :=
  match map with
  | none => []
  | some m => (m.2.filterMap (fun x => if x.1 ≤ e.rmlen then some (e.rowDie e.rmsel x.1) else none)).dedup

/-- The first check that a BLKCPY fails as a whole (R264). DESIGN CHOICE (log 123): FAULTADDR is 0 of an illegal S, the value of a
misaligned D0 or S, and the base offset of block 0 where the handle, the entry, a right, the owner or the kind fails. -/
def State.blkFault (s : State) (g : Group) (h : Word) (tag size d0 base : Nat) : Option OpFault :=
  let e := s.entry (hIndex h)
  if size < 4 || 65536 < size then some ⟨.illegalEnc, 0, 0⟩
  else if d0 % 4 ≠ 0 then some ⟨.addrMisalign, d0, 0⟩
  else if size % 4 ≠ 0 then some ⟨.addrMisalign, size, 0⟩
  else if !(s.core g.core).tagClear tag then some ⟨.tagState, tag, 0⟩
  else if !handleOk h e then some ⟨.addrBounds, base, 0⟩
  else if !e.rd then some ⟨.addrRights, base, 0⟩
  else if e.owner ≠ g.ctx then some ⟨.addrOwner, base, 0⟩
  else if e.kind ≠ 0 then some ⟨.verKind, base, 0⟩
  else s.scratchSide g ⟨d0, 0, W * size, 1⟩

/-- A lane's block can be copied (R264). -/
def State.blkLaneOk (s : State) (e : Entry) (h : Word) (map : Option (Nat × List (Nat × Nat))) (o size : Nat) : Bool :=
  o + size ≤ e.len && (List.range (size / 4)).all (fun w =>
    let p := blkMapped map (o + 4 * w)
    p + 4 ≤ e.len && dPresent (s.descr e (hView h) p) && dPresent (s.descr e (hView h) (p + 3)))

/-- BLKCPY (R263 to R265): one that would look up a row on a lost die halts the context (R343). -/
def execBlkcpy (c : Ctl) (tag : BitVec 6) (h : SReg) (idx : VReg) (a : SReg) (s : State) : Host.Outcome State Fault Refusal :=
  issue (.blkcpy c tag h idx a) c s (fun s => onGroup c s (fun g m x =>
    let hd := s.scal g 1 0 (.s h)
    let e := s.entry (hIndex hd)
    let ar := fun (j : Nat) => (s.scal g 3 j (.s a)).toNat
    let size := ar 0
    let is := s.vec g 2 0 (.v idx)
    if x == 0 then .done s
    else match s.blkFault g hd tag.toNat size (ar 3) (ar 2) with
      | some f => opFault s g m x f
      | none =>
        let off := fun (i : Nat) => ar 2 + (nth 0 is i).toNat * size
        let want := fun (i : Nat) => laneBit x i && (nth 0 is i).toNat < ar 1
        let map := if hView hd = 0 && e.rmap ≠ 0 then
            some (e.rshift, ((List.range W).flatMap (fun i =>
              if want i && off i + size ≤ e.len then s.rowsUsed e (off i) size else [])).dedup)
          else none
        let dies := e.rowDies map
        match dies.find? s.lost.contains with
        | some d => opFault s g m x ⟨.dieLost, d, hIndex hd⟩
        | none =>
        let blocks := (List.range W).map (fun i =>
          if want i && s.blkLaneOk e hd map (off i) size then some (nth 0 is i).toNat else none)
        let skipped := (lanesOf x).any (fun i => (nth none blocks i).isNone)
        let s1 := (dies.foldl (fun s d => s.touch g.ctx d) s).claimRows g ⟨ar 3, 0, W * size, 1⟩
        .done (s1.startTag g.core { s1.newTag g tag.toNat .blkcpy (.blk hd (e.mapBase (hView hd)) size (ar 2) (ar 3) blocks map 0) with err := skipped })))

/- ### SHADOW and PUBLISH (R267, R268) -/

/-- The first check that a SHADOW fails (R267). DESIGN CHOICE (log 124): FAULTADDR of ADDR_BOUNDS, ADDR_RIGHTS, ADDR_OWNER and VER_KIND
is the offset of line `first`. -/
def State.shadowFault (s : State) (g : Group) (h : Word) (tag first count : Nat) : Option OpFault :=
  let b := hIndex h
  let e := s.entry b
  let x : Rows := ⟨first * 256, 0, count * 256, 1⟩
  if !(s.core g.core).tagClear tag then some ⟨.tagState, tag, 0⟩
  else if !handleOk h e || e.smap = 0 || e.lines < first + count then some ⟨.addrBounds, first * 256, b⟩
  else if !e.rd || !e.wr then some ⟨.addrRights, first * 256, b⟩
  else if e.owner ≠ g.ctx then some ⟨.addrOwner, first * 256, b⟩
  else if e.kind ≠ 0 then some ⟨.verKind, first * 256, b⟩
  else match x.frameWith (fun o => !dPresent (s.descr e 0 o) || !dPresent (s.descr e 1 o)) with
  | some o => some ⟨.xlateMiss, o, b⟩
  | none => (x.frameWith (fun o => s.lost.contains (e.home (o / 256)))).map (fun o => ⟨.dieLost, e.home (o / 256), b⟩)

/-- SHADOW (R267). -/
def execShadow (c : Ctl) (tag : BitVec 6) (h : SReg) (first count : Opd) (s : State) : Host.Outcome State Fault Refusal :=
  issue (.shadow c tag h first count) c s (fun s => onGroup c s (fun g m x =>
    let hd := s.scal g 1 0 (.s h)
    let f := (s.scal g 2 0 first).toNat
    let n := (s.scal g 3 0 count).toNat
    if x == 0 then .done s
    else match s.shadowFault g hd tag.toNat f n with
      | some e => opFault s g m x e
      | none =>
        let h0 : Word := BitVec.ofNat 32 (hIndex hd)
        .done (s.startOp g tag.toNat .shadow (.copy 2 h0 (s.entry (hIndex hd)).pmap (f * 256) (shadowHandle hd) (f * 256) (n * 256) 1 0 0 0 0) (n = 0))))

/-- The checks of PUBLISH (R268). -/
def State.publishFault (s : State) (g : Group) (h : Word) : Option FaultCode :=
  let e := s.entry (hIndex h)
  if !handleOk h e || e.smap = 0 then some .addrBounds
  else if !e.wr then some .addrRights
  else if e.owner ≠ g.ctx then some .addrOwner
  else none

/-- PUBLISH (R268): checked at issue, then the group is held until the exchange has taken effect. DESIGN CHOICE (log 125): FAULTREG of its
faults names the register of the handle, and FAULTADDR is 0. -/
def execPublish (c : Ctl) (h : SReg) (s : State) : Host.Outcome State Fault Refusal :=
  issue (.publish c h) c s (fun s => onGroup c s (fun g m x =>
    let hd := s.scal g 1 0 (.s h)
    if x == 0 then .done s
    else match g.publish with
      | some (_, true) => .done (s.modGroup g.key (fun g => { g with publish := none }))
      | some (_, false) => .hold s
      | none =>
        match s.publishFault g hd with
        | some f => execFault s m x f (0x100 + h.toNat) 0
        | none => .hold (s.modGroup g.key (fun g => { g with publish := some (hIndex hd, false) }))))

/-- A copy of the group to a buffer that has not completed (R268). -/
def copyInto (k : GKey) (buf : Nat) (t : Tag) : Bool :=
  t.key == k && !t.done && (match t.op with | .copy kind _ _ _ dstH _ _ _ _ _ _ _ => kind != 0 && hIndex dstH == buf | _ => false)

/-- The exchange may take effect (R229, R268). -/
def State.mayExchange (s : State) (g : Group) (buf : Nat) : Bool :=
  (s.entry buf).rstate == 0 && !s.halted g.ctx && !s.cores.any (fun c => c.tags.any (copyInto g.key buf))

/-- Frames that a buffer's two maps name, as frame keys (R268). -/
def State.bufFrames (s : State) (e : Entry) : List Nat :=
  (List.range (cdiv e.len 65536)).flatMap (fun f =>
    [frameKey (physAddr (s.descr e 0 (f * 65536)) 0), frameKey (physAddr (s.descr e 1 (f * 65536)) 0)])

/-- The dies of the lines of a buffer's row-map area (R8). -/
def Entry.rowMapDies (e : Entry) : List Nat :=
  if e.rmap = 0 then [] else ((List.range 128).map (fun n => Config.lineDie (e.rmap / 256 + n) % 8)).dedup

/-- The exchange in one step: PMAP and SMAP, and the row map, whose new active copy is then copied (R214, R268); its lines are touched
(R342). -/
def State.exchange (s : State) (buf : Nat) : State :=
  let e := s.entry buf
  let e1 := (e.put 224 56 e.smap).put 288 56 e.pmap
  if e.rmap = 0 then s.setEntry buf e1
  else
    let sel := 1 - e.rmsel
    let rows := Memory.bytes s.mem (e.rmap + 16384 * sel) 16384
    let s1 := e.rowMapDies.foldl (fun s d => s.touch e.owner d) s
    (s1.setEntry buf (e1.put 425 1 sel)).putBytes .dev (e.rmap + 16384 * e.rmsel) rows

/-- PUBLISH_EXCHANGE (R268): the release, the copies of both placements dropped, the exchange. One that would reach a lost die for the
row map halts the context instead (R343). -/
def execPublishExchange (k : GKey) (s : State) : Host.Outcome State Fault Refusal :=
  match s.group? k with
  | none => .refused .eventNotEnabled
  | some g =>
    match g.publish with
    | some (buf, false) =>
      if !s.mayExchange g buf then .refused .eventNotEnabled
      else match (s.entry buf).rowMapDies.find? s.lost.contains with
      | some d => .next (s.meetLost g.ctx d)
      | none =>
        let s1 := s.releaseLanes k allLanes .system
        let fs := s1.bufFrames (s1.entry buf)
        let s2 := { s1 with
          readCopies := s1.readCopies.filter (fun c => !fs.contains (c.line / 256))
          dirty := s1.dirty.filter (fun c => !fs.contains (c.line / 256)) }
        .next ((s2.exchange buf).modGroup k (fun g => { g with publish := some (buf, true), heldSince := none }))
    | _ => .refused .eventNotEnabled

/- ### Segments (R259 to R262, R266) -/

/-- A run of at most 64 KiB split where a frame ends. -/
def pieces (o n : Nat) : List (Nat × Nat) :=
  let a := min n (65536 - o % 65536)
  if n ≤ a then [(o, n)] else [(o, a), (o + a, n - a)]

/-- The placement that an operation uses on a side: a map, and the buffer (R269). -/
structure Side where
  map : Nat
  buf : Nat

/-- The placement of a destination: the one its view names now (R269). -/
def State.sideOf (s : State) (h : Word) : Side := ⟨(s.entry (hIndex h)).mapBase (hView h), hIndex h⟩
def State.sidePhys (s : State) (x : Side) (o : Nat) : Phys := s.mapPhys x.map x.buf o

/-- The first byte of a run whose frame is not PRESENT (R262). -/
def State.runMissing (s : State) (x : Side) (o n : Nat) : Option Nat :=
  ((pieces o n).find? (fun p => !dPresent (s.descrAt x.map p.1))).map (·.1)

/-- Lines of a run. -/
def linesOf (o n : Nat) : List Nat := if n = 0 then [] else (List.range ((o + n - 1) / 256 - o / 256 + 1)).map (· + o / 256)

/-- What a run of a segment finds, behind the group's own earlier accesses: bytes, and the numbers of its words that read with an
error. -/
def State.runRead (s : State) (x : Side) (o n : Nat) : HeldSeg :=
  let a := fun (o : Nat) => (s.sidePhys x o).addr
  ⟨(pieces o n).flatMap (fun p => s.devBytes (a p.1) p.2),
    (List.range (n / 4)).filter (fun j => s.poisoned (a (o + 4 * j)) 4)⟩

/-- A run reaches its lines, behind what the group issued before the operation. -/
def State.runReach (s : State) (t : Tag) (x : Side) (o n : Nat) : State :=
  let s1 := (pieces o n).foldl (fun s p => s.opBefore t (s.sidePhys x p.1) p.2) s
  (linesOf o n).foldl (fun s l => s.reach t.ctx (s.sidePhys x (max o (l * 256)))) s1

/-- Write a run of a segment at its home (R260, R262). -/
def State.runWrite (s : State) (k : CKey) (t : Tag) (x : Side) (o : Nat) (d : HeldSeg) : State :=
  let a := fun (i : Nat) => (s.sidePhys x i).addr
  let s1 := (pieces o d.bytes.length).foldl (fun s p =>
    let s2 := s.putBytes .dev (a p.1) ((d.bytes.drop (p.1 - o)).take p.2)
    (linesOf (a p.1) p.2).foldl (fun s l => s.barCopy k.die l (.tag k t.born))
      { s2 with dirty := s2.dirty.filter (fun d => !(a p.1 / 256 ≤ d.line && d.line ≤ (a p.1 + p.2 - 1) / 256)) }) s
  d.pois.foldl (fun s j => s.setPoison (a (o + 4 * j))) s1

/-- Bytes of the next segment of a copy from its position (R259). -/
def segLen (len dst at_ : Nat) : Nat := min (len - at_) (65536 - (dst + at_) % 65536)

/-- Bytes left of the operation's segment. -/
def TagOp.segRest : TagOp → Nat
  | .copy _ _ _ _ _ dst len _ _ ds row at_ => segLen len (((dst : Int) + row * ds).toNat) at_
  | .blk _ _ size _ d0 _ _ done => min (W * size - done) (65536 - (d0 + done) % 65536)
  | _ => 0

/-- Words of the next `n` bytes of a BLKCPY: destination offset, and the source offset (R265, R266). -/
def blkWords (size base d0 : Nat) (blocks : List (Option Nat)) (map : Option (Nat × List (Nat × Nat))) (done n : Nat) :
    List (Nat × Nat) :=
  (List.range (n / 4)).filterMap (fun j =>
    let q := done / 4 + j
    (nth none blocks (q % W)).map (fun b => (d0 + 4 * q, blkMapped map (base + b * size + 4 * (q / W)))))

/-- What a segment comes to before its write. -/
inductive SegRead where
  | ok (x : HeldSeg)
  | missing (buf off : Nat)
  | lost (die : Nat)

/-- A line of a run on a lost die, or in transit. -/
def State.runLost (s : State) (x : Side) (o n : Nat) : Option Nat :=
  ((linesOf o n).map (fun l => (s.sidePhys x (l * 256)).die)).find? s.lost.contains
def State.runTransit (s : State) (buf : Nat) (o n : Nat) : Bool := (linesOf o n).any (fun l => s.inTransit buf l)

/-- Read the source of the next `n` bytes of a segment, through the placement of the checks (R269). -/
def State.segRead (s : State) (k : CKey) (t : Tag) (n : Nat) : State × SegRead :=
  match t.op with
  | .copy kind srcH map src _ _ _ _ ss _ row at_ =>
    let o := ((src : Int) + row * ss).toNat + at_
    let x : Side := ⟨map, hIndex srcH⟩
    if kind = 1 then
      let c := (s.core k).seenBy t.ctx
      (s, .ok ⟨c.spRead o n, (List.range (n / 4)).filter (fun j => c.spPoisoned (o + 4 * j) 4)⟩)
    else match s.runMissing x o n, s.runLost x o n with
      | some y, _ => (s, .missing (hIndex srcH) y)
      | none, some d => (s, .lost d)
      | none, none => let s1 := s.runReach t x o n; (s1, .ok (s1.runRead x o n))
  | .blk h pm size base d0 blocks map done =>
    let ws := blkWords size base d0 blocks map done n
    let x : Side := ⟨pm, hIndex h⟩
    match ws.findSome? (fun w => s.runMissing x w.2 4), ws.findSome? (fun w => s.runLost x w.2 4) with
    | some y, _ => (s, .missing (hIndex h) y)
    | none, some d => (s, .lost d)
    | none, none =>
      let s1 := ws.foldl (fun s w => s.opBefore t (s.sidePhys x w.2) 4) s
      let s2 := ((ws.map (fun w => w.2 / 256)).dedup).foldl (fun s l => s.reach t.ctx (s.sidePhys x (l * 256))) s1
      let xs := ws.map (fun w => s2.runRead x w.2 4)
      (s2, .ok ⟨xs.flatMap (fun x => x.bytes), ((xs.zipIdx).filter (fun x => !x.1.pois.isEmpty)).map (·.2)⟩)
  | _ => (s, .ok ⟨[], []⟩)

/-- Write scratchpad words of a segment, if its context still owns them: a group finds them once it must (R249, R273). -/
def State.spSeg (s : State) (k : CKey) (t : Tag) (o : Nat) (bs : List Byte) (pois : List Nat) : State :=
  if (segsOf o bs.length).all (fun j => (s.core k).segOwner j == some t.ctx) then
    (s.spLate k o bs.length (.tag k t.born)).modCore k (fun c =>
      let c1 := c.spWrite o bs
      { c1 with spPoison := c1.spPoison ++ pois.map (fun j => o / 4 + j) })
  else s

/-- The placement that the destination of the segment in flight, or of the next one, is written to: what its view named when the
segment began (R269). -/
def State.intoSide (s : State) (t : Tag) : Option Side :=
  match t.op with
  | .copy kind _ _ _ dstH _ _ _ _ _ _ _ =>
    if kind = 0 then none else some ⟨t.into.getD (s.sideOf dstH).map, hIndex dstH⟩
  | _ => none

/-- Write the destination of the `n` bytes read, or name the frame or die that is not there (R262). -/
def State.segWrite (s : State) (k : CKey) (t : Tag) (n : Nat) (x : HeldSeg) : State × Option SegRead :=
  match t.op with
  | .copy kind _ _ _ dstH dst _ _ _ ds row at_ =>
    let o := ((dst : Int) + row * ds).toNat + at_
    let d := (s.intoSide t).getD (s.sideOf dstH)
    if kind = 0 then (s.spSeg k t o x.bytes x.pois, none)
    else match s.runMissing d o n, s.runLost d o n with
      | some y, _ => (s, some (.missing (hIndex dstH) y))
      | none, some z => (s, some (.lost z))
      | none, none => ((s.runReach t d o n).runWrite k t d o x, none)
  | .blk _ _ size base d0 blocks map done =>
    (((blkWords size base d0 blocks map done n).zipIdx).foldl (fun s w =>
      s.spSeg k t w.1.1 ((x.bytes.drop (4 * w.2)).take 4) (if x.pois.contains w.2 then [0] else [])) s, none)
  | _ => (s, none)

/-- The operation after `n` bytes; none when they were the last. -/
def TagOp.advance (n : Nat) : TagOp → Option TagOp
  | .copy kind srcH map src dstH dst len rows ss ds row at_ =>
    if at_ + n < len then Option.some (.copy kind srcH map src dstH dst len rows ss ds row (at_ + n))
    else if row + 1 < rows then Option.some (.copy kind srcH map src dstH dst len rows ss ds (row + 1) 0)
    else Option.none
  | .blk h pm size base d0 blocks map done =>
    if done + n < W * size then Option.some (.blk h pm size base d0 blocks map (done + n)) else Option.none
  | _ => Option.none

/-- The record of a fault of a copy engine (R337, R340). -/
def Tag.faultRec (t : Tag) (k : CKey) (off clk : Nat) : FaultRec :=
  { FaultRec.blank with
    valid := true, code := 0x13, origin := 1, die := k.die, core := k.core, team := t.key.team, grp := t.key.grp,
    pc := t.pc, reg := BitVec.ofNat 32 t.num, addr := BitVec.ofNat 64 off, clk := clk }

/-- A segment meets a frame that is gone, or a lost die (R262, R340, R343). -/
def State.segStop (s : State) (k : CKey) (t : Tag) (r : SegRead) : State :=
  match r with
  | .missing buf off =>
    let s1 := s.post 4 k.die t.ctx (BitVec.ofNat 32 buf) (BitVec.ofNat 64 off)
    if s1.halted t.ctx then
      (s1.secondary t.ctx (t.faultRec k off s1.clk) (some (k, t.num))).modCore k (fun c =>
        { c with tags := replaceTag t (some { t with err := true, held := none, mid := false, stopped := true }) c.tags })
    else s1.modCore k (fun c => c.endTag t { t with err := true, held := none, mid := false })
  | .lost d =>
    (s.meetLostAt t.ctx d (some (k, t.num))).modCore k (fun c =>
      { c with tags := replaceTag t (some { t with err := true, held := none, mid := false, stopped := true }) c.tags })
  | .ok _ => s

/-- The write of `n` bytes of a segment, and what follows it (R259, R262): with the last of them the segment is over. -/
def State.segFinish (s : State) (k : CKey) (t : Tag) (n : Nat) (x : HeldSeg) : State :=
  match s.segWrite k t n x with
  | (s1, some r) => s1.segStop k t r
  | (s1, none) =>
    let whole := n == t.op.segRest
    let t1 := { t with segs := if whole then t.segs + 1 else t.segs, mid := !whole, into := if whole then none else (s.intoSide t).map Side.map, held := none, err := t.err || !x.pois.isEmpty }
    match t.op.advance n with
    | some op => s1.modCore k (fun c => { c with tags := replaceTag t (some { t1 with op := op }) c.tags })
    | none => s1.modCore k (fun c => c.endTag t { t1 with op := .none })

def TagOp.isCopy : TagOp → Bool
  | .copy _ _ _ _ _ _ _ _ _ _ _ _ => true
  | .blk _ _ _ _ _ _ _ _ => true
  | _ => false

/-- A line of what is left of the segment is in transit (R228). -/
def State.segTransit (s : State) (t : Tag) : Bool :=
  let n := t.op.segRest
  match t.op with
  | .copy kind srcH _ src dstH dst _ _ ss ds row at_ =>
    (kind != 1 && s.runTransit (hIndex srcH) (((src : Int) + row * ss).toNat + at_) n) ||
      (kind != 0 && s.runTransit (hIndex dstH) (((dst : Int) + row * ds).toNat + at_) n)
  | .blk h _ size base d0 blocks map done => (blkWords size base d0 blocks map done n).any (fun w => s.runTransit (hIndex h) w.2 4)
  | _ => false

/-- The engine runs at most four operations at once (R259). -/
def Core.engineFree (c : Core) (t : Tag) : Bool :=
  t.segs != 0 || t.mid ||
    (c.tags.filter (fun x => x.op.isCopy && !x.done && !x.stopped && (x.segs != 0 || x.mid || x.held.isSome))).length < 4

/-- The engine's next operation on a tag may take a step: one that is held only once it is released, and one that has stopped only
to end its segment in flight (R259, R261, R334, R374). -/
def State.maySegment (s : State) (k : CKey) (t : Tag) : Bool :=
  t.op.isCopy && !t.done && !s.segTransit t &&
    (if t.held.isSome then t.released || t.stopped else t.mid || (!t.stopped && (s.core k).engineFree t))

/-- Bytes that a copy has not written, rows left, and the next source and destination offset (R335). -/
def TagOp.residual : TagOp → Nat × Nat × Int × Int
  | .copy _ _ _ src _ dst len rows ss ds row at_ => ((rows - row) * len - at_, rows - row, src + row * ss + at_, dst + row * ds + at_)
  | .blk _ _ size base d0 blocks map done =>
    (W * size - done, if done < W * size then 1 else 0,
      (match (blkWords size base d0 blocks map done (min (W * size - done) (65536 - (d0 + done) % 65536))).head? with
        | Option.some w => (w.2 : Int) | Option.none => 0), ((d0 + done : Nat) : Int))
  | _ => (0, 0, 0, 0)

/-- The stop record of a copy operation (R335): STATUS 2 when its segment faulted while it drained (R340). -/
def Tag.stopRec (t : Tag) (k : CKey) (faulted : Bool) (clk : Nat) : StopRec :=
  let r := t.op.residual
  { kind := 3, die := k.die, unit := k.core, part := 0, status := if faulted then 2 else if r.1 = 0 then 0 else 1,
    pc := t.pc, a := BitVec.ofNat 32 t.num, b := BitVec.ofNat 32 r.2.1, c := BitVec.ofNat 64 r.1,
    d := BitVec.ofNat 64 (lowBits 32 r.2.2.1 + lowBits 32 r.2.2.2 * 2 ^ 32), clk := clk }

/-- The segment that was in flight when the halt line came is over: its engine has stopped (R334). -/
def State.drained (s : State) (k : CKey) (t : Tag) : State :=
  if !t.stopped then s
  else match (s.core k).tags.find? (fun x => x.num == t.num && x.born == t.born) with
    | some x => if x.mid then s else s.addStop t.ctx (x.stopRec k (!x.done && x.segs == t.segs) s.clk)
    | none => s

/-- Bytes that the engine moves at once: whole words, a free number up to the end of the segment, so that a store to the source
while the copy runs may be seen in part (R260); all of a segment that is to be held (R374). DESIGN CHOICE (log 82): within a segment the
words go in ascending order, of which R259 says nothing. -/
def State.portion (s : State) (t : Tag) : Nat :=
  if t.hold == some t.segs then t.op.segRest else min t.op.segRest (4 * (Config.engine s.tick 0 % 16384 + 1))

/-- COPY_SEGMENT (R259 to R262, R266, R374): a segment that holds has read its source, and has yet to translate its destination. -/
def execCopySegment (k : CKey) (tag : Nat) (s : State) : Host.Outcome State Fault Refusal :=
  match (s.core k).tags.find? (fun t => t.num == tag && s.maySegment k t) with
  | none => .refused .eventNotEnabled
  | some t =>
    match t.held with
    | some x => .next ((s.segFinish k t t.op.segRest x).drained k t)
    | none =>
      let n := s.portion t
      match s.segRead k t n with
      | (s1, .ok x) =>
        if t.hold == some t.segs then
          .next (s1.modCore k (fun c => { c with tags := replaceTag t (some { t with held := some x }) c.tags }))
        else .next ((s1.segFinish k t n x).drained k t)
      | (s1, r) => .next ((s1.segStop k t r).drained k t)

/-- SEGHOLD_RELEASE (R374): `release T` lets the held segments of a context's tag go on. -/
def execSegholdRelease (ctx tag : Nat) (s : State) : Host.Outcome State Fault Refusal :=
  if s.cores.any (fun c => c.tags.any (fun t => t.ctx == ctx && t.num == tag && t.held.isSome && !t.released)) then
    .next { s with cores := s.cores.map (fun c => { c with tags := c.tags.map (fun t =>
      if t.ctx == ctx && t.num == tag && t.held.isSome then { t with released := true } else t) }) }
  else .refused .eventNotEnabled

end Sys2Proof.Machine
end

