-- ==== Sys2Proof/Machine/Atomics.lean ====
section
/-! DEFINITION. The lodge of a sync engine (R292), atomics and no-return reductions, OP 0x7C to 0x7E (R295 to R300), each whole
and at the home of its object (R291, R294). -/

namespace Sys2Proof.Machine

/- ### The lodge and the annex (R292) -/

/-- Bytes of the lodge of a die (R9). -/
def lodgeBytes : Nat := 16 * 2 ^ 20

/-- Capacity of a mailbox in messages (R304). -/
def State.mbCapacity (s : State) (ctx q : Nat) : Nat :=
  match s.ctx? ctx with | some c => 2 ^ fld (s.memNat (c.mbtab + 8 * q) 8) 4 4 | none => 0

def State.objBytes (s : State) : ObjKey → Nat
  | .sync _ _ => Config.syncBytes
  | .mailbox ctx q => Config.mailboxBytes (s.mbCapacity ctx q)
  | .cell _ _ => Config.cellBytes

def State.bytesOf (s : State) (l : List LodgeObj) : Nat := (l.map (fun o => s.objBytes o.key)).sum
def State.lodgeUsed (s : State) (die : Nat) : Nat := s.bytesOf (s.lodge.filter (fun o => o.die == die && !o.annex))
def State.annexUsed (s : State) (ctx : Nat) : Nat := s.bytesOf (s.lodge.filter (fun o => o.ctx == ctx && o.annex))
/-- The annex of an object's context has room for it. -/
def State.annexRoom (s : State) (o : LodgeObj) : Bool :=
  match s.ctx? o.ctx with | some c => s.annexUsed o.ctx + s.objBytes o.key ≤ c.annexLen * 65536 | none => false

/-- Room in a lodge: the least recently used objects whose annexes have room move out; none when all are full (R292). -/
def State.lodgeRoom (s : State) (die need : Nat) : Nat → Option State
  | 0 => if s.lodgeUsed die + need ≤ lodgeBytes then some s else none
  | n + 1 =>
    if s.lodgeUsed die + need ≤ lodgeBytes then some s
    else match s.lodge.find? (fun o => o.die == die && !o.annex && s.annexRoom o) with
      | some o => { s with lodge := s.lodge.map (fun x => if x == o then { x with annex := true } else x) }.lodgeRoom die need n
      | none => none

/-- Space for an object on a die: it is there, or the lodge has room for it, or the annex of its context (R292). -/
def State.reserve (s : State) (die ctx : Nat) (key : ObjKey) : Option State :=
  if s.lodge.any (fun o => o.die == die && o.key == key) then some (s.useObj die key)
  else match s.lodgeRoom die (s.objBytes key) s.lodge.length with
  | some s1 => some { s1 with lodge := s1.lodge ++ [⟨die, ctx, key, false⟩] }
  | none =>
    let o : LodgeObj := ⟨die, ctx, key, true⟩
    if s.annexRoom o then some { s with lodge := s.lodge ++ [o] } else none

/-- A request is held for want of space: ANNEX_FULL is posted once for the hold. -/
def State.noteFull (s : State) (die ctx : Nat) : State :=
  match s.ctx? ctx with
  | none => s
  | some c => if c.annexFull then s else (s.modCtx ctx (fun c => { c with annexFull := true })).post 6 die ctx 0 0

/-- Space for several objects, all or none; a hold that ends clears its note. -/
def State.reserveAll (s : State) : List (Nat × Nat × ObjKey) → Except (Nat × Nat) State
  | [] => .ok s
  | (die, ctx, key) :: t =>
    match s.reserve die ctx key with
    | some s1 => (s1.modCtx ctx (fun c => { c with annexFull := false })).reserveAll t
    | none => .error (die, ctx)

/- ### One lane's atomic (R298) -/

/-- The request of an atomic: AT in place of RD and WR, PLAIN or SYNC. -/
def atomReq (ctx z : Nat) (h : Word) (off : Int) : Req :=
  { ctx := ctx, h := h, off := off, z := z, align := z, right := Entry.at_, kind := fun k => k == 0 || k == 2,
    useMap := false, reads := true }

/-- Handle and offset of a lane; OFF7 is signed (R27). -/
def State.atomAddr (s : State) (g : Group) (z : Nat) (x : MemOpd) (scalar : Bool) (i : Nat) : Word × Int :=
  (s.lane g 1 0 x.h scalar i, (s.lane g 2 0 x.b scalar i).toNat + x.off.toInt * z)

/-- What a lane's atomic reaches. -/
def State.atomReach (s : State) (g : Group) (z : Nat) (x : MemOpd) (scalar : Bool) (i : Nat) : Except FaultCode Phys :=
  let t := s.atomAddr g z x scalar i
  s.check (atomReq g.ctx z t.1 t.2)

/-- What sets one atomic apart: its operation and access size, the registers of the old value, none where nothing is returned, and
the operands: its datum, and for ACAS the new value after the compare (R295, R296). `marks`: the datum is checked for the marker
(R297). -/
structure AtomOp where
  fn : RmwFn
  z : Nat
  ret : Option Nat
  marks : Bool
  x : State → Group → Bool → Nat → Nat
  y : State → Group → Bool → Nat → Nat

/-- One lane: an indivisible read-modify-write that is performed at the home when it comes there (R298, R300); its order is an
acquire, a release or both (R299). -/
def atomLane (op : AtomOp) (d : Opd) (x : MemOpd) (scalar : Bool) (s0 : State) (k : GKey) (s : State) (i : Nat) (who : Mask) : State × LaneRes :=
  match s0.group? k with
  | none => (s, .skip)
  | some g =>
    let t := s0.atomAddr g op.z x scalar i
    match s.atomReach g op.z x scalar i with
    | .error f =>
      s.accFail g f (hIndex t.1) (t.2 % 2 ^ 32) t.2 (s.homeAt (s.entry (hIndex t.1)) (hView t.1) t.2.toNat)
    | .ok p =>
      let rel := x.ord == .rel || x.ord == .ar
      let acq := x.ord == .acq || x.ord == .ar
      let e : Pending :=
        ⟨s0.threads g who, p, g.ctx, .rmw op.fn op.z (op.x s0 g scalar i) (op.y s0 g scalar i) (op.ret.map (fun n => (d, n, who))),
          if rel then some x.scp else none, if acq then some x.scp else none, s.tick, [], none⟩
      (s.pend k e, if op.ret.isSome then .late else .skip)

/-- What the lanes of an issue reach, those aside that fail for a marker before they reach anything (R297). -/
def State.atomReaches (s : State) (c : Ctl) (z : Nat) (x : MemOpd) (scalar : Bool) (pre : List LaneFault) : List (Group × Phys) :=
  (s.execs c).flatMap (fun (g : Group × Mask) =>
    let m := g.2 &&& ~~~(faultLanesOf pre g.1.key)
    if m == 0#64 then []
    else (if scalar then ([0] : List Nat) else lanesOf m).filterMap (fun i =>
      match s.atomReach g.1 z x scalar i with | .ok p => some (g.1, p) | .error _ => none))

/-- The effect of atomics and REDOP (R298, R299): held on a line in transit (R300), or for space in a lodge (R292). -/
def atomEff (c : Ctl) (op : AtomOp) (d : Opd) (x : MemOpd) (s : State) : Eff :=
  let scalar := d.isScalarDst
  let mf := if op.marks then (s.execs c).flatMap (fun g =>
      if s.nomark g.1.ctx then [] else s.markerFaults g.1 scalar g.2 [(0, d)]) else []
  let ps := s.atomReaches c op.z x scalar mf
  if ps.any (fun p => s.inTransit p.2.buf p.2.line) then .hold s
  else
    match s.reserveAll (ps.filterMap (fun p =>
        if (s.entry p.2.buf).kind = 2 then some (p.2.die, p.1.ctx, ObjKey.sync p.2.buf (p.2.offset / 16)) else none)) with
    | .error e => .hold (s.noteFull e.1 e.2)
    | .ok s1 =>
      accessEffWith mf c scalar x.h.code (op.ret.map (fun n => (d, n))) (atomLane op d x scalar s1) s1

/- ### The operations (R295 to R297) -/

/-- An integer atomic on a datum of a type. -/
def intAtom (fn : RmwFn) (it : IT) (d : Opd) : AtomOp :=
  { fn := fn, z := it.bits / 8, ret := some it.run, marks := false, x := fun s g scalar i => s.laneData g 0 it d scalar i
    y := fun _ _ _ _ => 0 }

/-- AADD (R295). -/
def execAadd (c : Ctl) (it : IT) (d : Opd) (x : MemOpd) (s : State) : Host.Outcome State Fault Refusal :=
  issue (.aadd c it d x) c s (atomEff c (intAtom .add it d) d x)
/-- AMIN. -/
def execAmin (c : Ctl) (it : IT) (d : Opd) (x : MemOpd) (s : State) : Host.Outcome State Fault Refusal :=
  issue (.amin c it d x) c s (atomEff c (intAtom (.least it) it d) d x)
/-- AMAX. -/
def execAmax (c : Ctl) (it : IT) (d : Opd) (x : MemOpd) (s : State) : Host.Outcome State Fault Refusal :=
  issue (.amax c it d x) c s (atomEff c (intAtom (.greatest it) it d) d x)
/-- AAND. -/
def execAand (c : Ctl) (it : IT) (d : Opd) (x : MemOpd) (s : State) : Host.Outcome State Fault Refusal :=
  issue (.aand c it d x) c s (atomEff c (intAtom .and it d) d x)
/-- AOR. -/
def execAor (c : Ctl) (it : IT) (d : Opd) (x : MemOpd) (s : State) : Host.Outcome State Fault Refusal :=
  issue (.aor c it d x) c s (atomEff c (intAtom .or it d) d x)
/-- AXOR. -/
def execAxor (c : Ctl) (it : IT) (d : Opd) (x : MemOpd) (s : State) : Host.Outcome State Fault Refusal :=
  issue (.axor c it d x) c s (atomEff c (intAtom .xor it d) d x)
/-- AXCHG. -/
def execAxchg (c : Ctl) (it : IT) (d : Opd) (x : MemOpd) (s : State) : Host.Outcome State Fault Refusal :=
  issue (.axchg c it d x) c s (atomEff c (intAtom .xchg it d) d x)

/-- ACAS's operands: the compare value, and the new value in the registers after it (R295). -/
def casAtom (it : IT) (d : Opd) : AtomOp :=
  { intAtom .cas it d with y := fun s g scalar i => s.laneData g 0 it (Opd.plus d it.run) scalar i }

/-- ACAS (R295). -/
def execAcas (c : Ctl) (it : IT) (d : Opd) (x : MemOpd) (s : State) : Host.Outcome State Fault Refusal :=
  issue (.acas c it d x) c s (atomEff c (casAtom it d) d x)

/-- A floating-point atomic: the operand register is in FT placement and checked for the marker (R136, R297). -/
def fpAtom (fn : RmwFn) (f : FFmt) (ret : Option Nat) (d : Opd) : AtomOp :=
  { fn := fn, z := f.bits / 8, ret := ret, marks := true, x := fun s g scalar i => (s.lane g 0 0 d scalar i).toNat
    y := fun _ _ _ _ => 0 }

/-- AFADD (R295, R297). -/
def execAfadd (c : Ctl) (ft : FT) (d : Opd) (x : MemOpd) (s : State) : Host.Outcome State Fault Refusal :=
  issue (.afadd c ft d x) c s (atomEff c (fpAtom (.fadd ft) (ftFmt ft) (some 1) d) d x)

/-- The reduction of a REDOP (R296). -/
def redAtom (t : RedT) (o : RedOp) (d : Opd) : AtomOp :=
  let it : IT := match t with | .w32 => .w32 | _ => .i32
  match t, o with
  | .f32, .add => fpAtom (.fadd .f32) fmtF32 none d
  | .f32, .min => fpAtom .fleast fmtF32 none d
  | .f32, .max => fpAtom .fgreatest fmtF32 none d
  | _, .add => { intAtom .add it d with ret := none }
  | _, .min => { intAtom (.least it) it d with ret := none }
  | _, .max => { intAtom (.greatest it) it d with ret := none }
  | _, .or => { intAtom .or it d with ret := none }

/-- REDOP (R296). -/
def execRedop (c : Ctl) (t : RedT) (o : RedOp) (d : Opd) (x : MemOpd) (s : State) : Host.Outcome State Fault Refusal :=
  issue (.redop c t o d x) c s (atomEff c (redAtom t o d) d x)

end Sys2Proof.Machine
end

