-- ==== Sys2Proof/Machine/CrossLane.lean ====
section
/-! DEFINITION. Cross-lane instructions, OP 0x26 to 0x2B (R129 to R135). -/

namespace Sys2Proof.Machine

/-- The lane of each executing scope lane that LSH and LXCH read: `pick` gives a scope lane, and one outside the span
reads the lane itself (R130, R131). -/
def shuffleEff (c : Ctl) (d a : Opd) (pick : State → Nat → Group → Nat → Int) (s : State) : Eff :=
  let src := s.spanVec c 1 0 a
  let n := src.length
  .done (s.everyMember c (some 4) (fun k e =>
    match (s.span c)[k]? with
    | none => []
    | some g =>
      if e == 0 then []
      else writeVec d 0 e ((List.range W).map (fun i =>
        let j := pick s n g (k * W + i)
        if 0 ≤ j && j < (n : Int) then nth 0 src j.toNat else nth 0 src (k * W + i)))))

/-- LSH's offset: absolute, or relative to the span (R130). -/
def lshOffset (s : State) (n : Nat) (b : Opd) : Nat :=
  match b with
  | .imm k => if k.toInt < 0 then n / 2 ^ (-k.toInt).toNat else k.toNat
  | _ => (s.once 2 b).toNat

/-- XOR of two numbers as 32-bit words. -/
def xorNat (x y : Nat) : Nat := (BitVec.ofNat 32 x ^^^ BitVec.ofNat 32 y).toNat

/-- LSH's source lane (R130). -/
def lshLane (op : LshOp) (n k i : Nat) : Int :=
  match op with
  | .up => (i : Int) - k
  | .down => (i : Int) + k
  | .xor => (xorNat i k : Int)
  | .rot => (((i + k) % n : Nat) : Int)

/-- LSH (R130). -/
def execLsh (c : Ctl) (op : LshOp) (d a b : Opd) (s : State) : Host.Outcome State Fault Refusal :=
  issue (.lsh c op d a b) c s (shuffleEff c d a (fun s n _ i => lshLane op n (lshOffset s n b) i))

/-- LXCH (R131). -/
def execLxch (c : Ctl) (d a b : Opd) (s : State) : Host.Outcome State Fault Refusal :=
  issue (.lxch c d a b) c s (shuffleEff c d a (fun s _ g i =>
    if b.isV then ((nth 0 (s.vec g 2 0 b) (i % W)).toNat : Int) else ((s.once 2 b).toNat : Int)))

/-- The combination of LRED and LSCAN on two values at a type (R132). -/
def redOp (op : RedOp) (it : IT) (x y : Int) : Int :=
  match op with
  | .add => x + y
  | .min => min x y
  | .max => max x y
  | .or => ((BitVec.ofNat 64 (uns it.bits x) ||| BitVec.ofNat 64 (uns it.bits y)).toNat : Int)

/-- A combined value read again at the type: the sum wraps (R132). -/
def redVal (it : IT) (x : Int) : Int :=
  if it.signed then sext it.bits (lowBits it.bits x) else (lowBits it.bits x : Int)

/-- The identity that an exclusive scan starts from (R132). -/
def redIdentity (op : RedOp) (it : IT) : Int :=
  match op with | .add => 0 | .or => 0 | .min => itMax it | .max => itMin it

/-- The values of a source at a type over the span. -/
def State.spanInts (s : State) (c : Ctl) (f : Nat) (it : IT) (o : Opd) : List Int := (s.span c).flatMap (fun g => s.ints g f it o)

/-- LRED (R132). -/
def execLred (c : Ctl) (op : RedOp) (it : IT) (d a : Opd) (s : State) : Host.Outcome State Fault Refusal :=
  issue (.lred c op it d a) c s (fun s =>
    let src := s.spanInts c 1 it a
    let vals := (s.spanExec c).map (fun i => nth 0 src i)
    match vals with
    | [] => .done (s.everyMember c none (fun _ _ => []))
    | x :: t =>
      let r := resNat it (t.foldl (redOp op it) x)
      .done (s.everyMember c none (fun _ m =>
        if d.isScalarDst then resWrites1 d it.run r
        else if m == 0 then [] else resWrites d it.run m (List.replicate W r))))

/-- The scan over scope lanes in ascending order: the value of each executing one (R132). -/
def scanFrom (op : RedOp) (it : IT) (excl : Bool) (src : List Int) (acc : Option Int) : List Nat → List (Nat × Int)
  | [] => []
  | i :: t =>
    let x := nth 0 src i
    let incl := match acc with | some a => redVal it (redOp op it a x) | none => x
    (i, if excl then acc.getD (redIdentity op it) else incl) :: scanFrom op it excl src (some incl) t

/-- LSCAN (R132). -/
def execLscan (c : Ctl) (op : RedOp) (it : IT) (excl : Bool) (d a : Opd) (s : State) : Host.Outcome State Fault Refusal :=
  issue (.lscan c op it excl d a) c s (fun s =>
    let rs := scanFrom op it excl (s.spanInts c 1 it a) none (s.spanExec c)
    .done (s.everyMember c none (fun k m =>
      if m == 0 then []
      else resWrites d it.run m ((List.range W).map (fun i =>
        resNat it (((rs.find? (fun x => x.1 == k * W + i)).map (·.2)).getD 0))))))

/-- The ballot of one group of the span (R133). -/
def State.ballot (s : State) (c : Ctl) (a : Opd) (g : Group) : Mask :=
  s.execOf c g.key &&& maskOfList ((s.vec g 1 0 a).map (· != 0))

/-- LBAL (R133). -/
def execLbal (c : Ctl) (d a : Opd) (s : State) : Host.Outcome State Fault Refusal :=
  issue (.lbal c d a) c s (fun s =>
    let bs := (s.span c).map (s.ballot c a)
    .done (s.everyMember c (some 4) (fun k _ =>
      match d with
      | .m n => [.m n.val allLanes (nth 0 bs k)]
      | _ => (bs.zipIdx).flatMap (fun x => writeScal d (2 * x.2) (loWord x.1) ++ writeScal d (2 * x.2 + 1) (hiWord x.1)))))

/-- LVOTE's test of the executing lanes' words (R133). -/
def voteOp (op : VoteOp) (xs : List Word) : Bool :=
  match op with
  | .all => xs.all (· != 0)
  | .any => xs.any (· != 0)
  | .same => match xs with | [] => true | x :: t => t.all (· == x)

/-- LVOTE (R133). -/
def execLvote (c : Ctl) (op : VoteOp) (d a : Opd) (s : State) : Host.Outcome State Fault Refusal :=
  issue (.lvote c op d a) c s (fun s =>
    let src := s.spanVec c 1 0 a
    let r : Word := if voteOp op ((s.spanExec c).map (fun i => nth 0 src i)) then 1 else 0
    .done (s.everyMember c (some 4) (fun _ m => memberWord d r m)))

/-- The group and lane that LGET and LPUT reach: in a handler of a wider fault a scope lane over the suspended members,
else a lane of the group; none beyond the span (R134). -/
def State.laneReach (s : State) (g : Group) (l : Nat) : Option (Group × Nat) :=
  let sc := g.fault.scope.toNat % 4
  if s.cur.phase == .handler && 2 ≤ sc then
    match (if sc = 2 then s.partyGroups g else s.teamGroups g.key)[l / W]? with
    | some h => if bitOf g.fault.groups.toNat h.key.grp then some (h, l % W) else none
    | none => none
  else if l < W then some (g, l) else none

/-- LGET (R134). -/
def execLget (c : Ctl) (d : SReg) (a l : Opd) (s : State) : Host.Outcome State Fault Refusal :=
  issue (.lget c d a l) c s (fun s => onGroup c s (fun g _ e =>
    let x : Word := match s.laneReach g (s.scal g 2 0 l).toNat with
      | some (h, i) => nth 0 (s.vec h 1 0 a) i
      | none => 0
    .done (if e == 0 then s else s.putFixed g.key 4 [.s d.toNat x])))

/-- LPUT (R134). -/
def execLput (c : Ctl) (d a l : Opd) (s : State) : Host.Outcome State Fault Refusal :=
  issue (.lput c d a l) c s (fun s => onGroup c s (fun g _ e =>
    match s.laneReach g (s.scal g 2 0 l).toNat with
    | some (h, i) => .done (if e == 0 then s else
        s.putFixed h.key 4 (writeVec d 0 (BitVec.ofNat 64 (2 ^ i)) (List.replicate W (s.scal g 1 0 a))))
    | none => .done s))

end Sys2Proof.Machine
end

