-- ==== Sys2Proof/WellFormed.lean ====
section
/-! DEFINITION. Which instructions the encoding admits (R26 to R34, R42): every field holds a code that its entry
accepts, the long form stands only where R28 gives it, and AWAIT only where R27 does. -/

namespace Sys2Proof

/-- The fields that every encoded instruction carries (R26). -/
def Instr.ctl : Instr → Option Ctl
  | .nop c => some c
  | .yield c => some c
  | .bra c _ _ => some c
  | .brc c _ _ _ _ _ => some c
  | .brx c _ => some c
  | .call c _ _ _ => some c
  | .callReg c _ _ => some c
  | .ret c _ => some c
  | .exit c => some c
  | .join c _ => some c
  | .leave c _ => some c
  | .waitm c _ => some c
  | .mop c _ _ _ _ => some c
  | .mcnt c _ _ => some c
  | .mfrom c _ _ => some c
  | .mto c _ _ => some c
  | .loop c _ _ _ => some c
  | .loopq c _ _ _ _ => some c
  | .lbrk c _ => some c
  | .qbind c _ _ _ _ => some c
  | .qstat c _ _ _ => some c
  | .qskip c _ _ => some c
  | .sign c => some c
  | .cvwait c _ _ => some c
  | .cvrd c _ _ => some c
  | .elect c _ => some c
  | .bcast c _ _ _ => some c
  | .iadd c _ _ _ _ _ => some c
  | .isub c _ _ _ _ _ => some c
  | .iaddc c _ _ _ _ _ => some c
  | .isubb c _ _ _ _ _ => some c
  | .imul c _ _ _ _ => some c
  | .imulh c _ _ _ _ => some c
  | .imad c _ _ _ _ _ => some c
  | .imin c _ _ _ _ => some c
  | .imax c _ _ _ _ => some c
  | .iabs c _ _ _ => some c
  | .shl c _ _ _ _ => some c
  | .shr c _ _ _ _ => some c
  | .sar c _ _ _ _ => some c
  | .rotl c _ _ _ _ => some c
  | .bfx c _ _ _ _ _ => some c
  | .bfi c _ _ _ _ _ => some c
  | .popc c _ _ _ => some c
  | .clz c _ _ _ => some c
  | .ctz c _ _ _ => some c
  | .brev c _ _ _ => some c
  | .icmp c _ _ _ _ _ => some c
  | .isel c _ _ _ _ => some c
  | .mov c _ _ => some c
  | .movw c _ _ _ _ => some c
  | .movi c _ _ => some c
  | .cvti c _ _ _ _ _ => some c
  | .bitfn c _ _ _ _ _ => some c
  | .lsh c _ _ _ _ => some c
  | .lxch c _ _ _ => some c
  | .lred c _ _ _ _ => some c
  | .lscan c _ _ _ _ _ => some c
  | .lbal c _ _ => some c
  | .lvote c _ _ _ => some c
  | .lget c _ _ _ => some c
  | .lput c _ _ _ => some c
  | .fadd c _ _ _ _ _ _ _ => some c
  | .fsub c _ _ _ _ _ _ _ => some c
  | .fmul c _ _ _ _ _ _ _ => some c
  | .ffma c _ _ _ _ _ _ => some c
  | .fmin c _ _ _ _ => some c
  | .fmax c _ _ _ _ => some c
  | .fminn c _ _ _ _ => some c
  | .fmaxn c _ _ _ _ => some c
  | .fcmp c _ _ _ _ _ => some c
  | .fclass c _ _ _ => some c
  | .fcvt c _ _ _ _ _ _ _ => some c
  | .frnd c _ _ _ _ => some c
  | .fscale c _ _ _ _ _ => some c
  | .fsqrt c _ _ _ _ => some c
  | .frcp c _ _ _ => some c
  | .frsq c _ _ _ => some c
  | .fdivs c _ _ _ _ => some c
  | .fexp2 c _ _ _ => some c
  | .flog2 c _ _ _ => some c
  | .fsin c _ _ _ => some c
  | .fcos c _ _ _ => some c
  | .ftanh c _ _ _ => some c
  | .fsigm c _ _ _ => some c
  | .fact c _ _ _ => some c
  | .tblsel c _ => some c
  | .tblld c _ _ => some c
  | .pradd c _ _ _ _ _ _ _ => some c
  | .prmul c _ _ _ _ _ _ _ => some c
  | .prfma c _ _ _ _ _ _ _ => some c
  | .dp4i c _ _ _ _ _ => some c
  | .dp8i c _ _ _ _ _ => some c
  | .dpf8 c _ _ _ _ _ _ => some c
  | .dpf4 c _ _ _ _ => some c
  | .mxsc c _ _ _ _ _ => some c
  | .pcvt c _ _ _ _ _ _ _ => some c
  | .punp c _ _ _ _ => some c
  | .vtopk c _ _ _ _ _ => some c
  | .vtopkm c _ _ _ _ => some c
  | .argmx c _ _ _ _ _ => some c
  | .mwld c _ _ _ => some c
  | .mwsw c => some c
  | .mwfm c => some c
  | .mma c _ _ _ _ _ _ _ _ => some c
  | .mzero c _ => some c
  | .mrda c _ _ _ _ _ _ => some c
  | .mwra c _ _ _ _ _ => some c
  | .msta c _ _ _ => some c
  | .mlda c _ _ => some c
  | .mrow c _ _ => some c
  | .mcol c _ _ => some c
  | .msca c _ => some c
  | .mrel c => some c
  | .mfin c => some c
  | .ld c _ _ _ => some c
  | .st c _ _ _ => some c
  | .ldx c _ _ _ => some c
  | .stx c _ _ _ => some c
  | .ldv c _ _ _ => some c
  | .stv c _ _ _ => some c
  | .pref c _ _ _ => some c
  | .fence c _ _ => some c
  | .btrd c _ _ _ => some c
  | .rowmap c _ _ _ _ => some c
  | .restripe c _ _ _ _ => some c
  | .rsqry c _ _ => some c
  | .ipadd c _ _ _ _ _ _ => some c
  | .ipsub c _ _ _ _ _ _ => some c
  | .ipmin c _ _ _ _ _ => some c
  | .ipmax c _ _ _ _ _ => some c
  | .ipmac c _ _ _ _ _ => some c
  | .ipcpy c _ _ _ => some c
  | .nbkick c _ _ _ _ => some c
  | .nbstat c _ _ => some c
  | .ldsp c _ _ _ _ => some c
  | .stsp c _ _ _ _ => some c
  | .tlook c _ _ => some c
  | .tset c _ _ => some c
  | .tclr c _ => some c
  | .copy c _ _ => some c
  | .copyShadow c _ _ => some c
  | .blkcpy c _ _ _ _ => some c
  | .waitany c _ _ _ => some c
  | .waitall c _ _ _ => some c
  | .ffrdy c _ _ => some c
  | .tagclr c _ => some c
  | .shadow c _ _ _ _ => some c
  | .publish c _ => some c
  | .aadd c _ _ _ => some c
  | .amin c _ _ _ => some c
  | .amax c _ _ _ => some c
  | .aand c _ _ _ => some c
  | .aor c _ _ _ => some c
  | .axor c _ _ _ => some c
  | .axchg c _ _ _ => some c
  | .acas c _ _ _ => some c
  | .afadd c _ _ _ => some c
  | .redop c _ _ _ _ => some c
  | .barr c _ _ => some c
  | .barw c _ _ => some c
  | .mbput c _ _ => some c
  | .mbget c _ _ => some c
  | .mbtry c _ _ => some c
  | .vld c _ _ _ _ _ => some c
  | .vlds c _ _ _ _ _ => some c
  | .vst c _ _ _ _ _ => some c
  | .recon c _ _ _ _ _ _ => some c
  | .trap c _ => some c
  | .rteReplay c _ => some c
  | .rteSkip c => some c
  | .rteResume c => some c
  | .gsr c _ _ => some c
  | .ssr c _ _ => some c
  | .halt c => some c
  | .brk c => some c
  | .clk c _ => some c
  | .streamPrefetch _ _ => none
  | .instanceIssue _ => none
  | .tblldLoadComplete _ _ => none
  | .weightLoadComplete _ => none
  | .bankSwap _ => none
  | .mmaPass _ => none
  | .arraySequenceStep _ => none
  | .resultWrite _ _ => none
  | .checksDecided _ => none
  | .clauseFetch _ => none
  | .readCopyExpiry _ _ => none
  | .lineMoveStart _ => none
  | .lineMoveCommit _ => none
  | .kickStep _ _ => none
  | .copySegment _ _ => none
  | .publishExchange _ => none
  | .siblingArrival _ _ _ _ => none
  | .heldSiblingRelease _ _ _ _ => none
  | .compaction _ _ => none
  | .haltLineArrival _ _ => none
  | .dumpWrite _ => none
  | .handlerOverrun _ => none
  | .debugStop _ => none
  | .debugResume _ => none
  | .singleStep _ => none
  | .launch _ => none
  | .teamPlacement _ => none
  | .partialEviction _ => none
  | .partyRestore _ => none
  | .groupExchange _ => none
  | .pendingGroupEntry _ => none
  | .ctxCreate _ => none
  | .ctxHalt _ => none
  | .ctxDestroy _ => none
  | .contextRetire _ => none
  | .ctxAnnex _ => none
  | .slotLoad _ => none
  | .slotLoadComplete => none
  | .frameRef _ => none
  | .bufAdopt _ => none
  | .hostPost _ _ => none
  | .cxlMemRequest _ => none
  | .acccntWrite _ _ _ => none
  | .evqHead _ => none
  | .eventOverflowDelivery _ => none
  | .lostev _ => none
  | .controlRegisterWrite _ _ => none
  | .getVersion => none
  | .getCapabilities => none
  | .negotiateAlgorithms _ _ => none
  | .getDigests => none
  | .getCertificate => none
  | .challenge _ => none
  | .getMeasurements _ => none
  | .coldReset _ => none
  | .warmReset => none
  | .throttle _ => none
  | .thermalPowerRemoval => none
  | .spanLinkDown _ => none
  | .spanLinkUp _ => none
  | .spanRequestTimeout _ => none
  | .linkRetrain _ => none
  | .flitCrcResend _ => none
  | .dieLost _ => none
  | .heartbeatTimeout _ => none
  | .unassignedEncoding _ => none
  | .peerModuleRequest _ _ => none
  | .throttleEnd _ => none
  | .breakpointSet _ _ _ => none
  | .segholdRelease _ _ => none

/-- AWAIT is set only at a wider scope (R27, R42), and on a one-word instruction only in its long form; the long form
belongs to format S (R28). -/
def Ctl.wf (c : Ctl) (d : Desc) : Bool :=
  (!c.await || (c.scope != .lane && d.await != .never && (d.fmt != .S || c.long))) && (!c.long || d.fmt == .S)

/-- Every operand field holds a code that its entry accepts (R29, R31). -/
def Desc.wf (d : Desc) : Bool := d.slots.all (fun x => x.ok)

/-- BITFN at a scope other than LANE is an illegal encoding (R40). -/
def bitfnScope : Instr → Bool
  | .bitfn c _ _ _ _ _ => c.scope == .lane
  | _ => true

/-- A well-formed instruction. A step of the part that no word encodes has no encoding to be wrong. -/
def Instr.wf (i : Instr) : Bool :=
  match i.desc, i.ctl with
  | some d, some c => d.wf && c.wf d && bitfnScope i
  | _, _ => true

end Sys2Proof
end

