-- ==== Sys2Proof/Decode.lean ====
section
/-! DEFINITION. From words to instructions and back (R26 to R34, R40 to R45). The decoder pulls the fields of the base
and the operand word apart, finds the one instruction that (OP, FN) and the fields can mean, and accepts it when it is
well formed and its own words are those it was read from, so that every reserved bit must be zero. -/

namespace Sys2Proof

/- ### Fields (R26, R27) -/

/-- The fields of an instruction's one or two words. -/
structure Raw where
  stall : Nat
  scope : Nat
  x : Bool
  op : Nat
  fn : Nat
  d : Nat
  g : Nat
  a : Nat
  b : Nat
  c : Nat
  m : Nat
  deriving DecidableEq, Repr

/-- The base word (R26). -/
def Raw.base (r : Raw) : Word :=
  BitVec.ofNat 32 (r.stall * 2 ^ 29 + r.scope * 2 ^ 27 + b2n r.x * 2 ^ 26 + r.op * 2 ^ 19 + r.fn * 2 ^ 14 + r.d * 2 ^ 4 + r.g)

/-- The operand word (R27). -/
def Raw.opnd (r : Raw) : Word := BitVec.ofNat 32 (r.a * 2 ^ 22 + r.b * 2 ^ 12 + r.c * 2 ^ 2 + r.m)

/-- The words, first word first. -/
def Raw.words (r : Raw) : List Word := if r.x then [r.base, r.opnd] else [r.base]

/-- The fields of a base word, and of an operand word when X is set. -/
def rawOf (w0 w1 : Word) : Raw :=
  let n := w0.toNat
  let x := bitN n 26
  let k := if x then w1.toNat else 0
  { stall := n / 2 ^ 29, scope := n / 2 ^ 27 % 4, x := x, op := n / 2 ^ 19 % 128, fn := n / 2 ^ 14 % 32,
    d := n / 2 ^ 4 % 1024, g := n % 16, a := k / 2 ^ 22, b := k / 2 ^ 12 % 1024, c := k / 4 % 1024, m := k % 4 }
where
  /-- Bit `i` of a number. -/
  bitN (n i : Nat) : Bool := n / 2 ^ i % 2 == 1

/- ### The encoder -/

/-- G (R26). -/
def guardCode : Option MReg → Nat
  | none => 0
  | some m => m.val + 1

/-- The fields of an encoded instruction: those of its description, and AWAIT as M[1]. -/
def rawFor (c : Ctl) (d : Desc) : Raw :=
  { stall := c.stall.toNat, scope := c.scope.code, x := d.fmt != .S || c.long, op := d.op, fn := d.fn, d := d.d.code,
    g := guardCode c.guard, a := d.a.code, b := d.b.code, c := d.c.code, m := d.m + 2 * b2n c.await }

/-- The words of an instruction: none for a step of the part that no word encodes. -/
def encode (i : Instr) : List Word :=
  match i.desc, i.ctl with
  | some d, some c => (rawFor c d).words
  | _, _ => []

/- ### Field codes (R30, R32) -/

def scopeOf (n : Nat) : Scope := match n with | 0 => .lane | 1 => .group | 2 => .party | _ => .team

def guardOf (n : Nat) : Option (Option MReg) :=
  if n = 0 then some none else if h : n - 1 < 12 then some (some ⟨n - 1, h⟩) else none

def itOf (n : Nat) : Option IT :=
  match n with
  | 0 => some .i8 | 1 => some .i16 | 2 => some .i32 | 3 => some .i64
  | 4 => some .w8 | 5 => some .w16 | 6 => some .w32 | 7 => some .w64 | _ => none

def ftOf (n : Nat) : Option FT := match n with | 0 => some .f32 | 1 => some .f16 | 2 => some .bf16 | _ => none

def rndOf (n : Nat) : Option Rnd :=
  match n with | 0 => some .rne | 1 => some .rz | 2 => some .rp | 3 => some .rm | 4 => some .sr | _ => none

def ordOf (n : Nat) : Option Ordr :=
  match n with | 0 => some .rlx | 1 => some .acq | 2 => some .rel | 3 => some .ar | _ => none

def scpOf (n : Nat) : Option Scp :=
  match n with
  | 0 => some .team | 1 => some .cluster | 2 => some .die | 3 => some .package | 4 => some .system | _ => none

def tcOf (n : Nat) : Option TC :=
  match n with
  | 0 => some .f32 | 1 => some .f16 | 2 => some .bf16 | 3 => some .e4m3 | 4 => some .e5m2 | 5 => some .e2m3
  | 6 => some .e3m2 | 7 => some .e2m1 | 8 => some .i8 | 9 => some .i16 | 10 => some .i32 | 11 => some .i64
  | 12 => some .w8 | 13 => some .w16 | 14 => some .w32 | 15 => some .w64 | _ => none

def specialOf (n : Nat) : Option Special :=
  match n with
  | 0 => some .lane | 1 => some .group | 2 => some .party | 3 => some .team | 4 => some .width | 5 => some .core
  | 6 => some .die | 7 => some .clock | 8 => some .vpc | _ => none

/-- What an operand code names (R30). -/
def opdOf (n : Nat) : Option Opd :=
  if n < 0x100 then some (.v (BitVec.ofNat 8 n))
  else if n < 0x300 then some (.s (BitVec.ofNat 9 (n - 0x100)))
  else if n < 0x340 then some (.y (BitVec.ofNat 6 (n - 0x300)))
  else if n < 0x348 then some (.q (BitVec.ofNat 3 (n - 0x340)))
  else if n < 0x350 then none
  else if h : n - 0x350 < 12 then some (.m ⟨n - 0x350, h⟩)
  else if n < 0x360 then none
  else if n < 0x369 then (specialOf (n - 0x360)).map .sp
  else if h : n - 0x369 < 3 then some (.lc ⟨n - 0x369, h⟩)
  else if n < 0x380 then none
  else if n < 0x400 then some (.imm (BitVec.ofNat 7 (n - 0x380)))
  else none

def sOf (n : Nat) : Option SReg := match opdOf n with | some (.s x) => some x | _ => none
def vOf (n : Nat) : Option VReg := match opdOf n with | some (.v x) => some x | _ => none
def mOf (n : Nat) : Option MReg := match opdOf n with | some (.m x) => some x | _ => none
def qOf (n : Nat) : Option QReg := match opdOf n with | some (.q x) => some x | _ => none
def lcOf (n : Nat) : Option LcReg := match opdOf n with | some (.lc x) => some x | _ => none

/-- A number below `k`, held as such, or as an inline constant. -/
def finOf (k n : Nat) : Option (Fin k) := if h : n < k then some ⟨n, h⟩ else none
def immOf (n : Nat) : Option Nat := if 0x380 ≤ n then some (n - 0x380) else none
def finImm (k n : Nat) : Option (Fin k) := (immOf n).bind (finOf k)

def hintOf (b : Nat) : Hint := match b / 256 with | 0 => .none | 1 => .lk | 2 => .ul | _ => .un
def off18 (b c : Nat) : BitVec 18 := BitVec.ofNat 18 (b % 256 * 1024 + c)

def predOf (n : Nat) : Option Pred :=
  match n with
  | 0 => some .eq | 1 => some .ne | 2 => some .lt | 3 => some .le | 4 => some .gt | 5 => some .ge | _ => none
def fpredOf (n : Nat) : FPred :=
  match n with
  | 0 => .eq | 1 => .ne | 2 => .lt | 3 => .le | 4 => .gt | 5 => .ge | 6 => .ord | _ => .unord
def lshOf (n : Nat) : Option LshOp :=
  match n with | 0 => some .up | 1 => some .down | 2 => some .xor | 3 => some .rot | _ => none
def redOf (n : Nat) : RedOp := match n with | 0 => .add | 1 => .min | 2 => .max | _ => .or
def mopOf (n : Nat) : MopOp := match n with | 0 => .and | 1 => .or | 2 => .xor | _ => .andn
def voteOf (n : Nat) : VoteOp := match n with | 1 => .all | 2 => .any | _ => .same
def reconOf (n : Nat) : ReconOp :=
  match n with | 0 => .sum | 1 => .min | 2 => .max | 3 => .or | 4 => .and | _ => .pick
def redTOf (n : Nat) : RedT := match n with | 0 => .w32 | 1 => .i32 | _ => .f32
def akOf (n : Nat) : Option AKind :=
  match n with
  | 0 => some .e4m3 | 1 => some .e5m2 | 2 => some .e2m3 | 3 => some .e3m2 | 4 => some .e2m1 | 5 => some .bf16
  | 6 => some .i8 | _ => none

/-- A format M address (R27). -/
def memOf (r : Raw) : Option MemOpd := do
  let h ← opdOf r.a
  let b ← opdOf r.b
  let scp ← scpOf (r.c / 128)
  let ord ← ordOf r.m
  return ⟨h, b, BitVec.ofNat 7 (r.c % 128), scp, ord⟩

/- ### One candidate for every (OP, FN) (R40) -/

/-- Integer forms: IT, D, A; then B; then C. -/
def int1 (r : Raw) (k : IT → Opd → Opd → Instr) : Option Instr := do
  return k (← itOf (r.fn / 4)) (← opdOf r.d) (← opdOf r.a)
def int2 (r : Raw) (k : IT → Opd → Opd → Opd → Instr) : Option Instr := do
  return k (← itOf (r.fn / 4)) (← opdOf r.d) (← opdOf r.a) (← opdOf r.b)
def int3 (r : Raw) (k : IT → Opd → Opd → Opd → Opd → Instr) : Option Instr := do
  return k (← itOf (r.fn / 4)) (← opdOf r.d) (← opdOf r.a) (← opdOf r.b) (← opdOf r.c)
/-- Float forms, without a rounding code and with one. -/
def fp1 (r : Raw) (k : FT → Opd → Opd → Instr) : Option Instr := do
  return k (← ftOf (r.fn / 8)) (← opdOf r.d) (← opdOf r.a)
def fp2 (r : Raw) (k : FT → Opd → Opd → Opd → Instr) : Option Instr := do
  return k (← ftOf (r.fn / 8)) (← opdOf r.d) (← opdOf r.a) (← opdOf r.b)
def fpr1 (r : Raw) (k : FT → Rnd → Opd → Opd → Instr) : Option Instr := do
  return k (← ftOf (r.fn / 8)) (← rndOf (r.fn % 8)) (← opdOf r.d) (← opdOf r.a)
def fpr2 (r : Raw) (k : FT → Rnd → Opd → Opd → Opd → Instr) : Option Instr := do
  return k (← ftOf (r.fn / 8)) (← rndOf (r.fn % 8)) (← opdOf r.d) (← opdOf r.a) (← opdOf r.b)
def fpr3 (r : Raw) (k : FT → Rnd → Opd → Opd → Opd → Opd → Instr) : Option Instr := do
  return k (← ftOf (r.fn / 8)) (← rndOf (r.fn % 8)) (← opdOf r.d) (← opdOf r.a) (← opdOf r.b) (← opdOf r.c)
/-- Plain operand fields. -/
def opd2 (r : Raw) (k : Opd → Opd → Instr) : Option Instr := do return k (← opdOf r.d) (← opdOf r.a)
def opd3 (r : Raw) (k : Opd → Opd → Opd → Instr) : Option Instr := do return k (← opdOf r.d) (← opdOf r.a) (← opdOf r.b)
def opd4 (r : Raw) (k : Opd → Opd → Opd → Opd → Instr) : Option Instr := do
  return k (← opdOf r.d) (← opdOf r.a) (← opdOf r.b) (← opdOf r.c)
/-- An access or an atomic of format M. -/
def mem1 (r : Raw) (k : IT → Opd → MemOpd → Instr) : Option Instr := do
  return k (← itOf (r.fn / 4)) (← opdOf r.d) (← memOf r)

def candControl (r : Raw) (c s : Ctl) : Option Instr :=
  match r.op, r.fn with
  | 0x00, 0 => some (.nop s)
  | 0x00, 1 => some (.yield s)
  | 0x01, 0 => some (.bra c (hintOf r.b) (off18 r.b r.c))
  | 0x01, 1 => do return .brc c (r.m % 2 == 1) (← finOf 3 r.d) (← opdOf r.a) (hintOf r.b) (off18 r.b r.c)
  | 0x02, 0 => do return .brx c (← opdOf r.a)
  | 0x02, 1 => do return .call c (← opdOf r.d) (hintOf r.b) (off18 r.b r.c)
  | 0x02, 2 => opd2 r (.callReg c)
  | 0x02, 3 => do return .ret s (← opdOf r.d)
  | 0x03, 0 => some (.exit s)
  | 0x04, 0 => do return .join c (← mOf r.d)
  | 0x04, 1 => do return .leave c (← mOf r.d)
  | 0x04, 2 => do return .waitm c (← mOf r.a)
  | 0x05, 4 => do return .mcnt c (← opdOf r.d) (← mOf r.a)
  | 0x05, 5 => do return .mfrom c (← mOf r.d) (← opdOf r.a)
  | 0x05, 6 => do return .mto c (← opdOf r.d) (← mOf r.a)
  | 0x05, n => if n < 4 then do return .mop c (mopOf n) (← mOf r.d) (← mOf r.a) (← mOf r.b) else none
  | 0x06, 0 => do return .loop c (← lcOf r.d) (← opdOf r.a) (BitVec.ofNat 10 r.c)
  | 0x06, 1 => do return .loopq c (← lcOf r.d) (← qOf r.a) (BitVec.ofNat 10 r.c) (← finOf 3 r.b)
  | 0x06, 2 => do return .lbrk c (← finImm 3 r.a)
  | 0x07, 0 => do return .qbind c (← qOf r.d) (← sOf r.a) (← sOf r.b) (← (immOf r.c).bind itOf)
  | 0x07, 1 => do return .qstat c (← opdOf r.d) (← qOf r.a) (← finImm 4 r.b)
  | 0x07, 2 => do return .qskip c (← qOf r.d) (← opdOf r.a)
  | _, _ => none

def candScope (r : Raw) (c s : Ctl) : Option Instr :=
  match r.op, r.fn with
  | 0x10, 0 => some (.sign s)
  | 0x10, 1 => do return .cvwait c (← opdOf r.a) (← finImm 10 r.b)
  | 0x10, 2 => do return .cvrd c (← opdOf r.d) (← finImm 10 r.b)
  | 0x11, 0 => do return .elect c (← opdOf r.d)
  | 0x11, 1 => opd3 r (.bcast c)
  | _, _ => none

def candInt (r : Raw) (c : Ctl) : Option Instr :=
  let sat := r.m % 2 == 1
  match r.op, r.fn % 4 with
  | 0x18, 0 => int2 r (fun it => .iadd c it sat)
  | 0x18, 1 => int2 r (fun it => .isub c it sat)
  | 0x18, 2 => do return .iaddc c (← itOf (r.fn / 4)) (← opdOf r.d) (← opdOf r.a) (← opdOf r.b) (← mOf r.c)
  | 0x18, 3 => do return .isubb c (← itOf (r.fn / 4)) (← opdOf r.d) (← opdOf r.a) (← opdOf r.b) (← mOf r.c)
  | 0x19, 0 => int2 r (.imul c)
  | 0x19, 1 => int2 r (.imulh c)
  | 0x19, 2 => int3 r (.imad c)
  | 0x1A, 0 => int2 r (.imin c)
  | 0x1A, 1 => int2 r (.imax c)
  | 0x1A, 2 => int1 r (.iabs c)
  | 0x1B, 0 => int2 r (.shl c)
  | 0x1B, 1 => int2 r (.shr c)
  | 0x1B, 2 => int2 r (.sar c)
  | 0x1B, 3 => int2 r (.rotl c)
  | 0x1C, 0 => int3 r (.bfx c)
  | 0x1C, 1 => int3 r (.bfi c)
  | 0x1D, 0 => int1 r (.popc c)
  | 0x1D, 1 => int1 r (.clz c)
  | 0x1D, 2 => int1 r (.ctz c)
  | 0x1D, 3 => int1 r (.brev c)
  | 0x1E, n => do
      return .icmp c (← itOf (r.fn / 4)) (← predOf (2 * n + r.m % 2)) (← opdOf r.d) (← opdOf r.a) (← opdOf r.b)
  | _, _ => none

/-- The rest of the integer class; `u` has no AWAIT (R27). -/
def candInt2 (r : Raw) (c u : Ctl) : Option Instr :=
  let sat := r.m % 2 == 1
  match r.op with
  | 0x1F =>
    (match r.fn with
      | 0 => opd4 r (.isel c)
      | 1 => opd2 r (.mov c)
      | 2 => do return .movw c (r.b / 64 % 2 == 1) (← opdOf r.d) (← opdOf r.a) (BitVec.ofNat 16 (r.b % 64 * 1024 + r.c))
      | _ => none)
  | 0x20 => do return .movi u (← opdOf r.d) (BitVec.ofNat 32 (r.a * 2 ^ 22 + r.b * 2 ^ 12 + r.c * 4 + r.m))
  | 0x21 => do return .cvti c (← itOf (r.fn / 4)) (← itOf (r.b / 128)) sat (← opdOf r.d) (← opdOf r.a)
  | 0x22 => opd4 r (.bitfn u (BitVec.ofNat 8 (r.fn * 4 + r.m)))
  | 0x23 => opd4 r (.bitfn u (BitVec.ofNat 8 (128 + r.fn * 4 + r.m)))
  | _ => none

def candCross (r : Raw) (c : Ctl) : Option Instr :=
  match r.op with
  | 0x26 => do return .lsh c (← lshOf r.fn) (← opdOf r.d) (← opdOf r.a) (← opdOf r.b)
  | 0x27 => opd3 r (.lxch c)
  | 0x28 => int1 r (.lred c (redOf (r.fn % 4)))
  | 0x29 => int1 r (fun it => .lscan c (redOf (r.fn % 4)) it (r.m % 2 == 1))
  | 0x2A => if r.fn = 0 then opd2 r (.lbal c) else opd2 r (.lvote c (voteOf r.fn))
  | 0x2B =>
    (match r.fn with
      | 0 => do return .lget c (← sOf r.d) (← opdOf r.a) (← opdOf r.b)
      | 1 => opd3 r (.lput c)
      | _ => none)
  | _ => none

def candFp (r : Raw) (c : Ctl) : Option Instr :=
  let sat := r.m % 2 == 1
  match r.op with
  | 0x30 => fpr3 r (fun ft rd => .fadd c ft rd sat)
  | 0x31 => fpr3 r (fun ft rd => .fsub c ft rd sat)
  | 0x32 => fpr3 r (fun ft rd => .fmul c ft rd sat)
  | 0x33 => fpr3 r (.ffma c)
  | 0x34 =>
    (match r.fn % 8 with
      | 0 => fp2 r (.fmin c) | 1 => fp2 r (.fmax c) | 2 => fp2 r (.fminn c) | 3 => fp2 r (.fmaxn c) | _ => none)
  | 0x35 => fp2 r (fun ft => .fcmp c ft (fpredOf (r.fn % 8)))
  | 0x36 => fp1 r (.fclass c)
  | 0x37 => do
      return .fcvt c (← tcOf (r.fn % 16)) (← tcOf (r.b / 64)) (← rndOf (r.b / 8 % 8)) sat (← opdOf r.d) (← opdOf r.a) (← opdOf r.c)
  | 0x38 => fpr1 r (.frnd c)
  | 0x39 => fpr2 r (.fscale c)
  | 0x3A => fpr1 r (.fsqrt c)
  | 0x3B =>
    (match r.fn % 8 with
      | 0 => fp1 r (.frcp c) | 1 => fp1 r (.frsq c) | 2 => fp2 r (.fdivs c) | 3 => fp1 r (.fexp2 c)
      | 4 => fp1 r (.flog2 c) | 5 => fp1 r (.fsin c) | 6 => fp1 r (.fcos c) | _ => fp1 r (.ftanh c))
  | 0x3C => (match r.fn % 8 with | 0 => fp1 r (.fsigm c) | 1 => fp1 r (.fact c) | _ => none)
  | 0x3D =>
    (match r.fn with
      | 0 => do return .tblld c (← opdOf r.a) (← finImm 2 r.b)
      | 1 => do return .tblsel c (← opdOf r.a)
      | _ => none)
  | 0x3E => fpr3 r (fun ft rd => .pradd c ft rd sat)
  | 0x3F => fpr3 r (fun ft rd => .prmul c ft rd sat)
  | 0x40 => fpr3 r (fun ft rd => .prfma c ft rd sat)
  | _ => none

def candPacked (r : Raw) (c : Ctl) : Option Instr :=
  let m0 := r.m % 2 == 1
  match r.op with
  | 0x48 => (match r.fn with | 0 => opd4 r (.dp4i c m0) | 1 => opd4 r (.dp8i c m0) | _ => none)
  | 0x49 => opd4 r (.dpf8 c (r.fn % 2 == 1) (r.fn / 2 % 2 == 1))
  | 0x4A => opd4 r (.dpf4 c)
  | 0x4B => do
      return .pcvt c (← tcOf (r.fn % 16)) (← tcOf (r.b / 64)) (← rndOf (r.b / 8 % 8)) m0 (← opdOf r.d) (← opdOf r.a) (← opdOf r.c)
  | 0x4C => do return .punp c (← tcOf (r.fn % 16)) m0 (← opdOf r.d) (← opdOf r.a)
  | 0x4D => opd4 r (.mxsc c m0)
  | 0x4E =>
    (match r.fn with
      | 0 => do return .vtopk c m0 (← vOf r.d) (← vOf r.a) (← opdOf r.b) (← opdOf r.c)
      | 1 => do return .vtopkm c m0 (← vOf r.d) (← vOf r.a) (← opdOf r.b)
      | _ => none)
  | 0x4F => fp2 r (fun ft => .argmx c ft m0)
  | _ => none

def candMatrix (r : Raw) (c s : Ctl) : Option Instr :=
  let m0 := r.m % 2 == 1
  let t : Tile := BitVec.ofNat 2 (r.fn % 4)
  match r.op with
  | 0x50 => do return .mwld c (← tcOf (r.fn % 16)) (← opdOf r.a) (← opdOf r.b)
  | 0x51 => some (.mwsw s)
  | 0x52 => some (.mwfm c)
  | 0x53 => do
      return .mma c (← akOf (r.fn / 4)) m0 t (BitVec.ofNat 2 (r.d % 4)) (BitVec.ofNat 2 (r.d / 4 % 4)) (← opdOf r.a)
        (← opdOf r.b) (← opdOf r.c)
  | 0x54 => some (.mzero s t)
  | 0x55 => do return .mrda c m0 t (← opdOf r.d) (BitVec.ofNat 6 (← immOf r.a)) (← opdOf r.b) (← opdOf r.c)
  | 0x56 => do return .mwra c t (← opdOf r.d) (BitVec.ofNat 6 (← immOf r.a)) (← opdOf r.b) (← opdOf r.c)
  | 0x57 => do return .msta c t (← opdOf r.a) (← (immOf r.b).bind tcOf)
  | 0x58 => do return .mlda c t (← opdOf r.a)
  | 0x59 => do return .mrow c t (← opdOf r.a)
  | 0x5A => do return .mcol c t (← opdOf r.a)
  | 0x5B => do return .msca c (← opdOf r.a)
  | 0x5C => some (.mrel s)
  | 0x5D => some (.mfin s)
  | _ => none

def candMem (r : Raw) (c u s : Ctl) : Option Instr :=
  match r.op with
  | 0x60 => mem1 r (.ld u)
  | 0x61 => mem1 r (.st u)
  | 0x62 => mem1 r (.ldx u)
  | 0x63 => mem1 r (.stx u)
  | 0x64 => mem1 r (.ldv u)
  | 0x65 => mem1 r (.stv u)
  | 0x66 => do return .pref u (← opdOf r.a) (← opdOf r.b) (BitVec.ofNat 7 (r.c % 128))
  | 0x67 => do return .fence s (← ordOf (r.fn / 8)) (← scpOf (r.fn % 8))
  | 0x68 => do return .btrd c (← opdOf r.d) (← sOf r.a) (← finImm 16 r.b)
  | 0x69 => do return .rowmap c (r.m % 2 == 1) (← sOf r.a) (← opdOf r.b) (← opdOf r.c)
  | 0x74 => int2 r (.ldsp c)
  | 0x75 => int2 r (.stsp c)
  | 0x76 =>
    (match r.fn with
      | 0 => opd2 r (.tlook c)
      | 1 => do return .tset c (← opdOf r.a) (← opdOf r.b)
      | 2 => do return .tclr c (← opdOf r.a)
      | _ => none)
  | _ => none

def tag6 (n : Nat) : BitVec 6 := BitVec.ofNat 6 n

def candAsync (r : Raw) (c : Ctl) : Option Instr :=
  let m0 := r.m % 2 == 1
  match r.op, r.fn with
  | 0x70, 0 => do return .restripe c m0 (← sOf r.a) (tag6 (← immOf r.b)) (← opdOf r.c)
  | 0x70, 1 => do return .rsqry c (← opdOf r.d) (← sOf r.a)
  | 0x71, n => do
      let it ← itOf (n / 4)
      let h ← sOf r.d
      let x ← opdOf r.a
      let y ← opdOf r.b
      let z ← opdOf r.c
      return (match n % 4 with
        | 0 => .ipadd c it m0 h x y z | 1 => .ipsub c it m0 h x y z | 2 => .ipmin c it h x y z | _ => .ipmax c it h x y z)
  | 0x72, 4 => do return .ipcpy c (← sOf r.d) (← opdOf r.a) (← opdOf r.b)
  | 0x72, n => do return .ipmac c (← ftOf (n / 8)) (← sOf r.d) (← opdOf r.a) (← opdOf r.b) (← opdOf r.c)
  | 0x73, 0 => do return .nbkick c (← sOf r.a) (← opdOf r.b) (← sOf r.c) (tag6 r.d)
  | 0x73, 1 => do return .nbstat c (← opdOf r.d) (tag6 (← immOf r.a))
  | 0x78, 0 => do return .copy c (tag6 r.d) (← sOf r.a)
  | 0x78, 1 => do return .copyShadow c (tag6 r.d) (← sOf r.a)
  | 0x79, 0 => do return .blkcpy c (tag6 r.d) (← sOf r.a) (← vOf r.b) (← sOf r.c)
  | 0x7A, 0 => do return .waitany c (← sOf r.d) (← opdOf r.a) (← (immOf r.b).bind scpOf)
  | 0x7A, 1 => do return .waitall c (← sOf r.d) (← opdOf r.a) (← (immOf r.b).bind scpOf)
  | 0x7A, 2 => do return .ffrdy c (← sOf r.d) (← opdOf r.a)
  | 0x7A, 3 => do return .tagclr c (← opdOf r.a)
  | 0x7B, 0 => do return .shadow c (tag6 r.d) (← sOf r.a) (← opdOf r.b) (← opdOf r.c)
  | 0x7B, 1 => do return .publish c (← sOf r.a)
  | _, _ => none

def candSync (r : Raw) (c u : Ctl) : Option Instr :=
  let m0 := r.m % 2 == 1
  match r.op with
  | 0x7C => mem1 r (fun it d x =>
      match r.fn % 4 with
      | 0 => .aadd u it d x | 1 => .amin u it d x | 2 => .amax u it d x | _ => .aand u it d x)
  | 0x7D => mem1 r (fun it d x =>
      match r.fn % 4 with
      | 0 => .aor u it d x | 1 => .axor u it d x | 2 => .axchg u it d x | _ => .acas u it d x)
  | 0x7E =>
    if r.fn < 0x03 then do return .afadd u (← ftOf r.fn) (← opdOf r.d) (← memOf r)
    else if r.fn = 0x03 then do return .vld c m0 (← opdOf r.d) (← sOf r.a) (← opdOf r.b) (← opdOf r.c)
    else if r.fn = 0x04 then do return .vlds c m0 (← opdOf r.d) (← sOf r.a) (← opdOf r.b) (← opdOf r.c)
    else if r.fn = 0x05 then do return .vst c m0 (← opdOf r.d) (← sOf r.a) (← opdOf r.b) (← opdOf r.c)
    else if r.fn < 0x0C then do
      return .recon c (reconOf (r.fn - 6)) m0 (← opdOf r.d) (← sOf r.a) (← opdOf r.b) (← opdOf r.c)
    else if r.fn = 0x0C then do return .barr c (← sOf r.a) (← opdOf r.b)
    else if r.fn = 0x0D then do return .barw c (← sOf r.a) (← opdOf r.b)
    else if r.fn = 0x0E then do return .mbput c (← opdOf r.a) (← sOf r.b)
    else if r.fn = 0x0F then do return .mbget c (← sOf r.d) (← opdOf r.a)
    else if r.fn = 0x10 then do return .mbtry c (← sOf r.d) (← opdOf r.a)
    else if 0x14 ≤ r.fn then do
      return .redop u (redTOf ((r.fn - 0x14) / 4)) (redOf ((r.fn - 0x14) % 4)) (← opdOf r.d) (← memOf r)
    else none
  | _ => none

def candSystem (r : Raw) (c s : Ctl) : Option Instr :=
  match r.op, r.fn with
  | 0x7F, 0 => do return .trap c (← opdOf r.a)
  | 0x7F, 1 => do return .rteReplay c (← opdOf r.a)
  | 0x7F, 2 => some (.rteSkip s)
  | 0x7F, 3 => some (.rteResume s)
  | 0x7F, 4 => do return .gsr c (← sOf r.d) (tag6 (← immOf r.a))
  | 0x7F, 5 => do return .ssr c (tag6 (← immOf r.a)) (← opdOf r.b)
  | 0x7F, 6 => some (.halt s)
  | 0x7F, 7 => some (.brk s)
  | 0x7F, 8 => do return .clk c (← opdOf r.d)
  | _, _ => none

/-- The control fields: `c` of a two-word instruction, `u` of one without AWAIT, `s` of format S (R27, R28). -/
def ctlOf (r : Raw) (g : Option MReg) (await long : Bool) : Ctl :=
  { stall := BitVec.ofNat 3 r.stall, scope := scopeOf r.scope, guard := g, await := await, long := long }

/-- The one instruction that the fields can mean. -/
def candidate (r : Raw) : Option Instr :=
  match guardOf r.g with
  | none => none
  | some g =>
    let aw := r.m / 2 == 1
    let c := ctlOf r g aw false
    let u := ctlOf r g false false
    let s := ctlOf r g aw r.x
    if r.op < 0x08 then candControl r c s
    else if r.op < 0x18 then candScope r c s
    else if r.op < 0x1F then candInt r c
    else if r.op < 0x26 then candInt2 r c u
    else if r.op < 0x30 then candCross r c
    else if r.op < 0x48 then candFp r c
    else if r.op < 0x50 then candPacked r c
    else if r.op < 0x60 then candMatrix r c s
    else if r.op < 0x70 then candMem r c u s
    else if r.op < 0x74 then candAsync r c
    else if r.op < 0x78 then candMem r c u s
    else if r.op < 0x7C then candAsync r c
    else if r.op < 0x7F then candSync r c u
    else candSystem r c s

/- ### The decoder -/

/-- Why words are not an instruction: the (OP, FN) pair is unassigned, a field is illegal, or bytes are missing. -/
inductive DecodeError where
  | unassigned
  | illegal
  | short
  deriving DecidableEq, Repr

/-- FN values that the map lists for an OP (R40). -/
def fnAssigned (op fn : Nat) : Bool :=
  let sub := fn % 4
  let x := fn % 8
  match op with
  | 0x00 => fn < 2 | 0x01 => fn < 2 | 0x02 => fn < 4 | 0x03 => fn == 0 | 0x04 => fn < 3 | 0x05 => fn < 7
  | 0x06 => fn < 3 | 0x07 => fn < 3 | 0x10 => fn < 3 | 0x11 => fn < 2
  | 0x18 => true | 0x19 => sub < 3 | 0x1A => sub < 3 | 0x1B => true | 0x1C => sub < 2 | 0x1D => true | 0x1E => true
  | 0x1F => fn < 3 | 0x20 => fn == 0 | 0x21 => sub == 0 | 0x22 => true | 0x23 => true
  | 0x26 => fn < 4 | 0x27 => fn == 0 | 0x28 => true | 0x29 => true | 0x2A => fn < 4 | 0x2B => fn < 2
  | 0x30 => true | 0x31 => true | 0x32 => true | 0x33 => x != 4 | 0x34 => x < 4 | 0x35 => true | 0x36 => x == 0
  | 0x37 => fn < 16 | 0x38 => x != 4 | 0x39 => x != 4 | 0x3A => x != 4 | 0x3B => true | 0x3C => x < 2 | 0x3D => fn < 2
  | 0x3E => 8 ≤ fn | 0x3F => 8 ≤ fn | 0x40 => 8 ≤ fn && x != 4
  | 0x48 => fn < 2 | 0x49 => fn < 4 | 0x4A => fn == 0 | 0x4B => fn < 16 | 0x4C => fn < 16 | 0x4D => fn == 0
  | 0x4E => fn < 2 | 0x4F => x == 0
  | 0x50 => fn < 16 | 0x51 => fn == 0 | 0x52 => fn == 0 | 0x53 => true | 0x54 => fn < 4 | 0x55 => fn < 4
  | 0x56 => fn < 4 | 0x57 => fn < 4 | 0x58 => fn < 4 | 0x59 => fn < 4 | 0x5A => fn < 4 | 0x5B => fn == 0
  | 0x5C => fn == 0 | 0x5D => fn == 0
  | 0x60 => sub == 0 | 0x61 => sub == 0 | 0x62 => sub == 0 | 0x63 => sub == 0 | 0x64 => sub == 0 | 0x65 => sub == 0
  | 0x66 => fn == 0 | 0x67 => 8 ≤ fn | 0x68 => fn == 0 | 0x69 => fn == 0
  | 0x70 => fn < 2 | 0x71 => true | 0x72 => x == 0 || fn == 4 | 0x73 => fn < 2
  | 0x74 => sub == 0 | 0x75 => sub == 0 | 0x76 => fn < 3
  | 0x78 => fn < 2 | 0x79 => fn == 0 | 0x7A => fn < 4 | 0x7B => fn < 2
  | 0x7C => true | 0x7D => true | 0x7E => fn ≤ 0x10 || 0x14 ≤ fn | 0x7F => fn < 9
  | _ => false

/-- The decoder on the words at an address; the second counts only when X is set. -/
def decodeWords (w0 w1 : Word) : Except DecodeError Instr :=
  let r := rawOf w0 w1
  if !fnAssigned r.op r.fn then .error .unassigned
  else match candidate r with
    | none => .error .illegal
    | some i => if i.wf && encode i == (if r.x then [w0, w1] else [w0]) then .ok i else .error .illegal

/-- A little-endian word of four bytes (R44). -/
def wordOfBytes (a b c d : Byte) : Word := BitVec.ofNat 32 (a.toNat + b.toNat * 2 ^ 8 + c.toNat * 2 ^ 16 + d.toNat * 2 ^ 24)

/-- The decoder on bytes: the instruction and the bytes that follow it. -/
def decode : List Byte → Except DecodeError (Instr × List Byte)
  | a :: b :: c :: d :: rest =>
    let w0 := wordOfBytes a b c d
    if (rawOf w0 0).x then
      match rest with
      | e :: f :: g :: h :: rest2 =>
        (match decodeWords w0 (wordOfBytes e f g h) with | .ok i => .ok (i, rest2) | .error e => .error e)
      | _ => .error .short
    else (match decodeWords w0 0 with | .ok i => .ok (i, rest) | .error e => .error e)
  | _ => .error .short

/-- The instruction at hand on bits numbered as spec/opcode_table.json numbers them: bit 0 is the least significant bit
of the base word, and the operand word's bits count on from 32. -/
def decodeTableWord (_nbits w : Nat) : Option Instr :=
  match decodeWords (BitVec.ofNat 32 w) (BitVec.ofNat 32 (w / 2 ^ 32)) with | .ok i => some i | .error _ => none

end Sys2Proof
end

