-- ==== Sys2Proof/Machine/Mailbox.lean ====
section
/-! DEFINITION. Barrier objects and mailbox queues, OP 0x7E (R301 to R307, R384). -/

namespace Sys2Proof.Machine

/- ### Barrier objects (R301 to R303) -/

/-- The checks of BARR and BARW (R302). -/
def barReq (ctx : Nat) (h : Word) (off : Nat) : Req :=
  { ctx := ctx, h := h, off := off, z := 16, align := 16, right := Entry.at_, kind := fun k => k == 2, useMap := false, reads := true }

/-- Where a recorded object lies now, through the view of its arrival (R204). -/
def State.barPhys (s : State) (a : Arrival) : Phys := s.phys (s.entry a.buf) (BitVec.ofNat 32 (a.buf + 2 ^ 20 * a.view)) a.off

/-- PHASE of a recorded barrier object. -/
def State.barPhase (s : State) (a : Arrival) : Word := BitVec.ofNat 32 (leNat (s.devBytes ((s.barPhys a).addr + 8) 4))

/-- The accesses that come before one to a barrier object are performed: the group's own to its bytes, and those that releases have
shown it (R275, R280). -/
def State.barFirst (s : State) (k : GKey) (p : Phys) : State :=
  (s.performNeed k (fun e => e.meetsAt p 16)).pull k (fun e => e.meetsAt p 16)

/-- Drop one arrival record. -/
def dropArrival (a : Arrival) : List Arrival → List Arrival
  | [] => []
  | x :: t => if x == a then t else x :: dropArrival a t

/-- BARW on one record: the group is held while its phase lasts; then the record is emptied, with an acquire (R303). -/
def State.barWait (s : State) (g : Group) (a : Arrival) : Option State :=
  if s.barPhase a == a.phase then none
  else some ((s.acquire g.core.die g.ctx .package).modGroup g.key (fun g => { g with arrivals := dropArrival a g.arrivals }))

/-- The record that a BARR waits on first (R303). -/
def Group.barFirst (g : Group) (buf off : Nat) : Option Arrival :=
  match g.arrivals.find? (fun a => a.buf == buf && a.off == off) with
  | some a => some a
  | none => if 4 ≤ g.arrivals.length then g.arrivals.head? else none

/-- The arrival at the sync engine, indivisible (R303): what it reads is what the first access leaves (R206). -/
def State.barArrive (s0 : State) (g : Group) (p : Phys) (buf off view : Nat) : State :=
  let s := s0.reach g.ctx p
  let rd := fun (j : Nat) => leNat (s.devBytes (p.addr + 4 * j) 4)
  let n := (rd 1 + 1) % 2 ^ 32
  let full := rd 0 ≤ n
  let bs := leBytes 4 (if full then 0 else n) ++ leBytes 4 (if full then rd 2 + 1 else rd 2)
  (s.homeWrite (p.addr + 4) bs).modGroup g.key (fun g =>
    { g with arrivals := g.arrivals ++ [⟨buf, off, BitVec.ofNat 32 (rd 2), view⟩] })

/-- BARR once the record it waits on is gone: a release at package scope, then the arrival. -/
def barrGo (s : State) (g : Group) (x : Mask) (p : Phys) (buf off view : Nat) : Eff :=
  if s.inTransit p.buf p.line then .hold s
  else match s.reserve p.die g.ctx (.sync buf (off / 16)) with
  | none => .hold (s.noteFull p.die g.ctx)
  | some s1 =>
    .done (((s1.releaseLanes g.key (s1.threads g x) .package).modCtx g.ctx (fun c => { c with annexFull := false })).barArrive g p buf off view)

/-- The common part of BARR and BARW: one object, checked whole. -/
def barEff (c : Ctl) (h : SReg) (off : Opd) (s : State) (f : State → Group → Mask → Phys → Nat → Nat → Nat → Eff) : Eff :=
  onGroup c s (fun g m x =>
    let hd := s.scal g 1 0 (.s h)
    let o := (s.scal g 2 0 off).toNat
    if x == 0 then .done s
    else match s.check (barReq g.ctx hd o) with
      | .ok p => f (s.barFirst g.key p) g x p (hIndex hd) o (hView hd)
      | .error e =>
        if e == .dieLost then execFault s m x e (0x100 + h.toNat) (BitVec.ofNat 64 (s.homeAt (s.entry (hIndex hd)) (hView hd) o))
        else
          let s1 := if e == .xlateMiss then s.post 4 g.core.die g.ctx (BitVec.ofNat 32 (hIndex hd)) (BitVec.ofNat 64 o)
            else if e == .eccUncorr then s.touch g.ctx (s.homeAt (s.entry (hIndex hd)) (hView hd) o) else s
          execFault s1 m x e (0x100 + h.toNat) (BitVec.ofNat 64 o))

/-- BARR (R303). -/
def execBarr (c : Ctl) (h : SReg) (off : Opd) (s : State) : Host.Outcome State Fault Refusal :=
  issue (.barr c h off) c s (fun s => barEff c h off s (fun s g x p buf o v =>
    match g.barFirst buf o with
    | none => barrGo s g x p buf o v
    | some a =>
      match s.barWait g a with
      | none => .hold s
      | some s1 => barrGo s1 g x p buf o v))

/-- BARW (R303). -/
def execBarw (c : Ctl) (h : SReg) (off : Opd) (s : State) : Host.Outcome State Fault Refusal :=
  issue (.barw c h off) c s (fun s => barEff c h off s (fun s g _ p buf o _ =>
    match g.arrivals.find? (fun a => a.buf == buf && a.off == o) with
    | none => .done (s.touch g.ctx p.die)
    | some a =>
      let s0 := (s.touch g.ctx p.die).useObj p.die (.sync buf (o / 16))
      match s0.barWait g a with
      | none => .hold s0
      | some s1 => .done s1))

/- ### Mailboxes (R304 to R307) -/

/-- The entry of a mailbox (R304). -/
def State.mbEntry (s : State) (c : Ctx) (q : Nat) : Nat := s.memNat (c.mbtab + 8 * q) 8
def mbValid (e : Nat) : Bool := bitOf e 0 && fld e 4 4 ≤ 12
def mbHome (e : Nat) : Nat := fld e 1 3
def mbDepth (e : Nat) : Nat := 2 ^ fld e 4 4
def mbHostPost (e : Nat) : Bool := bitOf e 8
def mbDrops (e : Nat) : Nat := fld e 32 16

def Ctx.mailbox (c : Ctx) (q : Nat) : Mailbox := (c.mailboxes.find? (fun m => m.q == q)).getD ⟨q, [], []⟩
def Ctx.setMailbox (c : Ctx) (m : Mailbox) : Ctx := { c with mailboxes := c.mailboxes.filter (fun x => x.q != m.q) ++ [m] }

/-- Messages that no waiting get is owed (R306). -/
def Mailbox.held (m : Mailbox) : Nat := m.msgs.length - m.waiting.length

/-- Replace a field of a number. -/
def putFld (x lo n v : Nat) : Nat := x - fld x lo n * 2 ^ lo + v % 2 ^ n * 2 ^ lo

/-- A mailbox changes: its COUNT in the table is what it holds (R304). -/
def State.setMailbox (s : State) (ctx : Nat) (m : Mailbox) : State :=
  match s.ctx? ctx with
  | none => s
  | some c =>
    let e := putFld (s.mbEntry c m.q) 16 13 m.held
    (s.modCtx ctx (fun c => c.setMailbox m)).putOwn (c.mbtab + 8 * m.q) (leBytes 8 e)

/-- The common part of the mailbox instructions: the queue number and its checks (R305). -/
def mbEff (c : Ctl) (q : Opd) (s : State) (f : Group → Mask → Ctx → Nat → Nat → Eff) : Eff :=
  onGroup c s (fun g m x =>
    let n := (s.scal g 1 0 q).toNat
    if x == 0 then .done s
    else match s.ctx? g.ctx with
      | none => .done s
      | some k =>
        let e := s.mbEntry k n
        if 1023 < n || !mbValid e then execFault s m x .addrBounds 0 (BitVec.ofNat 64 n)
        else if s.lost.contains (mbHome e) then execFault s m x .dieLost 0 (BitVec.ofNat 64 (mbHome e))
        else f g x k n e)

/-- MBPUT (R306): held while the queue is full; a release at system scope. -/
def execMbput (c : Ctl) (q : Opd) (a : SReg) (s : State) : Host.Outcome State Fault Refusal :=
  issue (.mbput c q a) c s (fun s => mbEff c q s (fun g x k n e =>
    let mb := k.mailbox n
    if mbDepth e ≤ mb.held then .hold (s.touch g.ctx (mbHome e))
    else match s.reserve (mbHome e) g.ctx (.mailbox g.ctx n) with
      | none => .hold (s.noteFull (mbHome e) g.ctx)
      | some s1 =>
        let msg := (List.range 4).map (fun j => s.scal g 2 j (.s a))
        .done ((((s1.releaseLanes g.key (s1.threads g x) .system).modCtx g.ctx (fun c => { c with annexFull := false })).touch g.ctx (mbHome e)).setMailbox g.ctx
          { mb with msgs := mb.msgs ++ [msg] })))

/-- Scalars of a message from a register on. -/
def msgWrites (d : SReg) (msg : List Word) : List Write := (msg.zipIdx).map (fun x => .s (d.toNat + x.2) x.1)

/-- A message is returned to a get: an acquire at system scope (R306). -/
def State.mbReturn (s : State) (g : Group) (mb : Mailbox) (i : Nat) (home : Nat) (ws : List Write) : State :=
  (((s.touch g.ctx home).setMailbox g.ctx { mb with msgs := mb.msgs.eraseIdx i, waiting := mb.waiting.filter (fun k => k != g.key) }).acquire
    g.core.die g.ctx .system).putVar g.key ws

/-- MBGET (R306): served in the order of arrival. -/
def execMbget (c : Ctl) (d : SReg) (q : Opd) (s : State) : Host.Outcome State Fault Refusal :=
  issue (.mbget c d q) c s (fun s =>
    if (s.execs c).all (fun x => x.2 == 0) then .done (s.perLaneVar c (fun _ _ => []))
    else mbEff c q s (fun g _ k n e =>
    let mb := k.mailbox n
    let s := s.useObj (mbHome e) (.mailbox g.ctx n)
    let waits := mb.waiting.contains g.key
    let i := if waits then mb.waiting.idxOf g.key else mb.waiting.length
    match mb.msgs[i]? with
    | some msg => .done (s.mbReturn g mb i (mbHome e) (msgWrites d msg))
    | none => .hold ((s.touch g.ctx (mbHome e)).setMailbox g.ctx (if waits then mb else { mb with waiting := mb.waiting ++ [g.key] }))))

/-- MBTRY (R306): it takes no message ahead of a get that waits. -/
def execMbtry (c : Ctl) (d : SReg) (q : Opd) (s : State) : Host.Outcome State Fault Refusal :=
  issue (.mbtry c d q) c s (fun s =>
    if (s.execs c).all (fun x => x.2 == 0) then .done (s.perLaneVar c (fun _ _ => []))
    else mbEff c q s (fun g _ k n e =>
    let mb := k.mailbox n
    let s := s.useObj (mbHome e) (.mailbox g.ctx n)
    match mb.msgs[mb.waiting.length]? with
    | some msg => .done (s.mbReturn g mb mb.waiting.length (mbHome e) (msgWrites d (msg ++ [1])))
    | none => .done ((s.touch g.ctx (mbHome e)).putVar g.key (msgWrites d [0, 0, 0, 0, 0]))))

/- ### Host posts (R307, R384) -/

/-- A refused post: DROPS rises, and the driver is told (R307). -/
def State.refusePost (s : State) (c : Ctx) (q : Nat) : State :=
  let e := s.mbEntry c q
  (s.putOwn (c.mbtab + 8 * q) (leBytes 8 (putFld e 32 16 (min (mbDrops e + 1) 65535)))).post 7 (mbHome e) c.num (BitVec.ofNat 32 q) 0

/-- The engine of a mailbox has no space for it (R292). -/
def State.noRoom (s : State) (c : Ctx) (q : Nat) : Bool :=
  (s.reserve (mbHome (s.mbEntry c q)) c.num (.mailbox c.num q)).isNone

/-- A post that is refused is never held (R307). -/
def State.postRefused (s : State) (c : Ctx) (q : Nat) : Bool :=
  let e := s.mbEntry c q
  !mbValid e || !mbHostPost e || mbDepth e ≤ (c.mailbox q).held

/-- A post waits at the engine for space, which the driver has been told; what else comes from outside does not wait for it, and
later posts to the mailbox wait as it does (R292, R307). -/
def State.postWaits (s : State) (ctx q : Nat) : Bool :=
  match s.ctx? ctx with
  | some c => c.annexFull && c.halt.isNone && !s.postRefused c q && s.noRoom c q
  | none => false

/-- A well-formed post to a mailbox of a context (R307): one that needs space in a full lodge is held until there is some or the
context halts (R292). -/
def State.postTo (s : State) (c : Ctx) (q : Nat) (msg : List Word) (again : Instr) : State :=
  let e := s.mbEntry c q
  let mb := c.mailbox q
  if s.postRefused c q then s.refusePost c q
  else match s.reserve (mbHome e) c.num (.mailbox c.num q) with
    | none => if c.halt.isSome then s else { s.noteFull (mbHome e) c.num with inbox := .act again :: s.inbox }
    | some s1 => (s1.modCtx c.num (fun c => { c with annexFull := false })).setMailbox c.num { mb with msgs := mb.msgs ++ [msg] }

/-- The mailbox that a post names. -/
def postQueue (bytes : List Byte) : Nat := leNat ((bytes.drop 16).take 2)

/-- The post is in the hold of R292. -/
def State.hostPostWaits (s : State) : Instr → Bool
  | .hostPost off bytes => s.postWaits (off / 4096) (postQueue bytes)
  | _ => false

/-- HOST_POST (R384): a write of `bytes` at an offset of BAR2. -/
def execHostPost (off : Nat) (bytes : List Byte) (s : State) : Host.Outcome State Fault Refusal :=
  let ctx := off / 4096
  let at_ := off % 4096
  let q := postQueue bytes
  let wordAt := fun (j : Nat) => (BitVec.ofNat 32 (leNat ((bytes.drop (4 * j)).take 4)) : Word)
  if bytes.length ≠ 32 || at_ % 32 ≠ 0 || (bytes.drop 18).any (fun b => b != 0) || 1023 < q then
    .next (s.post 8 0 ctx (BitVec.ofNat 32 at_) 0)
  else match s.ctx? ctx with
    | none => .next (s.post 7 0 ctx 0xFFFFFFFF 0)
    | some c => .next (s.postTo c q ((List.range 4).map wordAt) (.hostPost off bytes))

end Sys2Proof.Machine
end

