-- ==== Sys2Proof/Machine/Versioned.lean ====
section
/-! DEFINITION. Versioned cells, OP 0x7E (R308 to R317): VLD, VLDS, VST, RECON, and what carries siblings between
replicas: arrivals, releases of held siblings, compaction, in the order of R288 to R290 and R350, and through debug
stops (R353). -/

namespace Sys2Proof.Machine

/- ### Cells (R308, R309) -/

def Rep.fresh : Rep := { era := 0, cv := [0, 0, 0], sibs := [] }
def Cell.fresh (buf off width nrep : Nat) : Cell :=
  { buf := buf, off := off, width := width, reps := List.replicate nrep .fresh, queues := [], lastCompact := none }

/-- The cell that begins at an offset, new when there is none or when it holds no sibling and takes a width. -/
def State.cellFor (s : State) (buf off width nrep : Nat) : Cell :=
  match s.cell? buf off with
  | some c => if c.live then c else { c with width := width }
  | none => Cell.fresh buf off width nrep

def State.setCell (s : State) (c : Cell) : State :=
  if (s.cell? c.buf c.off).isSome then
    { s with cells := s.cells.map (fun x => if x.buf == c.buf && x.off == c.off then c else x) }
  else { s with cells := s.cells ++ [c] }

def Cell.rep (c : Cell) (r : Nat) : Rep := nth .fresh c.reps r
def Cell.setRep (c : Cell) (r : Nat) (x : Rep) : Cell := { c with reps := setAt c.reps r x }

/-- A context covers a sibling of an era (R309). -/
def covers (v : List Nat) (era : Nat) (x : Sib) : Bool := nth 0 v 3 == era && x.n ≤ nth 0 v x.h

/-- The greater counters of two vectors. -/
def joinVec (a b : List Nat) : List Nat := (List.range 3).map (fun i => max (nth 0 a i) (nth 0 b i))

/-- Put a sibling in its place by (h, n). -/
def insertSib (x : Sib) : List Sib → List Sib
  | [] => [x]
  | y :: t => if x.h < y.h || (x.h == y.h && x.n < y.n) then x :: y :: t else y :: insertSib x t

/-- Add 1 to a counter. -/
def bump (cv : List Nat) (r : Nat) : List Nat := setAt cv r (nth 0 cv r + 1)

/-- The join context (R309). -/
def Rep.join (c : Rep) : List Nat := c.cv ++ [c.era]

/-- VST at a replica (R313): none is VER_FULL. -/
def Rep.store (c : Rep) (r : Nat) (value : BitVec 64) (v : List Nat) : Option (Rep × Sib) :=
  let same := nth 0 v 3 == c.era
  let keep := if same then c.sibs.filter (fun x => !covers v c.era x) else c.sibs
  let j := if same then joinVec c.cv v else c.cv
  let vw := if same then v else [0, 0, 0, c.era]
  if nth 0 j r = 0xFFFFFFFF || keep.length = 8 then none
  else
    let x : Sib := { value := value, h := r, n := nth 0 j r + 1, vw := vw }
    some ({ c with cv := bump j r, sibs := insertSib x keep }, x)

/-- Queue a new sibling of a replica to every other one; what a lost die would receive is discarded (R313, R317). -/
def Cell.send (c : Cell) (src : Nat) (x : Sib) (gone : Nat → Bool) : Cell :=
  (List.range c.reps.length).foldl (fun (c : Cell) q =>
    if q == src || gone q then c
    else if c.queues.any (fun y => y.src == src && y.dst == q) then
      { c with queues := c.queues.map (fun y => if y.src == src && y.dst == q then { y with sibs := y.sibs ++ [x] } else y) }
    else { c with queues := c.queues ++ [⟨src, q, false, [x]⟩] }) c

/-- A propagation of the cell from a replica is held (R314). -/
def Cell.congested (c : Cell) (src : Nat) : Bool := c.queues.any (fun y => y.src == src && y.held)

/-- RECON's merged value at the cell's width (R315). -/
def reconValue (op : ReconOp) (width : Nat) (ms : List Sib) : Nat :=
  let vs := ms.map (fun x => x.value.toNat % 2 ^ (8 * width))
  match op, vs with
  | _, [] => 0
  | .sum, vs => vs.sum % 2 ^ (8 * width)
  | .min, v :: t => t.foldl min v
  | .max, v :: t => t.foldl max v
  | .or, v :: t => t.foldl Nat.lor v
  | .and, v :: t => t.foldl Nat.land v
  | .pick, v :: _ => v

/-- What RECON comes to at a replica: its result, the siblings merged, and the new replica and sibling. -/
structure Recon where
  value : Nat
  merged : Nat
  rep : Rep
  sib : Option Sib

/-- RECON at a replica (R315): `v` is the context, none for .all; none is VER_FULL. -/
def Rep.recon (c : Rep) (r : Nat) (op : ReconOp) (width : Nat) (v : Option (List Nat)) : Option Recon :=
  let sel := fun (x : Sib) => match v with | none => true | some v => covers v c.era x
  let ms := c.sibs.filter sel
  if ms.isEmpty then
    some ⟨(match c.sibs with | x :: _ => x.value.toNat | [] => 0), 0, c, none⟩
  else if nth 0 c.cv r = 0xFFFFFFFF then none
  else
    let vw := ms.foldl (fun a x => joinVec (joinVec a x.vw) (setAt [0, 0, 0] x.h x.n)) [0, 0, 0]
    let x : Sib :=
      { value := BitVec.ofNat 64 (reconValue op width ms), h := r, n := nth 0 c.cv r + 1, vw := vw ++ [c.era] }
    some ⟨x.value.toNat, ms.length,
      { c with cv := bump c.cv r, sibs := insertSib x (c.sibs.filter (fun y => !sel y)) }, some x⟩

/-- The status word (R312). -/
def Cell.status (c : Cell) (r merged : Nat) : Word :=
  BitVec.ofNat 32 ((c.rep r).sibs.length + 16 * b2n (c.congested r) + 32 * r + 256 * merged)

/- ### One lane (R311) -/

/-- The buffer a lane names, its serving replica, the offset and the width. -/
structure VReach where
  buf : Nat
  e : Entry
  r : Nat
  off : Nat
  w : Nat

/-- Steps 1 to 6 of R311; then the dies that serve it. `w` 0 is RECON's own width. -/
def State.verReach (s : State) (g : Group) (h : Word) (off w0 : Nat) (all : Bool) : Except FaultCode VReach :=
  let buf := hIndex h
  let e := s.entry buf
  let w := if w0 = 0 then s.cellWidth buf off else w0
  let r := servingRep e g.core.die
  if off % w ≠ 0 then .error .addrMisalign
  else if !handleOk h e || hView h ≠ 0 || e.len < off + w then .error .addrBounds
  else if !e.vr then .error .addrRights
  else if e.owner ≠ g.ctx then .error .addrOwner
  else if e.kind ≠ 1 then .error .verKind
  else if s.cellClash buf off w then .error .verKind
  else if (if all then (List.range e.nrep).any (fun i => s.lost.contains (e.rep i)) else s.lost.contains (e.rep r)) then
    .error .dieLost
  else .ok ⟨buf, e, r, off, w⟩

/-- The lost die that a request would reach first. -/
def State.lostReplica (s : State) (g : Group) (h : Word) (all : Bool) : Nat :=
  let e := s.entry (hIndex h)
  if all then (((List.range e.nrep).map e.rep).find? (fun d => s.lost.contains d)).getD 0
  else e.rep (servingRep e g.core.die)

/-- The dies an access adds to TOUCHED (R293). -/
def State.verTouch (s : State) (ctx : Nat) (x : VReach) (all : Bool) : State :=
  if all then (List.range x.e.nrep).foldl (fun s i => s.touch ctx (x.e.rep i)) s else s.touch ctx (x.e.rep x.r)

/-- One register of a lane's result. -/
def regWrite (scalar : Bool) (o : Opd) (j i : Nat) (x : Word) : List Write :=
  if scalar then writeScal o j x else writeVec o j (oneLane i) (List.replicate W x)

/-- A number of `n` registers, then more words. -/
def runWrites (scalar : Bool) (o : Opd) (n i x : Nat) (more : List Word) : List Write :=
  (((List.range n).map (fun j => halfWord x j) ++ more).zipIdx).flatMap (fun y => regWrite scalar o y.2 i y.1)

/-- A quad that a lane reads. -/
def State.quad (s : State) (g : Group) (o : Opd) (scalar : Bool) (i : Nat) : List Nat :=
  (List.range 4).map (fun j => (s.lane g 3 j o scalar i).toNat)

/-- How the act of a lane fails: on the cell, or on a register at or above the budget (R311, R393). -/
inductive VerFail where
  | cell (f : FaultCode)
  | reg (n : Nat)

def VerFail.lane (a : BitVec 64) : VerFail → LaneRes
  | .cell f => .bad f a
  | .reg n => .badReg .illegalEnc n

/-- What sets the four instructions apart: the width (0: the cell's), whether every replica is touched, and the act
of one lane that passed its checks. -/
structure VerOp where
  w : Nat
  /-- A lane needs space for the cell at its serving replica (R292). -/
  needs : State → VReach → Bool
  all : Bool
  act : State → Group → VReach → Bool → Nat → State → Except VerFail (State × List Write)

/-- One lane. -/
def verLane (op : VerOp) (h : SReg) (off : Opd) (scalar : Bool) (s0 : State) (k : GKey) (s : State) (i : Nat) (who : Mask) :
    State × LaneRes :=
  match s0.group? k with
  | none => (s, .skip)
  | some g =>
    let hd := s0.scal g 1 0 (.s h)
    let o := (s0.lane g 2 0 off scalar i).toNat
    match s.verReach g hd o op.w op.all with
    | .error f => s.accFail g f (hIndex hd) o o (s.lostReplica g hd op.all)
    | .ok x =>
      let s1 := if op.all then s.fencesFirst k (s0.threads g who) else s
      let s2 := (s1.verTouch g.ctx x op.all).useObj (x.e.rep x.r) (.cell x.buf x.off)
      match op.act s0 g x scalar i s2 with
      | .ok r => (r.1, .regs r.2)
      | .error f => (s2, f.lane (BitVec.ofNat 64 o))

/-- The replicas in which the lanes of an issue need space (R292). -/
def State.verSpace (s : State) (c : Ctl) (op : VerOp) (h : SReg) (off : Opd) (scalar : Bool) : List (Nat × Nat × ObjKey) :=
  (s.execs c).flatMap (fun (g : Group × Mask) =>
    if g.2 == 0#64 then []
    else (if scalar then ([0] : List Nat) else lanesOf g.2).filterMap (fun i =>
      match s.verReach g.1 (s.scal g.1 1 0 (.s h)) ((s.lane g.1 2 0 off scalar i).toNat) op.w op.all with
      | .ok x => if op.needs s x then some (x.e.rep x.r, g.1.ctx, ObjKey.cell x.buf x.off) else none
      | .error _ => none))

/-- The effect of the four: held for space in a lodge. -/
def verEff (c : Ctl) (op : VerOp) (d : Opd) (h : SReg) (off : Opd) (load : Bool) (s : State) : Eff :=
  let scalar := d.isScalarDst
  match s.reserveAll (s.verSpace c op h off scalar) with
  | .error e => .hold (s.noteFull e.1 e.2)
  | .ok s1 => accessEff c scalar (0x100 + h.toNat) (if load then some (d, 0) else none) (verLane op h off scalar s1) s1

def wBytes (w64 : Bool) : Nat := if w64 then 8 else 4

/-- VLD (R312). -/
def execVld (c : Ctl) (w64 : Bool) (d : Opd) (h : SReg) (off ctx : Opd) (s : State) : Host.Outcome State Fault Refusal :=
  issue (.vld c w64 d h off ctx) c s (verEff c
    { w := wBytes w64, needs := fun _ _ => false, all := false
      act := fun _ _ x scalar i s =>
        let cell := s.cellFor x.buf x.off x.w x.e.nrep
        let v := match (cell.rep x.r).sibs with | y :: _ => y.value.toNat | [] => 0
        .ok (s, runWrites scalar d (vRun w64) i v [cell.status x.r 0] ++
          ((cell.rep x.r).join.zipIdx).flatMap (fun y => regWrite scalar ctx y.2 i (BitVec.ofNat 32 y.1))) }
    d h off true)

/-- VLDS (R312). -/
def execVlds (c : Ctl) (w64 : Bool) (d : Opd) (h : SReg) (off i : Opd) (s : State) : Host.Outcome State Fault Refusal :=
  issue (.vlds c w64 d h off i) c s (verEff c
    { w := wBytes w64, needs := fun _ _ => false, all := false
      act := fun s0 g x scalar l s =>
        let cell := s.cellFor x.buf x.off x.w x.e.nrep
        match (cell.rep x.r).sibs[(s0.scal g 3 0 i).toNat]? with
        | some y => .ok (s, runWrites scalar d (vRun w64) l y.value.toNat [BitVec.ofNat 32 (y.h + 4), BitVec.ofNat 32 y.n])
        | none => .ok (s, runWrites scalar d (vRun w64) l 0 [0, 0]) }
    d h off true)

/-- VST (R313). -/
def execVst (c : Ctl) (w64 : Bool) (d : Opd) (h : SReg) (off ctx : Opd) (s : State) : Host.Outcome State Fault Refusal :=
  issue (.vst c w64 d h off ctx) c s (verEff c
    { w := wBytes w64, needs := fun _ _ => true, all := true
      act := fun s0 g x scalar i s =>
        let cell := s.cellFor x.buf x.off x.w x.e.nrep
        let v := s0.laneData g 0 (if w64 then .w64 else .w32) d scalar i
        match (cell.rep x.r).store x.r (BitVec.ofNat 64 v) (s0.quad g ctx scalar i) with
        | none => .error (.cell .verFull)
        | some r =>
          let s1 := s.setCell ((cell.setRep x.r r.1).send x.r r.2 (fun q => s.lost.contains (x.e.rep q)))
          .ok (s1.modGroup g.key (fun g =>
            { g.dropSteps x.buf x.off x.w with vsts := g.vsts ++ [⟨x.buf, x.off, r.1.era, r.2.h, r.2.n⟩] }), []) }
    d h off false)

/-- What the width of the cell, found at the access, makes of RECON's run: the first register at or above the budget, or 0 where an
8-byte result would start at an odd one (R310, R393). -/
def reconMisfit (g : Group) (d : Opd) (w : Nat) : Option Nat :=
  let n := if w = 8 then 3 else 2
  if w = 8 && d.code % 2 == 1 then some 0 else slotBudget g (Slot.wr (fun _ => true) d n)

/-- RECON (R315). -/
def execRecon (c : Ctl) (op : ReconOp) (all : Bool) (d : Opd) (h : SReg) (off ctx : Opd) (s : State) :
    Host.Outcome State Fault Refusal :=
  issue (.recon c op all d h off ctx) c s (verEff c
    { w := 0, all := true
      needs := fun s x => ((s.cellFor x.buf x.off x.w x.e.nrep).rep x.r).sibs != []
      act := fun s0 g x scalar i s =>
        let cell := s.cellFor x.buf x.off x.w x.e.nrep
        match reconMisfit g d x.w with
        | some n => .error (.reg n)
        | none =>
        match (cell.rep x.r).recon x.r op x.w (if all then none else some (s0.quad g ctx scalar i)) with
        | none => .error (.cell .verFull)
        | some r =>
          let cell1 := match r.sib with
            | some y => (cell.setRep x.r r.rep).send x.r y (fun q => s.lost.contains (x.e.rep q))
            | none => cell
          let s1 := if r.sib.isSome then s.setCell cell1 else s
          .ok (s1, runWrites scalar d (x.w / 4) i r.value [cell1.status x.r r.merged]) }
    d h off true)

/- ### Propagation (R314) and compaction (R316) -/

def Cell.queue? (c : Cell) (src dst : Nat) : Option SibQueue := c.queues.find? (fun y => y.src == src && y.dst == dst)

/-- Put a queue back, or drop it when it is empty. -/
def Cell.setQueue (c : Cell) (y : SibQueue) : Cell :=
  { c with queues := c.queues.flatMap (fun z =>
      if z.src == y.src && z.dst == y.dst then (if y.sibs.isEmpty then [] else [y]) else [z]) }

/-- A sibling arrives at a replica: present already, held for want of room, or kept (R314). -/
def Cell.arrive (c : Cell) (y : SibQueue) (x : Sib) (rest : List Sib) : Cell :=
  let r := c.rep y.dst
  let keep := r.sibs.filter (fun z => !covers x.vw r.era z)
  if x.n ≤ nth 0 r.cv x.h then c.setQueue { y with held := false, sibs := rest }
  else if keep.length = 8 then c.setQueue { y with held := true }
  else (c.setRep y.dst { r with cv := joinVec (joinVec r.cv x.vw) (setAt [0, 0, 0] x.h x.n), sibs := insertSib x keep }).setQueue
    { y with held := false, sibs := rest }

/-- A sibling at the head of a queue arrives; it waits for space in the destination's lodge (R292). -/
def State.sibArrive (s : State) (c : Cell) (y : SibQueue) : State :=
  let e := s.entry c.buf
  match y.sibs with
  | [] => s
  | x :: rest =>
    match s.reserve (e.rep y.dst) e.owner (.cell c.buf c.off) with
    | none => s.noteFull (e.rep y.dst) e.owner
    | some s1 => s1.setCell (c.arrive y x rest)

/-- SIBLING_ARRIVAL (R314). -/
def execSiblingArrival (buf off src dst : Nat) (s : State) : Host.Outcome State Fault Refusal :=
  match s.cell? buf off with
  | none => .refused .eventNotEnabled
  | some c =>
    match c.queue? src dst with
    | none => .refused .eventNotEnabled
    | some y => if y.held then .refused .eventNotEnabled else .next (s.sibArrive c y)

/-- HELD_SIBLING_RELEASE (R314): the destination's count has fallen. -/
def execHeldSiblingRelease (buf off src dst : Nat) (s : State) : Host.Outcome State Fault Refusal :=
  match s.cell? buf off with
  | none => .refused .eventNotEnabled
  | some c =>
    match c.queue? src dst with
    | none => .refused .eventNotEnabled
    | some y =>
      if y.held && (c.rep dst).sibs.length < 8 then .next (s.sibArrive c y) else .refused .eventNotEnabled

/-- 10 ms in clk (R316, R3). -/
def tenMs : Nat := 25000000

/-- The conditions of a compaction (R316), and the sibling. -/
def Cell.compactable (c : Cell) (clk : Nat) : Option Sib :=
  match c.reps with
  | [] => none
  | r :: _ =>
    match r.sibs with
    | [x] =>
      if r.cv.any (fun n => 2 ^ 31 ≤ n) && c.reps.all (fun y => y.sibs == [x]) && c.queues.isEmpty &&
          (match c.lastCompact with | some t => t + tenMs ≤ clk | none => true) then some x else none
    | _ => none

/-- COMPACTION (R316). -/
def execCompaction (buf off : Nat) (s : State) : Host.Outcome State Fault Refusal :=
  match s.cell? buf off with
  | none => .refused .eventNotEnabled
  | some c =>
    match c.compactable s.clk with
    | none => .refused .eventNotEnabled
    | some x =>
      .next (s.setCell { c with
        lastCompact := some s.clk
        reps := c.reps.map (fun r =>
          let e := (r.era + 1) % 2 ^ 32
          { era := e, cv := setAt [0, 0, 0] x.h 1, sibs := [{ x with n := 1, vw := [0, 0, 0, e] }] }) })

end Sys2Proof.Machine
end

