-- ==== Sys2Proof/Machine/System.lean ====
section
/-! DEFINITION. System instructions, OP 0x7F (R324 to R330): TRAP, RTE, GSR and SSR on the state registers (R320),
HALT, BRK, CLK, and the debug stop that BRK shares with the debugger (R331). -/

namespace Sys2Proof.Machine

/-- TRAP (R324). -/
def execTrap (c : Ctl) (a : Opd) (s : State) : Host.Outcome State Fault Refusal :=
  issue (.trap c a) c s (fun s => onGroup c s (fun g m x =>
    if x == 0 then .done s else execFault s m x .softTrap 0 ((s.scal g 1 0 a).zeroExtend 64)))

/- ### RTE (R325, R111, R210) -/

/-- The instruction at a code address. -/
def State.instrAt (s : State) (g : Group) (a : Word) : Except DecodeError Instr :=
  decodeWords (s.codeWord g a) (s.codeWord g (a + 4))

/-- The lowest lane that stands at the faulting instruction, in its clause. -/
def Group.faultPlace (g : Group) : Option ClausePos :=
  match lowestLane g.arrivedSet with | some i => nth none g.clause i | none => none

/-- Where the suspended groups stand at the faulting instruction: all of a handling member's lanes may have signed (R110). Nowhere
after the fault of a clause, whose lanes stand at the header (R41). -/
def State.faultPlace (s : State) (g : Group) : Option ClausePos := (s.suspendedWith g).findSome? Group.faultPlace

/-- The walks that the faulting instruction of a group reads advance once, where it counts as issued (R87, R89); a clause that faulted
reads none (R41). -/
def State.faultWalks (s : State) (g : Group) : Group → Group :=
  let ns := match s.faultPlace g, s.instrAt g g.fault.pc with
    | some _, .ok i => (match i.desc with | some d => d.walks | none => [])
    | _, _ => []
  fun h => ns.foldl (fun h n => h.qAdvance n) h

/-- Some lane at the faulting instruction had arrived at its rendezvous, or was blocked there. -/
def Group.faultHeld (g : Group) : Bool :=
  (lanesOf g.arrivedSet).any (fun i => !(nth .free g.wait i).isFree)

/-- Lanes of F that its guard leaves in, where the fault was one of every lane at the issue point, raised before the guard was
read: ILLEGAL_ENC, SCOPE_ILLEGAL or STALL_SHORT (R38, R43, R109); the other faults are of executing lanes (R111, R210). -/
def State.replayLanes (s : State) (g : Group) (mask : Mask) : Mask :=
  let guard := match s.instrAt g g.fault.pc with | .ok i => i.ctl.bind (·.guard) | .error _ => none
  g.faultSet &&& mask &&& (if g.fault.code.toNat ≤ 3 then s.guardMask g guard else allLanes)

/-- The issue of the faulting instruction again (R210, R325): the lanes of F in the mask execute it, and all that
arrived pass it when it has issued. -/
def State.replayIssue (s : State) (g : Group) (p : ClausePos) (mask : Mask) : Issue :=
  let w := s.codeWord g g.fault.pc
  let h := s.codeWord g p.hdr
  { phase := .replay, scope := scopeOf (fld w.toNat 27 2), pc := g.fault.pc,
    next := g.fault.pc + BitVec.ofNat 32 (instrBytes w), pos := p, sb := hdrSb h, cls := hdrCls h, yieldBit := hdrYield h,
    doneAt := s.clk
    members := (s.suspendedWith g).filterMap (fun h =>
      if h.arrivedSet == 0 then none else some ⟨h.key, h.arrivedSet, s.replayLanes h mask⟩) }

/-- The end of a handler: every suspended group is settled. -/
def State.endHandler (s : State) (g : Group) (k : Rte) (at_ : Nat) : State :=
  (s.suspendedWith g).foldl (fun s h => s.settle h.key) (s.returnFault g k (s.faultWalks g) at_)

/-- RTE.replay under a mask. A clause, or an instruction that faulted before its lanes arrived at its rendezvous, is
come to again; any other instruction issues again without one. -/
def State.rteReplay (s : State) (g : Group) (mask : Mask) (at_ : Nat) : State :=
  match s.faultPlace g with
  | none => s.endHandler g (.stay mask) at_
  | some p =>
    let iss := s.replayIssue g p mask
    if iss.scope != .lane && !(s.suspendedWith g).any Group.faultHeld then s.endHandler g (.stay mask) at_
    else if iss.members.all (fun m => m.may == 0) then s.endHandler g .skip at_
    else
      let s1 := s.returnFault g (.replay iss.scope) id at_
      { s1 with instances := s1.instances ++ [⟨at_, iss, false, false⟩] }

/-- The clk at which the lanes of a fault go on: after the RTE's own stall (R35). -/
def State.afterRte (s : State) (c : Ctl) : Nat := s.clk + 1 + c.stall.toNat

/-- RTE.replay (R325). -/
def execRteReplay (c : Ctl) (a : Opd) (s : State) : Host.Outcome State Fault Refusal :=
  issue (.rteReplay c a) c s (fun s => onGroup c s (fun g _ _ =>
    let mask : Mask := if a.isS then pairOf (s.scal g 1 0 a) (s.scal g 1 1 a) else allLanes
    .moved (s.rteReplay g mask (s.afterRte c)) 0))

/-- RTE.skip (R325). -/
def execRteSkip (c : Ctl) (s : State) : Host.Outcome State Fault Refusal :=
  issue (.rteSkip c) c s (fun s => onGroup c s (fun g _ _ => .moved (s.endHandler g .skip (s.afterRte c)) 0))

/-- RTE.resume (R325): a target outside the code image faults ADDR_BOUNDS. -/
def execRteResume (c : Ctl) (s : State) : Host.Outcome State Fault Refusal :=
  issue (.rteResume c) c s (fun s => onGroup c s (fun g m x =>
    if !s.inImage g g.resume then execFault s m x .addrBounds 0 (g.resume.zeroExtend 64)
    else .moved (s.endHandler g (if g.resume == g.resume0 then .skip else .resume g.resume) (s.afterRte c)) 0))

/- ### State registers (R320, R321, R326) -/

/-- HSTAT (R321). -/
def Group.hstat (g : Group) : Word :=
  BitVec.ofNat 32 (b2n g.inh + 2 * b2n g.mask + 4 * b2n g.susp + 8 * b2n g.dstop + g.entries * 2 ^ 16)

/-- FAULTSCOPE.SEL (R110). -/
def Group.faultSel (g : Group) : Nat := fld g.fault.scope.toNat 8 5

/-- FAULTLANES: of the selected member under a wider fault, 0 when SEL names no suspended group (R110, R320). -/
def State.faultLanes (s : State) (g : Group) : Mask :=
  let n := g.fault.scope.toNat % 4
  if n < 2 then g.fault.lanes
  else match (s.suspendedWith g).find? (fun h => s.selOf h (if n = 2 then .party else .team) == g.faultSel) with
    | some h => h.fault.lanes
    | none => 0

/-- A state register by its selector, as 64 bits (R320). -/
def State.stateReg (s : State) (g : Group) (sel : Nat) : BitVec 64 :=
  let w := fun (x : Word) => (x.zeroExtend 64 : BitVec 64)
  match sel with
  | 0 => w g.fault.code
  | 1 => w g.fault.pc
  | 2 => s.faultLanes g
  | 3 => w g.fault.reg
  | 4 => g.fault.addr
  | 5 => w g.fault.scope
  | 6 => w g.fault.groups
  | 7 => w g.resume
  | 8 => w g.hstat
  | 9 => w (match s.ctx? g.ctx with | some c => c.trapvec | none => 0)
  | 10 => w (fpstatSeen g)
  | 11 => w (s.mxstat g.pkey g.ctx)
  | 12 => (s.core g.core).tagDone g.ctx
  | 13 => (s.core g.core).tagErr g.ctx
  | 14 => w (BitVec.ofNat 32 W)
  | 15 => w (match s.ctx? g.ctx with | some c => c.flags | none => 0)
  | 16 => w (match s.ctx? g.ctx with | some c => c.touched.zeroExtend 32 | none => 0)
  | 17 => w (BitVec.ofNat 32 g.ctx)
  | _ => 0

/-- GSR (R326). -/
def execGsr (c : Ctl) (d : SReg) (sel : BitVec 6) (s : State) : Host.Outcome State Fault Refusal :=
  issue (.gsr c d sel) c s (fun s => onGroup c s (fun g _ x =>
    let v := s.stateReg g sel.toNat
    .done (s.putVar g.key (if x == 0 then []
      else .s d.toNat (loWord v) :: (if stateRegWide sel.toNat then [.s (d.toNat + 1) (hiWord v)] else [])))))

/-- The flags on their way are in place (R144). -/
def Group.landFlags (g : Group) : Group :=
  { g with
    fpstat := fpstatSeen g
    inFlight := g.inFlight.map (fun e => { e with writes := e.writes.filter (fun w => match w with | .flags _ => false | _ => true) }) }

/-- A word whose low two bits read zero (R320). -/
def alignWord (x : Word) : Word := x &&& ~~~(3 : Word)

/-- SSR's effect on the fields that software writes (R144, R320, R326). -/
def State.writeStateReg (s : State) (g : Group) (sel : Nat) (x : Word) : State :=
  match sel with
  | 5 => s.modGroup g.key (fun g => { g with fault := { g.fault with
      scope := BitVec.ofNat 32 (putFld g.fault.scope.toNat 8 5 (fld x.toNat 8 5)) } })
  | 7 => if s.cur.phase == .handler then s.modGroup g.key (fun g => { g with resume := alignWord x }) else s
  | 9 => s.modCtx g.ctx (fun c => { c with trapvec := alignWord x })
  | 10 => s.modGroup g.key (fun g => { g.landFlags with fpstat := fpstatWrite (fpstatSeen g) x })
  | _ => s

/-- SSR (R326). -/
def execSsr (c : Ctl) (sel : BitVec 6) (b : Opd) (s : State) : Host.Outcome State Fault Refusal :=
  issue (.ssr c sel b) c s (fun s => onGroup c s (fun g _ x =>
    .done (if x == 0 then s else s.writeStateReg g sel.toNat (s.scal g 2 0 b))))

/- ### HALT, BRK, CLK (R327, R328, R330) -/

/-- The record of HALT (R327). -/
def Group.haltRec (g : Group) (pc : Word) (clk : Nat) : FaultRec :=
  { FaultRec.blank with
    valid := true, die := g.core.die, core := g.core.core, part := g.part, team := g.key.team, grp := g.key.grp,
    pc := pc, clk := clk }

/-- HALT (R327). -/
def execHalt (c : Ctl) (s : State) : Host.Outcome State Fault Refusal :=
  issue (.halt c) c s (fun s => onGroup c s (fun g _ x =>
    .done (if x == 0 then s else s.haltCtx g.ctx 3 (g.haltRec s.cur.pc s.clk))))

/-- A debug stop (R331): no group of the context issues, and a step that was allowed is over (R332, R348); the groups that
stand at a breakpoint with the wait of their clause met have stopped there (R352). -/
def State.debugStop (s0 : State) (n : Nat) : State :=
  let s := { s0 with
    instances := s0.instances.map (fun (i : Instance) =>
      if i.iss.members.any (fun (m : Member) => (s0.group? m.key).any (fun (g : Group) => g.ctx == n)) then { i with step := false } else i) }
  (s.modCtx n (fun c => { c with stopped := true, stopAt := if c.stopped then c.stopAt else s.clk })).modGroups (fun g =>
    if g.ctx == n then { g with dstop := true, stepOne := false, broke := g.broke || (s.atBreak g && s.waitMet g) } else g)

/-- BRK (R328). -/
def execBrk (c : Ctl) (s : State) : Host.Outcome State Fault Refusal :=
  issue (.brk c) c s (fun s => onGroup c s (fun g m x =>
    if x == 0 then .done s
    else if s.dbg g.ctx then .done (s.debugStop g.ctx)
    else execFault s m x .softTrap 0 0xFFFFFFFF))

/-- CLK (R330). -/
def execClk (c : Ctl) (d : Opd) (s : State) : Host.Outcome State Fault Refusal :=
  issue (.clk c d) c s (fun s => .done (s.perLane c 4 (fun _ m =>
    groupWrites d 2 m (fun _ => List.replicate W s.clock.toNat) (fun _ => s.clock.toNat))))

end Sys2Proof.Machine
end

