-- ==== Sys2Proof/Machine/Place.lean ====
section
/-! DEFINITION. Team descriptors, the placing of teams, partial eviction and the exchange of groups between the active
and the pending set (R94, R356 to R371). -/

namespace Sys2Proof.Machine

/- ### The team descriptor (R356, R357) -/

abbrev TDesc := BitVec 512

def TDesc.f (d : TDesc) (lo n : Nat) : Nat := fld d.toNat lo n
def TDesc.ngrp (d : TDesc) : Nat := d.f 0 5 + 1
def TDesc.classes (d : TDesc) : Nat := d.f 8 4
def TDesc.mxuse (d : TDesc) : Bool := bitOf d.toNat 13
def TDesc.yregs (d : TDesc) : Nat := d.f 16 7
def TDesc.vregs (d : TDesc) : Nat := d.f 24 8 + 1
def TDesc.sregs (d : TDesc) : Nat := d.f 32 9 + 1
def TDesc.clrows (d : TDesc) : Nat := d.f 44 3
def TDesc.clcols (d : TDesc) : Nat := d.f 47 3
def TDesc.nteams (d : TDesc) : Nat := d.f 64 32
def TDesc.entry (d : TDesc) : Word := BitVec.ofNat 32 (d.f 96 32)
def TDesc.gmap (d : TDesc) (g : Nat) : Nat := d.f (256 + 8 * g) 8
def TDesc.part (d : TDesc) (g : Nat) : Nat := fld (d.gmap g) 0 2
def TDesc.party (d : TDesc) (g : Nat) : Option Nat := if bitOf (d.gmap g) 5 then some (fld (d.gmap g) 2 3) else none

/-- Vector-file bytes of a group: its v registers and its y slices (R11, R106). -/
def TDesc.bytes (d : TDesc) : Nat := (d.vregs + d.yregs) * 256

/-- Teams of a block: those of one cluster, or one (R360). -/
def TDesc.block (d : TDesc) : Nat := if d.clrows = 0 then 1 else d.clrows * d.clcols

/-- The descriptor of a launch. -/
def Launch.d (l : Launch) : TDesc := l.desc

def fileBytes : Nat := 262144

/-- The descriptor's groups keep the limits of R53. -/
def TDesc.fits53 (d : TDesc) : Bool :=
  let gs := List.range d.ngrp
  gs.all (fun g => (d.party g).isSome || d.gmap g == g % 4) &&
  (List.range 4).all (fun k =>
    let ps := gs.filter (fun g => d.part g == k)
    ps.length ≤ 16 && ps.length * d.bytes ≤ fileBytes &&
      (List.range 8).all (fun p => (ps.filter (fun g => d.party g == some p)).length ≤ 8))

/-- A descriptor that the driver does not refuse (R357). -/
def TDesc.ok (d : TDesc) : Bool :=
  d.classes != 0 && d.nteams != 0 && (List.range 32).all (fun g => g < d.ngrp || d.gmap g == 0) && d.fits53 &&
    ((d.clrows == 0 && d.clcols == 0) ||
      (d.clrows != 0 && d.clcols != 0 && ((d.clrows ≤ 4 && d.clcols ≤ 3) || (d.clrows ≤ 3 && d.clcols ≤ 4)) &&
        d.nteams % (d.clrows * d.clcols) == 0))

/- ### Cores (R20, R359, R360) -/

def coresOf (die : Nat) : List CKey := (List.range (if isBDie die then 48 else 96)).map (fun i => ⟨die, i⟩)

/-- All four vector units work (R20). -/
def State.coreWorks (s : State) (k : CKey) : Bool := match s.coreByte k with | some b => b.toNat % 16 == 15 | none => true

/-- The candidate list of a descriptor (R359): no core of a lost die is among them. -/
def State.candidates (s : State) (d : TDesc) : List CKey :=
  (List.range 8).flatMap (fun die =>
    if s.lost.contains die then []
    else (coresOf die).filter (fun k => s.coreWorks k && bitOf d.classes (s.coreClass k)))

/-- The cores of a block whose top-left core is given: one core without a cluster shape (R360). -/
def TDesc.rect (d : TDesc) (k : CKey) : List CKey :=
  if d.clrows = 0 then [k]
  else (List.range d.block).map (fun j =>
    ⟨k.die, if k.core % 12 + j % d.clcols < 12 then (k.core / 12 + j / d.clcols) * 12 + k.core % 12 + j % d.clcols else 96⟩)

/- ### What is taken (R358) -/

/-- What one group takes of its partition. -/
structure Occ where
  key : Option GKey
  core : CKey
  part : Nat
  party : Option Nat
  slots : Nat
  bytes : Nat
  deriving DecidableEq, Repr

/-- What is taken: by groups, and the matrix units that hold a context's state; `wanted` are units that teams with a
place will use. -/
structure Room where
  occ : List Occ
  mx : List (PKey × Nat)
  wanted : List (PKey × Nat)
  deriving DecidableEq, Repr

/-- The context's dump is over, so that its groups take nothing (R336, R368). -/
def State.dumpDone (s : State) (ctx : Nat) : Bool :=
  match s.ctx? ctx with | some c => (match c.halt with | some h => h.dumped | none => false) | none => true

/-- A team has a group that still runs: its y slices stay (R106). -/
def State.teamRuns (s : State) (k : GKey) : Bool := (s.teamGroups k).any (fun g => g.live != 0 || !g.drained)

/-- What a resident group takes. -/
def State.groupOcc (s : State) (g : Group) : Option Occ :=
  if !g.resident || s.dumpDone g.ctx then none
  else if g.holdsRegs then some ⟨some g.key, g.core, g.part, g.party, 1, 256 * (g.nv + g.ny)⟩
  else if s.teamRuns g.key then some ⟨some g.key, g.core, g.part, none, 0, 256 * g.ny⟩
  else none

/-- Matrix units that hold state. -/
def State.mxHeld (s : State) : List (PKey × Nat) :=
  s.cores.flatMap (fun c => (c.parts.zipIdx).filterMap (fun x => x.1.mx.map (fun m => (⟨c.key.die, c.key.core, x.2⟩, m.ctx))))

/-- What is taken now. -/
def State.roomNow (s : State) : Room := ⟨s.groups.filterMap s.groupOcc, s.mxHeld, []⟩

/-- What the groups of a team will take on a core. -/
def TDesc.occ (d : TDesc) (core : CKey) : List Occ :=
  (List.range d.ngrp).map (fun g => ⟨none, core, d.part g, d.party g, 1, d.bytes⟩)

def TDesc.parts (d : TDesc) : List Nat := (List.range 4).filter (fun k => (List.range d.ngrp).any (fun g => d.part g == k))

/-- The room once a team of a context stands on a core. -/
def Room.add (r : Room) (d : TDesc) (ctx : Nat) (core : CKey) : Room :=
  let ps := d.parts.map (fun k => (⟨core.die, core.core, k⟩ : PKey))
  { occ := r.occ ++ d.occ core
    mx := r.mx ++ (ps.filter (fun p => !r.mx.any (fun x => x.1 == p))).map (fun p => (p, ctx))
    wanted := if d.mxuse then r.wanted ++ ps.map (fun p => (p, ctx)) else r.wanted }

/-- The room once a victim has left. -/
def Room.drop (r : Room) (v : Victim) : Room :=
  { r with
    occ := r.occ.filter (fun o => match o.key with | some k => !v.keys.contains k | none => true)
    mx := if v.mx then r.mx.filter (fun x => !(x.1 == ⟨v.core.die, v.core.core, v.part⟩ && x.2 == v.ctx)) else r.mx }

/-- What will be taken once every victim has left and every team with a place has come. -/
def State.roomPlanned (s : State) : Room :=
  s.launches.foldl (fun r l =>
    if s.halted l.ctx then r
    else l.plan.foldl (fun r p => (p.victims.foldl Room.drop r).add l.desc l.ctx p.core) r) s.roomNow

/-- What a placement is tried against: the room once what is decided has come to pass, and the room at this moment, from which
only victims of the same launch count as gone (R362). -/
structure Rooms where
  planned : Room
  now : Room
  deriving DecidableEq, Repr

def Rooms.add (r : Rooms) (d : TDesc) (ctx : Nat) (core : CKey) : Rooms := ⟨r.planned.add d ctx core, r.now.add d ctx core⟩
def Rooms.drop (r : Rooms) (v : Victim) : Rooms := ⟨r.planned.drop v, r.now.drop v⟩

def sumOf (f : Occ → Nat) (os : List Occ) : Nat := (os.map f).foldl (· + ·) 0

/-- New groups find slots, bytes and party indices on a core (R358, 2 to 4). -/
def Room.holds (r : Room) (core : CKey) (new : List Occ) : Bool :=
  let old := r.occ.filter (fun o => o.core == core)
  sumOf (·.slots) old + sumOf (·.slots) new ≤ 64 &&
  (List.range 4).all (fun k =>
    let o := old.filter (fun x => x.part == k)
    let n := new.filter (fun x => x.part == k)
    n.isEmpty || (sumOf (·.slots) o + sumOf (·.slots) n ≤ 16 && sumOf (·.bytes) o + sumOf (·.bytes) n ≤ fileBytes &&
      n.all (fun x => x.party.isNone || !o.any (fun y => y.party == x.party))))

/-- The matrix units of the partitions that a team uses (R358, 5). -/
def Room.mxFree (r : Room) (core : CKey) (parts : List Nat) (ctx : Nat) (mxuse : Bool) : Bool :=
  parts.all (fun k =>
    let p : PKey := ⟨core.die, core.core, k⟩
    r.wanted.all (fun x => x.1 != p || x.2 == ctx) && (!mxuse || r.mx.all (fun x => x.1 != p || x.2 == ctx)))

/-- A team fits a core (R358). -/
def Room.fits (r : Room) (d : TDesc) (ctx : Nat) (core : CKey) : Bool :=
  r.holds core (d.occ core) && r.mxFree core d.parts ctx d.mxuse

def Rooms.fits (r : Rooms) (d : TDesc) (ctx : Nat) (core : CKey) : Bool := r.planned.fits d ctx core && r.now.fits d ctx core

/- ### Evicted parties (R370) -/

def Evicted.pkey (e : Evicted) : PKey := ⟨e.core.die, e.core.core, e.part⟩

/-- What the groups of an evicted party will take. -/
def State.evictedOcc (s : State) (e : Evicted) : List Occ :=
  (e.keys.filterMap s.group?).map (fun g => ⟨some g.key, e.core, e.part, g.party, 1, 256 * (g.nv + g.ny)⟩)

/-- The saved matrix state that comes back with a party. -/
def State.savedMx (s : State) (e : Evicted) : Option Mx := (s.part e.pkey).mxSaved.find? (fun m => m.ctx == e.ctx)

/-- The launch of a party uses the matrix unit. -/
def State.evictedMx (s : State) (e : Evicted) : Bool :=
  (s.savedMx e).isSome || e.keys.any (fun k => match s.launch? k.launch with | some l => l.d.mxuse | none => false)

/-- The room once an evicted party is back. -/
def Room.addParty (r : Room) (s : State) (e : Evicted) : Room :=
  { r with
    occ := r.occ ++ s.evictedOcc e
    mx := if s.evictedMx e && !r.mx.any (fun x => x.1 == e.pkey) then r.mx ++ [(e.pkey, e.ctx)] else r.mx }

/-- An evicted party fits its core (R358), beside the teams whose place is decided, and is not on its way out. DEDUCED (log 103): a
place decided is taken from then on, as R368's bound on the incoming team needs. -/
def State.restoresIn (s : State) (r : Rooms) (e : Evicted) : Bool :=
  let os := s.evictedOcc e
  let ok := fun (r : Room) => r.holds e.core os && r.mxFree e.core [e.part] e.ctx (s.evictedMx e)
  !s.halted e.ctx && !e.keys.any s.leaving && ok r.now && ok r.planned

def State.mayRestore (s : State) (e : Evicted) : Bool := s.restoresIn ⟨s.roomPlanned, s.roomNow⟩ e

/-- The party that is restored first: of the highest priority, then the oldest eviction. -/
def firstRestore (s : State) : List Evicted → Option Evicted
  | [] => none
  | e :: t => match firstRestore s t with
    | none => some e
    | some f => some (if s.prio e.ctx < s.prio f.ctx then f else e)

/-- The party that a core restores next. -/
def State.restorable (s : State) (k : CKey) : Option Evicted :=
  firstRestore s (s.evicted.filter (fun e => e.core == k && s.mayRestore e))

/-- The rooms once every party that fits has been restored, and those parties: dispatch to a core comes after (R370). -/
def State.restoredRooms (s : State) (es back : List Evicted) (r : Rooms) : Nat → Rooms × List Evicted
  | 0 => (r, back)
  | n + 1 =>
    match firstRestore s (es.filter (s.restoresIn r)) with
    | none => (r, back)
    | some e => s.restoredRooms (es.filter (fun x => x != e)) (back ++ [e]) ⟨r.planned.addParty s e, r.now.addParty s e⟩ n

def State.restored (s : State) : Rooms × List Evicted :=
  s.restoredRooms s.evicted [] ⟨s.roomPlanned, s.roomNow⟩ s.evicted.length

def State.rooms (s : State) : Rooms := s.restored.1

/-- The parties that count as back. -/
def State.back (s : State) : List Evicted := s.restored.2

/- ### Victims (R367, R382) -/

/-- A party that may be chosen, with the numbers that its key compares. -/
structure PartyUnit where
  victim : Victim
  party : Option Nat
  masked : Bool
  prio : Nat
  placedAt : Nat
  idx : Nat
  deriving DecidableEq, Repr

/-- A group's party on its partition, exited members left out. -/
def State.partyOf (s : State) (g : Group) : List Group := (s.partyGroups g).filter (fun h => h.live != 0 && h.resident)

/-- A party as a candidate, by its members. -/
def State.unitOf (s : State) (g : Group) (ms : List Group) : PartyUnit :=
  { victim := ⟨ms.map (·.key), g.core, g.part, g.ctx, false⟩, party := g.party, masked := ms.any (fun h => h.mask || h.susp)
    prio := s.prio g.ctx, placedAt := match s.team? g.key with | some t => t.placedAt | none => 0
    idx := g.party.getD g.key.grp }

/-- The candidates of what came back to a core: each party of it by itself (R370). One that is chosen stays out. -/
def State.backUnits (s : State) (core : CKey) : List PartyUnit :=
  (s.back.filter (fun e => e.core == core)).flatMap (fun e =>
    let gs := e.keys.filterMap s.group?
    gs.filterMap (fun g =>
      let ms := gs.filter (fun h => h.key == g.key || (g.party.isSome && h.party == g.party && h.key.launch == g.key.launch && h.key.team == g.key.team))
      if ms.head?.map (·.key) == some g.key then some (s.unitOf g ms) else none))

/-- The parties of a core that run or count as back, but for those whose context halts or that leave already. -/
def State.partyUnits (s : State) (core : CKey) : List PartyUnit :=
  (s.groups.filter (fun g => g.core == core && g.resident && g.live != 0 && !s.halted g.ctx && !s.leaving g.key)).filterMap (fun g =>
    let ms := s.partyOf g
    if ms.head?.map (·.key) == some g.key then some (s.unitOf g ms) else none) ++ s.backUnits core

/-- The first of two parties to be chosen. -/
def PartyUnit.before (a b : PartyUnit) : Bool :=
  if a.masked != b.masked then b.masked
  else if a.prio ≠ b.prio then a.prio < b.prio
  else if a.placedAt ≠ b.placedAt then b.placedAt < a.placedAt
  else b.idx < a.idx

def bestUnit : List PartyUnit → Option PartyUnit
  | [] => none
  | u :: t => match bestUnit t with
    | none => some u
    | some v => some (if v.before u then v else u)

/-- The dies of the partitions that have matrix state of a context saved (R181, R369). -/
def State.mxSavedDies (s : State) (ctx : Nat) : List Nat :=
  s.cores.flatMap (fun c => c.parts.flatMap (fun p => (p.mxSaved.filter (fun m => m.ctx == ctx)).map (fun _ => c.key.die)))

/-- Bytes of the save area that groups and matrix state of a context take: those out, and the victims. -/
def State.saveTaken (s : State) (ctx : Nat) (vs : List Victim) : Nat :=
  let out := fun (g : Group) => g.ctx == ctx && (!g.resident || vs.any (fun v => v.keys.contains g.key))
  ((s.groups.filter out).map (fun g => Config.saveBytes g.nv g.ns g.ny)).foldl (· + ·) 0 +
    ((s.mxSavedDies ctx).map (fun d => Config.saveMx (colsOf d))).foldl (· + ·) 0 +
    ((vs.filter (fun v => v.ctx == ctx && v.mx && (s.part ⟨v.core.die, v.core.core, v.part⟩).mx.any (fun m => m.ctx == ctx))).map
      (fun v => Config.saveMx (colsOf v.core.die))).foldl (· + ·) 0

/-- Victims that are waiting to leave. -/
def State.chosen (s : State) : List Victim := s.launches.flatMap (fun l => if s.halted l.ctx then [] else l.plan.flatMap (·.victims))

/-- An eviction keeps within SAVELEN (R382). -/
def State.savable (s : State) (vs : List Victim) (v : Victim) : Bool :=
  match s.ctx? v.ctx with
  | some c => s.saveTaken v.ctx (s.chosen ++ vs ++ [v]) ≤ c.saveLen * 65536
  | none => false

/-- Victims that a team needs in any case (R367, 1); none when one of them may not go. -/
def State.forced (s : State) (d : TDesc) (ctx : Nat) (core : CKey) (r : Rooms) (prior : List Victim) (us : List PartyUnit) :
    Option (List Victim) :=
  let mxs := if d.mxuse then r.planned.mx.filter (fun x => x.1.die == core.die && x.1.core == core.core && d.parts.contains x.1.part && x.2 != ctx) else []
  let mv := mxs.map (fun x =>
    (⟨(us.filter (fun u => u.victim.part == x.1.part && u.victim.ctx == x.2)).flatMap (fun u => u.victim.keys), core, x.1.part, x.2, true⟩ : Victim))
  let pv := (us.filter (fun u => !mv.any (fun v => v.ctx == u.victim.ctx && v.part == u.victim.part) &&
    (d.occ core).any (fun o => o.part == u.victim.part && o.party.isSome && o.party == u.party))).map (·.victim)
  let all := mv ++ pv
  let outThere := fun (v : Victim) => s.evicted.any (fun e => e.core == core && e.part == v.part && e.ctx == v.ctx)
  if all.all (fun v => s.prio v.ctx < s.prio ctx && (!v.keys.isEmpty || outThere v)) then
    all.foldl (fun acc v => acc.bind (fun l => if s.savable (prior ++ l) v then some (l ++ [v]) else none)) (some [])
  else none

/-- Choose further victims until the team fits (R367, 2). -/
def State.chooseMore (s : State) (d : TDesc) (ctx : Nat) (core : CKey) (r : Rooms) (prior vs : List Victim) :
    Nat → List PartyUnit → Option (List Victim)
  | 0, _ => none
  | n + 1, us =>
    if r.fits d ctx core then some vs
    else match bestUnit us with
      | none => none
      | some u =>
        let rest := us.filter (fun x => x.victim != u.victim)
        if s.savable (prior ++ vs) u.victim then
          s.chooseMore d ctx core (r.drop u.victim) prior (vs ++ [u.victim]) n rest
        else s.chooseMore d ctx core r prior vs n rest

/-- The victims whose leaving makes a team fit a core (R367). -/
def State.victims (s : State) (d : TDesc) (ctx : Nat) (core : CKey) (r : Rooms) (prior : List Victim) : Option (List Victim) :=
  let us := (s.partyUnits core).filter (fun u => !prior.any (fun v => v.keys.any (fun k => u.victim.keys.contains k)))
  match s.forced d ctx core r prior us with
  | none => none
  | some fv =>
    let more := us.filter (fun u => u.prio < s.prio ctx && d.parts.contains u.victim.part &&
      !fv.any (fun v => v.keys.any (fun k => u.victim.keys.contains k)))
    s.chooseMore d ctx core (fv.foldl Rooms.drop r) prior fv (more.length + 1) more

/- ### The scan (R359, R360, R362, R367) -/

/-- Where the teams of a block go when its top-left core is given. -/
structure Block where
  plans : List Plan
  room : Rooms

/-- keldb's `place` allows a team on a die (R351). -/
def Launch.allows (l : Launch) (team die : Nat) : Bool :=
  let ds := l.place.filter (fun x => x.1 == team)
  ds.isEmpty || ds.any (fun x => x.2 == die)

/-- Try a block at the cores given, with or without eviction; victims chosen for earlier teams of the launch count as
gone (R362). -/
def State.tryBlock (s : State) (l : Launch) (evict : Bool) (team : Nat) (cluster : List CKey) :
    List (CKey × Nat) → Block → List Victim → Option Block
  | [], b, _ => some b
  | (k, j) :: t, b, prior =>
    if !l.allows (team + j) k.die then none
    else if b.room.fits l.desc l.ctx k then
      s.tryBlock l evict team cluster t ⟨b.plans ++ [⟨k, cluster, [], s.clk⟩], b.room.add l.desc l.ctx k⟩ prior
    else if !evict then none
    else match s.victims l.desc l.ctx k b.room prior with
      | none => none
      | some vs => s.tryBlock l evict team cluster t
          ⟨b.plans ++ [⟨k, cluster, vs, s.clk⟩], (vs.foldl Rooms.drop b.room).add l.desc l.ctx k⟩ (prior ++ vs)

/-- Scan the list once from the pointer: the block and the pointer after it. -/
def State.scan (s : State) (l : Launch) (cands : List CKey) (evict : Bool) (team ptr : Nat) (room : Rooms) (prior : List Victim) :
    Nat → Option (Block × Nat)
  | 0 => none
  | n + 1 =>
    let i := (ptr + (cands.length - (n + 1))) % cands.length
    let d := l.d
    match cands[i]? with
    | none => none
    | some k =>
      let ks := d.rect k
      match (if ks.all (fun x => cands.contains x) then
          s.tryBlock l evict team (if d.clrows = 0 then [k] else ks) ks.zipIdx ⟨[], room⟩ prior else none) with
      | some b => some (b, (i + 1) % cands.length)
      | none => s.scan l cands evict team ptr room prior n

/-- A block goes to the first place without eviction; where none is, to the first with it. -/
def State.scanBoth (s : State) (l : Launch) (cands : List CKey) (team ptr : Nat) (room : Rooms) (prior : List Victim) :
    Option (Block × Nat) :=
  (s.scan l cands false team ptr room prior cands.length) <|> (s.scan l cands true team ptr room prior cands.length)

/-- The whole placement of a resident launch (R362): the plans, and the pointer after it. -/
def State.placeAll (s : State) (l : Launch) (cands : List CKey) : Nat → Nat → Nat → Rooms → List Plan → Option (List Plan × Nat)
  | 0, _, ptr, _, ps => some (ps, ptr)
  | n + 1, team, ptr, room, ps =>
    match s.scanBoth l cands team ptr room (ps.flatMap (·.victims)) with
    | none => none
    | some (b, ptr') => s.placeAll l cands n (team + l.d.block) ptr' b.room (ps ++ b.plans)

/- ### Groups come to a core (R62, R180, R359, R364) -/

/-- A register file at launch (R62, R146): the marker with the register's own operand code, or 0 under NOMARK. -/
def freshWord (nomark : Bool) (code : Nat) : Word := if nomark then 0 else BitVec.ofNat 32 (0x7FA00000 + code)

/-- A group at launch (R62). -/
def Group.fresh (key : GKey) (ctx : Nat) (core : CKey) (part : Nat) (party slot : Option Nat) (nv ns ny : Nat) (entry : Word)
    (nomark : Bool) (inits : List (SReg × Word)) (clk : Nat) : Group :=
  { key := key, ctx := ctx, core := core, part := part, party := party, resident := true, slot := slot, nv := nv, ns := ns, ny := ny,
    pcs := List.replicate W entry, clause := List.replicate W none, live := allLanes, wait := List.replicate W .free,
    m := List.replicate 12 0, lc := List.replicate 3 0, levels := [], q := List.replicate 8 none,
    s := inits.foldl (fun l x => setAt l x.1.toNat x.2) ((List.range ns).map (fun n => freshWord nomark (0x100 + n))),
    v := (List.range nv).map (fun n => List.replicate W (freshWord nomark n)),
    y := (List.range ny).map (fun n => List.replicate W (freshWord nomark (0x300 + n))),
    sb := List.replicate 6 0, inFlight := [], pending := [], nextIssue := clk, drain := false, checks := false, deciding := none, ipBad := [], yielding := false,
    heldSince := none, outgoing := false, lastIssue := clk, sigG := List.replicate W none, sigP := List.replicate W none,
    sigT := List.replicate W none, cvg := 0, fpstat := 0, bank := false, arrivals := [], arrivedAt := 0,
    fault := { code := 0, pc := 0, lanes := 0, reg := 0, addr := 0, scope := 0, groups := 0 },
    arrived := 0, resume := 0, resume0 := 0, faultNext := 0, faultPos := none, inh := false, mask := false, susp := false,
    dstop := false, entries := 0, hpc := 0, hpos := none, stepOne := false, broke := false, sbWait := none, rteWait := none, stopped := false, lateFault := false, spanHold := [], vsts := [],
    publish := none }

/-- A context's matrix state is placed in a partition where none is held (R180). -/
def State.placeMx (s : State) (p : PKey) (ctx : Nat) : State :=
  s.modPart p (fun x => if x.mx.isNone && !x.mxSaved.any (fun m => m.ctx == ctx) then { x with mx := some (Mx.fresh ctx) } else x)

/-- One group of a team comes to its partition: to the lowest free active slot, or to the pending set. -/
def State.placeGroup (s : State) (l : Launch) (team : Nat) (core : CKey) (g : Nat) : State :=
  let d := l.d
  let p : PKey := ⟨core.die, core.core, d.part g⟩
  let gr := Group.fresh ⟨l.id, team, g⟩ l.ctx core (d.part g) (d.party g) (s.freeSlot p) d.vregs d.sregs d.yregs d.entry
    (s.nomark l.ctx) l.inits s.clk
  let stop := match s.ctx? l.ctx with | some c => c.stopped | none => false
  ({ s with groups := s.groups ++ [{ gr with dstop := stop }] }).placeMx p l.ctx

/-- A team comes to its core (R359): its groups are resident together. -/
def State.placeTeam (s : State) (l : Launch) (team : Nat) (core : CKey) (cluster : List CKey) : State :=
  let d := l.d
  let t : Team := ⟨l.id, team, l.ctx, core, 0, cluster, s.tick⟩
  let s1 := { s with teams := s.teams ++ [t] }.touch l.ctx core.die
  (List.range d.ngrp).foldl (fun s g => s.placeGroup l team core g) s1

def State.modLaunch (s : State) (n : Nat) (f : Launch → Launch) : State :=
  { s with launches := s.launches.map (fun l => if l.id == n then f l else l) }

/- ### Restores (R181, R370) -/

/-- A group comes back. -/
def State.restoreGroup (s : State) (k : GKey) : State :=
  match s.group? k with
  | none => s
  | some g => s.modGroup k (fun x => { x with resident := true, slot := s.freeSlot g.pkey, heldSince := none })

/-- The matrix state of a context comes back to a partition. DESIGN CHOICE (log 102): it takes the place of the state that groups of
the context have begun on there meanwhile; R180 and R181 do not say how the two join. -/
def State.restoreMx (s : State) (p : PKey) (ctx : Nat) : State :=
  s.modPart p (fun x =>
    match x.mxSaved.find? (fun m => m.ctx == ctx) with
    | some m => { x with mx := some m, mxSaved := x.mxSaved.filter (fun m => m.ctx != ctx) }
    | none => if x.mx.isNone then { x with mx := some (Mx.fresh ctx) } else x)

/-- PARTY_RESTORE (R370). -/
def execPartyRestore (core : CKey) (s : State) : Host.Outcome State Fault Refusal :=
  match s.restorable core with
  | none => .refused .eventNotEnabled
  | some e =>
    let s1 := ({ s with evicted := s.evicted.filter (fun x => x != e) }.restoreMx e.pkey e.ctx)
    let s2 := e.keys.foldl State.restoreGroup s1
    .next (e.keys.foldl (fun s k => s.settle k) s2)

/- ### TEAM_PLACEMENT (R359 to R361, R367) -/

/-- A victim is out: its groups have left the core, and its matrix state with them where that goes. -/
def State.victimOut (s : State) (v : Victim) : Bool :=
  v.keys.all (fun k => match s.group? k with | some g => !g.holdsRegs || s.dumpDone g.ctx | none => true) &&
    (!v.mx || (match (s.part ⟨v.core.die, v.core.core, v.part⟩).mx with | some m => m.ctx != v.ctx | none => true))

/-- The next team of a launch takes the place decided for it. -/
def State.takePlace (s : State) (l : Launch) (p : Plan) (rest : List Plan) : State :=
  (s.placeTeam l l.next p.core p.cluster).modLaunch l.id (fun x => { x with plan := rest, next := l.next + 1 })

/-- TEAM_PLACEMENT (R359, R360): the next team goes to its place once the victims are out; a queued launch with no
place decided scans its list. No team comes to a core where an evicted party can be restored (R370). -/
def execTeamPlacement (launch : Nat) (s : State) : Host.Outcome State Fault Refusal :=
  match s.launch? launch with
  | none => .refused .eventNotEnabled
  | some l =>
    let d := l.d
    if s.halted l.ctx || d.nteams ≤ l.next then .refused .eventNotEnabled
    else match l.plan with
      | p :: rest =>
        if p.victims.all s.victimOut && s.roomNow.fits d l.ctx p.core && (s.restorable p.core).isNone then .next (s.takePlace l p rest) else .refused .eventNotEnabled
      | [] =>
        let cands := s.candidates d
        if l.resident then .refused .eventNotEnabled
        else match s.scan l cands false l.next l.ptr s.rooms [] cands.length with
          | some (b, ptr) =>
            match b.plans with
            | p :: rest =>
              if b.plans.any (fun p => (s.restorable p.core).isSome) then .refused .eventNotEnabled
              else .next ((s.takePlace l p rest).modLaunch launch (fun x => { x with ptr := ptr }))
            | [] => .refused .eventNotEnabled
          | none => .refused .eventNotEnabled

/- ### PARTIAL_EVICTION (R367 to R369) -/

/-- A group can be saved: its scoreboards read zero, it is in no handler with traps masked, and it is not about to issue
(R39, R368). A complete instance of its waits until it is restored (R101), as does one that its instruction holds (R303,
R306). -/
def State.savableNow (s : State) (g : Group) : Bool :=
  g.drained && g.inFlight.isEmpty && !g.checks && !g.mask && !g.susp &&
    (match s.issuing with | some i => !i.members.any (fun m => m.key == g.key) | none => true)

/-- A victim can be saved now, with the matrix unit's queue empty when its state goes (R368). -/
def State.victimReady (s : State) (v : Victim) : Bool :=
  !s.victimOut v && !s.halted v.ctx &&
    (v.keys.filterMap s.group?).all (fun g => !g.resident || g.live == 0 || s.savableNow g) &&
    (!v.mx || (match (s.part ⟨v.core.die, v.core.core, v.part⟩).mx with | some m => m.queue.isEmpty | none => true))

/-- The save area of a context takes `n` bytes more: what stands there the spec does not lay out, so each byte is a free value
(R368, R369). -/
def State.writeSave (s : State) (ctx n : Nat) : State :=
  match s.ctx? ctx with
  | none => s
  | some c => { s with mem := Memory.store s.mem (c.save + s.saveTaken ctx []) ((List.range n).map (Config.saveImage s.tick)) }

/-- The instructions of a group's instances have not held it since. -/
def State.unholdInstances (s : State) (k : GKey) : State :=
  { s with instances := s.instances.map (fun (i : Instance) => if i.iss.members.any (fun m => m.key == k) then { i with held := false } else i) }

/-- A group goes out: its fetched steps are dropped, and a get that waits gives up its place, to be held anew after the restore
(R369). -/
def State.saveGroup (s : State) (k : GKey) : State :=
  match s.group? k with
  | none => s
  | some g =>
    ((s.writeSave g.ctx (Config.saveBytes g.nv g.ns g.ny)).modGroup k (fun g =>
      { g.dropAhead with resident := false, slot := none, heldSince := none, outgoing := false, yielding := false })).modCtx g.ctx (fun c =>
        { c with mailboxes := c.mailboxes.map (fun m => { m with waiting := m.waiting.filter (fun x => x != k) }) })
    |>.unholdInstances k

/-- The matrix state of a context is saved, where the unit holds it (R181, R368). -/
def State.saveMx (s : State) (p : PKey) (ctx : Nat) : State :=
  match (s.part p).mx with
  | some m =>
    if m.ctx = ctx then
      (s.writeSave ctx (Config.saveMx (colsOf p.die))).modPart p (fun x => { x with mx := none, mxSaved := x.mxSaved ++ [m] })
    else s
  | none => s

/-- The group is saved with those of its victim that are out already: they come back together (R181, R370), in the place of the
oldest. -/
def joinEvicted (v : Victim) (k : GKey) (es : List Evicted) : List Evicted :=
  let theirs := es.filter (fun e => e.keys.any v.keys.contains)
  match theirs with
  | [] => es ++ [⟨[k], v.core, v.part, v.ctx⟩]
  | o :: _ => es.filterMap (fun e =>
      if e == o then some { e with keys := theirs.flatMap (·.keys) ++ [k] }
      else if theirs.contains e then none
      else some e)

/-- The next group of a victim goes out, one at a time, so that a halt stops the eviction after the group in progress (R371);
the matrix state goes with the first (R368). -/
def State.saveVictim (s : State) (v : Victim) : State :=
  let s1 := match v.keys.find? (fun k => match s.group? k with | some g => g.resident && g.live != 0 | none => false) with
    | some k => let t := s.saveGroup k; { t with evicted := joinEvicted v k t.evicted }
    | none => s
  if v.mx then s1.saveMx ⟨v.core.die, v.core.core, v.part⟩ v.ctx else s1

/-- PARTIAL_EVICTION (R367, R368): a group of a victim of a launch that is ready goes out; a queued launch whose next team fits
no core chooses the victims for it. -/
def execPartialEviction (launch : Nat) (s : State) : Host.Outcome State Fault Refusal :=
  match s.launch? launch with
  | none => .refused .eventNotEnabled
  | some l =>
    let d := l.d
    if s.halted l.ctx then .refused .eventNotEnabled
    else match l.plan with
      | p :: rest =>
        match ((p :: rest).flatMap (·.victims)).find? s.victimReady with
        | some v => .next (s.saveVictim v)
        | none => .refused .eventNotEnabled
      | [] =>
        let cands := s.candidates d
        if l.resident || d.nteams ≤ l.next || (s.scan l cands false l.next l.ptr s.rooms [] cands.length).isSome then
          .refused .eventNotEnabled
        else match s.scan l cands true l.next l.ptr s.rooms [] cands.length with
          | some (b, ptr) => .next (s.modLaunch launch (fun x => { x with plan := b.plans, ptr := ptr }))
          | none => .refused .eventNotEnabled

/-- clk that an eviction waits for a handler's RTE (R346, R368). -/
def overrunClk : Nat := 65536

/-- The wait for the RTE of a group in its handler has passed its bound: no RTE of it issues any more. -/
def State.overran (s : State) (g : Group) : Bool :=
  s.awaitsRte g && g.resident && !s.halted g.ctx && g.rteWait.any (fun t => t + overrunClk ≤ s.now g.ctx)

/-- HANDLER_OVERRUN (R346, R368): the victim context halts, its record naming the group. -/
def execHandlerOverrun (k : GKey) (s : State) : Host.Outcome State Fault Refusal :=
  match s.group? k with
  | none => .refused .eventNotEnabled
  | some g =>
    if !s.overran g then .refused .eventNotEnabled
    else
      let f : FaultInfo :=
        { scope := .lane, code := .handlerOverrun, pc := g.hpc, reg := 0, addr := 0, lanes := [(k, 0)],
          arrived := [(k, g.arrived)], next := g.faultNext, pos := g.faultPos }
      let s1 := s.writeFaultRegs f 0
      let r := match s1.group? k with | some g => g.faultRec s.clk | none => FaultRec.blank
      .next (s1.haltCtx g.ctx 5 r)

/- ### The active set (R364, R365) -/

/-- One of the groups, which the spec leaves open. -/
def State.anyOf (s : State) (gs : List Group) : Option Group := gs[Config.choose s.tick gs.length % gs.length]?

/-- PENDING_GROUP_ENTRY (R365): a pending group takes a free active slot. -/
def execPendingGroupEntry (p : PKey) (s : State) : Host.Outcome State Fault Refusal :=
  match s.freeSlot p, s.anyOf (s.entrants p) with
  | some i, some q => .next (s.modGroup q.key (fun g => { g with slot := some i }))
  | _, _ => .refused .eventNotEnabled

/-- Among stalled groups, the one that goes out: the lowest priority, then the one that issued longest ago. -/
def firstOut (s : State) : List Group → Option Group
  | [] => none
  | g :: t => match firstOut s t with
    | none => some g
    | some h =>
      some (if s.prio g.ctx < s.prio h.ctx || (s.prio g.ctx = s.prio h.ctx && g.lastIssue ≤ h.lastIssue) then g else h)

/-- Two groups change places. -/
def State.swapSlots (s : State) (out in_ : Group) : State :=
  (s.modGroup out.key (fun g => { g with slot := none, outgoing := false })).modGroup in_.key (fun g =>
    { g with slot := out.slot })

/-- GROUP_EXCHANGE (R365): a stalled group whose scoreboards read zero goes out for a pending one that can enter; where
none is stalled, one that ended a YIELD clause goes out for one of higher priority. -/
def execGroupExchange (p : PKey) (s : State) : Host.Outcome State Fault Refusal :=
  let outs := (s.active p).filter (fun g => g.drained && !s.stopsFor g && !s.halted g.ctx)
  if (s.freeSlot p).isSome then .refused .eventNotEnabled
  else match s.anyOf (s.entrants p), firstOut s (outs.filter s.stalled) with
    | some q, some g => .next (s.swapSlots g q)
    | _, _ =>
      match outs.find? s.goingOut with
      | some g =>
        match s.anyOf ((s.entrants p).filter (fun q => s.prio g.ctx < s.prio q.ctx)) with
        | some q => .next (s.swapSlots g q)
        | none => .refused .eventNotEnabled
      | none => .refused .eventNotEnabled

end Sys2Proof.Machine
end

