-- ==== Sys2Proof/Machine/Launch.lean ====
section
/-! DEFINITION. A context as a descriptor gives it (R382), the one that keldb creates (R394), the buffers that the loader creates (R51),
the options of keldb (R351, R354, R372), and LAUNCH (R357, R362). -/

namespace Sys2Proof.Machine

/- ### The context descriptor (R382) -/

/-- Device memory, 1,536 GiB (R378). -/
def deviceBytes : Nat := 1536 * 2 ^ 30

/-- An area of a context is aligned to a frame and lies in device memory (R382). -/
def areaOk (base len : Nat) : Bool := base % 65536 == 0 && base < deviceBytes && base + len ≤ deviceBytes

/-- The reserved fields of a context descriptor are zero, and its areas lie in device memory (R382). -/
def ctxDescOk (d : Nat) : Bool :=
  fld d 22 42 == 0 && !bitOf d 19 && [120, 184, 248, 312, 376].all (fun b => fld d b 8 == 0) && fld d 480 32 == 0 &&
    areaOk (fld d 64 56) 1024 && areaOk (fld d 128 56) 8192 && areaOk (fld d 192 56) (fld d 384 32 * 65536) &&
    areaOk (fld d 256 56) (fld d 416 32 * 65536) && areaOk (fld d 320 56) (fld d 448 32 * 65536)

/-- A context as its descriptor gives it (R320, R329, R382). -/
def Ctx.ofDesc (d : Nat) : Ctx :=
  { num := fld d 0 16, flags := BitVec.ofNat 32 (fld d 16 6), trapvec := 0, wintab := fld d 64 56, mbtab := fld d 128 56,
    annex := fld d 192 56, save := fld d 256 56, dump := fld d 320 56, annexLen := fld d 384 32, saveLen := fld d 416 32,
    dumpLen := fld d 448 32, annexFull := false, touched := 0, halt := none, destroying := false, stopped := false, stopAt := 0, breaks := [],
    mailboxes := [], cvs := [], seghold := none, segUsed := [] }

/-- A cell of memory as a mailbox table at an address leaves it that a context takes into use: COUNT, DROPS and the reserved fields
are at their reset value 0 (R304). -/
def mbStart (tab : Nat) (c : Nat × Byte) : Option (Nat × Byte) :=
  let keep := if tab ≤ c.1 && c.1 < tab + 8192 then (match (c.1 - tab) % 8 with | 0 => c.2 | 1 => c.2 &&& 1 | _ => 0) else c.2
  if keep = 0 then none else some (c.1, keep)

/- ### The context of a keldb launch (R394) -/

/-- Every byte of a range of a frame reads zero, with no error and in no copy; `a` holds the tier in its high part. -/
def State.wipe (s : State) (a n : Nat) : State :=
  let lo := cxlAddr a
  let s1 := if tierOf a = 0 then { s with mem := s.mem.filter (fun c => c.1 < a || a + n ≤ c.1) }
    else { s with hostMem := s.hostMem.filter (fun c => c.1 < lo || lo + n ≤ c.1) }
  { s1 with
    poison := s.poison.filter (fun c => c * 32 < a || a + n ≤ c * 32)
    readCopies := s.readCopies.filter (fun c => c.line * 256 < a || a + n ≤ c.line * 256)
    dirty := s.dirty.filter (fun c => c.line * 256 < a || a + n ≤ c.line * 256) }

/-- Groups that a launch has. -/
def TDesc.groups (d : TDesc) : Nat := d.nteams * d.ngrp

/-- Bytes that the dump of a launch can need (R336 to R339): its groups, each on a partition and of a team of its own at most, a core
for each team, and the stop records of groups, matrix units, and the two sorts of tags of each core. -/
def TDesc.dumpBytes (d : TDesc) : Nat :=
  336 + 5 * 256 + d.groups * (1856 + 4 * d.sregs + 256 * (d.vregs + d.yregs)) + d.nteams * (8 + 32 * 16384) +
    d.groups * (36 + 4 + 4 + 4 * 24) + d.nteams * (4 + 64 * 32) + 64 * (2 * d.groups + 128 * d.nteams)

/-- Bytes that the save area of a launch can need (R368, R369). -/
def TDesc.saveBytes (d : TDesc) : Nat :=
  d.groups * (Config.saveBytes d.vregs d.sregs d.yregs + Config.saveMx (colsOf 0) + Config.saveMx (colsOf 4))

/-- The descriptor that keldb fills (R394). DESIGN CHOICE (log 116): a dump or a save area that the loader gives is as long as it
gives it, and never shorter than the launch can need. -/
def keldbCtx (k : KeldbReq) (n : Nat) (d : TDesc) : Ctx :=
  { num := n, flags := BitVec.ofNat 32 (4 + 2 * b2n k.nomark + 16 * (k.prio % 4)), trapvec := 0, wintab := k.wintab, mbtab := k.mbtab
    annex := k.annex, save := k.save, dump := k.dump, annexLen := 1024, saveLen := max k.saveLen (cdiv d.saveBytes 65536),
    dumpLen := max k.dumpLen (cdiv d.dumpBytes 65536), annexFull := false, touched := 0, halt := none, destroying := false
    stopped := false, stopAt := 0, breaks := [], mailboxes := [], cvs := [], seghold := none, segUsed := [] }

/-- The areas of a context lie in device memory, with a dump area among them. -/
def Ctx.areasOk (c : Ctx) : Bool :=
  c.dump != 0 && areaOk c.wintab 1024 && areaOk c.mbtab 8192 && areaOk c.annex (c.annexLen * 65536) &&
    areaOk c.save (c.saveLen * 65536) && areaOk c.dump (c.dumpLen * 65536)

/-- The `mbox` option names mailboxes that there are, none twice (R394). -/
def mboxOk (ms : List MboxReq) : Bool :=
  ms.all (fun m => m.q ≤ 1023 && m.home ≤ 7 && m.logDepth ≤ 12) && (ms.map (·.q)).Nodup

/-- keldb can create the context of a launch under its number (R382, R394). -/
def ctxOk (r : LaunchReq) (s : State) : Bool :=
  match r.keldb with
  | none => true
  | some k => 0 < r.ctx && r.ctx ≤ 4095 && (s.ctx? r.ctx).isNone && mboxOk k.mbox && (keldbCtx k r.ctx r.desc).areasOk

/-- The entry of a mailbox (R304, R394). -/
def mboxWord (m : MboxReq) : Nat := 1 + 2 * m.home + 16 * m.logDepth + 256 * b2n m.host

/-- The context of a keldb launch, with no window and the mailboxes of `mbox` (R394). -/
def State.makeCtx (s : State) (r : LaunchReq) : State :=
  match r.keldb with
  | none => s
  | some k =>
    let s1 := (s.wipe k.wintab 1024).wipe k.mbtab 8192
    let s2 := k.mbox.foldl (fun (s : State) m => { s with mem := Memory.store s.mem (k.mbtab + 8 * m.q) (leBytes 8 (mboxWord m)) }) s1
    { s2 with ctxs := s2.ctxs ++ [keldbCtx k r.ctx r.desc] }

/- ### The buffers of a launch (R51, R351, R354, R372) -/

def sortKind : BufSort → Nat
  | .plain => 0 | .readOnly => 0 | .versioned _ => 1 | .sync => 2

/-- RD, WR, AT, VR and IP (R51). -/
def sortRights : BufSort → Nat
  | .plain => 0b10111 | .readOnly => 0b00001 | .sync => 0b00111 | .versioned _ => 0b01000

def sortReps : BufSort → Nat
  | .versioned n => n
  | _ => 0

/-- REP0 to REP2 of an entry. -/
def Entry.putReps (e : Entry) (ds : List Nat) : Entry := ds.zipIdx.foldl (fun e x => e.put (450 + 3 * x.2) 3 x.1) e

/-- The entry of a declared buffer (R51, R202): SMAP and RMAP are 0. -/
def bufEntry (b : BufReq) (ctx : Nat) : Entry :=
  let fs : List (Nat × Nat × Nat) :=
    [(0, 56, b.vbase), (56, 1, 1), (64, 24, b.lines), (96, 5, sortRights b.sort), (104, 2, sortKind b.sort), (106, 1, b2n b.gathered),
      (112, 16, ctx), (128, 4, b.stk0), (132, 5, b.nstk), (137, 11, b.cbase), (224, 56, b.pmap), (448, 2, sortReps b.sort)]
  (fs.foldl (fun (e : Entry) x => e.put x.1 x.2.1 x.2.2) 0).putReps b.reps

/-- The frames of a buffer's data placement that are PRESENT: the first offset in each, and its place. -/
def State.presentFrames (s : State) (e : Entry) : List (Nat × Nat) :=
  (List.range (cdiv e.len 65536)).filterMap (fun f =>
    let d := s.descr e 0 (f * 65536)
    if dPresent d then some (f * 65536, physAddr d 0) else none)

/-- What a frame of a new buffer holds: a SYNC buffer reads zero, one with a section holds it in whole lines of it (R50, R51). -/
def State.fillFrame (s : State) (b : BufReq) (e : Entry) (off a : Nat) : State :=
  let n := min 65536 (e.len - off)
  let img := (b.image.drop off).take n
  match b.sort with
  | .sync => s.wipe a n
  | .versioned _ => s
  | _ => if img.isEmpty then s else (s.wipe a (cdiv img.length 256 * 256)).putBytes .dev a img

/-- The loader creates a buffer (R51): its entry, its frames the context's (R206), its contents, and of a VERSIONED one no sibling. -/
def State.makeBuffer (ctx : Nat) (s : State) (b : BufReq) : State :=
  let e := bufEntry b ctx
  let s1 := (s.dropObjects b.idx).setEntry b.idx e
  match b.sort with
  | .versioned _ => s1
  | _ => (s1.presentFrames e).foldl (fun s x => (s.ownFrame ctx (frameKey x.2)).fillFrame b e x.1 x.2) s1

/-- A buffer that `home`, `rowmap` or `rep` names is declared. -/
def declares (r : LaunchReq) (idx : Nat) (p : BufSort → Bool) : Bool := r.buffers.any (fun b => b.idx == idx && p b.sort)

/-- Every buffer that `home` names is declared, and its stack exists (R372). -/
def homeOk (r : LaunchReq) : Bool := r.home.all (fun x => declares r x.1 (fun _ => true) && x.2 ≤ 15)

/-- `rep` gives as many dies as the VERSIONED buffer has replicas, all distinct (R351). -/
def repOk (r : LaunchReq) : Bool :=
  r.rep.all (fun x => declares r x.1 (fun k => k == .versioned x.2.length) && x.2.Nodup && x.2.all (· < 8))

/-- Every row map that a launch prepares is of a declared PLAIN buffer, with a row size that R202 allows (R354). -/
def rowMapsOk (r : LaunchReq) : Bool :=
  r.rowmaps.all (fun x => declares r x.buf (fun k => sortKind k == 0) && 8 ≤ x.shift && x.shift ≤ 23)

/-- `home` puts the whole of a buffer on one stack (R372): STK0, NSTK 1 and CBASE 0. -/
def State.homeBuffers (s : State) (r : LaunchReq) : State :=
  r.home.foldl (fun s x => s.setEntry x.1 ((((s.entry x.1).put 128 4 x.2).put 132 5 1).put 137 11 0)) s

/-- `rep` writes the replica dies of a buffer (R351). -/
def State.repBuffers (s : State) (r : LaunchReq) : State :=
  r.rep.foldl (fun s x => s.setEntry x.1 ((s.entry x.1).putReps x.2)) s

/-- `rowmap` prepares a buffer (R354): RMAP, RSHIFT, RMLEN and RMSEL 0, both copies with word r holding r, and a shadow placement that
names the frames of the data placement. -/
def State.rowMap (s : State) (x : RowMapReq) : State :=
  let e := s.entry x.buf
  let e1 := (((((e.put 352 56 x.area).put 420 5 x.shift).put 408 12 (min (e.len / 2 ^ x.shift) 4096 - 1)).put 425 1 0).put 288 56 x.map)
  let ws := (List.range 4096).flatMap (fun r => leBytes 4 r)
  ((s.setEntry x.buf e1).putMem x.area (ws ++ ws)).putMem x.map (Memory.bytes s.mem e.pmap (8 * cdiv e.len 65536))

/-- The buffers of a launch as the loader and keldb's options leave them. -/
def State.makeBuffers (s : State) (r : LaunchReq) : State :=
  let s1 := r.buffers.foldl (State.makeBuffer r.ctx) s
  r.rowmaps.foldl State.rowMap ((s1.homeBuffers r).repBuffers r)

/- ### LAUNCH (R357, R362) -/

/-- Nothing is issued. -/
def State.refuseLaunch (s : State) : State := { s with refusedLaunches := s.refusedLaunches + 1 }

/-- keldb finds nothing to report in a launch (R351, R354, R372, R394). -/
def launchOk (r : LaunchReq) (s : State) : Bool := homeOk r && repOk r && rowMapsOk r && ctxOk r s

/-- The launch of a request; keldb uses the resident form alone (R362). -/
def launchOf (r : LaunchReq) (id : Nat) : Launch :=
  { id := id, ctx := r.ctx, desc := r.desc, codeBase := r.codeBase, codeLen := r.codeLen, inits := r.inits, place := r.place
    next := 0, ptr := 0, resident := r.resident || r.keldb.isSome, plan := [] }

/-- LAUNCH (R51, R351, R354, R356, R357, R362, R394): a queued launch waits for its placement, a resident one has it whole or is
refused. -/
def execLaunch (r : LaunchReq) (s0 : State) : Host.Outcome State Fault Refusal :=
  let s := (s0.makeCtx r).makeBuffers r
  let l := launchOf r s.nextLaunch
  if !launchOk r s0 then .next s0.refuseLaunch
  else if s.halted r.ctx || !l.d.ok then .next s.refuseLaunch
  else
    let add := fun (s : State) (l : Launch) =>
      ({ s with launches := s.launches ++ [l], nextLaunch := s.nextLaunch + 1 }).modCtx r.ctx (fun c =>
        { c with seghold := r.seghold, segUsed := [] })
    if !l.resident then .next (add s l)
    else match s.placeAll l (s.candidates l.d) (l.d.nteams / l.d.block) 0 0 s.rooms [] with
      | none => .next s.refuseLaunch
      | some (ps, ptr) => .next (add s { l with plan := ps, ptr := ptr })

end Sys2Proof.Machine
end

