-- ==== Sys2Proof/Machine/Events.lean ====
section
/-! DEFINITION. Steps of a group that no instruction word encodes: the fetch and check of a clause (R24, R25, R41, R63),
fetched stream steps (R88), the issue of a complete instance (R98), results and checks that arrive (R37, R319), a read
copy that goes (R211), and a word that decodes to no instruction (R40, R42). -/

namespace Sys2Proof.Machine

/- ### Clause checks (R25, R41) -/

/-- The Lat column of the opcode map reads V for an assigned OP and FN (R40). -/
def latVar (op fn : Nat) : Bool :=
  match op with
  | 0x07 => fn == 0
  | 0x11 => true
  | 0x28 => true
  | 0x29 => true
  | 0x3A => true
  | 0x3B => true
  | 0x3C => true
  | 0x4E => true
  | 0x4F => true
  | 0x55 => true
  | 0x60 => true
  | 0x62 => true
  | 0x64 => true
  | 0x68 => true
  | 0x70 => fn == 1
  | 0x73 => fn == 1
  | 0x74 => true
  | 0x76 => fn == 0
  | 0x7A => fn == 0 || fn == 1
  | 0x7C => true
  | 0x7D => true
  | 0x7E => (fn ≤ 0x0B && fn != 0x05) || fn == 0x0F || fn == 0x10
  | 0x7F => fn == 4
  | _ => false

/-- Control transfers by assigned OP and FN (R25). -/
def isTransfer (op fn : Nat) : Bool :=
  op == 0x01 || op == 0x02 || op == 0x03 || (op == 0x06 && fn == 2) ||
    (op == 0x7F && (fn ≤ 3 || fn == 6))

/-- One instruction of a clause is where it may stand. -/
def clauseWordOk (cls sb : Nat) (last : Bool) (w : Word) : Bool :=
  match classOf (wOp w) with
  | none => true
  | some c => (c == cls || (last && c == 4)) && (!fnAssigned (wOp w) (wFn w) ||
    ((last || !isTransfer (wOp w) (wFn w)) && (sb != 7 || !latVar (wOp w) (wFn w))))

def clauseWordsOk (cls sb : Nat) : List Word → Bool
  | [] => true
  | w :: t => clauseWordOk cls sb t.isEmpty w && clauseWordsOk cls sb t

/-- A clause that passes the checks of R41; words past the image are not of the clause (R63). -/
def State.clauseOk (s : State) (g : Group) (pc : Word) : Bool :=
  let h := s.codeWord g pc
  hdrN h != 0 && hdrSb h != 6 && hdrRest h == 0 &&
    clauseWordsOk (hdrCls h) (hdrSb h) (((s.instrs g (pc + 4) (hdrN h)).1.filter (fun x => s.inImage g x.1)).map (·.2))

/-- A lane's counter would pass the last word of the code image: it stands past it, or its instruction has an operand word
past it (R63). -/
def State.pastImage (s : State) (g : Group) (pc : Word) (inClause : Bool) : Bool :=
  !s.inImage g pc || (inClause && s.codeLen g < pc.toNat + instrBytes (s.codeWord g pc))

/-- Lanes whose counters would pass the image stand at the first address past it, and fault there (R63). -/
def State.toImageEnd (s : State) (g : Group) (lanes : Mask) : State :=
  let e := BitVec.ofNat 32 (s.codeLen g)
  s.modGroup g.key (fun g => if g.inh then { g with hpc := e, hpos := none } else g.moveLanes lanes e none)

/-- A fault of lanes that stand at an address, with no instruction (R41, R63). -/
def placeFault (g : Group) (lanes : Mask) (code : FaultCode) (pc next : Word) : FaultInfo :=
  { scope := .lane, code := code, pc := pc, reg := 0, addr := if code == .addrBounds then pc.zeroExtend 64 else 0,
    lanes := [(g.key, lanes)], arrived := [(g.key, lanes)], next := next, pos := none }

/-- CLAUSE_FETCH (R41, R63): a header is checked, and the lanes at it come to the first instruction. -/
def execClauseFetch (k : GKey) (s : State) : Host.Outcome State Fault Refusal :=
  match s.group? k with
  | none => .refused .eventNotEnabled
  | some g =>
    match g.nextPoint with
    | none => .refused .eventNotEnabled
    | some (pc, pos) =>
      let lanes := if g.inh then 0 else g.pointLanes pc
      let next := (s.instrs g (pc + 4) (hdrN (s.codeWord g pc))).2
      if s.pastImage g pc pos.isSome then
        let e := BitVec.ofNat 32 (s.codeLen g)
        .next (((s.toImageEnd g lanes).takeFault (placeFault g lanes .addrBounds e (e + 4))).settle k)
      else if pos.isSome then .refused .eventNotEnabled
      else if !s.clauseOk g pc then .next ((s.takeFault (placeFault g lanes .illegalEnc pc next)).settle k)
      else
        let p : ClausePos := ⟨pc, hdrN (s.codeWord g pc)⟩
        .next (s.modGroup k (fun g =>
          if g.inh then { g with hpc := pc + 4, hpos := some p } else (g.moveLanes lanes (pc + 4) (some p)).normLevels))

/-- UNASSIGNED_ENCODING (R40, R42, R43): the instruction at hand decodes to none; every lane that stands there faults. -/
def execUnassignedEncoding (_w : Word) (s : State) : Host.Outcome State Fault Refusal :=
  match s.cur.members with
  | m :: _ => .next ((s.takeFault (s.pointFault .illegalEnc 0 0)).settle m.key)
  | [] => .refused .eventNotEnabled

/- ### Streams, instances, results -/

/-- STREAM_PREFETCH (R88): a walk's next step is fetched ahead of its read, but not from a line in transit (R228). -/
def execStreamPrefetch (k : GKey) (q : QReg) (s : State) : Host.Outcome State Fault Refusal :=
  match s.group? k with
  | none => .refused .eventNotEnabled
  | some g =>
    match regQ g q.toNat with
    | none => .refused .eventNotEnabled
    | some b =>
      if b.empty || !g.resident || s.qTransit g b then .refused .eventNotEnabled else .next (s.qFetch k q.toNat b)

/-- The groups whose residence an instance waits for: every live member of its scope (R101). -/
def State.instanceGroups (s : State) (i : Issue) : List Group :=
  match i.members.head?.bind (fun m => s.group? m.key) with
  | some g => (s.members g i.scope).filter (fun x => x.live != 0)
  | none => []

/-- Every member of an instance is resident (R101), and neither a clk, the STALL of a member's last issue (R35), a halt line, a debug stop, an eviction nor anything of its groups'
own stands against its issue, but for a single step (R37, R98, R319, R321, R331, R332, R334, R368); one that takes its partition's
turn waits for it, in a group of the active set (R364). -/
def State.instanceFree (s : State) (i : Instance) : Bool :=
  i.due ≤ s.clk && s.issuing.isNone && (s.instanceGroups i.iss).all (·.resident) &&
    (i.iss.members.filterMap (fun m => s.group? m.key)).all (fun g => g.resident && g.nextIssue ≤ s.clk && s.groupReady i.iss.pos g && !s.stopsFor g &&
      !s.lineAt g.ctx g.core.die && (!g.dstop || i.step) &&
      (!i.iss.ordinary || (g.slot.isSome && !s.goingOut g && decide ((s.part g.pkey).freeAt ≤ s.clk))))

/-- An instance may issue now. -/
def State.instanceMay (s : State) (i : Instance) : Bool :=
  s.instanceFree i && !s.entersLater i.iss

/-- INSTANCE_ISSUE (R98): a complete instance issues next. -/
def execInstanceIssue (n : Nat) (s : State) : Host.Outcome State Fault Refusal :=
  match s.instances[n]? with
  | none => .refused .eventNotEnabled
  | some i =>
    if s.instanceMay i then .next { s with issuing := some i.iss, instances := s.instances.eraseIdx n }
    else .refused .eventNotEnabled

/-- RESULT_WRITE (R37): a variable-latency instruction, its pending accesses performed, has written all its registers, and its
scoreboard falls. -/
def execResultWrite (k : GKey) (n : Nat) (s : State) : Host.Outcome State Fault Refusal :=
  match (s.group? k).bind (fun g => g.inFlight[n]?) with
  | none => .refused .eventNotEnabled
  | some e =>
    if e.due.isSome || e.token.isSome then .refused .eventNotEnabled
    else
      let s1 := s.performIssue k e.issue
      let ws := match (s1.group? k).bind (fun g => g.inFlight[n]?) with | some e1 => e1.writes | none => e.writes
      .next ((s1.modGroup k (fun g => Write.applyAll { g with
        inFlight := g.inFlight.eraseIdx n
        sb := modAt g.sb e.sb (fun x => x - 1) } ws)).settle k)

/-- CHECKS_DECIDED (R319): every lane's checks have returned, those of a load of device memory with its data read, and those of an
in-place lane from the step that performs it (R238). -/
def execChecksDecided (k : GKey) (s : State) : Host.Outcome State Fault Refusal :=
  match s.group? k with
  | none => .refused .eventNotEnabled
  | some g =>
    if !g.checks then .refused .eventNotEnabled
    else match g.deciding with
      | some d => .next (s.decideChecks d)
      | none => .next ((s.devLoadsFirst k allLanes).modGroup k (fun g => { g with checks := false }))

/-- READ_COPY_EXPIRY (R211): a die cache gives up a read copy. -/
def execReadCopyExpiry (die line : Nat) (s : State) : Host.Outcome State Fault Refusal :=
  if (s.readCopy die line).isSome then
    .next { s with readCopies := s.readCopies.filter (fun c => !(c.die == die && c.line == line)) }
  else .refused .eventNotEnabled

end Sys2Proof.Machine
end

