-- ==== Sys2Proof/Machine/Tables.lean ====
section
/-! DEFINITION. The activation tables: FACT, TBLSEL, TBLLD (R161 to R165) and the event that ends a load. -/

namespace Sys2Proof.Machine

/-- Bytes of a bank (R161). -/
def tableBytes : Nat := 3088

/-- An FP32 word of a bank at a byte offset. -/
def ActBank.f32 (b : ActBank) (off : Nat) : FV :=
  fpDecode fmtF32 (leNat ((List.range 4).map (fun j => Sparse.get (0 : Byte) b.bytes (off + j))))

def State.bankOf (s : State) (g : Group) : ActBank := nth .fresh (s.core g.core).tables (b2n g.bank)

/-- One FP32 rounding under .rne, its flags dropped (R162). -/
def rne32 (x : FV × Fl) : FV := fpDecode fmtF32 (fpRound fmtF32 .rne false 0 x.1).1

/-- Segment and offset of a value inside the table's range: `t` is finite, at least 0 and below 256 (R162). -/
def tableSeg (t : FV) : Nat × FV :=
  match t with
  | .fin _ m e =>
    if 0 ≤ e then (shiftUp m e.toNat, .fin false 0 0)
    else (m / 2 ^ (-e).toNat, .fin false (m % 2 ^ (-e).toNat) e)
  | _ => (0, .fin false 0 0)

/-- x < y, false where one is NaN (R162). -/
def fvBelow (x y : FV) : Bool := !x.isNan && !y.isNan && fvLt x y

/-- The table has no segment for t: NaN, or below 0. -/
def noSegment (t : FV) : Bool := t.isNan || fvBelow t (.fin false 0 0)

/-- FACT's value (R162). Where the table's words make t NaN or negative the spec states no y: it is a free value of x and t
(assumption 86). -/
def factOp (b : ActBank) (f : FFmt) (x : FV) : Nat × Fl :=
  match x with
  | .nan sg => (f.nan, if sg then flNV else flNone)
  | _ =>
    let y :=
      if fvBelow x (b.f32 0) then b.f32 8
      else
        let t := rne32 (fvMul (rne32 (fvAdd .rne x (b.f32 0).negate)) (b.f32 4))
        if noSegment t then fpDecode fmtF32 (Config.factOpen (widen32 x) (widen32 t)).toNat
        else if !fvLt t (.fin false 256 0) then b.f32 12
        else
          let j := tableSeg t
          let k := fun (n : Nat) => b.f32 (16 + 12 * j.1 + 4 * n)
          rne32 (fvFma .rne j.2 (rne32 (fvFma .rne j.2 (k 2) (k 1))) (k 0))
    ((fpRound f .rne false 0 y).1, flNone)

/-- A load waits or runs on a bank of a core (R164). -/
def State.loadOn (s : State) (k : CKey) (bank : Nat) : Bool :=
  (s.core k).loads.any (fun l => l.bank == bank && !l.done)

/-- Mark the newest result of a group as a FACT's on its bank (R164). -/
def Group.markFact (g : Group) : Group :=
  match g.inFlight.getLast? with
  | some e => { g with inFlight := g.inFlight.dropLast ++ [{ e with bank := some (b2n g.bank) }] }
  | none => g

/-- FACT's effect (R162, R164): it is held while a load into its bank waits or runs; a bank of another owner faults in
every executing lane of the group, but where the source holds a marker, whose fault comes first (R146). -/
def factEff (c : Ctl) (ft : FT) (d a : Opd) (s : State) : Eff :=
  let xs := s.execs c
  if xs.any (fun x => s.loadOn x.1.core (b2n x.1.bank)) then .hold s
  else
    let bad := xs.filter (fun x => x.2 != 0 && (s.bankOf x.1).owner != some x.1.ctx)
    let bf := bad.flatMap (fun x =>
      let mk := if s.nomark x.1.ctx then [] else s.markerFaults x.1 d.isScalarDst x.2 [(1, a)]
      let left := x.2 &&& ~~~(faultLanesOf mk x.1.key)
      mk ++ (if left == 0 then [] else [LaneFault.mk x.1.key left .addrOwner 0 0]))
    let ms := s.cur.members
    let s0 := { s with cur := { s.cur with members := ms.map (fun m =>
      if bad.any (fun x => x.1.key == m.key) then { m with may := 0 } else m) } }
    let f := ftFmt ft
    let fin := fun (s1 : State) =>
      ms.foldl (fun s m => s.modGroup m.key Group.markFact) { s1 with cur := { s1.cur with members := ms } }
    match fpEff c none d (.run 1) [(1, a)] (fun s g =>
        { vec := fun _ => (s.fvec g 1 f a).map (factOp (s.bankOf g) f)
          scal := fun _ => factOp (s.bankOf g) f (s.fscal g 1 f a) }) s0 with
    | .done s1 => if bf.isEmpty then .done (fin s1) else .fault (fin s1) bf
    | .fault s1 fs => .fault (fin s1) (bf ++ fs)
    | other => other

/-- FACT (R162). -/
def execFact (c : Ctl) (ft : FT) (d a : Opd) (s : State) : Host.Outcome State Fault Refusal :=
  issue (.fact c ft d a) c s (factEff c ft d a)

/-- TBLSEL (R163). -/
def execTblsel (c : Ctl) (a : Opd) (s : State) : Host.Outcome State Fault Refusal :=
  issue (.tblsel c a) c s (fun s => onGroup c s (fun g _ e =>
    .done (if e == 0 then s else s.modGroup g.key (fun g => { g with bank := bitOf (s.scal g 1 0 a).toNat 0 }))))

/-- The load of a group at an instruction. -/
def isLoadOf (k : GKey) (pc : Word) (l : TblLoad) : Bool := l.key == k && l.pc == pc

/-- TBLLD's effect (R164): checked at issue, then the group is held until its load is complete. -/
def tblldEff (c : Ctl) (a : Opd) (bank : Fin 2) (s : State) : Eff :=
  onGroup c s (fun g m e =>
    let off := (s.scal g 1 0 a).toNat
    if e == 0 then .done s
    else match (s.core g.core).loads.find? (isLoadOf g.key s.cur.pc) with
      | some l =>
        if l.done then .done (s.modCore g.core (fun k => { k with loads := k.loads.filter (fun x => !isLoadOf g.key s.cur.pc x) }))
        else .hold s
      | none =>
        if off % 16 ≠ 0 then execFault s m e .addrMisalign 0 (BitVec.ofNat 64 off)
        else if 524288 < off + tableBytes then execFault s m e .addrBounds 0 (BitVec.ofNat 64 off)
        else if (s.core g.core).segRefused g.ctx off tableBytes then execFault s m e .addrOwner 0 (BitVec.ofNat 64 off)
        else .hold (s.modCore g.core (fun k =>
          { k.claim g.ctx off tableBytes with loads := k.loads ++ [⟨bank.val, off, g.ctx, g.key, s.cur.pc, false, false⟩] })))

/-- TBLLD (R164). -/
def execTblld (c : Ctl) (a : Opd) (bank : Fin 2) (s : State) : Host.Outcome State Fault Refusal :=
  issue (.tblld c a bank) c s (tblldEff c a bank)

/-- The first load of a bank that is not complete. -/
def firstLoad (ls : List TblLoad) (bank : Nat) : Option TblLoad := ls.find? (fun l => l.bank == bank && !l.done)

/-- A load may begin: no other resident group of the core selects the bank, and no FACT on it is outstanding (R164). -/
def State.loadMayStart (s : State) (k : CKey) (l : TblLoad) : Bool :=
  let gs := s.groups.filter (fun g => g.core == k && g.resident)
  gs.all (fun g => (g.key == l.key || g.live == 0 || b2n g.bank != l.bank) &&
    g.inFlight.all (fun e => e.bank != some l.bank))

/-- Begin the first load of a bank. -/
def State.startLoad (s : State) (k : CKey) (bank : Nat) : State :=
  match firstLoad (s.core k).loads bank with
  | none => s
  | some l =>
    if l.running || !s.loadMayStart k l then s
    else s.modCore k (fun c => { c with loads := c.loads.map (fun x => if x == l then { x with running := true } else x) })

/-- TBLLD_LOAD_COMPLETE (R164): the bank holds the bytes, its owner is the issuing context, and the group moves on. -/
def execTblldLoadComplete (k : CKey) (bank : Nat) (s : State) : Host.Outcome State Fault Refusal :=
  match firstLoad (s.core k).loads bank with
  | none => .refused .eventNotEnabled
  | some l =>
    if !l.running then .refused .eventNotEnabled
    else
      let c := s.core k
      let bs := (List.range tableBytes).foldl (fun m j =>
        Sparse.set (0 : Byte) m j (Sparse.get (0 : Byte) c.sp (l.off + j))) []
      .next ((s.setCore { c with
        tables := modAt c.tables bank (fun _ => ⟨some l.ctx, bs⟩)
        loads := c.loads.map (fun x => if x == l then { x with running := false, done := true } else x) }).modGroup l.key
          (fun g => { g with heldSince := none }))

end Sys2Proof.Machine
end

