-- ==== Sys2Proof/Machine/Halt.lean ====
section
/-! DEFINITION. Debug stops, steps and breakpoints (R331, R332, R348), the halt line (R334, R335), the loss of a die
(R343), and the dump (R336 to R340, R376). -/

namespace Sys2Proof.Machine

/- ### The debugger (R331, R332) -/

/-- DEBUG_STOP (R331). -/
def execDebugStop (ctx : Nat) (s : State) : Host.Outcome State Fault Refusal :=
  if (s.ctx? ctx).isSome then .next (s.debugStop ctx) else .refused .eventNotEnabled

/-- The times of a group that bounds are counted from, moved past a debug stop (R331). -/
def Group.afterStop (g : Group) (stopAt clk : Nat) : Group :=
  let f := Machine.afterStop stopAt clk
  { g with lastIssue := f g.lastIssue, heldSince := g.heldSince.map f, sbWait := g.sbWait.map f, rteWait := g.rteWait.map f }

/-- DEBUG_RESUME (R331): a group that has stopped at a breakpoint issues that instruction (R352). -/
def execDebugResume (ctx : Nat) (s : State) : Host.Outcome State Fault Refusal :=
  match s.ctx? ctx with
  | none => .refused .eventNotEnabled
  | some c =>
    if !c.stopped then .refused .eventNotEnabled
    else .next ((s.modCtx ctx (fun c => { c with stopped := false })).modGroups (fun g =>
      if g.ctx == ctx then { g.afterStop c.stopAt s.clk with dstop := false, stepOne := g.broke && s.atBreak g, broke := false } else g))

/-- What waits to issue for a group by itself: a replay, or an instance of GROUP scope. -/
def Instance.ownOf (i : Instance) (k : GKey) : Bool :=
  (i.iss.phase == .replay || i.iss.ordinary) && i.iss.members.any (fun m => m.key == k)

/-- SINGLE_STEP (R332): the group may issue once, what waits to issue for it first; one whose lanes are all blocked issues nothing. -/
def execSingleStep (k : GKey) (s : State) : Host.Outcome State Fault Refusal :=
  match s.group? k with
  | none => .refused .eventNotEnabled
  | some g =>
    if !g.dstop then .refused .eventNotEnabled
    else if s.instances.any (fun i => i.ownOf k) then
      .next { s.modGroup k (fun g => { g with stepOne := true }) with
        instances := s.instances.map (fun (i : Instance) => if i.ownOf k then { i with step := true } else i) }
    else .next (if g.nextPoint.isNone then s else s.modGroup k (fun g => { g with stepOne := true }))

/-- BREAKPOINT_SET (R331): a breakpoint is set or removed. -/
def execBreakpointSet (ctx : Nat) (addr : Word) (on : Bool) (s : State) : Host.Outcome State Fault Refusal :=
  if (s.ctx? ctx).isNone then .refused .eventNotEnabled
  else .next (s.modCtx ctx (fun c =>
    { c with breaks := c.breaks.filter (fun a => a != addr) ++ (if on then [addr] else []) }))

/- ### The halt line (R334, R335) -/

/-- The state after an event that is enabled, else the same. -/
def orSame (s : State) : Host.Outcome State Fault Refusal → State
  | .next t => t
  | _ => s

/-- Issue point of a group; where every lane waits, the lowest counter of a live lane (R339). -/
def Group.stopPoint (g : Group) : Word := (g.issuePoint.getD ((minPc g.pcs (lanesOf g.live)).getD 0xFFFFFFFF))

/-- The stop record of a group (R335). -/
def Group.stopRec (g : Group) (clk : Nat) : StopRec :=
  { kind := 1, die := g.core.die, unit := g.core.core, part := g.part, status := if g.lateFault then 2 else 0, pc := g.stopPoint,
    a := BitVec.ofNat 32 g.key.grp, b := BitVec.ofNat 32 g.key.team, c := g.live, d := 0, clk := clk }

/-- A queued instruction has started: an MMA that has done a pass (R200). -/
def MxEntry.started (e : MxEntry) : Bool := match e.op with | .mma _ _ _ _ _ _ _ _ _ pass => pass != 0 | _ => false

/-- The matrix unit of a partition stops: what has started ends, and the queue is discarded (R200, R334). -/
def State.stopMx (s : State) (ctx : Nat) (p : PKey) : State :=
  let s1 := match execMmaPass p s with
    | .next t => t
    | _ => orSame s (execArraySequenceStep p s)
  let s2 := orSame s1 (execWeightLoadComplete p s1)
  match (s2.part p).mx with
  | none => s2
  | some m =>
    if m.ctx != ctx then s2
    else
      let n := (m.queue.filter (fun e => !e.started)).length
      (s2.setMx p { m with queue := [], discarded := n }).addStop ctx
        { kind := 2, die := p.die, unit := p.core, part := p.part, status := 0, pc := m.lastPc, a := BitVec.ofNat 32 m.lastPasses,
          b := BitVec.ofNat 32 n, c := 0, d := 0, clk := s.clk }

/-- The unit of a partition holds state of a context. -/
def State.mxOf (s : State) (p : PKey) (ctx : Nat) : Bool := match (s.part p).mx with | some m => m.ctx == ctx | none => false

/-- The table loads of a context on a core stop: a running one completes (R164, R334). -/
def State.stopLoads (s : State) (ctx : Nat) (k : CKey) : State :=
  let runs := fun (s : State) (b : Nat) => match firstLoad (s.core k).loads b with | some l => l.ctx == ctx && l.running | none => false
  let s1 := [0, 1].foldl (fun s b => if runs s b then orSame s (execTblldLoadComplete k b s) else s) s
  s1.modCore k (fun c => { c with loads := c.loads.filter (fun l => l.ctx != ctx || l.done) })

/-- The copies of a context on a core stop: a held segment, and one partly written, is in flight (R261, R334, R374). -/
def State.stopCopies (s : State) (ctx : Nat) (k : CKey) : State :=
  let mine := fun (t : Tag) => t.ctx == ctx && t.op.isCopy && !t.done
  let s1 := s.modCore k (fun c => { c with tags := c.tags.map (fun t => if mine t then { t with stopped := true } else t) })
  ((s.core k).tags.filter (fun t => mine t && t.held.isNone && !t.mid)).foldl (fun s t => s.addStop ctx (t.stopRec k (t.stopped && t.err) s.clk)) s1

/-- Kicks of a context that met a lost die before the halt line came to their controllers' die (R334, R343). -/
def State.stopKicks (s : State) (ctx die : Nat) : State :=
  (s.cores.flatMap (fun c => c.tags.filter (fun t => t.ctx == ctx && t.stopped && !t.done))).foldl (fun s t =>
    match t.op with
    | .kick h _ _ _ _ _ _ n => if homeDie (s.kickStack h) == die then s.addStop ctx (s.kickRec t h n 2) else s
    | _ => s) s

/-- A restripe of a halted context stops: the move in transit commits, unless one of its homes is lost (R231). -/
def State.stopRestripe (s : State) (ctx buf : Nat) : State :=
  let e := s.entry buf
  let moving := s.transit.contains buf
  let s1 := if moving && !(s.moveHomes buf).any s.lost.contains then s.commitLine buf
    else { s with transit := s.transit.filter (fun b => b != buf) }
  let e1 := s1.entry buf
  let s2 := if e1.rstate = 1 then s1.setEntry buf (e1.put 192 3 2) else s1
  if !moving || s.lost.contains (homeDie e.stk0) then s2
  else s2.addStop ctx
    { kind := 5, die := homeDie e.stk0, unit := e.stk0, part := 0, status := 0, pc := 0, a := BitVec.ofNat 32 buf,
      b := BitVec.ofNat 32 e1.milestone, c := 0, d := 0, clk := s.clk }

/-- The restripes of a context that stop as the halt line comes to a die: those with a line in transit from it, and those that move
nothing, which have none in transit or one without a home. -/
def State.restripesAt (s : State) (ctx die : Nat) : List Nat :=
  (s.bufs.filter (fun x =>
    let e : Entry := x.2
    e.owner == ctx && e.rstate == 1 && (!s.transit.contains x.1 || (s.moveHomes x.1).head?.all (· == die)))).map (·.1)

/-- The engines of a die stop for a context (R334). -/
def State.stopDie (s : State) (ctx die : Nat) : State :=
  let gs := s.groups.filter (fun g => g.ctx == ctx && g.core.die == die && g.holdsRegs)
  let s1 := gs.foldl (fun s g => s.addStop ctx (g.stopRec s.clk)) s
  let cores := (s.cores.map (·.key)).filter (fun k => k.die == die)
  let s2 := cores.foldl (fun s k =>
    let s1 := (List.range 4).foldl (fun s p => if s.mxOf ⟨k.die, k.core, p⟩ ctx then s.stopMx ctx ⟨k.die, k.core, p⟩ else s) s
    (s1.stopLoads ctx k).stopCopies ctx k) s1
  (s2.restripesAt ctx die).foldl (fun s b => s.stopRestripe ctx b) (s2.stopKicks ctx die)

/-- Dies of a mask. -/
def diesOf (m : BitVec 8) : List Nat := (List.range 8).filter (fun d => m.getLsbD d)

/-- HALT_LINE_ARRIVAL (R334). -/
def execHaltLineArrival (ctx die : Nat) (s : State) : Host.Outcome State Fault Refusal :=
  match s.ctx? ctx with
  | none => .refused .eventNotEnabled
  | some c =>
    match c.halt with
    | none => .refused .eventNotEnabled
    | some h =>
      if h.reached.contains die || !(diesOf c.touched).contains die || s.lost.contains die then .refused .eventNotEnabled
      else .next ((s.modCtx ctx (fun c => { c with halt := c.halt.map (fun h => { h with reached := h.reached ++ [die] }) })).stopDie ctx die)

/- ### Loss of a die (R317, R343) -/

/-- The queues from and to the replicas on a die are discarded (R317). -/
def State.dropQueues (s : State) (die : Nat) : State :=
  { s with cells := s.cells.map (fun c =>
      let e := s.entry c.buf
      { c with queues := c.queues.filter (fun q => e.rep q.src != die && e.rep q.dst != die) }) }

/-- Buffers with a line in transit from or to a die (R231). -/
def State.transitOn (s : State) (die : Nat) : List Nat :=
  s.transit.filter (fun b => (s.moveHomes b).contains die)

/-- Buffers of a context whose restripe runs. -/
def State.restriping (s : State) (ctx : Nat) : List Nat :=
  (s.bufs.filter (fun x => let e : Entry := x.2; e.owner == ctx && e.rstate == 1)).map (·.1)

/-- A die is declared lost (R343): every context that touched it halts with cause 4, and a move of a line that it homes does not
commit; where no halt line can reach a die any more, the restripes of the context stop at once (R231). -/
def State.loseDie (s : State) (die : Nat) : State :=
  let s1 := ({ s with lost := s.lost ++ [die] }.post 9 die 0 0 0).dropQueues die
  let hit := s1.ctxs.filter (fun c => c.touched.getLsbD die)
  let s2 := hit.foldl (fun s c => s.meetLost c.num die) s1
  let s3 := (s.transitOn die).foldl (fun s b => s.stopRestripe (s.entry b).owner b) s2
  (hit.filter (fun c => (diesOf c.touched).all s3.lost.contains)).foldl (fun s c =>
    (s.restriping c.num).foldl (fun s b => s.stopRestripe c.num b) s) s3

/-- DIE_LOST (R343). -/
def execDieLost (die : Nat) (s : State) : Host.Outcome State Fault Refusal :=
  if s.lost.contains die || 8 ≤ die then .refused .eventNotEnabled else .next (s.loseDie die)

/-- HEARTBEAT_TIMEOUT (R343): no heartbeat for 10 µs. -/
def execHeartbeatTimeout (die : Nat) (s : State) : Host.Outcome State Fault Refusal :=
  if s.lost.contains die || 8 ≤ die then .refused .eventNotEnabled else .next (s.loseDie die)

/- ### Records of the dump (R335, R337, R339) -/

/-- A fault record, 64 bytes (R337). -/
def FaultRec.bytes (r : FaultRec) : List Byte :=
  leBytes 4 (r.code.toNat + b2n r.valid * 2 ^ 8 + r.scope.toNat * 2 ^ 9 + r.origin.toNat * 2 ^ 11 + r.die * 2 ^ 16 +
    r.core * 2 ^ 20 + r.part * 2 ^ 27) ++ leBytes 4 (r.team % 65536 + r.grp * 2 ^ 16) ++ leBytes 4 r.pc.toNat ++ leBytes 4 (r.reg.toNat % 1024) ++
    leBytes 8 r.addr.toNat ++ leBytes 8 r.lanes.toNat ++ leBytes 4 r.fscope.toNat ++ leBytes 4 r.fgroups.toNat ++ leBytes 8 r.clk ++
    leBytes 16 0

/-- A stop record, 64 bytes (R335). -/
def StopRec.bytes (r : StopRec) : List Byte :=
  leBytes 4 (r.kind + r.die * 2 ^ 4 + r.unit * 2 ^ 7 + r.part * 2 ^ 14 + r.status * 2 ^ 16) ++ leBytes 4 r.pc.toNat ++ leBytes 4 r.a.toNat ++
    leBytes 4 r.b.toNat ++ leBytes 8 r.c.toNat ++ leBytes 8 r.d.toNat ++ leBytes 8 r.clk ++ leBytes 24 0

/-- A loop level, 16 bytes (R339): bit 0 of the kind is set for a queue loop. -/
def LoopLevel.bytes (l : LoopLevel) : List Byte :=
  leBytes 4 l.start.toNat ++ leBytes 4 l.exit.toNat ++
    leBytes 8 (match l.kind with | .count => 0 | .queue q d => 1 + d.val * 2 + q.toNat * 8)

/-- A walk, 64 bytes (R339). -/
def QBind.bytes (b : QBind) : List Byte :=
  [b.handle.toNat, b.it.code, b.b.toNat, b.ls.toNat, b.n0.toNat, b.st0.toNat, b.n1.toNat, b.st1.toNat, b.n2.toNat, b.st2.toNat,
    b.i0, b.i1, b.i2, b2n b.e0 + 2 * b2n b.e1 + 4 * b2n b.e2, 0, 0].flatMap (leBytes 4)

/-- Blocked lanes (R105). -/
def Group.blockedLanes (g : Group) : Mask :=
  g.live &&& maskOf (fun i => match nth .free g.wait i with | .free => false | .issuing _ => false | _ => true)

def sigBytes (x : List (Option (BitVec 16))) : List Byte :=
  (List.range W).flatMap (fun i => leBytes 4 (match nth none x i with | some g => g.toNat + 2 ^ 16 | none => 0))

def lanesBytes (x : Lanes) : List Byte := (List.range W).flatMap (fun i => leBytes 4 (nth 0 x i).toNat)

/-- The REGS record of a group (R339). -/
def Group.regsRec (g : Group) : List Byte :=
  leBytes 4 (1856 + 4 * g.ns + 256 * (g.nv + g.ny)) ++ leBytes 2 g.key.team ++ leBytes 1 g.key.grp ++
  leBytes 1 (g.part + 4 * b2n g.inh + 8 * b2n g.susp) ++ leBytes 4 g.nv ++ leBytes 4 g.ns ++ leBytes 4 g.ny ++
  leBytes 4 g.stopPoint.toNat ++ leBytes 8 g.live.toNat ++ leBytes 8 g.blockedLanes.toNat ++
  leBytes 4 (fpstatSeen g).toNat ++ leBytes 4 g.hstat.toNat ++
  leBytes 4 g.fault.code.toNat ++ leBytes 4 g.fault.pc.toNat ++ leBytes 4 g.fault.reg.toNat ++ leBytes 4 g.fault.scope.toNat ++
  leBytes 8 g.fault.addr.toNat ++ leBytes 8 g.fault.lanes.toNat ++ leBytes 4 g.fault.groups.toNat ++ leBytes 4 g.resume.toNat ++
  (List.range 3).flatMap (fun k => leBytes 4 (regLc g k).toNat) ++
  (List.range 6).flatMap (fun k => leBytes 1 (nth 0 g.sb k)) ++ leBytes 1 (b2n g.bank) ++ leBytes 1 0 ++
  (List.range 12).flatMap (fun k => leBytes 8 (regM g k).toNat) ++ leBytes 4 0 ++ lanesBytes g.pcs ++
  (List.range 3).flatMap (fun k => match g.levels[k]? with | some l => l.bytes | none => leBytes 16 0) ++
  (List.range 8).flatMap (fun k => match regQ g k with | some b => b.bytes | none => leBytes 64 0) ++
  (List.range 4).flatMap (fun k => match g.arrivals[k]? with
    | some a => leBytes 4 1 ++ leBytes 4 a.buf ++ leBytes 4 a.off ++ leBytes 4 a.phase.toNat
    | none => leBytes 16 0) ++
  sigBytes g.sigG ++ sigBytes g.sigP ++ sigBytes g.sigT ++
  (List.range g.ns).flatMap (fun k => leBytes 4 (regS g k).toNat) ++
  (List.range g.nv).flatMap (fun k => lanesBytes (regV g k)) ++ (List.range g.ny).flatMap (fun k => lanesBytes (regY g k))

def TagKind.code : TagKind → Nat
  | .copy => 1 | .copyShadow => 2 | .blkcpy => 3 | .shadow => 4 | .restripe => 5 | .nbkick => 6

/-- One entry of a TAGS record, 32 bytes (R339). -/
def tagRec (t : Option Tag) : List Byte :=
  match t with
  | none => leBytes 32 0
  | some t => leBytes 1 (if t.done then 2 else 1) ++ leBytes 1 t.kind.code ++ leBytes 1 (b2n t.err) ++ leBytes 1 0 ++
      leBytes 2 t.key.team ++ leBytes 1 t.key.grp ++ leBytes 1 0 ++ leBytes 4 t.pc.toNat ++ leBytes 4 0 ++ leBytes 8 t.op.residual.1 ++
      leBytes 8 0

/- ### Order of records -/

/-- Insert by a key, after equal ones. -/
def insertBy {α : Type} (key : α → Nat) (x : α) : List α → List α
  | [] => [x]
  | y :: t => if key x < key y then x :: y :: t else y :: insertBy key x t

def sortBy {α : Type} (key : α → Nat) (l : List α) : List α := l.foldl (fun acc x => insertBy key x acc) []

def coreNum (k : CKey) : Nat := k.die * 128 + k.core
def partNum (p : PKey) : Nat := (p.die * 128 + p.core) * 4 + p.part
def groupNum (g : Group) : Nat := (partNum g.pkey * 32 + g.key.grp) * 2 ^ 32 + g.key.team
/-- Place of a stop record: die, core, partition and, of groups, the team group index (R339). -/
def StopRec.num (r : StopRec) : Nat :=
  (partNum ⟨r.die, r.unit, r.part⟩ * 8 + r.kind) * 2 ^ 64 + (if r.kind = 1 then r.a.toNat * 2 ^ 32 + r.b.toNat else 0)

/- ### Sections (R336, R339, R340, R376) -/

/-- Bytes with a mark: true where the Imfer core cannot read them. -/
abbrev Piece := List Byte × Bool

/-- The bytes up to the first unreadable piece, and whether there was one. -/
def readPieces : List Piece → List Byte × Bool
  | [] => ([], false)
  | (bs, bad) :: t => if bad then ([], true) else let r := readPieces t; (bs ++ r.1, r.2)

/-- The groups of a context that the dump holds: resident ones and those that are out (R371), none of a lost die. -/
def State.dumpGroups (s : State) (ctx : Nat) : List Group :=
  sortBy groupNum (s.groups.filter (fun g => g.ctx == ctx && (g.holdsRegs || (!g.resident && g.live != 0)) && !s.lost.contains g.core.die))

/-- The cores of a context: those of its groups, and those where it owns segments or tags. -/
def State.dumpCores (s : State) (ctx : Nat) : List CKey :=
  let used := (s.dumpGroups ctx).map (·.core) ++ (s.cores.filter (fun c =>
    c.segs.any (fun x => x.2 == ctx) || c.tags.any (fun t => t.ctx == ctx && !t.orphan))).map (·.key)
  sortBy coreNum ((used.dedup).filter (fun k => !s.lost.contains k.die))

/-- SPMODE of a context's launches. -/
def State.spmode (s : State) (ctx : Nat) : Nat :=
  match s.launches.find? (fun l => l.ctx == ctx) with | some l => b2n (bitOf l.desc.toNat 12) | none => 0

def State.regsSection (s : State) (ctx : Nat) : List Piece := (s.dumpGroups ctx).map (fun g => (g.regsRec, false))

/-- The SCRATCH record of a core. -/
def State.scratchRec (s : State) (ctx : Nat) (k : CKey) : List Piece :=
  let c := s.core k
  let owned := (List.range 32).filter (fun j => c.segOwner j == some ctx)
  (leBytes 1 k.die ++ leBytes 1 k.core ++ leBytes 1 (s.spmode ctx) ++ leBytes 1 0 ++ leBytes 4 ((owned.map (2 ^ ·)).foldl (· + ·) 0), false) ::
    owned.flatMap (fun j => (List.range (segBytes / 4)).map (fun n => (c.spRead (j * segBytes + 4 * n) 4, c.spPoisoned (j * segBytes + 4 * n) 4)))

/-- A word of a barrier object as the dump reads it. -/
def State.barWord (s : State) (a : Arrival) (j : Nat) : Piece :=
  let x := (s.barPhys a).addr + 4 * j
  (s.devBytes x 4, s.poisoned x 4)

/-- The SYNC record of a partition (R339, R376). -/
def State.syncRec (s : State) (ctx : Nat) (p : PKey) (gs : List Group) : List Piece :=
  let ts := sortBy (fun k => k.launch * 2 ^ 32 + k.team) ((gs.map (fun g => (⟨g.key.launch, g.key.team, 0⟩ : GKey))).dedup)
  (leBytes 1 p.die ++ leBytes 1 p.core ++ leBytes 1 p.part ++ leBytes 1 0 ++
    (List.range 8).flatMap (fun i => leBytes 4 (s.convWord (.cv p ctx i))) ++ ts.flatMap (fun k => leBytes 4 (s.convWord (.cvt k.launch k.team))) ++
    gs.flatMap (fun g => leBytes 4 (s.convWord (.cvg g.key))), false) ::
  gs.flatMap (fun g => g.arrivals.flatMap (fun a =>
    (leBytes 4 a.buf ++ leBytes 4 a.off, false) :: (List.range 4).map (s.barWord a)))

def State.syncSection (s : State) (ctx : Nat) : List Piece :=
  let gs := s.dumpGroups ctx
  (sortBy partNum ((gs.map (·.pkey)).dedup)).flatMap (fun p => s.syncRec ctx p (gs.filter (fun g => g.pkey == p)))

/-- The TAGS record of a core; `cut` is the first entry that is not written (R340). -/
def State.tagsRec (s : State) (ctx : Nat) (k : CKey) (cut : Option Nat) : List Byte :=
  leBytes 1 k.die ++ leBytes 1 k.core ++ leBytes 2 0 ++
    (List.range (cut.getD 64)).flatMap (fun n => tagRec ((s.core k).tags.find? (fun t => t.num == n && t.ctx == ctx && !t.orphan)))

/-- The TAGS section: it ends at the entry of a copy that faulted while it drained (R340). -/
def State.tagsSection (s : State) (ctx : Nat) (cut : Option (CKey × Nat)) : List CKey → List Piece
  | [] => []
  | k :: t =>
    match cut with
    | some c =>
      if c.1 == k then [(s.tagsRec ctx k (some c.2), false), ([], true)] else (s.tagsRec ctx k none, false) :: s.tagsSection ctx cut t
    | none => (s.tagsRec ctx k none, false) :: s.tagsSection ctx cut t

def stopSection (h : Halt) : List Piece := (sortBy StopRec.num h.stops).map (fun r => (r.bytes, false))

/-- The five sections, with KIND, bytes, and whether the section is truncated; `lossy` when a lost die held records. -/
def State.sections (s : State) (ctx : Nat) (h : Halt) (lossy : Bool) : List (Nat × List Byte × Bool) :=
  let mk := fun (k : Nat) (ps : List Piece) (l : Bool) => let r := readPieces ps; (k, r.1, r.2 || l)
  [mk 1 (s.regsSection ctx) lossy, mk 2 ((s.dumpCores ctx).flatMap (s.scratchRec ctx)) lossy, mk 3 (s.syncSection ctx) false,
    mk 4 (s.tagsSection ctx h.tagsCut (s.dumpCores ctx)) lossy, mk 5 (stopSection h) lossy]

/-- Round up to a section's start (R376). -/
def sectionAt (n : Nat) : Nat := (n + 255) / 256 * 256

/-- A section as it lies in the dump. -/
structure Laid where
  kind : Nat
  at_ : Nat
  bytes : List Byte
  status : Nat

/-- Sections one after another in an area of `cap` bytes: the first that runs out is truncated and the later ones are
absent (R336). -/
def layOut (cap : Nat) (full : Bool) (pos : Nat) : List (Nat × List Byte × Bool) → List Laid
  | [] => []
  | (k, bs, cut) :: t =>
    if full then ⟨k, 0, [], 2⟩ :: layOut cap true pos t
    else
      let o := sectionAt pos
      if o + bs.length ≤ cap then ⟨k, o, bs, b2n cut⟩ :: layOut cap false (o + bs.length) t
      else ⟨k, o, bs.take (cap - o), 1⟩ :: layOut cap true (o + (bs.take (cap - o)).length) t

/-- The header (R337). -/
def Ctx.dumpHeader (c : Ctx) (h : Halt) : List Byte :=
  leBytes 8 0x00504D55444C454B ++ leBytes 2 1 ++ leBytes 2 c.num ++ leBytes 1 h.cause ++ leBytes 1 5 ++ leBytes 1 c.touched.toNat ++
    leBytes 1 h.secCount ++ leBytes 8 h.clk ++ h.primary.bytes ++ h.secondary.bytes ++ leBytes 104 0

/-- The section table (R338). -/
def sectionTable (ls : List Laid) : List Byte :=
  ls.flatMap (fun l => leBytes 8 l.at_ ++ leBytes 4 l.bytes.length ++ leBytes 1 l.kind ++ leBytes 1 l.status ++ leBytes 2 0)

/-- Length of the dump: the end of the last section written. -/
def dumpEnd (ls : List Laid) : Nat := ls.foldl (fun n l => if l.status = 2 then n else max n (l.at_ + l.bytes.length)) 336

/- ### DUMP_WRITE (R336, R343, R345) -/

/-- Every engine of a halted context has stopped (R334, R336): the line has been everywhere, and what had to complete
has completed. -/
def State.allStopped (s : State) (c : Ctx) (h : Halt) : Bool :=
  (diesOf c.touched).all (fun d => s.lost.contains d || h.reached.contains d) &&
  s.groups.all (fun g => g.ctx != c.num || s.lost.contains g.core.die ||
    (g.pending.isEmpty && g.inFlight.all (fun e => e.token.isSome))) &&
  s.cores.all (fun k => s.lost.contains k.key.die || k.tags.all (fun t => t.ctx != c.num || t.done ||
    (match t.op with | .kick _ _ _ _ _ _ _ _ => true | _ => t.held.isNone && !t.mid))) &&
  s.cores.all (fun k => k.tags.all (fun t => t.ctx != c.num || t.done || t.stopped ||
    (match t.op with | .kick h _ _ _ _ _ _ _ => s.lost.contains (homeDie (s.kickStack h)) | _ => true)))

/-- The record of a read by the Imfer core that meets an uncorrectable error (R340). -/
def FaultRec.readError (clk : Nat) : FaultRec :=
  { FaultRec.blank with valid := true, code := 0x30, origin := 2, clk := clk }

/-- The Imfer core comes to the unreadable word of a section: all before it is written, and there is room for more (R336, R340). -/
def readMeets (cap : Nat) (ls : List Laid) (kind : Nat) (ps : List Piece) : Bool :=
  let r := readPieces ps
  r.2 && ls.any (fun l => l.kind == kind && l.status != 2 && l.bytes.length == r.1.length && l.at_ + l.bytes.length < cap)

/-- The halt with the read errors of a dump laid out counted: those of SCRATCH and SYNC that the Imfer core comes to (R340). -/
def State.dumpFaults (s : State) (ctx : Nat) (h : Halt) (cap : Nat) (ls : List Laid) : Halt :=
  let f := fun (h : Halt) (x : Bool) => if x then h.second (FaultRec.readError s.clk) none else h
  f (f h (readMeets cap ls 2 ((s.dumpCores ctx).flatMap (s.scratchRec ctx)))) (readMeets cap ls 3 (s.syncSection ctx))

/-- Write the dump: header, table, then the sections in order. -/
def State.writeDump (s : State) (c : Ctx) (ls : List Laid) (h : Halt) (cap : Nat) : State :=
  let head := (c.dumpHeader h ++ sectionTable ls).take cap
  ls.foldl (fun s l => if l.bytes.isEmpty then s else s.putBytes .dev (c.dump + l.at_) l.bytes) (s.putBytes .dev c.dump head)

/-- Partitions give up the matrix state of a context whose dump is over. -/
def State.clearMx (s : State) (ctx : Nat) : State :=
  { s with cores := s.cores.map (fun c => { c with parts := c.parts.map (fun p =>
      { p with mx := match p.mx with | some m => if m.ctx == ctx then none else some m | none => none
               mxSaved := p.mxSaved.filter (fun m => m.ctx != ctx) }) }) }

/-- DUMP_WRITE (R336). -/
def execDumpWrite (ctx : Nat) (s : State) : Host.Outcome State Fault Refusal :=
  match s.ctx? ctx with
  | none => .refused .eventNotEnabled
  | some c =>
    match c.halt with
    | none => .refused .eventNotEnabled
    | some h =>
      if h.dumped || !s.allStopped c h then .refused .eventNotEnabled
      else
        let fin := fun (s : State) (h : Halt) =>
          (s.modCtx ctx (fun c => { c with halt := some { h with dumped := true } })).clearMx ctx
        if c.dump = 0 then .next ((fin s h).post 3 0 ctx 0 0)
        else
          let cap := c.dumpLen * 65536
          let ls := layOut cap false 336 (s.sections ctx h ((diesOf c.touched).any s.lost.contains))
          let h1 := s.dumpFaults ctx h cap ls
          .next ((fin (s.writeDump c ls h1 cap) h1).post 2 0 ctx (BitVec.ofNat 32 (dumpEnd ls)) 0)

end Sys2Proof.Machine
end

