-- ==== Sys2Proof/Machine/Crypto.lean ====
section
/-! DEFINITION. SHA-512 and Ed25519, by which the boot ROM verifies images and the Imfer core signs (R387, R388). The spec names the
two algorithms; what they compute is PRESUMED from their public standards, FIPS 180-4 and RFC 8032. -/

namespace Sys2Proof.Machine

/- ### SHA-512 -/

/-- A number of bytes, the most significant first. -/
def beNat (bs : List Byte) : Nat := bs.foldl (fun n b => n * 256 + b.toNat) 0
/-- `n` bytes of a number, the most significant first. -/
def beBytes (n x : Nat) : List Byte := (leBytes n x).reverse

def shaK0 : List Nat :=
  [0x428A2F98D728AE22, 0x7137449123EF65CD, 0xB5C0FBCFEC4D3B2F, 0xE9B5DBA58189DBBC,
   0x3956C25BF348B538, 0x59F111F1B605D019, 0x923F82A4AF194F9B, 0xAB1C5ED5DA6D8118,
   0xD807AA98A3030242, 0x12835B0145706FBE, 0x243185BE4EE4B28C, 0x550C7DC3D5FFB4E2,
   0x72BE5D74F27B896F, 0x80DEB1FE3B1696B1, 0x9BDC06A725C71235, 0xC19BF174CF692694]
def shaK1 : List Nat :=
  [0xE49B69C19EF14AD2, 0xEFBE4786384F25E3, 0x0FC19DC68B8CD5B5, 0x240CA1CC77AC9C65,
   0x2DE92C6F592B0275, 0x4A7484AA6EA6E483, 0x5CB0A9DCBD41FBD4, 0x76F988DA831153B5,
   0x983E5152EE66DFAB, 0xA831C66D2DB43210, 0xB00327C898FB213F, 0xBF597FC7BEEF0EE4,
   0xC6E00BF33DA88FC2, 0xD5A79147930AA725, 0x06CA6351E003826F, 0x142929670A0E6E70]
def shaK2 : List Nat :=
  [0x27B70A8546D22FFC, 0x2E1B21385C26C926, 0x4D2C6DFC5AC42AED, 0x53380D139D95B3DF,
   0x650A73548BAF63DE, 0x766A0ABB3C77B2A8, 0x81C2C92E47EDAEE6, 0x92722C851482353B,
   0xA2BFE8A14CF10364, 0xA81A664BBC423001, 0xC24B8B70D0F89791, 0xC76C51A30654BE30,
   0xD192E819D6EF5218, 0xD69906245565A910, 0xF40E35855771202A, 0x106AA07032BBD1B8]
def shaK3 : List Nat :=
  [0x19A4C116B8D2D0C8, 0x1E376C085141AB53, 0x2748774CDF8EEB99, 0x34B0BCB5E19B48A8,
   0x391C0CB3C5C95A63, 0x4ED8AA4AE3418ACB, 0x5B9CCA4F7763E373, 0x682E6FF3D6B2B8A3,
   0x748F82EE5DEFB2FC, 0x78A5636F43172F60, 0x84C87814A1F0AB72, 0x8CC702081A6439EC,
   0x90BEFFFA23631E28, 0xA4506CEBDE82BDE9, 0xBEF9A3F7B2C67915, 0xC67178F2E372532B]
def shaK4 : List Nat :=
  [0xCA273ECEEA26619C, 0xD186B8C721C0C207, 0xEADA7DD6CDE0EB1E, 0xF57D4F7FEE6ED178,
   0x06F067AA72176FBA, 0x0A637DC5A2C898A6, 0x113F9804BEF90DAE, 0x1B710B35131C471B,
   0x28DB77F523047D84, 0x32CAAB7B40C72493, 0x3C9EBE0A15C9BEBC, 0x431D67C49C100D4C,
   0x4CC5D4BECB3E42B6, 0x597F299CFC657E2A, 0x5FCB6FAB3AD6FAEC, 0x6C44198C4A475817]

/-- The round constants, and the first hash value. -/
def shaK : List Nat := shaK0 ++ shaK1 ++ shaK2 ++ shaK3 ++ shaK4
def shaH : List Nat :=
  [0x6A09E667F3BCC908, 0xBB67AE8584CAA73B, 0x3C6EF372FE94F82B, 0xA54FF53A5F1D36F1,
   0x510E527FADE682D1, 0x9B05688C2B3E6C1F, 0x1F83D9ABFB41BD6B, 0x5BE0CD19137E2179]

def m64 (x : Nat) : Nat := x % 2 ^ 64
def rotr (x n : Nat) : Nat := x / 2 ^ n + x % 2 ^ n * 2 ^ (64 - n)
/-- The three terms of a sigma function, combined. -/
def xor3 (a b c : Nat) : Nat := (a.xor b).xor c

/-- The message schedule goes on by one word: `w` holds the last 16, the latest first. -/
def shaNext (w : List Nat) : Nat :=
  let s := fun (x a b c : Nat) => xor3 (rotr x a) (rotr x b) (x / 2 ^ c)
  m64 (s (nth 0 w 1) 19 61 6 + nth 0 w 6 + s (nth 0 w 14) 1 8 7 + nth 0 w 15)

/-- One round on the eight working variables. -/
def shaRound (h : List Nat) (k w : Nat) : List Nat :=
  match h with
  | [a, b, c, d, e, f, g, x] =>
    let t1 := x + xor3 (rotr e 14) (rotr e 18) (rotr e 41) + (e.land f).xor ((2 ^ 64 - 1 - e).land g) + k + w
    let t2 := xor3 (rotr a 28) (rotr a 34) (rotr a 39) + xor3 (a.land b) (a.land c) (b.land c)
    [m64 (t1 + t2), a, b, c, m64 (d + t1), e, f, g]
  | _ => h

/-- The rounds of a block: `ws` are the words of the block still to come, `last` the last 16 words, the latest first. -/
def shaRounds : List Nat → List Nat → List Nat → List Nat → List Nat
  | [], _, _, h => h
  | k :: ks, [], last, h => let w := shaNext last; shaRounds ks [] (w :: last.take 15) (shaRound h k w)
  | k :: ks, w :: ws, last, h => shaRounds ks ws (w :: last.take 15) (shaRound h k w)

/-- The words of a block of 128 bytes. -/
def shaWords (bs : List Byte) : List Nat := (List.range 16).map (fun j => beNat ((bs.drop (8 * j)).take 8))

def shaBlock (h : List Nat) (bs : List Byte) : List Nat :=
  (h.zip (shaRounds shaK (shaWords bs) [] h)).map (fun x => m64 (x.1 + x.2))

def shaBlocks : Nat → List Byte → List Nat → List Nat
  | 0, _, h => h
  | n + 1, bs, h => shaBlocks n (bs.drop 128) (shaBlock h (bs.take 128))

/-- The SHA-512 digest of a message: 64 bytes. -/
def sha512 (msg : List Byte) : List Byte :=
  let n := msg.length
  let pad := (111 + 128 - n % 128) % 128
  let all := msg ++ [0x80] ++ List.replicate pad 0 ++ beBytes 16 (8 * n)
  (shaBlocks (all.length / 128) all shaH).flatMap (beBytes 8)

/-- A digest as a number: its first byte lowest. -/
def digest (msg : List Byte) : BitVec 512 := BitVec.ofNat 512 (leNat (sha512 msg))

/- ### Ed25519 -/

/-- The prime of the field, and the order of the base point. -/
def edP : Nat := 2 ^ 255 - 19
def edL : Nat := 2 ^ 252 + 27742317777372353535851937790883648493

/-- A power in the field. -/
def edPow (b : Nat) : Nat → Nat → Nat
  | 0, _ => 1
  | n + 1, e => let r := edPow (b * b % edP) n (e / 2); if e % 2 = 1 then b * r % edP else r
def edInv (x : Nat) : Nat := edPow x 255 (edP - 2)
def edSub (a b : Nat) : Nat := (a + edP - b % edP) % edP

/-- The constant of the curve. -/
def edD : Nat := edSub 0 (121665 * edInv 121666 % edP)

/-- A point of the curve in extended coordinates: X, Y, Z and T with T Z = X Y. -/
structure EdPoint where
  x : Nat
  y : Nat
  z : Nat
  t : Nat

def edZero : EdPoint := ⟨0, 1, 1, 0⟩

def EdPoint.add (p q : EdPoint) : EdPoint :=
  let a := edSub p.y p.x * edSub q.y q.x % edP
  let b := (p.y + p.x) * (q.y + q.x) % edP
  let c := 2 * p.t * q.t * edD % edP
  let d := 2 * p.z * q.z % edP
  let e := edSub b a
  let f := edSub d c
  let g := (d + c) % edP
  let h := (b + a) % edP
  ⟨e * f % edP, g * h % edP, f * g % edP, e * h % edP⟩

/-- A multiple of a point, by the bits of the number. -/
def EdPoint.mul (p : EdPoint) : Nat → Nat → EdPoint
  | 0, _ => edZero
  | n + 1, k => let r := (p.add p).mul n (k / 2); if k % 2 = 1 then p.add r else r

def EdPoint.same (p q : EdPoint) : Bool := p.x * q.z % edP == q.x * p.z % edP && p.y * q.z % edP == q.y * p.z % edP

/-- The point that 32 bytes name, if they name one. -/
def edDecode (bs : List Byte) : Option EdPoint :=
  let n := leNat bs
  let y := n % 2 ^ 255
  let u := edSub (y * y) 1
  let v := (edD * (y * y) + 1) % edP
  let x2 := u * edInv v % edP
  let r := edPow x2 253 ((edP + 3) / 8)
  let r1 := if r * r % edP = x2 then r else r * edPow 2 254 ((edP - 1) / 4) % edP
  if bs.length ≠ 32 || edP ≤ y || r1 * r1 % edP ≠ x2 || (r1 = 0 && n / 2 ^ 255 = 1) then none
  else
    let x := if r1 % 2 = n / 2 ^ 255 then r1 else edP - r1
    some ⟨x, y, 1, x * y % edP⟩

/-- The 32 bytes of a point. -/
def EdPoint.encode (p : EdPoint) : List Byte :=
  let i := edInv p.z
  leBytes 32 (p.y * i % edP + p.x * i % edP % 2 * 2 ^ 255)

/-- The base point: its y is 4/5 and its x is even. -/
def edBase : EdPoint := (edDecode (leBytes 32 (4 * edInv 5 % edP))).getD edZero

/-- The signature of a message under a public key verifies. -/
def edVerify (key msg sig : List Byte) : Bool :=
  match edDecode key, edDecode (sig.take 32) with
  | some a, some r =>
    let s := leNat ((sig.drop 32).take 32)
    let k := leNat (sha512 (sig.take 32 ++ key ++ msg)) % edL
    sig.length == 64 && s < edL && (edBase.mul 253 s).same (r.add (a.mul 253 k))
  | _, _ => false

/-- The secret number that the first half of a seed's digest gives. -/
def edSecret (h : List Byte) : Nat := leNat (h.take 32) % 2 ^ 254 / 8 * 8 + 2 ^ 254

/-- The public key of a seed. -/
def edPublic (seed : List Byte) : List Byte := (edBase.mul 255 (edSecret (sha512 seed))).encode

/-- The signature of a message by a seed: 64 bytes. -/
def edSign (seed msg : List Byte) : List Byte :=
  let h := sha512 seed
  let a := edSecret h
  let r := leNat (sha512 (h.drop 32 ++ msg)) % edL
  let rb := (edBase.mul 253 r).encode
  let k := leNat (sha512 (rb ++ edPublic seed ++ msg)) % edL
  rb ++ leBytes 32 ((r + k * a) % edL)

end Sys2Proof.Machine
end

