-- ==== Sys2Proof/Machine/Host.lean ====
section
/-! DEFINITION. What the host, its driver, peer modules, the links and the firmware do to the part: the Imfer commands
(R381 to R383), control registers and the event ring (R344, R379), accesses from outside (R378, R385), attestation
(R388), resets and boot (R387, R389, R390, R392), and power (R391). -/

namespace Sys2Proof.Machine

/- ### The command ring (R381) -/

/-- A command completes: its completion word is written, and CMDQ_HEAD passes its entry. -/
def State.complete (s : State) (code : Nat) : State :=
  { s with
    cmdDone := BitVec.ofNat 32 code :: s.cmdDone
    hostMem := Memory.store s.hostMem (s.regs.cmdqBase.toNat + 64 * (s.regs.cmdqHead.toNat % 256) + 60) (leBytes 4 code)
    regs := { s.regs with cmdqHead := BitVec.ofNat 32 ((s.regs.cmdqHead.toNat + 1) % 256) } }

/-- A command has not completed: commands run one at a time. -/
def State.cmdBusy (s : State) : Bool := !s.slotWait.isEmpty || s.ctxs.any (fun c => c.destroying)

/-- The Imfer core carries out a command, once the one before it is complete; `f` answers the state, and the code when it is
complete. -/
def command (x : Cmd) (s : State) (f : State → State × Option Nat) : Host.Outcome State Fault Refusal :=
  if s.cmdBusy then .refused .eventNotEnabled
  else if x.reserved || 65536 ≤ x.ctx.toNat then .next (s.complete 1)
  else match f s with
    | (s1, some code) => .next (s1.complete code)
    | (s1, none) => .next s1

/- An entry of the ring lies in host memory (R381). -/

/-- Host address of an entry. -/
def State.cmdAddr (s : State) (n : Nat) : Nat := s.regs.cmdqBase.toNat + 64 * (n % 256)

/-- The operands of an entry. -/
def cmdOf (bs : List Byte) : Cmd :=
  { ctx := BitVec.ofNat 32 (leNat ((bs.drop 4).take 4)), reserved := ((bs.drop 2).take 2 ++ (bs.drop 24).take 36).any (fun b => b != 0)
    p0 := BitVec.ofNat 64 (leNat ((bs.drop 8).take 8)), p1 := BitVec.ofNat 64 (leNat ((bs.drop 16).take 8)) }

/-- The command of a CODE. -/
def cmdInstr (code : Nat) (x : Cmd) : Option Instr :=
  match code with
  | 1 => some (.ctxCreate x) | 2 => some (.ctxHalt x) | 3 => some (.ctxDestroy x) | 4 => some (.ctxAnnex x)
  | 5 => some (.slotLoad x) | 6 => some (.frameRef x) | 7 => some (.bufAdopt x)
  | _ => none

/-- The CODE of a command, and its operands. -/
def cmdCode : Instr → Option (Nat × Cmd)
  | .ctxCreate x => some (1, x) | .ctxHalt x => some (2, x) | .ctxDestroy x => some (3, x) | .ctxAnnex x => some (4, x)
  | .slotLoad x => some (5, x) | .frameRef x => some (6, x) | .bufAdopt x => some (7, x)
  | _ => none

/-- The 64 bytes of an entry as the driver writes it. -/
def cmdBytes (code : Nat) (x : Cmd) : List Byte :=
  leBytes 2 code ++ leBytes 2 (b2n x.reserved) ++ leBytes 4 x.ctx.toNat ++ leBytes 8 x.p0.toNat ++ leBytes 8 x.p1.toNat ++ leBytes 40 0

/-- The ring is full for the driver. -/
def State.cmdFull (s : State) : Bool := (s.regs.cmdqTail.toNat + 1) % 256 == s.regs.cmdqHead.toNat % 256

/-- The driver fills the next entry and moves CMDQ_TAIL (R379). -/
def State.submit (s : State) (code : Nat) (x : Cmd) : State :=
  { s with
    hostMem := Memory.store s.hostMem (s.cmdAddr s.regs.cmdqTail.toNat) (cmdBytes code x)
    regs := { s.regs with cmdqTail := BitVec.ofNat 32 ((s.regs.cmdqTail.toNat + 1) % 256) } }

/-- The entry that the Imfer core takes next: none while a command runs, or where CMDQ_HEAD has come to CMDQ_TAIL. -/
def State.cmdNext (s : State) : Option (List Byte) :=
  if s.cmdBusy || s.regs.cmdqHead.toNat % 256 == s.regs.cmdqTail.toNat % 256 then none
  else some (Memory.bytes s.hostMem (s.cmdAddr s.regs.cmdqHead.toNat) 64)

/-- A command on a context in use. -/
def onCtx (x : Cmd) (s : State) (f : Ctx → State × Option Nat) : State × Option Nat :=
  match s.ctx? x.ctx.toNat with | some c => f c | none => (s, some 2)

/- ### Contexts (R381, R382) -/

/-- CTX_CREATE (R304, R381, R382). -/
def execCtxCreate (x : Cmd) (s : State) : Host.Outcome State Fault Refusal :=
  command x s (fun s =>
    let n := x.ctx.toNat
    let a := x.p0.toNat
    let d := s.memNat a 64
    if n = 0 || 4095 < n || (s.ctx? n).isSome then (s, some 2)
    else if a % 64 ≠ 0 || deviceBytes < a + 64 || !ctxDescOk d || fld d 0 16 ≠ n then (s, some 3)
    else ({ s with ctxs := s.ctxs ++ [Ctx.ofDesc d], mem := s.mem.filterMap (mbStart (fld d 128 56)) }, some 0))

/-- The record of a halt by the driver (R333, R337). -/
def FaultRec.byHost (clk : Nat) : FaultRec := { FaultRec.blank with origin := 2, clk := clk }

/-- CTX_HALT (R333, R381). -/
def execCtxHalt (x : Cmd) (s : State) : Host.Outcome State Fault Refusal :=
  command x s (fun s => onCtx x s (fun c => (s.haltCtx c.num 6 (FaultRec.byHost s.clk), some 0)))

/-- CTX_DESTROY (R381): a running context halts; the command completes when the context is retired. -/
def execCtxDestroy (x : Cmd) (s : State) : Host.Outcome State Fault Refusal :=
  command x s (fun s => onCtx x s (fun c =>
    ((s.haltCtx c.num 6 (FaultRec.byHost s.clk)).modCtx c.num (fun c => { c with destroying := true }), none)))

/-- What a context leaves goes with it: its groups and launches, segments, tags, slots and lodge objects, and the state
of every unit (R381, R392). -/
def State.dropCtx (s : State) (n : Nat) : State :=
  { (s.dropLate n (fun _ => true)).clearMx n with
    ctxs := s.ctxs.filter (fun c => c.num != n)
    groups := s.groups.filter (fun g => g.ctx != n)
    teams := s.teams.filter (fun t => t.ctx != n)
    launches := s.launches.filter (fun l => l.ctx != n)
    evicted := s.evicted.filter (fun e => e.ctx != n)
    instances := s.instances.filter (fun i => !i.iss.members.any (fun m => match s.group? m.key with | some g => g.ctx == n | none => true))
    slots := s.slots.filter (fun x => x.2.1 != n)
    lodge := s.lodge.filter (fun o => o.ctx != n)
    cells := s.cells.filter (fun c => (s.entry c.buf).owner != n)
    readCopies := s.readCopies.map (fun c => { c with ctxs := c.ctxs.filter (fun k => k != n) })
    dirty := s.dirty.filter (fun c => c.ctx != n)
    cores := (s.clearMx n).cores.map (fun c =>
      { c with
        segs := c.segs.filter (fun x => x.2 != n)
        tagTable := c.tagTable.filter (fun e => e.owner != n)
        tags := c.tags.filter (fun t => t.ctx != n)
        loads := c.loads.filter (fun l => l.ctx != n)
        tables := c.tables.map (fun b => if b.owner == some n then .fresh else b) }) }

/-- CONTEXT_RETIRE (R381): after the dump of a context that is destroyed. -/
def execContextRetire (ctx : Nat) (s : State) : Host.Outcome State Fault Refusal :=
  match s.ctx? ctx with
  | none => .refused .eventNotEnabled
  | some c =>
    if c.destroying && s.dumpDone ctx then .next ((s.dropCtx ctx).complete 0) else .refused .eventNotEnabled

/-- CTX_ANNEX (R292, R381): the annex moves, and requests held for want of space go on. -/
def execCtxAnnex (x : Cmd) (s : State) : Host.Outcome State Fault Refusal :=
  command x s (fun s => onCtx x s (fun c =>
    if !areaOk x.p0.toNat (x.p1.toNat * 65536) || 2 ^ 32 ≤ x.p1.toNat then (s, some 3)
    else (s.modCtx c.num (fun c => { c with annex := x.p0.toNat, annexLen := x.p1.toNat, annexFull := false }), some 0)))

/- ### Slots (R383) -/

/-- Formats that a slot's streams may name (R239, R383). -/
def slotFmtOk (n : Nat) : Bool := n ≤ 4 || n == 7 || n == 8

/-- Bits of an element of a stream format (R239). -/
def slotBits (n : Nat) : Nat := if n = 0 then 32 else if n ≤ 2 then 16 else if n = 7 then 4 else 8

/-- A slot image that SLOT_LOAD accepts (R383). -/
def slotImageOk (img : Nat) : Bool :=
  let fs := (List.range 4).map (fun j => fld img (4 * j) 4)
  fs.all slotFmtOk && img / 2 ^ 19 == 0 && (!bitOf img 16 || fs.all (fun f => slotBits f == slotBits (fs.headD 0)))

/-- The controllers that a SLOT_LOAD names: slot and stack (R381). -/
def slotKeys (p0 : Nat) : List (Nat × Nat) := (List.range (fld p0 12 5)).map (fun i => (fld p0 0 6, (fld p0 8 4 + i) % 16))

/-- A kick is using one of the slots (R383). -/
def State.slotBusy (s : State) (ks : List (Nat × Nat)) : Bool :=
  s.cores.any (fun c => c.tags.any (fun t => !t.done && (match t.op with
    | .kick h _ slot _ _ _ _ _ => (s.entry (hIndex h)).stacks.any (fun k => ks.contains (slot, k))
    | _ => false)))

/-- The slot is written on every controller of the set, and its owner is the context (R239, R383). -/
def State.loadSlot (s : State) (x : Cmd) : State :=
  let ks := slotKeys x.p0.toNat
  { s with slots := s.slots.filter (fun y => !ks.contains y.1) ++ ks.map (fun k => (k, (x.ctx.toNat, x.p1))) }

/-- SLOT_LOAD (R383): one into a slot that a kick is using waits for it. -/
def execSlotLoad (x : Cmd) (s : State) : Host.Outcome State Fault Refusal :=
  command x s (fun s => onCtx x s (fun _ =>
    let p := x.p0.toNat
    if fld p 6 2 ≠ 0 || p / 2 ^ 17 ≠ 0 || fld p 12 5 = 0 || 16 < fld p 12 5 || !slotImageOk x.p1.toNat then (s, some 3)
    else if s.slotBusy (slotKeys p) then ({ s with slotWait := [x] }, none)
    else (s.loadSlot x, some 0)))

/-- SLOT_LOAD_COMPLETE (R383): the kick that a SLOT_LOAD waits for has completed. -/
def execSlotLoadComplete (s : State) : Host.Outcome State Fault Refusal :=
  match s.slotWait with
  | [] => .refused .eventNotEnabled
  | x :: rest =>
    if s.slotBusy (slotKeys x.p0.toNat) then .refused .eventNotEnabled
    else .next (({ s with slotWait := rest }.loadSlot x).complete 0)

/- ### Frames (R270, R271) -/

/-- PINNED is set: the audit interrupt is raised and the driver is told (R271). -/
def State.pinFrame (s : State) (k refs : Nat) : State :=
  let r := s.frame k
  { s.setFrame k (frameRec refs true (frameCount r) (frameOwner r)) with audit := s.audit + 1 }.post 11 0 0
    (BitVec.ofNat 32 (k / 2 ^ 40)) (BitVec.ofNat 64 (k % 2 ^ 40))

/-- One more reference (R271). -/
def State.addRef (s : State) (k : Nat) : State :=
  let r := s.frame k
  if frameRefs r = 4095 then s
  else if frameRefs r = 4094 && !framePinned r then s.pinFrame k 4095
  else s.setFrame k (frameRec (frameRefs r + 1) (framePinned r) (frameCount r) (frameOwner r))

/-- One reference less: an unpinned frame whose count comes to 0 is free, and all of it reads zero to its next owner (R271). -/
def State.dropRef (s : State) (k : Nat) : State :=
  let r := s.frame k
  if framePinned r then s
  else if frameRefs r = 0 then s.pinFrame k 0
  else if frameRefs r = 1 then
    ({ s with renewed := s.renewed.filter (fun x => x.1 / 65536 != k) }.zeroFrame k).setFrame k (frameRec 0 false (frameCount r) 0)
  else s.setFrame k (frameRec (frameRefs r - 1) false (frameCount r) (frameOwner r))

/-- FRAME_REF (R271, R381). -/
def execFrameRef (x : Cmd) (s : State) : Host.Outcome State Fault Refusal :=
  command x s (fun s =>
    let p := x.p0.toNat
    let k := fld p 32 1 * 2 ^ 40 + fld p 0 32
    if p / 2 ^ 34 ≠ 0 || (!bitOf p 32 && deviceBytes ≤ fld p 0 32 * 65536) then (s, some 3)
    else (if bitOf p 33 then s.dropRef k else s.addRef k, some 0))

/-- The frames that a buffer's two maps name and that are PRESENT (R381). -/
def State.adoptFrames (s : State) (e : Entry) : List Nat :=
  (List.range (cdiv e.len 65536)).flatMap (fun f => ([0] ++ (if e.smap = 0 then [] else [1])).filterMap (fun v =>
    let d := s.descr e v (f * 65536)
    if dPresent d then some (frameKey (physAddr d 0)) else none))

/-- A frame passes to another context with what it held for the one before, which was zeros where that one never reached it; a pinned
one changes no owner (R206, R270, R381). The copies that die caches hold of it go. -/
def State.adoptFrame (s : State) (old ctx k : Nat) : State :=
  let s1 := s.ownFrame old k
  let r := s1.frame k
  if framePinned r then s1
  else { s1 with readCopies := s1.readCopies.filter (fun c => c.line / 256 != k) }.setFrame k (frameRec (frameRefs r) false (frameCount r) ctx)

/-- The objects of a buffer count for its new owner (R292, R381). -/
def State.adoptObjects (s : State) (buf ctx : Nat) : State :=
  { s with lodge := s.lodge.map (fun o => match o.key with
      | .sync b _ => if b == buf then { o with ctx := ctx } else o
      | .cell b _ => if b == buf then { o with ctx := ctx } else o
      | .mailbox _ _ => o) }

/-- Every engine of a halted context has stopped, so that nothing of it reaches a buffer any more. -/
def State.stoppedCtx (s : State) (n : Nat) : Bool :=
  match s.ctx? n with
  | some c => (match c.halt with | some h => s.allStopped c h | none => false)
  | none => false

/-- BUF_ADOPT (R231, R381). DEDUCED (log 117): the owner is a halted context once its engines have stopped (R334); before, a value that
one of them still writes would be lost. -/
def execBufAdopt (x : Cmd) (s : State) : Host.Outcome State Fault Refusal :=
  command x s (fun s => onCtx x s (fun c =>
    let p := x.p0.toNat
    let e := s.entry p
    if 2 ^ 20 ≤ p then (s, some 3)
    else if !s.stoppedCtx e.owner then (s, some 4)
    else ((s.adoptFrames e).foldl (fun s k => s.adoptFrame e.owner c.num k) ((s.adoptObjects p c.num).setEntry p (e.put 112 16 c.num)), some 0)))

/-- ACCCNT_WRITE (R272). -/
def execAcccntWrite (tier : Bool) (frame : Word) (val : BitVec 16) (s : State) : Host.Outcome State Fault Refusal :=
  .next (s.setCount (b2n tier * 2 ^ 40 + frame.toNat) val.toNat)

/- ### Accesses from outside (R201, R378, R385) -/

/-- A write of an outside agent, block by block. -/
def State.outWrite (s : State) (a : Nat) (bs : List Byte) : Nat → State
  | 0 => s
  | n + 1 =>
    if bs.isEmpty then s
    else
      let k := min bs.length (64 - a % 64)
      (s.homeWrite a (bs.take k)).outWrite (a + k) (bs.drop k) n

/-- A frame whose contents no context may read any more: a warm reset left it, or its owner is gone (R206, R392). -/
def State.orphanFrame (s : State) (k : Nat) : Bool :=
  s.retained.contains k || (frameOwner (s.frame k) != 0 && !framePinned (s.frame k) && (s.ctx? (frameOwner (s.frame k))).isNone)

/-- What an agent outside the part writes to such a frame is its next owner's. DESIGN CHOICE (log 113): the rest of it reads 0. -/
def State.noteRenewed (s : State) (a n : Nat) : State :=
  { s with renewed := s.renewed ++ (linesOf a n).filterMap (fun l =>
      if s.orphanFrame (l / 256) then some (max a (l * 256), min (a + n) (l * 256 + 256) - max a (l * 256)) else none) }

/-- Every line request that reaches a frame counts (R272). -/
def State.outCount (s : State) (a n : Nat) : State :=
  (linesOf a n).foldl (fun s l => s.countFrame 0 0 l) s

/-- An access of an outside agent to device memory; one past its end does nothing. -/
def State.extAccess (s : State) (x : ExtAccess) : State :=
  if deviceBytes < x.addr + x.len then s
  else match x.write with
    | some bs => ((s.outCount x.addr (min bs.length x.len)).noteRenewed x.addr (min bs.length x.len)).outWrite x.addr (bs.take x.len) (x.len + 1)
    | none => { s.outCount x.addr x.len with extRead := s.devBytes x.addr x.len }

/-- CXL_MEM_REQUEST (R378): the host reads or writes device memory. -/
def execCxlMemRequest (x : ExtAccess) (s : State) : Host.Outcome State Fault Refusal := .next (s.extAccess x)

/-- PEER_MODULE_REQUEST (R285, R385): a peer reads or writes device memory over a span link that is up. -/
def execPeerModuleRequest (link : Nat) (x : ExtAccess) (s : State) : Host.Outcome State Fault Refusal :=
  if bitOf s.regs.spanstat.toNat link && link < 12 then .next (s.extAccess x) else .refused .eventNotEnabled

/- ### Control registers and the event ring (R344, R379) -/

/-- EVQ_HEAD (R379). -/
def execEvqHead (val : Word) (s : State) : Host.Outcome State Fault Refusal :=
  .next { s with regs := { s.regs with evqHead := val } }

/-- EVENT_OVERFLOW_DELIVERY (R344): the oldest event that a die holds goes to the ring, which has room. -/
def execEventOverflowDelivery (die : Nat) (s : State) : Host.Outcome State Fault Refusal :=
  match s.overflowOf die with
  | [] => .refused .eventNotEnabled
  | e :: rest => if s.ringFull then .refused .eventNotEnabled else .next ((s.setOverflow die rest).ringEvent e)

/-- A write of LOSTEV clears it, and the die's next discard raises the summary interrupt again (R344, R379). -/
def State.clearLost (s : State) (die : Nat) : State :=
  { s with regs := { s.regs with lostev := modAt s.regs.lostev die (fun _ => 0) }, armed := s.armed.filter (fun d => d != die) }

/-- LOSTEV (R379). -/
def execLostev (die : Nat) (s : State) : Host.Outcome State Fault Refusal := .next (s.clearLost die)

/-- The control registers as BAR0 shows them from offset 0 on. -/
def Regs.bytes (r : Regs) : List Byte :=
  leBytes 8 r.bootstat.toNat ++ leBytes 8 r.cmdqBase.toNat ++ leBytes 4 r.cmdqTail.toNat ++ leBytes 4 r.cmdqHead.toNat ++ leBytes 8 0 ++
  leBytes 8 r.evqBase.toNat ++ leBytes 4 r.evqHead.toNat ++ leBytes 4 r.evqTail.toNat ++ leBytes 16 0 ++
  (List.range 8).flatMap (fun d => leBytes 4 (nth 0 r.lostev d).toNat) ++ leBytes 4 r.throttle.toNat ++ leBytes 4 r.spanstat.toNat ++
  leBytes 4 r.hotthr0.toNat ++ leBytes 4 r.hotthr1.toNat

/-- What the host reads of a BAR: the post windows read as zero (R384), and so do offsets of BAR0 that have no register. DESIGN
CHOICE (log 94): R379 says nothing of those. -/
def State.barBytes (s : State) (bar2 : Bool) (off len : Nat) : List Byte :=
  (List.range len).map (fun j => if bar2 then 0 else nth 0 s.regs.bytes (off + j))

/-- A threshold that is written meets the counts that stand (R272). -/
def State.checkTier (s : State) (tier : Nat) : State :=
  ((s.frames.map (·.1)).filter (fun k => k / 2 ^ 40 == tier)).foldl (fun s k => s.checkHot (frameOwner (s.frame k)) 0 k) s

/-- CONTROL_REGISTER_WRITE (R379): read-only registers and other offsets keep their values. -/
def execControlRegisterWrite (off : Nat) (val : BitVec 64) (s : State) : Host.Outcome State Fault Refusal :=
  let w : Word := BitVec.ofNat 32 val.toNat
  .next (match off with
    | 0x08 => { s with regs := { s.regs with cmdqBase := val } }
    | 0x10 => { s with regs := { s.regs with cmdqTail := w } }
    | 0x20 => { s with regs := { s.regs with evqBase := val } }
    | 0x28 => { s with regs := { s.regs with evqHead := w } }
    | 0x68 => { s with regs := { s.regs with hotthr0 := BitVec.ofNat 16 val.toNat } }.checkTier 0
    | 0x6C => { s with regs := { s.regs with hotthr1 := BitVec.ofNat 16 val.toNat } }.checkTier 1
    | _ => if 0x40 ≤ off && off < 0x60 && off % 4 = 0 then s.clearLost ((off - 0x40) / 4) else s)

/- ### Attestation (R388) -/

def State.respond (s : State) (r : SpdmResponse) : State := { s with spdm := s.spdm ++ [r] }

/-- GET_VERSION (R388): SPDM 1.2. -/
def execGetVersion (s : State) : Host.Outcome State Fault Refusal := .next (s.respond (.version 1 2))
/-- The capability flags of a responder that gives certificates, answers challenges and signs measurements. PRESUMED (log 18) from SPDM 1.2. -/
def spdmFlags : Nat := 0x16

/-- GET_CAPABILITIES (R388). -/
def execGetCapabilities (s : State) : Host.Outcome State Fault Refusal := .next (s.respond (.capabilities spdmFlags))

/-- Numbers of Ed25519 and SHA-512 in SPDM 1.2's algorithm masks. PRESUMED (log 18). -/
def spdmEd25519 : Nat := 10
def spdmSha512 : Nat := 2

/-- NEGOTIATE_ALGORITHMS (R388): only Ed25519 and SHA-512 are agreed to. -/
def execNegotiateAlgorithms (sigs hashes : List Nat) (s : State) : Host.Outcome State Fault Refusal :=
  .next (s.respond (.algorithms (sigs.contains spdmEd25519 && hashes.contains spdmSha512)))
/-- GET_DIGESTS (R388). -/
def execGetDigests (s : State) : Host.Outcome State Fault Refusal := .next (s.respond (.digests (digest Config.certChain)))
/-- GET_CERTIFICATE (R388). -/
def execGetCertificate (s : State) : Host.Outcome State Fault Refusal := .next (s.respond (.certificate Config.certChain))

/-- What the Imfer core signs: the digest of the response's content, with the module's identity key (R388). -/
def identitySign (content : List Byte) : List Byte := edSign Config.identitySeed (sha512 content)

/-- CHALLENGE (R388): the response is signed over the nonce and the measurements. -/
def execChallenge (nonce : List Byte) (s : State) : Host.Outcome State Fault Refusal :=
  .next (s.respond (.challengeAuth (identitySign (nonce ++ s.measurements.flatMap (fun m => leBytes 64 m.toNat)))))

/-- GET_MEASUREMENTS (R388): indexes 1 to 4, each answer signed. DESIGN CHOICE (log 110): an error for any other index. -/
def execGetMeasurements (index : Nat) (s : State) : Host.Outcome State Fault Refusal :=
  .next (s.respond (match index with
    | 0 => .error
    | n + 1 => match s.measurements[n]? with
      | some d => .measurement (n + 1) d (identitySign (leBytes 1 (n + 1) ++ leBytes 64 d.toNat))
      | none => .error))

/- ### Boot: signatures and measurements (R387) -/

/-- The measurement chain over image digests (R387): it starts at 64 zero bytes. -/
def chain (ds : List (BitVec 512)) : BitVec 512 :=
  ds.foldl (fun m d => digest (leBytes 64 m.toNat ++ leBytes 64 d.toNat)) 0

/-- An image without its signature, and its signature: the last 64 bytes (R389; of the two firmware images PRESUMED, log 18). -/
def imageBody (img : List Byte) : List Byte := img.take (img.length - 64)
def imageSig (img : List Byte) : List Byte := img.drop (img.length - 64)

/-- The signature of an image over its SHA-512 digest verifies against the key in the ROM (R387). -/
def signed (img : List Byte) : Bool := edVerify Config.romKey (sha512 (imageBody img)) (imageSig img)

/- ### The configuration image (R389) -/

/-- The core bytes of an image. -/
def coreBytes (img : List Byte) : List (CKey × Byte) :=
  (List.range 8).flatMap (fun d => (coresOf d).map (fun k => (k, nth 0 img (16 + 96 * d + k.core))))

/-- The default repair of an image: two bytes for each pseudo-channel. -/
def repairBytes (img : List Byte) : List (Nat × BitVec 16) :=
  (List.range 1536).map (fun c => (c, BitVec.ofNat 16 (leNat ((img.drop (784 + 2 * c)).take 2))))

/-- The power limits of an image, in mW. -/
def powerLimits (img : List Byte) : List Nat := (List.range 5).map (fun j => leNat ((img.drop (3856 + 4 * j)).take 4))

/-- Working cores of a die under an image's core bytes: all vector units work, and all matrix units too (R20). -/
def binCount (cores : List (CKey × Byte)) (die : Nat) (full : Bool) : Nat :=
  ((coresOf die).filter (fun k =>
    match cores.find? (fun x => x.1 == k) with
    | some x => x.2.toNat % 16 == 15 && (!full || x.2.toNat / 16 == 15)
    | none => false)).length

/-- The bin of R21. -/
def binOk (cores : List (CKey × Byte)) : Bool :=
  (List.range 8).all (fun d =>
    if isBDie d then 46 ≤ binCount cores d true && 47 ≤ binCount cores d false
    else 92 ≤ binCount cores d true && 94 ≤ binCount cores d false)

/-- A repair entry whose reserved bits are zero and whose spares do not replace one lane (R389). -/
def repairOk (x : BitVec 16) : Bool :=
  let a := x.toNat % 256
  let b := x.toNat / 256
  fld a 6 2 == 0 && fld b 6 2 == 0 && !(bitOf a 5 && bitOf b 5 && fld a 0 5 == fld b 0 5)

/-- The fixed bytes of the layout: magic, format version, and the zeros. -/
def layoutOk (img : List Byte) : Bool :=
  let zero := fun (a n : Nat) => ((img.drop a).take n).all (fun b => b == 0)
  3984 ≤ img.length && leNat (img.take 8) == 0x004746434F524C45 && leNat ((img.drop 8).take 4) == 1 &&
    (List.range 8).all (fun d => !isBDie d || zero (16 + 96 * d + 48) 48) && zero 3876 44 && zero 3920 (img.length - 3984)

/-- A configuration image that is not rejected (R389). -/
def configOk (img : List Byte) : Bool := layoutOk img && binOk (coreBytes img) && (repairBytes img).all (fun r => repairOk r.2)

/- ### Training (R390) -/

/-- The longest run of passing delays: where it starts, and how wide it is. -/
def eyeOf (m : BitVec 64) : Nat × Nat :=
  let r := (List.range 64).foldl (fun (x : Nat × Nat × Nat) d =>
    if !m.getLsbD d then (x.1, x.2.1, 0) else if x.2.1 ≤ x.2.2 then (d - x.2.2, x.2.2 + 1, x.2.2 + 1) else (x.1, x.2.1, x.2.2 + 1)) (0, 0, 0)
  (r.1, r.2.1)

/-- The delay of a lane: the centre of its eye, the lower one of an even width; none for a bad lane. -/
def laneDelay (m : BitVec 64) : Option Nat :=
  let e := eyeOf m
  if e.2 < 12 then none else some (e.1 + (e.2 - 1) / 2)

/-- The lane that a spare replaces by default, and the byte that says so. -/
def repairByte (r : BitVec 16) (j : Nat) : Nat := r.toNat / 256 ^ j % 256
def repairLane (r : BitVec 16) (j : Nat) : Option Nat :=
  let b := repairByte r j
  if bitOf b 5 then some (fld b 0 5) else none

/-- The lane repair of a channel after training, from the image's default: each bad data lane comes onto a good spare, one that is
free or one whose lane has turned out good; none where two spares do not do, or a bad one is needed. -/
def trainRepair (ds : List (Option Nat)) (r : BitVec 16) : Option (BitVec 16) :=
  let bad := fun (l : Nat) => (nth none ds l).isNone
  let badData := (List.range 32).filter bad
  let spares := [0, 1].filter (fun j => !bad (32 + j))
  let held := fun (j : Nat) => match repairLane r j with | some l => badData.contains l | none => false
  let left := badData.filter (fun l => !spares.any (fun j => repairLane r j == some l))
  let free := spares.filter (fun j => (repairLane r j).isNone) ++ spares.filter (fun j => (repairLane r j).isSome && !held j)
  let new := free.zip left
  let byte := fun (j : Nat) =>
    match new.find? (fun x => x.1 == j) with
    | some x => x.2 + 32
    | none => if spares.contains j then repairByte r j else 0
  if spares.length < badData.length then none else some (BitVec.ofNat 16 (byte 0 + 256 * byte 1))

/-- The delays of a channel's lanes. -/
def delaysOf (x : BootImages) (c : Nat) : List (Option Nat) :=
  match x.lanes.find? (fun y => y.1 == c) with
  | some y => (List.range 34).map (fun l => laneDelay (nth (BitVec.allOnes 64) y.2 l))
  | none => List.replicate 34 (laneDelay (BitVec.allOnes 64))

/-- Training of one channel ends with its repair, or fails. -/
def trainChannel (x : BootImages) (r : Nat × BitVec 16) : Option (Nat × BitVec 16) :=
  if x.finalBad.contains r.1 then none else (trainRepair (delaysOf x r.1) r.2).map (fun y => (r.1, y))

def bootImage (x : BootImages) (k : Nat) : List Byte := nth [] x.images k

/-- Training of every pseudo-channel from the default repair of the configuration image. -/
def trainedAll (x : BootImages) : List (Option (Nat × BitVec 16)) := (repairBytes (bootImage x 1)).map (trainChannel x)

/-- BOOTSTAT after measured boot and training (R387, R389, R390). -/
def bootStatus (x : BootImages) : Nat :=
  if !signed (bootImage x 0) then 2
  else if !signed (bootImage x 1) || !configOk (bootImage x 1) then 3
  else if !signed (bootImage x 2) then 2
  else if (trainedAll x).any Option.isNone then 4
  else 1

/-- COLD_RESET (R387 to R390, R392): everything but flash is cleared, and boot, configuration and training rerun; the
module stays in reset when a stage is rejected. -/
def execColdReset (x : BootImages) (s : State) : Host.Outcome State Fault Refusal :=
  let st := bootStatus x
  let ds := [0, 1, 2].map (fun k => digest (bootImage x k))
  .next { State.reset with
    tick := s.tick, turn := s.turn, inbox := s.inbox, hostMem := s.hostMem, peerMem := s.peerMem
    harvest := if st = 1 then coreBytes (bootImage x 1) else []
    limits := if st = 1 then powerLimits (bootImage x 1) else []
    repair := if st = 1 then (trainedAll x).filterMap id else []
    delays := if st = 1 then (List.range 1536).map (fun c => (c, delaysOf x c)) else []
    measurements := if st = 1 || st = 4 then ds ++ [chain ds] else []
    regs := { Regs.reset with bootstat := BitVec.ofNat 32 st } }

/-- Frames whose contents a warm reset keeps for nobody: those that hold a byte, an error or an owner, and those that one before it
left (R206). -/
def State.keptFrames (s : State) : List Nat :=
  let bytes : List Nat := s.mem.map (fun c => frameKey c.1)
  let owned : List Nat := (s.frames.filter (fun x => frameOwner x.2 != 0)).map (·.1)
  (bytes ++ s.poison.map (· / 2048) ++ owned ++ s.retained).dedup

/-- WARM_RESET (R392): contexts and what the sync engines, cores and Imfer core hold of them are cleared and the counter
restarts; training and the contents of HBM4E stay. -/
def execWarmReset (s : State) : Host.Outcome State Fault Refusal :=
  .next { State.reset with
    tick := s.tick, turn := s.turn, inbox := s.inbox, hostMem := s.hostMem, peerMem := s.peerMem
    mem := s.mem, poison := s.poison, retained := s.keptFrames
    harvest := s.harvest, repair := s.repair, delays := s.delays, limits := s.limits, measurements := s.measurements, powered := s.powered
    regs := { Regs.reset with bootstat := s.regs.bootstat, throttle := s.regs.throttle, spanstat := s.regs.spanstat } }

/- ### Power and links (R385, R391) -/

/-- THROTTLE (R391): the die's bit reads 1. -/
def execThrottle (die : Nat) (s : State) : Host.Outcome State Fault Refusal :=
  .next { s with regs := { s.regs with throttle := s.regs.throttle ||| BitVec.ofNat 8 (2 ^ die) } }
/-- THROTTLE_END (R391). -/
def execThrottleEnd (die : Nat) (s : State) : Host.Outcome State Fault Refusal :=
  .next { s with regs := { s.regs with throttle := s.regs.throttle &&& ~~~BitVec.ofNat 8 (2 ^ die) } }

/-- THERMAL_POWER_REMOVAL (R391): no dump is written, and the next start is a cold reset. -/
def execThermalPowerRemoval (s : State) : Host.Outcome State Fault Refusal :=
  .next { State.reset with tick := s.tick, turn := s.turn, inbox := s.inbox, hostMem := s.hostMem, peerMem := s.peerMem, powered := false }

/-- SPAN_LINK_DOWN (R385): a change from up to down raises LINK_DOWN once. -/
def execSpanLinkDown (link : Nat) (s : State) : Host.Outcome State Fault Refusal :=
  if bitOf s.regs.spanstat.toNat link && link < 12 then
    .next ({ s with regs := { s.regs with spanstat := s.regs.spanstat &&& ~~~BitVec.ofNat 12 (2 ^ link) } }.post 10 0 0 (BitVec.ofNat 32 link) 0)
  else .refused .eventNotEnabled

/-- What becomes of the requests of a group that a link holds as it comes up (R385). -/
def Group.linkUp (g : Group) (link clk : Nat) : Group :=
  { g with spanHold := g.spanHold.map (fun h =>
      if h.link != link || h.expired then h else if clk < h.since + tenMs then { h with passed := true } else { h with expired := true }) }

/-- SPAN_LINK_UP (R385): requests that it holds proceed. -/
def execSpanLinkUp (link : Nat) (s : State) : Host.Outcome State Fault Refusal :=
  if !bitOf s.regs.spanstat.toNat link && link < 12 then
    .next (({ s with regs := { s.regs with spanstat := s.regs.spanstat ||| BitVec.ofNat 12 (2 ^ link) } } : State).modGroups
      (fun g => g.linkUp link s.clk))
  else .refused .eventNotEnabled

/-- The 10 ms of a request are over, and its link is down (R385). -/
def State.holdOver (s : State) (h : SpanHold) : Bool :=
  !h.expired && !h.passed && h.since + tenMs ≤ s.clk && !bitOf s.regs.spanstat.toNat h.link

/-- SPAN_REQUEST_TIMEOUT (R385): 10 ms have passed with the link down, so that the request faults when it is tried
again. -/
def execSpanRequestTimeout (k : GKey) (s : State) : Host.Outcome State Fault Refusal :=
  match s.group? k with
  | none => .refused .eventNotEnabled
  | some g =>
    if g.spanHold.any s.holdOver then
      .next (s.modGroup k (fun g => { g with spanHold := g.spanHold.map (fun h => if s.holdOver h then { h with expired := true } else h) }))
    else .refused .eventNotEnabled

/-- LINK_RETRAIN (R392): flits in flight are sent again after training, and every window stays. -/
def execLinkRetrain (_link : Nat) (s : State) : Host.Outcome State Fault Refusal := .next s

/-- FLIT_CRC_RESEND (R385): a flit that fails its CRC is sent again. -/
def execFlitCrcResend (_link : Nat) (s : State) : Host.Outcome State Fault Refusal := .next s

end Sys2Proof.Machine
end

