-- ==== Sys2Proof/Machine/Dispatch.lean ====
section
/-! DEFINITION. One arm for every constructor of `Instr`: a direct call of its meaning. -/

namespace Sys2Proof.Machine

def exec (i : Instr) (s : State) : Host.Outcome State Fault Refusal :=
  match i with
  | .nop c => Sys2Proof.Machine.execNop c s
  | .yield c => Sys2Proof.Machine.execYield c s
  | .bra c hint off => Sys2Proof.Machine.execBra c hint off s
  | .brc c neg dim a hint off => Sys2Proof.Machine.execBrc c neg dim a hint off s
  | .brx c t => Sys2Proof.Machine.execBrx c t s
  | .call c k hint off => Sys2Proof.Machine.execCall c k hint off s
  | .callReg c k t => Sys2Proof.Machine.execCallReg c k t s
  | .ret c k => Sys2Proof.Machine.execRet c k s
  | .exit c => Sys2Proof.Machine.execExit c s
  | .join c m => Sys2Proof.Machine.execJoin c m s
  | .leave c m => Sys2Proof.Machine.execLeave c m s
  | .waitm c m => Sys2Proof.Machine.execWaitm c m s
  | .mop c op d a b => Sys2Proof.Machine.execMop c op d a b s
  | .mcnt c d a => Sys2Proof.Machine.execMcnt c d a s
  | .mfrom c d a => Sys2Proof.Machine.execMfrom c d a s
  | .mto c d a => Sys2Proof.Machine.execMto c d a s
  | .loop c lc count len => Sys2Proof.Machine.execLoop c lc count len s
  | .loopq c lc q len dim => Sys2Proof.Machine.execLoopq c lc q len dim s
  | .lbrk c n => Sys2Proof.Machine.execLbrk c n s
  | .qbind c q h d it => Sys2Proof.Machine.execQbind c q h d it s
  | .qstat c d q sel => Sys2Proof.Machine.execQstat c d q sel s
  | .qskip c q n => Sys2Proof.Machine.execQskip c q n s
  | .sign c => Sys2Proof.Machine.execSign c s
  | .cvwait c a sel => Sys2Proof.Machine.execCvwait c a sel s
  | .cvrd c d sel => Sys2Proof.Machine.execCvrd c d sel s
  | .elect c d => Sys2Proof.Machine.execElect c d s
  | .bcast c d a l => Sys2Proof.Machine.execBcast c d a l s
  | .iadd c it sat d a b => Sys2Proof.Machine.execIadd c it sat d a b s
  | .isub c it sat d a b => Sys2Proof.Machine.execIsub c it sat d a b s
  | .iaddc c it d a b m => Sys2Proof.Machine.execIaddc c it d a b m s
  | .isubb c it d a b m => Sys2Proof.Machine.execIsubb c it d a b m s
  | .imul c it d a b => Sys2Proof.Machine.execImul c it d a b s
  | .imulh c it d a b => Sys2Proof.Machine.execImulh c it d a b s
  | .imad c it d a b e => Sys2Proof.Machine.execImad c it d a b e s
  | .imin c it d a b => Sys2Proof.Machine.execImin c it d a b s
  | .imax c it d a b => Sys2Proof.Machine.execImax c it d a b s
  | .iabs c it d a => Sys2Proof.Machine.execIabs c it d a s
  | .shl c it d a b => Sys2Proof.Machine.execShl c it d a b s
  | .shr c it d a b => Sys2Proof.Machine.execShr c it d a b s
  | .sar c it d a b => Sys2Proof.Machine.execSar c it d a b s
  | .rotl c it d a b => Sys2Proof.Machine.execRotl c it d a b s
  | .bfx c it d a pos len => Sys2Proof.Machine.execBfx c it d a pos len s
  | .bfi c it d a b f => Sys2Proof.Machine.execBfi c it d a b f s
  | .popc c it d a => Sys2Proof.Machine.execPopc c it d a s
  | .clz c it d a => Sys2Proof.Machine.execClz c it d a s
  | .ctz c it d a => Sys2Proof.Machine.execCtz c it d a s
  | .brev c it d a => Sys2Proof.Machine.execBrev c it d a s
  | .icmp c it p d a b => Sys2Proof.Machine.execIcmp c it p d a b s
  | .isel c d a b e => Sys2Proof.Machine.execIsel c d a b e s
  | .mov c d a => Sys2Proof.Machine.execMov c d a s
  | .movw c hi d a imm => Sys2Proof.Machine.execMovw c hi d a imm s
  | .movi c d imm => Sys2Proof.Machine.execMovi c d imm s
  | .cvti c dst src sat d a => Sys2Proof.Machine.execCvti c dst src sat d a s
  | .bitfn c k d a b e => Sys2Proof.Machine.execBitfn c k d a b e s
  | .lsh c op d a b => Sys2Proof.Machine.execLsh c op d a b s
  | .lxch c d a b => Sys2Proof.Machine.execLxch c d a b s
  | .lred c op it d a => Sys2Proof.Machine.execLred c op it d a s
  | .lscan c op it excl d a => Sys2Proof.Machine.execLscan c op it excl d a s
  | .lbal c d a => Sys2Proof.Machine.execLbal c d a s
  | .lvote c op d a => Sys2Proof.Machine.execLvote c op d a s
  | .lget c d a l => Sys2Proof.Machine.execLget c d a l s
  | .lput c d a l => Sys2Proof.Machine.execLput c d a l s
  | .fadd c ft r sat d a b seed => Sys2Proof.Machine.execFadd c ft r sat d a b seed s
  | .fsub c ft r sat d a b seed => Sys2Proof.Machine.execFsub c ft r sat d a b seed s
  | .fmul c ft r sat d a b seed => Sys2Proof.Machine.execFmul c ft r sat d a b seed s
  | .ffma c ft r d a b e => Sys2Proof.Machine.execFfma c ft r d a b e s
  | .fmin c ft d a b => Sys2Proof.Machine.execFmin c ft d a b s
  | .fmax c ft d a b => Sys2Proof.Machine.execFmax c ft d a b s
  | .fminn c ft d a b => Sys2Proof.Machine.execFminn c ft d a b s
  | .fmaxn c ft d a b => Sys2Proof.Machine.execFmaxn c ft d a b s
  | .fcmp c ft p d a b => Sys2Proof.Machine.execFcmp c ft p d a b s
  | .fclass c ft d a => Sys2Proof.Machine.execFclass c ft d a s
  | .fcvt c dst src r sat d a seed => Sys2Proof.Machine.execFcvt c dst src r sat d a seed s
  | .frnd c ft r d a => Sys2Proof.Machine.execFrnd c ft r d a s
  | .fscale c ft r d a n => Sys2Proof.Machine.execFscale c ft r d a n s
  | .fsqrt c ft r d a => Sys2Proof.Machine.execFsqrt c ft r d a s
  | .frcp c ft d a => Sys2Proof.Machine.execFrcp c ft d a s
  | .frsq c ft d a => Sys2Proof.Machine.execFrsq c ft d a s
  | .fdivs c ft d a b => Sys2Proof.Machine.execFdivs c ft d a b s
  | .fexp2 c ft d a => Sys2Proof.Machine.execFexp2 c ft d a s
  | .flog2 c ft d a => Sys2Proof.Machine.execFlog2 c ft d a s
  | .fsin c ft d a => Sys2Proof.Machine.execFsin c ft d a s
  | .fcos c ft d a => Sys2Proof.Machine.execFcos c ft d a s
  | .ftanh c ft d a => Sys2Proof.Machine.execFtanh c ft d a s
  | .fsigm c ft d a => Sys2Proof.Machine.execFsigm c ft d a s
  | .fact c ft d a => Sys2Proof.Machine.execFact c ft d a s
  | .tblsel c a => Sys2Proof.Machine.execTblsel c a s
  | .tblld c a bank => Sys2Proof.Machine.execTblld c a bank s
  | .pradd c ft r swb d a b seed => Sys2Proof.Machine.execPradd c ft r swb d a b seed s
  | .prmul c ft r swb d a b seed => Sys2Proof.Machine.execPrmul c ft r swb d a b seed s
  | .prfma c ft r swb d a b e => Sys2Proof.Machine.execPrfma c ft r swb d a b e s
  | .dp4i c sat d a b e => Sys2Proof.Machine.execDp4i c sat d a b e s
  | .dp8i c sat d a b e => Sys2Proof.Machine.execDp8i c sat d a b e s
  | .dpf8 c ka kb d a b e => Sys2Proof.Machine.execDpf8 c ka kb d a b e s
  | .dpf4 c d a b e => Sys2Proof.Machine.execDpf4 c d a b e s
  | .mxsc c one d a sa sb => Sys2Proof.Machine.execMxsc c one d a sa sb s
  | .pcvt c dst src r sat d a seed => Sys2Proof.Machine.execPcvt c dst src r sat d a seed s
  | .punp c src hi d a => Sys2Proof.Machine.execPunp c src hi d a s
  | .vtopk c asc d a b k => Sys2Proof.Machine.execVtopk c asc d a b k s
  | .vtopkm c asc d a k => Sys2Proof.Machine.execVtopkm c asc d a k s
  | .argmx c ft asc d a b => Sys2Proof.Machine.execArgmx c ft asc d a b s
  | .mwld c fmt a b => Sys2Proof.Machine.execMwld c fmt a b s
  | .mwsw c => Sys2Proof.Machine.execMwsw c s
  | .mwfm c => Sys2Proof.Machine.execMwfm c s
  | .mma c ka reuse t i_ j a b e => Sys2Proof.Machine.execMma c ka reuse t i_ j a b e s
  | .mzero c t => Sys2Proof.Machine.execMzero c t s
  | .mrda c raw t d n row0 col => Sys2Proof.Machine.execMrda c raw t d n row0 col s
  | .mwra c t d n row0 col => Sys2Proof.Machine.execMwra c t d n row0 col s
  | .msta c t a ft => Sys2Proof.Machine.execMsta c t a ft s
  | .mlda c t a => Sys2Proof.Machine.execMlda c t a s
  | .mrow c i_ a => Sys2Proof.Machine.execMrow c i_ a s
  | .mcol c j a => Sys2Proof.Machine.execMcol c j a s
  | .msca c a => Sys2Proof.Machine.execMsca c a s
  | .mrel c => Sys2Proof.Machine.execMrel c s
  | .mfin c => Sys2Proof.Machine.execMfin c s
  | .ld c it d x => Sys2Proof.Machine.execLd c it d x s
  | .st c it d x => Sys2Proof.Machine.execSt c it d x s
  | .ldx c it d x => Sys2Proof.Machine.execLdx c it d x s
  | .stx c it d x => Sys2Proof.Machine.execStx c it d x s
  | .ldv c it d x => Sys2Proof.Machine.execLdv c it d x s
  | .stv c it d x => Sys2Proof.Machine.execStv c it d x s
  | .pref c h b off => Sys2Proof.Machine.execPref c h b off s
  | .fence c ord scp => Sys2Proof.Machine.execFence c ord scp s
  | .btrd c d h w => Sys2Proof.Machine.execBtrd c d h w s
  | .rowmap c ind h row val => Sys2Proof.Machine.execRowmap c ind h row val s
  | .restripe c gathered h tag pace => Sys2Proof.Machine.execRestripe c gathered h tag pace s
  | .rsqry c d h => Sys2Proof.Machine.execRsqry c d h s
  | .ipadd c it sat h dst a b => Sys2Proof.Machine.execIpadd c it sat h dst a b s
  | .ipsub c it sat h dst a b => Sys2Proof.Machine.execIpsub c it sat h dst a b s
  | .ipmin c it h dst a b => Sys2Proof.Machine.execIpmin c it h dst a b s
  | .ipmax c it h dst a b => Sys2Proof.Machine.execIpmax c it h dst a b s
  | .ipmac c ft h dst a b => Sys2Proof.Machine.execIpmac c ft h dst a b s
  | .ipcpy c h dst a => Sys2Proof.Machine.execIpcpy c h dst a s
  | .nbkick c h slot args tag => Sys2Proof.Machine.execNbkick c h slot args tag s
  | .nbstat c d tag => Sys2Proof.Machine.execNbstat c d tag s
  | .ldsp c it d a b => Sys2Proof.Machine.execLdsp c it d a b s
  | .stsp c it d a b => Sys2Proof.Machine.execStsp c it d a b s
  | .tlook c d key => Sys2Proof.Machine.execTlook c d key s
  | .tset c slot key => Sys2Proof.Machine.execTset c slot key s
  | .tclr c slot => Sys2Proof.Machine.execTclr c slot s
  | .copy c tag a => Sys2Proof.Machine.execCopy c tag a s
  | .copyShadow c tag a => Sys2Proof.Machine.execCopyShadow c tag a s
  | .blkcpy c tag h idx a => Sys2Proof.Machine.execBlkcpy c tag h idx a s
  | .waitany c d mask scp => Sys2Proof.Machine.execWaitany c d mask scp s
  | .waitall c d mask scp => Sys2Proof.Machine.execWaitall c d mask scp s
  | .ffrdy c d mask => Sys2Proof.Machine.execFfrdy c d mask s
  | .tagclr c mask => Sys2Proof.Machine.execTagclr c mask s
  | .shadow c tag h first count => Sys2Proof.Machine.execShadow c tag h first count s
  | .publish c h => Sys2Proof.Machine.execPublish c h s
  | .aadd c it d x => Sys2Proof.Machine.execAadd c it d x s
  | .amin c it d x => Sys2Proof.Machine.execAmin c it d x s
  | .amax c it d x => Sys2Proof.Machine.execAmax c it d x s
  | .aand c it d x => Sys2Proof.Machine.execAand c it d x s
  | .aor c it d x => Sys2Proof.Machine.execAor c it d x s
  | .axor c it d x => Sys2Proof.Machine.execAxor c it d x s
  | .axchg c it d x => Sys2Proof.Machine.execAxchg c it d x s
  | .acas c it d x => Sys2Proof.Machine.execAcas c it d x s
  | .afadd c ft d x => Sys2Proof.Machine.execAfadd c ft d x s
  | .redop c t o d x => Sys2Proof.Machine.execRedop c t o d x s
  | .barr c h off => Sys2Proof.Machine.execBarr c h off s
  | .barw c h off => Sys2Proof.Machine.execBarw c h off s
  | .mbput c q a => Sys2Proof.Machine.execMbput c q a s
  | .mbget c d q => Sys2Proof.Machine.execMbget c d q s
  | .mbtry c d q => Sys2Proof.Machine.execMbtry c d q s
  | .vld c w64 d h off ctx => Sys2Proof.Machine.execVld c w64 d h off ctx s
  | .vlds c w64 d h off i_ => Sys2Proof.Machine.execVlds c w64 d h off i_ s
  | .vst c w64 d h off ctx => Sys2Proof.Machine.execVst c w64 d h off ctx s
  | .recon c op all d h off ctx => Sys2Proof.Machine.execRecon c op all d h off ctx s
  | .trap c a => Sys2Proof.Machine.execTrap c a s
  | .rteReplay c a => Sys2Proof.Machine.execRteReplay c a s
  | .rteSkip c => Sys2Proof.Machine.execRteSkip c s
  | .rteResume c => Sys2Proof.Machine.execRteResume c s
  | .gsr c d sel => Sys2Proof.Machine.execGsr c d sel s
  | .ssr c sel b => Sys2Proof.Machine.execSsr c sel b s
  | .halt c => Sys2Proof.Machine.execHalt c s
  | .brk c => Sys2Proof.Machine.execBrk c s
  | .clk c d => Sys2Proof.Machine.execClk c d s
  | .streamPrefetch k q => Sys2Proof.Machine.execStreamPrefetch k q s
  | .instanceIssue n => Sys2Proof.Machine.execInstanceIssue n s
  | .tblldLoadComplete core bank => Sys2Proof.Machine.execTblldLoadComplete core bank s
  | .weightLoadComplete p => Sys2Proof.Machine.execWeightLoadComplete p s
  | .bankSwap p => Sys2Proof.Machine.execBankSwap p s
  | .mmaPass p => Sys2Proof.Machine.execMmaPass p s
  | .arraySequenceStep p => Sys2Proof.Machine.execArraySequenceStep p s
  | .resultWrite k n => Sys2Proof.Machine.execResultWrite k n s
  | .checksDecided k => Sys2Proof.Machine.execChecksDecided k s
  | .clauseFetch k => Sys2Proof.Machine.execClauseFetch k s
  | .readCopyExpiry die line => Sys2Proof.Machine.execReadCopyExpiry die line s
  | .lineMoveStart buf => Sys2Proof.Machine.execLineMoveStart buf s
  | .lineMoveCommit buf => Sys2Proof.Machine.execLineMoveCommit buf s
  | .kickStep core tag => Sys2Proof.Machine.execKickStep core tag s
  | .copySegment core tag => Sys2Proof.Machine.execCopySegment core tag s
  | .publishExchange k => Sys2Proof.Machine.execPublishExchange k s
  | .siblingArrival buf off src dst => Sys2Proof.Machine.execSiblingArrival buf off src dst s
  | .heldSiblingRelease buf off src dst => Sys2Proof.Machine.execHeldSiblingRelease buf off src dst s
  | .compaction buf off => Sys2Proof.Machine.execCompaction buf off s
  | .haltLineArrival ctx die => Sys2Proof.Machine.execHaltLineArrival ctx die s
  | .dumpWrite ctx => Sys2Proof.Machine.execDumpWrite ctx s
  | .handlerOverrun k => Sys2Proof.Machine.execHandlerOverrun k s
  | .debugStop ctx => Sys2Proof.Machine.execDebugStop ctx s
  | .debugResume ctx => Sys2Proof.Machine.execDebugResume ctx s
  | .singleStep k => Sys2Proof.Machine.execSingleStep k s
  | .launch r => Sys2Proof.Machine.execLaunch r s
  | .teamPlacement launch => Sys2Proof.Machine.execTeamPlacement launch s
  | .partialEviction launch => Sys2Proof.Machine.execPartialEviction launch s
  | .partyRestore core => Sys2Proof.Machine.execPartyRestore core s
  | .groupExchange p => Sys2Proof.Machine.execGroupExchange p s
  | .pendingGroupEntry p => Sys2Proof.Machine.execPendingGroupEntry p s
  | .ctxCreate x => Sys2Proof.Machine.execCtxCreate x s
  | .ctxHalt x => Sys2Proof.Machine.execCtxHalt x s
  | .ctxDestroy x => Sys2Proof.Machine.execCtxDestroy x s
  | .contextRetire ctx => Sys2Proof.Machine.execContextRetire ctx s
  | .ctxAnnex x => Sys2Proof.Machine.execCtxAnnex x s
  | .slotLoad x => Sys2Proof.Machine.execSlotLoad x s
  | .slotLoadComplete => Sys2Proof.Machine.execSlotLoadComplete s
  | .frameRef x => Sys2Proof.Machine.execFrameRef x s
  | .bufAdopt x => Sys2Proof.Machine.execBufAdopt x s
  | .hostPost off bytes => Sys2Proof.Machine.execHostPost off bytes s
  | .cxlMemRequest x => Sys2Proof.Machine.execCxlMemRequest x s
  | .acccntWrite tier frame val => Sys2Proof.Machine.execAcccntWrite tier frame val s
  | .evqHead val => Sys2Proof.Machine.execEvqHead val s
  | .eventOverflowDelivery die => Sys2Proof.Machine.execEventOverflowDelivery die s
  | .lostev die => Sys2Proof.Machine.execLostev die s
  | .controlRegisterWrite off val => Sys2Proof.Machine.execControlRegisterWrite off val s
  | .getVersion => Sys2Proof.Machine.execGetVersion s
  | .getCapabilities => Sys2Proof.Machine.execGetCapabilities s
  | .negotiateAlgorithms sigs hashes => Sys2Proof.Machine.execNegotiateAlgorithms sigs hashes s
  | .getDigests => Sys2Proof.Machine.execGetDigests s
  | .getCertificate => Sys2Proof.Machine.execGetCertificate s
  | .challenge nonce => Sys2Proof.Machine.execChallenge nonce s
  | .getMeasurements index => Sys2Proof.Machine.execGetMeasurements index s
  | .coldReset x => Sys2Proof.Machine.execColdReset x s
  | .warmReset => Sys2Proof.Machine.execWarmReset s
  | .throttle die => Sys2Proof.Machine.execThrottle die s
  | .thermalPowerRemoval => Sys2Proof.Machine.execThermalPowerRemoval s
  | .spanLinkDown link => Sys2Proof.Machine.execSpanLinkDown link s
  | .spanLinkUp link => Sys2Proof.Machine.execSpanLinkUp link s
  | .spanRequestTimeout k => Sys2Proof.Machine.execSpanRequestTimeout k s
  | .linkRetrain link => Sys2Proof.Machine.execLinkRetrain link s
  | .flitCrcResend link => Sys2Proof.Machine.execFlitCrcResend link s
  | .dieLost die => Sys2Proof.Machine.execDieLost die s
  | .heartbeatTimeout die => Sys2Proof.Machine.execHeartbeatTimeout die s
  | .unassignedEncoding w => Sys2Proof.Machine.execUnassignedEncoding w s
  | .peerModuleRequest link x => Sys2Proof.Machine.execPeerModuleRequest link x s
  | .throttleEnd die => Sys2Proof.Machine.execThrottleEnd die s
  | .breakpointSet ctx addr on => Sys2Proof.Machine.execBreakpointSet ctx addr on s
  | .segholdRelease ctx tag => Sys2Proof.Machine.execSegholdRelease ctx tag s

end Sys2Proof.Machine
end

