-- ==== Sys2Proof/Machine/Moves.lean ====
section
/-! DEFINITION. What can happen at a step: the fetch of the instruction at a group's issue point (R35, R60, R63, R322), the
choice of a partition (R364), the events of the part that are enabled, and the actions of outside agents. -/

namespace Sys2Proof.Machine

/-- One thing that happens at a step. -/
inductive Move where
  /-- An instruction issues for a group, or an event occurs. -/
  | exec (i : Instr) (cur : Issue)
  /-- A group that is held tries its instruction again, or comes to an instruction. -/
  | issue (k : GKey) (i : Instr) (cur : Issue)
  /-- A pending access is performed (R281). -/
  | drain (k : GKey) (n : Nat)
  /-- A table load begins (R164). -/
  | startLoad (k : CKey) (bank : Nat)
  /-- The oldest action of an outside agent lands. -/
  | outside (n : Nat) (x : Outside)
  /-- The Imfer core takes an entry whose CODE is unknown (R381). -/
  | badCommand
  deriving DecidableEq, Repr

/- ### Results that are due (R36) -/

/-- The fixed-latency results of a group that are due are in its registers. DESIGN CHOICE (log 87): of two writes of one register
that are in flight together, at least one of fixed latency, the one that lands later stands, and of two that are due at once the one
that issued later; R36 states only what reads see. -/
def Group.landDue (clk : Nat) (g : Group) : Group :=
  let due := fun (e : InFlight) => match e.due with | some t => decide (t ≤ clk) | none => false
  { (g.inFlight.filter due).foldl (fun g e => Write.applyAll g e.writes) g with inFlight := g.inFlight.filter (fun e => !due e) }

def Group.hasDue (clk : Nat) (g : Group) : Bool :=
  g.inFlight.any (fun e => match e.due with | some t => decide (t ≤ clk) | none => false)

/-- Results that are due land, what their masks release is released, and generations that are due complete. -/
def State.land (s : State) : State :=
  let ks := (s.groups.filter (Group.hasDue s.clk)).map (·.key)
  (if ks.isEmpty then s else ks.foldl State.settle (s.modGroups (Group.landDue s.clk))).endGens

/- ### The instruction at an address -/

/-- The instruction at a code address of a group: its words decode, or it is unassigned (R40, R44). -/
def State.fetched (s : State) (g : Group) (pc : Word) : Instr :=
  match s.instrAt g pc with
  | .ok i => i
  | .error _ => .unassignedEncoding (s.codeWord g pc)

/-- The issue of a group from its own place: its handler thread, or the lanes at its issue point (R60, R322). -/
def State.issueAt (s : State) (g : Group) (pc : Word) (p : ClausePos) : Issue :=
  let h := s.codeWord g p.hdr
  let lanes : Mask := if g.inh then 1 else g.pointLanes pc
  { phase := if g.inh then .handler else .group, scope := .lane, pc := pc,
    next := pc + BitVec.ofNat 32 (instrBytes (s.codeWord g pc)), pos := p, sb := hdrSb h, cls := hdrCls h, yieldBit := hdrYield h,
    doneAt := s.clk, members := [⟨g.key, lanes, lanes⟩] }

/-- What a group does next: it issues, fetches a clause (R41, R63), or stops at a breakpoint (R331). -/
def State.groupMove (s : State) (g : Group) : Option Move :=
  match g.nextPoint with
  | none => none
  | some (pc, pos) =>
    match pos with
    | none => some (.exec (.clauseFetch g.key) Issue.idle)
    | some p =>
      if s.pastImage g pc true then some (.exec (.clauseFetch g.key) Issue.idle)
      else if s.atBreak g && !g.stepOne then some (.exec (.debugStop g.ctx) Issue.idle)
      else some (.issue g.key (s.fetched g pc) (s.issueAt g pc p))

/-- The state in which a group issues. -/
def State.atIssue (s : State) (k : GKey) (cur : Issue) : State :=
  { s.modGroup k (fun g => { g with heldSince := none }) with cur := cur }

/- ### Readiness (R35, R319, R331, R334, R363, R368) -/

/-- Lanes of the group wait in a complete instance, or it is to issue a replay: its own next issue comes after (R98, R325). -/
def State.inInstance (s : State) (g : Group) : Bool := s.instances.any (fun i => i.iss.members.any (fun m => m.key == g.key))

/-- Nothing but its slot and its own entry stands against the group's next instruction. -/
def State.mayGo (s : State) (g : Group) : Bool :=
  g.resident && g.live != 0 && !g.susp && !g.stopped && (!g.dstop || g.stepOne) && !s.stopsFor g && !s.overran g &&
    !s.goingOut g && !s.lineAt g.ctx g.core.die && !s.lost.contains g.core.die && decide (g.nextIssue ≤ s.clk) && !g.checks &&
    !(g.drain && !g.inFlight.isEmpty) && (g.inh || !s.inInstance g) && (s.waitsOn g).isEmpty

/-- The group's instruction, tried now, is held by its own entry. -/
def State.wouldHold (s : State) (k : GKey) (i : Instr) (cur : Issue) : Bool :=
  match (orSame s (exec i (s.atIssue k cur))).group? k with
  | some g => g.heldSince.isSome
  | none => false

/-- The groups of the active set that nothing but their own entry keeps from issuing. -/
def State.goers (s : State) (p : PKey) : List Group := s.groups.filter (fun g => g.pkey == p && g.slot.isSome && s.mayGo g)

/-- The instruction of a complete instance has held it, and would again (R363). -/
def State.stillHeld (s : State) : Instr → Bool
  | .instanceIssue n =>
    match s.instances[n]? with
    | some x =>
      let s1 := { s with cur := x.iss, instances := s.instances.eraseIdx n }
      x.held && (match x.iss.members.head?.bind (fun m => s.group? m.key) with
        | some g => s.instances.length ≤ (orSame s1 (exec (s.fetched g x.iss.pc) s1)).instances.length
        | none => false)
    | none => false
  | _ => false

/-- The instances that issue as a group's own instruction does, those of GROUP scope and the replays of one group, with the group of
a partition that they issue for: they are among what the partition chooses from (R98, R364). -/
def State.instanceComers (s : State) (p : PKey) : List (Group × Move) :=
  (s.instances.zipIdx).filterMap (fun x =>
    match x.1.iss.members.head?.bind (fun m => s.group? m.key) with
    | some g =>
      if x.1.iss.ordinary && g.pkey == p && s.instanceMay x.1 && !s.lost.contains g.core.die && !s.stillHeld (.instanceIssue x.2) then
        some (g, .exec (.instanceIssue x.2) Issue.idle)
      else none
    | none => none)

/-- The groups of a partition that may issue, each with its move; a clause is fetched, and a breakpoint stops, before the
partition chooses (R41, R331, R363). -/
def State.comers (s : State) (p : PKey) : List (Group × Move) :=
  if s.clk < (s.part p).freeAt then []
  else
    let ms := (s.goers p).filterMap (fun g => (s.groupMove g).map (fun m => (g, m)))
    if ms.any (fun x => match x.2 with | .issue _ _ _ => false | _ => true) then []
    else ms ++ s.instanceComers p

/-- The first slot, from the one after the last issue on, that has one of the groups (R364). -/
def slotOrder (start : Nat) (gs : List (Group × Move)) : Option (Group × Move) :=
  (List.range 8).findSome? (fun j => gs.find? (fun x => x.1.slot == some ((start + j) % 8)))

/-- R364's choice among ready groups. -/
def State.choose (s : State) (p : PKey) (ready : List (Group × Move)) : Option (Group × Move) :=
  let r := if ready.any (fun x => !x.1.yielding) then ready.filter (fun x => !x.1.yielding) else ready
  let top := (r.map (fun x => s.prio x.1.ctx)).foldl max 0
  slotOrder (match (s.part p).lastSlot with | some n => n + 1 | none => 0) (r.filter (fun x => s.prio x.1.ctx == top))

/-- The issues of a partition: R364's choice among the ready groups, and a group that comes to an instruction that holds it. -/
def State.partMoves (s : State) (p : PKey) : List Move :=
  let holds := fun (x : Group × Move) => match x.2 with | .issue k i cur => s.wouldHold k i cur | _ => false
  match s.comers p with
  | [x] => if x.1.heldSince.isSome && holds x then [] else [x.2]
  | xs =>
    let held := xs.filter holds
    let ready := xs.filter (fun x => !held.any (fun y => y.1.key == x.1.key))
    ((s.choose p ready).map (·.2)).toList ++ (held.filter (fun x => x.1.heldSince.isNone)).map (·.2)

/-- The event can occur. -/
def State.enabled (s : State) (i : Instr) : Bool :=
  match exec i { s with cur := Issue.idle, issuing := none } with | .next _ => true | _ => false

/-- Clause fetches and breakpoints of groups that may go on. -/
def State.sideMoves (s : State) : List Move :=
  s.groups.filterMap (fun g =>
    if s.mayGo g then
      (match s.groupMove g with
        | some (.exec i _) => if s.enabled i then some (.exec i Issue.idle) else none
        | _ => none)
    else none)

/- ### Events of the part -/

/-- The events that a group's state may enable. -/
def State.groupEvents (s : State) (g : Group) : List Instr :=
  if s.lost.contains g.core.die then []
  else
    (List.range g.inFlight.length).map (.resultWrite g.key) ++
    [.checksDecided g.key, .publishExchange g.key, .handlerOverrun g.key, .spanRequestTimeout g.key] ++
    (if s.lineAt g.ctx g.core.die then [] else (List.range 8).map (fun n => .streamPrefetch g.key (BitVec.ofNat 3 n)))

/-- The partitions of a core. -/
def partKeys (k : CKey) : List PKey := (List.range 4).map (fun n => ⟨k.die, k.core, n⟩)

def Core.events (c : Core) : List Instr :=
  [.tblldLoadComplete c.key 0, .tblldLoadComplete c.key 1] ++
  (partKeys c.key).flatMap (fun p => [.weightLoadComplete p, .bankSwap p, .mmaPass p, .arraySequenceStep p]) ++
  c.tags.map (fun t => .copySegment c.key t.num)

/-- The kicks started on a core go on in their controllers, whose dies are not the core's (R244). -/
def Core.kickEvents (c : Core) : List Instr := c.tags.map (fun t => .kickStep c.key t.num)

def Cell.events (c : Cell) : List Instr :=
  .compaction c.buf c.off ::
    c.queues.flatMap (fun q => [.siblingArrival c.buf c.off q.src q.dst, .heldSiblingRelease c.buf c.off q.src q.dst])

def Ctx.events (c : Ctx) : List Instr :=
  match c.halt with
  | none => []
  | some _ => [.dumpWrite c.num, .contextRetire c.num] ++ (List.range 8).map (.haltLineArrival c.num)

/-- The partitions that hold groups. -/
def State.usedParts (s : State) : List PKey := (s.groups.map Group.pkey).dedup

/-- Every event that the part itself may bring about. -/
def State.allEvents (s : State) : List Instr :=
  s.groups.flatMap s.groupEvents ++
  (List.range s.instances.length).map .instanceIssue ++
  (s.cores.filter (fun c => !s.lost.contains c.key.die)).flatMap Core.events ++ s.cores.flatMap Core.kickEvents ++
  s.usedParts.flatMap (fun p => [.pendingGroupEntry p, .groupExchange p]) ++
  ((s.evicted.map (·.core)).dedup).map .partyRestore ++
  s.launches.flatMap (fun l => [.teamPlacement l.id, .partialEviction l.id]) ++
  s.bufs.flatMap (fun b => [.lineMoveStart b.1, .lineMoveCommit b.1]) ++
  s.cells.flatMap Cell.events ++ s.ctxs.flatMap Ctx.events ++
  s.readCopies.map (fun c => .readCopyExpiry c.die c.line) ++
  s.overflow.map (fun x => .eventOverflowDelivery x.1) ++
  (if s.slotWait.isEmpty then [] else [.slotLoadComplete])

/-- The issue of an instance that its partition chooses (R364). -/
def State.chosenIssue (s : State) : Instr → Bool
  | .instanceIssue n => (s.instances[n]?).any (fun x => x.iss.ordinary)
  | _ => false

def State.eventMoves (s : State) : List Move :=
  (s.allEvents.filter (fun i => s.enabled i && !s.stillHeld i && !s.chosenIssue i)).map (fun i => .exec i Issue.idle)

/-- Pending accesses that may be performed, and table loads that may begin. -/
def State.memoryMoves (s : State) : List Move :=
  s.groups.flatMap (fun g =>
    if s.lost.contains g.core.die then []
    else (List.range g.pending.length).filterMap (fun n =>
      match g.pending[n]? with
      | some p => if s.canPerform g.key p (g.pending.take n) then some (.drain g.key n) else none
      | none => none)) ++
  s.cores.flatMap (fun c => [0, 1].filterMap (fun b =>
    match firstLoad c.loads b with
    | some l => if !l.running && s.loadMayStart c.key l && !s.lineAt l.ctx c.key.die then some (.startLoad c.key b) else none
    | none => none))

/- ### Outside agents -/

/-- The command at the head of the ring, taken by the Imfer core once boot is done (R381, R387). -/
def State.commandMoves (s : State) : List Move :=
  if s.regs.bootstat != 1 then []
  else match s.cmdNext with
    | none => []
    | some bs =>
      match cmdInstr (leNat (bs.take 2)) (cmdOf bs) with
      | some i => [.exec i Issue.idle]
      | none => [.badCommand]

def isColdReset : Instr → Bool
  | .coldReset _ => true | _ => false

/-- An action may land: any before boot is done, without power, or after a rejected stage waits for a cold reset (R387, R391), and
a post that is held waits for its space (R292). -/
def State.mayLand (s : State) : Outside → Bool
  | .act i => isColdReset i || (s.powered && s.regs.bootstat == 1 && !((cmdCode i).isSome && s.cmdFull) && !s.hostPostWaits i)
  | .hostWrite _ _ => true
  | .barRead _ _ _ => s.powered

/-- The first action that may land. -/
def State.landsFrom (s : State) (n : Nat) : List Outside → List Move
  | [] => []
  | x :: t => if s.mayLand x then [.outside n x] else s.landsFrom (n + 1) t

/-- An action of an outside agent lands. -/
def State.outside (s : State) : Outside → State
  | .act i =>
    match cmdCode i with
    | some c => s.submit c.1 c.2
    | none => orSame s (exec i s)
  | .hostWrite a bs => { s with hostMem := Memory.store s.hostMem a bs }
  | .barRead bar2 off len => { s with extRead := s.barBytes bar2 off len }

/- ### The choice -/

/-- Everything that can happen now. A group-scope instance that is complete, and nothing else, issues next (R98); without
power nothing does. -/
def State.moves (s : State) : List Move :=
  if !s.powered then s.landsFrom 0 s.inbox
  else match s.issuing with
    | some iss =>
      match iss.members.head?.bind (fun m => s.group? m.key) with
      | some g => [.exec (s.fetched g iss.pc) iss]
      | none => []
    | none => s.usedParts.flatMap s.partMoves ++ s.sideMoves ++ s.memoryMoves ++ s.eventMoves ++ s.commandMoves ++ s.landsFrom 0 s.inbox

/-- Do it. -/
def State.perform1 (s : State) : Move → Host.Outcome State Fault Refusal
  | .exec i cur => exec i { s with cur := cur, issuing := none }
  | .issue k i cur => exec i (s.atIssue k cur)
  | .drain k n => .next (s.performNth k n)
  | .startLoad k b => .next (s.startLoad k b)
  | .outside n x => .next (({ s with inbox := s.inbox.eraseIdx n, cur := Issue.idle } : State).outside x)
  | .badCommand => .next (s.complete 1)

/-- The next move: `turn` says which of those that can happen does. -/
def State.nextMove? (s : State) : Option Move := s.moves[s.turn % s.moves.length]?

/-- The hold of a group by its own instruction is over (R363). -/
def State.heldNoMore (s : State) (g : Group) : Bool :=
  g.heldSince.isSome && (match s.groupMove g with | some (.issue k i cur) => !s.wouldHold k i cur | _ => false)

/-- Groups, and instances, whose holds are over are in no stall by them any more (R365). -/
def State.endHolds (s : State) : State :=
  { s with
    groups := s.groups.map (fun g => if s.heldNoMore g then { g with heldSince := none } else g)
    instances := (s.instances.zipIdx).map (fun x => if x.1.held && !s.stillHeld (.instanceIssue x.2) then { x.1 with held := false } else x.1) }

/-- Time passes, and the free choices of the next step are drawn anew. -/
def State.tickOn (s0 : State) : State :=
  let s := s0.noteWaits
  State.endHolds { s with tick := s.tick + 1, turn := Config.pick s.tick, clk := s.clk + Config.clkAdvance s.tick }

/- ### One instruction placed for the next step -/

/-- A launch of one team of one group, in a party, with every register that a group can have (R53, R356). -/
def probeDesc : BitVec 512 :=
  BitVec.ofNat 512 (15 * 2 ^ 8 + 2 ^ 13 + 64 * 2 ^ 16 + 255 * 2 ^ 24 + 511 * 2 ^ 32 + 2 ^ 64 + 32 * 2 ^ 256)

/-- Context 1, with every area of its descriptor left out. -/
def probeCtx : Ctx := Ctx.ofDesc 1

def probeLaunch (id : Nat) : Launch :=
  { id := id, ctx := 1, desc := probeDesc, codeBase := 0, codeLen := 2 ^ 18, inits := [], place := [], next := 1, ptr := 1, resident := true,
    plan := [] }

/-- A clause header of one instruction of the word's class, counted on sb0 (R24). -/
def probeHeader (w : Nat) : Nat := 2 ^ 28 + (classOf (fld w 19 7)).getD 0 * 2 ^ 25

/-- The machine with one group that stands at the instruction of a word, in a clause of its own at code address 0; the
bits above those given are 0. -/
def State.withProbe (s : State) (w : Nat) : State :=
  let k : CKey := ⟨0, 0⟩
  let l := probeLaunch s.nextLaunch
  let s1 : State :=
    { s with
      turn := 0, inbox := [], instances := [], completing := [], issuing := none, groups := [], teams := [], launches := [l], ctxs := [probeCtx]
      cores := s.cores.filter (fun c => c.key != k), evicted := [], lost := [], powered := true
      mem := Memory.store s.mem 0 (leBytes 4 (probeHeader w) ++ leBytes 8 w) }
  (s1.placeTeam l 0 k [k]).modGroups (fun g =>
    { g with pcs := List.replicate W 4, clause := List.replicate W (some ⟨0, 1⟩) })

end Sys2Proof.Machine
end

