-- ==== Sys2Proof/Machine/Step.lean ====
section
/-! DEFINITION. One step of the machine, and an instruction placed for the next step. -/

namespace Sys2Proof.Machine

/-- One step: results that are due land; then one thing that can happen does, and time goes on. -/
def step (s : State) : Host.Outcome State Fault Refusal :=
  let s1 := s.land
  match s1.nextMove? with
  | none => .next s1.tickOn
  | some m =>
    match s1.perform1 m with
    | .next t => .next t.tickOn
    | .fault f => .fault f
    | .refused r => .refused r

/-- The machine with the instruction whose bits are `w` placed where the next step takes one: a group of a launch stands at it. -/
def State.withFetchWord (s : State) (_nbits w : Nat) : State := s.withProbe w

end Sys2Proof.Machine
end

