-- ==== Sys2Proof/Safety.lean ====
section
/-! DEFINITION. What counts as a safe run, and the terms the statements are written in: when an instruction issues with
its own effect, what an effect leaves in a register, and what a frame leaves alone. -/

namespace Sys2Proof.Machine

/-- Every memory of the machine is in its canonical form. -/
def State.Canonical (s : State) : Prop :=
  Memory.wf s.mem = true ∧ Memory.wf s.hostMem = true ∧ Memory.wf s.peerMem = true

/-- A step answers a next state. -/
def State.Steps (s : State) : Prop := ∃ t, step s = .next t

/-- The machine runs on from a state for as long as it is looked at. -/
def State.RunsOn (s : State) : Prop := ∀ k, ∃ t, Sys2Proof.core.run k s = .next t

/- ### When an instruction issues -/

/-- The state in which an instruction acts: an access that is performed now is past the acquires of its groups (R218, R220), and the
first step of every walk that it reads has been fetched (R87). -/
def State.walked (s : State) (i : Instr) (d : Desc) : State := (if directAccess i then s.pastAcquires else s).onWalks d State.qEnsure

/-- The issue names a group, passes the checks before an issue, and need not arrive at a rendezvous first: it is at LANE
scope, or a complete instance, or a replay, or a handler's (R35, R38, R43, R98, R322, R325). -/
def State.passes (s : State) (i : Instr) (c : Ctl) (d : Desc) : Bool :=
  match s.issuer with
  | none => false
  | some g =>
    if s.cur.phase == .instance_ then (instanceShort i c d s).isNone
    else (precheck i c d s g).isNone && (c.scope == .lane || s.cur.phase == .handler || s.cur.phase == .replay)

/-- A Lat V instruction has room on its clause's scoreboard (R37). -/
def State.boardFree (s : State) (d : Desc) : Bool :=
  !(d.lat == .var && (s.cur.members.filterMap (fun m => s.group? m.key)).any (fun g => decide (63 ≤ nth 0 g.sb s.cur.sb)))

/-- The instruction issues at this state with its own effect. -/
structure Ready (i : Instr) (c : Ctl) (d : Desc) (s : State) : Prop where
  described : i.desc = some d
  passes : s.passes i c d = true
  board : s.boardFree d = true
  clear : s.walkTransit d = false
  walks : (s.walked i d).walkFaults c d = []

/-- The same as a test. -/
def readyTest (i : Instr) (c : Ctl) (s : State) : Bool :=
  match i.desc with
  | none => false
  | some d => s.passes i c d && s.boardFree d && !s.walkTransit d && decide ((s.walked i d).walkFaults c d = [])

/-- Where `i` is ready and `P` holds of the state in which it acts, `exec` answers the next state of the effect `eff`. -/
def CompletesIf (i : Instr) (c : Ctl) (P : State → Prop) (eff : State → Eff) : Prop :=
  ∀ d s, Ready i c d s → P (s.walked i d) → exec i s = .next (finish i c d (eff (s.walked i d)))

/-- Wherever `i` is ready, `exec` answers the next state of the effect `eff`. -/
def Completes (i : Instr) (c : Ctl) (eff : State → Eff) : Prop := CompletesIf i c (fun _ => True) eff

/-- A property of the issuing group, its member record and its executing lanes. -/
def State.OnIssuer (s : State) (c : Ctl) (P : Group → Member → Mask → Prop) : Prop :=
  ∀ m ms g, s.cur.members = m :: ms → s.group? m.key = some g → P g m (s.execLanes c m)

/-- Every target that a branch gives an executing lane is a word of the image (R63, R68). -/
def State.TargetsGood (s : State) (c : Ctl) (tgt : State → Group → Nat → Option Word) : Prop :=
  s.OnIssuer c (fun g _ e => ∀ i ∈ lanesOf e, ∀ t, tgt s g i = some t → s.targetFault g t = none)

/-- What a branch whose targets are good does: the lanes at the issue point go to the next instruction, then the
executing lanes that have a target go there (R67, R68); the return address is on its way where there is one (R69). -/
def branchTo (c : Ctl) (tgt : State → Group → Nat → Option Word) (link : Mask → List Write)
    (pen : List Word → Nat → Nat) (s : State) : Eff :=
  onGroup c s (fun g m e =>
    let takes := (lanesOf e).filterMap (fun i => (tgt s g i).map (fun t => (i, t)))
    let s1 := match link e with | [] => s | ws => s.putFixed g.key 4 ws
    .moved (takes.foldl (fun s x => s.goTo g.key (BitVec.ofNat 64 (2 ^ x.1)) x.2) (s1.goTo g.key m.lanes s.cur.next))
      (pen (takes.map (·.2)) (popMask e)))

/-- No executing lane of the issue can fault on its values: no source field `srcs` holds a marker that is checked (R146),
and no floating-point enable is set (R144, R145). -/
def State.FpQuiet (s : State) (c : Ctl) (d : Opd) (srcs : List (Nat × Opd)) : Prop :=
  ∀ x ∈ s.execs c, enablesOf x.1.fpstat = 0 ∧ (s.nomark x.1.ctx = true ∨ s.markerFaults x.1 d.isScalarDst x.2 srcs = [])

/-- Results and flags of one member group of a floating-point instruction, lane by lane; in scalar form all alike. -/
def fpResults (d : Opd) (out : State → Group → FpOut) (s : State) (g : Group) : List (Nat × Fl) :=
  if d.isScalarDst then List.replicate W ((out s g).scal ()) else (out s g).vec ()

/-- The results and flags of one member group of a floating-point instruction in which no lane faults (R144, R148). -/
def fpPut (lat : Option Nat) (d : Opd) (how : FpDst) (out : State → Group → FpOut) (s s1 : State) (x : Group × Mask) : State :=
  let rs := fpResults d out s x.1
  let fl := if x.2 = 0 then 0 else flOrLanes x.2 0 (rs.map (·.2))
  let ws := (if x.2 = 0 then [] else match how with
      | .run n => groupWrites d n x.2 (fun _ => rs.map (·.1)) (fun _ => (nth (0, 0) rs 0).1)
      | .test => testWrites d x.2 (fun _ => rs.map (fun r => r.1 != 0)) (fun _ => (nth (0, 0) rs 0).1 != 0)) ++
    (if fl = 0 then [] else [.flags (BitVec.ofNat 5 fl)])
  match lat with
  | some n => if x.2 = 0 then s1 else s1.putFixed x.1.key n ws
  | none => s1.putVar x.1.key ws

/-- The state that such an instruction leaves: each member's results are on their way to its destination, and the flags
of its executing lanes to its FPSTAT. -/
def fpState (c : Ctl) (lat : Option Nat) (d : Opd) (how : FpDst) (out : State → Group → FpOut) (s : State) : State :=
  (s.execs c).foldl (fpPut lat d how out s) s

/-- Lanes of one member group that fault on a marker in a source that is checked, each by its first such field (R146). -/
def fpMarks (d : Opd) (srcs : List (Nat × Opd)) (s : State) (x : Group × Mask) : List LaneFault :=
  if s.nomark x.1.ctx then [] else s.markerFaults x.1 d.isScalarDst x.2 srcs

/-- Lanes that hold no such marker: their results set the flags. -/
def fpLive (d : Opd) (srcs : List (Nat × Opd)) (s : State) (x : Group × Mask) : Mask := x.2 &&& ~~~(faultMask (fpMarks d srcs s x))

/-- Lanes among these whose result raises a flag that FPSTAT enables (R145). -/
def fpTrapped (d : Opd) (srcs : List (Nat × Opd)) (out : State → Group → FpOut) (s : State) (x : Group × Mask) : Mask :=
  if enablesOf x.1.fpstat = 0 then 0
  else fpLive d srcs s x &&& maskOfList ((fpResults d out s x.1).map (fun r => traps (enablesOf x.1.fpstat) r.2))

/-- The faults of one member group: SNAN_UNINIT, then FP_TRAP. -/
def fpFaults (d : Opd) (srcs : List (Nat × Opd)) (out : State → Group → FpOut) (s : State) (x : Group × Mask) : List LaneFault :=
  fpMarks d srcs s x ++ (if fpTrapped d srcs out s x = 0 then [] else [⟨x.1.key, fpTrapped d srcs out s x, .fpTrap, 0, 0⟩])

/-- What one member group leaves where lanes may fault: the results of the lanes without a fault, and the flags of those without a
marker (R145, R146, R209). -/
def fpPutLive (lat : Option Nat) (d : Opd) (how : FpDst) (srcs : List (Nat × Opd)) (out : State → Group → FpOut) (s s1 : State)
    (x : Group × Mask) : State :=
  let rs := fpResults d out s x.1
  let live := fpLive d srcs s x
  let ok := live &&& ~~~(fpTrapped d srcs out s x)
  let fl := if live = 0 then 0 else flOrLanes live 0 (rs.map (·.2))
  let ws := (if ok = 0 then [] else match how with
      | .run n => groupWrites d n ok (fun _ => rs.map (·.1)) (fun _ => (nth (0, 0) rs 0).1)
      | .test => testWrites d ok (fun _ => rs.map (fun r => r.1 != 0)) (fun _ => (nth (0, 0) rs 0).1 != 0)) ++
    (if fl = 0 then [] else [.flags (BitVec.ofNat 5 fl)])
  match lat with
  | some n => if x.2 = 0 then s1 else s1.putFixed x.1.key n ws
  | none => s1.putVar x.1.key ws

/-- Where lanes fault on a marker or on an enabled flag, the other lanes complete and the fault is taken (R145, R146). -/
def FpFaultsAlike (i : Instr) (c : Ctl) (lat : Option Nat) (d : Opd) (how : FpDst) (srcs : List (Nat × Opd))
    (out : State → Group → FpOut) : Prop :=
  CompletesIf i c (fun s => (s.execs c).flatMap (fpFaults d srcs out s) ≠ [])
    (fun s => .fault ((s.execs c).foldl (fpPutLive lat d how srcs out s) s) ((s.execs c).flatMap (fpFaults d srcs out s)))

/-- Where no lane can fault on its values, the instruction completes with the results `out`; where lanes do, the others complete and
the fault is taken. -/
def FpCompletes (i : Instr) (c : Ctl) (lat : Option Nat) (d : Opd) (how : FpDst) (srcs : List (Nat × Opd))
    (out : State → Group → FpOut) : Prop :=
  CompletesIf i c (fun s => s.FpQuiet c d srcs) (fun s => .done (fpState c lat d how out s)) ∧
    FpFaultsAlike i c lat d how srcs out

/-- The partition's matrix unit is the issuing context's or free, its queue has room, and `P` holds of it (R180, R181, R184). -/
def State.MxRoom (s : State) (P : Group → Mx → Prop) : Prop :=
  ∃ g m, s.readerOf = some g ∧ s.mxFor g.pkey g.ctx = some m ∧ m.queue.length < 16 ∧ P g m

/-- A matrix instruction enters the unit's queue: the state it leaves, its queue entry and the view after it (R182, R184). -/
def mxEnter (f : State → Group → Mx → State × MxOp × MxView) (s : State) : Eff :=
  match s.readerOf with
  | none => .done s
  | some g =>
    match s.mxFor g.pkey g.ctx with
    | none => .hold s
    | some m =>
      .done ((f s g m).1.setMx g.pkey { m with queue := m.queue ++ [⟨(f s g m).2.1, s.cur.pc⟩], view := (f s g m).2.2 })

/-- Where the unit has room and `P` holds, the instruction enters the queue as `f` says. -/
def MxCompletes (i : Instr) (c : Ctl) (P : State → Group → Mx → Prop) (f : State → Group → Mx → State × MxOp × MxView) : Prop :=
  CompletesIf i c (fun s => s.MxRoom (P s)) (mxEnter f)

/-- Where `P` holds and no lane's access fails its checks, the lanes' accesses complete: `f s` is what one lane does, and
its results are on their way to `dst` (R209, R216). -/
def AccessCompletes (i : Instr) (c : Ctl) (P : State → Prop) (scalar : Bool) (reg : Nat) (dst : Option (Opd × Nat))
    (f : State → GKey → State → Nat → Mask → State × LaneRes) : Prop :=
  CompletesIf i c (fun s => P s ∧ (accessRun [] c scalar reg dst (f s) s).2.2 = [])
    (fun s => .done (accessDone dst (accessRun [] c scalar reg dst (f s) s)))

/- ### What an effect leaves on its way to a register -/

/-- The newest result on its way to the registers of a group. -/
def State.newest (s : State) (k : GKey) : Option InFlight := (s.group? k).bind (fun g => g.inFlight.getLast?)

/-- What the first write of v `n` among some writes gives lane `i`. -/
def writesV (n i : Nat) : List Write → Option Word
  | [] => none
  | .v m k x :: t => if m = n ∧ laneBit k i = true then some (nth 0 x i) else writesV n i t
  | _ :: t => writesV n i t

/- ### Calm states: nothing waits, so that an issue moves its own lanes and no others -/

/-- No lane of the group waits, signs or stands in a loop. -/
def Group.Calm (g : Group) : Prop :=
  g.levels = [] ∧ (∀ i, nth .free g.wait i = .free) ∧
    (∀ i, nth none g.sigG i = none) ∧ (∀ i, nth none g.sigP i = none) ∧ (∀ i, nth none g.sigT i = none)

/-- No lane of any group waits. -/
def State.Calm (s : State) : Prop := ∀ g ∈ s.groups, g.Calm

end Sys2Proof.Machine
end

