-- ==== Sys2Proof/Certificates/Slice0/Obligations.lean ====
section
/-! DEFINITION. The statements for the provers. Each docstring names the rules of spec/ that the statement formalises.
`Completes i c eff` says that wherever `i` issues with its own effect (`Ready`), `exec` answers the next state of `eff`. -/

open Sys2Proof Sys2Proof.Machine

/- ### Integer instructions -/

/-- R117, R118, R121, R122: the two-source integer instructions compute exactly over the integers that their sources hold
and keep the low bits of the result, clamped first where the form saturates; the result is due 4 clk later. R122,
R124, R127: the one-source and three-source integer instructions. R123, R125, R126, R128: carry chains, compares,
selects, moves and BITFN. -/
def Obligations.IntegerResults : Prop :=
  (∀ (c : Ctl) (it : IT) (sat : Bool) (d a b : Opd),
    Completes (.iadd c it sat d a b) c (intBinary c it it sat d a b (fun x y => x + y)) ∧
    Completes (.isub c it sat d a b) c (intBinary c it it sat d a b (fun x y => x - y)) ∧
    Completes (.imul c it d a b) c (intBinary c it it false d a b (fun x y => x * y)) ∧
    Completes (.imulh c it d a b) c (intBinary c it it false d a b (fun x y => x * y / 2 ^ it.bits)) ∧
    Completes (.imin c it d a b) c (intBinary c it it false d a b (fun x y => if x ≤ y then x else y)) ∧
    Completes (.imax c it d a b) c (intBinary c it it false d a b (fun x y => if x ≤ y then y else x)) ∧
    Completes (.shl c it d a b) c (intBinary c it .w32 false d a b (fun x y =>
      if it.bits ≤ shAmt y then 0 else x * 2 ^ shAmt y)) ∧
    Completes (.shr c it d a b) c (intBinary c it .w32 false d a b (fun x y =>
      if it.bits ≤ shAmt y then 0 else x % 2 ^ it.bits / 2 ^ shAmt y)) ∧
    Completes (.sar c it d a b) c (intBinary c it .w32 false d a b (fun x y =>
      sext it.bits (lowBits it.bits x) / 2 ^ min (shAmt y) it.bits)) ∧
    Completes (.rotl c it d a b) c (intBinary c it .w32 false d a b (fun x y =>
      let k := shAmt y % it.bits
      x % 2 ^ it.bits * 2 ^ k % 2 ^ it.bits + x % 2 ^ it.bits / 2 ^ (it.bits - k)))) ∧
  (∀ (c : Ctl) (it src : IT) (sat : Bool) (d a b e : Opd),
    Completes (.iabs c it d a) c (intUnary c it it d a (fun x => (x.natAbs : Int))) ∧
    Completes (.popc c it d a) c (intUnary c it .w32 d a (fun x => (popNat (lowBits it.bits x) it.bits : Int))) ∧
    Completes (.ctz c it d a) c (intUnary c it .w32 d a (fun x => (ctzNat (lowBits it.bits x) it.bits : Int))) ∧
    Completes (.clz c it d a) c (intUnary c it .w32 d a (fun x =>
      (ctzNat (revNat (lowBits it.bits x) it.bits) it.bits : Int))) ∧
    Completes (.brev c it d a) c (intUnary c it it d a (fun x => (revNat (lowBits it.bits x) it.bits : Int))) ∧
    Completes (.cvti c it src sat d a) c (intUnary c src it d a (fun x => if sat then clampTo it x else x)) ∧
    Completes (.imad c it d a b e) c (intTernary c it it it d a b e (fun x y z => x * y + z)) ∧
    Completes (.bfx c it d a b e) c (intTernary c it .w32 .w32 d a b e (bfxOp it)) ∧
    Completes (.bfi c it d a b e) c (intTernary c it it .w32 d a b e (bfiOp it))) ∧
  (∀ (c : Ctl) (it : IT) (p : Pred) (hi : Bool) (k : BitVec 8) (imm16 : BitVec 16) (imm : Word) (m : MReg) (d a b e : Opd),
    Completes (.iaddc c it d a b m) c
      (carryEff c it d a b m (fun x y z => x + y + z) (fun r => decide (2 ^ it.bits ≤ r))) ∧
    Completes (.isubb c it d a b m) c
      (carryEff c it d a b m (fun x y z => x - y - z) (fun r => decide (r < 0))) ∧
    Completes (.icmp c it p d a b) c (fun s => .done (s.perLane c 4 (fun g l =>
      testWrites d l (fun _ => List.zipWith (predTest p) (s.ints g 1 it a) (s.ints g 2 it b))
        (fun _ => predTest p (s.int1 g 1 it a) (s.int1 g 2 it b))))) ∧
    Completes (.isel c d a b e) c (fun s => .done (s.perLane c 4 (fun g l =>
      groupWrites d 1 l
        (fun _ => zip3 (fun x y z => if z = 0 then y else x) (s.raws g 1 a) (s.raws g 2 b) (s.raws g 3 e))
        (fun _ => if s.raw1 g 3 e = 0 then s.raw1 g 2 b else s.raw1 g 1 a)))) ∧
    Completes (.mov c d a) c (fun s => .done (s.perLane c 4 (fun g l =>
      groupWrites d 1 l (fun _ => s.raws g 1 a) (fun _ => s.raw1 g 1 a)))) ∧
    Completes (.movw c hi d a imm16) c (fun s => .done (s.perLane c 4 (fun g l =>
      groupWrites d 1 l (fun _ => (s.raws g 1 a).map (movwOp hi imm16)) (fun _ => movwOp hi imm16 (s.raw1 g 1 a))))) ∧
    Completes (.movi c d imm) c (fun s => .done (s.perLane c 4 (fun _ l =>
      groupWrites d 1 l (fun _ => List.replicate W imm.toNat) (fun _ => imm.toNat)))) ∧
    Completes (.bitfn c k d a b e) c (fun s => .done (s.perLane c 4 (fun g l =>
      groupWrites d 1 l
        (fun _ => zip3 (fun x y z => bitfnNat k.toNat x y z 32) (s.raws g 1 a) (s.raws g 2 b) (s.raws g 3 e))
        (fun _ => bitfnNat k.toNat (s.raw1 g 1 a) (s.raw1 g 2 b) (s.raw1 g 3 e) 32)))))

/-- R118, R121, R122: what lane `i` of a 32-bit vector form holds when its result lands, 4 clk after the issue, for the
sum, the difference, the product, and MOV, in the words that the sources hold. -/
def Obligations.IntegerLaneValues : Prop :=
  ∀ (c : Ctl) (n : VReg) (a b : Opd) (d : Desc) (s : State) (m : Member) (g : Group) (i : Nat),
    s.cur.members = [m] → s.group? m.key = some g → i < W → laneBit (s.execLanes c m) i = true →
    let x := fun (f : Nat) (o : Opd) => nth 0 (s.vec g f 0 o) i
    let gives := fun (j : Instr) (r : Word) => Ready j c d s → d.walks = [] →
      ∃ t e, exec j s = .next t ∧ t.newest m.key = some e ∧ e.due = some (s.clk + 4) ∧ writesV n.toNat i e.writes = some r
    s.Calm → (s.vec g 1 0 a).length = W → (s.vec g 2 0 b).length = W → (s.vec g 3 0 b).length = W →
    gives (.iadd c .w32 false (.v n) a b) (x 1 a + x 2 b) ∧
    gives (.isub c .w32 false (.v n) a b) (x 1 a - x 2 b) ∧
    gives (.imul c .w32 (.v n) a b) (x 1 a * x 2 b) ∧
    gives (.mov c (.v n) a) (x 1 a) ∧
    gives (.bitfn c 0x88 (.v n) a b b) (x 1 a &&& x 2 b)

/- ### Control instructions -/

/-- R92, R93: NOP and YIELD have no effect of their own; the lanes pass, and after YIELD the group yields. R70 to R75:
EXIT ends lanes, JOIN and LEAVE set and clear their own bits at once, WAITM parks, and MOP, MCNT, MFROM and MTO
compute from whole masks; where no lane executes MTO to a scalar writes nothing and QSKIP skips nothing (the choice of
assumption 89). R78, R79, R82: LOOP and LOOPQ, where the setup is legal, enter the level or skip the body;
LBRK sends the executing lanes to the exit of an active level. R85, R86, R90, R91: QBIND binds a walk whose buffer
admits it, or that is empty; QSTAT reads a position or the flags; QSKIP moves the walk on. That LOOP, LOOPQ, MOP and
MFROM ignore the guard is assumption 31. -/
def Obligations.ControlResults : Prop :=
  (∀ c : Ctl, Completes (.nop c) c .done ∧ Completes (.yield c) c .done) ∧
  (∀ (c : Ctl) (op : MopOp) (m ma mb : MReg) (d a : Opd),
    Completes (.exit c) c (fun s => onGroup c s (fun g mb e =>
      let s1 := (s.goTo g.key (mb.lanes &&& ~~~e) s.cur.next).modGroup g.key (fun g => g.exitLanes e)
      .moved (if g.live &&& ~~~e = 0 then s1.groupEnded g else s1) 0)) ∧
    Completes (.join c m) c (fun s => onGroup c s (fun g _ e =>
      .done (s.modGroup g.key (fun g => { g with m := modAt g.m m.val (fun x => x ||| e) })))) ∧
    Completes (.leave c m) c (fun s => onGroup c s (fun g _ e =>
      .done (s.modGroup g.key (fun g => { g with m := modAt g.m m.val (fun x => x &&& ~~~e) })))) ∧
    Completes (.waitm c m) c (fun s => onGroup c s (fun g mb e =>
      .moved (s.modGroup g.key (fun g =>
        ((g.pass (mb.lanes &&& ~~~e &&& g.live) s.cur.next s.cur.pos.after).setWait (e &&& g.live) (.parked m)))) 0)) ∧
    Completes (.mop c op m ma mb) c (fun s => onGroup c s (fun g _ _ =>
      .done (s.putFixed g.key 4 [.m m.val allLanes (mopOp op (s.mask g 1 ma) (s.mask g 2 mb))]))) ∧
    Completes (.mcnt c d ma) c (fun s => onGroup c s (fun g _ e =>
      .done (s.putFixed g.key 4 (wordWrites d e (BitVec.ofNat 32 (popMask (s.mask g 1 ma))))))) ∧
    Completes (.mfrom c m a) c (fun s => onGroup c s (fun g _ e =>
      .done (s.putFixed g.key 4 [.m m.val allLanes
        (if a.isS then pairOf (s.scal g 1 0 a) (s.scal g 1 1 a) else e &&& maskOfList ((s.vec g 1 0 a).map (· != 0)))]))) ∧
    Completes (.mto c d ma) c (fun s => onGroup c s (fun g _ e =>
      .done (s.putFixed g.key 4
        (if e == 0 then []
         else if d.isS then writeScal d 0 (loWord (s.mask g 1 ma)) ++ writeScal d 1 (hiWord (s.mask g 1 ma))
         else writeVec d 0 e ((List.range W).map (fun i => if laneBit (s.mask g 1 ma) i then 1 else 0))))))) ∧
  (∀ (c : Ctl) (lc : LcReg) (count : Opd) (len : BitVec 10) (q : QReg) (dim n : Fin 3),
    CompletesIf (.loop c lc count len) c (fun s => s.OnIssuer c (fun g _ _ => s.loopOk g lc.val len.toNat true = true))
      (fun s => onGroup c s (fun g m _ =>
        .moved (s.enterLoop g m.lanes lc.val len.toNat (s.scal g 1 0 count == 0) .count (s.scal g 1 0 count)) 0)) ∧
    CompletesIf (.loopq c lc q len dim) c
      (fun s => s.OnIssuer c (fun g _ _ => s.loopOk g lc.val len.toNat true = true ∧ regQ g q.toNat ≠ none))
      (fun s => onGroup c s (fun g m _ =>
        .moved (s.enterLoop g m.lanes lc.val len.toNat ((regQ g q.toNat).any QBind.empty) (.queue q dim) 0) 0)) ∧
    CompletesIf (.lbrk c n) c (fun s => s.OnIssuer c (fun g _ _ => n.val < g.levels.length))
      (fun s => onGroup c s (fun g m e =>
        let exit := match g.levels.reverse[n.val]? with | some l => l.exit | none => s.cur.next
        .moved ((s.goTo g.key m.lanes s.cur.next).goTo g.key e exit) 0))) ∧
  (∀ (c : Ctl) (q : QReg) (h ds : SReg) (it : IT) (d n : Opd) (sel : Fin 4),
    let bound := fun (s : State) (g : Group) =>
      let w := fun (j : Nat) => s.scal g 2 j (.s ds)
      let none_ := w 2 == 0 || w 4 == 0 || w 6 == 0
      QBind.mk (s.scal g 1 0 (.s h)) it (w 0) (w 1) (w 2) (w 3) (w 4) (w 5) (w 6) (w 7) 0 0 0 none_ none_ none_ []
    CompletesIf (.qbind c q h ds it) c
      (fun s => s.OnIssuer c (fun g _ e => e ≠ 0 ∧ ((bound s g).e0 = true ∨ s.bindFault g.ctx (bound s g) = none)))
      (fun s => onGroup c s (fun g _ _ => .done (s.putVar g.key [.q q.toNat (some (bound s g))]))) ∧
    Completes (.qstat c d q sel) c (fun s => onGroup c s (fun g _ e =>
      .done (s.putFixed g.key 4 (wordWrites d e (BitVec.ofNat 32 (qstatWord (regQ g q.toNat) sel.val)))))) ∧
    Completes (.qskip c q n) c (fun s => onGroup c s (fun g _ e =>
      let k := if e = 0 then 0 else (s.scal g 1 0 n).toNat
      .done (s.modGroup g.key (fun g => { g with q := modAt g.q q.toNat (fun x => x.map (fun b =>
        if k = 0 ∨ b.empty = true then b else { b.skip k with ahead := b.ahead.drop k })) })))))

/-- R65, R67, R68, R69, R81: the branches, where every target is a word of the image; those to a register target, CALL
and RET also need that no loop level is active. That CALL, BRX and RET fault with an active level in a handler too is
assumption 32. -/
def Obligations.BranchResults : Prop :=
  ∀ (c : Ctl) (neg : Bool) (dim : Fin 3) (hint : Hint) (off : BitVec 18) (a k : Opd),
    let straight := fun (s : State) => s.OnIssuer c (fun g _ _ => g.levels = [])
    let direct := fun (s : State) (_ : Group) (_ : Nat) => some (directTarget s off)
    let cond := fun (s : State) (g : Group) (i : Nat) =>
      if brcTest s g neg dim.val a i then some (directTarget s off) else none
    CompletesIf (.bra c hint off) c (fun s => s.TargetsGood c direct)
      (branchTo c direct (fun _ => []) (fun ts n => hintPenalty hint ts.length n)) ∧
    CompletesIf (.brc c neg dim a hint off) c (fun s => s.TargetsGood c cond)
      (branchTo c cond (fun _ => []) (fun ts n => hintPenalty hint ts.length n)) ∧
    CompletesIf (.brx c a) c (fun s => straight s ∧ s.TargetsGood c (regTarget 1 a))
      (branchTo c (regTarget 1 a) (fun _ => []) (fun ts _ => indirectPenalty ts)) ∧
    CompletesIf (.call c k hint off) c (fun s => straight s ∧ s.TargetsGood c direct)
      (fun s => branchTo c direct (linkWrites k s.cur.next) (fun ts n => hintPenalty hint ts.length n) s) ∧
    CompletesIf (.callReg c k a) c (fun s => straight s ∧ s.TargetsGood c (regTarget 1 a))
      (fun s => branchTo c (regTarget 1 a) (linkWrites k s.cur.next) (fun ts _ => indirectPenalty ts) s) ∧
    CompletesIf (.ret c k) c (fun s => straight s ∧ s.TargetsGood c (regTarget 0 k))
      (branchTo c (regTarget 0 k) (fun _ => []) (fun ts _ => indirectPenalty ts))

/-- R67: after a BRA or a BRC that does not fault, each lane at the issue point stands at the target, the address of the base
word and four times OFF18, where it executes and (of BRC) its condition holds, and at the next instruction otherwise; no
other lane moves. -/
def Obligations.BranchMovesItsLanes : Prop :=
  ∀ (c : Ctl) (neg : Bool) (dim : Fin 3) (a : Opd) (hint : Hint) (off : BitVec 18) (d : Desc) (s : State) (m : Member)
    (g : Group),
    let target := s.cur.pc + 4 * off.signExtend 32
    let holds := fun (i : Nat) => match a with
      | .q n => qFlag g n.toNat dim.val
      | _ => nth 0 (s.vec g 1 0 a) i != 0
    let moves := fun (x : Instr) (take : Nat → Bool) =>
      Ready x c d s → d.walks = [] → s.Calm → s.cur.phase = .group → s.cur.members = [m] → m.may = m.lanes →
      s.group? m.key = some g → g.pcs.length = W →
      s.TargetsGood c (fun _ _ i => if take i then some target else none) →
      ∃ t h, exec x s = .next t ∧ t.group? m.key = some h ∧ ∀ i, i < W →
        nth 0 h.pcs i =
          if laneBit (m.lanes &&& g.live) i then
            (if laneBit (s.guardMask g c.guard) i ∧ take i = true then target else s.cur.next)
          else nth 0 g.pcs i
    moves (.bra c hint off) (fun _ => true) ∧ moves (.brc c neg dim a hint off) (fun i => holds i != neg)

/- ### Scope, convergence and cross-lane instructions -/

/-- R103, R112: SIGN signs the open generation in the lanes that have not signed it, which pass; the others are held, and where
all are the instruction has not issued for them. It acts at once at the issue point of its lanes. -/
def Obligations.SignResult : Prop := ∀ (c : Ctl) (d : Desc) (s : State) (g : Group) (m : Member) (ms : List Member),
  let i := Instr.sign c
  i.desc = some d → s.cur.members = m :: ms → s.group? m.key = some g → s.cur.phase ≠ .instance_ →
  precheck i c d s g = none →
  let openGen := s.gen (g.convReg c.scope) + 1
  let held := (s.signedLanes g c.scope m.lanes).1
  let go := m.lanes &&& ~~~held &&& g.live
  (go ≠ 0 → exec i s = .next (finish i c d (.moved ((s.fenceTeam m.key go).modGroup m.key (fun g =>
    ((g.fillSig c.scope go (some openGen)).pass go s.cur.next s.cur.pos.after).setWait held (.sigHold c.scope openGen))) 0))) ∧
  (go = 0 → exec i s = .next (finish i c d (.waits (s.modGroup m.key (fun g => g.setWait held (.sigHold c.scope openGen))))))

/-- R113, R114, R115, R116, R395: CVWAIT, CVRD, ELECT and BCAST. A handler's CVWAIT completes once the generation differs. -/
def Obligations.ConvergenceResults : Prop :=
  ∀ (c : Ctl) (a d l : Opd) (sel : Fin 10),
    CompletesIf (.cvwait c a sel) c
      (fun s => s.cur.phase ≠ .handler ∨
        s.OnIssuer c (fun g _ _ => s.gen (g.selReg sel.val) ≠ BitVec.ofNat 16 (nth 0 (s.vec g 1 0 a) 0).toNat))
      (fun s => if s.cur.phase = .handler then .done s else cvwaitEff c a sel s) ∧
    Completes (.cvrd c d sel) c (fun s => onGroup c s (fun g _ e =>
      .done (s.putFixed g.key 4 (wordWrites d e (BitVec.ofNat 32 (s.convWord (g.selReg sel.val))))))) ∧
    Completes (.elect c d) c (fun s => .done (s.everyMember c none (fun _ m =>
      memberWord d (match (s.spanExec c).head? with | some n => BitVec.ofNat 32 n | none => 0xFFFFFFFF) m))) ∧
    Completes (.bcast c d a l) c (fun s => .done (s.everyMember c none (fun _ m =>
      memberWord d (nth 0 (s.spanVec c 1 0 a) (s.once 2 l).toNat) m)))

/-- R130, R131, R134: LSH and LXCH read another lane of the span, the lane itself beyond it; LGET and LPUT reach one lane,
and nothing beyond the span. R132, R133: reductions, scans, ballots and votes over the executing lanes of the span. -/
def Obligations.CrossLaneResults : Prop :=
  (∀ (c : Ctl) (op : LshOp) (d a b : Opd) (r : SReg),
    Completes (.lsh c op d a b) c (shuffleEff c d a (fun s n _ i => lshLane op n (lshOffset s n b) i)) ∧
    Completes (.lxch c d a b) c (shuffleEff c d a (fun s _ g i =>
      if b.isV then ((nth 0 (s.vec g 2 0 b) (i % W)).toNat : Int) else ((s.once 2 b).toNat : Int))) ∧
    Completes (.lget c r a b) c (fun s => onGroup c s (fun g _ e =>
      .done (if e = 0 then s else s.putFixed g.key 4 [.s r.toNat
        (match s.laneReach g (s.scal g 2 0 b).toNat with | some (h, i) => nth 0 (s.vec h 1 0 a) i | none => 0)]))) ∧
    Completes (.lput c d a b) c (fun s => onGroup c s (fun g _ e =>
      .done (match s.laneReach g (s.scal g 2 0 b).toNat with
        | some (h, i) => if e = 0 then s else
            s.putFixed h.key 4 (writeVec d 0 (BitVec.ofNat 64 (2 ^ i)) (List.replicate W (s.scal g 1 0 a)))
        | none => s)))) ∧
  (∀ (c : Ctl) (op : RedOp) (vo : VoteOp) (it : IT) (excl : Bool) (d a : Opd),
    Completes (.lred c op it d a) c (fun s =>
      let vals := (s.spanExec c).map (fun i => nth 0 (s.spanInts c 1 it a) i)
      .done (s.everyMember c none (fun _ m =>
        match vals with
        | [] => []
        | x :: t =>
          if d.isScalarDst then resWrites1 d it.run (resNat it (t.foldl (redOp op it) x))
          else if m == 0 then [] else resWrites d it.run m (List.replicate W (resNat it (t.foldl (redOp op it) x)))))) ∧
    Completes (.lscan c op it excl d a) c (fun s =>
      let rs := scanFrom op it excl (s.spanInts c 1 it a) none (s.spanExec c)
      .done (s.everyMember c none (fun k m =>
        if m == 0 then []
        else resWrites d it.run m ((List.range W).map (fun i =>
          resNat it (((rs.find? (fun x => x.1 == k * W + i)).map (·.2)).getD 0)))))) ∧
    Completes (.lbal c d a) c (fun s =>
      let bs := (s.span c).map (s.ballot c a)
      .done (s.everyMember c (some 4) (fun k _ =>
        match d with
        | .m n => [.m n.val allLanes (nth 0 bs k)]
        | _ => (bs.zipIdx).flatMap (fun x => writeScal d (2 * x.2) (loWord x.1) ++ writeScal d (2 * x.2 + 1) (hiWord x.1))))) ∧
    Completes (.lvote c vo d a) c (fun s => .done (s.everyMember c (some 4) (fun _ m =>
      memberWord d (if voteOp vo ((s.spanExec c).map (fun i => nth 0 (s.spanVec c 1 0 a) i)) then 1 else 0) m))))

/- ### Floating-point instructions -/

/-- R139, R141, R142, R144, R148, R149, R150: the two-source and three-source instructions compute exactly and round
once, each lane with its own draw under .sr; the result is due 6 clk later, its flags with it. R151, R152, R153, R154,
R155: compares, classes, conversions, integral rounding, scaling and the square root. R156, R157: the special
functions, each the exact special value where R157 gives one and else a value that is free of the operands alone,
rounded once to the type; the result lands on the clause's scoreboard. The free values and their bounds are assumption
15. R145, R146: of every one of them, where an executing lane's checked source holds a marker, or its result raises a flag
that FPSTAT enables, the fault SNAN_UNINIT or FP_TRAP is taken in those lanes, and the others complete. -/
def Obligations.FloatResults : Prop :=
  (∀ (c : Ctl) (ft : FT) (r : Rnd) (sat : Bool) (d a b e : Opd),
    let f := ftFmt ft
    let two := fun (r : Rnd) (sat : Bool) (seed : Opd) (op : FV → FV → FV × Fl) (s : State) (g : Group) => FpOut.mk
      (fun _ => zip3 (fun x y u => fpFinish f r sat u (op x y)) (s.fvec g 1 f a) (s.fvec g 2 f b) (s.draws c g r seed))
      (fun _ => fpFinish f r sat (s.draw1 g r seed) (op (s.fscal g 1 f a) (s.fscal g 2 f b)))
    let ab := [(1, a), (2, b)]
    FpCompletes (.fadd c ft r sat d a b e) c (some 6) d (.run 1) ab (two r sat e (fvAdd r)) ∧
    FpCompletes (.fsub c ft r sat d a b e) c (some 6) d (.run 1) ab (two r sat e (fun x y => fvAdd r x y.negate)) ∧
    FpCompletes (.fmul c ft r sat d a b e) c (some 6) d (.run 1) ab (two r sat e fvMul) ∧
    FpCompletes (.fmin c ft d a b) c (some 6) d (.run 1) ab (two .rne false (.v 0) (fvMinMax false false)) ∧
    FpCompletes (.fmax c ft d a b) c (some 6) d (.run 1) ab (two .rne false (.v 0) (fvMinMax true false)) ∧
    FpCompletes (.fminn c ft d a b) c (some 6) d (.run 1) ab (two .rne false (.v 0) (fvMinMax false true)) ∧
    FpCompletes (.fmaxn c ft d a b) c (some 6) d (.run 1) ab (two .rne false (.v 0) (fvMinMax true true)) ∧
    FpCompletes (.ffma c ft r d a b e) c (some 6) d (.run 1) [(1, a), (2, b), (3, e)] (fun s g => FpOut.mk
      (fun _ => zip3 (fun x y z => fpFinish f r false 0 (fvFma r x y z)) (s.fvec g 1 f a) (s.fvec g 2 f b) (s.fvec g 3 f e))
      (fun _ => fpFinish f r false 0 (fvFma r (s.fscal g 1 f a) (s.fscal g 2 f b) (s.fscal g 3 f e))))) ∧
  (∀ (c : Ctl) (ft : FT) (p : FPred) (dst src : TC) (r : Rnd) (sat : Bool) (d a b : Opd),
    let f := ftFmt ft
    let one := fun (op : FV → Nat × Fl) (s : State) (g : Group) =>
      FpOut.mk (fun _ => (s.fvec g 1 f a).map op) (fun _ => op (s.fscal g 1 f a))
    FpCompletes (.fcmp c ft p d a b) c (some 6) d .test [(1, a), (2, b)] (fun s g => FpOut.mk
      (fun _ => List.zipWith (fcmpOp p) (s.fvec g 1 f a) (s.fvec g 2 f b))
      (fun _ => fcmpOp p (s.fscal g 1 f a) (s.fscal g 2 f b))) ∧
    FpCompletes (.fclass c ft d a) c (some 6) d (.run 1) [] (fun s g => FpOut.mk
      (fun _ => List.zipWith (fun x w => (fclassOp f x + (if isMarker w then 2 ^ 10 else 0), flNone)) (s.fvec g 1 f a) (s.vec g 1 0 a))
      (fun _ => (fclassOp f (s.fscal g 1 f a) + (if isMarker (s.scal g 1 0 a) then 2 ^ 10 else 0), flNone))) ∧
    FpCompletes (.fcvt c dst src r sat d a b) c (some 6) d (.run (if dst.is64 then 2 else 1))
      (if src.isInt then [] else [(1, a)]) (fun s g => FpOut.mk
        (fun _ => List.zipWith (fun x u => cvtOp dst r sat u x) (s.cvtSrc g src a) (s.draws c g r b))
        (fun _ => cvtOp dst r sat (s.draw1 g r b) (s.cvtSrc1 g src a))) ∧
    FpCompletes (.frnd c ft r d a) c (some 6) d (.run 1) [(1, a)] (one (frndOp f r)) ∧
    FpCompletes (.fscale c ft r d a b) c (some 6) d (.run 1) [(1, a)] (fun s g => FpOut.mk
      (fun _ => List.zipWith (fscaleOp f r) (s.fvec g 1 f a) (s.ints g 2 .i32 b))
      (fun _ => fscaleOp f r (s.fscal g 1 f a) (s.int1 g 2 .i32 b))) ∧
    FpCompletes (.fsqrt c ft r d a) c none d (.run 1) [(1, a)] (one (fun x => fpFinish f r false 0 (fvSqrt x)))) ∧
  (∀ (c : Ctl) (ft : FT) (d a b : Opd),
    let f := ftFmt ft
    let fn := fun (n : Nat) (s : State) (g : Group) => FpOut.mk
      (fun _ => List.zipWith (sfuOp ft n) (s.fvec g 1 f a) (s.fvec g 2 f a)) (fun _ => sfuOp ft n (s.fscal g 1 f a) (s.fscal g 2 f a))
    let of1 := fun (i : Instr) (n : Nat) => FpCompletes i c none d (.run 1) [(1, a)] (fn n)
    of1 (.frcp c ft d a) 0 ∧ of1 (.frsq c ft d a) 1 ∧
    FpCompletes (.fdivs c ft d a b) c none d (.run 1) [(1, a), (2, b)] (fun s g => FpOut.mk
      (fun _ => List.zipWith (sfuOp ft 2) (s.fvec g 1 f a) (s.fvec g 2 f b)) (fun _ => sfuOp ft 2 (s.fscal g 1 f a) (s.fscal g 2 f b))) ∧
    of1 (.fexp2 c ft d a) 3 ∧ of1 (.flog2 c ft d a) 4 ∧ of1 (.fsin c ft d a) 5 ∧ of1 (.fcos c ft d a) 6 ∧
    of1 (.ftanh c ft d a) 7 ∧ of1 (.fsigm c ft d a) 8)

/-- R158, R142, R143: the packed pairs compute each half with its own draw, the halves of B exchanged where the form says.
R166 to R173: dot products, scales and packed conversions. R145, R146: their faults, as for the others. In scalar form under
.sr a packed pair draws for elements 0 and 1, and PCVT for its slots (the choice of assumption 85); DPF8 and DPF4 read the raw
bits of an inline constant (the choice of assumption 91). -/
def Obligations.PackedResults : Prop :=
  (∀ (c : Ctl) (ft : FT) (r : Rnd) (swb : Bool) (d a b e : Opd),
    let f := ftFmt ft
    let pair := fun (op : FV → FV → FV × Fl) (u0 u1 : Nat) (x y : FV × FV) =>
      let y := if swb then (y.2, y.1) else y
      packHalves (fpFinish f r false u0 (op x.1 y.1)) (fpFinish f r false u1 (op x.2 y.2))
    let dr := fun (s : State) (g : Group) (n : Nat) => if r = .sr then srDraw (s.scal g 3 0 e) n else 0
    let two := fun (op : FV → FV → FV × Fl) (s : State) (g : Group) => FpOut.mk
      (fun _ => zip3 (fun i x y => pair op (dr s g (2 * i)) (dr s g (2 * i + 1)) x y)
        ((List.range W).map (fun i => s.laneBase g c.scope + i)) (s.pvec g 1 f a) (s.pvec g 2 f b))
      (fun _ => pair op (dr s g 0) (dr s g 1) (s.pscal g 1 f a) (s.pscal g 2 f b))
    let fma := fun (x y z : FV × FV) =>
      let y := if swb then (y.2, y.1) else y
      packHalves (fpFinish f r false 0 (fvFma r x.1 y.1 z.1)) (fpFinish f r false 0 (fvFma r x.2 y.2 z.2))
    FpCompletes (.pradd c ft r swb d a b e) c (some 6) d (.run 1) [(1, a), (2, b)] (two (fvAdd r)) ∧
    FpCompletes (.prmul c ft r swb d a b e) c (some 6) d (.run 1) [(1, a), (2, b)] (two fvMul) ∧
    FpCompletes (.prfma c ft r swb d a b e) c (some 6) d (.run 1) [(1, a), (2, b), (3, e)] (fun s g => FpOut.mk
      (fun _ => zip3 fma (s.pvec g 1 f a) (s.pvec g 2 f b) (s.pvec g 3 f e))
      (fun _ => fma (s.pscal g 1 f a) (s.pscal g 2 f b) (s.pscal g 3 f e)))) ∧
  (∀ (c : Ctl) (sat ka kb one hi : Bool) (dst src : TC) (r : Rnd) (d a b e : Opd),
    let dot := fun (w : Nat) (x y z : Nat) =>
      resNat .i32 (if sat then clampTo .i32 (sext 32 z + dotInt w x y (32 / w)) else sext 32 z + dotInt w x y (32 / w))
    let int3 := fun (i : Instr) (op : Nat → Nat → Nat → Nat) => Completes i c (fun s => .done (s.perLane c 4 (fun g m =>
      groupWrites d 1 m (fun _ => zip3 op (s.raws g 1 a) (s.raws g 2 b) (s.raws g 3 e))
        (fun _ => op (s.raw1 g 1 a) (s.raw1 g 2 b) (s.raw1 g 3 e)))))
    let dotf := fun (i : Instr) (fa fb : FFmt) (w : Nat) => FpCompletes i c (some 6) d (.run 1) [(1, a), (2, b), (3, e)]
      (fun s g => let op := fun (x y : Nat) (z : FV) => dotFloat (slotsFV fa w x) (slotsFV fb w y) z
        FpOut.mk (fun _ => zip3 op (s.raws g 1 a) (s.raws g 2 b) (s.fvec g 3 fmtF32 e))
          (fun _ => op (s.raw1 g 1 a) (s.raw1 g 2 b) (s.fscal g 3 fmtF32 e)))
    int3 (.dp4i c sat d a b e) (dot 4) ∧
    int3 (.dp8i c sat d a b e) (dot 8) ∧
    dotf (.dpf8 c ka kb d a b e) (if ka then fmtE5m2 else fmtE4m3) (if kb then fmtE5m2 else fmtE4m3) 8 ∧
    dotf (.dpf4 c d a b e) fmtE2m1 fmtE2m1 4 ∧
    FpCompletes (.mxsc c one d a b e) c (some 6) d (.run 1) [(1, a)] (fun s g => FpOut.mk
      (fun _ => zip3 mxscOp (s.fvec g 1 fmtF32 a) (s.raws g 2 b) (if one then List.replicate W 127 else s.raws g 3 e))
      (fun _ => mxscOp (s.fscal g 1 fmtF32 a) (s.raw1 g 2 b) (if one then 127 else s.raw1 g 3 e))) ∧
    (let run := (List.range dst.slots).map (fun j => Opd.plus a j)
     let seed := fun (s : State) (g : Group) => if r = .sr then s.scal g 3 0 b else 0
     FpCompletes (.pcvt c dst src r sat d a b) c (some 6) d (.run 1) (if src.isInt then [] else run.map (fun o => (1, o)))
      (fun s g => FpOut.mk
        (fun _ => (List.range W).map (fun i => pcvtPack dst src r sat (seed s g) ((s.laneBase g c.scope + i) * dst.slots) 0
          ((run.map (fun o => s.vec g 1 0 o)).map (fun v => nth 0 v i))))
        (fun _ => pcvtPack dst src r sat (seed s g) 0 0 (run.map (fun o => s.scal g 1 0 o))))) ∧
    Completes (.punp c src hi d a) c (fun s =>
      let slot := fun (m x : Nat) => punpSlot src (slotOf src.slotBits x ((if hi then src.slots / 2 else 0) + m))
      .done (s.perLane c 4 (fun g l => (List.range (src.slots / 2)).flatMap (fun m =>
        if d.isScalarDst then writeScal d m (BitVec.ofNat 32 (slot m (s.raw1 g 1 a)))
        else writeVec d m l ((s.raws g 1 a).map (fun x => BitVec.ofNat 32 (slot m x))))))))

/-- R161 to R164: FACT reads the selected bank, TBLSEL selects one, and TBLLD is held with its load until the load is
complete and then passes. When a load reads the scratchpad is assumption 50. -/
def Obligations.ActivationTableResults : Prop :=
  ∀ (c : Ctl) (ft : FT) (d a : Opd) (bank : Fin 2),
    let f := ftFmt ft
    CompletesIf (.fact c ft d a) c
      (fun s => s.FpQuiet c d [(1, a)] ∧ ∀ x ∈ s.execs c,
        s.loadOn x.1.core (b2n x.1.bank) = false ∧ (x.2 = 0 ∨ (s.bankOf x.1).owner = some x.1.ctx))
      (fun s => .done (s.cur.members.foldl (fun t m => t.modGroup m.key Group.markFact)
        (fpState c none d (.run 1) (fun s g => FpOut.mk (fun _ => (s.fvec g 1 f a).map (factOp (s.bankOf g) f))
          (fun _ => factOp (s.bankOf g) f (s.fscal g 1 f a))) s))) ∧
    Completes (.tblsel c a) c (fun s => onGroup c s (fun g _ e =>
      .done (if e = 0 then s else s.modGroup g.key (fun g => { g with bank := bitOf (s.scal g 1 0 a).toNat 0 })))) ∧
    CompletesIf (.tblld c a bank) c
      (fun s => s.OnIssuer c (fun g _ e => e = 0 ∨
        ((s.core g.core).loads.find? (isLoadOf g.key s.cur.pc)).any (fun l => l.done) = true))
      (fun s => onGroup c s (fun g _ e => .done (if e = 0 then s else
        s.modCore g.core (fun k => { k with loads := k.loads.filter (fun x => !isLoadOf g.key s.cur.pc x) })))) ∧
    CompletesIf (.tblld c a bank) c
      (fun s => s.OnIssuer c (fun g _ e => let off := (s.scal g 1 0 a).toNat
        e ≠ 0 ∧ (s.core g.core).loads.find? (isLoadOf g.key s.cur.pc) = none ∧ off % 16 = 0 ∧ off + tableBytes ≤ 524288 ∧
        (s.core g.core).segRefused g.ctx off tableBytes = false))
      (fun s => onGroup c s (fun g _ _ => let off := (s.scal g 1 0 a).toNat
        .hold (s.modCore g.core (fun k =>
          { k.claim g.ctx off tableBytes with loads := k.loads ++ [TblLoad.mk bank.val off g.ctx g.key s.cur.pc false false] }))))

/- ### Packed narrow arithmetic and partial sort -/

/-- R174 to R177: partial sorts where no value that takes part is a marker: the list pair at D and the candidates,
merged by R174's key, keep the first K entries, and K 0 writes nothing; ARGMX finds the first entry of the span. R146: where
values that take part are markers, the fault is SNAN_UNINIT in their lanes and names the register, the list's before A's (the
choice of assumption 91). -/
def Obligations.PartialSortResults : Prop :=
  ∀ (c : Ctl) (asc : Bool) (ft : FT) (d a : VReg) (b k dd av : Opd),
    let merged := fun (s : State) (g : Group) (kk : Nat) (other : List TopEntry) =>
      let l := topSort asc (topEntries fmtF32 0 (List.range kk) (s.vec g 0 0 (.v d)) (s.vec g 0 1 (.v d)) ++ other)
      let at_ := fun (i : Nat) => if i < kk then l[i]? else none
      Eff.done (s.putVar g.key
        [.v d.toNat allLanes ((List.range W).map (fun i => match at_ i with | some x => x.bits | none => emptyValue fmtF32 asc)),
         .v (d.toNat + 1) allLanes ((List.range W).map (fun i => match at_ i with | some x => x.index | none => 0xFFFFFFFF))])
    let low := fun (kk : Nat) => maskOf (fun i => decide (i < kk))
    let mark := fun (k : GKey) (h : Mask) (n : Nat) => if h = 0 then [] else [LaneFault.mk k h .snanUninit n 0]
    let marks := fun (s : State) (g : Group) (kk : Nat) (taking : Mask) =>
      mark g.key (s.topMarkers g (low kk) (s.vec g 0 0 (.v d))) d.toNat ++ mark g.key (s.topMarkers g taking (s.vec g 1 0 (.v a))) a.toNat
    let unmarked := fun (s : State) (g : Group) (kk : Nat) => s.topMarkers g (maskOf (fun i => decide (i < kk))) (s.vec g 0 0 (.v d)) = 0
    CompletesIf (.vtopk c asc d a b k) c
      (fun s => let kk := min (s.once 3 k).toNat W
        kk ≠ 0 ∧ s.OnIssuer c (fun g _ e => unmarked s g kk ∧ s.topMarkers g e (s.vec g 1 0 (.v a)) = 0))
      (fun s => onGroup c s (fun g _ e => merged s g (min (s.once 3 k).toNat W)
        (topEntries fmtF32 1 (lanesOf e) (s.vec g 1 0 (.v a)) (s.topIndices g b (s.once 2 b) 0)))) ∧
    CompletesIf (.vtopkm c asc d a k) c
      (fun s => let kk := min (s.once 2 k).toNat W
        kk ≠ 0 ∧ s.OnIssuer c (fun g _ _ => unmarked s g kk ∧
          s.topMarkers g (maskOf (fun i => decide (i < kk))) (s.vec g 1 0 (.v a)) = 0))
      (fun s => onGroup c s (fun g _ _ => let kk := min (s.once 2 k).toNat W
        merged s g kk (topEntries fmtF32 1 (List.range kk) (s.vec g 1 0 (.v a)) (s.vec g 1 1 (.v a))))) ∧
    CompletesIf (.vtopk c asc d a b k) c (fun s => (s.once 3 k).toNat = 0) (fun s => .done (s.perLaneVar c (fun _ _ => []))) ∧
    CompletesIf (.vtopkm c asc d a k) c (fun s => (s.once 2 k).toNat = 0) (fun s => .done (s.perLaneVar c (fun _ _ => []))) ∧
    CompletesIf (.vtopk c asc d a b k) c
      (fun s => let kk := min (s.once 3 k).toNat W
        kk ≠ 0 ∧ s.OnIssuer c (fun g _ e => marks s g kk e ≠ []))
      (fun s => onGroup c s (fun g _ e => .fault s (marks s g (min (s.once 3 k).toNat W) e))) ∧
    CompletesIf (.vtopkm c asc d a k) c
      (fun s => let kk := min (s.once 2 k).toNat W
        kk ≠ 0 ∧ s.OnIssuer c (fun g _ _ => marks s g kk (low kk) ≠ []))
      (fun s => onGroup c s (fun g _ _ => let kk := min (s.once 2 k).toNat W
        .fault s (marks s g kk (low kk)))) ∧
    (let found := fun (s : State) => (s.execs c).flatMap (fun x => mark x.1.key (s.topMarkers x.1 x.2 (s.vec x.1 1 0 av)) av.code)
     CompletesIf (.argmx c ft asc dd av b) c (fun s => found s ≠ []) (fun s => .fault s (found s))) ∧
    CompletesIf (.argmx c ft asc dd av b) c
      (fun s => ∀ x ∈ s.execs c, s.topMarkers x.1 x.2 (s.vec x.1 1 0 av) = 0)
      (fun s =>
        let es := ((s.span c).zipIdx).flatMap (fun x =>
          (topEntries (ftFmt ft) 0 (lanesOf (s.execOf c x.1.key)) (s.vec x.1 1 0 av) (s.topIndices x.1 b (s.once 2 b) (x.2 * W))).map
            (fun t => { t with lane := x.2 * W + t.lane }))
        let r : Word × Word := match (topSort asc es).head? with
          | some x => (x.bits, x.index)
          | none => (emptyValue (ftFmt ft) asc, 0xFFFFFFFF)
        .done (s.everyMember c none (fun _ m =>
          if dd.isScalarDst then writeScal dd 0 r.1 ++ writeScal dd 1 r.2
          else if m == 0 then [] else writeVec dd 0 m (List.replicate W r.1) ++ writeVec dd 1 m (List.replicate W r.2))))

/- ### The matrix unit -/

/-- R184, R186, R195 to R199: the matrix instructions other than MMA, MWFM and MFIN enter the queue, with what they read at
issue; MWLD, MSTA and MLDA claim their scratchpad range, which passes its checks. MWFM completes once no MWLD is in the
queue, and MFIN, with an acquire, once the queue is empty. -/
def Obligations.MatrixInstructionsEnter : Prop :=
  ∀ (c : Ctl) (fmt ft : TC) (raw : Bool) (t : Tile) (i : BitVec 2) (n : BitVec 6) (a b d row0 col : Opd),
    let always := fun (_ : State) (_ : Group) (_ : Mx) => True
    let plain := fun (j : Instr) (op : State → MxOp) => MxCompletes j c always (fun s _ m => (s, op s, m.view))
    MxCompletes (.mwld c fmt a b) c
      (fun s g _ =>
        spRangeFault s g (s.once 1 a).toNat (weightBytes (colsOf g.core.die)) 128 = none ∧
        (fmt.mxScaled = true → spRangeFault s g (s.once 2 b).toNat (scaleBytes fmt (colsOf g.core.die)) 16 = none))
      (fun s g m =>
        let w := (s.once 1 a).toNat
        let sc := if fmt.mxScaled then (s.once 2 b).toNat else 0
        (s.modCore g.core (fun k => (k.claim g.ctx w (weightBytes (colsOf g.core.die))).claim g.ctx sc (scaleBytes fmt (colsOf g.core.die))),
          .mwld fmt w sc, m.view.load fmt)) ∧
    MxCompletes (.mwsw c) c always (fun s _ m => (s, .mwsw, { m.view with active := !m.view.active })) ∧
    CompletesIf (.mwfm c) c (fun s => s.MxRoom (fun _ m => ∀ e ∈ m.queue, isMwld e.op = false)) .done ∧
    CompletesIf (.mfin c) c (fun s => s.MxRoom (fun _ m => m.queue = [])) (fun s => .done s.mxAcquire) ∧
    plain (.mzero c t) (fun _ => .mzero t) ∧
    MxCompletes (.mrel c) c always (fun s _ m => (s, .mrel, { m.view with latch := none })) ∧
    MxCompletes (.mrow c i a) c always (fun s _ m =>
      (s, .mrow i (predValue s a), { m.view with row := setAt m.view.row i.toNat (predValue s a) })) ∧
    MxCompletes (.mcol c i a) c always (fun s _ m =>
      (s, .mcol i (predValue s a), { m.view with col := setAt m.view.col i.toNat (predValue s a) })) ∧
    MxCompletes (.msca c a) c (fun s g _ => a.isImm = true ∨ isMarker (s.once 1 a) = false ∨ s.nomark g.ctx = true)
      (fun s _ m => (s, .msca (match a with | .imm k => BitVec.ofNat 32 (immCode fmtF32 k) | _ => s.once 1 a), m.view)) ∧
    MxCompletes (.mrda c raw t d n row0 col) c always (fun s _ m =>
      let ms := ((s.span c).zipIdx).filterMap (fun x =>
        if (s.cur.members.map (·.key)).contains x.1.key then some (x.1.key, s.execOf c x.1.key, x.2 * W) else none)
      (ms.foldl (fun s1 x => s1.modGroup x.1 (fun g =>
        { g with
          inFlight := g.inFlight ++ [⟨none, s.cur.sb, [], [], s.tick, none, some s.tick, (List.range n.toNat).map (fun j => (Opd.plus d j).code), s.cur.cls⟩]
          sb := modAt g.sb s.cur.sb (· + 1) })) s,
        .mrda raw t d n.toNat (s.once 2 row0).toNat (s.once 3 col).toNat ms s.tick, m.view)) ∧
    MxCompletes (.mwra c t d n row0 col) c always (fun s g m =>
      (s, .mwra t ((mmaRows s c (s.once 2 row0).toNat).flatMap (fun x => (List.range n.toNat).filterMap (fun j =>
        if (s.once 3 col).toNat + j < colsOf g.core.die then
          some (x.1, (s.once 3 col).toNat + j, nth 0 (s.vec x.2.1 0 0 (Opd.plus d j)) x.2.2) else none))), m.view)) ∧
    MxCompletes (.msta c t a ft) c
      (fun s g _ => spRangeFault s g (s.once 1 a).toNat (128 * colsOf g.core.die * tileSize ft) 128 = none)
      (fun s g m => (s.modCore g.core (fun k => k.claim g.ctx (s.once 1 a).toNat (128 * colsOf g.core.die * tileSize ft)),
        .msta t (s.once 1 a).toNat ft, m.view)) ∧
    MxCompletes (.mlda c t a) c
      (fun s g _ => spRangeFault s g (s.once 1 a).toNat (128 * colsOf g.core.die * 4) 128 = none)
      (fun s g m => (s.modCore g.core (fun k => k.claim g.ctx (s.once 1 a).toNat (128 * colsOf g.core.die * 4)),
        .mlda t (s.once 1 a).toNat, m.view))

/-- R185, R188, R190, R191, R192: an MMA whose kind pairs with the format that will be active enters the queue: with the
rows of the latch where the latch holds its kind, and else with the rows of its registers, none of which is out of the
budget or a marker; .reuse makes the latch or keeps it. R185: an MMA faults MATRIX_STATE in every executing lane where
the active bank holds no weights, where the kind does not pair with their format, or where the latch is of another
kind; FAULTADDR holds 1, 2 or 3. R188: which kinds pair with which formats. -/
def Obligations.MmaResults : Prop :=
  (∀ (c : Ctl) (ka : AKind) (reuse : Bool) (t : Tile) (i j : BitVec 2) (a b e : Opd) (fmt : TC),
    let k := mxK fmt
    let op := fun (m : Mx) (useLatch : Bool) rows =>
      MxOp.mma ka reuse t i j useLatch rows (nth 0 m.view.row i.toNat) (nth 0 m.view.col j.toNat) 0
    MxCompletes (.mma c ka reuse t i j a b e) c
      (fun _ _ m => m.view.activeFmt = some fmt ∧ mxPairs ka fmt = true ∧ m.view.latch = some (ka, k))
      (fun s _ m => (s, op m true [], if reuse then m.view else { m.view with latch := none })) ∧
    MxCompletes (.mma c ka reuse t i j a b e) c
      (fun s g m => m.view.activeFmt = some fmt ∧ mxPairs ka fmt = true ∧ m.view.latch = none ∧
        runFault g a (aRun ka k) = none ∧ runFault g e (scaleRun ka k e) = none ∧
        mmaMarkers s (mmaRows s c (s.once 2 b).toNat) [(1, a, aRun ka k), (3, e, scaleRun ka k e)] = [])
      (fun s _ m => (s, op m false ((List.range 128).map (fun n =>
        ((mmaRows s c (s.once 2 b).toNat).find? (fun x => x.1 == n)).map (fun x =>
          (aRow s x.2.1 ka k a x.2.2, if ka.scaled then aScales s x.2.1 k e x.2.2 else [])))),
        if reuse then { m.view with latch := some (ka, k) } else m.view))) ∧
  (∀ (c : Ctl) (ka : AKind) (reuse : Bool) (t : Tile) (i j : BitVec 2) (a b e : Opd) (d : Desc) (s : State) (g : Group) (m : Mx),
    let x := Instr.mma c ka reuse t i j a b e
    let stops := fun (n : Nat) => exec x s = .next (finish x c d (.fault (s.walked x d)
      (((s.walked x d).execs c).map (fun y => LaneFault.mk y.1.key y.2 .matrixState 0 (BitVec.ofNat 64 n)))))
    Ready x c d s → (s.walked x d).readerOf = some g → (s.walked x d).mxFor g.pkey g.ctx = some m → m.queue.length < 16 →
    (m.view.activeFmt = none → stops 1) ∧
    (∀ fmt, m.view.activeFmt = some fmt → mxPairs ka fmt = false → stops 2) ∧
    (∀ fmt l, m.view.activeFmt = some fmt → mxPairs ka fmt = true → m.view.latch = some l → l ≠ (ka, mxK fmt) → stops 3)) ∧
  (∀ (ka : AKind) (fmt : TC), mxPairs ka fmt = true ↔
    (ka.code ≤ 4 ∧ 3 ≤ fmt.code ∧ fmt.code ≤ 7) ∨ (ka.code = 5 ∧ fmt.code = 2) ∨ (ka.code = 6 ∧ fmt.code = 10))

/-- R186, R187, R192 to R199: the two engines of a unit run the queue: the loader its first MWLD with no MWSW before
it, the array its first other instruction; MWSW waits for earlier MWLDs. Nothing else makes these events
occur. R189, R192, R194: one pass of an MMA over the active bank; the last pass of it completes it, sets the latch
where it ends with .reuse, and frees a latch that it used up. When a load reads the scratchpad is assumption 50; that it
reads 0 in segments that the context no longer owns (R247) is assumption 111. -/
def Obligations.MatrixEngineSteps : Prop :=
  (∀ (p : PKey) (s : State) (m : Mx) (e : MxEntry) (ld : Bool), (s.part p).mx = some m →
    let n := colsOf p.die
    let core := (s.core ⟨p.die, p.core⟩).seenBy m.ctx
    (∀ fmt w sc, loaderHead m.queue = some e → e.op = .mwld fmt w sc →
      let elem := fun (k : Nat) => leNat (core.spRead (w + k * wSlotBits fmt / 8) ((wSlotBits fmt + 7) / 8)) /
        2 ^ (k * wSlotBits fmt % 8) % 2 ^ wSlotBits fmt
      exec (.weightLoadComplete p) s = .next ((s.setMx p ((m.setInactive (MxBank.mk (some fmt)
        (Sparse.mapFrom 0 (fun k _ => elem k) 0 (mxK fmt * n) [])
        (Sparse.mapFrom 0 (fun k _ => leNat (core.spRead (sc + k) 1)) 0 (scaleBytes fmt n) []))).complete e 0)).freeMx p)) ∧
    (loaderHead m.queue = none → exec (.weightLoadComplete p) s = .refused .eventNotEnabled) ∧
    (arrayHead false m.queue = some (e, ld) →
      (e.op = .mwsw → ld = false →
        exec (.bankSwap p) s = .next ((s.setMx p ({ m with active := !m.active }.complete e 0)).freeMx p)) ∧
      (e.op = .mwsw → ld = true → exec (.bankSwap p) s = .refused .eventNotEnabled) ∧
      (arrayMayRun e.op = true → exec (.arraySequenceStep p) s = .next (e.op.writers.foldl State.settle
        (((arrayStep p m s e.op).1.setMx p ((arrayStep p m s e.op).2.complete e 0)).freeMx p))) ∧
      (arrayMayRun e.op = false → exec (.arraySequenceStep p) s = .refused .eventNotEnabled))) ∧
  (∀ (p : PKey) (s : State) (m : Mx) (e : MxEntry) (ld : Bool) (ka : AKind) (reuse useLatch : Bool) (t : Tile) (i j : BitVec 2)
    (rows : List (Option (List Nat × List Nat))) (rm cm : BitVec 128) (pass : Nat) (fmt : TC),
    (s.part p).mx = some m → arrayHead false m.queue = some (e, ld) →
    e.op = .mma ka reuse t i j useLatch rows rm cm pass → m.activeBank.fmt = some fmt →
    let read := if useLatch then (match m.latch with | some l => l.rows | none => []) else rows
    let tiled := m.setTile t (mmaTile ka fmt m.activeBank (colsOf p.die) pass read rm cm (m.tile t))
    let latched := if reuse = true ∧ useLatch = false then { tiled with latch := some ⟨ka, mxK fmt, rows⟩ } else tiled
    (pass + 1 < mxPasses ka fmt → exec (.mmaPass p) s = .next (s.setMx p { latched with
      queue := replaceFirst e { e with op := .mma ka reuse t i j useLatch rows rm cm (pass + 1) } m.queue
      lastPc := e.pc, lastPasses := pass + 1 })) ∧
    (¬ pass + 1 < mxPasses ka fmt → exec (.mmaPass p) s = .next ((s.setMx p
      ((if useLatch = true ∧ reuse = false then { latched with latch := none } else latched).complete e (pass + 1))).freeMx p)))

/- ### Memory access -/

/-- R209, R212, R213, R215, R216: the six access instructions, where no lane fails a check, meets a span link that is
down, or (a load) meets a line in transit: each executing lane's access in ascending lane order; a load's results are on
their way to D. -/
def Obligations.MemoryAccessResults : Prop :=
  ∀ (c : Ctl) (it : IT) (d : Opd) (x : MemOpd),
    let runs := fun (i : Instr) (a : Acc) =>
      let dst := if a.store then none else some (d, it.run)
      let run := fun (s0 s : State) => accessRun [] c d.isScalarDst x.h.code dst (memLane a d x d.isScalarDst s0) s
      CompletesIf i c
        (fun s => (∀ r ∈ s.allReach c a x d.isScalarDst, ∃ p, r = .at_ p ∧
            (a.store = true ∨ p.space ≠ .dev ∨ s.inTransit p.buf p.line = false)) ∧
          (run s s.endSpanHold).2.2 = [])
        (fun s => .done (accessDone dst (run s s.endSpanHold)))
    runs (.ld c it d x) ⟨it, false, false, false⟩ ∧
    runs (.st c it d x) ⟨it, true, false, false⟩ ∧
    runs (.ldx c it d x) ⟨it, false, true, false⟩ ∧
    runs (.stx c it d x) ⟨it, true, true, false⟩ ∧
    runs (.ldv c it d x) ⟨it, false, false, true⟩ ∧
    runs (.stv c it d x) ⟨it, true, false, true⟩

/-- R215, R216, R118, R281: a relaxed load of device memory at its own die, in a frame that its context owns and where no access
is pending, answers the little-endian number of the bytes at its address, extended by the type, or is performed later:
it is then the last of its group's pending accesses, and as it is performed it delivers the number of the bytes at that
moment (assumption 37). -/
def Obligations.LoadReadsMemory : Prop :=
  ∀ (s : State) (k : GKey) (who lanes : Mask) (a : Acc) (x : MemOpd) (p : Phys) (dst : Opd) (g : Group),
    s.group? k = some g → p.space = .dev → tierOf p.addr = 0 → s.meetsTable p.addr a.size = false → x.ord = .rlx →
    p.die = g.core.die → (∀ h ∈ s.groups, h.pending = []) → s.holdsFrame g.ctx p = true → frameKey p.addr ∉ s.retained →
    let e := Pending.mk who p g.ctx (.load a.it dst lanes) none none s.tick [] none
    let number := fun (t : State) => itExtend a.it (leNat (Memory.bytes t.mem p.addr a.size))
    let r := s.performLoad k who a x p dst lanes
    (r.2 = .val (number s) ∨ (r.2 = .late ∧ ∃ h, r.1.group? k = some h ∧ h.pending = [e])) ∧ r.1.mem = s.mem ∧
    ∀ (t : State) (h : Group), h.core = g.core → t.rehome p = p → t.holdsFrame g.ctx p = true →
      t.meetsTable p.addr a.size = false →
      t.performOp h e = t.deliver h.key s.tick (loadWrites dst a.it.run lanes (number t))

/-- R215, R216, R281: a relaxed store to device memory adds its little-endian bytes, last, to its group's pending accesses and to
no other group's (that it pends at its issue and is performed later is the choice of assumption 37); it changes no register, lane
position, loop level or walk of its group, no core, buffer or context's window table, no byte of a peer module, and no byte of device
or host memory, but that a frame which another context owned or a reset left reads 0 once this one reaches it (R206; a TIER 1 frame
lies in host memory), and that an event of a hot frame is written into its ring (R272). -/
def Obligations.StoreOnlyPends : Prop :=
  ∀ (s : State) (k : GKey) (who : Mask) (a : Acc) (x : MemOpd) (p : Phys) (data : Nat) (g : Group),
    s.group? k = some g → p.space = .dev → x.ord = .rlx → (∀ h ∈ s.groups, ∀ e ∈ h.pending, e.seen = []) →
    let t := s.performStoreIssue k who a x p data
    (∃ h, t.group? k = some h ∧ h.v = g.v ∧ h.s = g.s ∧ h.y = g.y ∧ h.m = g.m ∧ h.lc = g.lc ∧ h.fpstat = g.fpstat ∧
      h.q = g.q ∧ h.pcs = g.pcs ∧ h.clause = g.clause ∧ h.wait = g.wait ∧ h.live = g.live ∧ h.levels = g.levels ∧
      h.inFlight = g.inFlight ∧ h.fault = g.fault ∧
      h.pending = g.pending ++ [⟨who, p, g.ctx, .store (leBytes a.size data), none, none, s.tick, [], none⟩]) ∧
    (∀ j, j ≠ k → t.group? j = s.group? j) ∧
    (Memory.wf s.mem = true → ∀ b, b / 65536 ≠ frameKey p.addr → Memory.get t.mem b = Memory.get s.mem b) ∧
    (frameOwner (s.frame (frameKey p.addr)) = g.ctx → frameKey p.addr ∉ s.retained → t.mem = s.mem) ∧
    (tierOf p.addr = 0 ∨ (frameOwner (s.frame (frameKey p.addr)) = g.ctx ∧ frameKey p.addr ∉ s.retained) →
      t.events = s.events → t.hostMem = s.hostMem) ∧
    t.peerMem = s.peerMem ∧ t.cores = s.cores ∧ t.bufs = s.bufs ∧ t.cells = s.cells

/-- R281, R211: a pending store that is performed, where no release has shown a pending access and none acquires, in a frame that its context owns and where no table of the part lies,
writes its bytes at its address; every other byte of device memory, and every byte of host and peer memory, reads as
before, no other group changes, and the store is pending no more. -/
def Obligations.PerformedStoreWritesItsBytes : Prop :=
  ∀ (s : State) (k : GKey) (n : Nat) (g : Group) (p : Pending) (bs : List Byte),
    s.group? k = some g → g.pending[n]? = some p → s.canPerform k p (g.pending.take n) = true → p.op = .store bs →
    p.at_.space = .dev → tierOf p.at_.addr = 0 → p.rel = none → (∀ f ∈ g.pending, f.isFence = false ∧ f.acq = none) →
    (∀ h ∈ s.groups, ∀ e ∈ h.pending, e.seen = []) → s.holdsFrame p.ctx p.at_ = true → s.isPlain p.at_.addr bs.length = true → Memory.wf s.mem = true →
    let t := s.performNth k n
    (∀ a, Memory.get t.mem a =
      if p.at_.addr ≤ a ∧ a < p.at_.addr + bs.length then nth 0 bs (a - p.at_.addr) else Memory.get s.mem a) ∧
    t.hostMem = s.hostMem ∧ t.peerMem = s.peerMem ∧
    t.group? k = some { g with pending := g.pending.eraseP p.same } ∧ (∀ j, j ≠ k → t.group? j = s.group? j)

/-- R219, R220, R237: PREF fetches lines and never faults; FENCE, once the earlier versioned stores that its scope covers
are present and, of .rel and .ar, the lanes' earlier in-place operations performed, orders each member's accesses. R221, R222: BTRD reads a word of a buffer's entry, and ROWMAP writes the
inactive copy of a row map. R247, R250, R252: LDSP, STSP, TLOOK, TSET and TCLR, where no lane fails a check. That PREF
needs no right is assumption 42, and for which lanes a FENCE acts assumption 107. -/
def Obligations.BufferAndScratchpadResults : Prop :=
  (∀ (c : Ctl) (h b : Opd) (off : BitVec 7) (ord : Ordr) (scp : Scp),
    AccessCompletes (.pref c h b off) c (fun _ => True) (!laneForm [h, b]) h.code none
      (fun s k s1 i _ => prefLane h b off (!laneForm [h, b]) s k s1 i) ∧
    CompletesIf (.fence c ord scp) c
      (fun s => ∀ x ∈ s.fenceLanes c, s.vstAwaited x.1 scp = false ∧ (ord = .acq ∨ x.1.inPlaceWaits (s.threads x.1 x.2) = false))
      (fun s => .done ((s.fenceLanes c).foldl (fun s x =>
        let s1 := if x.2 = 0 then s else s.fence x.1 (s.threads x.1 x.2) ord scp
        s1.modGroup x.1.key (fun g => { g with vsts := g.vsts.filter (fun v => !s.vstPresent v) })) s))) ∧
  (∀ (c : Ctl) (d row val : Opd) (h : SReg) (w : Fin 16) (ind : Bool),
    let reads := fun (i : Instr) (words : Entry → List Word) => CompletesIf i c
      (fun s => ∀ x ∈ s.execs c, x.2 = 0 ∨ s.entryFault x.1.ctx (s.scal x.1 1 0 (.s h)) = none)
      (fun s => .done (s.perLaneVar c (fun g m =>
        ((words (s.entry (hIndex (s.scal g 1 0 (.s h))))).zipIdx).flatMap (fun x =>
          if d.isScalarDst then writeScal d x.2 x.1 else writeVec d x.2 m (List.replicate W x.1)))))
    reads (.btrd c d h w) (fun e => [BitVec.ofNat 32 (e.f (32 * w.val) 32)]) ∧
    AccessCompletes (.rowmap c ind h row val) c (fun _ => True) (!laneForm [row, val]) (0x100 + h.toNat) none
      (fun s k s1 i who => rowmapLane ind h row val (!laneForm [row, val]) s k s1 i who)) ∧
  (∀ (c : Ctl) (it : IT) (d a b slot key : Opd),
    let sp := fun (store : Bool) (s : State) (k : GKey) (s1 : State) (i : Nat) (who : Mask) =>
      match s.group? k with
      | none => (s1, LaneRes.skip)
      | some g => spLane (it.bits / 8) it (s.lane g 1 0 a d.isScalarDst i + s.lane g 2 0 b d.isScalarDst i).toNat
          (if store then some (s.laneData g 0 it d d.isScalarDst i) else none) (s.threads g who) g
          (if store then s1.beforeWrite k (s.threads g who) else s1.devLoadsFirst k (s.threads g who))
    let onSlot := fun (scalar : Bool) (f : State → Group → Nat → Core → Nat → Core) (s : State) (k : GKey) (s1 : State) (i : Nat)
        (who : Mask) =>
      match s.group? k with
      | none => (s1, LaneRes.skip)
      | some g =>
        let n := (s.lane g 1 0 slot scalar i).toNat
        let s2 := s1.beforeWrite k (s.threads g who)
        match (s2.core g.core).slotFault g.ctx n with
        | some e => (s2, LaneRes.bad e (BitVec.ofNat 64 n))
        | none => (s2.setCore (f s g i (s2.core g.core) n), .skip)
    AccessCompletes (.ldsp c it d a b) c (fun _ => True) d.isScalarDst 0 (some (d, it.run)) (sp false) ∧
    AccessCompletes (.stsp c it d a b) c (fun _ => True) d.isScalarDst 0 none (sp true) ∧
    AccessCompletes (.tlook c d key) c (fun _ => True) d.isScalarDst 0 (some (d, 1)) (fun s k s1 i who =>
      match s.group? k with
      | none => (s1, .skip)
      | some g =>
        let s2 := s1.devLoadsFirst k (s.threads g who)
        (s2, .val ((s2.core g.core).tlook g.ctx (s.lane g 1 0 key d.isScalarDst i)))) ∧
    AccessCompletes (.tset c slot key) c (fun _ => True) (!laneForm [slot, key]) 0 none
      (onSlot (!laneForm [slot, key]) (fun s g i co n => co.tset g.ctx n (s.lane g 2 0 key (!laneForm [slot, key]) i))) ∧
    AccessCompletes (.tclr c slot) c (fun _ => True) (!laneForm [slot]) 0 none
      (onSlot (!laneForm [slot]) (fun _ _ _ co n => co.tclr n)))

/- ### Scratchpad and tag table -/

/-- R247, R250: one lane's STSP that passes its checks leaves a scratchpad whose bytes at its offset are the data, whose
other bytes read as before but for those of the segments it claims, which read 0, and no segment of which it takes from
another context; LDSP, where no earlier content of its words is left that it could find, answers the little-endian number of the bytes
at its offset, extended by the type, and changes no byte but those of the segments it claims, which read 0. R246: a write of one aligned word changes the word of its data
bank at its row and no other word, and with it the parity bank of its group at that row, which stays the exclusive-or of
the four data banks. -/
def Obligations.ScratchpadLaneReadsAndWrites : Prop :=
  (∀ (c : Core) (o : Nat) (x : Word), o % 4 = 0 → Sparse.wf (0 : Byte) c.sp = true →
    let t := c.spWrite o (leBytes 4 x.toNat)
    (∀ b row, b < 32 → t.bankWord b row = if b = spBank o ∧ row = spRow o then x else c.bankWord b row) ∧
    (∀ g row, g < 8 → t.parityWord g row = if g = spBank o / 4 ∧ row = spRow o then
      c.parityWord g row ^^^ c.bankWord (spBank o) row ^^^ x else c.parityWord g row)) ∧
  (∀ (it : IT) (o x : Nat) (who : Mask) (g : Group) (s : State),
    let z := it.bits / 8
    let co := s.core g.core
    co.spCheck g.ctx o z false = none →
    let t := (spLane z it o (some x) who g s).1.core g.core
    (∀ b, Sparse.wf (0 : Byte) co.sp = true → Sparse.get 0 t.sp b =
      if o ≤ b ∧ b < o + z then nth 0 (leBytes z x) (b - o)
      else if (segsOf o z).contains (b / segBytes) && (co.segOwner (b / segBytes)).isNone then 0
      else Sparse.get 0 co.sp b) ∧
    (∀ j n, co.segOwner j = some n → t.segOwner j = some n) ∧ t.segOwner (o / segBytes) = some g.ctx) ∧
  (∀ (it : IT) (o : Nat) (who : Mask) (g : Group) (s : State),
    let z := it.bits / 8
    let co := s.core g.core
    co.spCheck g.ctx o z true = none → (∀ w, s.lateOf g who w = []) → Sparse.wf (0 : Byte) co.sp = true →
    let t := (spLane z it o none who g s).1.core g.core
    (spLane z it o none who g s).2 = .val (itExtend it (leNat ((List.range z).map (fun j => Sparse.get 0 t.sp (o + j))))) ∧
    (∀ b, Sparse.get 0 t.sp b =
      if (segsOf o z).contains (b / segBytes) && (co.segOwner (b / segBytes)).isNone then 0 else Sparse.get 0 co.sp b) ∧
    (∀ j n, co.segOwner j = some n → t.segOwner j = some n) ∧ t.segOwner (o / segBytes) = some g.ctx)

/- ### Restripe, in-place operations, near-bank kicks -/

/-- R232, R233: an accepted RESTRIPE starts on its tag (or is DONE at once where the placement stands already); RSQRY
reads the milestone and the status. Where no lane executes neither does anything. R234 to R238: the in-place
operations, where no lane fails a check of R235: each executing lane is accepted, whatever its operands are, to be performed at its home
later, and the lanes pass the instruction once it is known that no word was bad. R240, R245: an accepted NBKICK starts on its tag with its arguments and its controller's image; NBSTAT reads the
status of a tag's last kick. The steps of a kick are those of assumption 53. -/
def Obligations.InMemoryResults : Prop :=
  (∀ (c : Ctl) (gathered : Bool) (h : SReg) (tag : BitVec 6) (pace d : Opd),
    CompletesIf (.restripe c gathered h tag pace) c
      (fun s => s.OnIssuer c (fun g _ e => e = 0 ∨ s.restripeFault g (s.scal g 1 0 (.s h)) gathered tag.toNat = none))
      (fun s => onGroup c s (fun g _ e => .done (if e = 0 then s else
        s.restripe g (s.scal g 1 0 (.s h)) gathered tag.toNat (s.scal g 3 0 pace).toNat))) ∧
    CompletesIf (.rsqry c d h) c
      (fun s => ∀ x ∈ s.execs c, x.2 = 0 ∨ s.entryFault x.1.ctx (s.scal x.1 1 0 (.s h)) = none)
      (fun s => .done (s.perLaneVar c (fun g m =>
        (([BitVec.ofNat 32 (s.entry (hIndex (s.scal g 1 0 (.s h)))).milestone,
           BitVec.ofNat 32 (rsqryWord (s.entry (hIndex (s.scal g 1 0 (.s h)))))] : List Word).zipIdx).flatMap (fun x =>
          if d.isScalarDst then writeScal d x.2 x.1 else writeVec d x.2 m (List.replicate W x.1)))))) ∧
  (∀ (c : Ctl) (it : IT) (ft : FT) (sat : Bool) (h : SReg) (dst a b : Opd),
    let runs := fun (i : Instr) (f : IpFn) (b : Opd) =>
      let acc := fun (s : State) => accessRun [] c false (0x100 + h.toNat) none (ipLane f h dst a b s) s
      CompletesIf i c (fun s => (acc s).2.2 = [])
        (fun s => if (s.execs c).all (fun x => x.2 == 0) then .done (acc s).1
          else .moved ((acc s).1.setDeciding (some ⟨s.cur, c.scope, 0x100 + h.toNat⟩)) 0)
    runs (.ipadd c it sat h dst a b) (.add it sat) b ∧
    runs (.ipsub c it sat h dst a b) (.sub it sat) b ∧
    runs (.ipmin c it h dst a b) (.least it) b ∧
    runs (.ipmax c it h dst a b) (.greatest it) b ∧
    runs (.ipmac c ft h dst a b) (.mac ft) b ∧
    runs (.ipcpy c h dst a) .copy a) ∧
  (∀ (c : Ctl) (h args : SReg) (slot d : Opd) (tag : BitVec 6),
    let ar := fun (s : State) (g : Group) => (List.range 14).map (fun j => s.scal g 3 j (.s args))
    CompletesIf (.nbkick c h slot args tag) c
      (fun s => s.OnIssuer c (fun g _ x => x = 0 ∨
        s.kickFault g (s.scal g 1 0 (.s h)) (s.scal g 2 0 slot).toNat tag.toNat (ar s g) = none))
      (fun s => onGroup c s (fun g _ x =>
        let hd := s.scal g 1 0 (.s h)
        let e := s.entry (hIndex hd)
        let n := (s.scal g 2 0 slot).toNat
        let img := match s.slotAt n e.stk0 with | some i => i.2 | none => 0
        .done (if x = 0 then s else
          (s.startTag g.core (s.newTag g tag.toNat .nbkick (.kick hd e.pmap n img (ar s g) (List.range (kickSteps (ar s g))) [] 0))).modCore g.core
            (fun k => { k with kicks := k.kicks ++ [(tag.toNat, ⟨n, false, 0, 0xFFFFFFFF, 0⟩)] })))) ∧
    Completes (.nbstat c d tag) c (fun s => .done (s.perLaneVar c (fun g m =>
      (((s.core g.core).nbstat g.ctx tag.toNat).zipIdx).flatMap (fun w =>
        if d.isScalarDst then writeScal d w.2 w.1 else writeVec d w.2 m (List.replicate W w.1))))))

/-- R227, R230, R231, R342, R343: a line move starts where it may, touches the homes of a line that moves and puts the buffer's
next line in transit, or, where a home of such a line is lost, halts the owner; it commits only from transit and where no home is lost: the milestone then names the
next line, and after the last one the restripe is over. R242, R243: a running kick begins a step or goes on by one
column word; its last word ends its tag; one whose next step would reach a lost die halts its context and stops. R259 to R262, R266, R374: a tag with a segment to run moves some of its words:
it reads them and writes them, or holds the segment where `seghold` says, or stops at what the read met; a held segment
is written when it is released. How many words an engine moves at a time, and which step of a kick goes on, are the
free choices of assumption 82; that no upper time bound forces a move is that of assumption 54; that an operation whose owner
has left runs on without its tag is assumption 52, what a kick's elements are assumption 53, and how a kick that meets a lost
die ends assumption 112. -/
def Obligations.EngineSteps : Prop :=
  (∀ (buf : Nat) (s : State),
    let e := s.entry buf
    (s.mayMove buf = false → exec (.lineMoveStart buf) s = .refused .eventNotEnabled) ∧
    (∀ d, s.mayMove buf = true → s.moveLost buf = some d → exec (.lineMoveStart buf) s = .next (s.meetLost e.owner d)) ∧
    (s.mayMove buf = true → s.moveLost buf = none →
      ∃ t, exec (.lineMoveStart buf) s = .next t ∧ t.transit = s.transit ++ [buf] ∧ t.mem = s.mem ∧
        t.bufs = s.bufs ∧ t.groups = s.groups ∧ t.ctxs = ((s.moveHomes buf).foldl (fun s d => s.touch e.owner d) s).ctxs ∧ t.moveAt = s.moveAt.filter (fun x => x.1 != buf) ++ [(buf, s.clk, 0)]) ∧
    (buf ∉ s.transit ∨ (s.moveLost buf).isSome = true → exec (.lineMoveCommit buf) s = .refused .eventNotEnabled) ∧
    (buf ∈ s.transit → s.moveLost buf = none →
      ∃ t, exec (.lineMoveCommit buf) s = .next t ∧ buf ∉ t.transit ∧ t.mem = s.mem ∧
        t.groups = s.groups ∧ (e.milestone + 1 ≠ e.lines → t.bufs = (s.setEntry buf (e.put 160 32 (e.milestone + 1))).bufs) ∧
        (e.milestone + 1 = e.lines → Sparse.wf (0 : BitVec 512) s.bufs = true → (t.entry buf).rstate = 0 ∧
          (t.entry buf).ilv = e.target ∧ (t.entry buf).milestone = e.lines))) ∧
  (∀ (k : CKey) (tag : Nat) (s : State) (t : Tag) (h : Word) (map slot : Nat) (img : BitVec 64) (args : List Word) (todo : List Nat)
    (runs : List KickRun) (done : Nat),
    (s.kickOf k tag = none → exec (.kickStep k tag) s = .refused .eventNotEnabled) ∧
    (∀ d, s.kickOf k tag = some t → t.op = .kick h map slot img args todo runs done →
      (s.kickNext runs todo).bind (s.kickMeetsLost h map args) = some d →
      exec (.kickStep k tag) s = .next (((s.meetLost t.ctx d).modCore k (fun c =>
        { c with tags := replaceTag t (some { t with err := true, stopped := true }) c.tags })).kickStopped t h done 2)) ∧
    (s.kickOf k tag = some t → t.op = .kick h map slot img args todo runs done →
      (s.kickNext runs todo).bind (s.kickMeetsLost h map args) = none →
      let r := s.kickStep k t h map slot img args todo runs done
      let noted := match r.2.2 with
        | some j => r.1.modCore k (fun c => { c with kicks :=
            if t.orphan then c.kicks else c.kicks.map (fun (x : Nat × KickStat) => if x.1 == tag then (x.1, x.2.poisoned j) else x) })
        | none => r.1
      exec (.kickStep k tag) s = .next (match r.2.1.op with
        | .kick _ _ _ _ _ [] [] n => (noted.modCore k (fun c => c.endTag t r.2.1)).kickStopped t h n 0
        | _ => noted.modCore k (fun c => { c with tags := replaceTag t (some r.2.1) c.tags })))) ∧
  (∀ (k : CKey) (tag ctx : Nat) (s : State) (t : Tag),
    ((s.core k).tags.find? (fun x => x.num == tag && s.maySegment k x) = some t →
      exec (.copySegment k tag) s = .next
        (match t.held with
          | some x => (s.segFinish k t t.op.segRest x).drained k t
          | none => match s.segRead k t (s.portion t) with
            | (s1, .ok x) =>
              if t.hold = some t.segs then s1.modCore k (fun c =>
                { c with tags := replaceTag t (some { t with held := some x }) c.tags })
              else (s1.segFinish k t (s.portion t) x).drained k t
            | (s1, r) => (s1.segStop k t r).drained k t)) ∧
    ((s.core k).tags.find? (fun x => x.num == tag && s.maySegment k x) = none →
      exec (.copySegment k tag) s = .refused .eventNotEnabled) ∧
    ((∃ c ∈ s.cores, ∃ x ∈ c.tags, x.ctx = ctx ∧ x.num = tag ∧ x.held.isSome = true ∧ x.released = false) →
      ∃ u, exec (.segholdRelease ctx tag) s = .next u ∧ u.mem = s.mem ∧
        ∀ c ∈ u.cores, ∀ x ∈ c.tags, x.ctx = ctx → x.num = tag → x.held.isSome = true → x.released = true))

/-- R235, R236, R237, R238: an accepted lane, where nothing is pending and the frames are the context's, is pending from then on
and changes no memory; as it is performed it writes the operation's word at dst and no other byte, or, where a word that it reads has
an error, poisons dst, writes nothing, and its lanes are noted with the offset of dst. R319: the checks are decided once the lanes are
performed: then the lanes pass the instruction, or those noted fault ECC_UNCORR. That it pends at its issue and is performed later is
the choice of assumption 37. -/
def Obligations.InPlaceLaneWritesOneWord : Prop :=
  (∀ (s : State) (k : GKey) (who : Mask) (h : Word) (f : IpFn) (dst a b : Nat) (g : Group),
    s.group? k = some g → (∀ j ∈ s.groups, j.pending = []) → Sparse.wf (0 : BitVec 64) s.frames = true →
    let e := s.entry (hIndex h)
    let at_ := fun (o : Nat) => s.phys e h o
    let used := [dst, a] ++ (if f.op.usesB then [b] else [])
    (∀ o ∈ used, frameOwner (s.frame (frameKey (at_ o).addr)) = g.ctx ∧ frameKey (at_ o).addr ∉ s.retained ∧
      s.meetsTable (at_ o).addr wordBytes = false) →
    let r := s.ipAccept k who g h f dst a b
    r.mem = s.mem ∧ r.poison = s.poison ∧ ∃ j, r.group? k = some j ∧ j.pending =
      [⟨who, at_ dst, g.ctx, .inPlace f (at_ a) (at_ (if f.op.usesB then b else a)), none, none, s.tick, [], none⟩]) ∧
  (∀ (t : State) (g j : Group) (p : Pending) (f : IpFn) (a b : Phys),
    p.op = .inPlace f a b → t.rehome p.at_ = p.at_ → t.holdsFrame p.ctx p.at_ = true → t.group? g.key = some j →
    (([a] ++ (if f.op.usesB then [b] else []) ++ (if f.op.readsDst then [p.at_] else [])).any (fun x => t.poisoned x.addr wordBytes)) = true →
    let u := t.performOp g p
    u.mem = t.mem ∧ p.at_.addr / 32 ∈ u.poison ∧
      u.group? g.key = some { j with ipBad := j.ipBad ++ [(p.lanes, 256 * p.at_.line + p.at_.addr % 256)] }) ∧
  (∀ (s : State) (k : GKey) (g : Group) (d : Deciding), s.group? k = some g → g.checks = true → g.deciding = some d →
    let t := State.performIps { s with cur := d.iss }
    let fs := t.ipFaults d.reg
    exec (.checksDecided k) s = .next { (if fs.isEmpty then (t.setDeciding none).passAll
      else (t.setDeciding none).faultOf false d.scope fs).settleAll with cur := s.cur }) ∧
  (∀ (t : State) (g : Group) (p : Pending) (f : IpFn) (a b : Phys),
    p.op = .inPlace f a b → t.rehome p.at_ = p.at_ → t.holdsFrame p.ctx p.at_ = true → Memory.wf t.mem = true →
    (∀ x ∈ [p.at_, a, b], tierOf x.addr = 0 ∧ t.isPlain x.addr wordBytes = true ∧ t.poisoned x.addr wordBytes = false) →
    let rd := fun (x : Phys) => Memory.bytes t.mem x.addr wordBytes
    ∀ x, Memory.get (t.performOp g p).mem x =
      if p.at_.addr ≤ x ∧ x < p.at_.addr + wordBytes then nth 0 (f.op.f (rd p.at_) (rd a) (rd b)) (x - p.at_.addr)
      else Memory.get t.mem x)

/- ### Copies and completion tags -/

/-- R257, R258, R263, R264, R265, R267: an accepted COPY, COPY.shadow, BLKCPY or SHADOW claims its scratchpad rows and
starts on its tag, with the placement of its source as it stands; one that covers no byte is DONE at once; a BLKCPY touches the dies of
the row-map words that it looks up (R342), of which none is lost. That a group's
earlier reads are performed first is assumption 37. -/
def Obligations.CopyStarts : Prop :=
  ∀ (c : Ctl) (tag : BitVec 6) (a h : SReg) (idx : VReg) (first count : Opd),
    let args := fun (s : State) (g : Group) (shadow : Bool) => CopyArgs.mk ((List.range 9).map (fun j => s.scal g 1 j (.s a))) shadow
    let copies := fun (i : Instr) (shadow : Bool) => CompletesIf i c
      (fun s => s.OnIssuer c (fun g _ x => x = 0 ∨ s.copyFault g tag.toNat (args s g shadow) = none))
      (fun s => onGroup c s (fun g _ x =>
        let ar := args s g shadow
        let dstH := nth (0 : Word) ar.w 3
        let s1 := if ar.kind = 0 then s.claimRows g ar.dst else if ar.kind = 1 then s.claimRows g ar.src else s
        .done (if x = 0 then s else s1.startOp g tag.toNat (if shadow then .copyShadow else .copy)
          (.copy ar.kind (nth 0 ar.w 1) ((s.entry (hIndex (nth (0 : Word) ar.w 1))).mapBase (hView (nth (0 : Word) ar.w 1))) ar.src.start (if shadow then shadowHandle dstH else dstH) ar.dst.start
            ar.src.len ar.src.rows ar.src.stride ar.dst.stride 0 0) (ar.src.len = 0))))
    let rowMap := fun (s : State) (g : Group) (x : Mask) =>
      let hd := s.scal g 1 0 (.s h)
      let e := s.entry (hIndex hd)
      let ar := fun (j : Nat) => (s.scal g 3 j (.s a)).toNat
      let is := s.vec g 2 0 (.v idx)
      let off := fun (i : Nat) => ar 2 + (nth 0 is i).toNat * ar 0
      if hView hd = 0 && e.rmap ≠ 0 then
        some (e.rshift, ((List.range W).flatMap (fun i =>
          if laneBit x i && (nth 0 is i).toNat < ar 1 && off i + ar 0 ≤ e.len then s.rowsUsed e (off i) (ar 0) else [])).dedup)
      else none
    copies (.copy c tag a) false ∧
    copies (.copyShadow c tag a) true ∧
    CompletesIf (.blkcpy c tag h idx a) c
      (fun s => s.OnIssuer c (fun g _ x => x = 0 ∨ s.blkFault g (s.scal g 1 0 (.s h)) tag.toNat (s.scal g 3 0 (.s a)).toNat
        (s.scal g 3 3 (.s a)).toNat (s.scal g 3 2 (.s a)).toNat = none ∧
        ∀ d ∈ (s.entry (hIndex (s.scal g 1 0 (.s h)))).rowDies (rowMap s g x), d ∉ s.lost))
      (fun s => onGroup c s (fun g _ x =>
        let hd := s.scal g 1 0 (.s h)
        let e := s.entry (hIndex hd)
        let ar := fun (j : Nat) => (s.scal g 3 j (.s a)).toNat
        let is := s.vec g 2 0 (.v idx)
        let off := fun (i : Nat) => ar 2 + (nth 0 is i).toNat * ar 0
        let want := fun (i : Nat) => laneBit x i && (nth 0 is i).toNat < ar 1
        let map := rowMap s g x
        let blocks := (List.range W).map (fun i => if want i && s.blkLaneOk e hd map (off i) (ar 0) then some (nth 0 is i).toNat else none)
        let s1 := ((e.rowDies map).foldl (fun s d => s.touch g.ctx d) s).claimRows g ⟨ar 3, 0, W * ar 0, 1⟩
        .done (if x = 0 then s else s1.startTag g.core { s1.newTag g tag.toNat .blkcpy (.blk hd (e.mapBase (hView hd)) (ar 0) (ar 2) (ar 3) blocks map 0) with
          err := (lanesOf x).any (fun i => (nth none blocks i).isNone) }))) ∧
    CompletesIf (.shadow c tag h first count) c
      (fun s => s.OnIssuer c (fun g _ x => x = 0 ∨
        s.shadowFault g (s.scal g 1 0 (.s h)) tag.toNat (s.scal g 2 0 first).toNat (s.scal g 3 0 count).toNat = none))
      (fun s => onGroup c s (fun g _ x =>
        let hd := s.scal g 1 0 (.s h)
        let f := (s.scal g 2 0 first).toNat
        let n := (s.scal g 3 0 count).toNat
        .done (if x = 0 then s else s.startOp g tag.toNat .shadow
          (.copy 2 (BitVec.ofNat 32 (hIndex hd)) (s.entry (hIndex hd)).pmap (f * 256) (shadowHandle hd) (f * 256) (n * 256) 1 0 0 0 0) (n = 0))))

/-- R254, R255, R256: WAITANY and WAITALL complete once enough of their tags is DONE, with an acquire, and write the DONE
tags of the mask; FFRDY finds the lowest; TAGCLR clears DONE tags, but not the operations that an owner who has left has running
(assumption 52). What a wait finds of scratchpad words written is assumption 128. -/
def Obligations.TagWaitResults : Prop :=
  ∀ (c : Ctl) (d : SReg) (mask : Opd) (scp : Scp),
    let own := fun (s : State) (g : Group) => (s.core g.core).tagIn (s.tagMask g mask) (fun t => t.ctx != g.ctx) = none
    let ready := fun (s : State) (g : Group) => (s.core g.core).tagDone g.ctx &&& s.tagMask g mask
    let waits := fun (i : Instr) (enough : BitVec 64 → BitVec 64 → Prop) => CompletesIf i c
      (fun s => (∃ x ∈ s.execs c, x.2 ≠ 0) ∧ s.OnIssuer c (fun g _ x => x ≠ 0 ∧ own s g ∧ enough (ready s g) (s.tagMask g mask)))
      (fun s => onGroup c s (fun g _ _ =>
        .done (((s.acquire g.core.die g.ctx scp).tagsSeen g scp (ready s g)).putVar g.key [.s d.toNat (loWord (ready s g)), .s (d.toNat + 1) (hiWord (ready s g))])))
    waits (.waitany c d mask scp) (fun r bits => r ≠ 0 ∨ bits = 0) ∧
    waits (.waitall c d mask scp) (fun r bits => r = bits) ∧
    CompletesIf (.ffrdy c d mask) c (fun s => s.OnIssuer c (fun g _ x => x ≠ 0 ∧ own s g))
      (fun s => onGroup c s (fun g _ _ => .done (s.putFixed g.key 4
        [.s d.toNat (match lowestLane (ready s g) with | some n => BitVec.ofNat 32 n | none => 0xFFFFFFFF)]))) ∧
    CompletesIf (.tagclr c mask) c
      (fun s => s.OnIssuer c (fun g _ x => x ≠ 0 ∧ own s g ∧ (s.core g.core).tagIn (s.tagMask g mask) (fun t => !t.done) = none))
      (fun s => onGroup c s (fun g _ _ => .done (s.modCore g.core (fun k =>
        { k with tags := k.tags.filter (fun t => t.orphan || !(s.tagMask g mask).getLsbD t.num) }))))

/-- R268: PUBLISH that passes its checks holds its group with its exchange outstanding, completes once the exchange has taken
effect, and the exchange takes effect where it may: PMAP and SMAP change places, and the row maps with them; one that would reach a lost
die for them halts the context instead (R343). -/
def Obligations.PublishSteps : Prop :=
  ∀ (c : Ctl) (h : SReg) (k : GKey) (s0 : State) (g0 : Group) (buf : Nat),
    CompletesIf (.publish c h) c (fun s => s.OnIssuer c (fun g _ x => x ≠ 0 ∧ ∃ b, g.publish = some (b, true)))
      (fun s => onGroup c s (fun g _ _ => .done (s.modGroup g.key (fun g => { g with publish := none })))) ∧
    CompletesIf (.publish c h) c
      (fun s => s.OnIssuer c (fun g _ x => x ≠ 0 ∧ g.publish = none ∧ s.publishFault g (s.scal g 1 0 (.s h)) = none))
      (fun s => onGroup c s (fun g _ _ =>
        .hold (s.modGroup g.key (fun g' => { g' with publish := some (hIndex (s.scal g 1 0 (.s h)), false) })))) ∧
    (∀ d, s0.group? k = some g0 → g0.publish = some (buf, false) → s0.mayExchange g0 buf = true →
      (s0.entry buf).rowMapDies.find? s0.lost.contains = some d → exec (.publishExchange k) s0 = .next (s0.meetLost g0.ctx d)) ∧
    (s0.group? k = some g0 → g0.publish = some (buf, false) → s0.mayExchange g0 buf = true →
      (∀ d ∈ (s0.entry buf).rowMapDies, d ∉ s0.lost) →
      let s1 := s0.releaseLanes k allLanes .system
      let fs := s1.bufFrames (s1.entry buf)
      exec (.publishExchange k) s0 = .next ((State.exchange { s1 with
        readCopies := s1.readCopies.filter (fun x => !fs.contains (x.line / 256))
        dirty := s1.dirty.filter (fun x => !fs.contains (x.line / 256)) } buf).modGroup k
          (fun g => { g with publish := some (buf, true), heldSince := none })))

/- ### Atomics, barriers, mailboxes, versioned cells -/

/-- R295 to R300: the atomics and REDOP, where no lane fails a check, no line reached is in transit, the sync objects
have space in their lodges, and no checked operand is a marker: each executing lane's read-modify-write is on its way to
its home, in ascending order. Object sizes are the free values of assumption 19. -/
def Obligations.AtomicResults : Prop :=
  ∀ (c : Ctl) (it : IT) (ft : FT) (t : RedT) (o : RedOp) (d : Opd) (x : MemOpd),
    let runs := fun (i : Instr) (op : AtomOp) =>
      let scalar := d.isScalarDst
      let space := fun (s : State) => s.reserveAll ((s.atomReaches c op.z x scalar []).filterMap (fun p =>
        if (s.entry p.2.buf).kind = 2 then some (p.2.die, p.1.ctx, ObjKey.sync p.2.buf (p.2.offset / 16)) else none))
      let dst := op.ret.map (fun n => (d, n))
      let run := fun (s1 : State) => accessRun [] c scalar x.h.code dst (atomLane op d x scalar s1) s1
      CompletesIf i c
        (fun s => (∀ p ∈ s.atomReaches c op.z x scalar [], s.inTransit p.2.buf p.2.line = false) ∧
          (op.marks = false ∨ ∀ g ∈ s.execs c, s.nomark g.1.ctx = true ∨ s.markerFaults g.1 scalar g.2 [(0, d)] = []) ∧
          ∃ s1, space s = .ok s1 ∧ (run s1).2.2 = [])
        (fun s => match space s with | .ok s1 => .done (accessDone dst (run s1)) | .error _ => .hold s)
    runs (.aadd c it d x) (intAtom .add it d) ∧
    runs (.amin c it d x) (intAtom (.least it) it d) ∧
    runs (.amax c it d x) (intAtom (.greatest it) it d) ∧
    runs (.aand c it d x) (intAtom .and it d) ∧
    runs (.aor c it d x) (intAtom .or it d) ∧
    runs (.axor c it d x) (intAtom .xor it d) ∧
    runs (.axchg c it d x) (intAtom .xchg it d) ∧
    runs (.acas c it d x) (casAtom it d) ∧
    runs (.afadd c ft d x) (fpAtom (.fadd ft) (ftFmt ft) (some 1) d) ∧
    runs (.redop c t o d x) (redAtom t o d)

/-- R296, R297, R298, R300: a read-modify-write that is performed, in a frame that its context owns and where no table lies,
leaves the new number, little-endian, in its bytes, and returns the old one; no other byte changes. -/
def Obligations.ReadModifyWriteIsOneStep : Prop :=
  ∀ (s : State) (g : Group) (p : Pending) (f : RmwFn) (z x y : Nat) (ret : Option (Opd × Nat × Mask)),
    p.op = .rmw f z x y ret → s.rehome p.at_ = p.at_ → s.holdsFrame p.ctx p.at_ = true → tierOf p.at_.addr = 0 →
    s.isPlain p.at_.addr z = true → Memory.wf s.mem = true →
    let old := leNat (Memory.bytes s.mem p.at_.addr z)
    ∃ u : State, s.performOp g p = (match ret with
        | some (dst, run, lanes) => u.deliver g.key p.issue (loadWrites dst run lanes old)
        | none => u) ∧
      (∀ a, Memory.get u.mem a =
        if p.at_.addr ≤ a ∧ a < p.at_.addr + z then nth 0 (leBytes z (f.new z old x y)) (a - p.at_.addr) else Memory.get s.mem a) ∧
      u.groups = s.groups ∧ u.hostMem = s.hostMem ∧ u.peerMem = s.peerMem

/-- R303: BARR arrives once the record it waits on first is gone, with a release at package scope; BARW completes
without a record, or once the phase of its record is over, read through the view of its arrival (R204). The accesses to the object that
come before are performed first (R275, R280). Object sizes are the free values of assumption 19. -/
def Obligations.BarrierResults : Prop :=
  ∀ (c : Ctl) (h : SReg) (off : Opd),
    let at_ := fun (s : State) (g : Group) (p : Phys) => s.check (barReq g.ctx (s.scal g 1 0 (.s h)) (s.scal g 2 0 off).toNat) = .ok p
    let buf := fun (s : State) (g : Group) => hIndex (s.scal g 1 0 (.s h))
    let o := fun (s : State) (g : Group) => (s.scal g 2 0 off).toNat
    let place := fun (s : State) (g : Group) =>
      match s.check (barReq g.ctx (s.scal g 1 0 (.s h)) (s.scal g 2 0 off).toNat) with
      | .ok p => p
      | .error _ => ⟨.dev, 0, 0, 0, 0⟩
    let view := fun (s : State) (g : Group) => hView (s.scal g 1 0 (.s h))
    let past := fun (s : State) (g : Group) => s.barFirst g.key (place s g)
    let record := fun (s : State) (g : Group) => g.arrivals.find? (fun a => a.buf == buf s g && a.off == o s g)
    let freed := fun (s : State) (g : Group) => match g.barFirst (buf s g) (o s g) with
      | none => past s g
      | some a => ((past s g).acquire g.core.die g.ctx .package).modGroup g.key (fun g => { g with arrivals := dropArrival a g.arrivals })
    CompletesIf (.barr c h off) c
      (fun s => s.OnIssuer c (fun g _ x => x ≠ 0 ∧
        (∀ a, g.barFirst (buf s g) (o s g) = some a → (past s g).barPhase a ≠ a.phase) ∧
        ∃ p s1, at_ s g p ∧ (freed s g).inTransit p.buf p.line = false ∧
          (freed s g).reserve p.die g.ctx (.sync (buf s g) (o s g / 16)) = some s1))
      (fun s => onGroup c s (fun g _ x =>
        let p := place s g
        let s1 := ((freed s g).reserve p.die g.ctx (.sync (buf s g) (o s g / 16))).getD s
        .done (((s1.releaseLanes g.key (s1.threads g x) .package).modCtx g.ctx (fun c => { c with annexFull := false })).barArrive
          g p (buf s g) (o s g) (view s g)))) ∧
    CompletesIf (.barw c h off) c
      (fun s => s.OnIssuer c (fun g _ x => x ≠ 0 ∧ record s g = none ∧ ∃ p, at_ s g p))
      (fun s => onGroup c s (fun g _ _ => .done ((past s g).touch g.ctx (place s g).die))) ∧
    (let used := fun (s : State) (g : Group) =>
      ((past s g).touch g.ctx (place s g).die).useObj (place s g).die (.sync (buf s g) (o s g / 16))
     CompletesIf (.barw c h off) c
      (fun s => s.OnIssuer c (fun g _ x => x ≠ 0 ∧
        (∃ a, record s g = some a ∧ (used s g).barPhase a ≠ a.phase) ∧ ∃ p, at_ s g p))
      (fun s => onGroup c s (fun g _ _ => match record s g with
        | some a => .done (((used s g).acquire g.core.die g.ctx .package).modGroup g.key (fun g =>
            { g with arrivals := dropArrival a g.arrivals }))
        | none => .done s)))

/-- R304 to R306: MBPUT appends its message while the queue has room; MBGET and MBTRY take the message that is theirs
in the order of arrival; MBTRY answers five zeros where there is none. Object sizes are the free values of assumption 19; what MBTRY leaves for waiting gets is assumption 56. -/
def Obligations.MailboxResults : Prop :=
  ∀ (c : Ctl) (q : Opd) (a d : SReg),
    let n := fun (s : State) (g : Group) => (s.scal g 1 0 q).toNat
    let good := fun (s : State) (g : Group) (k : Ctx) => s.ctx? g.ctx = some k ∧ n s g ≤ 1023 ∧
      mbValid (s.mbEntry k (n s g)) = true ∧ s.lost.contains (mbHome (s.mbEntry k (n s g))) = false
    let home := fun (s : State) (g : Group) => match s.ctx? g.ctx with | some k => mbHome (s.mbEntry k (n s g)) | none => 0
    let box := fun (s : State) (g : Group) => match s.ctx? g.ctx with | some k => k.mailbox (n s g) | none => ⟨0, [], []⟩
    let taking := fun (ws : List Word → List Word) (at_ : Mailbox → GKey → Nat) (s : State) => onGroup c s (fun g _ _ =>
      match (box s g).msgs[at_ (box s g) g.key]? with
      | some msg => .done ((s.useObj (home s g) (.mailbox g.ctx (n s g))).mbReturn g (box s g) (at_ (box s g) g.key) (home s g)
          (msgWrites d (ws msg)))
      | none => .done s)
    let getAt := fun (mb : Mailbox) (k : GKey) => if mb.waiting.contains k then mb.waiting.idxOf k else mb.waiting.length
    let somewhere := fun (s : State) => ∃ x ∈ s.execs c, x.2 ≠ 0
    CompletesIf (.mbput c q a) c
      (fun s => s.OnIssuer c (fun g _ x => x ≠ 0 ∧ ∃ k s1, good s g k ∧ (box s g).held < mbDepth (s.mbEntry k (n s g)) ∧
        s.reserve (home s g) g.ctx (.mailbox g.ctx (n s g)) = some s1))
      (fun s => onGroup c s (fun g _ x =>
        let s1 := (s.reserve (home s g) g.ctx (.mailbox g.ctx (n s g))).getD s
        .done ((((s1.releaseLanes g.key (s1.threads g x) .system).modCtx g.ctx (fun c => { c with annexFull := false })).touch g.ctx (home s g)).setMailbox g.ctx
          { box s g with msgs := (box s g).msgs ++ [(List.range 4).map (fun j => s.scal g 2 j (.s a))] }))) ∧
    CompletesIf (.mbget c d q) c
      (fun s => somewhere s ∧ s.OnIssuer c (fun g _ x => x ≠ 0 ∧ (∃ k, good s g k) ∧
        getAt (box s g) g.key < (box s g).msgs.length)) (taking id getAt) ∧
    CompletesIf (.mbtry c d q) c
      (fun s => somewhere s ∧ s.OnIssuer c (fun g _ x => x ≠ 0 ∧ (∃ k, good s g k) ∧
        (box s g).waiting.length < (box s g).msgs.length)) (taking (fun m => m ++ [1]) (fun mb _ => mb.waiting.length)) ∧
    CompletesIf (.mbtry c d q) c
      (fun s => somewhere s ∧ s.OnIssuer c (fun g _ x => x ≠ 0 ∧ (∃ k, good s g k) ∧
        (box s g).msgs.length ≤ (box s g).waiting.length))
      (fun s => onGroup c s (fun g _ _ => .done (((s.useObj (home s g) (.mailbox g.ctx (n s g))).touch g.ctx (home s g)).putVar
        g.key (msgWrites d [0, 0, 0, 0, 0]))))

/-- R308 to R315: VLD, VLDS, VST and RECON, where no lane fails a check and the cells that need space in a lodge have it: what
one executing lane's access of a cell does is `act`. One width for a cell is assumption 44. -/
def Obligations.VersionedResults : Prop :=
  ∀ (c : Ctl) (w64 all : Bool) (rop : ReconOp) (d off e : Opd) (h : SReg),
    let w := if w64 then 8 else 4
    let runs := fun (i : Instr) (op : VerOp) (load : Bool) =>
      let room := fun (s : State) => s.reserveAll (s.verSpace c op h off d.isScalarDst)
      let dst := if load then some (d, 0) else none
      let run := fun (s1 : State) => accessRun [] c d.isScalarDst (0x100 + h.toNat) dst (verLane op h off d.isScalarDst s1) s1
      CompletesIf i c (fun s => ∃ s1, room s = .ok s1 ∧ (run s1).2.2 = [])
        (fun s => match room s with | .ok s1 => .done (accessDone dst (run s1)) | .error _ => .hold s)
    runs (.vld c w64 d h off e) (VerOp.mk w (fun _ _ => false) false (fun _ _ x scalar i s =>
      let cell := s.cellFor x.buf x.off x.w x.e.nrep
      .ok (s, runWrites scalar d (vRun w64) i (match (cell.rep x.r).sibs with | y :: _ => y.value.toNat | [] => 0) [cell.status x.r 0] ++
        ((cell.rep x.r).join.zipIdx).flatMap (fun y => regWrite scalar e y.2 i (BitVec.ofNat 32 y.1))))) true ∧
    runs (.vlds c w64 d h off e) (VerOp.mk w (fun _ _ => false) false (fun s0 g x scalar l s =>
      match ((s.cellFor x.buf x.off x.w x.e.nrep).rep x.r).sibs[(s0.scal g 3 0 e).toNat]? with
      | some y => .ok (s, runWrites scalar d (vRun w64) l y.value.toNat [BitVec.ofNat 32 (y.h + 4), BitVec.ofNat 32 y.n])
      | none => .ok (s, runWrites scalar d (vRun w64) l 0 [0, 0]))) true ∧
    runs (.vst c w64 d h off e) (VerOp.mk w (fun _ _ => true) true (fun s0 g x scalar i s =>
      let cell := s.cellFor x.buf x.off x.w x.e.nrep
      match (cell.rep x.r).store x.r (BitVec.ofNat 64 (s0.laneData g 0 (if w64 then .w64 else .w32) d scalar i)) (s0.quad g e scalar i) with
      | none => .error (.cell .verFull)
      | some r => .ok ((s.setCell ((cell.setRep x.r r.1).send x.r r.2 (fun q => s.lost.contains (x.e.rep q)))).modGroup g.key
          (fun g => { g.dropSteps x.buf x.off x.w with vsts := g.vsts ++ [⟨x.buf, x.off, r.1.era, r.2.h, r.2.n⟩] }), []))) false ∧
    runs (.recon c rop all d h off e) (VerOp.mk 0 (fun s x => ((s.cellFor x.buf x.off x.w x.e.nrep).rep x.r).sibs != []) true (fun s0 g x scalar i s =>
      let cell := s.cellFor x.buf x.off x.w x.e.nrep
      match reconMisfit g d x.w with
      | some n => .error (.reg n)
      | none =>
      match (cell.rep x.r).recon x.r rop x.w (if all then none else some (s0.quad g e scalar i)) with
      | none => .error (.cell .verFull)
      | some r =>
        let cell1 := match r.sib with
          | some y => (cell.setRep x.r r.rep).send x.r y (fun q => s.lost.contains (x.e.rep q))
          | none => cell
        .ok (if r.sib.isSome then s.setCell cell1 else s,
          runWrites scalar d (x.w / 4) i r.value [cell1.status x.r r.merged]))) true

/- ### System instructions, faults and their return -/

/-- R324, R328: TRAP raises SOFT_TRAP with its word in FAULTADDR in its executing lanes; BRK stops a context that is
being debugged, and raises SOFT_TRAP with all ones in another; where no lane executes neither does anything. R325,
R111: in a handler RTE.replay, RTE.skip and RTE.resume end the fault; RESUMEPC lies in the image. R320, R326, R327,
R330: GSR reads a state register, SSR writes the fields that software writes, HALT halts the context with cause 3, CLK
reads the clock; GSR writes nothing, and SSR and HALT do nothing, where no lane executes. Details of RTE are
assumption 27. -/
def Obligations.SystemResults : Prop :=
  (∀ (c : Ctl) (a : Opd),
    let raises := fun (i : Instr) (addr : State → Group → BitVec 64) (P : State → Group → Prop) => CompletesIf i c
      (fun s => s.OnIssuer c (fun g _ x => x ≠ 0 ∧ P s g))
      (fun s => onGroup c s (fun g m x => .fault s [⟨m.key, x, .softTrap, 0, addr s g⟩]))
    let idle := fun (i : Instr) => CompletesIf i c (fun s => s.OnIssuer c (fun _ _ x => x = 0)) .done
    raises (.trap c a) (fun s g => (s.scal g 1 0 a).zeroExtend 64) (fun _ _ => True) ∧
    raises (.brk c) (fun _ _ => 0xFFFFFFFF) (fun s g => s.dbg g.ctx = false) ∧
    CompletesIf (.brk c) c (fun s => s.OnIssuer c (fun g _ x => x ≠ 0 ∧ s.dbg g.ctx = true))
      (fun s => onGroup c s (fun g _ _ => .done (s.debugStop g.ctx))) ∧
    idle (.trap c a) ∧ idle (.brk c)) ∧
  (∀ (c : Ctl) (a : Opd),
    Completes (.rteReplay c a) c (fun s => onGroup c s (fun g _ _ =>
      .moved (s.rteReplay g (if a.isS then pairOf (s.scal g 1 0 a) (s.scal g 1 1 a) else allLanes) (s.clk + 1 + c.stall.toNat)) 0)) ∧
    Completes (.rteSkip c) c (fun s => onGroup c s (fun g _ _ => .moved (s.endHandler g .skip (s.clk + 1 + c.stall.toNat)) 0)) ∧
    CompletesIf (.rteResume c) c (fun s => s.OnIssuer c (fun g _ _ => s.inImage g g.resume = true))
      (fun s => onGroup c s (fun g _ _ =>
        .moved (s.endHandler g (if g.resume = g.resume0 then .skip else .resume g.resume) (s.clk + 1 + c.stall.toNat)) 0))) ∧
  (∀ (c : Ctl) (r : SReg) (sel : BitVec 6) (b d : Opd),
    Completes (.gsr c r sel) c (fun s => onGroup c s (fun g _ x =>
      .done (s.putVar g.key (if x = 0 then [] else
        .s r.toNat (loWord (s.stateReg g sel.toNat)) ::
          (if stateRegWide sel.toNat then [.s (r.toNat + 1) (hiWord (s.stateReg g sel.toNat))] else []))))) ∧
    Completes (.ssr c sel b) c (fun s => onGroup c s (fun g _ x =>
      .done (if x = 0 then s else s.writeStateReg g sel.toNat (s.scal g 2 0 b)))) ∧
    Completes (.halt c) c (fun s => onGroup c s (fun g _ x =>
      .done (if x = 0 then s else s.haltCtx g.ctx 3 (g.haltRec s.cur.pc s.clk)))) ∧
    Completes (.clk c d) c (fun s => .done (s.perLane c 4 (fun _ m =>
      groupWrites d 2 m (fun _ => List.replicate W s.clock.toNat) (fun _ => s.clock.toNat)))))

/-- R320, R321, R110: a fault whose context has a handler, is not halted and has no masked or suspended member among those
that stand at the instruction: the handling member's fault registers hold the fault, RESUMEPC the next instruction, its
handler thread starts at TRAPVEC with traps masked, and the other members are suspended with the same record but for their own
FAULTLANES. No register of theirs, no memory and no other group changes. SEL of FAULTSCOPE is the choice of assumption 88. -/
def Obligations.FaultEntersTheHandler : Prop :=
  ∀ (s : State) (f : FaultInfo) (h : Group) (c : Ctx),
    s.handling f = some h → s.ctx? h.ctx = some c → c.halt = none → c.trapvec ≠ 0 → f.code ≠ .dieLost →
    (∀ x ∈ f.arrived, ∀ g, s.group? x.1 = some g → g.mask = false ∧ g.susp = false) →
    let t := s.takeFault f
    let same := fun (g' g : Group) => g'.v = g.v ∧ g'.s = g.s ∧ g'.y = g.y ∧ g'.m = g.m ∧ g'.lc = g.lc ∧ g'.q = g.q ∧ g'.pcs = g.pcs ∧
      g'.fpstat = g.fpstat ∧ g'.live = g.live ∧ g'.levels = g.levels ∧ g'.sb = g.sb ∧ g'.pending = g.pending ∧ g'.inFlight = g.inFlight
    let rec_ := fun (k : GKey) => FaultRegs.mk (BitVec.ofNat 32 f.code.num) f.pc (lanesFor k f.lanes) (BitVec.ofNat 32 f.reg) f.addr
      (BitVec.ofNat 32 (scopeFaultNum f.scope + s.selOf h f.scope * 2 ^ 8 + f.arrived.length * 2 ^ 16))
      (BitVec.ofNat 32 (groupsWord f.arrived))
    (∃ g, t.group? h.key = some g ∧ g.fault = rec_ h.key ∧
      g.resume = f.next ∧ g.inh = true ∧ g.mask = true ∧ g.entries = min (h.entries + 1) 65535 ∧ g.hpc = c.trapvec ∧
      g.hpos = none ∧ same g h) ∧
    (∀ x ∈ f.arrived, ∀ g, s.group? x.1 = some g → x.1 ≠ h.key → ∃ g', t.group? x.1 = some g' ∧ g'.susp = true ∧
      g'.fault = rec_ x.1 ∧ same g' g) ∧
    (∀ k, (∀ x ∈ f.arrived, x.1 ≠ k) → t.group? k = s.group? k) ∧
    t.mem = s.mem ∧ t.hostMem = s.hostMem ∧ t.peerMem = s.peerMem ∧ t.ctxs = s.ctxs

/-- R323, R333, R337, R345: with no handler (TRAPVEC 0) a fault halts the context with cause 1, and a fault of a member that is
masked or suspended halts it with cause 2; the halt's first record holds the fault, and no member issues again. -/
def Obligations.FaultHaltsTheContext : Prop :=
  ∀ (s : State) (f : FaultInfo) (h : Group) (c : Ctx),
    s.handling f = some h → s.ctx? h.ctx = some c → c.halt = none → f.code ≠ .dieLost →
    let masked := ∃ x ∈ f.arrived, ∃ g, s.group? x.1 = some g ∧ (g.mask = true ∨ g.susp = true)
    let halts := fun (cause : Nat) => ∃ c' r, (s.takeFault f).ctx? h.ctx = some c' ∧ c'.halt = some r ∧ r.cause = cause ∧
      r.clk = s.clk ∧ r.primary.valid = true ∧ r.primary.code = BitVec.ofNat 8 f.code.num ∧ r.primary.pc = f.pc ∧
      ∀ x ∈ f.arrived, ∀ g, (s.takeFault f).group? x.1 = some g → g.stopped = true
    (masked → halts 2) ∧ (¬ masked → c.trapvec = 0 → halts 1)

/-- R325, R111, R87: the return from a fault clears IN HANDLER, MASK and SUSPENDED of every group that the fault suspended,
changes no register of theirs but the counters of loop levels that their lanes leave, and no other group and nothing else of the
machine. Where it counts the faulting instruction as issued for lanes that go on after it (all that stood there for .skip, those
that did not fault for .resume, and those that stay away from it otherwise), each walk that the instruction reads has advanced
once; an instruction issued again (.replay) advances none here. -/
def Obligations.ReturnClearsTheHandlerBits : Prop :=
  ∀ (s : State) (g : Group) (kind : Rte) (adv : Group → Group) (at_ : Nat) (k : GKey) (h : Group), s.group? k = some h →
    adv = id ∨ adv = s.faultWalks g →
    let t := s.returnFault g kind adv at_
    let past : Mask := match kind with
      | .skip => h.arrivedSet
      | .resume _ => h.arrivedSet &&& ~~~h.faultSet
      | .stay m => h.arrivedSet &&& ~~~(h.faultSet &&& m)
      | .replay _ => 0
    (k ∈ (s.suspendedWith g).map (·.key) → ∃ h', t.group? k = some h' ∧ h'.inh = false ∧ h'.mask = false ∧ h'.susp = false ∧
      at_ ≤ h'.nextIssue ∧ h'.v = h.v ∧ h'.s = h.s ∧ h'.y = h.y ∧ h'.m = h.m ∧ h'.fpstat = h.fpstat ∧
      h'.q = (if past = 0 then h.q else (adv h).q) ∧ h'.fault = h.fault ∧ h'.resume = h.resume ∧ h'.live = h.live ∧
      h'.pending = h.pending ∧ h'.inFlight = h.inFlight ∧ h'.sb = h.sb ∧ h'.arrivals = h.arrivals) ∧
    (k ∉ (s.suspendedWith g).map (·.key) → t.group? k = some h) ∧ t = { s with groups := t.groups }

/-- R43, R109, R393 and the others that a check before the issue raises: where an encoded instruction fails a check at
its own issue, whatever it is, it has no effect of its own and its fault is taken. R393, R107, R109, R322, R325: the checks:
the first v or s register at or above the budget, of the first field that has one, is an illegal encoding, whose FAULTREG is its
operand code; RTE outside a handler is one, and in a handler an instruction that a handler may not run, with FAULTREG 0; of an
instruction that is legal, a scope that it does not have, or one wider than LANE in a handler, is SCOPE_ILLEGAL, and so is a y
register at or above the party's, which FAULTREG names. The order of the checks is assumption 77, which fields of MMA are
checked here assumption 100, and which register FAULTREG names where several are at or above the budget the choice of assumption
114. -/
def Obligations.ChecksBeforeTheIssue : Prop :=
  (∀ (i : Instr) (c : Ctl) (d : Desc) (s : State) (m : Member) (ms : List Member) (g : Group) (f : FaultInfo),
    i.ctl = some c → i.desc = some d → s.cur.members = m :: ms → s.group? m.key = some g → s.cur.phase ≠ .instance_ →
    precheck i c d s g = some f → exec i s = .next ((s.takeFault f).settle m.key)) ∧
  (∀ (i : Instr) (c : Ctl) (d : Desc) (s : State) (g : Group), i.ctl = some c → i.desc = some d →
    let raises := fun (code : FaultCode) (reg : Nat) => ∃ f, precheck i c d s g = some f ∧ f.code = code ∧ f.reg = reg
    let fields := s.budgetSlots g i c d
    let inBudget := fun (x : Slot) => x.use = .none ∨
      ((∀ n, x.opd = some (.v n) → n.toNat + x.run ≤ g.nv) ∧ (∀ n, x.opd = some (.s n) → n.toNat + x.run ≤ g.ns))
    let inParty := fun (x : Slot) => ∀ n, x.opd = some (.y n) → n.toNat + x.run ≤ g.ny
    let unit := classOf d.op = some 3 → s.coreClass g.core % 2 = 0
    let legal := unit ∧ (∀ x ∈ fields, inBudget x) ∧ (isRte i = true → s.cur.phase = .handler) ∧ s.reconOdd c i = false ∧
      (s.cur.phase = .handler → notInHandler i = false ∧ classOf d.op ≠ some 3 ∧ (vectorForm d = true → isLaneReach i = true))
    (∀ pre x post, fields = pre ++ x :: post → (∀ y ∈ pre, inBudget y) → x.use ≠ .none → unit →
      (∀ n, x.opd = some (.v n) → g.nv < n.toNat + x.run → raises .illegalEnc (max n.toNat g.nv)) ∧
      (∀ n, x.opd = some (.s n) → g.ns < n.toNat + x.run → raises .illegalEnc (0x100 + max n.toNat g.ns))) ∧
    (unit → (∀ x ∈ fields, inBudget x) → (isRte i = true → s.cur.phase ≠ .handler → raises .illegalEnc 0) ∧
      (s.cur.phase = .handler → notInHandler i = true → raises .illegalEnc 0)) ∧
    (legal → s.cur.phase = .handler → c.scope ≠ .lane → raises .scopeIllegal 0) ∧
    (legal → (s.cur.phase = .handler → c.scope = .lane) →
      (∀ pre x post n, fields = pre ++ x :: post → (∀ y ∈ pre, inParty y) → x.opd = some (.y n) → g.ny < n.toNat + x.run →
        raises .scopeIllegal (0x300 + max n.toNat g.ny)) ∧
      ((∀ x ∈ fields, inParty x) → d.scopes.contains c.scope = false → raises .scopeIllegal 0)) ∧
    (∀ f, precheck i c d s g = some f →
      f.code = .illegalEnc ∨ f.code = .scopeIllegal ∨
        ((f.code = .stallShort ∨ f.code = .snanUninit) ∧ s.stallchk g.ctx = true)))

/-- R97, R103, R104: an instruction at a wider scope than LANE, other than SIGN, that passes its checks at its own issue
arrives: those of its lanes that have signed the open generation are held by their signature, the others are held at the
rendezvous; nothing of its effect takes place yet. -/
def Obligations.WiderScopeArrives : Prop :=
  ∀ (i : Instr) (c : Ctl) (d : Desc) (s : State) (m : Member) (ms : List Member) (g : Group),
    i.ctl = some c → i.desc = some d → (∀ x, i ≠ .sign x) → c.await = false → c.scope ≠ .lane → s.cur.phase = .group →
    s.cur.members = m :: ms → s.group? m.key = some g → precheck i c d s g = none →
    let sg := s.signedLanes g c.scope m.lanes
    exec i s = .next (((s.modGroup m.key (fun g =>
      { ((g.fillSig c.scope sg.2 none).setWait sg.1 (.sigHold c.scope (s.gen (g.convReg c.scope) + 1))).setWait
          (m.lanes &&& ~~~sg.1) (.held c.scope) with heldSince := none })).settle m.key).endStep m.key)

/- ### Events of the part -/

/-- R24, R25, R40, R41, R63: lanes that stand past the image, or at an instruction with an operand word past it, fault
ADDR_BOUNDS at the first address past the image; a group whose clause fails the checks of R41 faults ILLEGAL_ENC, and else its lanes come to the first instruction, a word on,
with N instructions left. The words pass where each is of the class or, at the end, of class 4, no control transfer
stands before the end, and no Lat V instruction counts on no scoreboard. A word that decodes to no instruction faults.
Words past the image are those of assumption 8; that the fetch is an event of its own is assumption 25; that a handler's own
clause fault has no FAULTLANES is assumption 26. -/
def Obligations.ClauseEvents : Prop :=
  (∀ (k : GKey) (s : State) (g : Group) (pc : Word) (pos : Option ClausePos),
    s.group? k = some g → g.nextPoint = some (pc, pos) →
    let lanes := if g.inh then 0 else g.pointLanes pc
    let after := (s.instrs g (pc + 4) (hdrN (s.codeWord g pc))).2
    let e := BitVec.ofNat 32 (s.codeLen g)
    (s.pastImage g pc pos.isSome = true → exec (.clauseFetch k) s =
      .next (((s.toImageEnd g lanes).takeFault (placeFault g lanes .addrBounds e (e + 4))).settle k)) ∧
    (s.pastImage g pc false = false → pos = none → s.clauseOk g pc = false →
      exec (.clauseFetch k) s = .next ((s.takeFault (placeFault g lanes .illegalEnc pc after)).settle k)) ∧
    (s.pastImage g pc false = false → pos = none → s.clauseOk g pc = true →
      ∃ t h, exec (.clauseFetch k) s = .next t ∧ t.group? k = some h ∧ t.mem = s.mem ∧ h.v = g.v ∧ h.s = g.s ∧
        (g.inh = true → h.hpc = pc + 4 ∧ h.hpos = some ⟨pc, hdrN (s.codeWord g pc)⟩ ∧ h.pcs = g.pcs) ∧
        (g.inh = false → g.pcs.length = W → ∀ i, i < W → nth 0 h.pcs i = (if laneBit lanes i then pc + 4 else nth 0 g.pcs i)))) ∧
  (∀ (cls sb : Nat) (ws : List Word), clauseWordsOk cls sb ws = true ↔
    ∀ j w k, ws[j]? = some w → classOf (wOp w) = some k →
      (k = cls ∨ (j + 1 = ws.length ∧ k = 4)) ∧
      (fnAssigned (wOp w) (wFn w) = true →
        (j + 1 = ws.length ∨ isTransfer (wOp w) (wFn w) = false) ∧ (sb ≠ 7 ∨ latVar (wOp w) (wFn w) = false))) ∧
  (∀ (w : Word) (s : State) (m : Member) (ms : List Member), s.cur.members = m :: ms →
    exec (.unassignedEncoding w) s = .next ((s.takeFault (s.pointFault .illegalEnc 0 0)).settle m.key))

/-- R37, R88, R98, R164, R211, R319: each of the events by which something arrives occurs, and leaves this state: a result that
lands, its pending accesses performed first; checks that have returned; a step fetched ahead; an instance that issues;
a read copy that goes; a table load that completes. When a pending load is performed is assumption 37, what a prefetch keeps assumption 14, and that a table load reads its whole
range as it completes assumption 50. -/
def Obligations.ArrivalEvents : Prop :=
  (∀ (s : State) (k : GKey) (n : Nat) (g : Group) (e : InFlight),
    s.group? k = some g → g.inFlight[n]? = some e → e.due = none → e.token = none →
    let s1 := s.performIssue k e.issue
    let writes := match (s1.group? k).bind (fun g => g.inFlight[n]?) with | some e1 => e1.writes | none => e.writes
    exec (.resultWrite k n) s = .next ((s1.modGroup k (fun g => Write.applyAll
      { g with inFlight := g.inFlight.eraseIdx n, sb := modAt g.sb e.sb (fun x => x - 1) } writes)).settle k)) ∧
  (∀ (s : State) (k : GKey) (g : Group), s.group? k = some g → g.checks = true → g.deciding = none →
    exec (.checksDecided k) s = .next ((s.devLoadsFirst k allLanes).modGroup k (fun g => { g with checks := false }))) ∧
  (∀ (s : State) (k : GKey) (g : Group) (q : QReg) (b : QBind),
    s.group? k = some g → regQ g q.toNat = some b → b.empty = false → g.resident = true → s.qTransit g b = false →
    let s1 := (s.letPass k allLanes (fun _ => true)).qReach g b.fetching
    exec (.streamPrefetch k q) s = .next (s1.modGroup k (fun h =>
      { h with q := setAt h.q q.toNat (some { b with ahead := b.ahead ++ [s1.qFetchFrom g b.fetching (List.range W)] }) }))) ∧
  (∀ (s : State) (n : Nat) (i : Instance), s.instances[n]? = some i → s.instanceMay i = true →
    exec (.instanceIssue n) s = .next { s with issuing := some i.iss, instances := s.instances.eraseIdx n }) ∧
  (∀ (s : State) (die line : Nat), (s.readCopy die line).isSome = true →
    exec (.readCopyExpiry die line) s =
      .next { s with readCopies := s.readCopies.filter (fun c => !(c.die == die && c.line == line)) }) ∧
  (∀ (s : State) (ck : CKey) (bank : Nat) (l : TblLoad),
    firstLoad (s.core ck).loads bank = some l → l.running = true →
    exec (.tblldLoadComplete ck bank) s = .next ((s.setCore { s.core ck with
      tables := modAt (s.core ck).tables bank (fun _ => ⟨some l.ctx, (List.range tableBytes).foldl (fun m j =>
        Sparse.set (0 : Byte) m j (Sparse.get (0 : Byte) (s.core ck).sp (l.off + j))) []⟩)
      loads := (s.core ck).loads.map (fun x => if x == l then { x with running := false, done := true } else x) }).modGroup l.key
        (fun g => { g with heldSince := none })))

/-- R292, R314, R316: a sibling at the head of a queue that does not stand still arrives, and one that is held is let
go once its replica has room: an arrival that finds the sibling's dot in the cell vector changes no sibling, one that
would be the ninth is held, and another joins the vectors and keeps its place in dot order. A compaction, where its
conditions hold, raises every era and renumbers the one sibling. The vectors after a compaction and the release of a
held sibling are assumption 57. -/
def Obligations.CellEvents : Prop :=
  ∀ (buf off src dst : Nat) (s : State) (c : Cell), s.cell? buf off = some c →
    (∀ y, c.queue? src dst = some y → y.held = false → exec (.siblingArrival buf off src dst) s = .next (s.sibArrive c y)) ∧
    (∀ y, c.queue? src dst = some y → y.held = true → (c.rep dst).sibs.length < 8 →
      exec (.heldSiblingRelease buf off src dst) s = .next (s.sibArrive c y)) ∧
    (∀ (y : SibQueue) (x : Sib) (rest : List Sib),
      let r := c.rep y.dst
      let keep := r.sibs.filter (fun z => !covers x.vw r.era z)
      (x.n ≤ nth 0 r.cv x.h → (c.arrive y x rest).reps = c.reps) ∧
      (nth 0 r.cv x.h < x.n → keep.length = 8 →
        (c.arrive y x rest).reps = c.reps ∧ (y ∈ c.queues → y.sibs ≠ [] → { y with held := true } ∈ (c.arrive y x rest).queues)) ∧
      (nth 0 r.cv x.h < x.n → keep.length ≠ 8 → y.dst < c.reps.length →
        ((c.arrive y x rest).rep y.dst).sibs = insertSib x keep ∧
        ((c.arrive y x rest).rep y.dst).cv = joinVec (joinVec r.cv x.vw) (setAt [0, 0, 0] x.h x.n) ∧
        ∀ q, q ≠ y.dst → (c.arrive y x rest).rep q = c.rep q)) ∧
    (∀ x, c.compactable s.clk = some x → exec (.compaction buf off) s = .next (s.setCell { c with
      lastCompact := some s.clk
      reps := c.reps.map (fun r => ⟨(r.era + 1) % 2 ^ 32, setAt [0, 0, 0] x.h 1,
        [{ x with n := 1, vw := [0, 0, 0, (r.era + 1) % 2 ^ 32] }]⟩) })) ∧
    (c.compactable s.clk = none → exec (.compaction buf off) s = .refused .eventNotEnabled)

/-- R331, R332, R348: a debug stop, a breakpoint, a single step and a resume. -/
def Obligations.DebuggerEvents : Prop :=
  ∀ (s : State) (n : Nat) (c : Ctx) (k : GKey) (g : Group) (a : Word) (on : Bool),
    (s.ctx? n = some c → exec (.debugStop n) s = .next (s.debugStop n)) ∧
    (s.ctx? n = some c → ∃ t c', exec (.breakpointSet n a on) s = .next t ∧ t.ctx? n = some c' ∧
      (a ∈ c'.breaks ↔ on = true) ∧ (∀ b, b ≠ a → (b ∈ c'.breaks ↔ b ∈ c.breaks)) ∧ t.groups = s.groups ∧ t.mem = s.mem) ∧
    (s.group? k = some g → g.dstop = true → s.instances.any (fun i => i.ownOf k) = true → exec (.singleStep k) s =
      .next { s.modGroup k (fun g => { g with stepOne := true }) with
        instances := s.instances.map (fun (i : Instance) => if i.ownOf k then { i with step := true } else i) }) ∧
    (s.group? k = some g → g.dstop = true → s.instances.any (fun i => i.ownOf k) = false → exec (.singleStep k) s =
      .next (if g.nextPoint.isNone then s else s.modGroup k (fun g => { g with stepOne := true }))) ∧
    (s.ctx? n = some c → c.stopped = true → ∃ t, exec (.debugResume n) s = .next t ∧ t.mem = s.mem ∧
      ∀ j h, s.group? j = some h → ∃ h', t.group? j = some h' ∧ h'.v = h.v ∧ h'.s = h.s ∧ h'.pcs = h.pcs ∧
        (h.ctx = n → h'.dstop = false ∧ h'.stepOne = (h.broke && s.atBreak h)) ∧
        (h.ctx ≠ n → h' = h))

/-- R334 to R336, R343, R345, R346: the halt line reaches a touched die once; a dump is written once every engine has
stopped and its event posted; whatever the state, a die is declared lost once, by its report or by its missing heartbeat; a handler
that outlasts its bound halts its context with cause 5, and its record has CODE 0x3C and names the group. The fault registers of an
overrun are the choice of assumption 62, the dump's details that of assumption 59, and that the matrix state is cleared with the dump
assumption 64. -/
def Obligations.HaltEvents : Prop :=
  (∀ (s : State) (die : Nat),
    (die < 8 → die ∉ s.lost → exec (.dieLost die) s = .next (s.loseDie die) ∧
      exec (.heartbeatTimeout die) s = .next (s.loseDie die) ∧ (s.loseDie die).lost = s.lost ++ [die]) ∧
    (8 ≤ die ∨ die ∈ s.lost → exec (.dieLost die) s = .refused .eventNotEnabled ∧
      exec (.heartbeatTimeout die) s = .refused .eventNotEnabled)) ∧
  (∀ (s : State) (n die : Nat) (c : Ctx), s.ctx? n = some c → c.halt = none → ∃ c' h', (s.meetLost n die).ctx? n = some c' ∧
    c'.halt = some h' ∧ h'.cause = 4 ∧ h'.clk = s.clk ∧ h'.primary.code = 0x38 ∧ h'.primary.origin = 3 ∧ h'.primary.die = die ∧
    c'.touched = c.touched ||| BitVec.ofNat 8 (2 ^ die)) ∧
  (∀ (s : State) (k : GKey) (g : Group) (c : Ctx), s.group? k = some g → s.overran g = true → s.ctx? g.ctx = some c →
    ∃ t c' h' r, exec (.handlerOverrun k) s = .next t ∧ t = (s.writeFaultRegs
      ⟨.lane, .handlerOverrun, g.hpc, 0, 0, [(k, 0)], [(k, g.arrived)], g.faultNext, g.faultPos⟩ 0).haltCtx g.ctx 5 r ∧
      t.ctx? g.ctx = some c' ∧ c'.halt = some h' ∧ h'.cause = 5 ∧ h'.primary = r ∧ r.code = 0x3C ∧ r.die = g.core.die ∧
      r.core = g.core.core ∧ r.part = g.part ∧ r.team = g.key.team ∧ r.grp = g.key.grp) ∧
  (∀ (s : State) (n die : Nat) (c : Ctx) (h : Halt), s.ctx? n = some c → c.halt = some h →
    (die < 8 → c.touched.getLsbD die = true → die ∉ h.reached → die ∉ s.lost →
      exec (.haltLineArrival n die) s = .next ((s.modCtx n (fun c => { c with halt := c.halt.map (fun h =>
        { h with reached := h.reached ++ [die] }) })).stopDie n die)) ∧
    (die ∈ h.reached ∨ c.touched.getLsbD die = false ∨ die ∈ s.lost →
      exec (.haltLineArrival n die) s = .refused .eventNotEnabled) ∧
    (h.dumped = false → s.allStopped c h = true → c.dump = 0 → exec (.dumpWrite n) s =
      .next (((s.modCtx n (fun c => { c with halt := some { h with dumped := true } })).clearMx n).post 3 0 n 0 0)) ∧
    (h.dumped = false → s.allStopped c h = true → c.dump ≠ 0 →
      let ls := layOut (c.dumpLen * 65536) false 336 (s.sections n h ((diesOf c.touched).any s.lost.contains))
      let h1 := s.dumpFaults n h (c.dumpLen * 65536) ls
      exec (.dumpWrite n) s = .next ((((s.writeDump c ls h1 (c.dumpLen * 65536)).modCtx n (fun c =>
        { c with halt := some { h1 with dumped := true } })).clearMx n).post 2 0 n (BitVec.ofNat 32 (dumpEnd ls)) 0)) ∧
    (h.dumped = true ∨ s.allStopped c h = false → exec (.dumpWrite n) s = .refused .eventNotEnabled))

/- ### Placement -/

/-- R351, R354, R356, R357, R359 to R362, R370, R372, R394: a launch in whose options keldb finds nothing to report, of a context that
does not halt, with a descriptor that the driver accepts, is queued, or placed whole where it is resident, and else refused; `home` puts
each buffer that it names on its stack, `rowmap` gives each buffer that it names its row map, and `rep` its replica dies. R51: the
loader's entry of a declared buffer is owned by the context, with the rights of its kind, and a VERSIONED buffer has no cell, a SYNC one
of one frame every byte zero. R394: the context of a keldb launch has DBG set, an annex of 1,024 frames, a dump and a save area that hold
what the launch can need, no window, and the mailboxes of `mbox` alone. The next team of a launch goes where its place was decided once the victims are out,
it fits, and no evicted party can be restored there. Where the image lies is the choice of assumption 7; that `home` and `rowmap`
act before the launch is looked at, and stay where it is refused, is assumption 97, and the length of keldb's areas assumption 116. -/
def Obligations.LaunchEvents : Prop :=
  ∀ (s0 : State) (r : LaunchReq) (n : Nat),
    let made := r.buffers.foldl (State.makeBuffer r.ctx) (s0.makeCtx r)
    let s := r.rowmaps.foldl State.rowMap ((made.homeBuffers r).repBuffers r)
    let d : TDesc := r.desc
    let whole := r.resident || r.keldb.isSome
    let l := Launch.mk s.nextLaunch r.ctx r.desc r.codeBase r.codeLen r.inits r.place 0 0 whole []
    let added := fun (l : Launch) => ({ s with launches := s.launches ++ [l], nextLaunch := s.nextLaunch + 1 }).modCtx r.ctx
      (fun c => { c with seghold := r.seghold, segUsed := [] })
    let good := homeOk r && repOk r && rowMapsOk r && ctxOk r s0
    (good = false → exec (.launch r) s0 = .next s0.refuseLaunch) ∧
    (good = true → s.halted r.ctx = true ∨ d.ok = false → exec (.launch r) s0 = .next s.refuseLaunch) ∧
    (good = true → s.halted r.ctx = false → d.ok = true → whole = false → exec (.launch r) s0 = .next (added l)) ∧
    (good = true → s.halted r.ctx = false → d.ok = true → whole = true →
      (∀ ps ptr, s.placeAll l (s.candidates d) (d.nteams / d.block) 0 0 s.rooms [] = some (ps, ptr) →
        exec (.launch r) s0 = .next (added { l with plan := ps, ptr := ptr })) ∧
      (s.placeAll l (s.candidates d) (d.nteams / d.block) 0 0 s.rooms [] = none →
        exec (.launch r) s0 = .next s.refuseLaunch)) ∧
    (∀ x, r.home = [] → r.rep = [] → r.rowmaps = [x] → x.area < 2 ^ 56 → x.map < 2 ^ 56 → x.shift ≤ 23 → Sparse.wf (0 : BitVec 512) made.bufs = true →
      let e := s.entry x.buf
      e.rmap = x.area ∧ e.rshift = x.shift ∧ e.rmlen = min (e.len / 2 ^ x.shift) 4096 - 1 ∧ e.rmsel = 0 ∧ e.smap = x.map ∧
      e.len = (made.entry x.buf).len ∧ ∀ j, j ≠ x.buf → s.entry j = made.entry j) ∧
    (∀ b k, r.home = [(b, k)] → r.rep = [] → r.rowmaps = [] → k ≤ 15 → Sparse.wf (0 : BitVec 512) made.bufs = true →
      (s.entry b).stk0 = k ∧ (s.entry b).nstk = 1 ∧ (s.entry b).cbase = 0 ∧ (s.entry b).lines = (made.entry b).lines ∧
      ∀ j, j ≠ b → s.entry j = made.entry j) ∧
    (∀ b x y z, r.home = [] → r.rep = [(b, [x, y, z])] → r.rowmaps = [] → x < 8 → y < 8 → z < 8 → Sparse.wf (0 : BitVec 512) made.bufs = true →
      (s.entry b).rep 0 = x ∧ (s.entry b).rep 1 = y ∧ (s.entry b).rep 2 = z ∧ (s.entry b).nrep = (made.entry b).nrep ∧
      ∀ j, j ≠ b → s.entry j = made.entry j) ∧
    (∀ (b : BufReq) (ctx : Nat), b.vbase < 2 ^ 56 → b.lines < 2 ^ 24 → b.stk0 < 16 → b.nstk < 32 → b.cbase < 2 ^ 11 → b.pmap < 2 ^ 56 →
      ctx < 2 ^ 16 → b.reps = [] → sortReps b.sort ≤ 3 →
      let e := bufEntry b ctx
      e.valid = true ∧ e.vbase = b.vbase ∧ e.lines = (if b.lines = 0 then 2 ^ 24 else b.lines) ∧ e.owner = ctx ∧ e.ilv = b2n b.gathered ∧
      e.stk0 = b.stk0 ∧ e.nstk = b.nstk ∧ e.cbase = b.cbase ∧ e.pmap = b.pmap ∧ e.smap = 0 ∧ e.rmap = 0 ∧ e.rstate = 0 ∧
      (match b.sort with
        | .plain => (e.kind, e.rd, e.wr, e.at_, e.vr, e.ip) = (0, true, true, true, false, true)
        | .readOnly => (e.kind, e.rd, e.wr, e.at_, e.vr, e.ip) = (0, true, false, false, false, false)
        | .sync => (e.kind, e.rd, e.wr, e.at_, e.vr, e.ip) = (2, true, true, true, false, false)
        | .versioned n => (e.kind, e.rd, e.wr, e.at_, e.vr, e.ip) = (1, false, false, false, true, false) ∧ e.nrep = n)) ∧
    (∀ (b : BufReq) (ctx k : Nat), b.image = [] → Sparse.wf (0 : BitVec 512) s0.bufs = true →
      let t := s0.makeBuffer ctx b
      t.entry b.idx = bufEntry b ctx ∧ (∀ j, j ≠ b.idx → t.entry j = s0.entry j) ∧
      (b.sort = .versioned k → ∀ c ∈ t.cells, c.buf ≠ b.idx) ∧
      (b.sort = .sync → (bufEntry b ctx).len ≤ 65536 → dPresent (s0.descr (bufEntry b ctx) 0 0) = true →
        dTier (s0.descr (bufEntry b ctx) 0 0) = 0 → ∀ j, j < (bufEntry b ctx).len →
          Memory.get t.mem (physAddr (s0.descr (bufEntry b ctx) 0 0) j) = 0)) ∧
    (∀ k : KeldbReq, r.keldb = some k →
      let c := keldbCtx k r.ctx d
      let t := s0.makeCtx r
      c.num = r.ctx ∧ c.flags.getLsbD 2 = true ∧ c.flags.getLsbD 0 = false ∧ c.flags.getLsbD 1 = k.nomark ∧
      fld c.flags.toNat 4 2 = k.prio % 4 ∧ c.annexLen = 1024 ∧ d.dumpBytes ≤ c.dumpLen * 65536 ∧ d.saveBytes ≤ c.saveLen * 65536 ∧
      t.ctxs = s0.ctxs ++ [c] ∧
      (k.mbox = [] → ∀ a, k.wintab ≤ a ∧ a < k.wintab + 1024 ∨ k.mbtab ≤ a ∧ a < k.mbtab + 8192 → k.wintab < 2 ^ 56 → k.mbtab < 2 ^ 56 →
        Memory.get t.mem a = 0) ∧
      (∀ m, k.mbox = [m] → mboxOk [m] = true → k.mbtab < 2 ^ 56 → k.wintab < 2 ^ 56 → Memory.wf s0.mem = true →
        t.memNat (k.mbtab + 8 * m.q) 8 = mboxWord m ∧
        ∀ q, q ≤ 1023 → q ≠ m.q → t.memNat (k.mbtab + 8 * q) 8 = 0)) ∧
    (∀ l p rest, s.launch? n = some l → s.halted l.ctx = false → l.next < l.d.nteams → l.plan = p :: rest →
      p.victims.all s.victimOut = true → s.roomNow.fits l.d l.ctx p.core = true → s.restorable p.core = none →
      exec (.teamPlacement n) s = .next (s.takePlace l p rest)) ∧
    (∀ l b ptr p rest, s.launch? n = some l → s.halted l.ctx = false → l.next < l.d.nteams → l.plan = [] → l.resident = false →
      s.scan l (s.candidates l.d) false l.next l.ptr s.rooms [] (s.candidates l.d).length = some (b, ptr) →
      b.plans = p :: rest → b.plans.any (fun p => (s.restorable p.core).isSome) = false →
      exec (.teamPlacement n) s = .next ((s.takePlace l p rest).modLaunch n (fun x => { x with ptr := ptr })))

/-- R359, R62, R146: the groups of a team that takes its place stand at the entry with every lane live and free, and each
register holds the marker of its own operand code (0 under NOMARK) but for the scalars that the launch gives. -/
def Obligations.PlacedGroupIsFresh : Prop :=
  ∀ (s : State) (l : Launch) (team g : Nat) (core : CKey),
    (∀ h ∈ s.groups, h.key ≠ ⟨l.id, team, g⟩) →
    ∃ h, (s.placeGroup l team core g).group? ⟨l.id, team, g⟩ = some h ∧ h.core = core ∧ h.ctx = l.ctx ∧ h.live = allLanes ∧
      h.resident = true ∧ (∀ i, i < W → nth 0 h.pcs i = l.d.entry ∧ nth .free h.wait i = .free ∧ nth none h.clause i = none) ∧
      (∀ n, n < l.d.vregs → regV h n = List.replicate W (if s.nomark l.ctx then 0 else BitVec.ofNat 32 (0x7FA00000 + n))) ∧
      (∀ n, n < l.d.sregs → (∀ x ∈ l.inits, x.1.toNat ≠ n) →
        regS h n = if s.nomark l.ctx then 0 else BitVec.ofNat 32 (0x7FA00000 + 0x100 + n)) ∧
      (∀ n, n < l.d.yregs → regY h n = List.replicate W (if s.nomark l.ctx then 0 else BitVec.ofNat 32 (0x7FA00000 + 0x300 + n))) ∧
      h.m = List.replicate 12 0 ∧ h.lc = List.replicate 3 0 ∧ h.q = List.replicate 8 none ∧ h.sb = List.replicate 6 0 ∧ h.fpstat = 0 ∧ h.levels = [] ∧ h.pending = [] ∧ h.inFlight = []

/-- R365, R367 to R371: a pending group takes a free slot, a stalled group goes out for one that can enter, a group of a victim
that is ready goes out, and an evicted party comes back where it fits. Which of several groups enters is the free
choice of assumption 21; what counts as stalled is assumption 24. -/
def Obligations.ResidencyEvents : Prop :=
  ∀ (s : State) (p : PKey) (n : Nat) (core : CKey),
    (∀ i q, s.freeSlot p = some i → s.anyOf (s.entrants p) = some q →
      exec (.pendingGroupEntry p) s = .next (s.modGroup q.key (fun g => { g with slot := some i }))) ∧
    (∀ q g, s.freeSlot p = none → s.anyOf (s.entrants p) = some q →
      firstOut s (((s.active p).filter (fun g => g.drained && !s.stopsFor g && !s.halted g.ctx)).filter s.stalled) = some g →
      exec (.groupExchange p) s = .next (s.swapSlots g q)) ∧
    (∀ l x rest v, s.launch? n = some l → s.halted l.ctx = false → l.plan = x :: rest →
      (l.plan.flatMap (·.victims)).find? s.victimReady = some v → exec (.partialEviction n) s = .next (s.saveVictim v)) ∧
    (∀ l b ptr, s.launch? n = some l → s.halted l.ctx = false → l.plan = [] → l.resident = false → l.next < l.d.nteams →
      s.scan l (s.candidates l.d) false l.next l.ptr s.rooms [] (s.candidates l.d).length = none →
      s.scan l (s.candidates l.d) true l.next l.ptr s.rooms [] (s.candidates l.d).length = some (b, ptr) →
      exec (.partialEviction n) s = .next (s.modLaunch n (fun x => { x with plan := b.plans, ptr := ptr }))) ∧
    (∀ e, s.restorable core = some e → exec (.partyRestore core) s = .next (e.keys.foldl (fun s k => s.settle k)
      (e.keys.foldl State.restoreGroup ({ s with evicted := s.evicted.filter (fun x => x != e) }.restoreMx e.pkey e.ctx))))

/- ### The host, its driver, links and firmware -/

/-- R381 to R383, R231, R270, R271, R292, R304: a command of the ring that finds no other running completes with code 1
where a reserved field is set and 2 where it names no context, and else is carried out and completes with 0, or with
code 3 or 4 where its own check fails: a descriptor, an area, a slot image, a buffer's number or a frame that is none, and
an owner that is not a halted context whose engines have stopped (assumption 117). CTX_DESTROY completes when the context is retired, and a SLOT_LOAD that waits once the slot
is free. Which code comes first where several apply is assumption 69, the form of a command assumption 70, and that
COUNT, DROPS and the reserved fields of the mailbox table start at 0 is R304's reset. -/
def Obligations.CommandResults : Prop :=
  (∀ (i : Instr) (code : Nat) (x : Cmd) (s : State), s.cmdBusy = false → cmdCode i = some (code, x) →
    x.reserved = true ∨ 65536 ≤ x.ctx.toNat → exec i s = .next (s.complete 1)) ∧
  ∀ (x : Cmd) (s : State), s.cmdBusy = false → x.reserved = false → x.ctx.toNat < 65536 →
    let n := x.ctx.toNat
    let p := x.p0.toNat
    let d := s.memNat p 64
    let k := fld p 32 1 * 2 ^ 40 + fld p 0 32
    let e := s.entry p
    (n = 0 ∨ 4095 < n ∨ (s.ctx? n).isSome = true → exec (.ctxCreate x) s = .next (s.complete 2)) ∧
    (n ≠ 0 → n ≤ 4095 → s.ctx? n = none → (p % 64 ≠ 0 ∨ deviceBytes < p + 64 ∨ ctxDescOk d = false ∨ fld d 0 16 ≠ n) →
      exec (.ctxCreate x) s = .next (s.complete 3)) ∧
    (n ≠ 0 → n ≤ 4095 → s.ctx? n = none → p % 64 = 0 → p + 64 ≤ deviceBytes → ctxDescOk d = true → fld d 0 16 = n →
      exec (.ctxCreate x) s =
        .next ({ s with ctxs := s.ctxs ++ [Ctx.ofDesc d], mem := s.mem.filterMap (mbStart (fld d 128 56)) }.complete 0)) ∧
    (s.ctx? n = none → exec (.ctxHalt x) s = .next (s.complete 2) ∧ exec (.ctxDestroy x) s = .next (s.complete 2) ∧
      exec (.ctxAnnex x) s = .next (s.complete 2) ∧ exec (.slotLoad x) s = .next (s.complete 2) ∧
      exec (.bufAdopt x) s = .next (s.complete 2)) ∧
    (∀ c, s.ctx? n = some c →
      exec (.ctxHalt x) s = .next ((s.haltCtx n 6 (FaultRec.byHost s.clk)).complete 0) ∧
      exec (.ctxDestroy x) s = .next ((s.haltCtx n 6 (FaultRec.byHost s.clk)).modCtx n (fun c => { c with destroying := true })) ∧
      (p % 65536 = 0 → p < deviceBytes → p + x.p1.toNat * 65536 ≤ deviceBytes → x.p1.toNat < 2 ^ 32 → exec (.ctxAnnex x) s =
        .next ((s.modCtx n (fun c => { c with annex := p, annexLen := x.p1.toNat, annexFull := false })).complete 0)) ∧
      (p % 65536 ≠ 0 ∨ deviceBytes ≤ p ∨ deviceBytes < p + x.p1.toNat * 65536 ∨ 2 ^ 32 ≤ x.p1.toNat →
        exec (.ctxAnnex x) s = .next (s.complete 3)) ∧
      (fld p 6 2 ≠ 0 ∨ p / 2 ^ 17 ≠ 0 ∨ fld p 12 5 = 0 ∨ 16 < fld p 12 5 ∨ slotImageOk x.p1.toNat = false →
        exec (.slotLoad x) s = .next (s.complete 3)) ∧
      (fld p 6 2 = 0 → p / 2 ^ 17 = 0 → 1 ≤ fld p 12 5 → fld p 12 5 ≤ 16 → slotImageOk x.p1.toNat = true →
        (s.slotBusy (slotKeys p) = false → exec (.slotLoad x) s = .next ((s.loadSlot x).complete 0)) ∧
        (s.slotBusy (slotKeys p) = true → exec (.slotLoad x) s = .next { s with slotWait := [x] })) ∧
      (2 ^ 20 ≤ p → exec (.bufAdopt x) s = .next (s.complete 3)) ∧
      (p < 2 ^ 20 → s.stoppedCtx e.owner = false → exec (.bufAdopt x) s = .next (s.complete 4)) ∧
      (p < 2 ^ 20 → s.stoppedCtx e.owner = true →
        exec (.bufAdopt x) s = .next (((s.adoptFrames e).foldl (fun s k => s.adoptFrame e.owner n k)
          ((s.adoptObjects p n).setEntry p (e.put 112 16 n))).complete 0))) ∧
    (p / 2 ^ 34 = 0 → (bitOf p 32 = true ∨ fld p 0 32 * 65536 < deviceBytes) →
      exec (.frameRef x) s = .next ((if bitOf p 33 then s.dropRef k else s.addRef k).complete 0)) ∧
    (p / 2 ^ 34 ≠ 0 ∨ (bitOf p 32 = false ∧ deviceBytes ≤ fld p 0 32 * 65536) → exec (.frameRef x) s = .next (s.complete 3)) ∧
    (∀ (u : State) (m : Nat) (c : Ctx), u.ctx? m = some c → c.destroying = true → u.dumpDone m = true →
      exec (.contextRetire m) u = .next ((u.dropCtx m).complete 0)) ∧
    (∀ (u : State) (y : Cmd) (rest : List Cmd), u.slotWait = y :: rest → u.slotBusy (slotKeys y.p0.toNat) = false →
      exec .slotLoadComplete u = .next (({ u with slotWait := rest }.loadSlot y).complete 0))

/-- R271: a reference that brings the count to 4095 pins the frame, one at 4095 leaves it, and one given up at 0 leaves 0 and
pins it; every pinning raises the audit interrupt; no reference unpins, and none given up changes a pinned count; the
last reference of a frame that is not pinned frees it, whose bytes read 0 to whichever context reaches it next, and no
other frame's bytes change. -/
def Obligations.FrameReferences : Prop :=
  ∀ (s : State) (k : Nat), Sparse.wf (0 : BitVec 64) s.frames = true → s.Canonical →
    let r := s.frame k
    let up := s.addRef k
    let down := s.dropRef k
    (frameRefs r < 4094 ∨ (frameRefs r = 4094 ∧ framePinned r = true) → frameRefs (up.frame k) = frameRefs r + 1 ∧
      framePinned (up.frame k) = framePinned r ∧ up.mem = s.mem ∧ frameOwner (up.frame k) = frameOwner r) ∧
    (frameRefs r = 4094 → framePinned r = false →
      frameRefs (up.frame k) = 4095 ∧ framePinned (up.frame k) = true ∧ up.audit = s.audit + 1) ∧
    (frameRefs r = 4095 → up = s) ∧
    (framePinned r = true → down = s) ∧
    (framePinned r = false → frameRefs r = 0 →
      frameRefs (down.frame k) = 0 ∧ framePinned (down.frame k) = true ∧ down.audit = s.audit + 1) ∧
    (framePinned r = false → 2 ≤ frameRefs r →
      frameRefs (down.frame k) = frameRefs r - 1 ∧ framePinned (down.frame k) = false ∧ down.mem = s.mem) ∧
    (framePinned r = false → frameRefs r = 1 → frameRefs (down.frame k) = 0 ∧ frameOwner (down.frame k) = 0 ∧
      (k < 2 ^ 41 → ∀ a, a < 2 ^ 57 → s.meetsTable a 1 = false →
        (a / 65536 = k → ∀ ctx, (down.ownFrame ctx k).devBytes a 1 = [0]) ∧
        (a / 65536 ≠ k → down.devBytes a 1 = s.devBytes a 1)))

/-- R272, R344, R378, R379, R384, R385, R391: accesses from outside, posts to mailboxes, writes of control registers,
the overflow queues, span links, throttling and the loss of power. Assumptions 46, 71, 74, 75 and 76 name the model's
readings; that a write of the offset 0x18, which R379 does not list, does nothing is the choice of assumption 94. -/
def Obligations.HostAndLinkEvents : Prop :=
  ∀ (s : State) (n : Nat) (w : Word) (x : ExtAccess),
    exec (.cxlMemRequest x) s = .next (s.extAccess x) ∧
    (n < 12 → bitOf s.regs.spanstat.toNat n = true →
      exec (.peerModuleRequest n x) s = .next (s.extAccess x) ∧
      exec (.spanLinkDown n) s = .next ({ s with
        regs := { s.regs with spanstat := s.regs.spanstat &&& ~~~BitVec.ofNat 12 (2 ^ n) } }.post 10 0 0 (BitVec.ofNat 32 n) 0) ∧
      exec (.spanLinkUp n) s = .refused .eventNotEnabled) ∧
    (n < 12 → bitOf s.regs.spanstat.toNat n = false →
      exec (.peerModuleRequest n x) s = .refused .eventNotEnabled ∧ exec (.spanLinkDown n) s = .refused .eventNotEnabled ∧
      exec (.spanLinkUp n) s = .next (({ s with regs := { s.regs with spanstat := s.regs.spanstat ||| BitVec.ofNat 12 (2 ^ n) } } : State).modGroups
        (fun g => g.linkUp n s.clk))) ∧
    (∀ k g h, s.group? k = some g → h ∈ g.spanHold → h.expired = false → h.passed = false → h.since + 25000000 ≤ s.clk →
      bitOf s.regs.spanstat.toNat h.link = false → ∃ t g', exec (.spanRequestTimeout k) s = .next t ∧ t.group? k = some g' ∧
        { h with expired := true } ∈ g'.spanHold ∧ g'.v = g.v ∧ g'.s = g.s ∧ t.mem = s.mem) ∧
    (∀ tier val, let k := b2n tier * 2 ^ 40 + w.toNat
      let threshold := (if tier then s.regs.hotthr1 else s.regs.hotthr0).toNat
      ∃ t, exec (.acccntWrite tier w val) s = .next t ∧ t.mem = s.mem ∧
        (Sparse.wf (0 : BitVec 64) s.frames = true → (k ∈ t.hot ↔ threshold ≠ 0 ∧ threshold ≤ val.toNat) ∧ frameCount (t.frame k) = val.toNat ∧
          frameRefs (t.frame k) = frameRefs (s.frame k) ∧ frameOwner (t.frame k) = frameOwner (s.frame k) ∧
          ∀ j, j ≠ k → t.frame j = s.frame j)) ∧
    (∀ e rest, s.overflowOf n = e :: rest → s.ringFull = false →
      exec (.eventOverflowDelivery n) s = .next ((s.setOverflow n rest).ringEvent e)) ∧
    (∀ bytes, bytes.length ≠ 32 ∨ n % 32 ≠ 0 ∨ bytes.drop 18 ≠ List.replicate 14 0 ∨ 1023 < leNat ((bytes.drop 16).take 2) →
      exec (.hostPost n bytes) s = .next (s.post 8 0 (n / 4096) (BitVec.ofNat 32 (n % 4096)) 0)) ∧
    (∀ bytes, bytes.length = 32 → n % 32 = 0 → bytes.drop 18 = List.replicate 14 0 → leNat ((bytes.drop 16).take 2) ≤ 1023 →
      (s.ctx? (n / 4096) = none → exec (.hostPost n bytes) s = .next (s.post 7 0 (n / 4096) 0xFFFFFFFF 0)) ∧
      (∀ c, s.ctx? (n / 4096) = some c → exec (.hostPost n bytes) s = .next (s.postTo c (leNat ((bytes.drop 16).take 2))
        ((List.range 4).map (fun j => BitVec.ofNat 32 (leNat ((bytes.drop (4 * j)).take 4)))) (.hostPost n bytes)))) ∧
    exec (.evqHead w) s = .next { s with regs := { s.regs with evqHead := w } } ∧
    exec (.lostev n) s = .next (s.clearLost n) ∧
    (∀ v : BitVec 64, let put := fun (off : Nat) => exec (.controlRegisterWrite off v) s
      put 0x08 = .next { s with regs := { s.regs with cmdqBase := v } } ∧
      put 0x10 = .next { s with regs := { s.regs with cmdqTail := v.setWidth 32 } } ∧
      put 0x20 = .next { s with regs := { s.regs with evqBase := v } } ∧
      put 0x28 = .next { s with regs := { s.regs with evqHead := v.setWidth 32 } } ∧
      (∀ d, d < 8 → put (0x40 + 4 * d) = .next (s.clearLost d) ∧ nth 0 (s.clearLost d).regs.lostev d = 0) ∧
      (∃ t, put 0x68 = .next t ∧ t.regs = { s.regs with hotthr0 := v.setWidth 16, evqTail := t.regs.evqTail, lostev := t.regs.lostev } ∧
        t.mem = s.mem ∧ t.frames = s.frames) ∧
      (∃ t, put 0x6C = .next t ∧ t.regs = { s.regs with hotthr1 := v.setWidth 16, evqTail := t.regs.evqTail, lostev := t.regs.lostev } ∧
        t.mem = s.mem ∧ t.frames = s.frames) ∧
      (∀ off, off = 0x00 ∨ off = 0x14 ∨ off = 0x2C ∨ off = 0x60 ∨ off = 0x64 → put off = .next s) ∧ put 0x18 = .next s) ∧
    exec (.linkRetrain n) s = .next s ∧ exec (.flitCrcResend n) s = .next s ∧
    exec (.throttle n) s = .next { s with regs := { s.regs with throttle := s.regs.throttle ||| BitVec.ofNat 8 (2 ^ n) } } ∧
    exec (.throttleEnd n) s = .next { s with regs := { s.regs with throttle := s.regs.throttle &&& ~~~BitVec.ofNat 8 (2 ^ n) } } ∧
    exec .thermalPowerRemoval s = .next { State.reset with
      tick := s.tick, turn := s.turn, inbox := s.inbox, hostMem := s.hostMem, peerMem := s.peerMem, powered := false }

/-- R387 to R390, R392: attestation requests answer without touching the machine, a challenge and a measurement with a signature of
the module's identity key; a cold reset starts the machine anew with BOOTSTAT 1 only where every image's signature
verifies against the ROM key, the configuration image passes its checks and every channel trains, with 2, 3 and 4 where
the first that fails is a firmware image, the configuration image and training; a warm reset keeps HBM4E, the
configuration and the measurements, and clears contexts, groups and cores. Keys and certificate are the free values of
assumption 17, the algorithm numbers and where a signature lies those of assumption 18 (presumed), the error that answers
a request for measurement 0 is assumption 110, and what a warm reset keeps of the registers is assumption 73. -/
def Obligations.AttestationAndResets : Prop :=
  ∀ (s : State) (n : Nat),
    let answers := fun (i : Instr) (r : SpdmResponse) => exec i s = .next { s with spdm := s.spdm ++ [r] }
    let key := fun (content : List Byte) => edSign Config.identitySeed (sha512 content)
    answers .getVersion (.version 1 2) ∧
    answers .getCapabilities (.capabilities spdmFlags) ∧
    (∀ sigs hashes, answers (.negotiateAlgorithms sigs hashes) (.algorithms (sigs.contains 10 && hashes.contains 2))) ∧
    answers .getDigests (.digests (digest Config.certChain)) ∧
    answers .getCertificate (.certificate Config.certChain) ∧
    (∀ nonce, answers (.challenge nonce) (.challengeAuth (key (nonce ++ s.measurements.flatMap (fun m => leBytes 64 m.toNat))))) ∧
    answers (.getMeasurements 0) .error ∧
    (∀ d, s.measurements[n]? = some d →
      answers (.getMeasurements (n + 1)) (.measurement (n + 1) d (key (leBytes 1 (n + 1) ++ leBytes 64 d.toNat)))) ∧
    (s.measurements[n]? = none → answers (.getMeasurements (n + 1)) .error) ∧
    (∀ x : BootImages, ∃ t, exec (.coldReset x) s = .next t ∧ t.mem = [] ∧ t.ctxs = [] ∧ t.groups = [] ∧ t.cores = [] ∧
      t.frames = [] ∧ t.powered = true ∧
      (let image := fun (k : Nat) => nth [] x.images k
       let trains := ∀ c, c < 1536 → (trainChannel x (c, BitVec.ofNat 16 (leNat (((image 1).drop (784 + 2 * c)).take 2)))).isSome = true
       (t.regs.bootstat = 1 ↔ signed (image 0) = true ∧ signed (image 1) = true ∧ signed (image 2) = true ∧
         layoutOk (image 1) = true ∧ binOk (coreBytes (image 1)) = true ∧
         (∀ r ∈ repairBytes (image 1), repairOk r.2 = true) ∧ trains) ∧
       (signed (image 0) = false → t.regs.bootstat = 2) ∧
       (signed (image 0) = true → signed (image 1) = false ∨ configOk (image 1) = false → t.regs.bootstat = 3) ∧
       (signed (image 0) = true → signed (image 1) = true → configOk (image 1) = true → signed (image 2) = false →
         t.regs.bootstat = 2) ∧
       (signed (image 0) = true → signed (image 1) = true → configOk (image 1) = true → signed (image 2) = true → ¬ trains →
         t.regs.bootstat = 4) ∧
       (t.regs.bootstat = 1 → t.harvest = coreBytes (image 1) ∧ t.limits = powerLimits (image 1) ∧
         t.measurements = [digest (image 0), digest (image 1), digest (image 2), chain [digest (image 0), digest (image 1), digest (image 2)]]))) ∧
    (∃ t, exec .warmReset s = .next t ∧ t.mem = s.mem ∧ t.poison = s.poison ∧ t.harvest = s.harvest ∧
      t.measurements = s.measurements ∧ t.delays = s.delays ∧ t.limits = s.limits ∧ t.ctxs = [] ∧ t.groups = [] ∧ t.launches = [] ∧
      t.cores = [] ∧ t.lodge = [] ∧ t.clk = 0 ∧ (∀ c ∈ s.mem, frameKey c.1 ∈ t.retained))

/- ### The whole machine -/

/-- R379, R392, R62: reset leaves every control register 0, the counter of R330 at 0 and no context, group, launch,
buffer, frame record, lodge object, slot or core state; each memory lists nothing and is in its canonical form. What
an unlisted byte reads as is the choice of assumption 1, the state of an unused core that of assumption 3. -/
def Obligations.ResetState : Prop :=
  let s := State.reset
  s.Canonical ∧ s.mem = [] ∧ s.hostMem = [] ∧ s.peerMem = [] ∧ s.clk = 0 ∧
    s.regs = ⟨0, 0, 0, 0, 0, 0, 0, List.replicate 8 0, 0, 0, 0, 0⟩ ∧
    s.ctxs = [] ∧ s.groups = [] ∧ s.teams = [] ∧ s.launches = [] ∧ s.instances = [] ∧ s.issuing = none ∧ s.cores = [] ∧
    s.bufs = [] ∧ s.frames = [] ∧ s.cells = [] ∧ s.lodge = [] ∧ s.slots = [] ∧ s.measurements = [] ∧ s.lost = [] ∧
    s.events = [] ∧ s.overflow = []

/-- The words that the spec itself gives for instructions in its tables and examples
decode to those instructions, and words that are no instruction are refused. -/
def Obligations.SpecWordsDecode : Prop :=
  let l : Ctl := ⟨0, .lane, none, false, false⟩
  let dec := fun (w0 w1 : Word) (i : Instr) => decodeWords w0 w1 = .ok i
  dec 0x64C20020 0x00001000 (.iadd { l with stall := 3 } .i32 false (.v 2) (.v 0) (.v 1)) ∧
  dec 0x04C20030 0x00B85000 (.iadd l .i32 false (.v 3) (.v 2) (.imm 5)) ∧
  dec 0x00000000 0 (.nop l) ∧
  dec 0x18000000 0 (.nop { l with scope := .team }) ∧
  dec 0x14000000 0x00000002 (.nop { l with scope := .party, await := true, long := true }) ∧
  dec 0x10800000 0 (.sign { l with scope := .party }) ∧
  dec 0x1681C000 0x4290B000 (.mwld { l with scope := .party } .e2m1 (.s 10) (.s 11)) ∧
  dec 0x07A60020 0x00780000 (.ldsp l .w32 (.v 2) (.v 1) (.imm 0)) ∧
  dec 0x07D050A0 0xE0F80000 (.waitall l 10 (.imm 3) .team) ∧
  dec 0x07C00030 0x44000000 (.copy l 3 16) ∧
  dec 0x07D84000 0x40000000 (.publish l 0) ∧
  dec 0x07EED060 0x40380000 (.acas l .w32 (.s 6) ⟨.s 0, .imm 0, 0, .team, .rlx⟩) ∧
  dec 0x07F70020 0x40001602 (.redop l .f32 .add (.v 2) ⟨.s 0, .v 1, 0, .package, .rel⟩) ∧
  dec 0x07F80000 0xE1400000 (.trap l (.imm 5)) ∧
  dec 0x07F84000 0xFFC00000 (.rteReplay l (.imm 127)) ∧
  dec 0x03F88000 0 (.rteSkip l) ∧ dec 0x03F8C000 0 (.rteResume l) ∧
  dec 0x07F91280 0xE0000000 (.gsr l 40 0) ∧ dec 0x07F94000 0xE2528000 (.ssr l 9 (.s 40)) ∧
  dec 0x03F98000 0 (.halt l) ∧ dec 0x03F9C000 0 (.brk l) ∧
  dec 0x07FA12C0 0x00000000 (.clk l (.s 44)) ∧
  dec 0x07805140 0x40000000 (.rsqry l (.s 20) 0) ∧
  decodeWords 0x00400000 0 = .error .unassigned ∧ decodeWords 0x0000000D 0 = .error .illegal ∧
  decodeWords 0x00000010 0 = .error .illegal ∧ decodeWords 0x04000000 0x00000002 = .error .illegal

/-- R26 to R34, R40: every well-formed instruction that has an encoding decodes from its words to itself, with every operand
at every value that the encoding admits, whatever follows a one-word instruction; and words that decode are the encoding
of the well-formed instruction that they give. -/
def Obligations.DecodeEncodeAgree : Prop :=
  (∀ (i : Instr) (c : Ctl), i.ctl = some c → i.wf = true →
    ∀ w : Word, decodeWords ((encode i).getD 0 0) ((encode i).getD 1 w) = .ok i) ∧
  (∀ (w0 w1 : Word) (i : Instr), decodeWords w0 w1 = .ok i →
    i.wf = true ∧ encode i = if (rawOf w0 w1).x then [w0, w1] else [w0])

/-- R35, R44, R59, R364: a step runs the instruction that its words decode to. Where the group whose turn it is stands
in a clause inside its image, at no breakpoint, its move is the issue of the instruction there; the step is `exec` of
that instruction in the state in which the group issues, after the results that are due have landed and before time
goes on; and a complete instance that is to issue next is all that a step does. That one thing happens at a step is
the choice of assumption 10, and that an instance that issues blocks its members assumption 23. -/
def Obligations.StepRunsTheInstruction : Prop :=
  (∀ (s : State) (g : Group) (pc : Word) (i : Instr),
    decodeWords (s.codeWord g pc) (s.codeWord g (pc + 4)) = .ok i → s.fetched g pc = i) ∧
  (∀ (s : State) (g : Group) (pc : Word) (p : ClausePos), g.nextPoint = some (pc, some p) → s.pastImage g pc true = false →
    (s.atBreak g = false ∨ g.stepOne = true) → s.groupMove g = some (.issue g.key (s.fetched g pc) (s.issueAt g pc p))) ∧
  (∀ (s : State) (p : PKey) (ps : List PKey) (g : Group) (i : Instr) (cur : Issue) (t : State),
    let u := s.land
    u.powered = true → u.issuing = none → u.turn = 0 → u.usedParts = p :: ps → u.comers p = [(g, .issue g.key i cur)] →
    (g.heldSince = none ∨ u.wouldHold g.key i cur = false) →
    exec i (u.atIssue g.key cur) = .next t → step s = .next t.tickOn) ∧
  (∀ (s : State) (iss : Issue) (m : Member) (ms : List Member) (g : Group) (t : State),
    let u := s.land
    u.powered = true → u.issuing = some iss → iss.members = m :: ms → u.group? m.key = some g →
    exec (u.fetched g iss.pc) { u with cur := iss, issuing := none } = .next t → step s = .next t.tickOn)

/-- R35, R209, R319: no encoded instruction stops the machine: whatever the state, where the issue names a group it
answers a next state (its effect, its arrival, its hold, or the fault it takes). Which instructions hold, and on what,
rests on the model's readings of the log. -/
def Obligations.EncodedInstructionNeverStops : Prop :=
  ∀ (i : Instr) (c : Ctl) (s : State) (g : Group), i.ctl = some c → s.issuer = some g → ∃ t, exec i s = .next t

/-- From every state a step answers a next state, so that the machine runs on for as long as it is looked at: nothing
that the spec describes stops it, and a step chooses nothing that cannot occur. The stops are the model's own; a step
that finds nothing to do lets time pass (assumption 10). -/
def Obligations.StepNeverStops : Prop :=
  ∀ s : State, s.Steps ∧ s.RunsOn

/-- Every step keeps the memories in their canonical form: addresses strictly rising, and no byte listed that reads as
an unlisted one does. The form is the model's own (assumption 1). -/
def Obligations.StepKeepsMemoryCanonical : Prop :=
  ∀ (s t : State), s.Canonical → step s = .next t → t.Canonical

/-- R36, R117, R118, R123, R125, R126: the frame of the integer instructions where nothing waits: at the issue no register,
flag, mask, walk, fault register, arrival record or pending access of any group changes, no byte of any memory, no buffer
and no context; each result on its way is due 4 clk later and names only the destination's registers (and, of a carry
chain, its mask). No core changes but in its turn of issue: no scratchpad byte, segment, tag-table entry, completion tag,
activation table or matrix unit. -/
def Obligations.IntegerFrame : Prop :=
  let frames := fun (c : Ctl) (i : Instr) (dst : List Nat) =>
    ∀ (d : Desc) (s t : State), Ready i c d s → d.walks = [] → s.Calm → exec i s = .next t →
      t.mem = s.mem ∧ t.hostMem = s.hostMem ∧ t.peerMem = s.peerMem ∧ t.bufs = s.bufs ∧ t.ctxs = s.ctxs ∧
      t.cells = s.cells ∧ t.frames = s.frames ∧ t.poison = s.poison ∧ t.late = s.late ∧
      (∀ k : CKey, (t.core k).sp = (s.core k).sp ∧ (t.core k).spPoison = (s.core k).spPoison ∧ (t.core k).segs = (s.core k).segs ∧
        (t.core k).tagTable = (s.core k).tagTable ∧ (t.core k).tags = (s.core k).tags ∧ (t.core k).kicks = (s.core k).kicks ∧
        (t.core k).tables = (s.core k).tables ∧ (t.core k).loads = (s.core k).loads) ∧
      (∀ p : PKey, (t.part p).mx = (s.part p).mx ∧ (t.part p).mxSaved = (s.part p).mxSaved) ∧
      ∀ k g, s.group? k = some g → ∃ h es, t.group? k = some h ∧ h.v = g.v ∧ h.s = g.s ∧ h.y = g.y ∧ h.m = g.m ∧ h.lc = g.lc ∧
        h.q = g.q ∧ h.fpstat = g.fpstat ∧ h.sb = g.sb ∧ h.fault = g.fault ∧ h.resume = g.resume ∧ h.arrivals = g.arrivals ∧
        h.pending = g.pending ∧ h.live = g.live ∧ h.levels = g.levels ∧ h.bank = g.bank ∧ h.inFlight = g.inFlight ++ es ∧
        ∀ e ∈ es, e.due = some (s.clk + 4) ∧ ∀ w ∈ e.writes, w.code ∈ dst
  ∀ (c : Ctl) (it src : IT) (sat hi : Bool) (p : Pred) (k : BitVec 8) (x : BitVec 16) (imm : Word) (m : MReg) (d a b e : Opd),
    let run := (List.range it.run).map (fun j => d.code + j)
    let mk := fun (n : MReg) => 0x350 + n.val
    frames c (.iadd c it sat d a b) run ∧ frames c (.isub c it sat d a b) run ∧ frames c (.imul c it d a b) run ∧
    frames c (.imulh c it d a b) run ∧ frames c (.imad c it d a b e) run ∧ frames c (.imin c it d a b) run ∧
    frames c (.imax c it d a b) run ∧ frames c (.iabs c it d a) run ∧ frames c (.shl c it d a b) run ∧ frames c (.shr c it d a b) run ∧
    frames c (.sar c it d a b) run ∧ frames c (.rotl c it d a b) run ∧ frames c (.bfx c it d a b e) run ∧
    frames c (.bfi c it d a b e) run ∧ frames c (.brev c it d a) run ∧ frames c (.cvti c it src sat d a) run ∧
    frames c (.popc c it d a) [d.code] ∧ frames c (.clz c it d a) [d.code] ∧ frames c (.ctz c it d a) [d.code] ∧
    frames c (.icmp c it p d a b) [d.code] ∧ frames c (.isel c d a b e) [d.code] ∧ frames c (.mov c d a) [d.code] ∧
    frames c (.movw c hi d a x) [d.code] ∧ frames c (.movi c d imm) [d.code] ∧ frames c (.bitfn c k d a b e) [d.code] ∧
    frames c (.iaddc c it d a b m) (mk m :: run) ∧ frames c (.isubb c it d a b m) (mk m :: run)

/-- R36, R37, R117: a write that lands changes the register it names and no other, of a register with lanes only the
lanes of its mask, and nothing else of the group. The register named holds what was written; of FPSTAT, flags are set and none
cleared. -/
def Obligations.LandingWritesItsRegisterOnly : Prop :=
  ∀ (g : Group) (w : Write), let h := w.apply g
    (∀ n, w.code ≠ n → regV h n = regV g n) ∧ (∀ n, w.code ≠ 0x100 + n → regS h n = regS g n) ∧
    (∀ n, w.code ≠ 0x300 + n → regY h n = regY g n) ∧ (∀ n, w.code ≠ 0x350 + n → regM h n = regM g n) ∧
    (∀ n, w.code ≠ 0x369 + n → regLc h n = regLc g n) ∧ (∀ n, w.code ≠ 0x340 + n → regQ h n = regQ g n) ∧
    (w.code ≠ 0x3FE → h.fpstat = g.fpstat) ∧
    (∀ n m x i, w = .v n m x → n < g.v.length → (regV g n).length = W → x.length = W → i < W →
      nth 0 (regV h n) i = if laneBit m i then nth 0 x i else nth 0 (regV g n) i) ∧
    (∀ n m x i, w = .y n m x → n < g.y.length → (regY g n).length = W → x.length = W → i < W →
      nth 0 (regY h n) i = if laneBit m i then nth 0 x i else nth 0 (regY g n) i) ∧
    (∀ n m b i, w = .m n m b → n < g.m.length → i < W →
      laneBit (regM h n) i = if laneBit m i then laneBit b i else laneBit (regM g n) i) ∧
    (∀ n x, w = .s n x → n < g.s.length → regS h n = x) ∧ (∀ n x, w = .lc n x → n < g.lc.length → regLc h n = x) ∧
    (∀ n x, w = .q n x → n < g.q.length → regQ h n = x) ∧
    (∀ f, w = .flags f → h.fpstat = g.fpstat ||| f.zeroExtend 32) ∧
    h = { g with v := h.v, s := h.s, y := h.y, m := h.m, lc := h.lc, q := h.q, fpstat := h.fpstat }

/-- R60, R61, R80: where no level is active, lanes that pass an instruction stand at the next one, free, in the clause place
given, and no other lane of the group moves; where the innermost level is a COUNT loop that ends there with more than one
iteration left, its counter falls by one and the lanes go back to its start. -/
def Obligations.PassingLanes : Prop :=
  ∀ (g : Group) (m : Mask) (next : Word) (pos : Option ClausePos), g.pcs.length = W →
    (g.levels = [] → ∀ i, i < W →
      nth 0 (g.pass m next pos).pcs i = (if laneBit m i then next else nth 0 g.pcs i) ∧
      nth none (g.pass m next pos).clause i = (if laneBit m i then pos else nth none g.clause i) ∧
      nth .free (g.pass m next pos).wait i = (if laneBit m i then .free else nth .free g.wait i)) ∧
    (∀ l, pos = none → g.levels.getLast? = some l → l.exit = next → l.kind = .count → g.levels.length ≤ 3 → g.lc.length = 3 →
      2 ≤ (regLc g (g.levels.length - 1)).toNat →
      regLc (g.pass m next pos) (g.levels.length - 1) = regLc g (g.levels.length - 1) - 1 ∧
      (g.pass m next pos).levels = g.levels ∧
      ∀ i, i < W → nth 0 (g.pass m next pos).pcs i = if laneBit m i then l.start else nth 0 g.pcs i)
end

