-- ==== Sys2Proof/Laws/Memory.lean ====
section
/-! SUPPORT. Maps in canonical form: reading after writing, and every operation keeps the form. -/

namespace Sys2Proof.Machine

variable {α : Type} [DecidableEq α] {d : α}

theorem Sparse.okFrom_mono {lo hi : Nat} {m : List (Nat × α)} (h : lo ≤ hi) (hm : Sparse.okFrom d hi m = true) :
    Sparse.okFrom d lo m = true := by
  cases m with
  | nil => rfl
  | cons p t =>
    obtain ⟨a, x⟩ := p
    simp only [Sparse.okFrom, Bool.and_eq_true, decide_eq_true_eq] at hm ⊢
    exact ⟨⟨by omega, hm.1.2⟩, hm.2⟩

theorem Sparse.get_below {m : List (Nat × α)} {lo k : Nat} (h : Sparse.okFrom d lo m = true) (hk : k < lo) :
    Sparse.get d m k = d := by
  cases m with
  | nil => rfl
  | cons p t =>
    obtain ⟨a, x⟩ := p
    simp only [Sparse.okFrom, Bool.and_eq_true, decide_eq_true_eq] at h
    simp [Sparse.get, show k < a by omega]

theorem Sparse.set_okFrom {m : List (Nat × α)} {lo k : Nat} {x : α} (hk : lo ≤ k) (h : Sparse.okFrom d lo m = true) :
    Sparse.okFrom d lo (Sparse.set d m k x) = true := by
  induction m generalizing lo with
  | nil => by_cases hx : x = d <;> simp [Sparse.set, Sparse.okFrom, hx, hk]
  | cons p t ih =>
    obtain ⟨a, y⟩ := p
    simp only [Sparse.okFrom, Bool.and_eq_true, decide_eq_true_eq] at h
    unfold Sparse.set
    split
    · split
      · simp [Sparse.okFrom, h]
      · simp_all [Sparse.okFrom]
    · split
      · split
        · exact Sparse.okFrom_mono (by omega) h.2
        · subst_vars; simp_all [Sparse.okFrom]
      · simp only [Sparse.okFrom, Bool.and_eq_true, decide_eq_true_eq]
        exact ⟨h.1, ih (by omega) h.2⟩

/-- Writing keeps the canonical form. -/
theorem Sparse.set_wf {m : List (Nat × α)} (k : Nat) (x : α) (h : Sparse.wf d m = true) :
    Sparse.wf d (Sparse.set d m k x) = true := Sparse.set_okFrom (Nat.zero_le k) h

/-- A key reads what was written at it last. -/
theorem Sparse.get_set_same {m : List (Nat × α)} {lo k : Nat} {x : α} (h : Sparse.okFrom d lo m = true) :
    Sparse.get d (Sparse.set d m k x) k = x := by
  induction m generalizing lo with
  | nil => by_cases hx : x = d <;> simp [Sparse.set, Sparse.get, hx]
  | cons p t ih =>
    obtain ⟨a, y⟩ := p
    simp only [Sparse.okFrom, Bool.and_eq_true, decide_eq_true_eq] at h
    unfold Sparse.set
    split
    · split <;> simp_all [Sparse.get]
    · split
      · split
        · subst_vars; exact Sparse.get_below h.2 (by omega)
        · simp [Sparse.get]
      next hak hk =>
        simp only [Sparse.get, if_neg hak, if_neg hk]
        exact ih h.2

/-- Every other key reads as before. -/
theorem Sparse.get_set_other {m : List (Nat × α)} {lo k j : Nat} {x : α} (h : Sparse.okFrom d lo m = true) (hj : j ≠ k) :
    Sparse.get d (Sparse.set d m k x) j = Sparse.get d m j := by
  induction m generalizing lo with
  | nil =>
    by_cases hx : x = d
    · simp [Sparse.set, hx]
    · simp [Sparse.set, Sparse.get, hx, hj]
  | cons p t ih =>
    obtain ⟨a, y⟩ := p
    simp only [Sparse.okFrom, Bool.and_eq_true, decide_eq_true_eq] at h
    unfold Sparse.set
    split
    next hka =>
      split
      · rfl
      · by_cases h1 : j < k
        · simp [Sparse.get, h1, show j < a by omega]
        · simp [Sparse.get, h1, hj]
    next hka =>
      split
      next hk =>
        subst hk
        split
        · by_cases h1 : j < k
          · simp [Sparse.get, h1, Sparse.get_below h.2 (by omega : j < k + 1)]
          · simp [Sparse.get, h1, hj]
        · simp [Sparse.get, hj]
      next hk =>
        simp only [Sparse.get]
        split
        · rfl
        · split
          · rfl
          · exact ih h.2

/-- Two canonical maps that read alike at every key are the same list. -/
theorem Sparse.ext_from {m n : List (Nat × α)} {lo : Nat} (hm : Sparse.okFrom d lo m = true) (hn : Sparse.okFrom d lo n = true)
    (h : ∀ k, Sparse.get d m k = Sparse.get d n k) : m = n := by
  induction m generalizing n lo with
  | nil =>
    cases n with
    | nil => rfl
    | cons p t =>
      obtain ⟨a, x⟩ := p
      simp only [Sparse.okFrom, Bool.and_eq_true, decide_eq_true_eq] at hn
      exact absurd (by simpa [Sparse.get] using (h a).symm) hn.1.2
  | cons p t ih =>
    obtain ⟨a, x⟩ := p
    simp only [Sparse.okFrom, Bool.and_eq_true, decide_eq_true_eq] at hm
    cases n with
    | nil => exact absurd (by simpa [Sparse.get] using h a) hm.1.2
    | cons q u =>
      obtain ⟨b, y⟩ := q
      simp only [Sparse.okFrom, Bool.and_eq_true, decide_eq_true_eq] at hn
      have ha := h a
      have hb := h b
      simp only [Sparse.get] at ha hb
      have hab : a = b := by
        rcases Nat.lt_trichotomy a b with hlt | heq | hgt
        · simp [hlt] at ha; exact absurd ha hm.1.2
        · exact heq
        · simp [hgt] at hb; exact absurd hb.symm hn.1.2
      subst hab
      simp at ha
      subst ha
      rw [ih hm.2 hn.2]
      intro k
      by_cases hk : k < a + 1
      · rw [Sparse.get_below hm.2 hk, Sparse.get_below hn.2 hk]
      · have := h k
        simpa [Sparse.get, show ¬ k < a by omega, show k ≠ a by omega] using this

theorem Sparse.filter_okFrom {m : List (Nat × α)} {lo : Nat} (p : Nat × α → Bool) (h : Sparse.okFrom d lo m = true) :
    Sparse.okFrom d lo (m.filter p) = true := by
  induction m generalizing lo with
  | nil => rfl
  | cons c t ih =>
    obtain ⟨a, x⟩ := c
    simp only [Sparse.okFrom, Bool.and_eq_true, decide_eq_true_eq] at h
    rw [List.filter_cons]
    split
    · simp only [Sparse.okFrom, Bool.and_eq_true, decide_eq_true_eq]
      exact ⟨h.1, ih h.2⟩
    · exact Sparse.okFrom_mono (by omega) (ih h.2)

/-- Dropping entries keeps the canonical form. -/
theorem Sparse.filter_wf {m : List (Nat × α)} (p : Nat × α → Bool) (h : Sparse.wf d m = true) :
    Sparse.wf d (m.filter p) = true := Sparse.filter_okFrom p h

/- ### Memories -/

theorem Memory.set_wf {m : List Host.Cell} (a : Nat) (x : Byte) (h : Memory.wf m = true) : Memory.wf (Memory.set m a x) = true :=
  Sparse.set_wf a x h

theorem Memory.store_wf {m : List Host.Cell} (bs : List Byte) (a : Nat) (h : Memory.wf m = true) :
    Memory.wf (Memory.store m a bs) = true := by
  induction bs generalizing m a with
  | nil => exact h
  | cons x t ih => exact ih (a + 1) (Memory.set_wf a x h)

theorem Memory.filter_wf {m : List Host.Cell} (p : Host.Cell → Bool) (h : Memory.wf m = true) : Memory.wf (m.filter p) = true :=
  Sparse.filter_wf p h

theorem Memory.get_set_same {m : List Host.Cell} (a : Nat) (x : Byte) (h : Memory.wf m = true) :
    Memory.get (Memory.set m a x) a = x := Sparse.get_set_same (lo := 0) h

theorem Memory.get_set_other {m : List Host.Cell} {a b : Nat} (x : Byte) (h : Memory.wf m = true) (hb : b ≠ a) :
    Memory.get (Memory.set m a x) b = Memory.get m b := Sparse.get_set_other (lo := 0) h hb

/-- A store leaves every byte outside its run alone. -/
theorem Memory.get_store_outside {m : List Host.Cell} (bs : List Byte) {a b : Nat} (h : Memory.wf m = true)
    (hb : b < a ∨ a + bs.length ≤ b) : Memory.get (Memory.store m a bs) b = Memory.get m b := by
  induction bs generalizing m a with
  | nil => rfl
  | cons x t ih =>
    rw [List.length_cons] at hb
    rw [Memory.store, ih (Memory.set_wf a x h) (by omega), Memory.get_set_other x h (by omega)]

/-- A store writes its bytes in order. -/
theorem Memory.get_store_inside {m : List Host.Cell} (bs : List Byte) {a j : Nat} (h : Memory.wf m = true)
    (hj : j < bs.length) : Memory.get (Memory.store m a bs) (a + j) = bs[j] := by
  induction bs generalizing m a j with
  | nil => simp at hj
  | cons x t ih =>
    rw [Memory.store]
    cases j with
    | zero =>
      have := Memory.get_store_outside t (a := a + 1) (b := a) (Memory.set_wf a x h) (by omega)
      simpa [this] using Memory.get_set_same a x h
    | succ n =>
      have := ih (a := a + 1) (j := n) (Memory.set_wf a x h) (by simpa using hj)
      rw [show a + (n + 1) = a + 1 + n by omega, this]
      simp

/-- Two canonical memories that read alike are equal data. -/
theorem Memory.ext {m n : List Host.Cell} (hm : Memory.wf m = true) (hn : Memory.wf n = true)
    (h : ∀ a, Memory.get m a = Memory.get n a) : m = n := Sparse.ext_from (lo := 0) hm hn h

theorem Memory.bytes_length (m : List Host.Cell) (a n : Nat) : (Memory.bytes m a n).length = n := by
  induction n generalizing a with
  | zero => rfl
  | succ n ih => simp [Memory.bytes, ih]

theorem leBytes_length (n x : Nat) : (leBytes n x).length = n := by
  induction n generalizing x with
  | zero => rfl
  | succ n ih => simp [leBytes, ih]

end Sys2Proof.Machine
end

