-- ==== Sys2Proof/Laws/State.lean ====
section
/-! SUPPORT. The fields that the named updates of the state leave alone, one lemma each, so that no later proof unfolds a
record update. -/

namespace Sys2Proof.Machine

/- ### modGroup -/

@[simp] theorem State.modGroup_clk (s : State) (k : GKey) (f : Group → Group) : (s.modGroup k f).clk = s.clk := rfl
@[simp] theorem State.modGroup_tick (s : State) (k : GKey) (f : Group → Group) : (s.modGroup k f).tick = s.tick := rfl
@[simp] theorem State.modGroup_turn (s : State) (k : GKey) (f : Group → Group) : (s.modGroup k f).turn = s.turn := rfl
@[simp] theorem State.modGroup_inbox (s : State) (k : GKey) (f : Group → Group) : (s.modGroup k f).inbox = s.inbox := rfl
@[simp] theorem State.modGroup_cur (s : State) (k : GKey) (f : Group → Group) : (s.modGroup k f).cur = s.cur := rfl
@[simp] theorem State.modGroup_instances (s : State) (k : GKey) (f : Group → Group) : (s.modGroup k f).instances = s.instances := rfl
@[simp] theorem State.modGroup_completing (s : State) (k : GKey) (f : Group → Group) : (s.modGroup k f).completing = s.completing := rfl
@[simp] theorem State.modGroup_late (s : State) (k : GKey) (f : Group → Group) : (s.modGroup k f).late = s.late := rfl
@[simp] theorem State.modGroup_renewed (s : State) (k : GKey) (f : Group → Group) : (s.modGroup k f).renewed = s.renewed := rfl
@[simp] theorem State.modGroup_issuing (s : State) (k : GKey) (f : Group → Group) : (s.modGroup k f).issuing = s.issuing := rfl
@[simp] theorem State.modGroup_teams (s : State) (k : GKey) (f : Group → Group) : (s.modGroup k f).teams = s.teams := rfl
@[simp] theorem State.modGroup_launches (s : State) (k : GKey) (f : Group → Group) : (s.modGroup k f).launches = s.launches := rfl
@[simp] theorem State.modGroup_ctxs (s : State) (k : GKey) (f : Group → Group) : (s.modGroup k f).ctxs = s.ctxs := rfl
@[simp] theorem State.modGroup_cores (s : State) (k : GKey) (f : Group → Group) : (s.modGroup k f).cores = s.cores := rfl
@[simp] theorem State.modGroup_mem (s : State) (k : GKey) (f : Group → Group) : (s.modGroup k f).mem = s.mem := rfl
@[simp] theorem State.modGroup_poison (s : State) (k : GKey) (f : Group → Group) : (s.modGroup k f).poison = s.poison := rfl
@[simp] theorem State.modGroup_hostMem (s : State) (k : GKey) (f : Group → Group) : (s.modGroup k f).hostMem = s.hostMem := rfl
@[simp] theorem State.modGroup_peerMem (s : State) (k : GKey) (f : Group → Group) : (s.modGroup k f).peerMem = s.peerMem := rfl
@[simp] theorem State.modGroup_bufs (s : State) (k : GKey) (f : Group → Group) : (s.modGroup k f).bufs = s.bufs := rfl
@[simp] theorem State.modGroup_bufBase (s : State) (k : GKey) (f : Group → Group) : (s.modGroup k f).bufBase = s.bufBase := rfl
@[simp] theorem State.modGroup_transit (s : State) (k : GKey) (f : Group → Group) : (s.modGroup k f).transit = s.transit := rfl
@[simp] theorem State.modGroup_moveAt (s : State) (k : GKey) (f : Group → Group) : (s.modGroup k f).moveAt = s.moveAt := rfl
@[simp] theorem State.modGroup_frames (s : State) (k : GKey) (f : Group → Group) : (s.modGroup k f).frames = s.frames := rfl
@[simp] theorem State.modGroup_lastLine (s : State) (k : GKey) (f : Group → Group) : (s.modGroup k f).lastLine = s.lastLine := rfl
@[simp] theorem State.modGroup_hot (s : State) (k : GKey) (f : Group → Group) : (s.modGroup k f).hot = s.hot := rfl
@[simp] theorem State.modGroup_retained (s : State) (k : GKey) (f : Group → Group) : (s.modGroup k f).retained = s.retained := rfl
@[simp] theorem State.modGroup_readCopies (s : State) (k : GKey) (f : Group → Group) : (s.modGroup k f).readCopies = s.readCopies := rfl
@[simp] theorem State.modGroup_dirty (s : State) (k : GKey) (f : Group → Group) : (s.modGroup k f).dirty = s.dirty := rfl
@[simp] theorem State.modGroup_cells (s : State) (k : GKey) (f : Group → Group) : (s.modGroup k f).cells = s.cells := rfl
@[simp] theorem State.modGroup_lodge (s : State) (k : GKey) (f : Group → Group) : (s.modGroup k f).lodge = s.lodge := rfl
@[simp] theorem State.modGroup_slots (s : State) (k : GKey) (f : Group → Group) : (s.modGroup k f).slots = s.slots := rfl
@[simp] theorem State.modGroup_slotWait (s : State) (k : GKey) (f : Group → Group) : (s.modGroup k f).slotWait = s.slotWait := rfl
@[simp] theorem State.modGroup_harvest (s : State) (k : GKey) (f : Group → Group) : (s.modGroup k f).harvest = s.harvest := rfl
@[simp] theorem State.modGroup_repair (s : State) (k : GKey) (f : Group → Group) : (s.modGroup k f).repair = s.repair := rfl
@[simp] theorem State.modGroup_delays (s : State) (k : GKey) (f : Group → Group) : (s.modGroup k f).delays = s.delays := rfl
@[simp] theorem State.modGroup_limits (s : State) (k : GKey) (f : Group → Group) : (s.modGroup k f).limits = s.limits := rfl
@[simp] theorem State.modGroup_measurements (s : State) (k : GKey) (f : Group → Group) : (s.modGroup k f).measurements = s.measurements := rfl
@[simp] theorem State.modGroup_regs (s : State) (k : GKey) (f : Group → Group) : (s.modGroup k f).regs = s.regs := rfl
@[simp] theorem State.modGroup_events (s : State) (k : GKey) (f : Group → Group) : (s.modGroup k f).events = s.events := rfl
@[simp] theorem State.modGroup_overflow (s : State) (k : GKey) (f : Group → Group) : (s.modGroup k f).overflow = s.overflow := rfl
@[simp] theorem State.modGroup_armed (s : State) (k : GKey) (f : Group → Group) : (s.modGroup k f).armed = s.armed := rfl
@[simp] theorem State.modGroup_msi0 (s : State) (k : GKey) (f : Group → Group) : (s.modGroup k f).msi0 = s.msi0 := rfl
@[simp] theorem State.modGroup_msi1 (s : State) (k : GKey) (f : Group → Group) : (s.modGroup k f).msi1 = s.msi1 := rfl
@[simp] theorem State.modGroup_audit (s : State) (k : GKey) (f : Group → Group) : (s.modGroup k f).audit = s.audit := rfl
@[simp] theorem State.modGroup_cmdDone (s : State) (k : GKey) (f : Group → Group) : (s.modGroup k f).cmdDone = s.cmdDone := rfl
@[simp] theorem State.modGroup_spdm (s : State) (k : GKey) (f : Group → Group) : (s.modGroup k f).spdm = s.spdm := rfl
@[simp] theorem State.modGroup_lost (s : State) (k : GKey) (f : Group → Group) : (s.modGroup k f).lost = s.lost := rfl
@[simp] theorem State.modGroup_nextLaunch (s : State) (k : GKey) (f : Group → Group) : (s.modGroup k f).nextLaunch = s.nextLaunch := rfl
@[simp] theorem State.modGroup_refusedLaunches (s : State) (k : GKey) (f : Group → Group) : (s.modGroup k f).refusedLaunches = s.refusedLaunches := rfl
@[simp] theorem State.modGroup_evicted (s : State) (k : GKey) (f : Group → Group) : (s.modGroup k f).evicted = s.evicted := rfl
@[simp] theorem State.modGroup_extRead (s : State) (k : GKey) (f : Group → Group) : (s.modGroup k f).extRead = s.extRead := rfl
@[simp] theorem State.modGroup_powered (s : State) (k : GKey) (f : Group → Group) : (s.modGroup k f).powered = s.powered := rfl

/- ### modGroups -/

@[simp] theorem State.modGroups_clk (s : State) (f : Group → Group) : (s.modGroups f).clk = s.clk := rfl
@[simp] theorem State.modGroups_tick (s : State) (f : Group → Group) : (s.modGroups f).tick = s.tick := rfl
@[simp] theorem State.modGroups_turn (s : State) (f : Group → Group) : (s.modGroups f).turn = s.turn := rfl
@[simp] theorem State.modGroups_inbox (s : State) (f : Group → Group) : (s.modGroups f).inbox = s.inbox := rfl
@[simp] theorem State.modGroups_cur (s : State) (f : Group → Group) : (s.modGroups f).cur = s.cur := rfl
@[simp] theorem State.modGroups_instances (s : State) (f : Group → Group) : (s.modGroups f).instances = s.instances := rfl
@[simp] theorem State.modGroups_completing (s : State) (f : Group → Group) : (s.modGroups f).completing = s.completing := rfl
@[simp] theorem State.modGroups_late (s : State) (f : Group → Group) : (s.modGroups f).late = s.late := rfl
@[simp] theorem State.modGroups_renewed (s : State) (f : Group → Group) : (s.modGroups f).renewed = s.renewed := rfl
@[simp] theorem State.modGroups_issuing (s : State) (f : Group → Group) : (s.modGroups f).issuing = s.issuing := rfl
@[simp] theorem State.modGroups_teams (s : State) (f : Group → Group) : (s.modGroups f).teams = s.teams := rfl
@[simp] theorem State.modGroups_launches (s : State) (f : Group → Group) : (s.modGroups f).launches = s.launches := rfl
@[simp] theorem State.modGroups_ctxs (s : State) (f : Group → Group) : (s.modGroups f).ctxs = s.ctxs := rfl
@[simp] theorem State.modGroups_cores (s : State) (f : Group → Group) : (s.modGroups f).cores = s.cores := rfl
@[simp] theorem State.modGroups_mem (s : State) (f : Group → Group) : (s.modGroups f).mem = s.mem := rfl
@[simp] theorem State.modGroups_poison (s : State) (f : Group → Group) : (s.modGroups f).poison = s.poison := rfl
@[simp] theorem State.modGroups_hostMem (s : State) (f : Group → Group) : (s.modGroups f).hostMem = s.hostMem := rfl
@[simp] theorem State.modGroups_peerMem (s : State) (f : Group → Group) : (s.modGroups f).peerMem = s.peerMem := rfl
@[simp] theorem State.modGroups_bufs (s : State) (f : Group → Group) : (s.modGroups f).bufs = s.bufs := rfl
@[simp] theorem State.modGroups_bufBase (s : State) (f : Group → Group) : (s.modGroups f).bufBase = s.bufBase := rfl
@[simp] theorem State.modGroups_transit (s : State) (f : Group → Group) : (s.modGroups f).transit = s.transit := rfl
@[simp] theorem State.modGroups_moveAt (s : State) (f : Group → Group) : (s.modGroups f).moveAt = s.moveAt := rfl
@[simp] theorem State.modGroups_frames (s : State) (f : Group → Group) : (s.modGroups f).frames = s.frames := rfl
@[simp] theorem State.modGroups_lastLine (s : State) (f : Group → Group) : (s.modGroups f).lastLine = s.lastLine := rfl
@[simp] theorem State.modGroups_hot (s : State) (f : Group → Group) : (s.modGroups f).hot = s.hot := rfl
@[simp] theorem State.modGroups_retained (s : State) (f : Group → Group) : (s.modGroups f).retained = s.retained := rfl
@[simp] theorem State.modGroups_readCopies (s : State) (f : Group → Group) : (s.modGroups f).readCopies = s.readCopies := rfl
@[simp] theorem State.modGroups_dirty (s : State) (f : Group → Group) : (s.modGroups f).dirty = s.dirty := rfl
@[simp] theorem State.modGroups_cells (s : State) (f : Group → Group) : (s.modGroups f).cells = s.cells := rfl
@[simp] theorem State.modGroups_lodge (s : State) (f : Group → Group) : (s.modGroups f).lodge = s.lodge := rfl
@[simp] theorem State.modGroups_slots (s : State) (f : Group → Group) : (s.modGroups f).slots = s.slots := rfl
@[simp] theorem State.modGroups_slotWait (s : State) (f : Group → Group) : (s.modGroups f).slotWait = s.slotWait := rfl
@[simp] theorem State.modGroups_harvest (s : State) (f : Group → Group) : (s.modGroups f).harvest = s.harvest := rfl
@[simp] theorem State.modGroups_repair (s : State) (f : Group → Group) : (s.modGroups f).repair = s.repair := rfl
@[simp] theorem State.modGroups_delays (s : State) (f : Group → Group) : (s.modGroups f).delays = s.delays := rfl
@[simp] theorem State.modGroups_limits (s : State) (f : Group → Group) : (s.modGroups f).limits = s.limits := rfl
@[simp] theorem State.modGroups_measurements (s : State) (f : Group → Group) : (s.modGroups f).measurements = s.measurements := rfl
@[simp] theorem State.modGroups_regs (s : State) (f : Group → Group) : (s.modGroups f).regs = s.regs := rfl
@[simp] theorem State.modGroups_events (s : State) (f : Group → Group) : (s.modGroups f).events = s.events := rfl
@[simp] theorem State.modGroups_overflow (s : State) (f : Group → Group) : (s.modGroups f).overflow = s.overflow := rfl
@[simp] theorem State.modGroups_armed (s : State) (f : Group → Group) : (s.modGroups f).armed = s.armed := rfl
@[simp] theorem State.modGroups_msi0 (s : State) (f : Group → Group) : (s.modGroups f).msi0 = s.msi0 := rfl
@[simp] theorem State.modGroups_msi1 (s : State) (f : Group → Group) : (s.modGroups f).msi1 = s.msi1 := rfl
@[simp] theorem State.modGroups_audit (s : State) (f : Group → Group) : (s.modGroups f).audit = s.audit := rfl
@[simp] theorem State.modGroups_cmdDone (s : State) (f : Group → Group) : (s.modGroups f).cmdDone = s.cmdDone := rfl
@[simp] theorem State.modGroups_spdm (s : State) (f : Group → Group) : (s.modGroups f).spdm = s.spdm := rfl
@[simp] theorem State.modGroups_lost (s : State) (f : Group → Group) : (s.modGroups f).lost = s.lost := rfl
@[simp] theorem State.modGroups_nextLaunch (s : State) (f : Group → Group) : (s.modGroups f).nextLaunch = s.nextLaunch := rfl
@[simp] theorem State.modGroups_refusedLaunches (s : State) (f : Group → Group) : (s.modGroups f).refusedLaunches = s.refusedLaunches := rfl
@[simp] theorem State.modGroups_evicted (s : State) (f : Group → Group) : (s.modGroups f).evicted = s.evicted := rfl
@[simp] theorem State.modGroups_extRead (s : State) (f : Group → Group) : (s.modGroups f).extRead = s.extRead := rfl
@[simp] theorem State.modGroups_powered (s : State) (f : Group → Group) : (s.modGroups f).powered = s.powered := rfl

/- ### modTeam -/

@[simp] theorem State.modTeam_clk (s : State) (k : GKey) (f : Team → Team) : (s.modTeam k f).clk = s.clk := rfl
@[simp] theorem State.modTeam_tick (s : State) (k : GKey) (f : Team → Team) : (s.modTeam k f).tick = s.tick := rfl
@[simp] theorem State.modTeam_turn (s : State) (k : GKey) (f : Team → Team) : (s.modTeam k f).turn = s.turn := rfl
@[simp] theorem State.modTeam_inbox (s : State) (k : GKey) (f : Team → Team) : (s.modTeam k f).inbox = s.inbox := rfl
@[simp] theorem State.modTeam_cur (s : State) (k : GKey) (f : Team → Team) : (s.modTeam k f).cur = s.cur := rfl
@[simp] theorem State.modTeam_instances (s : State) (k : GKey) (f : Team → Team) : (s.modTeam k f).instances = s.instances := rfl
@[simp] theorem State.modTeam_completing (s : State) (k : GKey) (f : Team → Team) : (s.modTeam k f).completing = s.completing := rfl
@[simp] theorem State.modTeam_late (s : State) (k : GKey) (f : Team → Team) : (s.modTeam k f).late = s.late := rfl
@[simp] theorem State.modTeam_renewed (s : State) (k : GKey) (f : Team → Team) : (s.modTeam k f).renewed = s.renewed := rfl
@[simp] theorem State.modTeam_issuing (s : State) (k : GKey) (f : Team → Team) : (s.modTeam k f).issuing = s.issuing := rfl
@[simp] theorem State.modTeam_groups (s : State) (k : GKey) (f : Team → Team) : (s.modTeam k f).groups = s.groups := rfl
@[simp] theorem State.modTeam_launches (s : State) (k : GKey) (f : Team → Team) : (s.modTeam k f).launches = s.launches := rfl
@[simp] theorem State.modTeam_ctxs (s : State) (k : GKey) (f : Team → Team) : (s.modTeam k f).ctxs = s.ctxs := rfl
@[simp] theorem State.modTeam_cores (s : State) (k : GKey) (f : Team → Team) : (s.modTeam k f).cores = s.cores := rfl
@[simp] theorem State.modTeam_mem (s : State) (k : GKey) (f : Team → Team) : (s.modTeam k f).mem = s.mem := rfl
@[simp] theorem State.modTeam_poison (s : State) (k : GKey) (f : Team → Team) : (s.modTeam k f).poison = s.poison := rfl
@[simp] theorem State.modTeam_hostMem (s : State) (k : GKey) (f : Team → Team) : (s.modTeam k f).hostMem = s.hostMem := rfl
@[simp] theorem State.modTeam_peerMem (s : State) (k : GKey) (f : Team → Team) : (s.modTeam k f).peerMem = s.peerMem := rfl
@[simp] theorem State.modTeam_bufs (s : State) (k : GKey) (f : Team → Team) : (s.modTeam k f).bufs = s.bufs := rfl
@[simp] theorem State.modTeam_bufBase (s : State) (k : GKey) (f : Team → Team) : (s.modTeam k f).bufBase = s.bufBase := rfl
@[simp] theorem State.modTeam_transit (s : State) (k : GKey) (f : Team → Team) : (s.modTeam k f).transit = s.transit := rfl
@[simp] theorem State.modTeam_moveAt (s : State) (k : GKey) (f : Team → Team) : (s.modTeam k f).moveAt = s.moveAt := rfl
@[simp] theorem State.modTeam_frames (s : State) (k : GKey) (f : Team → Team) : (s.modTeam k f).frames = s.frames := rfl
@[simp] theorem State.modTeam_lastLine (s : State) (k : GKey) (f : Team → Team) : (s.modTeam k f).lastLine = s.lastLine := rfl
@[simp] theorem State.modTeam_hot (s : State) (k : GKey) (f : Team → Team) : (s.modTeam k f).hot = s.hot := rfl
@[simp] theorem State.modTeam_retained (s : State) (k : GKey) (f : Team → Team) : (s.modTeam k f).retained = s.retained := rfl
@[simp] theorem State.modTeam_readCopies (s : State) (k : GKey) (f : Team → Team) : (s.modTeam k f).readCopies = s.readCopies := rfl
@[simp] theorem State.modTeam_dirty (s : State) (k : GKey) (f : Team → Team) : (s.modTeam k f).dirty = s.dirty := rfl
@[simp] theorem State.modTeam_cells (s : State) (k : GKey) (f : Team → Team) : (s.modTeam k f).cells = s.cells := rfl
@[simp] theorem State.modTeam_lodge (s : State) (k : GKey) (f : Team → Team) : (s.modTeam k f).lodge = s.lodge := rfl
@[simp] theorem State.modTeam_slots (s : State) (k : GKey) (f : Team → Team) : (s.modTeam k f).slots = s.slots := rfl
@[simp] theorem State.modTeam_slotWait (s : State) (k : GKey) (f : Team → Team) : (s.modTeam k f).slotWait = s.slotWait := rfl
@[simp] theorem State.modTeam_harvest (s : State) (k : GKey) (f : Team → Team) : (s.modTeam k f).harvest = s.harvest := rfl
@[simp] theorem State.modTeam_repair (s : State) (k : GKey) (f : Team → Team) : (s.modTeam k f).repair = s.repair := rfl
@[simp] theorem State.modTeam_delays (s : State) (k : GKey) (f : Team → Team) : (s.modTeam k f).delays = s.delays := rfl
@[simp] theorem State.modTeam_limits (s : State) (k : GKey) (f : Team → Team) : (s.modTeam k f).limits = s.limits := rfl
@[simp] theorem State.modTeam_measurements (s : State) (k : GKey) (f : Team → Team) : (s.modTeam k f).measurements = s.measurements := rfl
@[simp] theorem State.modTeam_regs (s : State) (k : GKey) (f : Team → Team) : (s.modTeam k f).regs = s.regs := rfl
@[simp] theorem State.modTeam_events (s : State) (k : GKey) (f : Team → Team) : (s.modTeam k f).events = s.events := rfl
@[simp] theorem State.modTeam_overflow (s : State) (k : GKey) (f : Team → Team) : (s.modTeam k f).overflow = s.overflow := rfl
@[simp] theorem State.modTeam_armed (s : State) (k : GKey) (f : Team → Team) : (s.modTeam k f).armed = s.armed := rfl
@[simp] theorem State.modTeam_msi0 (s : State) (k : GKey) (f : Team → Team) : (s.modTeam k f).msi0 = s.msi0 := rfl
@[simp] theorem State.modTeam_msi1 (s : State) (k : GKey) (f : Team → Team) : (s.modTeam k f).msi1 = s.msi1 := rfl
@[simp] theorem State.modTeam_audit (s : State) (k : GKey) (f : Team → Team) : (s.modTeam k f).audit = s.audit := rfl
@[simp] theorem State.modTeam_cmdDone (s : State) (k : GKey) (f : Team → Team) : (s.modTeam k f).cmdDone = s.cmdDone := rfl
@[simp] theorem State.modTeam_spdm (s : State) (k : GKey) (f : Team → Team) : (s.modTeam k f).spdm = s.spdm := rfl
@[simp] theorem State.modTeam_lost (s : State) (k : GKey) (f : Team → Team) : (s.modTeam k f).lost = s.lost := rfl
@[simp] theorem State.modTeam_nextLaunch (s : State) (k : GKey) (f : Team → Team) : (s.modTeam k f).nextLaunch = s.nextLaunch := rfl
@[simp] theorem State.modTeam_refusedLaunches (s : State) (k : GKey) (f : Team → Team) : (s.modTeam k f).refusedLaunches = s.refusedLaunches := rfl
@[simp] theorem State.modTeam_evicted (s : State) (k : GKey) (f : Team → Team) : (s.modTeam k f).evicted = s.evicted := rfl
@[simp] theorem State.modTeam_extRead (s : State) (k : GKey) (f : Team → Team) : (s.modTeam k f).extRead = s.extRead := rfl
@[simp] theorem State.modTeam_powered (s : State) (k : GKey) (f : Team → Team) : (s.modTeam k f).powered = s.powered := rfl

/- ### modCtx -/

@[simp] theorem State.modCtx_clk (s : State) (n : Nat) (f : Ctx → Ctx) : (s.modCtx n f).clk = s.clk := rfl
@[simp] theorem State.modCtx_tick (s : State) (n : Nat) (f : Ctx → Ctx) : (s.modCtx n f).tick = s.tick := rfl
@[simp] theorem State.modCtx_turn (s : State) (n : Nat) (f : Ctx → Ctx) : (s.modCtx n f).turn = s.turn := rfl
@[simp] theorem State.modCtx_inbox (s : State) (n : Nat) (f : Ctx → Ctx) : (s.modCtx n f).inbox = s.inbox := rfl
@[simp] theorem State.modCtx_cur (s : State) (n : Nat) (f : Ctx → Ctx) : (s.modCtx n f).cur = s.cur := rfl
@[simp] theorem State.modCtx_instances (s : State) (n : Nat) (f : Ctx → Ctx) : (s.modCtx n f).instances = s.instances := rfl
@[simp] theorem State.modCtx_completing (s : State) (n : Nat) (f : Ctx → Ctx) : (s.modCtx n f).completing = s.completing := rfl
@[simp] theorem State.modCtx_late (s : State) (n : Nat) (f : Ctx → Ctx) : (s.modCtx n f).late = s.late := rfl
@[simp] theorem State.modCtx_renewed (s : State) (n : Nat) (f : Ctx → Ctx) : (s.modCtx n f).renewed = s.renewed := rfl
@[simp] theorem State.modCtx_issuing (s : State) (n : Nat) (f : Ctx → Ctx) : (s.modCtx n f).issuing = s.issuing := rfl
@[simp] theorem State.modCtx_groups (s : State) (n : Nat) (f : Ctx → Ctx) : (s.modCtx n f).groups = s.groups := rfl
@[simp] theorem State.modCtx_teams (s : State) (n : Nat) (f : Ctx → Ctx) : (s.modCtx n f).teams = s.teams := rfl
@[simp] theorem State.modCtx_launches (s : State) (n : Nat) (f : Ctx → Ctx) : (s.modCtx n f).launches = s.launches := rfl
@[simp] theorem State.modCtx_cores (s : State) (n : Nat) (f : Ctx → Ctx) : (s.modCtx n f).cores = s.cores := rfl
@[simp] theorem State.modCtx_mem (s : State) (n : Nat) (f : Ctx → Ctx) : (s.modCtx n f).mem = s.mem := rfl
@[simp] theorem State.modCtx_poison (s : State) (n : Nat) (f : Ctx → Ctx) : (s.modCtx n f).poison = s.poison := rfl
@[simp] theorem State.modCtx_hostMem (s : State) (n : Nat) (f : Ctx → Ctx) : (s.modCtx n f).hostMem = s.hostMem := rfl
@[simp] theorem State.modCtx_peerMem (s : State) (n : Nat) (f : Ctx → Ctx) : (s.modCtx n f).peerMem = s.peerMem := rfl
@[simp] theorem State.modCtx_bufs (s : State) (n : Nat) (f : Ctx → Ctx) : (s.modCtx n f).bufs = s.bufs := rfl
@[simp] theorem State.modCtx_bufBase (s : State) (n : Nat) (f : Ctx → Ctx) : (s.modCtx n f).bufBase = s.bufBase := rfl
@[simp] theorem State.modCtx_transit (s : State) (n : Nat) (f : Ctx → Ctx) : (s.modCtx n f).transit = s.transit := rfl
@[simp] theorem State.modCtx_moveAt (s : State) (n : Nat) (f : Ctx → Ctx) : (s.modCtx n f).moveAt = s.moveAt := rfl
@[simp] theorem State.modCtx_frames (s : State) (n : Nat) (f : Ctx → Ctx) : (s.modCtx n f).frames = s.frames := rfl
@[simp] theorem State.modCtx_lastLine (s : State) (n : Nat) (f : Ctx → Ctx) : (s.modCtx n f).lastLine = s.lastLine := rfl
@[simp] theorem State.modCtx_hot (s : State) (n : Nat) (f : Ctx → Ctx) : (s.modCtx n f).hot = s.hot := rfl
@[simp] theorem State.modCtx_retained (s : State) (n : Nat) (f : Ctx → Ctx) : (s.modCtx n f).retained = s.retained := rfl
@[simp] theorem State.modCtx_readCopies (s : State) (n : Nat) (f : Ctx → Ctx) : (s.modCtx n f).readCopies = s.readCopies := rfl
@[simp] theorem State.modCtx_dirty (s : State) (n : Nat) (f : Ctx → Ctx) : (s.modCtx n f).dirty = s.dirty := rfl
@[simp] theorem State.modCtx_cells (s : State) (n : Nat) (f : Ctx → Ctx) : (s.modCtx n f).cells = s.cells := rfl
@[simp] theorem State.modCtx_lodge (s : State) (n : Nat) (f : Ctx → Ctx) : (s.modCtx n f).lodge = s.lodge := rfl
@[simp] theorem State.modCtx_slots (s : State) (n : Nat) (f : Ctx → Ctx) : (s.modCtx n f).slots = s.slots := rfl
@[simp] theorem State.modCtx_slotWait (s : State) (n : Nat) (f : Ctx → Ctx) : (s.modCtx n f).slotWait = s.slotWait := rfl
@[simp] theorem State.modCtx_harvest (s : State) (n : Nat) (f : Ctx → Ctx) : (s.modCtx n f).harvest = s.harvest := rfl
@[simp] theorem State.modCtx_repair (s : State) (n : Nat) (f : Ctx → Ctx) : (s.modCtx n f).repair = s.repair := rfl
@[simp] theorem State.modCtx_delays (s : State) (n : Nat) (f : Ctx → Ctx) : (s.modCtx n f).delays = s.delays := rfl
@[simp] theorem State.modCtx_limits (s : State) (n : Nat) (f : Ctx → Ctx) : (s.modCtx n f).limits = s.limits := rfl
@[simp] theorem State.modCtx_measurements (s : State) (n : Nat) (f : Ctx → Ctx) : (s.modCtx n f).measurements = s.measurements := rfl
@[simp] theorem State.modCtx_regs (s : State) (n : Nat) (f : Ctx → Ctx) : (s.modCtx n f).regs = s.regs := rfl
@[simp] theorem State.modCtx_events (s : State) (n : Nat) (f : Ctx → Ctx) : (s.modCtx n f).events = s.events := rfl
@[simp] theorem State.modCtx_overflow (s : State) (n : Nat) (f : Ctx → Ctx) : (s.modCtx n f).overflow = s.overflow := rfl
@[simp] theorem State.modCtx_armed (s : State) (n : Nat) (f : Ctx → Ctx) : (s.modCtx n f).armed = s.armed := rfl
@[simp] theorem State.modCtx_msi0 (s : State) (n : Nat) (f : Ctx → Ctx) : (s.modCtx n f).msi0 = s.msi0 := rfl
@[simp] theorem State.modCtx_msi1 (s : State) (n : Nat) (f : Ctx → Ctx) : (s.modCtx n f).msi1 = s.msi1 := rfl
@[simp] theorem State.modCtx_audit (s : State) (n : Nat) (f : Ctx → Ctx) : (s.modCtx n f).audit = s.audit := rfl
@[simp] theorem State.modCtx_cmdDone (s : State) (n : Nat) (f : Ctx → Ctx) : (s.modCtx n f).cmdDone = s.cmdDone := rfl
@[simp] theorem State.modCtx_spdm (s : State) (n : Nat) (f : Ctx → Ctx) : (s.modCtx n f).spdm = s.spdm := rfl
@[simp] theorem State.modCtx_lost (s : State) (n : Nat) (f : Ctx → Ctx) : (s.modCtx n f).lost = s.lost := rfl
@[simp] theorem State.modCtx_nextLaunch (s : State) (n : Nat) (f : Ctx → Ctx) : (s.modCtx n f).nextLaunch = s.nextLaunch := rfl
@[simp] theorem State.modCtx_refusedLaunches (s : State) (n : Nat) (f : Ctx → Ctx) : (s.modCtx n f).refusedLaunches = s.refusedLaunches := rfl
@[simp] theorem State.modCtx_evicted (s : State) (n : Nat) (f : Ctx → Ctx) : (s.modCtx n f).evicted = s.evicted := rfl
@[simp] theorem State.modCtx_extRead (s : State) (n : Nat) (f : Ctx → Ctx) : (s.modCtx n f).extRead = s.extRead := rfl
@[simp] theorem State.modCtx_powered (s : State) (n : Nat) (f : Ctx → Ctx) : (s.modCtx n f).powered = s.powered := rfl

/- ### modLaunch -/

@[simp] theorem State.modLaunch_clk (s : State) (n : Nat) (f : Launch → Launch) : (s.modLaunch n f).clk = s.clk := rfl
@[simp] theorem State.modLaunch_tick (s : State) (n : Nat) (f : Launch → Launch) : (s.modLaunch n f).tick = s.tick := rfl
@[simp] theorem State.modLaunch_turn (s : State) (n : Nat) (f : Launch → Launch) : (s.modLaunch n f).turn = s.turn := rfl
@[simp] theorem State.modLaunch_inbox (s : State) (n : Nat) (f : Launch → Launch) : (s.modLaunch n f).inbox = s.inbox := rfl
@[simp] theorem State.modLaunch_cur (s : State) (n : Nat) (f : Launch → Launch) : (s.modLaunch n f).cur = s.cur := rfl
@[simp] theorem State.modLaunch_instances (s : State) (n : Nat) (f : Launch → Launch) : (s.modLaunch n f).instances = s.instances := rfl
@[simp] theorem State.modLaunch_completing (s : State) (n : Nat) (f : Launch → Launch) : (s.modLaunch n f).completing = s.completing := rfl
@[simp] theorem State.modLaunch_late (s : State) (n : Nat) (f : Launch → Launch) : (s.modLaunch n f).late = s.late := rfl
@[simp] theorem State.modLaunch_renewed (s : State) (n : Nat) (f : Launch → Launch) : (s.modLaunch n f).renewed = s.renewed := rfl
@[simp] theorem State.modLaunch_issuing (s : State) (n : Nat) (f : Launch → Launch) : (s.modLaunch n f).issuing = s.issuing := rfl
@[simp] theorem State.modLaunch_groups (s : State) (n : Nat) (f : Launch → Launch) : (s.modLaunch n f).groups = s.groups := rfl
@[simp] theorem State.modLaunch_teams (s : State) (n : Nat) (f : Launch → Launch) : (s.modLaunch n f).teams = s.teams := rfl
@[simp] theorem State.modLaunch_ctxs (s : State) (n : Nat) (f : Launch → Launch) : (s.modLaunch n f).ctxs = s.ctxs := rfl
@[simp] theorem State.modLaunch_cores (s : State) (n : Nat) (f : Launch → Launch) : (s.modLaunch n f).cores = s.cores := rfl
@[simp] theorem State.modLaunch_mem (s : State) (n : Nat) (f : Launch → Launch) : (s.modLaunch n f).mem = s.mem := rfl
@[simp] theorem State.modLaunch_poison (s : State) (n : Nat) (f : Launch → Launch) : (s.modLaunch n f).poison = s.poison := rfl
@[simp] theorem State.modLaunch_hostMem (s : State) (n : Nat) (f : Launch → Launch) : (s.modLaunch n f).hostMem = s.hostMem := rfl
@[simp] theorem State.modLaunch_peerMem (s : State) (n : Nat) (f : Launch → Launch) : (s.modLaunch n f).peerMem = s.peerMem := rfl
@[simp] theorem State.modLaunch_bufs (s : State) (n : Nat) (f : Launch → Launch) : (s.modLaunch n f).bufs = s.bufs := rfl
@[simp] theorem State.modLaunch_bufBase (s : State) (n : Nat) (f : Launch → Launch) : (s.modLaunch n f).bufBase = s.bufBase := rfl
@[simp] theorem State.modLaunch_transit (s : State) (n : Nat) (f : Launch → Launch) : (s.modLaunch n f).transit = s.transit := rfl
@[simp] theorem State.modLaunch_moveAt (s : State) (n : Nat) (f : Launch → Launch) : (s.modLaunch n f).moveAt = s.moveAt := rfl
@[simp] theorem State.modLaunch_frames (s : State) (n : Nat) (f : Launch → Launch) : (s.modLaunch n f).frames = s.frames := rfl
@[simp] theorem State.modLaunch_lastLine (s : State) (n : Nat) (f : Launch → Launch) : (s.modLaunch n f).lastLine = s.lastLine := rfl
@[simp] theorem State.modLaunch_hot (s : State) (n : Nat) (f : Launch → Launch) : (s.modLaunch n f).hot = s.hot := rfl
@[simp] theorem State.modLaunch_retained (s : State) (n : Nat) (f : Launch → Launch) : (s.modLaunch n f).retained = s.retained := rfl
@[simp] theorem State.modLaunch_readCopies (s : State) (n : Nat) (f : Launch → Launch) : (s.modLaunch n f).readCopies = s.readCopies := rfl
@[simp] theorem State.modLaunch_dirty (s : State) (n : Nat) (f : Launch → Launch) : (s.modLaunch n f).dirty = s.dirty := rfl
@[simp] theorem State.modLaunch_cells (s : State) (n : Nat) (f : Launch → Launch) : (s.modLaunch n f).cells = s.cells := rfl
@[simp] theorem State.modLaunch_lodge (s : State) (n : Nat) (f : Launch → Launch) : (s.modLaunch n f).lodge = s.lodge := rfl
@[simp] theorem State.modLaunch_slots (s : State) (n : Nat) (f : Launch → Launch) : (s.modLaunch n f).slots = s.slots := rfl
@[simp] theorem State.modLaunch_slotWait (s : State) (n : Nat) (f : Launch → Launch) : (s.modLaunch n f).slotWait = s.slotWait := rfl
@[simp] theorem State.modLaunch_harvest (s : State) (n : Nat) (f : Launch → Launch) : (s.modLaunch n f).harvest = s.harvest := rfl
@[simp] theorem State.modLaunch_repair (s : State) (n : Nat) (f : Launch → Launch) : (s.modLaunch n f).repair = s.repair := rfl
@[simp] theorem State.modLaunch_delays (s : State) (n : Nat) (f : Launch → Launch) : (s.modLaunch n f).delays = s.delays := rfl
@[simp] theorem State.modLaunch_limits (s : State) (n : Nat) (f : Launch → Launch) : (s.modLaunch n f).limits = s.limits := rfl
@[simp] theorem State.modLaunch_measurements (s : State) (n : Nat) (f : Launch → Launch) : (s.modLaunch n f).measurements = s.measurements := rfl
@[simp] theorem State.modLaunch_regs (s : State) (n : Nat) (f : Launch → Launch) : (s.modLaunch n f).regs = s.regs := rfl
@[simp] theorem State.modLaunch_events (s : State) (n : Nat) (f : Launch → Launch) : (s.modLaunch n f).events = s.events := rfl
@[simp] theorem State.modLaunch_overflow (s : State) (n : Nat) (f : Launch → Launch) : (s.modLaunch n f).overflow = s.overflow := rfl
@[simp] theorem State.modLaunch_armed (s : State) (n : Nat) (f : Launch → Launch) : (s.modLaunch n f).armed = s.armed := rfl
@[simp] theorem State.modLaunch_msi0 (s : State) (n : Nat) (f : Launch → Launch) : (s.modLaunch n f).msi0 = s.msi0 := rfl
@[simp] theorem State.modLaunch_msi1 (s : State) (n : Nat) (f : Launch → Launch) : (s.modLaunch n f).msi1 = s.msi1 := rfl
@[simp] theorem State.modLaunch_audit (s : State) (n : Nat) (f : Launch → Launch) : (s.modLaunch n f).audit = s.audit := rfl
@[simp] theorem State.modLaunch_cmdDone (s : State) (n : Nat) (f : Launch → Launch) : (s.modLaunch n f).cmdDone = s.cmdDone := rfl
@[simp] theorem State.modLaunch_spdm (s : State) (n : Nat) (f : Launch → Launch) : (s.modLaunch n f).spdm = s.spdm := rfl
@[simp] theorem State.modLaunch_lost (s : State) (n : Nat) (f : Launch → Launch) : (s.modLaunch n f).lost = s.lost := rfl
@[simp] theorem State.modLaunch_nextLaunch (s : State) (n : Nat) (f : Launch → Launch) : (s.modLaunch n f).nextLaunch = s.nextLaunch := rfl
@[simp] theorem State.modLaunch_refusedLaunches (s : State) (n : Nat) (f : Launch → Launch) : (s.modLaunch n f).refusedLaunches = s.refusedLaunches := rfl
@[simp] theorem State.modLaunch_evicted (s : State) (n : Nat) (f : Launch → Launch) : (s.modLaunch n f).evicted = s.evicted := rfl
@[simp] theorem State.modLaunch_extRead (s : State) (n : Nat) (f : Launch → Launch) : (s.modLaunch n f).extRead = s.extRead := rfl
@[simp] theorem State.modLaunch_powered (s : State) (n : Nat) (f : Launch → Launch) : (s.modLaunch n f).powered = s.powered := rfl

/- ### setEntry -/

@[simp] theorem State.setEntry_clk (s : State) (n : Nat) (e : Entry) : (s.setEntry n e).clk = s.clk := rfl
@[simp] theorem State.setEntry_tick (s : State) (n : Nat) (e : Entry) : (s.setEntry n e).tick = s.tick := rfl
@[simp] theorem State.setEntry_turn (s : State) (n : Nat) (e : Entry) : (s.setEntry n e).turn = s.turn := rfl
@[simp] theorem State.setEntry_inbox (s : State) (n : Nat) (e : Entry) : (s.setEntry n e).inbox = s.inbox := rfl
@[simp] theorem State.setEntry_cur (s : State) (n : Nat) (e : Entry) : (s.setEntry n e).cur = s.cur := rfl
@[simp] theorem State.setEntry_instances (s : State) (n : Nat) (e : Entry) : (s.setEntry n e).instances = s.instances := rfl
@[simp] theorem State.setEntry_completing (s : State) (n : Nat) (e : Entry) : (s.setEntry n e).completing = s.completing := rfl
@[simp] theorem State.setEntry_late (s : State) (n : Nat) (e : Entry) : (s.setEntry n e).late = s.late := rfl
@[simp] theorem State.setEntry_renewed (s : State) (n : Nat) (e : Entry) : (s.setEntry n e).renewed = s.renewed := rfl
@[simp] theorem State.setEntry_issuing (s : State) (n : Nat) (e : Entry) : (s.setEntry n e).issuing = s.issuing := rfl
@[simp] theorem State.setEntry_groups (s : State) (n : Nat) (e : Entry) : (s.setEntry n e).groups = s.groups := rfl
@[simp] theorem State.setEntry_teams (s : State) (n : Nat) (e : Entry) : (s.setEntry n e).teams = s.teams := rfl
@[simp] theorem State.setEntry_launches (s : State) (n : Nat) (e : Entry) : (s.setEntry n e).launches = s.launches := rfl
@[simp] theorem State.setEntry_ctxs (s : State) (n : Nat) (e : Entry) : (s.setEntry n e).ctxs = s.ctxs := rfl
@[simp] theorem State.setEntry_cores (s : State) (n : Nat) (e : Entry) : (s.setEntry n e).cores = s.cores := rfl
@[simp] theorem State.setEntry_mem (s : State) (n : Nat) (e : Entry) : (s.setEntry n e).mem = s.mem := rfl
@[simp] theorem State.setEntry_poison (s : State) (n : Nat) (e : Entry) : (s.setEntry n e).poison = s.poison := rfl
@[simp] theorem State.setEntry_hostMem (s : State) (n : Nat) (e : Entry) : (s.setEntry n e).hostMem = s.hostMem := rfl
@[simp] theorem State.setEntry_peerMem (s : State) (n : Nat) (e : Entry) : (s.setEntry n e).peerMem = s.peerMem := rfl
@[simp] theorem State.setEntry_bufBase (s : State) (n : Nat) (e : Entry) : (s.setEntry n e).bufBase = s.bufBase := rfl
@[simp] theorem State.setEntry_transit (s : State) (n : Nat) (e : Entry) : (s.setEntry n e).transit = s.transit := rfl
@[simp] theorem State.setEntry_moveAt (s : State) (n : Nat) (e : Entry) : (s.setEntry n e).moveAt = s.moveAt := rfl
@[simp] theorem State.setEntry_frames (s : State) (n : Nat) (e : Entry) : (s.setEntry n e).frames = s.frames := rfl
@[simp] theorem State.setEntry_lastLine (s : State) (n : Nat) (e : Entry) : (s.setEntry n e).lastLine = s.lastLine := rfl
@[simp] theorem State.setEntry_hot (s : State) (n : Nat) (e : Entry) : (s.setEntry n e).hot = s.hot := rfl
@[simp] theorem State.setEntry_retained (s : State) (n : Nat) (e : Entry) : (s.setEntry n e).retained = s.retained := rfl
@[simp] theorem State.setEntry_readCopies (s : State) (n : Nat) (e : Entry) : (s.setEntry n e).readCopies = s.readCopies := rfl
@[simp] theorem State.setEntry_dirty (s : State) (n : Nat) (e : Entry) : (s.setEntry n e).dirty = s.dirty := rfl
@[simp] theorem State.setEntry_cells (s : State) (n : Nat) (e : Entry) : (s.setEntry n e).cells = s.cells := rfl
@[simp] theorem State.setEntry_lodge (s : State) (n : Nat) (e : Entry) : (s.setEntry n e).lodge = s.lodge := rfl
@[simp] theorem State.setEntry_slots (s : State) (n : Nat) (e : Entry) : (s.setEntry n e).slots = s.slots := rfl
@[simp] theorem State.setEntry_slotWait (s : State) (n : Nat) (e : Entry) : (s.setEntry n e).slotWait = s.slotWait := rfl
@[simp] theorem State.setEntry_harvest (s : State) (n : Nat) (e : Entry) : (s.setEntry n e).harvest = s.harvest := rfl
@[simp] theorem State.setEntry_repair (s : State) (n : Nat) (e : Entry) : (s.setEntry n e).repair = s.repair := rfl
@[simp] theorem State.setEntry_delays (s : State) (n : Nat) (e : Entry) : (s.setEntry n e).delays = s.delays := rfl
@[simp] theorem State.setEntry_limits (s : State) (n : Nat) (e : Entry) : (s.setEntry n e).limits = s.limits := rfl
@[simp] theorem State.setEntry_measurements (s : State) (n : Nat) (e : Entry) : (s.setEntry n e).measurements = s.measurements := rfl
@[simp] theorem State.setEntry_regs (s : State) (n : Nat) (e : Entry) : (s.setEntry n e).regs = s.regs := rfl
@[simp] theorem State.setEntry_events (s : State) (n : Nat) (e : Entry) : (s.setEntry n e).events = s.events := rfl
@[simp] theorem State.setEntry_overflow (s : State) (n : Nat) (e : Entry) : (s.setEntry n e).overflow = s.overflow := rfl
@[simp] theorem State.setEntry_armed (s : State) (n : Nat) (e : Entry) : (s.setEntry n e).armed = s.armed := rfl
@[simp] theorem State.setEntry_msi0 (s : State) (n : Nat) (e : Entry) : (s.setEntry n e).msi0 = s.msi0 := rfl
@[simp] theorem State.setEntry_msi1 (s : State) (n : Nat) (e : Entry) : (s.setEntry n e).msi1 = s.msi1 := rfl
@[simp] theorem State.setEntry_audit (s : State) (n : Nat) (e : Entry) : (s.setEntry n e).audit = s.audit := rfl
@[simp] theorem State.setEntry_cmdDone (s : State) (n : Nat) (e : Entry) : (s.setEntry n e).cmdDone = s.cmdDone := rfl
@[simp] theorem State.setEntry_spdm (s : State) (n : Nat) (e : Entry) : (s.setEntry n e).spdm = s.spdm := rfl
@[simp] theorem State.setEntry_lost (s : State) (n : Nat) (e : Entry) : (s.setEntry n e).lost = s.lost := rfl
@[simp] theorem State.setEntry_nextLaunch (s : State) (n : Nat) (e : Entry) : (s.setEntry n e).nextLaunch = s.nextLaunch := rfl
@[simp] theorem State.setEntry_refusedLaunches (s : State) (n : Nat) (e : Entry) : (s.setEntry n e).refusedLaunches = s.refusedLaunches := rfl
@[simp] theorem State.setEntry_evicted (s : State) (n : Nat) (e : Entry) : (s.setEntry n e).evicted = s.evicted := rfl
@[simp] theorem State.setEntry_extRead (s : State) (n : Nat) (e : Entry) : (s.setEntry n e).extRead = s.extRead := rfl
@[simp] theorem State.setEntry_powered (s : State) (n : Nat) (e : Entry) : (s.setEntry n e).powered = s.powered := rfl

/- ### setFrame -/

@[simp] theorem State.setFrame_clk (s : State) (n : Nat) (r : BitVec 64) : (s.setFrame n r).clk = s.clk := rfl
@[simp] theorem State.setFrame_tick (s : State) (n : Nat) (r : BitVec 64) : (s.setFrame n r).tick = s.tick := rfl
@[simp] theorem State.setFrame_turn (s : State) (n : Nat) (r : BitVec 64) : (s.setFrame n r).turn = s.turn := rfl
@[simp] theorem State.setFrame_inbox (s : State) (n : Nat) (r : BitVec 64) : (s.setFrame n r).inbox = s.inbox := rfl
@[simp] theorem State.setFrame_cur (s : State) (n : Nat) (r : BitVec 64) : (s.setFrame n r).cur = s.cur := rfl
@[simp] theorem State.setFrame_instances (s : State) (n : Nat) (r : BitVec 64) : (s.setFrame n r).instances = s.instances := rfl
@[simp] theorem State.setFrame_completing (s : State) (n : Nat) (r : BitVec 64) : (s.setFrame n r).completing = s.completing := rfl
@[simp] theorem State.setFrame_late (s : State) (n : Nat) (r : BitVec 64) : (s.setFrame n r).late = s.late := rfl
@[simp] theorem State.setFrame_renewed (s : State) (n : Nat) (r : BitVec 64) : (s.setFrame n r).renewed = s.renewed := rfl
@[simp] theorem State.setFrame_issuing (s : State) (n : Nat) (r : BitVec 64) : (s.setFrame n r).issuing = s.issuing := rfl
@[simp] theorem State.setFrame_groups (s : State) (n : Nat) (r : BitVec 64) : (s.setFrame n r).groups = s.groups := rfl
@[simp] theorem State.setFrame_teams (s : State) (n : Nat) (r : BitVec 64) : (s.setFrame n r).teams = s.teams := rfl
@[simp] theorem State.setFrame_launches (s : State) (n : Nat) (r : BitVec 64) : (s.setFrame n r).launches = s.launches := rfl
@[simp] theorem State.setFrame_ctxs (s : State) (n : Nat) (r : BitVec 64) : (s.setFrame n r).ctxs = s.ctxs := rfl
@[simp] theorem State.setFrame_cores (s : State) (n : Nat) (r : BitVec 64) : (s.setFrame n r).cores = s.cores := rfl
@[simp] theorem State.setFrame_mem (s : State) (n : Nat) (r : BitVec 64) : (s.setFrame n r).mem = s.mem := rfl
@[simp] theorem State.setFrame_poison (s : State) (n : Nat) (r : BitVec 64) : (s.setFrame n r).poison = s.poison := rfl
@[simp] theorem State.setFrame_hostMem (s : State) (n : Nat) (r : BitVec 64) : (s.setFrame n r).hostMem = s.hostMem := rfl
@[simp] theorem State.setFrame_peerMem (s : State) (n : Nat) (r : BitVec 64) : (s.setFrame n r).peerMem = s.peerMem := rfl
@[simp] theorem State.setFrame_bufs (s : State) (n : Nat) (r : BitVec 64) : (s.setFrame n r).bufs = s.bufs := rfl
@[simp] theorem State.setFrame_bufBase (s : State) (n : Nat) (r : BitVec 64) : (s.setFrame n r).bufBase = s.bufBase := rfl
@[simp] theorem State.setFrame_transit (s : State) (n : Nat) (r : BitVec 64) : (s.setFrame n r).transit = s.transit := rfl
@[simp] theorem State.setFrame_moveAt (s : State) (n : Nat) (r : BitVec 64) : (s.setFrame n r).moveAt = s.moveAt := rfl
@[simp] theorem State.setFrame_lastLine (s : State) (n : Nat) (r : BitVec 64) : (s.setFrame n r).lastLine = s.lastLine := rfl
@[simp] theorem State.setFrame_hot (s : State) (n : Nat) (r : BitVec 64) : (s.setFrame n r).hot = s.hot := rfl
@[simp] theorem State.setFrame_retained (s : State) (n : Nat) (r : BitVec 64) : (s.setFrame n r).retained = s.retained := rfl
@[simp] theorem State.setFrame_readCopies (s : State) (n : Nat) (r : BitVec 64) : (s.setFrame n r).readCopies = s.readCopies := rfl
@[simp] theorem State.setFrame_dirty (s : State) (n : Nat) (r : BitVec 64) : (s.setFrame n r).dirty = s.dirty := rfl
@[simp] theorem State.setFrame_cells (s : State) (n : Nat) (r : BitVec 64) : (s.setFrame n r).cells = s.cells := rfl
@[simp] theorem State.setFrame_lodge (s : State) (n : Nat) (r : BitVec 64) : (s.setFrame n r).lodge = s.lodge := rfl
@[simp] theorem State.setFrame_slots (s : State) (n : Nat) (r : BitVec 64) : (s.setFrame n r).slots = s.slots := rfl
@[simp] theorem State.setFrame_slotWait (s : State) (n : Nat) (r : BitVec 64) : (s.setFrame n r).slotWait = s.slotWait := rfl
@[simp] theorem State.setFrame_harvest (s : State) (n : Nat) (r : BitVec 64) : (s.setFrame n r).harvest = s.harvest := rfl
@[simp] theorem State.setFrame_repair (s : State) (n : Nat) (r : BitVec 64) : (s.setFrame n r).repair = s.repair := rfl
@[simp] theorem State.setFrame_delays (s : State) (n : Nat) (r : BitVec 64) : (s.setFrame n r).delays = s.delays := rfl
@[simp] theorem State.setFrame_limits (s : State) (n : Nat) (r : BitVec 64) : (s.setFrame n r).limits = s.limits := rfl
@[simp] theorem State.setFrame_measurements (s : State) (n : Nat) (r : BitVec 64) : (s.setFrame n r).measurements = s.measurements := rfl
@[simp] theorem State.setFrame_regs (s : State) (n : Nat) (r : BitVec 64) : (s.setFrame n r).regs = s.regs := rfl
@[simp] theorem State.setFrame_events (s : State) (n : Nat) (r : BitVec 64) : (s.setFrame n r).events = s.events := rfl
@[simp] theorem State.setFrame_overflow (s : State) (n : Nat) (r : BitVec 64) : (s.setFrame n r).overflow = s.overflow := rfl
@[simp] theorem State.setFrame_armed (s : State) (n : Nat) (r : BitVec 64) : (s.setFrame n r).armed = s.armed := rfl
@[simp] theorem State.setFrame_msi0 (s : State) (n : Nat) (r : BitVec 64) : (s.setFrame n r).msi0 = s.msi0 := rfl
@[simp] theorem State.setFrame_msi1 (s : State) (n : Nat) (r : BitVec 64) : (s.setFrame n r).msi1 = s.msi1 := rfl
@[simp] theorem State.setFrame_audit (s : State) (n : Nat) (r : BitVec 64) : (s.setFrame n r).audit = s.audit := rfl
@[simp] theorem State.setFrame_cmdDone (s : State) (n : Nat) (r : BitVec 64) : (s.setFrame n r).cmdDone = s.cmdDone := rfl
@[simp] theorem State.setFrame_spdm (s : State) (n : Nat) (r : BitVec 64) : (s.setFrame n r).spdm = s.spdm := rfl
@[simp] theorem State.setFrame_lost (s : State) (n : Nat) (r : BitVec 64) : (s.setFrame n r).lost = s.lost := rfl
@[simp] theorem State.setFrame_nextLaunch (s : State) (n : Nat) (r : BitVec 64) : (s.setFrame n r).nextLaunch = s.nextLaunch := rfl
@[simp] theorem State.setFrame_refusedLaunches (s : State) (n : Nat) (r : BitVec 64) : (s.setFrame n r).refusedLaunches = s.refusedLaunches := rfl
@[simp] theorem State.setFrame_evicted (s : State) (n : Nat) (r : BitVec 64) : (s.setFrame n r).evicted = s.evicted := rfl
@[simp] theorem State.setFrame_extRead (s : State) (n : Nat) (r : BitVec 64) : (s.setFrame n r).extRead = s.extRead := rfl
@[simp] theorem State.setFrame_powered (s : State) (n : Nat) (r : BitVec 64) : (s.setFrame n r).powered = s.powered := rfl

/- ### setCore -/

@[simp] theorem State.setCore_clk (s : State) (c : Core) : (s.setCore c).clk = s.clk := by unfold State.setCore; split <;> rfl
@[simp] theorem State.setCore_tick (s : State) (c : Core) : (s.setCore c).tick = s.tick := by unfold State.setCore; split <;> rfl
@[simp] theorem State.setCore_turn (s : State) (c : Core) : (s.setCore c).turn = s.turn := by unfold State.setCore; split <;> rfl
@[simp] theorem State.setCore_inbox (s : State) (c : Core) : (s.setCore c).inbox = s.inbox := by unfold State.setCore; split <;> rfl
@[simp] theorem State.setCore_cur (s : State) (c : Core) : (s.setCore c).cur = s.cur := by unfold State.setCore; split <;> rfl
@[simp] theorem State.setCore_instances (s : State) (c : Core) : (s.setCore c).instances = s.instances := by unfold State.setCore; split <;> rfl
@[simp] theorem State.setCore_completing (s : State) (c : Core) : (s.setCore c).completing = s.completing := by unfold State.setCore; split <;> rfl
@[simp] theorem State.setCore_late (s : State) (c : Core) : (s.setCore c).late = s.late := by unfold State.setCore; split <;> rfl
@[simp] theorem State.setCore_renewed (s : State) (c : Core) : (s.setCore c).renewed = s.renewed := by unfold State.setCore; split <;> rfl
@[simp] theorem State.setCore_issuing (s : State) (c : Core) : (s.setCore c).issuing = s.issuing := by unfold State.setCore; split <;> rfl
@[simp] theorem State.setCore_groups (s : State) (c : Core) : (s.setCore c).groups = s.groups := by unfold State.setCore; split <;> rfl
@[simp] theorem State.setCore_teams (s : State) (c : Core) : (s.setCore c).teams = s.teams := by unfold State.setCore; split <;> rfl
@[simp] theorem State.setCore_launches (s : State) (c : Core) : (s.setCore c).launches = s.launches := by unfold State.setCore; split <;> rfl
@[simp] theorem State.setCore_ctxs (s : State) (c : Core) : (s.setCore c).ctxs = s.ctxs := by unfold State.setCore; split <;> rfl
@[simp] theorem State.setCore_mem (s : State) (c : Core) : (s.setCore c).mem = s.mem := by unfold State.setCore; split <;> rfl
@[simp] theorem State.setCore_poison (s : State) (c : Core) : (s.setCore c).poison = s.poison := by unfold State.setCore; split <;> rfl
@[simp] theorem State.setCore_hostMem (s : State) (c : Core) : (s.setCore c).hostMem = s.hostMem := by unfold State.setCore; split <;> rfl
@[simp] theorem State.setCore_peerMem (s : State) (c : Core) : (s.setCore c).peerMem = s.peerMem := by unfold State.setCore; split <;> rfl
@[simp] theorem State.setCore_bufs (s : State) (c : Core) : (s.setCore c).bufs = s.bufs := by unfold State.setCore; split <;> rfl
@[simp] theorem State.setCore_bufBase (s : State) (c : Core) : (s.setCore c).bufBase = s.bufBase := by unfold State.setCore; split <;> rfl
@[simp] theorem State.setCore_transit (s : State) (c : Core) : (s.setCore c).transit = s.transit := by unfold State.setCore; split <;> rfl
@[simp] theorem State.setCore_moveAt (s : State) (c : Core) : (s.setCore c).moveAt = s.moveAt := by unfold State.setCore; split <;> rfl
@[simp] theorem State.setCore_frames (s : State) (c : Core) : (s.setCore c).frames = s.frames := by unfold State.setCore; split <;> rfl
@[simp] theorem State.setCore_lastLine (s : State) (c : Core) : (s.setCore c).lastLine = s.lastLine := by unfold State.setCore; split <;> rfl
@[simp] theorem State.setCore_hot (s : State) (c : Core) : (s.setCore c).hot = s.hot := by unfold State.setCore; split <;> rfl
@[simp] theorem State.setCore_retained (s : State) (c : Core) : (s.setCore c).retained = s.retained := by unfold State.setCore; split <;> rfl
@[simp] theorem State.setCore_readCopies (s : State) (c : Core) : (s.setCore c).readCopies = s.readCopies := by unfold State.setCore; split <;> rfl
@[simp] theorem State.setCore_dirty (s : State) (c : Core) : (s.setCore c).dirty = s.dirty := by unfold State.setCore; split <;> rfl
@[simp] theorem State.setCore_cells (s : State) (c : Core) : (s.setCore c).cells = s.cells := by unfold State.setCore; split <;> rfl
@[simp] theorem State.setCore_lodge (s : State) (c : Core) : (s.setCore c).lodge = s.lodge := by unfold State.setCore; split <;> rfl
@[simp] theorem State.setCore_slots (s : State) (c : Core) : (s.setCore c).slots = s.slots := by unfold State.setCore; split <;> rfl
@[simp] theorem State.setCore_slotWait (s : State) (c : Core) : (s.setCore c).slotWait = s.slotWait := by unfold State.setCore; split <;> rfl
@[simp] theorem State.setCore_harvest (s : State) (c : Core) : (s.setCore c).harvest = s.harvest := by unfold State.setCore; split <;> rfl
@[simp] theorem State.setCore_repair (s : State) (c : Core) : (s.setCore c).repair = s.repair := by unfold State.setCore; split <;> rfl
@[simp] theorem State.setCore_delays (s : State) (c : Core) : (s.setCore c).delays = s.delays := by unfold State.setCore; split <;> rfl
@[simp] theorem State.setCore_limits (s : State) (c : Core) : (s.setCore c).limits = s.limits := by unfold State.setCore; split <;> rfl
@[simp] theorem State.setCore_measurements (s : State) (c : Core) : (s.setCore c).measurements = s.measurements := by unfold State.setCore; split <;> rfl
@[simp] theorem State.setCore_regs (s : State) (c : Core) : (s.setCore c).regs = s.regs := by unfold State.setCore; split <;> rfl
@[simp] theorem State.setCore_events (s : State) (c : Core) : (s.setCore c).events = s.events := by unfold State.setCore; split <;> rfl
@[simp] theorem State.setCore_overflow (s : State) (c : Core) : (s.setCore c).overflow = s.overflow := by unfold State.setCore; split <;> rfl
@[simp] theorem State.setCore_armed (s : State) (c : Core) : (s.setCore c).armed = s.armed := by unfold State.setCore; split <;> rfl
@[simp] theorem State.setCore_msi0 (s : State) (c : Core) : (s.setCore c).msi0 = s.msi0 := by unfold State.setCore; split <;> rfl
@[simp] theorem State.setCore_msi1 (s : State) (c : Core) : (s.setCore c).msi1 = s.msi1 := by unfold State.setCore; split <;> rfl
@[simp] theorem State.setCore_audit (s : State) (c : Core) : (s.setCore c).audit = s.audit := by unfold State.setCore; split <;> rfl
@[simp] theorem State.setCore_cmdDone (s : State) (c : Core) : (s.setCore c).cmdDone = s.cmdDone := by unfold State.setCore; split <;> rfl
@[simp] theorem State.setCore_spdm (s : State) (c : Core) : (s.setCore c).spdm = s.spdm := by unfold State.setCore; split <;> rfl
@[simp] theorem State.setCore_lost (s : State) (c : Core) : (s.setCore c).lost = s.lost := by unfold State.setCore; split <;> rfl
@[simp] theorem State.setCore_nextLaunch (s : State) (c : Core) : (s.setCore c).nextLaunch = s.nextLaunch := by unfold State.setCore; split <;> rfl
@[simp] theorem State.setCore_refusedLaunches (s : State) (c : Core) : (s.setCore c).refusedLaunches = s.refusedLaunches := by unfold State.setCore; split <;> rfl
@[simp] theorem State.setCore_evicted (s : State) (c : Core) : (s.setCore c).evicted = s.evicted := by unfold State.setCore; split <;> rfl
@[simp] theorem State.setCore_extRead (s : State) (c : Core) : (s.setCore c).extRead = s.extRead := by unfold State.setCore; split <;> rfl
@[simp] theorem State.setCore_powered (s : State) (c : Core) : (s.setCore c).powered = s.powered := by unfold State.setCore; split <;> rfl

/- ### modCore -/

@[simp] theorem State.modCore_clk (s : State) (k : CKey) (f : Core → Core) : (s.modCore k f).clk = s.clk := by simp [State.modCore]
@[simp] theorem State.modCore_tick (s : State) (k : CKey) (f : Core → Core) : (s.modCore k f).tick = s.tick := by simp [State.modCore]
@[simp] theorem State.modCore_turn (s : State) (k : CKey) (f : Core → Core) : (s.modCore k f).turn = s.turn := by simp [State.modCore]
@[simp] theorem State.modCore_inbox (s : State) (k : CKey) (f : Core → Core) : (s.modCore k f).inbox = s.inbox := by simp [State.modCore]
@[simp] theorem State.modCore_cur (s : State) (k : CKey) (f : Core → Core) : (s.modCore k f).cur = s.cur := by simp [State.modCore]
@[simp] theorem State.modCore_instances (s : State) (k : CKey) (f : Core → Core) : (s.modCore k f).instances = s.instances := by simp [State.modCore]
@[simp] theorem State.modCore_completing (s : State) (k : CKey) (f : Core → Core) : (s.modCore k f).completing = s.completing := by simp [State.modCore]
@[simp] theorem State.modCore_late (s : State) (k : CKey) (f : Core → Core) : (s.modCore k f).late = s.late := by simp [State.modCore]
@[simp] theorem State.modCore_renewed (s : State) (k : CKey) (f : Core → Core) : (s.modCore k f).renewed = s.renewed := by simp [State.modCore]
@[simp] theorem State.modCore_issuing (s : State) (k : CKey) (f : Core → Core) : (s.modCore k f).issuing = s.issuing := by simp [State.modCore]
@[simp] theorem State.modCore_groups (s : State) (k : CKey) (f : Core → Core) : (s.modCore k f).groups = s.groups := by simp [State.modCore]
@[simp] theorem State.modCore_teams (s : State) (k : CKey) (f : Core → Core) : (s.modCore k f).teams = s.teams := by simp [State.modCore]
@[simp] theorem State.modCore_launches (s : State) (k : CKey) (f : Core → Core) : (s.modCore k f).launches = s.launches := by simp [State.modCore]
@[simp] theorem State.modCore_ctxs (s : State) (k : CKey) (f : Core → Core) : (s.modCore k f).ctxs = s.ctxs := by simp [State.modCore]
@[simp] theorem State.modCore_mem (s : State) (k : CKey) (f : Core → Core) : (s.modCore k f).mem = s.mem := by simp [State.modCore]
@[simp] theorem State.modCore_poison (s : State) (k : CKey) (f : Core → Core) : (s.modCore k f).poison = s.poison := by simp [State.modCore]
@[simp] theorem State.modCore_hostMem (s : State) (k : CKey) (f : Core → Core) : (s.modCore k f).hostMem = s.hostMem := by simp [State.modCore]
@[simp] theorem State.modCore_peerMem (s : State) (k : CKey) (f : Core → Core) : (s.modCore k f).peerMem = s.peerMem := by simp [State.modCore]
@[simp] theorem State.modCore_bufs (s : State) (k : CKey) (f : Core → Core) : (s.modCore k f).bufs = s.bufs := by simp [State.modCore]
@[simp] theorem State.modCore_bufBase (s : State) (k : CKey) (f : Core → Core) : (s.modCore k f).bufBase = s.bufBase := by simp [State.modCore]
@[simp] theorem State.modCore_transit (s : State) (k : CKey) (f : Core → Core) : (s.modCore k f).transit = s.transit := by simp [State.modCore]
@[simp] theorem State.modCore_moveAt (s : State) (k : CKey) (f : Core → Core) : (s.modCore k f).moveAt = s.moveAt := by simp [State.modCore]
@[simp] theorem State.modCore_frames (s : State) (k : CKey) (f : Core → Core) : (s.modCore k f).frames = s.frames := by simp [State.modCore]
@[simp] theorem State.modCore_lastLine (s : State) (k : CKey) (f : Core → Core) : (s.modCore k f).lastLine = s.lastLine := by simp [State.modCore]
@[simp] theorem State.modCore_hot (s : State) (k : CKey) (f : Core → Core) : (s.modCore k f).hot = s.hot := by simp [State.modCore]
@[simp] theorem State.modCore_retained (s : State) (k : CKey) (f : Core → Core) : (s.modCore k f).retained = s.retained := by simp [State.modCore]
@[simp] theorem State.modCore_readCopies (s : State) (k : CKey) (f : Core → Core) : (s.modCore k f).readCopies = s.readCopies := by simp [State.modCore]
@[simp] theorem State.modCore_dirty (s : State) (k : CKey) (f : Core → Core) : (s.modCore k f).dirty = s.dirty := by simp [State.modCore]
@[simp] theorem State.modCore_cells (s : State) (k : CKey) (f : Core → Core) : (s.modCore k f).cells = s.cells := by simp [State.modCore]
@[simp] theorem State.modCore_lodge (s : State) (k : CKey) (f : Core → Core) : (s.modCore k f).lodge = s.lodge := by simp [State.modCore]
@[simp] theorem State.modCore_slots (s : State) (k : CKey) (f : Core → Core) : (s.modCore k f).slots = s.slots := by simp [State.modCore]
@[simp] theorem State.modCore_slotWait (s : State) (k : CKey) (f : Core → Core) : (s.modCore k f).slotWait = s.slotWait := by simp [State.modCore]
@[simp] theorem State.modCore_harvest (s : State) (k : CKey) (f : Core → Core) : (s.modCore k f).harvest = s.harvest := by simp [State.modCore]
@[simp] theorem State.modCore_repair (s : State) (k : CKey) (f : Core → Core) : (s.modCore k f).repair = s.repair := by simp [State.modCore]
@[simp] theorem State.modCore_delays (s : State) (k : CKey) (f : Core → Core) : (s.modCore k f).delays = s.delays := by simp [State.modCore]
@[simp] theorem State.modCore_limits (s : State) (k : CKey) (f : Core → Core) : (s.modCore k f).limits = s.limits := by simp [State.modCore]
@[simp] theorem State.modCore_measurements (s : State) (k : CKey) (f : Core → Core) : (s.modCore k f).measurements = s.measurements := by simp [State.modCore]
@[simp] theorem State.modCore_regs (s : State) (k : CKey) (f : Core → Core) : (s.modCore k f).regs = s.regs := by simp [State.modCore]
@[simp] theorem State.modCore_events (s : State) (k : CKey) (f : Core → Core) : (s.modCore k f).events = s.events := by simp [State.modCore]
@[simp] theorem State.modCore_overflow (s : State) (k : CKey) (f : Core → Core) : (s.modCore k f).overflow = s.overflow := by simp [State.modCore]
@[simp] theorem State.modCore_armed (s : State) (k : CKey) (f : Core → Core) : (s.modCore k f).armed = s.armed := by simp [State.modCore]
@[simp] theorem State.modCore_msi0 (s : State) (k : CKey) (f : Core → Core) : (s.modCore k f).msi0 = s.msi0 := by simp [State.modCore]
@[simp] theorem State.modCore_msi1 (s : State) (k : CKey) (f : Core → Core) : (s.modCore k f).msi1 = s.msi1 := by simp [State.modCore]
@[simp] theorem State.modCore_audit (s : State) (k : CKey) (f : Core → Core) : (s.modCore k f).audit = s.audit := by simp [State.modCore]
@[simp] theorem State.modCore_cmdDone (s : State) (k : CKey) (f : Core → Core) : (s.modCore k f).cmdDone = s.cmdDone := by simp [State.modCore]
@[simp] theorem State.modCore_spdm (s : State) (k : CKey) (f : Core → Core) : (s.modCore k f).spdm = s.spdm := by simp [State.modCore]
@[simp] theorem State.modCore_lost (s : State) (k : CKey) (f : Core → Core) : (s.modCore k f).lost = s.lost := by simp [State.modCore]
@[simp] theorem State.modCore_nextLaunch (s : State) (k : CKey) (f : Core → Core) : (s.modCore k f).nextLaunch = s.nextLaunch := by simp [State.modCore]
@[simp] theorem State.modCore_refusedLaunches (s : State) (k : CKey) (f : Core → Core) : (s.modCore k f).refusedLaunches = s.refusedLaunches := by simp [State.modCore]
@[simp] theorem State.modCore_evicted (s : State) (k : CKey) (f : Core → Core) : (s.modCore k f).evicted = s.evicted := by simp [State.modCore]
@[simp] theorem State.modCore_extRead (s : State) (k : CKey) (f : Core → Core) : (s.modCore k f).extRead = s.extRead := by simp [State.modCore]
@[simp] theorem State.modCore_powered (s : State) (k : CKey) (f : Core → Core) : (s.modCore k f).powered = s.powered := by simp [State.modCore]

/- ### modPart -/

@[simp] theorem State.modPart_clk (s : State) (p : PKey) (f : Part → Part) : (s.modPart p f).clk = s.clk := by simp [State.modPart]
@[simp] theorem State.modPart_tick (s : State) (p : PKey) (f : Part → Part) : (s.modPart p f).tick = s.tick := by simp [State.modPart]
@[simp] theorem State.modPart_turn (s : State) (p : PKey) (f : Part → Part) : (s.modPart p f).turn = s.turn := by simp [State.modPart]
@[simp] theorem State.modPart_inbox (s : State) (p : PKey) (f : Part → Part) : (s.modPart p f).inbox = s.inbox := by simp [State.modPart]
@[simp] theorem State.modPart_cur (s : State) (p : PKey) (f : Part → Part) : (s.modPart p f).cur = s.cur := by simp [State.modPart]
@[simp] theorem State.modPart_instances (s : State) (p : PKey) (f : Part → Part) : (s.modPart p f).instances = s.instances := by simp [State.modPart]
@[simp] theorem State.modPart_completing (s : State) (p : PKey) (f : Part → Part) : (s.modPart p f).completing = s.completing := by simp [State.modPart]
@[simp] theorem State.modPart_late (s : State) (p : PKey) (f : Part → Part) : (s.modPart p f).late = s.late := by simp [State.modPart]
@[simp] theorem State.modPart_renewed (s : State) (p : PKey) (f : Part → Part) : (s.modPart p f).renewed = s.renewed := by simp [State.modPart]
@[simp] theorem State.modPart_issuing (s : State) (p : PKey) (f : Part → Part) : (s.modPart p f).issuing = s.issuing := by simp [State.modPart]
@[simp] theorem State.modPart_groups (s : State) (p : PKey) (f : Part → Part) : (s.modPart p f).groups = s.groups := by simp [State.modPart]
@[simp] theorem State.modPart_teams (s : State) (p : PKey) (f : Part → Part) : (s.modPart p f).teams = s.teams := by simp [State.modPart]
@[simp] theorem State.modPart_launches (s : State) (p : PKey) (f : Part → Part) : (s.modPart p f).launches = s.launches := by simp [State.modPart]
@[simp] theorem State.modPart_ctxs (s : State) (p : PKey) (f : Part → Part) : (s.modPart p f).ctxs = s.ctxs := by simp [State.modPart]
@[simp] theorem State.modPart_mem (s : State) (p : PKey) (f : Part → Part) : (s.modPart p f).mem = s.mem := by simp [State.modPart]
@[simp] theorem State.modPart_poison (s : State) (p : PKey) (f : Part → Part) : (s.modPart p f).poison = s.poison := by simp [State.modPart]
@[simp] theorem State.modPart_hostMem (s : State) (p : PKey) (f : Part → Part) : (s.modPart p f).hostMem = s.hostMem := by simp [State.modPart]
@[simp] theorem State.modPart_peerMem (s : State) (p : PKey) (f : Part → Part) : (s.modPart p f).peerMem = s.peerMem := by simp [State.modPart]
@[simp] theorem State.modPart_bufs (s : State) (p : PKey) (f : Part → Part) : (s.modPart p f).bufs = s.bufs := by simp [State.modPart]
@[simp] theorem State.modPart_bufBase (s : State) (p : PKey) (f : Part → Part) : (s.modPart p f).bufBase = s.bufBase := by simp [State.modPart]
@[simp] theorem State.modPart_transit (s : State) (p : PKey) (f : Part → Part) : (s.modPart p f).transit = s.transit := by simp [State.modPart]
@[simp] theorem State.modPart_moveAt (s : State) (p : PKey) (f : Part → Part) : (s.modPart p f).moveAt = s.moveAt := by simp [State.modPart]
@[simp] theorem State.modPart_frames (s : State) (p : PKey) (f : Part → Part) : (s.modPart p f).frames = s.frames := by simp [State.modPart]
@[simp] theorem State.modPart_lastLine (s : State) (p : PKey) (f : Part → Part) : (s.modPart p f).lastLine = s.lastLine := by simp [State.modPart]
@[simp] theorem State.modPart_hot (s : State) (p : PKey) (f : Part → Part) : (s.modPart p f).hot = s.hot := by simp [State.modPart]
@[simp] theorem State.modPart_retained (s : State) (p : PKey) (f : Part → Part) : (s.modPart p f).retained = s.retained := by simp [State.modPart]
@[simp] theorem State.modPart_readCopies (s : State) (p : PKey) (f : Part → Part) : (s.modPart p f).readCopies = s.readCopies := by simp [State.modPart]
@[simp] theorem State.modPart_dirty (s : State) (p : PKey) (f : Part → Part) : (s.modPart p f).dirty = s.dirty := by simp [State.modPart]
@[simp] theorem State.modPart_cells (s : State) (p : PKey) (f : Part → Part) : (s.modPart p f).cells = s.cells := by simp [State.modPart]
@[simp] theorem State.modPart_lodge (s : State) (p : PKey) (f : Part → Part) : (s.modPart p f).lodge = s.lodge := by simp [State.modPart]
@[simp] theorem State.modPart_slots (s : State) (p : PKey) (f : Part → Part) : (s.modPart p f).slots = s.slots := by simp [State.modPart]
@[simp] theorem State.modPart_slotWait (s : State) (p : PKey) (f : Part → Part) : (s.modPart p f).slotWait = s.slotWait := by simp [State.modPart]
@[simp] theorem State.modPart_harvest (s : State) (p : PKey) (f : Part → Part) : (s.modPart p f).harvest = s.harvest := by simp [State.modPart]
@[simp] theorem State.modPart_repair (s : State) (p : PKey) (f : Part → Part) : (s.modPart p f).repair = s.repair := by simp [State.modPart]
@[simp] theorem State.modPart_delays (s : State) (p : PKey) (f : Part → Part) : (s.modPart p f).delays = s.delays := by simp [State.modPart]
@[simp] theorem State.modPart_limits (s : State) (p : PKey) (f : Part → Part) : (s.modPart p f).limits = s.limits := by simp [State.modPart]
@[simp] theorem State.modPart_measurements (s : State) (p : PKey) (f : Part → Part) : (s.modPart p f).measurements = s.measurements := by simp [State.modPart]
@[simp] theorem State.modPart_regs (s : State) (p : PKey) (f : Part → Part) : (s.modPart p f).regs = s.regs := by simp [State.modPart]
@[simp] theorem State.modPart_events (s : State) (p : PKey) (f : Part → Part) : (s.modPart p f).events = s.events := by simp [State.modPart]
@[simp] theorem State.modPart_overflow (s : State) (p : PKey) (f : Part → Part) : (s.modPart p f).overflow = s.overflow := by simp [State.modPart]
@[simp] theorem State.modPart_armed (s : State) (p : PKey) (f : Part → Part) : (s.modPart p f).armed = s.armed := by simp [State.modPart]
@[simp] theorem State.modPart_msi0 (s : State) (p : PKey) (f : Part → Part) : (s.modPart p f).msi0 = s.msi0 := by simp [State.modPart]
@[simp] theorem State.modPart_msi1 (s : State) (p : PKey) (f : Part → Part) : (s.modPart p f).msi1 = s.msi1 := by simp [State.modPart]
@[simp] theorem State.modPart_audit (s : State) (p : PKey) (f : Part → Part) : (s.modPart p f).audit = s.audit := by simp [State.modPart]
@[simp] theorem State.modPart_cmdDone (s : State) (p : PKey) (f : Part → Part) : (s.modPart p f).cmdDone = s.cmdDone := by simp [State.modPart]
@[simp] theorem State.modPart_spdm (s : State) (p : PKey) (f : Part → Part) : (s.modPart p f).spdm = s.spdm := by simp [State.modPart]
@[simp] theorem State.modPart_lost (s : State) (p : PKey) (f : Part → Part) : (s.modPart p f).lost = s.lost := by simp [State.modPart]
@[simp] theorem State.modPart_nextLaunch (s : State) (p : PKey) (f : Part → Part) : (s.modPart p f).nextLaunch = s.nextLaunch := by simp [State.modPart]
@[simp] theorem State.modPart_refusedLaunches (s : State) (p : PKey) (f : Part → Part) : (s.modPart p f).refusedLaunches = s.refusedLaunches := by simp [State.modPart]
@[simp] theorem State.modPart_evicted (s : State) (p : PKey) (f : Part → Part) : (s.modPart p f).evicted = s.evicted := by simp [State.modPart]
@[simp] theorem State.modPart_extRead (s : State) (p : PKey) (f : Part → Part) : (s.modPart p f).extRead = s.extRead := by simp [State.modPart]
@[simp] theorem State.modPart_powered (s : State) (p : PKey) (f : Part → Part) : (s.modPart p f).powered = s.powered := by simp [State.modPart]

/- ### putFixed -/

@[simp] theorem State.putFixed_clk (s : State) (k : GKey) (n : Nat) (ws : List Write) : (s.putFixed k n ws).clk = s.clk := rfl
@[simp] theorem State.putFixed_tick (s : State) (k : GKey) (n : Nat) (ws : List Write) : (s.putFixed k n ws).tick = s.tick := rfl
@[simp] theorem State.putFixed_turn (s : State) (k : GKey) (n : Nat) (ws : List Write) : (s.putFixed k n ws).turn = s.turn := rfl
@[simp] theorem State.putFixed_inbox (s : State) (k : GKey) (n : Nat) (ws : List Write) : (s.putFixed k n ws).inbox = s.inbox := rfl
@[simp] theorem State.putFixed_cur (s : State) (k : GKey) (n : Nat) (ws : List Write) : (s.putFixed k n ws).cur = s.cur := rfl
@[simp] theorem State.putFixed_instances (s : State) (k : GKey) (n : Nat) (ws : List Write) : (s.putFixed k n ws).instances = s.instances := rfl
@[simp] theorem State.putFixed_completing (s : State) (k : GKey) (n : Nat) (ws : List Write) : (s.putFixed k n ws).completing = s.completing := rfl
@[simp] theorem State.putFixed_late (s : State) (k : GKey) (n : Nat) (ws : List Write) : (s.putFixed k n ws).late = s.late := rfl
@[simp] theorem State.putFixed_renewed (s : State) (k : GKey) (n : Nat) (ws : List Write) : (s.putFixed k n ws).renewed = s.renewed := rfl
@[simp] theorem State.putFixed_issuing (s : State) (k : GKey) (n : Nat) (ws : List Write) : (s.putFixed k n ws).issuing = s.issuing := rfl
@[simp] theorem State.putFixed_teams (s : State) (k : GKey) (n : Nat) (ws : List Write) : (s.putFixed k n ws).teams = s.teams := rfl
@[simp] theorem State.putFixed_launches (s : State) (k : GKey) (n : Nat) (ws : List Write) : (s.putFixed k n ws).launches = s.launches := rfl
@[simp] theorem State.putFixed_ctxs (s : State) (k : GKey) (n : Nat) (ws : List Write) : (s.putFixed k n ws).ctxs = s.ctxs := rfl
@[simp] theorem State.putFixed_cores (s : State) (k : GKey) (n : Nat) (ws : List Write) : (s.putFixed k n ws).cores = s.cores := rfl
@[simp] theorem State.putFixed_mem (s : State) (k : GKey) (n : Nat) (ws : List Write) : (s.putFixed k n ws).mem = s.mem := rfl
@[simp] theorem State.putFixed_poison (s : State) (k : GKey) (n : Nat) (ws : List Write) : (s.putFixed k n ws).poison = s.poison := rfl
@[simp] theorem State.putFixed_hostMem (s : State) (k : GKey) (n : Nat) (ws : List Write) : (s.putFixed k n ws).hostMem = s.hostMem := rfl
@[simp] theorem State.putFixed_peerMem (s : State) (k : GKey) (n : Nat) (ws : List Write) : (s.putFixed k n ws).peerMem = s.peerMem := rfl
@[simp] theorem State.putFixed_bufs (s : State) (k : GKey) (n : Nat) (ws : List Write) : (s.putFixed k n ws).bufs = s.bufs := rfl
@[simp] theorem State.putFixed_bufBase (s : State) (k : GKey) (n : Nat) (ws : List Write) : (s.putFixed k n ws).bufBase = s.bufBase := rfl
@[simp] theorem State.putFixed_transit (s : State) (k : GKey) (n : Nat) (ws : List Write) : (s.putFixed k n ws).transit = s.transit := rfl
@[simp] theorem State.putFixed_moveAt (s : State) (k : GKey) (n : Nat) (ws : List Write) : (s.putFixed k n ws).moveAt = s.moveAt := rfl
@[simp] theorem State.putFixed_frames (s : State) (k : GKey) (n : Nat) (ws : List Write) : (s.putFixed k n ws).frames = s.frames := rfl
@[simp] theorem State.putFixed_lastLine (s : State) (k : GKey) (n : Nat) (ws : List Write) : (s.putFixed k n ws).lastLine = s.lastLine := rfl
@[simp] theorem State.putFixed_hot (s : State) (k : GKey) (n : Nat) (ws : List Write) : (s.putFixed k n ws).hot = s.hot := rfl
@[simp] theorem State.putFixed_retained (s : State) (k : GKey) (n : Nat) (ws : List Write) : (s.putFixed k n ws).retained = s.retained := rfl
@[simp] theorem State.putFixed_readCopies (s : State) (k : GKey) (n : Nat) (ws : List Write) : (s.putFixed k n ws).readCopies = s.readCopies := rfl
@[simp] theorem State.putFixed_dirty (s : State) (k : GKey) (n : Nat) (ws : List Write) : (s.putFixed k n ws).dirty = s.dirty := rfl
@[simp] theorem State.putFixed_cells (s : State) (k : GKey) (n : Nat) (ws : List Write) : (s.putFixed k n ws).cells = s.cells := rfl
@[simp] theorem State.putFixed_lodge (s : State) (k : GKey) (n : Nat) (ws : List Write) : (s.putFixed k n ws).lodge = s.lodge := rfl
@[simp] theorem State.putFixed_slots (s : State) (k : GKey) (n : Nat) (ws : List Write) : (s.putFixed k n ws).slots = s.slots := rfl
@[simp] theorem State.putFixed_slotWait (s : State) (k : GKey) (n : Nat) (ws : List Write) : (s.putFixed k n ws).slotWait = s.slotWait := rfl
@[simp] theorem State.putFixed_harvest (s : State) (k : GKey) (n : Nat) (ws : List Write) : (s.putFixed k n ws).harvest = s.harvest := rfl
@[simp] theorem State.putFixed_repair (s : State) (k : GKey) (n : Nat) (ws : List Write) : (s.putFixed k n ws).repair = s.repair := rfl
@[simp] theorem State.putFixed_delays (s : State) (k : GKey) (n : Nat) (ws : List Write) : (s.putFixed k n ws).delays = s.delays := rfl
@[simp] theorem State.putFixed_limits (s : State) (k : GKey) (n : Nat) (ws : List Write) : (s.putFixed k n ws).limits = s.limits := rfl
@[simp] theorem State.putFixed_measurements (s : State) (k : GKey) (n : Nat) (ws : List Write) : (s.putFixed k n ws).measurements = s.measurements := rfl
@[simp] theorem State.putFixed_regs (s : State) (k : GKey) (n : Nat) (ws : List Write) : (s.putFixed k n ws).regs = s.regs := rfl
@[simp] theorem State.putFixed_events (s : State) (k : GKey) (n : Nat) (ws : List Write) : (s.putFixed k n ws).events = s.events := rfl
@[simp] theorem State.putFixed_overflow (s : State) (k : GKey) (n : Nat) (ws : List Write) : (s.putFixed k n ws).overflow = s.overflow := rfl
@[simp] theorem State.putFixed_armed (s : State) (k : GKey) (n : Nat) (ws : List Write) : (s.putFixed k n ws).armed = s.armed := rfl
@[simp] theorem State.putFixed_msi0 (s : State) (k : GKey) (n : Nat) (ws : List Write) : (s.putFixed k n ws).msi0 = s.msi0 := rfl
@[simp] theorem State.putFixed_msi1 (s : State) (k : GKey) (n : Nat) (ws : List Write) : (s.putFixed k n ws).msi1 = s.msi1 := rfl
@[simp] theorem State.putFixed_audit (s : State) (k : GKey) (n : Nat) (ws : List Write) : (s.putFixed k n ws).audit = s.audit := rfl
@[simp] theorem State.putFixed_cmdDone (s : State) (k : GKey) (n : Nat) (ws : List Write) : (s.putFixed k n ws).cmdDone = s.cmdDone := rfl
@[simp] theorem State.putFixed_spdm (s : State) (k : GKey) (n : Nat) (ws : List Write) : (s.putFixed k n ws).spdm = s.spdm := rfl
@[simp] theorem State.putFixed_lost (s : State) (k : GKey) (n : Nat) (ws : List Write) : (s.putFixed k n ws).lost = s.lost := rfl
@[simp] theorem State.putFixed_nextLaunch (s : State) (k : GKey) (n : Nat) (ws : List Write) : (s.putFixed k n ws).nextLaunch = s.nextLaunch := rfl
@[simp] theorem State.putFixed_refusedLaunches (s : State) (k : GKey) (n : Nat) (ws : List Write) : (s.putFixed k n ws).refusedLaunches = s.refusedLaunches := rfl
@[simp] theorem State.putFixed_evicted (s : State) (k : GKey) (n : Nat) (ws : List Write) : (s.putFixed k n ws).evicted = s.evicted := rfl
@[simp] theorem State.putFixed_extRead (s : State) (k : GKey) (n : Nat) (ws : List Write) : (s.putFixed k n ws).extRead = s.extRead := rfl
@[simp] theorem State.putFixed_powered (s : State) (k : GKey) (n : Nat) (ws : List Write) : (s.putFixed k n ws).powered = s.powered := rfl

/- ### putVar -/

@[simp] theorem State.putVar_clk (s : State) (k : GKey) (ws : List Write) (l : List Nat) : (s.putVar k ws l).clk = s.clk := rfl
@[simp] theorem State.putVar_tick (s : State) (k : GKey) (ws : List Write) (l : List Nat) : (s.putVar k ws l).tick = s.tick := rfl
@[simp] theorem State.putVar_turn (s : State) (k : GKey) (ws : List Write) (l : List Nat) : (s.putVar k ws l).turn = s.turn := rfl
@[simp] theorem State.putVar_inbox (s : State) (k : GKey) (ws : List Write) (l : List Nat) : (s.putVar k ws l).inbox = s.inbox := rfl
@[simp] theorem State.putVar_cur (s : State) (k : GKey) (ws : List Write) (l : List Nat) : (s.putVar k ws l).cur = s.cur := rfl
@[simp] theorem State.putVar_instances (s : State) (k : GKey) (ws : List Write) (l : List Nat) : (s.putVar k ws l).instances = s.instances := rfl
@[simp] theorem State.putVar_completing (s : State) (k : GKey) (ws : List Write) (l : List Nat) : (s.putVar k ws l).completing = s.completing := rfl
@[simp] theorem State.putVar_late (s : State) (k : GKey) (ws : List Write) (l : List Nat) : (s.putVar k ws l).late = s.late := rfl
@[simp] theorem State.putVar_renewed (s : State) (k : GKey) (ws : List Write) (l : List Nat) : (s.putVar k ws l).renewed = s.renewed := rfl
@[simp] theorem State.putVar_issuing (s : State) (k : GKey) (ws : List Write) (l : List Nat) : (s.putVar k ws l).issuing = s.issuing := rfl
@[simp] theorem State.putVar_teams (s : State) (k : GKey) (ws : List Write) (l : List Nat) : (s.putVar k ws l).teams = s.teams := rfl
@[simp] theorem State.putVar_launches (s : State) (k : GKey) (ws : List Write) (l : List Nat) : (s.putVar k ws l).launches = s.launches := rfl
@[simp] theorem State.putVar_ctxs (s : State) (k : GKey) (ws : List Write) (l : List Nat) : (s.putVar k ws l).ctxs = s.ctxs := rfl
@[simp] theorem State.putVar_cores (s : State) (k : GKey) (ws : List Write) (l : List Nat) : (s.putVar k ws l).cores = s.cores := rfl
@[simp] theorem State.putVar_mem (s : State) (k : GKey) (ws : List Write) (l : List Nat) : (s.putVar k ws l).mem = s.mem := rfl
@[simp] theorem State.putVar_poison (s : State) (k : GKey) (ws : List Write) (l : List Nat) : (s.putVar k ws l).poison = s.poison := rfl
@[simp] theorem State.putVar_hostMem (s : State) (k : GKey) (ws : List Write) (l : List Nat) : (s.putVar k ws l).hostMem = s.hostMem := rfl
@[simp] theorem State.putVar_peerMem (s : State) (k : GKey) (ws : List Write) (l : List Nat) : (s.putVar k ws l).peerMem = s.peerMem := rfl
@[simp] theorem State.putVar_bufs (s : State) (k : GKey) (ws : List Write) (l : List Nat) : (s.putVar k ws l).bufs = s.bufs := rfl
@[simp] theorem State.putVar_bufBase (s : State) (k : GKey) (ws : List Write) (l : List Nat) : (s.putVar k ws l).bufBase = s.bufBase := rfl
@[simp] theorem State.putVar_transit (s : State) (k : GKey) (ws : List Write) (l : List Nat) : (s.putVar k ws l).transit = s.transit := rfl
@[simp] theorem State.putVar_moveAt (s : State) (k : GKey) (ws : List Write) (l : List Nat) : (s.putVar k ws l).moveAt = s.moveAt := rfl
@[simp] theorem State.putVar_frames (s : State) (k : GKey) (ws : List Write) (l : List Nat) : (s.putVar k ws l).frames = s.frames := rfl
@[simp] theorem State.putVar_lastLine (s : State) (k : GKey) (ws : List Write) (l : List Nat) : (s.putVar k ws l).lastLine = s.lastLine := rfl
@[simp] theorem State.putVar_hot (s : State) (k : GKey) (ws : List Write) (l : List Nat) : (s.putVar k ws l).hot = s.hot := rfl
@[simp] theorem State.putVar_retained (s : State) (k : GKey) (ws : List Write) (l : List Nat) : (s.putVar k ws l).retained = s.retained := rfl
@[simp] theorem State.putVar_readCopies (s : State) (k : GKey) (ws : List Write) (l : List Nat) : (s.putVar k ws l).readCopies = s.readCopies := rfl
@[simp] theorem State.putVar_dirty (s : State) (k : GKey) (ws : List Write) (l : List Nat) : (s.putVar k ws l).dirty = s.dirty := rfl
@[simp] theorem State.putVar_cells (s : State) (k : GKey) (ws : List Write) (l : List Nat) : (s.putVar k ws l).cells = s.cells := rfl
@[simp] theorem State.putVar_lodge (s : State) (k : GKey) (ws : List Write) (l : List Nat) : (s.putVar k ws l).lodge = s.lodge := rfl
@[simp] theorem State.putVar_slots (s : State) (k : GKey) (ws : List Write) (l : List Nat) : (s.putVar k ws l).slots = s.slots := rfl
@[simp] theorem State.putVar_slotWait (s : State) (k : GKey) (ws : List Write) (l : List Nat) : (s.putVar k ws l).slotWait = s.slotWait := rfl
@[simp] theorem State.putVar_harvest (s : State) (k : GKey) (ws : List Write) (l : List Nat) : (s.putVar k ws l).harvest = s.harvest := rfl
@[simp] theorem State.putVar_repair (s : State) (k : GKey) (ws : List Write) (l : List Nat) : (s.putVar k ws l).repair = s.repair := rfl
@[simp] theorem State.putVar_delays (s : State) (k : GKey) (ws : List Write) (l : List Nat) : (s.putVar k ws l).delays = s.delays := rfl
@[simp] theorem State.putVar_limits (s : State) (k : GKey) (ws : List Write) (l : List Nat) : (s.putVar k ws l).limits = s.limits := rfl
@[simp] theorem State.putVar_measurements (s : State) (k : GKey) (ws : List Write) (l : List Nat) : (s.putVar k ws l).measurements = s.measurements := rfl
@[simp] theorem State.putVar_regs (s : State) (k : GKey) (ws : List Write) (l : List Nat) : (s.putVar k ws l).regs = s.regs := rfl
@[simp] theorem State.putVar_events (s : State) (k : GKey) (ws : List Write) (l : List Nat) : (s.putVar k ws l).events = s.events := rfl
@[simp] theorem State.putVar_overflow (s : State) (k : GKey) (ws : List Write) (l : List Nat) : (s.putVar k ws l).overflow = s.overflow := rfl
@[simp] theorem State.putVar_armed (s : State) (k : GKey) (ws : List Write) (l : List Nat) : (s.putVar k ws l).armed = s.armed := rfl
@[simp] theorem State.putVar_msi0 (s : State) (k : GKey) (ws : List Write) (l : List Nat) : (s.putVar k ws l).msi0 = s.msi0 := rfl
@[simp] theorem State.putVar_msi1 (s : State) (k : GKey) (ws : List Write) (l : List Nat) : (s.putVar k ws l).msi1 = s.msi1 := rfl
@[simp] theorem State.putVar_audit (s : State) (k : GKey) (ws : List Write) (l : List Nat) : (s.putVar k ws l).audit = s.audit := rfl
@[simp] theorem State.putVar_cmdDone (s : State) (k : GKey) (ws : List Write) (l : List Nat) : (s.putVar k ws l).cmdDone = s.cmdDone := rfl
@[simp] theorem State.putVar_spdm (s : State) (k : GKey) (ws : List Write) (l : List Nat) : (s.putVar k ws l).spdm = s.spdm := rfl
@[simp] theorem State.putVar_lost (s : State) (k : GKey) (ws : List Write) (l : List Nat) : (s.putVar k ws l).lost = s.lost := rfl
@[simp] theorem State.putVar_nextLaunch (s : State) (k : GKey) (ws : List Write) (l : List Nat) : (s.putVar k ws l).nextLaunch = s.nextLaunch := rfl
@[simp] theorem State.putVar_refusedLaunches (s : State) (k : GKey) (ws : List Write) (l : List Nat) : (s.putVar k ws l).refusedLaunches = s.refusedLaunches := rfl
@[simp] theorem State.putVar_evicted (s : State) (k : GKey) (ws : List Write) (l : List Nat) : (s.putVar k ws l).evicted = s.evicted := rfl
@[simp] theorem State.putVar_extRead (s : State) (k : GKey) (ws : List Write) (l : List Nat) : (s.putVar k ws l).extRead = s.extRead := rfl
@[simp] theorem State.putVar_powered (s : State) (k : GKey) (ws : List Write) (l : List Nat) : (s.putVar k ws l).powered = s.powered := rfl

/- ### atIssue -/

@[simp] theorem State.atIssue_clk (s : State) (k : GKey) (cur : Issue) : (s.atIssue k cur).clk = s.clk := rfl
@[simp] theorem State.atIssue_tick (s : State) (k : GKey) (cur : Issue) : (s.atIssue k cur).tick = s.tick := rfl
@[simp] theorem State.atIssue_turn (s : State) (k : GKey) (cur : Issue) : (s.atIssue k cur).turn = s.turn := rfl
@[simp] theorem State.atIssue_inbox (s : State) (k : GKey) (cur : Issue) : (s.atIssue k cur).inbox = s.inbox := rfl
@[simp] theorem State.atIssue_instances (s : State) (k : GKey) (cur : Issue) : (s.atIssue k cur).instances = s.instances := rfl
@[simp] theorem State.atIssue_completing (s : State) (k : GKey) (cur : Issue) : (s.atIssue k cur).completing = s.completing := rfl
@[simp] theorem State.atIssue_late (s : State) (k : GKey) (cur : Issue) : (s.atIssue k cur).late = s.late := rfl
@[simp] theorem State.atIssue_renewed (s : State) (k : GKey) (cur : Issue) : (s.atIssue k cur).renewed = s.renewed := rfl
@[simp] theorem State.atIssue_issuing (s : State) (k : GKey) (cur : Issue) : (s.atIssue k cur).issuing = s.issuing := rfl
@[simp] theorem State.atIssue_teams (s : State) (k : GKey) (cur : Issue) : (s.atIssue k cur).teams = s.teams := rfl
@[simp] theorem State.atIssue_launches (s : State) (k : GKey) (cur : Issue) : (s.atIssue k cur).launches = s.launches := rfl
@[simp] theorem State.atIssue_ctxs (s : State) (k : GKey) (cur : Issue) : (s.atIssue k cur).ctxs = s.ctxs := rfl
@[simp] theorem State.atIssue_cores (s : State) (k : GKey) (cur : Issue) : (s.atIssue k cur).cores = s.cores := rfl
@[simp] theorem State.atIssue_mem (s : State) (k : GKey) (cur : Issue) : (s.atIssue k cur).mem = s.mem := rfl
@[simp] theorem State.atIssue_poison (s : State) (k : GKey) (cur : Issue) : (s.atIssue k cur).poison = s.poison := rfl
@[simp] theorem State.atIssue_hostMem (s : State) (k : GKey) (cur : Issue) : (s.atIssue k cur).hostMem = s.hostMem := rfl
@[simp] theorem State.atIssue_peerMem (s : State) (k : GKey) (cur : Issue) : (s.atIssue k cur).peerMem = s.peerMem := rfl
@[simp] theorem State.atIssue_bufs (s : State) (k : GKey) (cur : Issue) : (s.atIssue k cur).bufs = s.bufs := rfl
@[simp] theorem State.atIssue_bufBase (s : State) (k : GKey) (cur : Issue) : (s.atIssue k cur).bufBase = s.bufBase := rfl
@[simp] theorem State.atIssue_transit (s : State) (k : GKey) (cur : Issue) : (s.atIssue k cur).transit = s.transit := rfl
@[simp] theorem State.atIssue_moveAt (s : State) (k : GKey) (cur : Issue) : (s.atIssue k cur).moveAt = s.moveAt := rfl
@[simp] theorem State.atIssue_frames (s : State) (k : GKey) (cur : Issue) : (s.atIssue k cur).frames = s.frames := rfl
@[simp] theorem State.atIssue_lastLine (s : State) (k : GKey) (cur : Issue) : (s.atIssue k cur).lastLine = s.lastLine := rfl
@[simp] theorem State.atIssue_hot (s : State) (k : GKey) (cur : Issue) : (s.atIssue k cur).hot = s.hot := rfl
@[simp] theorem State.atIssue_retained (s : State) (k : GKey) (cur : Issue) : (s.atIssue k cur).retained = s.retained := rfl
@[simp] theorem State.atIssue_readCopies (s : State) (k : GKey) (cur : Issue) : (s.atIssue k cur).readCopies = s.readCopies := rfl
@[simp] theorem State.atIssue_dirty (s : State) (k : GKey) (cur : Issue) : (s.atIssue k cur).dirty = s.dirty := rfl
@[simp] theorem State.atIssue_cells (s : State) (k : GKey) (cur : Issue) : (s.atIssue k cur).cells = s.cells := rfl
@[simp] theorem State.atIssue_lodge (s : State) (k : GKey) (cur : Issue) : (s.atIssue k cur).lodge = s.lodge := rfl
@[simp] theorem State.atIssue_slots (s : State) (k : GKey) (cur : Issue) : (s.atIssue k cur).slots = s.slots := rfl
@[simp] theorem State.atIssue_slotWait (s : State) (k : GKey) (cur : Issue) : (s.atIssue k cur).slotWait = s.slotWait := rfl
@[simp] theorem State.atIssue_harvest (s : State) (k : GKey) (cur : Issue) : (s.atIssue k cur).harvest = s.harvest := rfl
@[simp] theorem State.atIssue_repair (s : State) (k : GKey) (cur : Issue) : (s.atIssue k cur).repair = s.repair := rfl
@[simp] theorem State.atIssue_delays (s : State) (k : GKey) (cur : Issue) : (s.atIssue k cur).delays = s.delays := rfl
@[simp] theorem State.atIssue_limits (s : State) (k : GKey) (cur : Issue) : (s.atIssue k cur).limits = s.limits := rfl
@[simp] theorem State.atIssue_measurements (s : State) (k : GKey) (cur : Issue) : (s.atIssue k cur).measurements = s.measurements := rfl
@[simp] theorem State.atIssue_regs (s : State) (k : GKey) (cur : Issue) : (s.atIssue k cur).regs = s.regs := rfl
@[simp] theorem State.atIssue_events (s : State) (k : GKey) (cur : Issue) : (s.atIssue k cur).events = s.events := rfl
@[simp] theorem State.atIssue_overflow (s : State) (k : GKey) (cur : Issue) : (s.atIssue k cur).overflow = s.overflow := rfl
@[simp] theorem State.atIssue_armed (s : State) (k : GKey) (cur : Issue) : (s.atIssue k cur).armed = s.armed := rfl
@[simp] theorem State.atIssue_msi0 (s : State) (k : GKey) (cur : Issue) : (s.atIssue k cur).msi0 = s.msi0 := rfl
@[simp] theorem State.atIssue_msi1 (s : State) (k : GKey) (cur : Issue) : (s.atIssue k cur).msi1 = s.msi1 := rfl
@[simp] theorem State.atIssue_audit (s : State) (k : GKey) (cur : Issue) : (s.atIssue k cur).audit = s.audit := rfl
@[simp] theorem State.atIssue_cmdDone (s : State) (k : GKey) (cur : Issue) : (s.atIssue k cur).cmdDone = s.cmdDone := rfl
@[simp] theorem State.atIssue_spdm (s : State) (k : GKey) (cur : Issue) : (s.atIssue k cur).spdm = s.spdm := rfl
@[simp] theorem State.atIssue_lost (s : State) (k : GKey) (cur : Issue) : (s.atIssue k cur).lost = s.lost := rfl
@[simp] theorem State.atIssue_nextLaunch (s : State) (k : GKey) (cur : Issue) : (s.atIssue k cur).nextLaunch = s.nextLaunch := rfl
@[simp] theorem State.atIssue_refusedLaunches (s : State) (k : GKey) (cur : Issue) : (s.atIssue k cur).refusedLaunches = s.refusedLaunches := rfl
@[simp] theorem State.atIssue_evicted (s : State) (k : GKey) (cur : Issue) : (s.atIssue k cur).evicted = s.evicted := rfl
@[simp] theorem State.atIssue_extRead (s : State) (k : GKey) (cur : Issue) : (s.atIssue k cur).extRead = s.extRead := rfl
@[simp] theorem State.atIssue_powered (s : State) (k : GKey) (cur : Issue) : (s.atIssue k cur).powered = s.powered := rfl

/- ### tickOn -/

@[simp] theorem State.tickOn_inbox (s : State) : (s.tickOn).inbox = s.inbox := rfl
@[simp] theorem State.tickOn_cur (s : State) : (s.tickOn).cur = s.cur := rfl
@[simp] theorem State.tickOn_completing (s : State) : (s.tickOn).completing = s.completing := rfl
@[simp] theorem State.tickOn_late (s : State) : (s.tickOn).late = s.late := rfl
@[simp] theorem State.tickOn_renewed (s : State) : (s.tickOn).renewed = s.renewed := rfl
@[simp] theorem State.tickOn_issuing (s : State) : (s.tickOn).issuing = s.issuing := rfl
@[simp] theorem State.tickOn_teams (s : State) : (s.tickOn).teams = s.teams := rfl
@[simp] theorem State.tickOn_launches (s : State) : (s.tickOn).launches = s.launches := rfl
@[simp] theorem State.tickOn_ctxs (s : State) : (s.tickOn).ctxs = s.ctxs := rfl
@[simp] theorem State.tickOn_cores (s : State) : (s.tickOn).cores = s.cores := rfl
@[simp] theorem State.tickOn_mem (s : State) : (s.tickOn).mem = s.mem := rfl
@[simp] theorem State.tickOn_poison (s : State) : (s.tickOn).poison = s.poison := rfl
@[simp] theorem State.tickOn_hostMem (s : State) : (s.tickOn).hostMem = s.hostMem := rfl
@[simp] theorem State.tickOn_peerMem (s : State) : (s.tickOn).peerMem = s.peerMem := rfl
@[simp] theorem State.tickOn_bufs (s : State) : (s.tickOn).bufs = s.bufs := rfl
@[simp] theorem State.tickOn_bufBase (s : State) : (s.tickOn).bufBase = s.bufBase := rfl
@[simp] theorem State.tickOn_transit (s : State) : (s.tickOn).transit = s.transit := rfl
@[simp] theorem State.tickOn_moveAt (s : State) : (s.tickOn).moveAt = s.moveAt := rfl
@[simp] theorem State.tickOn_frames (s : State) : (s.tickOn).frames = s.frames := rfl
@[simp] theorem State.tickOn_lastLine (s : State) : (s.tickOn).lastLine = s.lastLine := rfl
@[simp] theorem State.tickOn_hot (s : State) : (s.tickOn).hot = s.hot := rfl
@[simp] theorem State.tickOn_retained (s : State) : (s.tickOn).retained = s.retained := rfl
@[simp] theorem State.tickOn_readCopies (s : State) : (s.tickOn).readCopies = s.readCopies := rfl
@[simp] theorem State.tickOn_dirty (s : State) : (s.tickOn).dirty = s.dirty := rfl
@[simp] theorem State.tickOn_cells (s : State) : (s.tickOn).cells = s.cells := rfl
@[simp] theorem State.tickOn_lodge (s : State) : (s.tickOn).lodge = s.lodge := rfl
@[simp] theorem State.tickOn_slots (s : State) : (s.tickOn).slots = s.slots := rfl
@[simp] theorem State.tickOn_slotWait (s : State) : (s.tickOn).slotWait = s.slotWait := rfl
@[simp] theorem State.tickOn_harvest (s : State) : (s.tickOn).harvest = s.harvest := rfl
@[simp] theorem State.tickOn_repair (s : State) : (s.tickOn).repair = s.repair := rfl
@[simp] theorem State.tickOn_delays (s : State) : (s.tickOn).delays = s.delays := rfl
@[simp] theorem State.tickOn_limits (s : State) : (s.tickOn).limits = s.limits := rfl
@[simp] theorem State.tickOn_measurements (s : State) : (s.tickOn).measurements = s.measurements := rfl
@[simp] theorem State.tickOn_regs (s : State) : (s.tickOn).regs = s.regs := rfl
@[simp] theorem State.tickOn_events (s : State) : (s.tickOn).events = s.events := rfl
@[simp] theorem State.tickOn_overflow (s : State) : (s.tickOn).overflow = s.overflow := rfl
@[simp] theorem State.tickOn_armed (s : State) : (s.tickOn).armed = s.armed := rfl
@[simp] theorem State.tickOn_msi0 (s : State) : (s.tickOn).msi0 = s.msi0 := rfl
@[simp] theorem State.tickOn_msi1 (s : State) : (s.tickOn).msi1 = s.msi1 := rfl
@[simp] theorem State.tickOn_audit (s : State) : (s.tickOn).audit = s.audit := rfl
@[simp] theorem State.tickOn_cmdDone (s : State) : (s.tickOn).cmdDone = s.cmdDone := rfl
@[simp] theorem State.tickOn_spdm (s : State) : (s.tickOn).spdm = s.spdm := rfl
@[simp] theorem State.tickOn_lost (s : State) : (s.tickOn).lost = s.lost := rfl
@[simp] theorem State.tickOn_nextLaunch (s : State) : (s.tickOn).nextLaunch = s.nextLaunch := rfl
@[simp] theorem State.tickOn_refusedLaunches (s : State) : (s.tickOn).refusedLaunches = s.refusedLaunches := rfl
@[simp] theorem State.tickOn_evicted (s : State) : (s.tickOn).evicted = s.evicted := rfl
@[simp] theorem State.tickOn_extRead (s : State) : (s.tickOn).extRead = s.extRead := rfl
@[simp] theorem State.tickOn_powered (s : State) : (s.tickOn).powered = s.powered := rfl

/- ### Group.moveLanes -/

@[simp] theorem Group.moveLanes_key (g : Group) (m : Mask) (pc : Word) (pos : Option ClausePos) : (g.moveLanes m pc pos).key = g.key := rfl
@[simp] theorem Group.moveLanes_ctx (g : Group) (m : Mask) (pc : Word) (pos : Option ClausePos) : (g.moveLanes m pc pos).ctx = g.ctx := rfl
@[simp] theorem Group.moveLanes_core (g : Group) (m : Mask) (pc : Word) (pos : Option ClausePos) : (g.moveLanes m pc pos).core = g.core := rfl
@[simp] theorem Group.moveLanes_part (g : Group) (m : Mask) (pc : Word) (pos : Option ClausePos) : (g.moveLanes m pc pos).part = g.part := rfl
@[simp] theorem Group.moveLanes_party (g : Group) (m : Mask) (pc : Word) (pos : Option ClausePos) : (g.moveLanes m pc pos).party = g.party := rfl
@[simp] theorem Group.moveLanes_resident (g : Group) (m : Mask) (pc : Word) (pos : Option ClausePos) : (g.moveLanes m pc pos).resident = g.resident := rfl
@[simp] theorem Group.moveLanes_slot (g : Group) (m : Mask) (pc : Word) (pos : Option ClausePos) : (g.moveLanes m pc pos).slot = g.slot := rfl
@[simp] theorem Group.moveLanes_nv (g : Group) (m : Mask) (pc : Word) (pos : Option ClausePos) : (g.moveLanes m pc pos).nv = g.nv := rfl
@[simp] theorem Group.moveLanes_ns (g : Group) (m : Mask) (pc : Word) (pos : Option ClausePos) : (g.moveLanes m pc pos).ns = g.ns := rfl
@[simp] theorem Group.moveLanes_ny (g : Group) (m : Mask) (pc : Word) (pos : Option ClausePos) : (g.moveLanes m pc pos).ny = g.ny := rfl
@[simp] theorem Group.moveLanes_live (g : Group) (m : Mask) (pc : Word) (pos : Option ClausePos) : (g.moveLanes m pc pos).live = g.live := rfl
@[simp] theorem Group.moveLanes_m (g : Group) (m : Mask) (pc : Word) (pos : Option ClausePos) : (g.moveLanes m pc pos).m = g.m := rfl
@[simp] theorem Group.moveLanes_lc (g : Group) (m : Mask) (pc : Word) (pos : Option ClausePos) : (g.moveLanes m pc pos).lc = g.lc := rfl
@[simp] theorem Group.moveLanes_levels (g : Group) (m : Mask) (pc : Word) (pos : Option ClausePos) : (g.moveLanes m pc pos).levels = g.levels := rfl
@[simp] theorem Group.moveLanes_q (g : Group) (m : Mask) (pc : Word) (pos : Option ClausePos) : (g.moveLanes m pc pos).q = g.q := rfl
@[simp] theorem Group.moveLanes_s (g : Group) (m : Mask) (pc : Word) (pos : Option ClausePos) : (g.moveLanes m pc pos).s = g.s := rfl
@[simp] theorem Group.moveLanes_v (g : Group) (m : Mask) (pc : Word) (pos : Option ClausePos) : (g.moveLanes m pc pos).v = g.v := rfl
@[simp] theorem Group.moveLanes_y (g : Group) (m : Mask) (pc : Word) (pos : Option ClausePos) : (g.moveLanes m pc pos).y = g.y := rfl
@[simp] theorem Group.moveLanes_sb (g : Group) (m : Mask) (pc : Word) (pos : Option ClausePos) : (g.moveLanes m pc pos).sb = g.sb := rfl
@[simp] theorem Group.moveLanes_inFlight (g : Group) (m : Mask) (pc : Word) (pos : Option ClausePos) : (g.moveLanes m pc pos).inFlight = g.inFlight := rfl
@[simp] theorem Group.moveLanes_pending (g : Group) (m : Mask) (pc : Word) (pos : Option ClausePos) : (g.moveLanes m pc pos).pending = g.pending := rfl
@[simp] theorem Group.moveLanes_nextIssue (g : Group) (m : Mask) (pc : Word) (pos : Option ClausePos) : (g.moveLanes m pc pos).nextIssue = g.nextIssue := rfl
@[simp] theorem Group.moveLanes_drain (g : Group) (m : Mask) (pc : Word) (pos : Option ClausePos) : (g.moveLanes m pc pos).drain = g.drain := rfl
@[simp] theorem Group.moveLanes_checks (g : Group) (m : Mask) (pc : Word) (pos : Option ClausePos) : (g.moveLanes m pc pos).checks = g.checks := rfl
@[simp] theorem Group.moveLanes_deciding (g : Group) (m : Mask) (pc : Word) (pos : Option ClausePos) : (g.moveLanes m pc pos).deciding = g.deciding := rfl
@[simp] theorem Group.moveLanes_ipBad (g : Group) (m : Mask) (pc : Word) (pos : Option ClausePos) : (g.moveLanes m pc pos).ipBad = g.ipBad := rfl
@[simp] theorem Group.moveLanes_yielding (g : Group) (m : Mask) (pc : Word) (pos : Option ClausePos) : (g.moveLanes m pc pos).yielding = g.yielding := rfl
@[simp] theorem Group.moveLanes_heldSince (g : Group) (m : Mask) (pc : Word) (pos : Option ClausePos) : (g.moveLanes m pc pos).heldSince = g.heldSince := rfl
@[simp] theorem Group.moveLanes_outgoing (g : Group) (m : Mask) (pc : Word) (pos : Option ClausePos) : (g.moveLanes m pc pos).outgoing = g.outgoing := rfl
@[simp] theorem Group.moveLanes_lastIssue (g : Group) (m : Mask) (pc : Word) (pos : Option ClausePos) : (g.moveLanes m pc pos).lastIssue = g.lastIssue := rfl
@[simp] theorem Group.moveLanes_sigG (g : Group) (m : Mask) (pc : Word) (pos : Option ClausePos) : (g.moveLanes m pc pos).sigG = g.sigG := rfl
@[simp] theorem Group.moveLanes_sigP (g : Group) (m : Mask) (pc : Word) (pos : Option ClausePos) : (g.moveLanes m pc pos).sigP = g.sigP := rfl
@[simp] theorem Group.moveLanes_sigT (g : Group) (m : Mask) (pc : Word) (pos : Option ClausePos) : (g.moveLanes m pc pos).sigT = g.sigT := rfl
@[simp] theorem Group.moveLanes_cvg (g : Group) (m : Mask) (pc : Word) (pos : Option ClausePos) : (g.moveLanes m pc pos).cvg = g.cvg := rfl
@[simp] theorem Group.moveLanes_fpstat (g : Group) (m : Mask) (pc : Word) (pos : Option ClausePos) : (g.moveLanes m pc pos).fpstat = g.fpstat := rfl
@[simp] theorem Group.moveLanes_bank (g : Group) (m : Mask) (pc : Word) (pos : Option ClausePos) : (g.moveLanes m pc pos).bank = g.bank := rfl
@[simp] theorem Group.moveLanes_arrivals (g : Group) (m : Mask) (pc : Word) (pos : Option ClausePos) : (g.moveLanes m pc pos).arrivals = g.arrivals := rfl
@[simp] theorem Group.moveLanes_arrivedAt (g : Group) (m : Mask) (pc : Word) (pos : Option ClausePos) : (g.moveLanes m pc pos).arrivedAt = g.arrivedAt := rfl
@[simp] theorem Group.moveLanes_fault (g : Group) (m : Mask) (pc : Word) (pos : Option ClausePos) : (g.moveLanes m pc pos).fault = g.fault := rfl
@[simp] theorem Group.moveLanes_arrived (g : Group) (m : Mask) (pc : Word) (pos : Option ClausePos) : (g.moveLanes m pc pos).arrived = g.arrived := rfl
@[simp] theorem Group.moveLanes_resume (g : Group) (m : Mask) (pc : Word) (pos : Option ClausePos) : (g.moveLanes m pc pos).resume = g.resume := rfl
@[simp] theorem Group.moveLanes_resume0 (g : Group) (m : Mask) (pc : Word) (pos : Option ClausePos) : (g.moveLanes m pc pos).resume0 = g.resume0 := rfl
@[simp] theorem Group.moveLanes_faultNext (g : Group) (m : Mask) (pc : Word) (pos : Option ClausePos) : (g.moveLanes m pc pos).faultNext = g.faultNext := rfl
@[simp] theorem Group.moveLanes_faultPos (g : Group) (m : Mask) (pc : Word) (pos : Option ClausePos) : (g.moveLanes m pc pos).faultPos = g.faultPos := rfl
@[simp] theorem Group.moveLanes_inh (g : Group) (m : Mask) (pc : Word) (pos : Option ClausePos) : (g.moveLanes m pc pos).inh = g.inh := rfl
@[simp] theorem Group.moveLanes_mask (g : Group) (m : Mask) (pc : Word) (pos : Option ClausePos) : (g.moveLanes m pc pos).mask = g.mask := rfl
@[simp] theorem Group.moveLanes_susp (g : Group) (m : Mask) (pc : Word) (pos : Option ClausePos) : (g.moveLanes m pc pos).susp = g.susp := rfl
@[simp] theorem Group.moveLanes_dstop (g : Group) (m : Mask) (pc : Word) (pos : Option ClausePos) : (g.moveLanes m pc pos).dstop = g.dstop := rfl
@[simp] theorem Group.moveLanes_entries (g : Group) (m : Mask) (pc : Word) (pos : Option ClausePos) : (g.moveLanes m pc pos).entries = g.entries := rfl
@[simp] theorem Group.moveLanes_hpc (g : Group) (m : Mask) (pc : Word) (pos : Option ClausePos) : (g.moveLanes m pc pos).hpc = g.hpc := rfl
@[simp] theorem Group.moveLanes_hpos (g : Group) (m : Mask) (pc : Word) (pos : Option ClausePos) : (g.moveLanes m pc pos).hpos = g.hpos := rfl
@[simp] theorem Group.moveLanes_stepOne (g : Group) (m : Mask) (pc : Word) (pos : Option ClausePos) : (g.moveLanes m pc pos).stepOne = g.stepOne := rfl
@[simp] theorem Group.moveLanes_broke (g : Group) (m : Mask) (pc : Word) (pos : Option ClausePos) : (g.moveLanes m pc pos).broke = g.broke := rfl
@[simp] theorem Group.moveLanes_sbWait (g : Group) (m : Mask) (pc : Word) (pos : Option ClausePos) : (g.moveLanes m pc pos).sbWait = g.sbWait := rfl
@[simp] theorem Group.moveLanes_rteWait (g : Group) (m : Mask) (pc : Word) (pos : Option ClausePos) : (g.moveLanes m pc pos).rteWait = g.rteWait := rfl
@[simp] theorem Group.moveLanes_stopped (g : Group) (m : Mask) (pc : Word) (pos : Option ClausePos) : (g.moveLanes m pc pos).stopped = g.stopped := rfl
@[simp] theorem Group.moveLanes_lateFault (g : Group) (m : Mask) (pc : Word) (pos : Option ClausePos) : (g.moveLanes m pc pos).lateFault = g.lateFault := rfl
@[simp] theorem Group.moveLanes_spanHold (g : Group) (m : Mask) (pc : Word) (pos : Option ClausePos) : (g.moveLanes m pc pos).spanHold = g.spanHold := rfl
@[simp] theorem Group.moveLanes_vsts (g : Group) (m : Mask) (pc : Word) (pos : Option ClausePos) : (g.moveLanes m pc pos).vsts = g.vsts := rfl
@[simp] theorem Group.moveLanes_publish (g : Group) (m : Mask) (pc : Word) (pos : Option ClausePos) : (g.moveLanes m pc pos).publish = g.publish := rfl

/- ### Group.setWait -/

@[simp] theorem Group.setWait_key (g : Group) (m : Mask) (w : LaneWait) : (g.setWait m w).key = g.key := rfl
@[simp] theorem Group.setWait_ctx (g : Group) (m : Mask) (w : LaneWait) : (g.setWait m w).ctx = g.ctx := rfl
@[simp] theorem Group.setWait_core (g : Group) (m : Mask) (w : LaneWait) : (g.setWait m w).core = g.core := rfl
@[simp] theorem Group.setWait_part (g : Group) (m : Mask) (w : LaneWait) : (g.setWait m w).part = g.part := rfl
@[simp] theorem Group.setWait_party (g : Group) (m : Mask) (w : LaneWait) : (g.setWait m w).party = g.party := rfl
@[simp] theorem Group.setWait_resident (g : Group) (m : Mask) (w : LaneWait) : (g.setWait m w).resident = g.resident := rfl
@[simp] theorem Group.setWait_slot (g : Group) (m : Mask) (w : LaneWait) : (g.setWait m w).slot = g.slot := rfl
@[simp] theorem Group.setWait_nv (g : Group) (m : Mask) (w : LaneWait) : (g.setWait m w).nv = g.nv := rfl
@[simp] theorem Group.setWait_ns (g : Group) (m : Mask) (w : LaneWait) : (g.setWait m w).ns = g.ns := rfl
@[simp] theorem Group.setWait_ny (g : Group) (m : Mask) (w : LaneWait) : (g.setWait m w).ny = g.ny := rfl
@[simp] theorem Group.setWait_pcs (g : Group) (m : Mask) (w : LaneWait) : (g.setWait m w).pcs = g.pcs := rfl
@[simp] theorem Group.setWait_clause (g : Group) (m : Mask) (w : LaneWait) : (g.setWait m w).clause = g.clause := rfl
@[simp] theorem Group.setWait_live (g : Group) (m : Mask) (w : LaneWait) : (g.setWait m w).live = g.live := rfl
@[simp] theorem Group.setWait_m (g : Group) (m : Mask) (w : LaneWait) : (g.setWait m w).m = g.m := rfl
@[simp] theorem Group.setWait_lc (g : Group) (m : Mask) (w : LaneWait) : (g.setWait m w).lc = g.lc := rfl
@[simp] theorem Group.setWait_levels (g : Group) (m : Mask) (w : LaneWait) : (g.setWait m w).levels = g.levels := rfl
@[simp] theorem Group.setWait_q (g : Group) (m : Mask) (w : LaneWait) : (g.setWait m w).q = g.q := rfl
@[simp] theorem Group.setWait_s (g : Group) (m : Mask) (w : LaneWait) : (g.setWait m w).s = g.s := rfl
@[simp] theorem Group.setWait_v (g : Group) (m : Mask) (w : LaneWait) : (g.setWait m w).v = g.v := rfl
@[simp] theorem Group.setWait_y (g : Group) (m : Mask) (w : LaneWait) : (g.setWait m w).y = g.y := rfl
@[simp] theorem Group.setWait_sb (g : Group) (m : Mask) (w : LaneWait) : (g.setWait m w).sb = g.sb := rfl
@[simp] theorem Group.setWait_inFlight (g : Group) (m : Mask) (w : LaneWait) : (g.setWait m w).inFlight = g.inFlight := rfl
@[simp] theorem Group.setWait_pending (g : Group) (m : Mask) (w : LaneWait) : (g.setWait m w).pending = g.pending := rfl
@[simp] theorem Group.setWait_nextIssue (g : Group) (m : Mask) (w : LaneWait) : (g.setWait m w).nextIssue = g.nextIssue := rfl
@[simp] theorem Group.setWait_drain (g : Group) (m : Mask) (w : LaneWait) : (g.setWait m w).drain = g.drain := rfl
@[simp] theorem Group.setWait_checks (g : Group) (m : Mask) (w : LaneWait) : (g.setWait m w).checks = g.checks := rfl
@[simp] theorem Group.setWait_deciding (g : Group) (m : Mask) (w : LaneWait) : (g.setWait m w).deciding = g.deciding := rfl
@[simp] theorem Group.setWait_ipBad (g : Group) (m : Mask) (w : LaneWait) : (g.setWait m w).ipBad = g.ipBad := rfl
@[simp] theorem Group.setWait_yielding (g : Group) (m : Mask) (w : LaneWait) : (g.setWait m w).yielding = g.yielding := rfl
@[simp] theorem Group.setWait_heldSince (g : Group) (m : Mask) (w : LaneWait) : (g.setWait m w).heldSince = g.heldSince := rfl
@[simp] theorem Group.setWait_outgoing (g : Group) (m : Mask) (w : LaneWait) : (g.setWait m w).outgoing = g.outgoing := rfl
@[simp] theorem Group.setWait_lastIssue (g : Group) (m : Mask) (w : LaneWait) : (g.setWait m w).lastIssue = g.lastIssue := rfl
@[simp] theorem Group.setWait_sigG (g : Group) (m : Mask) (w : LaneWait) : (g.setWait m w).sigG = g.sigG := rfl
@[simp] theorem Group.setWait_sigP (g : Group) (m : Mask) (w : LaneWait) : (g.setWait m w).sigP = g.sigP := rfl
@[simp] theorem Group.setWait_sigT (g : Group) (m : Mask) (w : LaneWait) : (g.setWait m w).sigT = g.sigT := rfl
@[simp] theorem Group.setWait_cvg (g : Group) (m : Mask) (w : LaneWait) : (g.setWait m w).cvg = g.cvg := rfl
@[simp] theorem Group.setWait_fpstat (g : Group) (m : Mask) (w : LaneWait) : (g.setWait m w).fpstat = g.fpstat := rfl
@[simp] theorem Group.setWait_bank (g : Group) (m : Mask) (w : LaneWait) : (g.setWait m w).bank = g.bank := rfl
@[simp] theorem Group.setWait_arrivals (g : Group) (m : Mask) (w : LaneWait) : (g.setWait m w).arrivals = g.arrivals := rfl
@[simp] theorem Group.setWait_arrivedAt (g : Group) (m : Mask) (w : LaneWait) : (g.setWait m w).arrivedAt = g.arrivedAt := rfl
@[simp] theorem Group.setWait_fault (g : Group) (m : Mask) (w : LaneWait) : (g.setWait m w).fault = g.fault := rfl
@[simp] theorem Group.setWait_arrived (g : Group) (m : Mask) (w : LaneWait) : (g.setWait m w).arrived = g.arrived := rfl
@[simp] theorem Group.setWait_resume (g : Group) (m : Mask) (w : LaneWait) : (g.setWait m w).resume = g.resume := rfl
@[simp] theorem Group.setWait_resume0 (g : Group) (m : Mask) (w : LaneWait) : (g.setWait m w).resume0 = g.resume0 := rfl
@[simp] theorem Group.setWait_faultNext (g : Group) (m : Mask) (w : LaneWait) : (g.setWait m w).faultNext = g.faultNext := rfl
@[simp] theorem Group.setWait_faultPos (g : Group) (m : Mask) (w : LaneWait) : (g.setWait m w).faultPos = g.faultPos := rfl
@[simp] theorem Group.setWait_inh (g : Group) (m : Mask) (w : LaneWait) : (g.setWait m w).inh = g.inh := rfl
@[simp] theorem Group.setWait_mask (g : Group) (m : Mask) (w : LaneWait) : (g.setWait m w).mask = g.mask := rfl
@[simp] theorem Group.setWait_susp (g : Group) (m : Mask) (w : LaneWait) : (g.setWait m w).susp = g.susp := rfl
@[simp] theorem Group.setWait_dstop (g : Group) (m : Mask) (w : LaneWait) : (g.setWait m w).dstop = g.dstop := rfl
@[simp] theorem Group.setWait_entries (g : Group) (m : Mask) (w : LaneWait) : (g.setWait m w).entries = g.entries := rfl
@[simp] theorem Group.setWait_hpc (g : Group) (m : Mask) (w : LaneWait) : (g.setWait m w).hpc = g.hpc := rfl
@[simp] theorem Group.setWait_hpos (g : Group) (m : Mask) (w : LaneWait) : (g.setWait m w).hpos = g.hpos := rfl
@[simp] theorem Group.setWait_stepOne (g : Group) (m : Mask) (w : LaneWait) : (g.setWait m w).stepOne = g.stepOne := rfl
@[simp] theorem Group.setWait_broke (g : Group) (m : Mask) (w : LaneWait) : (g.setWait m w).broke = g.broke := rfl
@[simp] theorem Group.setWait_sbWait (g : Group) (m : Mask) (w : LaneWait) : (g.setWait m w).sbWait = g.sbWait := rfl
@[simp] theorem Group.setWait_rteWait (g : Group) (m : Mask) (w : LaneWait) : (g.setWait m w).rteWait = g.rteWait := rfl
@[simp] theorem Group.setWait_stopped (g : Group) (m : Mask) (w : LaneWait) : (g.setWait m w).stopped = g.stopped := rfl
@[simp] theorem Group.setWait_lateFault (g : Group) (m : Mask) (w : LaneWait) : (g.setWait m w).lateFault = g.lateFault := rfl
@[simp] theorem Group.setWait_spanHold (g : Group) (m : Mask) (w : LaneWait) : (g.setWait m w).spanHold = g.spanHold := rfl
@[simp] theorem Group.setWait_vsts (g : Group) (m : Mask) (w : LaneWait) : (g.setWait m w).vsts = g.vsts := rfl
@[simp] theorem Group.setWait_publish (g : Group) (m : Mask) (w : LaneWait) : (g.setWait m w).publish = g.publish := rfl

/- ### Group.stamp -/

@[simp] theorem Group.stamp_key (g : Group) (clk : Nat) (c : Ctl) (d : Desc) (pen : Nat) (yields wanted : Bool) : (g.stamp clk c d pen yields wanted).key = g.key := rfl
@[simp] theorem Group.stamp_ctx (g : Group) (clk : Nat) (c : Ctl) (d : Desc) (pen : Nat) (yields wanted : Bool) : (g.stamp clk c d pen yields wanted).ctx = g.ctx := rfl
@[simp] theorem Group.stamp_core (g : Group) (clk : Nat) (c : Ctl) (d : Desc) (pen : Nat) (yields wanted : Bool) : (g.stamp clk c d pen yields wanted).core = g.core := rfl
@[simp] theorem Group.stamp_part (g : Group) (clk : Nat) (c : Ctl) (d : Desc) (pen : Nat) (yields wanted : Bool) : (g.stamp clk c d pen yields wanted).part = g.part := rfl
@[simp] theorem Group.stamp_party (g : Group) (clk : Nat) (c : Ctl) (d : Desc) (pen : Nat) (yields wanted : Bool) : (g.stamp clk c d pen yields wanted).party = g.party := rfl
@[simp] theorem Group.stamp_resident (g : Group) (clk : Nat) (c : Ctl) (d : Desc) (pen : Nat) (yields wanted : Bool) : (g.stamp clk c d pen yields wanted).resident = g.resident := rfl
@[simp] theorem Group.stamp_slot (g : Group) (clk : Nat) (c : Ctl) (d : Desc) (pen : Nat) (yields wanted : Bool) : (g.stamp clk c d pen yields wanted).slot = g.slot := rfl
@[simp] theorem Group.stamp_nv (g : Group) (clk : Nat) (c : Ctl) (d : Desc) (pen : Nat) (yields wanted : Bool) : (g.stamp clk c d pen yields wanted).nv = g.nv := rfl
@[simp] theorem Group.stamp_ns (g : Group) (clk : Nat) (c : Ctl) (d : Desc) (pen : Nat) (yields wanted : Bool) : (g.stamp clk c d pen yields wanted).ns = g.ns := rfl
@[simp] theorem Group.stamp_ny (g : Group) (clk : Nat) (c : Ctl) (d : Desc) (pen : Nat) (yields wanted : Bool) : (g.stamp clk c d pen yields wanted).ny = g.ny := rfl
@[simp] theorem Group.stamp_pcs (g : Group) (clk : Nat) (c : Ctl) (d : Desc) (pen : Nat) (yields wanted : Bool) : (g.stamp clk c d pen yields wanted).pcs = g.pcs := rfl
@[simp] theorem Group.stamp_clause (g : Group) (clk : Nat) (c : Ctl) (d : Desc) (pen : Nat) (yields wanted : Bool) : (g.stamp clk c d pen yields wanted).clause = g.clause := rfl
@[simp] theorem Group.stamp_live (g : Group) (clk : Nat) (c : Ctl) (d : Desc) (pen : Nat) (yields wanted : Bool) : (g.stamp clk c d pen yields wanted).live = g.live := rfl
@[simp] theorem Group.stamp_wait (g : Group) (clk : Nat) (c : Ctl) (d : Desc) (pen : Nat) (yields wanted : Bool) : (g.stamp clk c d pen yields wanted).wait = g.wait := rfl
@[simp] theorem Group.stamp_m (g : Group) (clk : Nat) (c : Ctl) (d : Desc) (pen : Nat) (yields wanted : Bool) : (g.stamp clk c d pen yields wanted).m = g.m := rfl
@[simp] theorem Group.stamp_lc (g : Group) (clk : Nat) (c : Ctl) (d : Desc) (pen : Nat) (yields wanted : Bool) : (g.stamp clk c d pen yields wanted).lc = g.lc := rfl
@[simp] theorem Group.stamp_levels (g : Group) (clk : Nat) (c : Ctl) (d : Desc) (pen : Nat) (yields wanted : Bool) : (g.stamp clk c d pen yields wanted).levels = g.levels := rfl
@[simp] theorem Group.stamp_q (g : Group) (clk : Nat) (c : Ctl) (d : Desc) (pen : Nat) (yields wanted : Bool) : (g.stamp clk c d pen yields wanted).q = g.q := rfl
@[simp] theorem Group.stamp_s (g : Group) (clk : Nat) (c : Ctl) (d : Desc) (pen : Nat) (yields wanted : Bool) : (g.stamp clk c d pen yields wanted).s = g.s := rfl
@[simp] theorem Group.stamp_v (g : Group) (clk : Nat) (c : Ctl) (d : Desc) (pen : Nat) (yields wanted : Bool) : (g.stamp clk c d pen yields wanted).v = g.v := rfl
@[simp] theorem Group.stamp_y (g : Group) (clk : Nat) (c : Ctl) (d : Desc) (pen : Nat) (yields wanted : Bool) : (g.stamp clk c d pen yields wanted).y = g.y := rfl
@[simp] theorem Group.stamp_sb (g : Group) (clk : Nat) (c : Ctl) (d : Desc) (pen : Nat) (yields wanted : Bool) : (g.stamp clk c d pen yields wanted).sb = g.sb := rfl
@[simp] theorem Group.stamp_inFlight (g : Group) (clk : Nat) (c : Ctl) (d : Desc) (pen : Nat) (yields wanted : Bool) : (g.stamp clk c d pen yields wanted).inFlight = g.inFlight := rfl
@[simp] theorem Group.stamp_pending (g : Group) (clk : Nat) (c : Ctl) (d : Desc) (pen : Nat) (yields wanted : Bool) : (g.stamp clk c d pen yields wanted).pending = g.pending := rfl
@[simp] theorem Group.stamp_deciding (g : Group) (clk : Nat) (c : Ctl) (d : Desc) (pen : Nat) (yields wanted : Bool) : (g.stamp clk c d pen yields wanted).deciding = g.deciding := rfl
@[simp] theorem Group.stamp_ipBad (g : Group) (clk : Nat) (c : Ctl) (d : Desc) (pen : Nat) (yields wanted : Bool) : (g.stamp clk c d pen yields wanted).ipBad = g.ipBad := rfl
@[simp] theorem Group.stamp_sigG (g : Group) (clk : Nat) (c : Ctl) (d : Desc) (pen : Nat) (yields wanted : Bool) : (g.stamp clk c d pen yields wanted).sigG = g.sigG := rfl
@[simp] theorem Group.stamp_sigP (g : Group) (clk : Nat) (c : Ctl) (d : Desc) (pen : Nat) (yields wanted : Bool) : (g.stamp clk c d pen yields wanted).sigP = g.sigP := rfl
@[simp] theorem Group.stamp_sigT (g : Group) (clk : Nat) (c : Ctl) (d : Desc) (pen : Nat) (yields wanted : Bool) : (g.stamp clk c d pen yields wanted).sigT = g.sigT := rfl
@[simp] theorem Group.stamp_cvg (g : Group) (clk : Nat) (c : Ctl) (d : Desc) (pen : Nat) (yields wanted : Bool) : (g.stamp clk c d pen yields wanted).cvg = g.cvg := rfl
@[simp] theorem Group.stamp_fpstat (g : Group) (clk : Nat) (c : Ctl) (d : Desc) (pen : Nat) (yields wanted : Bool) : (g.stamp clk c d pen yields wanted).fpstat = g.fpstat := rfl
@[simp] theorem Group.stamp_bank (g : Group) (clk : Nat) (c : Ctl) (d : Desc) (pen : Nat) (yields wanted : Bool) : (g.stamp clk c d pen yields wanted).bank = g.bank := rfl
@[simp] theorem Group.stamp_arrivals (g : Group) (clk : Nat) (c : Ctl) (d : Desc) (pen : Nat) (yields wanted : Bool) : (g.stamp clk c d pen yields wanted).arrivals = g.arrivals := rfl
@[simp] theorem Group.stamp_arrivedAt (g : Group) (clk : Nat) (c : Ctl) (d : Desc) (pen : Nat) (yields wanted : Bool) : (g.stamp clk c d pen yields wanted).arrivedAt = g.arrivedAt := rfl
@[simp] theorem Group.stamp_fault (g : Group) (clk : Nat) (c : Ctl) (d : Desc) (pen : Nat) (yields wanted : Bool) : (g.stamp clk c d pen yields wanted).fault = g.fault := rfl
@[simp] theorem Group.stamp_arrived (g : Group) (clk : Nat) (c : Ctl) (d : Desc) (pen : Nat) (yields wanted : Bool) : (g.stamp clk c d pen yields wanted).arrived = g.arrived := rfl
@[simp] theorem Group.stamp_resume (g : Group) (clk : Nat) (c : Ctl) (d : Desc) (pen : Nat) (yields wanted : Bool) : (g.stamp clk c d pen yields wanted).resume = g.resume := rfl
@[simp] theorem Group.stamp_resume0 (g : Group) (clk : Nat) (c : Ctl) (d : Desc) (pen : Nat) (yields wanted : Bool) : (g.stamp clk c d pen yields wanted).resume0 = g.resume0 := rfl
@[simp] theorem Group.stamp_faultNext (g : Group) (clk : Nat) (c : Ctl) (d : Desc) (pen : Nat) (yields wanted : Bool) : (g.stamp clk c d pen yields wanted).faultNext = g.faultNext := rfl
@[simp] theorem Group.stamp_faultPos (g : Group) (clk : Nat) (c : Ctl) (d : Desc) (pen : Nat) (yields wanted : Bool) : (g.stamp clk c d pen yields wanted).faultPos = g.faultPos := rfl
@[simp] theorem Group.stamp_inh (g : Group) (clk : Nat) (c : Ctl) (d : Desc) (pen : Nat) (yields wanted : Bool) : (g.stamp clk c d pen yields wanted).inh = g.inh := rfl
@[simp] theorem Group.stamp_mask (g : Group) (clk : Nat) (c : Ctl) (d : Desc) (pen : Nat) (yields wanted : Bool) : (g.stamp clk c d pen yields wanted).mask = g.mask := rfl
@[simp] theorem Group.stamp_susp (g : Group) (clk : Nat) (c : Ctl) (d : Desc) (pen : Nat) (yields wanted : Bool) : (g.stamp clk c d pen yields wanted).susp = g.susp := rfl
@[simp] theorem Group.stamp_dstop (g : Group) (clk : Nat) (c : Ctl) (d : Desc) (pen : Nat) (yields wanted : Bool) : (g.stamp clk c d pen yields wanted).dstop = g.dstop := rfl
@[simp] theorem Group.stamp_entries (g : Group) (clk : Nat) (c : Ctl) (d : Desc) (pen : Nat) (yields wanted : Bool) : (g.stamp clk c d pen yields wanted).entries = g.entries := rfl
@[simp] theorem Group.stamp_hpc (g : Group) (clk : Nat) (c : Ctl) (d : Desc) (pen : Nat) (yields wanted : Bool) : (g.stamp clk c d pen yields wanted).hpc = g.hpc := rfl
@[simp] theorem Group.stamp_hpos (g : Group) (clk : Nat) (c : Ctl) (d : Desc) (pen : Nat) (yields wanted : Bool) : (g.stamp clk c d pen yields wanted).hpos = g.hpos := rfl
@[simp] theorem Group.stamp_sbWait (g : Group) (clk : Nat) (c : Ctl) (d : Desc) (pen : Nat) (yields wanted : Bool) : (g.stamp clk c d pen yields wanted).sbWait = g.sbWait := rfl
@[simp] theorem Group.stamp_rteWait (g : Group) (clk : Nat) (c : Ctl) (d : Desc) (pen : Nat) (yields wanted : Bool) : (g.stamp clk c d pen yields wanted).rteWait = g.rteWait := rfl
@[simp] theorem Group.stamp_stopped (g : Group) (clk : Nat) (c : Ctl) (d : Desc) (pen : Nat) (yields wanted : Bool) : (g.stamp clk c d pen yields wanted).stopped = g.stopped := rfl
@[simp] theorem Group.stamp_lateFault (g : Group) (clk : Nat) (c : Ctl) (d : Desc) (pen : Nat) (yields wanted : Bool) : (g.stamp clk c d pen yields wanted).lateFault = g.lateFault := rfl
@[simp] theorem Group.stamp_spanHold (g : Group) (clk : Nat) (c : Ctl) (d : Desc) (pen : Nat) (yields wanted : Bool) : (g.stamp clk c d pen yields wanted).spanHold = g.spanHold := rfl
@[simp] theorem Group.stamp_vsts (g : Group) (clk : Nat) (c : Ctl) (d : Desc) (pen : Nat) (yields wanted : Bool) : (g.stamp clk c d pen yields wanted).vsts = g.vsts := rfl
@[simp] theorem Group.stamp_publish (g : Group) (clk : Nat) (c : Ctl) (d : Desc) (pen : Nat) (yields wanted : Bool) : (g.stamp clk c d pen yields wanted).publish = g.publish := rfl

/- ### Group.dropAhead -/

@[simp] theorem Group.dropAhead_key (g : Group) : (g.dropAhead).key = g.key := rfl
@[simp] theorem Group.dropAhead_ctx (g : Group) : (g.dropAhead).ctx = g.ctx := rfl
@[simp] theorem Group.dropAhead_core (g : Group) : (g.dropAhead).core = g.core := rfl
@[simp] theorem Group.dropAhead_part (g : Group) : (g.dropAhead).part = g.part := rfl
@[simp] theorem Group.dropAhead_party (g : Group) : (g.dropAhead).party = g.party := rfl
@[simp] theorem Group.dropAhead_resident (g : Group) : (g.dropAhead).resident = g.resident := rfl
@[simp] theorem Group.dropAhead_slot (g : Group) : (g.dropAhead).slot = g.slot := rfl
@[simp] theorem Group.dropAhead_nv (g : Group) : (g.dropAhead).nv = g.nv := rfl
@[simp] theorem Group.dropAhead_ns (g : Group) : (g.dropAhead).ns = g.ns := rfl
@[simp] theorem Group.dropAhead_ny (g : Group) : (g.dropAhead).ny = g.ny := rfl
@[simp] theorem Group.dropAhead_pcs (g : Group) : (g.dropAhead).pcs = g.pcs := rfl
@[simp] theorem Group.dropAhead_clause (g : Group) : (g.dropAhead).clause = g.clause := rfl
@[simp] theorem Group.dropAhead_live (g : Group) : (g.dropAhead).live = g.live := rfl
@[simp] theorem Group.dropAhead_wait (g : Group) : (g.dropAhead).wait = g.wait := rfl
@[simp] theorem Group.dropAhead_m (g : Group) : (g.dropAhead).m = g.m := rfl
@[simp] theorem Group.dropAhead_lc (g : Group) : (g.dropAhead).lc = g.lc := rfl
@[simp] theorem Group.dropAhead_levels (g : Group) : (g.dropAhead).levels = g.levels := rfl
@[simp] theorem Group.dropAhead_s (g : Group) : (g.dropAhead).s = g.s := rfl
@[simp] theorem Group.dropAhead_v (g : Group) : (g.dropAhead).v = g.v := rfl
@[simp] theorem Group.dropAhead_y (g : Group) : (g.dropAhead).y = g.y := rfl
@[simp] theorem Group.dropAhead_sb (g : Group) : (g.dropAhead).sb = g.sb := rfl
@[simp] theorem Group.dropAhead_inFlight (g : Group) : (g.dropAhead).inFlight = g.inFlight := rfl
@[simp] theorem Group.dropAhead_pending (g : Group) : (g.dropAhead).pending = g.pending := rfl
@[simp] theorem Group.dropAhead_nextIssue (g : Group) : (g.dropAhead).nextIssue = g.nextIssue := rfl
@[simp] theorem Group.dropAhead_drain (g : Group) : (g.dropAhead).drain = g.drain := rfl
@[simp] theorem Group.dropAhead_checks (g : Group) : (g.dropAhead).checks = g.checks := rfl
@[simp] theorem Group.dropAhead_deciding (g : Group) : (g.dropAhead).deciding = g.deciding := rfl
@[simp] theorem Group.dropAhead_ipBad (g : Group) : (g.dropAhead).ipBad = g.ipBad := rfl
@[simp] theorem Group.dropAhead_yielding (g : Group) : (g.dropAhead).yielding = g.yielding := rfl
@[simp] theorem Group.dropAhead_heldSince (g : Group) : (g.dropAhead).heldSince = g.heldSince := rfl
@[simp] theorem Group.dropAhead_outgoing (g : Group) : (g.dropAhead).outgoing = g.outgoing := rfl
@[simp] theorem Group.dropAhead_lastIssue (g : Group) : (g.dropAhead).lastIssue = g.lastIssue := rfl
@[simp] theorem Group.dropAhead_sigG (g : Group) : (g.dropAhead).sigG = g.sigG := rfl
@[simp] theorem Group.dropAhead_sigP (g : Group) : (g.dropAhead).sigP = g.sigP := rfl
@[simp] theorem Group.dropAhead_sigT (g : Group) : (g.dropAhead).sigT = g.sigT := rfl
@[simp] theorem Group.dropAhead_cvg (g : Group) : (g.dropAhead).cvg = g.cvg := rfl
@[simp] theorem Group.dropAhead_fpstat (g : Group) : (g.dropAhead).fpstat = g.fpstat := rfl
@[simp] theorem Group.dropAhead_bank (g : Group) : (g.dropAhead).bank = g.bank := rfl
@[simp] theorem Group.dropAhead_arrivals (g : Group) : (g.dropAhead).arrivals = g.arrivals := rfl
@[simp] theorem Group.dropAhead_arrivedAt (g : Group) : (g.dropAhead).arrivedAt = g.arrivedAt := rfl
@[simp] theorem Group.dropAhead_fault (g : Group) : (g.dropAhead).fault = g.fault := rfl
@[simp] theorem Group.dropAhead_arrived (g : Group) : (g.dropAhead).arrived = g.arrived := rfl
@[simp] theorem Group.dropAhead_resume (g : Group) : (g.dropAhead).resume = g.resume := rfl
@[simp] theorem Group.dropAhead_resume0 (g : Group) : (g.dropAhead).resume0 = g.resume0 := rfl
@[simp] theorem Group.dropAhead_faultNext (g : Group) : (g.dropAhead).faultNext = g.faultNext := rfl
@[simp] theorem Group.dropAhead_faultPos (g : Group) : (g.dropAhead).faultPos = g.faultPos := rfl
@[simp] theorem Group.dropAhead_inh (g : Group) : (g.dropAhead).inh = g.inh := rfl
@[simp] theorem Group.dropAhead_mask (g : Group) : (g.dropAhead).mask = g.mask := rfl
@[simp] theorem Group.dropAhead_susp (g : Group) : (g.dropAhead).susp = g.susp := rfl
@[simp] theorem Group.dropAhead_dstop (g : Group) : (g.dropAhead).dstop = g.dstop := rfl
@[simp] theorem Group.dropAhead_entries (g : Group) : (g.dropAhead).entries = g.entries := rfl
@[simp] theorem Group.dropAhead_hpc (g : Group) : (g.dropAhead).hpc = g.hpc := rfl
@[simp] theorem Group.dropAhead_hpos (g : Group) : (g.dropAhead).hpos = g.hpos := rfl
@[simp] theorem Group.dropAhead_stepOne (g : Group) : (g.dropAhead).stepOne = g.stepOne := rfl
@[simp] theorem Group.dropAhead_broke (g : Group) : (g.dropAhead).broke = g.broke := rfl
@[simp] theorem Group.dropAhead_sbWait (g : Group) : (g.dropAhead).sbWait = g.sbWait := rfl
@[simp] theorem Group.dropAhead_rteWait (g : Group) : (g.dropAhead).rteWait = g.rteWait := rfl
@[simp] theorem Group.dropAhead_stopped (g : Group) : (g.dropAhead).stopped = g.stopped := rfl
@[simp] theorem Group.dropAhead_lateFault (g : Group) : (g.dropAhead).lateFault = g.lateFault := rfl
@[simp] theorem Group.dropAhead_spanHold (g : Group) : (g.dropAhead).spanHold = g.spanHold := rfl
@[simp] theorem Group.dropAhead_vsts (g : Group) : (g.dropAhead).vsts = g.vsts := rfl
@[simp] theorem Group.dropAhead_publish (g : Group) : (g.dropAhead).publish = g.publish := rfl

/- ### The state in which a group issues, and time -/


end Sys2Proof.Machine
end

