-- ==== Sys2Proof/Laws/Shared.lean ====
section
/-! SUPPORT. What the shared operations leave alone, one lemma for each field: host events, faults and halts, the reach of
an access, pending accesses, and the settling of a group. -/

namespace Sys2Proof.Machine

/-- What every step of a fold leaves alone, the fold leaves alone. -/
theorem foldl_keeps {α β γ : Type} (F : α → γ) (f : α → β → α) (h : ∀ a b, F (f a b) = F a) (l : List β) (a : α) : F (l.foldl f a) = F a := by
  induction l generalizing a with
  | nil => rfl
  | cons x t ih => rw [List.foldl_cons, ih, h]

/- ### ringEvent -/

@[simp] theorem State.ringEvent_clk (s : State) (e : Event) : (s.ringEvent e).clk = s.clk := by simp only [State.ringEvent]
@[simp] theorem State.ringEvent_tick (s : State) (e : Event) : (s.ringEvent e).tick = s.tick := by simp only [State.ringEvent]
@[simp] theorem State.ringEvent_turn (s : State) (e : Event) : (s.ringEvent e).turn = s.turn := by simp only [State.ringEvent]
@[simp] theorem State.ringEvent_inbox (s : State) (e : Event) : (s.ringEvent e).inbox = s.inbox := by simp only [State.ringEvent]
@[simp] theorem State.ringEvent_cur (s : State) (e : Event) : (s.ringEvent e).cur = s.cur := by simp only [State.ringEvent]
@[simp] theorem State.ringEvent_instances (s : State) (e : Event) : (s.ringEvent e).instances = s.instances := by simp only [State.ringEvent]
@[simp] theorem State.ringEvent_issuing (s : State) (e : Event) : (s.ringEvent e).issuing = s.issuing := by simp only [State.ringEvent]
@[simp] theorem State.ringEvent_completing (s : State) (e : Event) : (s.ringEvent e).completing = s.completing := by simp only [State.ringEvent]
@[simp] theorem State.ringEvent_teams (s : State) (e : Event) : (s.ringEvent e).teams = s.teams := by simp only [State.ringEvent]
@[simp] theorem State.ringEvent_launches (s : State) (e : Event) : (s.ringEvent e).launches = s.launches := by simp only [State.ringEvent]
@[simp] theorem State.ringEvent_ctxs (s : State) (e : Event) : (s.ringEvent e).ctxs = s.ctxs := by simp only [State.ringEvent]
@[simp] theorem State.ringEvent_groups (s : State) (e : Event) : (s.ringEvent e).groups = s.groups := by simp only [State.ringEvent]
@[simp] theorem State.ringEvent_cores (s : State) (e : Event) : (s.ringEvent e).cores = s.cores := by simp only [State.ringEvent]
@[simp] theorem State.ringEvent_mem (s : State) (e : Event) : (s.ringEvent e).mem = s.mem := by simp only [State.ringEvent]
@[simp] theorem State.ringEvent_poison (s : State) (e : Event) : (s.ringEvent e).poison = s.poison := by simp only [State.ringEvent]
@[simp] theorem State.ringEvent_peerMem (s : State) (e : Event) : (s.ringEvent e).peerMem = s.peerMem := by simp only [State.ringEvent]
@[simp] theorem State.ringEvent_bufs (s : State) (e : Event) : (s.ringEvent e).bufs = s.bufs := by simp only [State.ringEvent]
@[simp] theorem State.ringEvent_transit (s : State) (e : Event) : (s.ringEvent e).transit = s.transit := by simp only [State.ringEvent]
@[simp] theorem State.ringEvent_moveAt (s : State) (e : Event) : (s.ringEvent e).moveAt = s.moveAt := by simp only [State.ringEvent]
@[simp] theorem State.ringEvent_frames (s : State) (e : Event) : (s.ringEvent e).frames = s.frames := by simp only [State.ringEvent]
@[simp] theorem State.ringEvent_lastLine (s : State) (e : Event) : (s.ringEvent e).lastLine = s.lastLine := by simp only [State.ringEvent]
@[simp] theorem State.ringEvent_readCopies (s : State) (e : Event) : (s.ringEvent e).readCopies = s.readCopies := by simp only [State.ringEvent]
@[simp] theorem State.ringEvent_dirty (s : State) (e : Event) : (s.ringEvent e).dirty = s.dirty := by simp only [State.ringEvent]
@[simp] theorem State.ringEvent_cells (s : State) (e : Event) : (s.ringEvent e).cells = s.cells := by simp only [State.ringEvent]
@[simp] theorem State.ringEvent_lodge (s : State) (e : Event) : (s.ringEvent e).lodge = s.lodge := by simp only [State.ringEvent]
@[simp] theorem State.ringEvent_slots (s : State) (e : Event) : (s.ringEvent e).slots = s.slots := by simp only [State.ringEvent]
@[simp] theorem State.ringEvent_lost (s : State) (e : Event) : (s.ringEvent e).lost = s.lost := by simp only [State.ringEvent]
@[simp] theorem State.ringEvent_evicted (s : State) (e : Event) : (s.ringEvent e).evicted = s.evicted := by simp only [State.ringEvent]
@[simp] theorem State.ringEvent_renewed (s : State) (e : Event) : (s.ringEvent e).renewed = s.renewed := by simp only [State.ringEvent]
@[simp] theorem State.ringEvent_late (s : State) (e : Event) : (s.ringEvent e).late = s.late := by simp only [State.ringEvent]
@[simp] theorem State.ringEvent_retained (s : State) (e : Event) : (s.ringEvent e).retained = s.retained := by simp only [State.ringEvent]

/- ### setOverflow -/

@[simp] theorem State.setOverflow_clk (s : State) (d : Nat) (l : List Event) : (s.setOverflow d l).clk = s.clk := by simp only [State.setOverflow]
@[simp] theorem State.setOverflow_tick (s : State) (d : Nat) (l : List Event) : (s.setOverflow d l).tick = s.tick := by simp only [State.setOverflow]
@[simp] theorem State.setOverflow_turn (s : State) (d : Nat) (l : List Event) : (s.setOverflow d l).turn = s.turn := by simp only [State.setOverflow]
@[simp] theorem State.setOverflow_inbox (s : State) (d : Nat) (l : List Event) : (s.setOverflow d l).inbox = s.inbox := by simp only [State.setOverflow]
@[simp] theorem State.setOverflow_cur (s : State) (d : Nat) (l : List Event) : (s.setOverflow d l).cur = s.cur := by simp only [State.setOverflow]
@[simp] theorem State.setOverflow_instances (s : State) (d : Nat) (l : List Event) : (s.setOverflow d l).instances = s.instances := by simp only [State.setOverflow]
@[simp] theorem State.setOverflow_issuing (s : State) (d : Nat) (l : List Event) : (s.setOverflow d l).issuing = s.issuing := by simp only [State.setOverflow]
@[simp] theorem State.setOverflow_completing (s : State) (d : Nat) (l : List Event) : (s.setOverflow d l).completing = s.completing := by simp only [State.setOverflow]
@[simp] theorem State.setOverflow_teams (s : State) (d : Nat) (l : List Event) : (s.setOverflow d l).teams = s.teams := by simp only [State.setOverflow]
@[simp] theorem State.setOverflow_launches (s : State) (d : Nat) (l : List Event) : (s.setOverflow d l).launches = s.launches := by simp only [State.setOverflow]
@[simp] theorem State.setOverflow_ctxs (s : State) (d : Nat) (l : List Event) : (s.setOverflow d l).ctxs = s.ctxs := by simp only [State.setOverflow]
@[simp] theorem State.setOverflow_groups (s : State) (d : Nat) (l : List Event) : (s.setOverflow d l).groups = s.groups := by simp only [State.setOverflow]
@[simp] theorem State.setOverflow_cores (s : State) (d : Nat) (l : List Event) : (s.setOverflow d l).cores = s.cores := by simp only [State.setOverflow]
@[simp] theorem State.setOverflow_mem (s : State) (d : Nat) (l : List Event) : (s.setOverflow d l).mem = s.mem := by simp only [State.setOverflow]
@[simp] theorem State.setOverflow_poison (s : State) (d : Nat) (l : List Event) : (s.setOverflow d l).poison = s.poison := by simp only [State.setOverflow]
@[simp] theorem State.setOverflow_hostMem (s : State) (d : Nat) (l : List Event) : (s.setOverflow d l).hostMem = s.hostMem := by simp only [State.setOverflow]
@[simp] theorem State.setOverflow_peerMem (s : State) (d : Nat) (l : List Event) : (s.setOverflow d l).peerMem = s.peerMem := by simp only [State.setOverflow]
@[simp] theorem State.setOverflow_bufs (s : State) (d : Nat) (l : List Event) : (s.setOverflow d l).bufs = s.bufs := by simp only [State.setOverflow]
@[simp] theorem State.setOverflow_transit (s : State) (d : Nat) (l : List Event) : (s.setOverflow d l).transit = s.transit := by simp only [State.setOverflow]
@[simp] theorem State.setOverflow_moveAt (s : State) (d : Nat) (l : List Event) : (s.setOverflow d l).moveAt = s.moveAt := by simp only [State.setOverflow]
@[simp] theorem State.setOverflow_frames (s : State) (d : Nat) (l : List Event) : (s.setOverflow d l).frames = s.frames := by simp only [State.setOverflow]
@[simp] theorem State.setOverflow_lastLine (s : State) (d : Nat) (l : List Event) : (s.setOverflow d l).lastLine = s.lastLine := by simp only [State.setOverflow]
@[simp] theorem State.setOverflow_readCopies (s : State) (d : Nat) (l : List Event) : (s.setOverflow d l).readCopies = s.readCopies := by simp only [State.setOverflow]
@[simp] theorem State.setOverflow_dirty (s : State) (d : Nat) (l : List Event) : (s.setOverflow d l).dirty = s.dirty := by simp only [State.setOverflow]
@[simp] theorem State.setOverflow_cells (s : State) (d : Nat) (l : List Event) : (s.setOverflow d l).cells = s.cells := by simp only [State.setOverflow]
@[simp] theorem State.setOverflow_lodge (s : State) (d : Nat) (l : List Event) : (s.setOverflow d l).lodge = s.lodge := by simp only [State.setOverflow]
@[simp] theorem State.setOverflow_slots (s : State) (d : Nat) (l : List Event) : (s.setOverflow d l).slots = s.slots := by simp only [State.setOverflow]
@[simp] theorem State.setOverflow_regs (s : State) (d : Nat) (l : List Event) : (s.setOverflow d l).regs = s.regs := by simp only [State.setOverflow]
@[simp] theorem State.setOverflow_events (s : State) (d : Nat) (l : List Event) : (s.setOverflow d l).events = s.events := by simp only [State.setOverflow]
@[simp] theorem State.setOverflow_lost (s : State) (d : Nat) (l : List Event) : (s.setOverflow d l).lost = s.lost := by simp only [State.setOverflow]
@[simp] theorem State.setOverflow_evicted (s : State) (d : Nat) (l : List Event) : (s.setOverflow d l).evicted = s.evicted := by simp only [State.setOverflow]
@[simp] theorem State.setOverflow_renewed (s : State) (d : Nat) (l : List Event) : (s.setOverflow d l).renewed = s.renewed := by simp only [State.setOverflow]
@[simp] theorem State.setOverflow_late (s : State) (d : Nat) (l : List Event) : (s.setOverflow d l).late = s.late := by simp only [State.setOverflow]
@[simp] theorem State.setOverflow_retained (s : State) (d : Nat) (l : List Event) : (s.setOverflow d l).retained = s.retained := by simp only [State.setOverflow]

/- ### post -/

@[simp] theorem State.post_clk (s : State) (kind die ctx : Nat) (p0 : Word) (p1 : BitVec 64) : (s.post kind die ctx p0 p1).clk = s.clk := by simp only [State.post]; (repeat' split) <;> simp
@[simp] theorem State.post_tick (s : State) (kind die ctx : Nat) (p0 : Word) (p1 : BitVec 64) : (s.post kind die ctx p0 p1).tick = s.tick := by simp only [State.post]; (repeat' split) <;> simp
@[simp] theorem State.post_turn (s : State) (kind die ctx : Nat) (p0 : Word) (p1 : BitVec 64) : (s.post kind die ctx p0 p1).turn = s.turn := by simp only [State.post]; (repeat' split) <;> simp
@[simp] theorem State.post_inbox (s : State) (kind die ctx : Nat) (p0 : Word) (p1 : BitVec 64) : (s.post kind die ctx p0 p1).inbox = s.inbox := by simp only [State.post]; (repeat' split) <;> simp
@[simp] theorem State.post_cur (s : State) (kind die ctx : Nat) (p0 : Word) (p1 : BitVec 64) : (s.post kind die ctx p0 p1).cur = s.cur := by simp only [State.post]; (repeat' split) <;> simp
@[simp] theorem State.post_instances (s : State) (kind die ctx : Nat) (p0 : Word) (p1 : BitVec 64) : (s.post kind die ctx p0 p1).instances = s.instances := by simp only [State.post]; (repeat' split) <;> simp
@[simp] theorem State.post_issuing (s : State) (kind die ctx : Nat) (p0 : Word) (p1 : BitVec 64) : (s.post kind die ctx p0 p1).issuing = s.issuing := by simp only [State.post]; (repeat' split) <;> simp
@[simp] theorem State.post_completing (s : State) (kind die ctx : Nat) (p0 : Word) (p1 : BitVec 64) : (s.post kind die ctx p0 p1).completing = s.completing := by simp only [State.post]; (repeat' split) <;> simp
@[simp] theorem State.post_teams (s : State) (kind die ctx : Nat) (p0 : Word) (p1 : BitVec 64) : (s.post kind die ctx p0 p1).teams = s.teams := by simp only [State.post]; (repeat' split) <;> simp
@[simp] theorem State.post_launches (s : State) (kind die ctx : Nat) (p0 : Word) (p1 : BitVec 64) : (s.post kind die ctx p0 p1).launches = s.launches := by simp only [State.post]; (repeat' split) <;> simp
@[simp] theorem State.post_ctxs (s : State) (kind die ctx : Nat) (p0 : Word) (p1 : BitVec 64) : (s.post kind die ctx p0 p1).ctxs = s.ctxs := by simp only [State.post]; (repeat' split) <;> simp
@[simp] theorem State.post_groups (s : State) (kind die ctx : Nat) (p0 : Word) (p1 : BitVec 64) : (s.post kind die ctx p0 p1).groups = s.groups := by simp only [State.post]; (repeat' split) <;> simp
@[simp] theorem State.post_cores (s : State) (kind die ctx : Nat) (p0 : Word) (p1 : BitVec 64) : (s.post kind die ctx p0 p1).cores = s.cores := by simp only [State.post]; (repeat' split) <;> simp
@[simp] theorem State.post_mem (s : State) (kind die ctx : Nat) (p0 : Word) (p1 : BitVec 64) : (s.post kind die ctx p0 p1).mem = s.mem := by simp only [State.post]; (repeat' split) <;> simp
@[simp] theorem State.post_poison (s : State) (kind die ctx : Nat) (p0 : Word) (p1 : BitVec 64) : (s.post kind die ctx p0 p1).poison = s.poison := by simp only [State.post]; (repeat' split) <;> simp
@[simp] theorem State.post_peerMem (s : State) (kind die ctx : Nat) (p0 : Word) (p1 : BitVec 64) : (s.post kind die ctx p0 p1).peerMem = s.peerMem := by simp only [State.post]; (repeat' split) <;> simp
@[simp] theorem State.post_bufs (s : State) (kind die ctx : Nat) (p0 : Word) (p1 : BitVec 64) : (s.post kind die ctx p0 p1).bufs = s.bufs := by simp only [State.post]; (repeat' split) <;> simp
@[simp] theorem State.post_transit (s : State) (kind die ctx : Nat) (p0 : Word) (p1 : BitVec 64) : (s.post kind die ctx p0 p1).transit = s.transit := by simp only [State.post]; (repeat' split) <;> simp
@[simp] theorem State.post_moveAt (s : State) (kind die ctx : Nat) (p0 : Word) (p1 : BitVec 64) : (s.post kind die ctx p0 p1).moveAt = s.moveAt := by simp only [State.post]; (repeat' split) <;> simp
@[simp] theorem State.post_frames (s : State) (kind die ctx : Nat) (p0 : Word) (p1 : BitVec 64) : (s.post kind die ctx p0 p1).frames = s.frames := by simp only [State.post]; (repeat' split) <;> simp
@[simp] theorem State.post_lastLine (s : State) (kind die ctx : Nat) (p0 : Word) (p1 : BitVec 64) : (s.post kind die ctx p0 p1).lastLine = s.lastLine := by simp only [State.post]; (repeat' split) <;> simp
@[simp] theorem State.post_readCopies (s : State) (kind die ctx : Nat) (p0 : Word) (p1 : BitVec 64) : (s.post kind die ctx p0 p1).readCopies = s.readCopies := by simp only [State.post]; (repeat' split) <;> simp
@[simp] theorem State.post_dirty (s : State) (kind die ctx : Nat) (p0 : Word) (p1 : BitVec 64) : (s.post kind die ctx p0 p1).dirty = s.dirty := by simp only [State.post]; (repeat' split) <;> simp
@[simp] theorem State.post_cells (s : State) (kind die ctx : Nat) (p0 : Word) (p1 : BitVec 64) : (s.post kind die ctx p0 p1).cells = s.cells := by simp only [State.post]; (repeat' split) <;> simp
@[simp] theorem State.post_lodge (s : State) (kind die ctx : Nat) (p0 : Word) (p1 : BitVec 64) : (s.post kind die ctx p0 p1).lodge = s.lodge := by simp only [State.post]; (repeat' split) <;> simp
@[simp] theorem State.post_slots (s : State) (kind die ctx : Nat) (p0 : Word) (p1 : BitVec 64) : (s.post kind die ctx p0 p1).slots = s.slots := by simp only [State.post]; (repeat' split) <;> simp
@[simp] theorem State.post_lost (s : State) (kind die ctx : Nat) (p0 : Word) (p1 : BitVec 64) : (s.post kind die ctx p0 p1).lost = s.lost := by simp only [State.post]; (repeat' split) <;> simp
@[simp] theorem State.post_evicted (s : State) (kind die ctx : Nat) (p0 : Word) (p1 : BitVec 64) : (s.post kind die ctx p0 p1).evicted = s.evicted := by simp only [State.post]; (repeat' split) <;> simp
@[simp] theorem State.post_renewed (s : State) (kind die ctx : Nat) (p0 : Word) (p1 : BitVec 64) : (s.post kind die ctx p0 p1).renewed = s.renewed := by simp only [State.post]; (repeat' split) <;> simp
@[simp] theorem State.post_late (s : State) (kind die ctx : Nat) (p0 : Word) (p1 : BitVec 64) : (s.post kind die ctx p0 p1).late = s.late := by simp only [State.post]; (repeat' split) <;> simp
@[simp] theorem State.post_retained (s : State) (kind die ctx : Nat) (p0 : Word) (p1 : BitVec 64) : (s.post kind die ctx p0 p1).retained = s.retained := by simp only [State.post]; (repeat' split) <;> simp

/- ### touch -/

@[simp] theorem State.touch_clk (s : State) (ctx die : Nat) : (s.touch ctx die).clk = s.clk := by simp [State.touch]
@[simp] theorem State.touch_tick (s : State) (ctx die : Nat) : (s.touch ctx die).tick = s.tick := by simp [State.touch]
@[simp] theorem State.touch_turn (s : State) (ctx die : Nat) : (s.touch ctx die).turn = s.turn := by simp [State.touch]
@[simp] theorem State.touch_inbox (s : State) (ctx die : Nat) : (s.touch ctx die).inbox = s.inbox := by simp [State.touch]
@[simp] theorem State.touch_cur (s : State) (ctx die : Nat) : (s.touch ctx die).cur = s.cur := by simp [State.touch]
@[simp] theorem State.touch_instances (s : State) (ctx die : Nat) : (s.touch ctx die).instances = s.instances := by simp [State.touch]
@[simp] theorem State.touch_issuing (s : State) (ctx die : Nat) : (s.touch ctx die).issuing = s.issuing := by simp [State.touch]
@[simp] theorem State.touch_completing (s : State) (ctx die : Nat) : (s.touch ctx die).completing = s.completing := by simp [State.touch]
@[simp] theorem State.touch_teams (s : State) (ctx die : Nat) : (s.touch ctx die).teams = s.teams := by simp [State.touch]
@[simp] theorem State.touch_launches (s : State) (ctx die : Nat) : (s.touch ctx die).launches = s.launches := by simp [State.touch]
@[simp] theorem State.touch_groups (s : State) (ctx die : Nat) : (s.touch ctx die).groups = s.groups := by simp [State.touch]
@[simp] theorem State.touch_cores (s : State) (ctx die : Nat) : (s.touch ctx die).cores = s.cores := by simp [State.touch]
@[simp] theorem State.touch_mem (s : State) (ctx die : Nat) : (s.touch ctx die).mem = s.mem := by simp [State.touch]
@[simp] theorem State.touch_poison (s : State) (ctx die : Nat) : (s.touch ctx die).poison = s.poison := by simp [State.touch]
@[simp] theorem State.touch_hostMem (s : State) (ctx die : Nat) : (s.touch ctx die).hostMem = s.hostMem := by simp [State.touch]
@[simp] theorem State.touch_peerMem (s : State) (ctx die : Nat) : (s.touch ctx die).peerMem = s.peerMem := by simp [State.touch]
@[simp] theorem State.touch_bufs (s : State) (ctx die : Nat) : (s.touch ctx die).bufs = s.bufs := by simp [State.touch]
@[simp] theorem State.touch_transit (s : State) (ctx die : Nat) : (s.touch ctx die).transit = s.transit := by simp [State.touch]
@[simp] theorem State.touch_moveAt (s : State) (ctx die : Nat) : (s.touch ctx die).moveAt = s.moveAt := by simp [State.touch]
@[simp] theorem State.touch_frames (s : State) (ctx die : Nat) : (s.touch ctx die).frames = s.frames := by simp [State.touch]
@[simp] theorem State.touch_lastLine (s : State) (ctx die : Nat) : (s.touch ctx die).lastLine = s.lastLine := by simp [State.touch]
@[simp] theorem State.touch_readCopies (s : State) (ctx die : Nat) : (s.touch ctx die).readCopies = s.readCopies := by simp [State.touch]
@[simp] theorem State.touch_dirty (s : State) (ctx die : Nat) : (s.touch ctx die).dirty = s.dirty := by simp [State.touch]
@[simp] theorem State.touch_cells (s : State) (ctx die : Nat) : (s.touch ctx die).cells = s.cells := by simp [State.touch]
@[simp] theorem State.touch_lodge (s : State) (ctx die : Nat) : (s.touch ctx die).lodge = s.lodge := by simp [State.touch]
@[simp] theorem State.touch_slots (s : State) (ctx die : Nat) : (s.touch ctx die).slots = s.slots := by simp [State.touch]
@[simp] theorem State.touch_regs (s : State) (ctx die : Nat) : (s.touch ctx die).regs = s.regs := by simp [State.touch]
@[simp] theorem State.touch_events (s : State) (ctx die : Nat) : (s.touch ctx die).events = s.events := by simp [State.touch]
@[simp] theorem State.touch_lost (s : State) (ctx die : Nat) : (s.touch ctx die).lost = s.lost := by simp [State.touch]
@[simp] theorem State.touch_evicted (s : State) (ctx die : Nat) : (s.touch ctx die).evicted = s.evicted := by simp [State.touch]
@[simp] theorem State.touch_renewed (s : State) (ctx die : Nat) : (s.touch ctx die).renewed = s.renewed := by simp [State.touch]
@[simp] theorem State.touch_late (s : State) (ctx die : Nat) : (s.touch ctx die).late = s.late := by simp [State.touch]
@[simp] theorem State.touch_retained (s : State) (ctx die : Nat) : (s.touch ctx die).retained = s.retained := by simp [State.touch]

/- ### haltCtx -/

@[simp] theorem State.haltCtx_clk (s : State) (n cause : Nat) (p : FaultRec) : (s.haltCtx n cause p).clk = s.clk := by unfold State.haltCtx; (repeat' split) <;> simp
@[simp] theorem State.haltCtx_tick (s : State) (n cause : Nat) (p : FaultRec) : (s.haltCtx n cause p).tick = s.tick := by unfold State.haltCtx; (repeat' split) <;> simp
@[simp] theorem State.haltCtx_turn (s : State) (n cause : Nat) (p : FaultRec) : (s.haltCtx n cause p).turn = s.turn := by unfold State.haltCtx; (repeat' split) <;> simp
@[simp] theorem State.haltCtx_inbox (s : State) (n cause : Nat) (p : FaultRec) : (s.haltCtx n cause p).inbox = s.inbox := by unfold State.haltCtx; (repeat' split) <;> simp
@[simp] theorem State.haltCtx_cur (s : State) (n cause : Nat) (p : FaultRec) : (s.haltCtx n cause p).cur = s.cur := by unfold State.haltCtx; (repeat' split) <;> simp
@[simp] theorem State.haltCtx_instances (s : State) (n cause : Nat) (p : FaultRec) : (s.haltCtx n cause p).instances = s.instances := by unfold State.haltCtx; (repeat' split) <;> simp
@[simp] theorem State.haltCtx_issuing (s : State) (n cause : Nat) (p : FaultRec) : (s.haltCtx n cause p).issuing = s.issuing := by unfold State.haltCtx; (repeat' split) <;> simp
@[simp] theorem State.haltCtx_completing (s : State) (n cause : Nat) (p : FaultRec) : (s.haltCtx n cause p).completing = s.completing := by unfold State.haltCtx; (repeat' split) <;> simp
@[simp] theorem State.haltCtx_teams (s : State) (n cause : Nat) (p : FaultRec) : (s.haltCtx n cause p).teams = s.teams := by unfold State.haltCtx; (repeat' split) <;> simp
@[simp] theorem State.haltCtx_launches (s : State) (n cause : Nat) (p : FaultRec) : (s.haltCtx n cause p).launches = s.launches := by unfold State.haltCtx; (repeat' split) <;> simp
@[simp] theorem State.haltCtx_groups (s : State) (n cause : Nat) (p : FaultRec) : (s.haltCtx n cause p).groups = s.groups := by unfold State.haltCtx; (repeat' split) <;> simp
@[simp] theorem State.haltCtx_cores (s : State) (n cause : Nat) (p : FaultRec) : (s.haltCtx n cause p).cores = s.cores := by unfold State.haltCtx; (repeat' split) <;> simp
@[simp] theorem State.haltCtx_mem (s : State) (n cause : Nat) (p : FaultRec) : (s.haltCtx n cause p).mem = s.mem := by unfold State.haltCtx; (repeat' split) <;> simp
@[simp] theorem State.haltCtx_poison (s : State) (n cause : Nat) (p : FaultRec) : (s.haltCtx n cause p).poison = s.poison := by unfold State.haltCtx; (repeat' split) <;> simp
@[simp] theorem State.haltCtx_peerMem (s : State) (n cause : Nat) (p : FaultRec) : (s.haltCtx n cause p).peerMem = s.peerMem := by unfold State.haltCtx; (repeat' split) <;> simp
@[simp] theorem State.haltCtx_bufs (s : State) (n cause : Nat) (p : FaultRec) : (s.haltCtx n cause p).bufs = s.bufs := by unfold State.haltCtx; (repeat' split) <;> simp
@[simp] theorem State.haltCtx_transit (s : State) (n cause : Nat) (p : FaultRec) : (s.haltCtx n cause p).transit = s.transit := by unfold State.haltCtx; (repeat' split) <;> simp
@[simp] theorem State.haltCtx_moveAt (s : State) (n cause : Nat) (p : FaultRec) : (s.haltCtx n cause p).moveAt = s.moveAt := by unfold State.haltCtx; (repeat' split) <;> simp
@[simp] theorem State.haltCtx_frames (s : State) (n cause : Nat) (p : FaultRec) : (s.haltCtx n cause p).frames = s.frames := by unfold State.haltCtx; (repeat' split) <;> simp
@[simp] theorem State.haltCtx_lastLine (s : State) (n cause : Nat) (p : FaultRec) : (s.haltCtx n cause p).lastLine = s.lastLine := by unfold State.haltCtx; (repeat' split) <;> simp
@[simp] theorem State.haltCtx_readCopies (s : State) (n cause : Nat) (p : FaultRec) : (s.haltCtx n cause p).readCopies = s.readCopies := by unfold State.haltCtx; (repeat' split) <;> simp
@[simp] theorem State.haltCtx_dirty (s : State) (n cause : Nat) (p : FaultRec) : (s.haltCtx n cause p).dirty = s.dirty := by unfold State.haltCtx; (repeat' split) <;> simp
@[simp] theorem State.haltCtx_cells (s : State) (n cause : Nat) (p : FaultRec) : (s.haltCtx n cause p).cells = s.cells := by unfold State.haltCtx; (repeat' split) <;> simp
@[simp] theorem State.haltCtx_lodge (s : State) (n cause : Nat) (p : FaultRec) : (s.haltCtx n cause p).lodge = s.lodge := by unfold State.haltCtx; (repeat' split) <;> simp
@[simp] theorem State.haltCtx_slots (s : State) (n cause : Nat) (p : FaultRec) : (s.haltCtx n cause p).slots = s.slots := by unfold State.haltCtx; (repeat' split) <;> simp
@[simp] theorem State.haltCtx_lost (s : State) (n cause : Nat) (p : FaultRec) : (s.haltCtx n cause p).lost = s.lost := by unfold State.haltCtx; (repeat' split) <;> simp
@[simp] theorem State.haltCtx_evicted (s : State) (n cause : Nat) (p : FaultRec) : (s.haltCtx n cause p).evicted = s.evicted := by unfold State.haltCtx; (repeat' split) <;> simp
@[simp] theorem State.haltCtx_renewed (s : State) (n cause : Nat) (p : FaultRec) : (s.haltCtx n cause p).renewed = s.renewed := by unfold State.haltCtx; (repeat' split) <;> simp
@[simp] theorem State.haltCtx_late (s : State) (n cause : Nat) (p : FaultRec) : (s.haltCtx n cause p).late = s.late := by unfold State.haltCtx; (repeat' split) <;> simp
@[simp] theorem State.haltCtx_retained (s : State) (n cause : Nat) (p : FaultRec) : (s.haltCtx n cause p).retained = s.retained := by unfold State.haltCtx; (repeat' split) <;> simp

/- ### secondary -/

@[simp] theorem State.secondary_clk (s : State) (n : Nat) (r : FaultRec) (cut : Option (CKey × Nat)) : (s.secondary n r cut).clk = s.clk := by simp [State.secondary]
@[simp] theorem State.secondary_tick (s : State) (n : Nat) (r : FaultRec) (cut : Option (CKey × Nat)) : (s.secondary n r cut).tick = s.tick := by simp [State.secondary]
@[simp] theorem State.secondary_turn (s : State) (n : Nat) (r : FaultRec) (cut : Option (CKey × Nat)) : (s.secondary n r cut).turn = s.turn := by simp [State.secondary]
@[simp] theorem State.secondary_inbox (s : State) (n : Nat) (r : FaultRec) (cut : Option (CKey × Nat)) : (s.secondary n r cut).inbox = s.inbox := by simp [State.secondary]
@[simp] theorem State.secondary_cur (s : State) (n : Nat) (r : FaultRec) (cut : Option (CKey × Nat)) : (s.secondary n r cut).cur = s.cur := by simp [State.secondary]
@[simp] theorem State.secondary_instances (s : State) (n : Nat) (r : FaultRec) (cut : Option (CKey × Nat)) : (s.secondary n r cut).instances = s.instances := by simp [State.secondary]
@[simp] theorem State.secondary_issuing (s : State) (n : Nat) (r : FaultRec) (cut : Option (CKey × Nat)) : (s.secondary n r cut).issuing = s.issuing := by simp [State.secondary]
@[simp] theorem State.secondary_completing (s : State) (n : Nat) (r : FaultRec) (cut : Option (CKey × Nat)) : (s.secondary n r cut).completing = s.completing := by simp [State.secondary]
@[simp] theorem State.secondary_teams (s : State) (n : Nat) (r : FaultRec) (cut : Option (CKey × Nat)) : (s.secondary n r cut).teams = s.teams := by simp [State.secondary]
@[simp] theorem State.secondary_launches (s : State) (n : Nat) (r : FaultRec) (cut : Option (CKey × Nat)) : (s.secondary n r cut).launches = s.launches := by simp [State.secondary]
@[simp] theorem State.secondary_groups (s : State) (n : Nat) (r : FaultRec) (cut : Option (CKey × Nat)) : (s.secondary n r cut).groups = s.groups := by simp [State.secondary]
@[simp] theorem State.secondary_cores (s : State) (n : Nat) (r : FaultRec) (cut : Option (CKey × Nat)) : (s.secondary n r cut).cores = s.cores := by simp [State.secondary]
@[simp] theorem State.secondary_mem (s : State) (n : Nat) (r : FaultRec) (cut : Option (CKey × Nat)) : (s.secondary n r cut).mem = s.mem := by simp [State.secondary]
@[simp] theorem State.secondary_poison (s : State) (n : Nat) (r : FaultRec) (cut : Option (CKey × Nat)) : (s.secondary n r cut).poison = s.poison := by simp [State.secondary]
@[simp] theorem State.secondary_hostMem (s : State) (n : Nat) (r : FaultRec) (cut : Option (CKey × Nat)) : (s.secondary n r cut).hostMem = s.hostMem := by simp [State.secondary]
@[simp] theorem State.secondary_peerMem (s : State) (n : Nat) (r : FaultRec) (cut : Option (CKey × Nat)) : (s.secondary n r cut).peerMem = s.peerMem := by simp [State.secondary]
@[simp] theorem State.secondary_bufs (s : State) (n : Nat) (r : FaultRec) (cut : Option (CKey × Nat)) : (s.secondary n r cut).bufs = s.bufs := by simp [State.secondary]
@[simp] theorem State.secondary_transit (s : State) (n : Nat) (r : FaultRec) (cut : Option (CKey × Nat)) : (s.secondary n r cut).transit = s.transit := by simp [State.secondary]
@[simp] theorem State.secondary_moveAt (s : State) (n : Nat) (r : FaultRec) (cut : Option (CKey × Nat)) : (s.secondary n r cut).moveAt = s.moveAt := by simp [State.secondary]
@[simp] theorem State.secondary_frames (s : State) (n : Nat) (r : FaultRec) (cut : Option (CKey × Nat)) : (s.secondary n r cut).frames = s.frames := by simp [State.secondary]
@[simp] theorem State.secondary_lastLine (s : State) (n : Nat) (r : FaultRec) (cut : Option (CKey × Nat)) : (s.secondary n r cut).lastLine = s.lastLine := by simp [State.secondary]
@[simp] theorem State.secondary_readCopies (s : State) (n : Nat) (r : FaultRec) (cut : Option (CKey × Nat)) : (s.secondary n r cut).readCopies = s.readCopies := by simp [State.secondary]
@[simp] theorem State.secondary_dirty (s : State) (n : Nat) (r : FaultRec) (cut : Option (CKey × Nat)) : (s.secondary n r cut).dirty = s.dirty := by simp [State.secondary]
@[simp] theorem State.secondary_cells (s : State) (n : Nat) (r : FaultRec) (cut : Option (CKey × Nat)) : (s.secondary n r cut).cells = s.cells := by simp [State.secondary]
@[simp] theorem State.secondary_lodge (s : State) (n : Nat) (r : FaultRec) (cut : Option (CKey × Nat)) : (s.secondary n r cut).lodge = s.lodge := by simp [State.secondary]
@[simp] theorem State.secondary_slots (s : State) (n : Nat) (r : FaultRec) (cut : Option (CKey × Nat)) : (s.secondary n r cut).slots = s.slots := by simp [State.secondary]
@[simp] theorem State.secondary_regs (s : State) (n : Nat) (r : FaultRec) (cut : Option (CKey × Nat)) : (s.secondary n r cut).regs = s.regs := by simp [State.secondary]
@[simp] theorem State.secondary_events (s : State) (n : Nat) (r : FaultRec) (cut : Option (CKey × Nat)) : (s.secondary n r cut).events = s.events := by simp [State.secondary]
@[simp] theorem State.secondary_lost (s : State) (n : Nat) (r : FaultRec) (cut : Option (CKey × Nat)) : (s.secondary n r cut).lost = s.lost := by simp [State.secondary]
@[simp] theorem State.secondary_evicted (s : State) (n : Nat) (r : FaultRec) (cut : Option (CKey × Nat)) : (s.secondary n r cut).evicted = s.evicted := by simp [State.secondary]
@[simp] theorem State.secondary_renewed (s : State) (n : Nat) (r : FaultRec) (cut : Option (CKey × Nat)) : (s.secondary n r cut).renewed = s.renewed := by simp [State.secondary]
@[simp] theorem State.secondary_late (s : State) (n : Nat) (r : FaultRec) (cut : Option (CKey × Nat)) : (s.secondary n r cut).late = s.late := by simp [State.secondary]
@[simp] theorem State.secondary_retained (s : State) (n : Nat) (r : FaultRec) (cut : Option (CKey × Nat)) : (s.secondary n r cut).retained = s.retained := by simp [State.secondary]

/- ### meetLostAt -/

@[simp] theorem State.meetLostAt_clk (s : State) (n die : Nat) (cut : Option (CKey × Nat)) : (s.meetLostAt n die cut).clk = s.clk := by simp only [State.meetLostAt]; (repeat' split) <;> simp
@[simp] theorem State.meetLostAt_tick (s : State) (n die : Nat) (cut : Option (CKey × Nat)) : (s.meetLostAt n die cut).tick = s.tick := by simp only [State.meetLostAt]; (repeat' split) <;> simp
@[simp] theorem State.meetLostAt_turn (s : State) (n die : Nat) (cut : Option (CKey × Nat)) : (s.meetLostAt n die cut).turn = s.turn := by simp only [State.meetLostAt]; (repeat' split) <;> simp
@[simp] theorem State.meetLostAt_inbox (s : State) (n die : Nat) (cut : Option (CKey × Nat)) : (s.meetLostAt n die cut).inbox = s.inbox := by simp only [State.meetLostAt]; (repeat' split) <;> simp
@[simp] theorem State.meetLostAt_cur (s : State) (n die : Nat) (cut : Option (CKey × Nat)) : (s.meetLostAt n die cut).cur = s.cur := by simp only [State.meetLostAt]; (repeat' split) <;> simp
@[simp] theorem State.meetLostAt_instances (s : State) (n die : Nat) (cut : Option (CKey × Nat)) : (s.meetLostAt n die cut).instances = s.instances := by simp only [State.meetLostAt]; (repeat' split) <;> simp
@[simp] theorem State.meetLostAt_issuing (s : State) (n die : Nat) (cut : Option (CKey × Nat)) : (s.meetLostAt n die cut).issuing = s.issuing := by simp only [State.meetLostAt]; (repeat' split) <;> simp
@[simp] theorem State.meetLostAt_completing (s : State) (n die : Nat) (cut : Option (CKey × Nat)) : (s.meetLostAt n die cut).completing = s.completing := by simp only [State.meetLostAt]; (repeat' split) <;> simp
@[simp] theorem State.meetLostAt_teams (s : State) (n die : Nat) (cut : Option (CKey × Nat)) : (s.meetLostAt n die cut).teams = s.teams := by simp only [State.meetLostAt]; (repeat' split) <;> simp
@[simp] theorem State.meetLostAt_launches (s : State) (n die : Nat) (cut : Option (CKey × Nat)) : (s.meetLostAt n die cut).launches = s.launches := by simp only [State.meetLostAt]; (repeat' split) <;> simp
@[simp] theorem State.meetLostAt_groups (s : State) (n die : Nat) (cut : Option (CKey × Nat)) : (s.meetLostAt n die cut).groups = s.groups := by simp only [State.meetLostAt]; (repeat' split) <;> simp
@[simp] theorem State.meetLostAt_cores (s : State) (n die : Nat) (cut : Option (CKey × Nat)) : (s.meetLostAt n die cut).cores = s.cores := by simp only [State.meetLostAt]; (repeat' split) <;> simp
@[simp] theorem State.meetLostAt_mem (s : State) (n die : Nat) (cut : Option (CKey × Nat)) : (s.meetLostAt n die cut).mem = s.mem := by simp only [State.meetLostAt]; (repeat' split) <;> simp
@[simp] theorem State.meetLostAt_poison (s : State) (n die : Nat) (cut : Option (CKey × Nat)) : (s.meetLostAt n die cut).poison = s.poison := by simp only [State.meetLostAt]; (repeat' split) <;> simp
@[simp] theorem State.meetLostAt_peerMem (s : State) (n die : Nat) (cut : Option (CKey × Nat)) : (s.meetLostAt n die cut).peerMem = s.peerMem := by simp only [State.meetLostAt]; (repeat' split) <;> simp
@[simp] theorem State.meetLostAt_bufs (s : State) (n die : Nat) (cut : Option (CKey × Nat)) : (s.meetLostAt n die cut).bufs = s.bufs := by simp only [State.meetLostAt]; (repeat' split) <;> simp
@[simp] theorem State.meetLostAt_transit (s : State) (n die : Nat) (cut : Option (CKey × Nat)) : (s.meetLostAt n die cut).transit = s.transit := by simp only [State.meetLostAt]; (repeat' split) <;> simp
@[simp] theorem State.meetLostAt_moveAt (s : State) (n die : Nat) (cut : Option (CKey × Nat)) : (s.meetLostAt n die cut).moveAt = s.moveAt := by simp only [State.meetLostAt]; (repeat' split) <;> simp
@[simp] theorem State.meetLostAt_frames (s : State) (n die : Nat) (cut : Option (CKey × Nat)) : (s.meetLostAt n die cut).frames = s.frames := by simp only [State.meetLostAt]; (repeat' split) <;> simp
@[simp] theorem State.meetLostAt_lastLine (s : State) (n die : Nat) (cut : Option (CKey × Nat)) : (s.meetLostAt n die cut).lastLine = s.lastLine := by simp only [State.meetLostAt]; (repeat' split) <;> simp
@[simp] theorem State.meetLostAt_readCopies (s : State) (n die : Nat) (cut : Option (CKey × Nat)) : (s.meetLostAt n die cut).readCopies = s.readCopies := by simp only [State.meetLostAt]; (repeat' split) <;> simp
@[simp] theorem State.meetLostAt_dirty (s : State) (n die : Nat) (cut : Option (CKey × Nat)) : (s.meetLostAt n die cut).dirty = s.dirty := by simp only [State.meetLostAt]; (repeat' split) <;> simp
@[simp] theorem State.meetLostAt_cells (s : State) (n die : Nat) (cut : Option (CKey × Nat)) : (s.meetLostAt n die cut).cells = s.cells := by simp only [State.meetLostAt]; (repeat' split) <;> simp
@[simp] theorem State.meetLostAt_lodge (s : State) (n die : Nat) (cut : Option (CKey × Nat)) : (s.meetLostAt n die cut).lodge = s.lodge := by simp only [State.meetLostAt]; (repeat' split) <;> simp
@[simp] theorem State.meetLostAt_slots (s : State) (n die : Nat) (cut : Option (CKey × Nat)) : (s.meetLostAt n die cut).slots = s.slots := by simp only [State.meetLostAt]; (repeat' split) <;> simp
@[simp] theorem State.meetLostAt_lost (s : State) (n die : Nat) (cut : Option (CKey × Nat)) : (s.meetLostAt n die cut).lost = s.lost := by simp only [State.meetLostAt]; (repeat' split) <;> simp
@[simp] theorem State.meetLostAt_evicted (s : State) (n die : Nat) (cut : Option (CKey × Nat)) : (s.meetLostAt n die cut).evicted = s.evicted := by simp only [State.meetLostAt]; (repeat' split) <;> simp
@[simp] theorem State.meetLostAt_renewed (s : State) (n die : Nat) (cut : Option (CKey × Nat)) : (s.meetLostAt n die cut).renewed = s.renewed := by simp only [State.meetLostAt]; (repeat' split) <;> simp
@[simp] theorem State.meetLostAt_late (s : State) (n die : Nat) (cut : Option (CKey × Nat)) : (s.meetLostAt n die cut).late = s.late := by simp only [State.meetLostAt]; (repeat' split) <;> simp
@[simp] theorem State.meetLostAt_retained (s : State) (n die : Nat) (cut : Option (CKey × Nat)) : (s.meetLostAt n die cut).retained = s.retained := by simp only [State.meetLostAt]; (repeat' split) <;> simp

/- ### meetLost -/

@[simp] theorem State.meetLost_clk (s : State) (n die : Nat) : (s.meetLost n die).clk = s.clk := by simp [State.meetLost]
@[simp] theorem State.meetLost_tick (s : State) (n die : Nat) : (s.meetLost n die).tick = s.tick := by simp [State.meetLost]
@[simp] theorem State.meetLost_turn (s : State) (n die : Nat) : (s.meetLost n die).turn = s.turn := by simp [State.meetLost]
@[simp] theorem State.meetLost_inbox (s : State) (n die : Nat) : (s.meetLost n die).inbox = s.inbox := by simp [State.meetLost]
@[simp] theorem State.meetLost_cur (s : State) (n die : Nat) : (s.meetLost n die).cur = s.cur := by simp [State.meetLost]
@[simp] theorem State.meetLost_instances (s : State) (n die : Nat) : (s.meetLost n die).instances = s.instances := by simp [State.meetLost]
@[simp] theorem State.meetLost_issuing (s : State) (n die : Nat) : (s.meetLost n die).issuing = s.issuing := by simp [State.meetLost]
@[simp] theorem State.meetLost_completing (s : State) (n die : Nat) : (s.meetLost n die).completing = s.completing := by simp [State.meetLost]
@[simp] theorem State.meetLost_teams (s : State) (n die : Nat) : (s.meetLost n die).teams = s.teams := by simp [State.meetLost]
@[simp] theorem State.meetLost_launches (s : State) (n die : Nat) : (s.meetLost n die).launches = s.launches := by simp [State.meetLost]
@[simp] theorem State.meetLost_groups (s : State) (n die : Nat) : (s.meetLost n die).groups = s.groups := by simp [State.meetLost]
@[simp] theorem State.meetLost_cores (s : State) (n die : Nat) : (s.meetLost n die).cores = s.cores := by simp [State.meetLost]
@[simp] theorem State.meetLost_mem (s : State) (n die : Nat) : (s.meetLost n die).mem = s.mem := by simp [State.meetLost]
@[simp] theorem State.meetLost_poison (s : State) (n die : Nat) : (s.meetLost n die).poison = s.poison := by simp [State.meetLost]
@[simp] theorem State.meetLost_peerMem (s : State) (n die : Nat) : (s.meetLost n die).peerMem = s.peerMem := by simp [State.meetLost]
@[simp] theorem State.meetLost_bufs (s : State) (n die : Nat) : (s.meetLost n die).bufs = s.bufs := by simp [State.meetLost]
@[simp] theorem State.meetLost_transit (s : State) (n die : Nat) : (s.meetLost n die).transit = s.transit := by simp [State.meetLost]
@[simp] theorem State.meetLost_moveAt (s : State) (n die : Nat) : (s.meetLost n die).moveAt = s.moveAt := by simp [State.meetLost]
@[simp] theorem State.meetLost_frames (s : State) (n die : Nat) : (s.meetLost n die).frames = s.frames := by simp [State.meetLost]
@[simp] theorem State.meetLost_lastLine (s : State) (n die : Nat) : (s.meetLost n die).lastLine = s.lastLine := by simp [State.meetLost]
@[simp] theorem State.meetLost_readCopies (s : State) (n die : Nat) : (s.meetLost n die).readCopies = s.readCopies := by simp [State.meetLost]
@[simp] theorem State.meetLost_dirty (s : State) (n die : Nat) : (s.meetLost n die).dirty = s.dirty := by simp [State.meetLost]
@[simp] theorem State.meetLost_cells (s : State) (n die : Nat) : (s.meetLost n die).cells = s.cells := by simp [State.meetLost]
@[simp] theorem State.meetLost_lodge (s : State) (n die : Nat) : (s.meetLost n die).lodge = s.lodge := by simp [State.meetLost]
@[simp] theorem State.meetLost_slots (s : State) (n die : Nat) : (s.meetLost n die).slots = s.slots := by simp [State.meetLost]
@[simp] theorem State.meetLost_lost (s : State) (n die : Nat) : (s.meetLost n die).lost = s.lost := by simp [State.meetLost]
@[simp] theorem State.meetLost_evicted (s : State) (n die : Nat) : (s.meetLost n die).evicted = s.evicted := by simp [State.meetLost]
@[simp] theorem State.meetLost_renewed (s : State) (n die : Nat) : (s.meetLost n die).renewed = s.renewed := by simp [State.meetLost]
@[simp] theorem State.meetLost_late (s : State) (n die : Nat) : (s.meetLost n die).late = s.late := by simp [State.meetLost]
@[simp] theorem State.meetLost_retained (s : State) (n die : Nat) : (s.meetLost n die).retained = s.retained := by simp [State.meetLost]

/- ### writeFaultRegs -/

@[simp] theorem State.writeFaultRegs_clk (s : State) (f : FaultInfo) (n : Nat) : (s.writeFaultRegs f n).clk = s.clk := by simp [State.writeFaultRegs]
@[simp] theorem State.writeFaultRegs_tick (s : State) (f : FaultInfo) (n : Nat) : (s.writeFaultRegs f n).tick = s.tick := by simp [State.writeFaultRegs]
@[simp] theorem State.writeFaultRegs_turn (s : State) (f : FaultInfo) (n : Nat) : (s.writeFaultRegs f n).turn = s.turn := by simp [State.writeFaultRegs]
@[simp] theorem State.writeFaultRegs_inbox (s : State) (f : FaultInfo) (n : Nat) : (s.writeFaultRegs f n).inbox = s.inbox := by simp [State.writeFaultRegs]
@[simp] theorem State.writeFaultRegs_cur (s : State) (f : FaultInfo) (n : Nat) : (s.writeFaultRegs f n).cur = s.cur := by simp [State.writeFaultRegs]
@[simp] theorem State.writeFaultRegs_instances (s : State) (f : FaultInfo) (n : Nat) : (s.writeFaultRegs f n).instances = s.instances := by simp [State.writeFaultRegs]
@[simp] theorem State.writeFaultRegs_issuing (s : State) (f : FaultInfo) (n : Nat) : (s.writeFaultRegs f n).issuing = s.issuing := by simp [State.writeFaultRegs]
@[simp] theorem State.writeFaultRegs_completing (s : State) (f : FaultInfo) (n : Nat) : (s.writeFaultRegs f n).completing = s.completing := by simp [State.writeFaultRegs]
@[simp] theorem State.writeFaultRegs_teams (s : State) (f : FaultInfo) (n : Nat) : (s.writeFaultRegs f n).teams = s.teams := by simp [State.writeFaultRegs]
@[simp] theorem State.writeFaultRegs_launches (s : State) (f : FaultInfo) (n : Nat) : (s.writeFaultRegs f n).launches = s.launches := by simp [State.writeFaultRegs]
@[simp] theorem State.writeFaultRegs_ctxs (s : State) (f : FaultInfo) (n : Nat) : (s.writeFaultRegs f n).ctxs = s.ctxs := by simp [State.writeFaultRegs]
@[simp] theorem State.writeFaultRegs_cores (s : State) (f : FaultInfo) (n : Nat) : (s.writeFaultRegs f n).cores = s.cores := by simp [State.writeFaultRegs]
@[simp] theorem State.writeFaultRegs_mem (s : State) (f : FaultInfo) (n : Nat) : (s.writeFaultRegs f n).mem = s.mem := by simp [State.writeFaultRegs]
@[simp] theorem State.writeFaultRegs_poison (s : State) (f : FaultInfo) (n : Nat) : (s.writeFaultRegs f n).poison = s.poison := by simp [State.writeFaultRegs]
@[simp] theorem State.writeFaultRegs_hostMem (s : State) (f : FaultInfo) (n : Nat) : (s.writeFaultRegs f n).hostMem = s.hostMem := by simp [State.writeFaultRegs]
@[simp] theorem State.writeFaultRegs_peerMem (s : State) (f : FaultInfo) (n : Nat) : (s.writeFaultRegs f n).peerMem = s.peerMem := by simp [State.writeFaultRegs]
@[simp] theorem State.writeFaultRegs_bufs (s : State) (f : FaultInfo) (n : Nat) : (s.writeFaultRegs f n).bufs = s.bufs := by simp [State.writeFaultRegs]
@[simp] theorem State.writeFaultRegs_transit (s : State) (f : FaultInfo) (n : Nat) : (s.writeFaultRegs f n).transit = s.transit := by simp [State.writeFaultRegs]
@[simp] theorem State.writeFaultRegs_moveAt (s : State) (f : FaultInfo) (n : Nat) : (s.writeFaultRegs f n).moveAt = s.moveAt := by simp [State.writeFaultRegs]
@[simp] theorem State.writeFaultRegs_frames (s : State) (f : FaultInfo) (n : Nat) : (s.writeFaultRegs f n).frames = s.frames := by simp [State.writeFaultRegs]
@[simp] theorem State.writeFaultRegs_lastLine (s : State) (f : FaultInfo) (n : Nat) : (s.writeFaultRegs f n).lastLine = s.lastLine := by simp [State.writeFaultRegs]
@[simp] theorem State.writeFaultRegs_readCopies (s : State) (f : FaultInfo) (n : Nat) : (s.writeFaultRegs f n).readCopies = s.readCopies := by simp [State.writeFaultRegs]
@[simp] theorem State.writeFaultRegs_dirty (s : State) (f : FaultInfo) (n : Nat) : (s.writeFaultRegs f n).dirty = s.dirty := by simp [State.writeFaultRegs]
@[simp] theorem State.writeFaultRegs_cells (s : State) (f : FaultInfo) (n : Nat) : (s.writeFaultRegs f n).cells = s.cells := by simp [State.writeFaultRegs]
@[simp] theorem State.writeFaultRegs_lodge (s : State) (f : FaultInfo) (n : Nat) : (s.writeFaultRegs f n).lodge = s.lodge := by simp [State.writeFaultRegs]
@[simp] theorem State.writeFaultRegs_slots (s : State) (f : FaultInfo) (n : Nat) : (s.writeFaultRegs f n).slots = s.slots := by simp [State.writeFaultRegs]
@[simp] theorem State.writeFaultRegs_regs (s : State) (f : FaultInfo) (n : Nat) : (s.writeFaultRegs f n).regs = s.regs := by simp [State.writeFaultRegs]
@[simp] theorem State.writeFaultRegs_events (s : State) (f : FaultInfo) (n : Nat) : (s.writeFaultRegs f n).events = s.events := by simp [State.writeFaultRegs]
@[simp] theorem State.writeFaultRegs_lost (s : State) (f : FaultInfo) (n : Nat) : (s.writeFaultRegs f n).lost = s.lost := by simp [State.writeFaultRegs]
@[simp] theorem State.writeFaultRegs_evicted (s : State) (f : FaultInfo) (n : Nat) : (s.writeFaultRegs f n).evicted = s.evicted := by simp [State.writeFaultRegs]
@[simp] theorem State.writeFaultRegs_renewed (s : State) (f : FaultInfo) (n : Nat) : (s.writeFaultRegs f n).renewed = s.renewed := by simp [State.writeFaultRegs]
@[simp] theorem State.writeFaultRegs_late (s : State) (f : FaultInfo) (n : Nat) : (s.writeFaultRegs f n).late = s.late := by simp [State.writeFaultRegs]
@[simp] theorem State.writeFaultRegs_retained (s : State) (f : FaultInfo) (n : Nat) : (s.writeFaultRegs f n).retained = s.retained := by simp [State.writeFaultRegs]

/- ### enterHandler -/

@[simp] theorem State.enterHandler_clk (s : State) (f : FaultInfo) (h : GKey) (w : Word) : (s.enterHandler f h w).clk = s.clk := by simp [State.enterHandler]
@[simp] theorem State.enterHandler_tick (s : State) (f : FaultInfo) (h : GKey) (w : Word) : (s.enterHandler f h w).tick = s.tick := by simp [State.enterHandler]
@[simp] theorem State.enterHandler_turn (s : State) (f : FaultInfo) (h : GKey) (w : Word) : (s.enterHandler f h w).turn = s.turn := by simp [State.enterHandler]
@[simp] theorem State.enterHandler_inbox (s : State) (f : FaultInfo) (h : GKey) (w : Word) : (s.enterHandler f h w).inbox = s.inbox := by simp [State.enterHandler]
@[simp] theorem State.enterHandler_cur (s : State) (f : FaultInfo) (h : GKey) (w : Word) : (s.enterHandler f h w).cur = s.cur := by simp [State.enterHandler]
@[simp] theorem State.enterHandler_instances (s : State) (f : FaultInfo) (h : GKey) (w : Word) : (s.enterHandler f h w).instances = s.instances := by simp [State.enterHandler]
@[simp] theorem State.enterHandler_issuing (s : State) (f : FaultInfo) (h : GKey) (w : Word) : (s.enterHandler f h w).issuing = s.issuing := by simp [State.enterHandler]
@[simp] theorem State.enterHandler_completing (s : State) (f : FaultInfo) (h : GKey) (w : Word) : (s.enterHandler f h w).completing = s.completing := by simp [State.enterHandler]
@[simp] theorem State.enterHandler_teams (s : State) (f : FaultInfo) (h : GKey) (w : Word) : (s.enterHandler f h w).teams = s.teams := by simp [State.enterHandler]
@[simp] theorem State.enterHandler_launches (s : State) (f : FaultInfo) (h : GKey) (w : Word) : (s.enterHandler f h w).launches = s.launches := by simp [State.enterHandler]
@[simp] theorem State.enterHandler_ctxs (s : State) (f : FaultInfo) (h : GKey) (w : Word) : (s.enterHandler f h w).ctxs = s.ctxs := by simp [State.enterHandler]
@[simp] theorem State.enterHandler_cores (s : State) (f : FaultInfo) (h : GKey) (w : Word) : (s.enterHandler f h w).cores = s.cores := by simp [State.enterHandler]
@[simp] theorem State.enterHandler_mem (s : State) (f : FaultInfo) (h : GKey) (w : Word) : (s.enterHandler f h w).mem = s.mem := by simp [State.enterHandler]
@[simp] theorem State.enterHandler_poison (s : State) (f : FaultInfo) (h : GKey) (w : Word) : (s.enterHandler f h w).poison = s.poison := by simp [State.enterHandler]
@[simp] theorem State.enterHandler_hostMem (s : State) (f : FaultInfo) (h : GKey) (w : Word) : (s.enterHandler f h w).hostMem = s.hostMem := by simp [State.enterHandler]
@[simp] theorem State.enterHandler_peerMem (s : State) (f : FaultInfo) (h : GKey) (w : Word) : (s.enterHandler f h w).peerMem = s.peerMem := by simp [State.enterHandler]
@[simp] theorem State.enterHandler_bufs (s : State) (f : FaultInfo) (h : GKey) (w : Word) : (s.enterHandler f h w).bufs = s.bufs := by simp [State.enterHandler]
@[simp] theorem State.enterHandler_transit (s : State) (f : FaultInfo) (h : GKey) (w : Word) : (s.enterHandler f h w).transit = s.transit := by simp [State.enterHandler]
@[simp] theorem State.enterHandler_moveAt (s : State) (f : FaultInfo) (h : GKey) (w : Word) : (s.enterHandler f h w).moveAt = s.moveAt := by simp [State.enterHandler]
@[simp] theorem State.enterHandler_frames (s : State) (f : FaultInfo) (h : GKey) (w : Word) : (s.enterHandler f h w).frames = s.frames := by simp [State.enterHandler]
@[simp] theorem State.enterHandler_lastLine (s : State) (f : FaultInfo) (h : GKey) (w : Word) : (s.enterHandler f h w).lastLine = s.lastLine := by simp [State.enterHandler]
@[simp] theorem State.enterHandler_readCopies (s : State) (f : FaultInfo) (h : GKey) (w : Word) : (s.enterHandler f h w).readCopies = s.readCopies := by simp [State.enterHandler]
@[simp] theorem State.enterHandler_dirty (s : State) (f : FaultInfo) (h : GKey) (w : Word) : (s.enterHandler f h w).dirty = s.dirty := by simp [State.enterHandler]
@[simp] theorem State.enterHandler_cells (s : State) (f : FaultInfo) (h : GKey) (w : Word) : (s.enterHandler f h w).cells = s.cells := by simp [State.enterHandler]
@[simp] theorem State.enterHandler_lodge (s : State) (f : FaultInfo) (h : GKey) (w : Word) : (s.enterHandler f h w).lodge = s.lodge := by simp [State.enterHandler]
@[simp] theorem State.enterHandler_slots (s : State) (f : FaultInfo) (h : GKey) (w : Word) : (s.enterHandler f h w).slots = s.slots := by simp [State.enterHandler]
@[simp] theorem State.enterHandler_regs (s : State) (f : FaultInfo) (h : GKey) (w : Word) : (s.enterHandler f h w).regs = s.regs := by simp [State.enterHandler]
@[simp] theorem State.enterHandler_events (s : State) (f : FaultInfo) (h : GKey) (w : Word) : (s.enterHandler f h w).events = s.events := by simp [State.enterHandler]
@[simp] theorem State.enterHandler_lost (s : State) (f : FaultInfo) (h : GKey) (w : Word) : (s.enterHandler f h w).lost = s.lost := by simp [State.enterHandler]
@[simp] theorem State.enterHandler_evicted (s : State) (f : FaultInfo) (h : GKey) (w : Word) : (s.enterHandler f h w).evicted = s.evicted := by simp [State.enterHandler]
@[simp] theorem State.enterHandler_renewed (s : State) (f : FaultInfo) (h : GKey) (w : Word) : (s.enterHandler f h w).renewed = s.renewed := by simp [State.enterHandler]
@[simp] theorem State.enterHandler_late (s : State) (f : FaultInfo) (h : GKey) (w : Word) : (s.enterHandler f h w).late = s.late := by simp [State.enterHandler]
@[simp] theorem State.enterHandler_retained (s : State) (f : FaultInfo) (h : GKey) (w : Word) : (s.enterHandler f h w).retained = s.retained := by simp [State.enterHandler]

/- ### stopGroups -/

@[simp] theorem State.stopGroups_clk (s : State) (f : FaultInfo) (b : Bool) : (s.stopGroups f b).clk = s.clk := by simp [State.stopGroups]
@[simp] theorem State.stopGroups_tick (s : State) (f : FaultInfo) (b : Bool) : (s.stopGroups f b).tick = s.tick := by simp [State.stopGroups]
@[simp] theorem State.stopGroups_turn (s : State) (f : FaultInfo) (b : Bool) : (s.stopGroups f b).turn = s.turn := by simp [State.stopGroups]
@[simp] theorem State.stopGroups_inbox (s : State) (f : FaultInfo) (b : Bool) : (s.stopGroups f b).inbox = s.inbox := by simp [State.stopGroups]
@[simp] theorem State.stopGroups_cur (s : State) (f : FaultInfo) (b : Bool) : (s.stopGroups f b).cur = s.cur := by simp [State.stopGroups]
@[simp] theorem State.stopGroups_instances (s : State) (f : FaultInfo) (b : Bool) : (s.stopGroups f b).instances = s.instances := by simp [State.stopGroups]
@[simp] theorem State.stopGroups_issuing (s : State) (f : FaultInfo) (b : Bool) : (s.stopGroups f b).issuing = s.issuing := by simp [State.stopGroups]
@[simp] theorem State.stopGroups_completing (s : State) (f : FaultInfo) (b : Bool) : (s.stopGroups f b).completing = s.completing := by simp [State.stopGroups]
@[simp] theorem State.stopGroups_teams (s : State) (f : FaultInfo) (b : Bool) : (s.stopGroups f b).teams = s.teams := by simp [State.stopGroups]
@[simp] theorem State.stopGroups_launches (s : State) (f : FaultInfo) (b : Bool) : (s.stopGroups f b).launches = s.launches := by simp [State.stopGroups]
@[simp] theorem State.stopGroups_ctxs (s : State) (f : FaultInfo) (b : Bool) : (s.stopGroups f b).ctxs = s.ctxs := by simp [State.stopGroups]
@[simp] theorem State.stopGroups_cores (s : State) (f : FaultInfo) (b : Bool) : (s.stopGroups f b).cores = s.cores := by simp [State.stopGroups]
@[simp] theorem State.stopGroups_mem (s : State) (f : FaultInfo) (b : Bool) : (s.stopGroups f b).mem = s.mem := by simp [State.stopGroups]
@[simp] theorem State.stopGroups_poison (s : State) (f : FaultInfo) (b : Bool) : (s.stopGroups f b).poison = s.poison := by simp [State.stopGroups]
@[simp] theorem State.stopGroups_hostMem (s : State) (f : FaultInfo) (b : Bool) : (s.stopGroups f b).hostMem = s.hostMem := by simp [State.stopGroups]
@[simp] theorem State.stopGroups_peerMem (s : State) (f : FaultInfo) (b : Bool) : (s.stopGroups f b).peerMem = s.peerMem := by simp [State.stopGroups]
@[simp] theorem State.stopGroups_bufs (s : State) (f : FaultInfo) (b : Bool) : (s.stopGroups f b).bufs = s.bufs := by simp [State.stopGroups]
@[simp] theorem State.stopGroups_transit (s : State) (f : FaultInfo) (b : Bool) : (s.stopGroups f b).transit = s.transit := by simp [State.stopGroups]
@[simp] theorem State.stopGroups_moveAt (s : State) (f : FaultInfo) (b : Bool) : (s.stopGroups f b).moveAt = s.moveAt := by simp [State.stopGroups]
@[simp] theorem State.stopGroups_frames (s : State) (f : FaultInfo) (b : Bool) : (s.stopGroups f b).frames = s.frames := by simp [State.stopGroups]
@[simp] theorem State.stopGroups_lastLine (s : State) (f : FaultInfo) (b : Bool) : (s.stopGroups f b).lastLine = s.lastLine := by simp [State.stopGroups]
@[simp] theorem State.stopGroups_readCopies (s : State) (f : FaultInfo) (b : Bool) : (s.stopGroups f b).readCopies = s.readCopies := by simp [State.stopGroups]
@[simp] theorem State.stopGroups_dirty (s : State) (f : FaultInfo) (b : Bool) : (s.stopGroups f b).dirty = s.dirty := by simp [State.stopGroups]
@[simp] theorem State.stopGroups_cells (s : State) (f : FaultInfo) (b : Bool) : (s.stopGroups f b).cells = s.cells := by simp [State.stopGroups]
@[simp] theorem State.stopGroups_lodge (s : State) (f : FaultInfo) (b : Bool) : (s.stopGroups f b).lodge = s.lodge := by simp [State.stopGroups]
@[simp] theorem State.stopGroups_slots (s : State) (f : FaultInfo) (b : Bool) : (s.stopGroups f b).slots = s.slots := by simp [State.stopGroups]
@[simp] theorem State.stopGroups_regs (s : State) (f : FaultInfo) (b : Bool) : (s.stopGroups f b).regs = s.regs := by simp [State.stopGroups]
@[simp] theorem State.stopGroups_events (s : State) (f : FaultInfo) (b : Bool) : (s.stopGroups f b).events = s.events := by simp [State.stopGroups]
@[simp] theorem State.stopGroups_lost (s : State) (f : FaultInfo) (b : Bool) : (s.stopGroups f b).lost = s.lost := by simp [State.stopGroups]
@[simp] theorem State.stopGroups_evicted (s : State) (f : FaultInfo) (b : Bool) : (s.stopGroups f b).evicted = s.evicted := by simp [State.stopGroups]
@[simp] theorem State.stopGroups_renewed (s : State) (f : FaultInfo) (b : Bool) : (s.stopGroups f b).renewed = s.renewed := by simp [State.stopGroups]
@[simp] theorem State.stopGroups_late (s : State) (f : FaultInfo) (b : Bool) : (s.stopGroups f b).late = s.late := by simp [State.stopGroups]
@[simp] theorem State.stopGroups_retained (s : State) (f : FaultInfo) (b : Bool) : (s.stopGroups f b).retained = s.retained := by simp [State.stopGroups]

/- ### endSteps -/

@[simp] theorem State.endSteps_clk (s : State) (f : FaultInfo) : (s.endSteps f).clk = s.clk := by simp [State.endSteps]
@[simp] theorem State.endSteps_tick (s : State) (f : FaultInfo) : (s.endSteps f).tick = s.tick := by simp [State.endSteps]
@[simp] theorem State.endSteps_turn (s : State) (f : FaultInfo) : (s.endSteps f).turn = s.turn := by simp [State.endSteps]
@[simp] theorem State.endSteps_inbox (s : State) (f : FaultInfo) : (s.endSteps f).inbox = s.inbox := by simp [State.endSteps]
@[simp] theorem State.endSteps_cur (s : State) (f : FaultInfo) : (s.endSteps f).cur = s.cur := by simp [State.endSteps]
@[simp] theorem State.endSteps_instances (s : State) (f : FaultInfo) : (s.endSteps f).instances = s.instances := by simp [State.endSteps]
@[simp] theorem State.endSteps_issuing (s : State) (f : FaultInfo) : (s.endSteps f).issuing = s.issuing := by simp [State.endSteps]
@[simp] theorem State.endSteps_completing (s : State) (f : FaultInfo) : (s.endSteps f).completing = s.completing := by simp [State.endSteps]
@[simp] theorem State.endSteps_teams (s : State) (f : FaultInfo) : (s.endSteps f).teams = s.teams := by simp [State.endSteps]
@[simp] theorem State.endSteps_launches (s : State) (f : FaultInfo) : (s.endSteps f).launches = s.launches := by simp [State.endSteps]
@[simp] theorem State.endSteps_ctxs (s : State) (f : FaultInfo) : (s.endSteps f).ctxs = s.ctxs := by simp [State.endSteps]
@[simp] theorem State.endSteps_cores (s : State) (f : FaultInfo) : (s.endSteps f).cores = s.cores := by simp [State.endSteps]
@[simp] theorem State.endSteps_mem (s : State) (f : FaultInfo) : (s.endSteps f).mem = s.mem := by simp [State.endSteps]
@[simp] theorem State.endSteps_poison (s : State) (f : FaultInfo) : (s.endSteps f).poison = s.poison := by simp [State.endSteps]
@[simp] theorem State.endSteps_hostMem (s : State) (f : FaultInfo) : (s.endSteps f).hostMem = s.hostMem := by simp [State.endSteps]
@[simp] theorem State.endSteps_peerMem (s : State) (f : FaultInfo) : (s.endSteps f).peerMem = s.peerMem := by simp [State.endSteps]
@[simp] theorem State.endSteps_bufs (s : State) (f : FaultInfo) : (s.endSteps f).bufs = s.bufs := by simp [State.endSteps]
@[simp] theorem State.endSteps_transit (s : State) (f : FaultInfo) : (s.endSteps f).transit = s.transit := by simp [State.endSteps]
@[simp] theorem State.endSteps_moveAt (s : State) (f : FaultInfo) : (s.endSteps f).moveAt = s.moveAt := by simp [State.endSteps]
@[simp] theorem State.endSteps_frames (s : State) (f : FaultInfo) : (s.endSteps f).frames = s.frames := by simp [State.endSteps]
@[simp] theorem State.endSteps_lastLine (s : State) (f : FaultInfo) : (s.endSteps f).lastLine = s.lastLine := by simp [State.endSteps]
@[simp] theorem State.endSteps_readCopies (s : State) (f : FaultInfo) : (s.endSteps f).readCopies = s.readCopies := by simp [State.endSteps]
@[simp] theorem State.endSteps_dirty (s : State) (f : FaultInfo) : (s.endSteps f).dirty = s.dirty := by simp [State.endSteps]
@[simp] theorem State.endSteps_cells (s : State) (f : FaultInfo) : (s.endSteps f).cells = s.cells := by simp [State.endSteps]
@[simp] theorem State.endSteps_lodge (s : State) (f : FaultInfo) : (s.endSteps f).lodge = s.lodge := by simp [State.endSteps]
@[simp] theorem State.endSteps_slots (s : State) (f : FaultInfo) : (s.endSteps f).slots = s.slots := by simp [State.endSteps]
@[simp] theorem State.endSteps_regs (s : State) (f : FaultInfo) : (s.endSteps f).regs = s.regs := by simp [State.endSteps]
@[simp] theorem State.endSteps_events (s : State) (f : FaultInfo) : (s.endSteps f).events = s.events := by simp [State.endSteps]
@[simp] theorem State.endSteps_lost (s : State) (f : FaultInfo) : (s.endSteps f).lost = s.lost := by simp [State.endSteps]
@[simp] theorem State.endSteps_evicted (s : State) (f : FaultInfo) : (s.endSteps f).evicted = s.evicted := by simp [State.endSteps]
@[simp] theorem State.endSteps_renewed (s : State) (f : FaultInfo) : (s.endSteps f).renewed = s.renewed := by simp [State.endSteps]
@[simp] theorem State.endSteps_late (s : State) (f : FaultInfo) : (s.endSteps f).late = s.late := by simp [State.endSteps]
@[simp] theorem State.endSteps_retained (s : State) (f : FaultInfo) : (s.endSteps f).retained = s.retained := by simp [State.endSteps]

/- ### takeFault -/

@[simp] theorem State.takeFault_clk (s : State) (f : FaultInfo) : (s.takeFault f).clk = s.clk := by simp only [State.takeFault]; (repeat' split) <;> simp
@[simp] theorem State.takeFault_tick (s : State) (f : FaultInfo) : (s.takeFault f).tick = s.tick := by simp only [State.takeFault]; (repeat' split) <;> simp
@[simp] theorem State.takeFault_turn (s : State) (f : FaultInfo) : (s.takeFault f).turn = s.turn := by simp only [State.takeFault]; (repeat' split) <;> simp
@[simp] theorem State.takeFault_inbox (s : State) (f : FaultInfo) : (s.takeFault f).inbox = s.inbox := by simp only [State.takeFault]; (repeat' split) <;> simp
@[simp] theorem State.takeFault_cur (s : State) (f : FaultInfo) : (s.takeFault f).cur = s.cur := by simp only [State.takeFault]; (repeat' split) <;> simp
@[simp] theorem State.takeFault_instances (s : State) (f : FaultInfo) : (s.takeFault f).instances = s.instances := by simp only [State.takeFault]; (repeat' split) <;> simp
@[simp] theorem State.takeFault_issuing (s : State) (f : FaultInfo) : (s.takeFault f).issuing = s.issuing := by simp only [State.takeFault]; (repeat' split) <;> simp
@[simp] theorem State.takeFault_completing (s : State) (f : FaultInfo) : (s.takeFault f).completing = s.completing := by simp only [State.takeFault]; (repeat' split) <;> simp
@[simp] theorem State.takeFault_teams (s : State) (f : FaultInfo) : (s.takeFault f).teams = s.teams := by simp only [State.takeFault]; (repeat' split) <;> simp
@[simp] theorem State.takeFault_launches (s : State) (f : FaultInfo) : (s.takeFault f).launches = s.launches := by simp only [State.takeFault]; (repeat' split) <;> simp
@[simp] theorem State.takeFault_cores (s : State) (f : FaultInfo) : (s.takeFault f).cores = s.cores := by simp only [State.takeFault]; (repeat' split) <;> simp
@[simp] theorem State.takeFault_mem (s : State) (f : FaultInfo) : (s.takeFault f).mem = s.mem := by simp only [State.takeFault]; (repeat' split) <;> simp
@[simp] theorem State.takeFault_poison (s : State) (f : FaultInfo) : (s.takeFault f).poison = s.poison := by simp only [State.takeFault]; (repeat' split) <;> simp
@[simp] theorem State.takeFault_peerMem (s : State) (f : FaultInfo) : (s.takeFault f).peerMem = s.peerMem := by simp only [State.takeFault]; (repeat' split) <;> simp
@[simp] theorem State.takeFault_bufs (s : State) (f : FaultInfo) : (s.takeFault f).bufs = s.bufs := by simp only [State.takeFault]; (repeat' split) <;> simp
@[simp] theorem State.takeFault_transit (s : State) (f : FaultInfo) : (s.takeFault f).transit = s.transit := by simp only [State.takeFault]; (repeat' split) <;> simp
@[simp] theorem State.takeFault_moveAt (s : State) (f : FaultInfo) : (s.takeFault f).moveAt = s.moveAt := by simp only [State.takeFault]; (repeat' split) <;> simp
@[simp] theorem State.takeFault_frames (s : State) (f : FaultInfo) : (s.takeFault f).frames = s.frames := by simp only [State.takeFault]; (repeat' split) <;> simp
@[simp] theorem State.takeFault_lastLine (s : State) (f : FaultInfo) : (s.takeFault f).lastLine = s.lastLine := by simp only [State.takeFault]; (repeat' split) <;> simp
@[simp] theorem State.takeFault_readCopies (s : State) (f : FaultInfo) : (s.takeFault f).readCopies = s.readCopies := by simp only [State.takeFault]; (repeat' split) <;> simp
@[simp] theorem State.takeFault_dirty (s : State) (f : FaultInfo) : (s.takeFault f).dirty = s.dirty := by simp only [State.takeFault]; (repeat' split) <;> simp
@[simp] theorem State.takeFault_cells (s : State) (f : FaultInfo) : (s.takeFault f).cells = s.cells := by simp only [State.takeFault]; (repeat' split) <;> simp
@[simp] theorem State.takeFault_lodge (s : State) (f : FaultInfo) : (s.takeFault f).lodge = s.lodge := by simp only [State.takeFault]; (repeat' split) <;> simp
@[simp] theorem State.takeFault_slots (s : State) (f : FaultInfo) : (s.takeFault f).slots = s.slots := by simp only [State.takeFault]; (repeat' split) <;> simp
@[simp] theorem State.takeFault_lost (s : State) (f : FaultInfo) : (s.takeFault f).lost = s.lost := by simp only [State.takeFault]; (repeat' split) <;> simp
@[simp] theorem State.takeFault_evicted (s : State) (f : FaultInfo) : (s.takeFault f).evicted = s.evicted := by simp only [State.takeFault]; (repeat' split) <;> simp
@[simp] theorem State.takeFault_renewed (s : State) (f : FaultInfo) : (s.takeFault f).renewed = s.renewed := by simp only [State.takeFault]; (repeat' split) <;> simp
@[simp] theorem State.takeFault_late (s : State) (f : FaultInfo) : (s.takeFault f).late = s.late := by simp only [State.takeFault]; (repeat' split) <;> simp
@[simp] theorem State.takeFault_retained (s : State) (f : FaultInfo) : (s.takeFault f).retained = s.retained := by simp only [State.takeFault]; (repeat' split) <;> simp

/- ### returnFault -/

@[simp] theorem State.returnFault_clk (s : State) (g : Group) (k : Rte) (adv : Group → Group) (n : Nat) : (s.returnFault g k adv n).clk = s.clk := by simp [State.returnFault]
@[simp] theorem State.returnFault_tick (s : State) (g : Group) (k : Rte) (adv : Group → Group) (n : Nat) : (s.returnFault g k adv n).tick = s.tick := by simp [State.returnFault]
@[simp] theorem State.returnFault_turn (s : State) (g : Group) (k : Rte) (adv : Group → Group) (n : Nat) : (s.returnFault g k adv n).turn = s.turn := by simp [State.returnFault]
@[simp] theorem State.returnFault_inbox (s : State) (g : Group) (k : Rte) (adv : Group → Group) (n : Nat) : (s.returnFault g k adv n).inbox = s.inbox := by simp [State.returnFault]
@[simp] theorem State.returnFault_cur (s : State) (g : Group) (k : Rte) (adv : Group → Group) (n : Nat) : (s.returnFault g k adv n).cur = s.cur := by simp [State.returnFault]
@[simp] theorem State.returnFault_instances (s : State) (g : Group) (k : Rte) (adv : Group → Group) (n : Nat) : (s.returnFault g k adv n).instances = s.instances := by simp [State.returnFault]
@[simp] theorem State.returnFault_issuing (s : State) (g : Group) (k : Rte) (adv : Group → Group) (n : Nat) : (s.returnFault g k adv n).issuing = s.issuing := by simp [State.returnFault]
@[simp] theorem State.returnFault_completing (s : State) (g : Group) (k : Rte) (adv : Group → Group) (n : Nat) : (s.returnFault g k adv n).completing = s.completing := by simp [State.returnFault]
@[simp] theorem State.returnFault_teams (s : State) (g : Group) (k : Rte) (adv : Group → Group) (n : Nat) : (s.returnFault g k adv n).teams = s.teams := by simp [State.returnFault]
@[simp] theorem State.returnFault_launches (s : State) (g : Group) (k : Rte) (adv : Group → Group) (n : Nat) : (s.returnFault g k adv n).launches = s.launches := by simp [State.returnFault]
@[simp] theorem State.returnFault_ctxs (s : State) (g : Group) (k : Rte) (adv : Group → Group) (n : Nat) : (s.returnFault g k adv n).ctxs = s.ctxs := by simp [State.returnFault]
@[simp] theorem State.returnFault_cores (s : State) (g : Group) (k : Rte) (adv : Group → Group) (n : Nat) : (s.returnFault g k adv n).cores = s.cores := by simp [State.returnFault]
@[simp] theorem State.returnFault_mem (s : State) (g : Group) (k : Rte) (adv : Group → Group) (n : Nat) : (s.returnFault g k adv n).mem = s.mem := by simp [State.returnFault]
@[simp] theorem State.returnFault_poison (s : State) (g : Group) (k : Rte) (adv : Group → Group) (n : Nat) : (s.returnFault g k adv n).poison = s.poison := by simp [State.returnFault]
@[simp] theorem State.returnFault_hostMem (s : State) (g : Group) (k : Rte) (adv : Group → Group) (n : Nat) : (s.returnFault g k adv n).hostMem = s.hostMem := by simp [State.returnFault]
@[simp] theorem State.returnFault_peerMem (s : State) (g : Group) (k : Rte) (adv : Group → Group) (n : Nat) : (s.returnFault g k adv n).peerMem = s.peerMem := by simp [State.returnFault]
@[simp] theorem State.returnFault_bufs (s : State) (g : Group) (k : Rte) (adv : Group → Group) (n : Nat) : (s.returnFault g k adv n).bufs = s.bufs := by simp [State.returnFault]
@[simp] theorem State.returnFault_transit (s : State) (g : Group) (k : Rte) (adv : Group → Group) (n : Nat) : (s.returnFault g k adv n).transit = s.transit := by simp [State.returnFault]
@[simp] theorem State.returnFault_moveAt (s : State) (g : Group) (k : Rte) (adv : Group → Group) (n : Nat) : (s.returnFault g k adv n).moveAt = s.moveAt := by simp [State.returnFault]
@[simp] theorem State.returnFault_frames (s : State) (g : Group) (k : Rte) (adv : Group → Group) (n : Nat) : (s.returnFault g k adv n).frames = s.frames := by simp [State.returnFault]
@[simp] theorem State.returnFault_lastLine (s : State) (g : Group) (k : Rte) (adv : Group → Group) (n : Nat) : (s.returnFault g k adv n).lastLine = s.lastLine := by simp [State.returnFault]
@[simp] theorem State.returnFault_readCopies (s : State) (g : Group) (k : Rte) (adv : Group → Group) (n : Nat) : (s.returnFault g k adv n).readCopies = s.readCopies := by simp [State.returnFault]
@[simp] theorem State.returnFault_dirty (s : State) (g : Group) (k : Rte) (adv : Group → Group) (n : Nat) : (s.returnFault g k adv n).dirty = s.dirty := by simp [State.returnFault]
@[simp] theorem State.returnFault_cells (s : State) (g : Group) (k : Rte) (adv : Group → Group) (n : Nat) : (s.returnFault g k adv n).cells = s.cells := by simp [State.returnFault]
@[simp] theorem State.returnFault_lodge (s : State) (g : Group) (k : Rte) (adv : Group → Group) (n : Nat) : (s.returnFault g k adv n).lodge = s.lodge := by simp [State.returnFault]
@[simp] theorem State.returnFault_slots (s : State) (g : Group) (k : Rte) (adv : Group → Group) (n : Nat) : (s.returnFault g k adv n).slots = s.slots := by simp [State.returnFault]
@[simp] theorem State.returnFault_regs (s : State) (g : Group) (k : Rte) (adv : Group → Group) (n : Nat) : (s.returnFault g k adv n).regs = s.regs := by simp [State.returnFault]
@[simp] theorem State.returnFault_events (s : State) (g : Group) (k : Rte) (adv : Group → Group) (n : Nat) : (s.returnFault g k adv n).events = s.events := by simp [State.returnFault]
@[simp] theorem State.returnFault_lost (s : State) (g : Group) (k : Rte) (adv : Group → Group) (n : Nat) : (s.returnFault g k adv n).lost = s.lost := by simp [State.returnFault]
@[simp] theorem State.returnFault_evicted (s : State) (g : Group) (k : Rte) (adv : Group → Group) (n : Nat) : (s.returnFault g k adv n).evicted = s.evicted := by simp [State.returnFault]
@[simp] theorem State.returnFault_renewed (s : State) (g : Group) (k : Rte) (adv : Group → Group) (n : Nat) : (s.returnFault g k adv n).renewed = s.renewed := by simp [State.returnFault]
@[simp] theorem State.returnFault_late (s : State) (g : Group) (k : Rte) (adv : Group → Group) (n : Nat) : (s.returnFault g k adv n).late = s.late := by simp [State.returnFault]
@[simp] theorem State.returnFault_retained (s : State) (g : Group) (k : Rte) (adv : Group → Group) (n : Nat) : (s.returnFault g k adv n).retained = s.retained := by simp [State.returnFault]

/- ### checkHot -/

@[simp] theorem State.checkHot_clk (s : State) (ctx die k : Nat) : (s.checkHot ctx die k).clk = s.clk := by simp only [State.checkHot]; (repeat' split) <;> simp
@[simp] theorem State.checkHot_tick (s : State) (ctx die k : Nat) : (s.checkHot ctx die k).tick = s.tick := by simp only [State.checkHot]; (repeat' split) <;> simp
@[simp] theorem State.checkHot_turn (s : State) (ctx die k : Nat) : (s.checkHot ctx die k).turn = s.turn := by simp only [State.checkHot]; (repeat' split) <;> simp
@[simp] theorem State.checkHot_inbox (s : State) (ctx die k : Nat) : (s.checkHot ctx die k).inbox = s.inbox := by simp only [State.checkHot]; (repeat' split) <;> simp
@[simp] theorem State.checkHot_cur (s : State) (ctx die k : Nat) : (s.checkHot ctx die k).cur = s.cur := by simp only [State.checkHot]; (repeat' split) <;> simp
@[simp] theorem State.checkHot_instances (s : State) (ctx die k : Nat) : (s.checkHot ctx die k).instances = s.instances := by simp only [State.checkHot]; (repeat' split) <;> simp
@[simp] theorem State.checkHot_issuing (s : State) (ctx die k : Nat) : (s.checkHot ctx die k).issuing = s.issuing := by simp only [State.checkHot]; (repeat' split) <;> simp
@[simp] theorem State.checkHot_completing (s : State) (ctx die k : Nat) : (s.checkHot ctx die k).completing = s.completing := by simp only [State.checkHot]; (repeat' split) <;> simp
@[simp] theorem State.checkHot_teams (s : State) (ctx die k : Nat) : (s.checkHot ctx die k).teams = s.teams := by simp only [State.checkHot]; (repeat' split) <;> simp
@[simp] theorem State.checkHot_launches (s : State) (ctx die k : Nat) : (s.checkHot ctx die k).launches = s.launches := by simp only [State.checkHot]; (repeat' split) <;> simp
@[simp] theorem State.checkHot_ctxs (s : State) (ctx die k : Nat) : (s.checkHot ctx die k).ctxs = s.ctxs := by simp only [State.checkHot]; (repeat' split) <;> simp
@[simp] theorem State.checkHot_groups (s : State) (ctx die k : Nat) : (s.checkHot ctx die k).groups = s.groups := by simp only [State.checkHot]; (repeat' split) <;> simp
@[simp] theorem State.checkHot_cores (s : State) (ctx die k : Nat) : (s.checkHot ctx die k).cores = s.cores := by simp only [State.checkHot]; (repeat' split) <;> simp
@[simp] theorem State.checkHot_mem (s : State) (ctx die k : Nat) : (s.checkHot ctx die k).mem = s.mem := by simp only [State.checkHot]; (repeat' split) <;> simp
@[simp] theorem State.checkHot_poison (s : State) (ctx die k : Nat) : (s.checkHot ctx die k).poison = s.poison := by simp only [State.checkHot]; (repeat' split) <;> simp
@[simp] theorem State.checkHot_peerMem (s : State) (ctx die k : Nat) : (s.checkHot ctx die k).peerMem = s.peerMem := by simp only [State.checkHot]; (repeat' split) <;> simp
@[simp] theorem State.checkHot_bufs (s : State) (ctx die k : Nat) : (s.checkHot ctx die k).bufs = s.bufs := by simp only [State.checkHot]; (repeat' split) <;> simp
@[simp] theorem State.checkHot_transit (s : State) (ctx die k : Nat) : (s.checkHot ctx die k).transit = s.transit := by simp only [State.checkHot]; (repeat' split) <;> simp
@[simp] theorem State.checkHot_moveAt (s : State) (ctx die k : Nat) : (s.checkHot ctx die k).moveAt = s.moveAt := by simp only [State.checkHot]; (repeat' split) <;> simp
@[simp] theorem State.checkHot_frames (s : State) (ctx die k : Nat) : (s.checkHot ctx die k).frames = s.frames := by simp only [State.checkHot]; (repeat' split) <;> simp
@[simp] theorem State.checkHot_lastLine (s : State) (ctx die k : Nat) : (s.checkHot ctx die k).lastLine = s.lastLine := by simp only [State.checkHot]; (repeat' split) <;> simp
@[simp] theorem State.checkHot_readCopies (s : State) (ctx die k : Nat) : (s.checkHot ctx die k).readCopies = s.readCopies := by simp only [State.checkHot]; (repeat' split) <;> simp
@[simp] theorem State.checkHot_dirty (s : State) (ctx die k : Nat) : (s.checkHot ctx die k).dirty = s.dirty := by simp only [State.checkHot]; (repeat' split) <;> simp
@[simp] theorem State.checkHot_cells (s : State) (ctx die k : Nat) : (s.checkHot ctx die k).cells = s.cells := by simp only [State.checkHot]; (repeat' split) <;> simp
@[simp] theorem State.checkHot_lodge (s : State) (ctx die k : Nat) : (s.checkHot ctx die k).lodge = s.lodge := by simp only [State.checkHot]; (repeat' split) <;> simp
@[simp] theorem State.checkHot_slots (s : State) (ctx die k : Nat) : (s.checkHot ctx die k).slots = s.slots := by simp only [State.checkHot]; (repeat' split) <;> simp
@[simp] theorem State.checkHot_lost (s : State) (ctx die k : Nat) : (s.checkHot ctx die k).lost = s.lost := by simp only [State.checkHot]; (repeat' split) <;> simp
@[simp] theorem State.checkHot_evicted (s : State) (ctx die k : Nat) : (s.checkHot ctx die k).evicted = s.evicted := by simp only [State.checkHot]; (repeat' split) <;> simp
@[simp] theorem State.checkHot_renewed (s : State) (ctx die k : Nat) : (s.checkHot ctx die k).renewed = s.renewed := by simp only [State.checkHot]; (repeat' split) <;> simp
@[simp] theorem State.checkHot_late (s : State) (ctx die k : Nat) : (s.checkHot ctx die k).late = s.late := by simp only [State.checkHot]; (repeat' split) <;> simp
@[simp] theorem State.checkHot_retained (s : State) (ctx die k : Nat) : (s.checkHot ctx die k).retained = s.retained := by simp only [State.checkHot]; (repeat' split) <;> simp

/- ### setCount -/

@[simp] theorem State.setCount_clk (s : State) (k n : Nat) : (s.setCount k n).clk = s.clk := by simp [State.setCount]
@[simp] theorem State.setCount_tick (s : State) (k n : Nat) : (s.setCount k n).tick = s.tick := by simp [State.setCount]
@[simp] theorem State.setCount_turn (s : State) (k n : Nat) : (s.setCount k n).turn = s.turn := by simp [State.setCount]
@[simp] theorem State.setCount_inbox (s : State) (k n : Nat) : (s.setCount k n).inbox = s.inbox := by simp [State.setCount]
@[simp] theorem State.setCount_cur (s : State) (k n : Nat) : (s.setCount k n).cur = s.cur := by simp [State.setCount]
@[simp] theorem State.setCount_instances (s : State) (k n : Nat) : (s.setCount k n).instances = s.instances := by simp [State.setCount]
@[simp] theorem State.setCount_issuing (s : State) (k n : Nat) : (s.setCount k n).issuing = s.issuing := by simp [State.setCount]
@[simp] theorem State.setCount_completing (s : State) (k n : Nat) : (s.setCount k n).completing = s.completing := by simp [State.setCount]
@[simp] theorem State.setCount_teams (s : State) (k n : Nat) : (s.setCount k n).teams = s.teams := by simp [State.setCount]
@[simp] theorem State.setCount_launches (s : State) (k n : Nat) : (s.setCount k n).launches = s.launches := by simp [State.setCount]
@[simp] theorem State.setCount_ctxs (s : State) (k n : Nat) : (s.setCount k n).ctxs = s.ctxs := by simp [State.setCount]
@[simp] theorem State.setCount_groups (s : State) (k n : Nat) : (s.setCount k n).groups = s.groups := by simp [State.setCount]
@[simp] theorem State.setCount_cores (s : State) (k n : Nat) : (s.setCount k n).cores = s.cores := by simp [State.setCount]
@[simp] theorem State.setCount_mem (s : State) (k n : Nat) : (s.setCount k n).mem = s.mem := by simp [State.setCount]
@[simp] theorem State.setCount_poison (s : State) (k n : Nat) : (s.setCount k n).poison = s.poison := by simp [State.setCount]
@[simp] theorem State.setCount_peerMem (s : State) (k n : Nat) : (s.setCount k n).peerMem = s.peerMem := by simp [State.setCount]
@[simp] theorem State.setCount_bufs (s : State) (k n : Nat) : (s.setCount k n).bufs = s.bufs := by simp [State.setCount]
@[simp] theorem State.setCount_transit (s : State) (k n : Nat) : (s.setCount k n).transit = s.transit := by simp [State.setCount]
@[simp] theorem State.setCount_moveAt (s : State) (k n : Nat) : (s.setCount k n).moveAt = s.moveAt := by simp [State.setCount]
@[simp] theorem State.setCount_lastLine (s : State) (k n : Nat) : (s.setCount k n).lastLine = s.lastLine := by simp [State.setCount]
@[simp] theorem State.setCount_readCopies (s : State) (k n : Nat) : (s.setCount k n).readCopies = s.readCopies := by simp [State.setCount]
@[simp] theorem State.setCount_dirty (s : State) (k n : Nat) : (s.setCount k n).dirty = s.dirty := by simp [State.setCount]
@[simp] theorem State.setCount_cells (s : State) (k n : Nat) : (s.setCount k n).cells = s.cells := by simp [State.setCount]
@[simp] theorem State.setCount_lodge (s : State) (k n : Nat) : (s.setCount k n).lodge = s.lodge := by simp [State.setCount]
@[simp] theorem State.setCount_slots (s : State) (k n : Nat) : (s.setCount k n).slots = s.slots := by simp [State.setCount]
@[simp] theorem State.setCount_lost (s : State) (k n : Nat) : (s.setCount k n).lost = s.lost := by simp [State.setCount]
@[simp] theorem State.setCount_evicted (s : State) (k n : Nat) : (s.setCount k n).evicted = s.evicted := by simp [State.setCount]
@[simp] theorem State.setCount_renewed (s : State) (k n : Nat) : (s.setCount k n).renewed = s.renewed := by simp [State.setCount]
@[simp] theorem State.setCount_late (s : State) (k n : Nat) : (s.setCount k n).late = s.late := by simp [State.setCount]
@[simp] theorem State.setCount_retained (s : State) (k n : Nat) : (s.setCount k n).retained = s.retained := by simp [State.setCount]

/- ### countFrame -/

@[simp] theorem State.countFrame_clk (s : State) (ctx die line : Nat) : (s.countFrame ctx die line).clk = s.clk := by unfold State.countFrame; (repeat' split) <;> simp
@[simp] theorem State.countFrame_tick (s : State) (ctx die line : Nat) : (s.countFrame ctx die line).tick = s.tick := by unfold State.countFrame; (repeat' split) <;> simp
@[simp] theorem State.countFrame_turn (s : State) (ctx die line : Nat) : (s.countFrame ctx die line).turn = s.turn := by unfold State.countFrame; (repeat' split) <;> simp
@[simp] theorem State.countFrame_inbox (s : State) (ctx die line : Nat) : (s.countFrame ctx die line).inbox = s.inbox := by unfold State.countFrame; (repeat' split) <;> simp
@[simp] theorem State.countFrame_cur (s : State) (ctx die line : Nat) : (s.countFrame ctx die line).cur = s.cur := by unfold State.countFrame; (repeat' split) <;> simp
@[simp] theorem State.countFrame_instances (s : State) (ctx die line : Nat) : (s.countFrame ctx die line).instances = s.instances := by unfold State.countFrame; (repeat' split) <;> simp
@[simp] theorem State.countFrame_issuing (s : State) (ctx die line : Nat) : (s.countFrame ctx die line).issuing = s.issuing := by unfold State.countFrame; (repeat' split) <;> simp
@[simp] theorem State.countFrame_completing (s : State) (ctx die line : Nat) : (s.countFrame ctx die line).completing = s.completing := by unfold State.countFrame; (repeat' split) <;> simp
@[simp] theorem State.countFrame_teams (s : State) (ctx die line : Nat) : (s.countFrame ctx die line).teams = s.teams := by unfold State.countFrame; (repeat' split) <;> simp
@[simp] theorem State.countFrame_launches (s : State) (ctx die line : Nat) : (s.countFrame ctx die line).launches = s.launches := by unfold State.countFrame; (repeat' split) <;> simp
@[simp] theorem State.countFrame_ctxs (s : State) (ctx die line : Nat) : (s.countFrame ctx die line).ctxs = s.ctxs := by unfold State.countFrame; (repeat' split) <;> simp
@[simp] theorem State.countFrame_groups (s : State) (ctx die line : Nat) : (s.countFrame ctx die line).groups = s.groups := by unfold State.countFrame; (repeat' split) <;> simp
@[simp] theorem State.countFrame_cores (s : State) (ctx die line : Nat) : (s.countFrame ctx die line).cores = s.cores := by unfold State.countFrame; (repeat' split) <;> simp
@[simp] theorem State.countFrame_mem (s : State) (ctx die line : Nat) : (s.countFrame ctx die line).mem = s.mem := by unfold State.countFrame; (repeat' split) <;> simp
@[simp] theorem State.countFrame_poison (s : State) (ctx die line : Nat) : (s.countFrame ctx die line).poison = s.poison := by unfold State.countFrame; (repeat' split) <;> simp
@[simp] theorem State.countFrame_peerMem (s : State) (ctx die line : Nat) : (s.countFrame ctx die line).peerMem = s.peerMem := by unfold State.countFrame; (repeat' split) <;> simp
@[simp] theorem State.countFrame_bufs (s : State) (ctx die line : Nat) : (s.countFrame ctx die line).bufs = s.bufs := by unfold State.countFrame; (repeat' split) <;> simp
@[simp] theorem State.countFrame_transit (s : State) (ctx die line : Nat) : (s.countFrame ctx die line).transit = s.transit := by unfold State.countFrame; (repeat' split) <;> simp
@[simp] theorem State.countFrame_moveAt (s : State) (ctx die line : Nat) : (s.countFrame ctx die line).moveAt = s.moveAt := by unfold State.countFrame; (repeat' split) <;> simp
@[simp] theorem State.countFrame_readCopies (s : State) (ctx die line : Nat) : (s.countFrame ctx die line).readCopies = s.readCopies := by unfold State.countFrame; (repeat' split) <;> simp
@[simp] theorem State.countFrame_dirty (s : State) (ctx die line : Nat) : (s.countFrame ctx die line).dirty = s.dirty := by unfold State.countFrame; (repeat' split) <;> simp
@[simp] theorem State.countFrame_cells (s : State) (ctx die line : Nat) : (s.countFrame ctx die line).cells = s.cells := by unfold State.countFrame; (repeat' split) <;> simp
@[simp] theorem State.countFrame_lodge (s : State) (ctx die line : Nat) : (s.countFrame ctx die line).lodge = s.lodge := by unfold State.countFrame; (repeat' split) <;> simp
@[simp] theorem State.countFrame_slots (s : State) (ctx die line : Nat) : (s.countFrame ctx die line).slots = s.slots := by unfold State.countFrame; (repeat' split) <;> simp
@[simp] theorem State.countFrame_lost (s : State) (ctx die line : Nat) : (s.countFrame ctx die line).lost = s.lost := by unfold State.countFrame; (repeat' split) <;> simp
@[simp] theorem State.countFrame_evicted (s : State) (ctx die line : Nat) : (s.countFrame ctx die line).evicted = s.evicted := by unfold State.countFrame; (repeat' split) <;> simp
@[simp] theorem State.countFrame_renewed (s : State) (ctx die line : Nat) : (s.countFrame ctx die line).renewed = s.renewed := by unfold State.countFrame; (repeat' split) <;> simp
@[simp] theorem State.countFrame_late (s : State) (ctx die line : Nat) : (s.countFrame ctx die line).late = s.late := by unfold State.countFrame; (repeat' split) <;> simp
@[simp] theorem State.countFrame_retained (s : State) (ctx die line : Nat) : (s.countFrame ctx die line).retained = s.retained := by unfold State.countFrame; (repeat' split) <;> simp

/- ### dropObjects -/

@[simp] theorem State.dropObjects_clk (s : State) (b : Nat) : (s.dropObjects b).clk = s.clk := rfl
@[simp] theorem State.dropObjects_tick (s : State) (b : Nat) : (s.dropObjects b).tick = s.tick := rfl
@[simp] theorem State.dropObjects_turn (s : State) (b : Nat) : (s.dropObjects b).turn = s.turn := rfl
@[simp] theorem State.dropObjects_inbox (s : State) (b : Nat) : (s.dropObjects b).inbox = s.inbox := rfl
@[simp] theorem State.dropObjects_cur (s : State) (b : Nat) : (s.dropObjects b).cur = s.cur := rfl
@[simp] theorem State.dropObjects_instances (s : State) (b : Nat) : (s.dropObjects b).instances = s.instances := rfl
@[simp] theorem State.dropObjects_issuing (s : State) (b : Nat) : (s.dropObjects b).issuing = s.issuing := rfl
@[simp] theorem State.dropObjects_completing (s : State) (b : Nat) : (s.dropObjects b).completing = s.completing := rfl
@[simp] theorem State.dropObjects_teams (s : State) (b : Nat) : (s.dropObjects b).teams = s.teams := rfl
@[simp] theorem State.dropObjects_launches (s : State) (b : Nat) : (s.dropObjects b).launches = s.launches := rfl
@[simp] theorem State.dropObjects_ctxs (s : State) (b : Nat) : (s.dropObjects b).ctxs = s.ctxs := rfl
@[simp] theorem State.dropObjects_groups (s : State) (b : Nat) : (s.dropObjects b).groups = s.groups := rfl
@[simp] theorem State.dropObjects_cores (s : State) (b : Nat) : (s.dropObjects b).cores = s.cores := rfl
@[simp] theorem State.dropObjects_mem (s : State) (b : Nat) : (s.dropObjects b).mem = s.mem := rfl
@[simp] theorem State.dropObjects_poison (s : State) (b : Nat) : (s.dropObjects b).poison = s.poison := rfl
@[simp] theorem State.dropObjects_hostMem (s : State) (b : Nat) : (s.dropObjects b).hostMem = s.hostMem := rfl
@[simp] theorem State.dropObjects_peerMem (s : State) (b : Nat) : (s.dropObjects b).peerMem = s.peerMem := rfl
@[simp] theorem State.dropObjects_bufs (s : State) (b : Nat) : (s.dropObjects b).bufs = s.bufs := rfl
@[simp] theorem State.dropObjects_transit (s : State) (b : Nat) : (s.dropObjects b).transit = s.transit := rfl
@[simp] theorem State.dropObjects_moveAt (s : State) (b : Nat) : (s.dropObjects b).moveAt = s.moveAt := rfl
@[simp] theorem State.dropObjects_frames (s : State) (b : Nat) : (s.dropObjects b).frames = s.frames := rfl
@[simp] theorem State.dropObjects_lastLine (s : State) (b : Nat) : (s.dropObjects b).lastLine = s.lastLine := rfl
@[simp] theorem State.dropObjects_readCopies (s : State) (b : Nat) : (s.dropObjects b).readCopies = s.readCopies := rfl
@[simp] theorem State.dropObjects_dirty (s : State) (b : Nat) : (s.dropObjects b).dirty = s.dirty := rfl
@[simp] theorem State.dropObjects_slots (s : State) (b : Nat) : (s.dropObjects b).slots = s.slots := rfl
@[simp] theorem State.dropObjects_regs (s : State) (b : Nat) : (s.dropObjects b).regs = s.regs := rfl
@[simp] theorem State.dropObjects_events (s : State) (b : Nat) : (s.dropObjects b).events = s.events := rfl
@[simp] theorem State.dropObjects_lost (s : State) (b : Nat) : (s.dropObjects b).lost = s.lost := rfl
@[simp] theorem State.dropObjects_evicted (s : State) (b : Nat) : (s.dropObjects b).evicted = s.evicted := rfl
@[simp] theorem State.dropObjects_renewed (s : State) (b : Nat) : (s.dropObjects b).renewed = s.renewed := rfl
@[simp] theorem State.dropObjects_late (s : State) (b : Nat) : (s.dropObjects b).late = s.late := rfl
@[simp] theorem State.dropObjects_retained (s : State) (b : Nat) : (s.dropObjects b).retained = s.retained := rfl

/- ### putEntry -/

@[simp] theorem State.putEntry_clk (s : State) (i off : Nat) (bs : List Byte) : (s.putEntry i off bs).clk = s.clk := by simp only [State.putEntry]; (repeat' split) <;> simp
@[simp] theorem State.putEntry_tick (s : State) (i off : Nat) (bs : List Byte) : (s.putEntry i off bs).tick = s.tick := by simp only [State.putEntry]; (repeat' split) <;> simp
@[simp] theorem State.putEntry_turn (s : State) (i off : Nat) (bs : List Byte) : (s.putEntry i off bs).turn = s.turn := by simp only [State.putEntry]; (repeat' split) <;> simp
@[simp] theorem State.putEntry_inbox (s : State) (i off : Nat) (bs : List Byte) : (s.putEntry i off bs).inbox = s.inbox := by simp only [State.putEntry]; (repeat' split) <;> simp
@[simp] theorem State.putEntry_cur (s : State) (i off : Nat) (bs : List Byte) : (s.putEntry i off bs).cur = s.cur := by simp only [State.putEntry]; (repeat' split) <;> simp
@[simp] theorem State.putEntry_instances (s : State) (i off : Nat) (bs : List Byte) : (s.putEntry i off bs).instances = s.instances := by simp only [State.putEntry]; (repeat' split) <;> simp
@[simp] theorem State.putEntry_issuing (s : State) (i off : Nat) (bs : List Byte) : (s.putEntry i off bs).issuing = s.issuing := by simp only [State.putEntry]; (repeat' split) <;> simp
@[simp] theorem State.putEntry_completing (s : State) (i off : Nat) (bs : List Byte) : (s.putEntry i off bs).completing = s.completing := by simp only [State.putEntry]; (repeat' split) <;> simp
@[simp] theorem State.putEntry_teams (s : State) (i off : Nat) (bs : List Byte) : (s.putEntry i off bs).teams = s.teams := by simp only [State.putEntry]; (repeat' split) <;> simp
@[simp] theorem State.putEntry_launches (s : State) (i off : Nat) (bs : List Byte) : (s.putEntry i off bs).launches = s.launches := by simp only [State.putEntry]; (repeat' split) <;> simp
@[simp] theorem State.putEntry_ctxs (s : State) (i off : Nat) (bs : List Byte) : (s.putEntry i off bs).ctxs = s.ctxs := by simp only [State.putEntry]; (repeat' split) <;> simp
@[simp] theorem State.putEntry_groups (s : State) (i off : Nat) (bs : List Byte) : (s.putEntry i off bs).groups = s.groups := by simp only [State.putEntry]; (repeat' split) <;> simp
@[simp] theorem State.putEntry_cores (s : State) (i off : Nat) (bs : List Byte) : (s.putEntry i off bs).cores = s.cores := by simp only [State.putEntry]; (repeat' split) <;> simp
@[simp] theorem State.putEntry_mem (s : State) (i off : Nat) (bs : List Byte) : (s.putEntry i off bs).mem = s.mem := by simp only [State.putEntry]; (repeat' split) <;> simp
@[simp] theorem State.putEntry_poison (s : State) (i off : Nat) (bs : List Byte) : (s.putEntry i off bs).poison = s.poison := by simp only [State.putEntry]; (repeat' split) <;> simp
@[simp] theorem State.putEntry_hostMem (s : State) (i off : Nat) (bs : List Byte) : (s.putEntry i off bs).hostMem = s.hostMem := by simp only [State.putEntry]; (repeat' split) <;> simp
@[simp] theorem State.putEntry_peerMem (s : State) (i off : Nat) (bs : List Byte) : (s.putEntry i off bs).peerMem = s.peerMem := by simp only [State.putEntry]; (repeat' split) <;> simp
@[simp] theorem State.putEntry_transit (s : State) (i off : Nat) (bs : List Byte) : (s.putEntry i off bs).transit = s.transit := by simp only [State.putEntry]; (repeat' split) <;> simp
@[simp] theorem State.putEntry_moveAt (s : State) (i off : Nat) (bs : List Byte) : (s.putEntry i off bs).moveAt = s.moveAt := by simp only [State.putEntry]; (repeat' split) <;> simp
@[simp] theorem State.putEntry_frames (s : State) (i off : Nat) (bs : List Byte) : (s.putEntry i off bs).frames = s.frames := by simp only [State.putEntry]; (repeat' split) <;> simp
@[simp] theorem State.putEntry_lastLine (s : State) (i off : Nat) (bs : List Byte) : (s.putEntry i off bs).lastLine = s.lastLine := by simp only [State.putEntry]; (repeat' split) <;> simp
@[simp] theorem State.putEntry_readCopies (s : State) (i off : Nat) (bs : List Byte) : (s.putEntry i off bs).readCopies = s.readCopies := by simp only [State.putEntry]; (repeat' split) <;> simp
@[simp] theorem State.putEntry_dirty (s : State) (i off : Nat) (bs : List Byte) : (s.putEntry i off bs).dirty = s.dirty := by simp only [State.putEntry]; (repeat' split) <;> simp
@[simp] theorem State.putEntry_slots (s : State) (i off : Nat) (bs : List Byte) : (s.putEntry i off bs).slots = s.slots := by simp only [State.putEntry]; (repeat' split) <;> simp
@[simp] theorem State.putEntry_regs (s : State) (i off : Nat) (bs : List Byte) : (s.putEntry i off bs).regs = s.regs := by simp only [State.putEntry]; (repeat' split) <;> simp
@[simp] theorem State.putEntry_events (s : State) (i off : Nat) (bs : List Byte) : (s.putEntry i off bs).events = s.events := by simp only [State.putEntry]; (repeat' split) <;> simp
@[simp] theorem State.putEntry_lost (s : State) (i off : Nat) (bs : List Byte) : (s.putEntry i off bs).lost = s.lost := by simp only [State.putEntry]; (repeat' split) <;> simp
@[simp] theorem State.putEntry_evicted (s : State) (i off : Nat) (bs : List Byte) : (s.putEntry i off bs).evicted = s.evicted := by simp only [State.putEntry]; (repeat' split) <;> simp
@[simp] theorem State.putEntry_renewed (s : State) (i off : Nat) (bs : List Byte) : (s.putEntry i off bs).renewed = s.renewed := by simp only [State.putEntry]; (repeat' split) <;> simp
@[simp] theorem State.putEntry_late (s : State) (i off : Nat) (bs : List Byte) : (s.putEntry i off bs).late = s.late := by simp only [State.putEntry]; (repeat' split) <;> simp
@[simp] theorem State.putEntry_retained (s : State) (i off : Nat) (bs : List Byte) : (s.putEntry i off bs).retained = s.retained := by simp only [State.putEntry]; (repeat' split) <;> simp

/- ### putRecord -/

@[simp] theorem State.putRecord_clk (s : State) (k off : Nat) (bs : List Byte) : (s.putRecord k off bs).clk = s.clk := by simp only [State.putRecord]; (repeat' split) <;> simp
@[simp] theorem State.putRecord_tick (s : State) (k off : Nat) (bs : List Byte) : (s.putRecord k off bs).tick = s.tick := by simp only [State.putRecord]; (repeat' split) <;> simp
@[simp] theorem State.putRecord_turn (s : State) (k off : Nat) (bs : List Byte) : (s.putRecord k off bs).turn = s.turn := by simp only [State.putRecord]; (repeat' split) <;> simp
@[simp] theorem State.putRecord_inbox (s : State) (k off : Nat) (bs : List Byte) : (s.putRecord k off bs).inbox = s.inbox := by simp only [State.putRecord]; (repeat' split) <;> simp
@[simp] theorem State.putRecord_cur (s : State) (k off : Nat) (bs : List Byte) : (s.putRecord k off bs).cur = s.cur := by simp only [State.putRecord]; (repeat' split) <;> simp
@[simp] theorem State.putRecord_instances (s : State) (k off : Nat) (bs : List Byte) : (s.putRecord k off bs).instances = s.instances := by simp only [State.putRecord]; (repeat' split) <;> simp
@[simp] theorem State.putRecord_issuing (s : State) (k off : Nat) (bs : List Byte) : (s.putRecord k off bs).issuing = s.issuing := by simp only [State.putRecord]; (repeat' split) <;> simp
@[simp] theorem State.putRecord_completing (s : State) (k off : Nat) (bs : List Byte) : (s.putRecord k off bs).completing = s.completing := by simp only [State.putRecord]; (repeat' split) <;> simp
@[simp] theorem State.putRecord_teams (s : State) (k off : Nat) (bs : List Byte) : (s.putRecord k off bs).teams = s.teams := by simp only [State.putRecord]; (repeat' split) <;> simp
@[simp] theorem State.putRecord_launches (s : State) (k off : Nat) (bs : List Byte) : (s.putRecord k off bs).launches = s.launches := by simp only [State.putRecord]; (repeat' split) <;> simp
@[simp] theorem State.putRecord_ctxs (s : State) (k off : Nat) (bs : List Byte) : (s.putRecord k off bs).ctxs = s.ctxs := by simp only [State.putRecord]; (repeat' split) <;> simp
@[simp] theorem State.putRecord_groups (s : State) (k off : Nat) (bs : List Byte) : (s.putRecord k off bs).groups = s.groups := by simp only [State.putRecord]; (repeat' split) <;> simp
@[simp] theorem State.putRecord_cores (s : State) (k off : Nat) (bs : List Byte) : (s.putRecord k off bs).cores = s.cores := by simp only [State.putRecord]; (repeat' split) <;> simp
@[simp] theorem State.putRecord_mem (s : State) (k off : Nat) (bs : List Byte) : (s.putRecord k off bs).mem = s.mem := by simp only [State.putRecord]; (repeat' split) <;> simp
@[simp] theorem State.putRecord_poison (s : State) (k off : Nat) (bs : List Byte) : (s.putRecord k off bs).poison = s.poison := by simp only [State.putRecord]; (repeat' split) <;> simp
@[simp] theorem State.putRecord_peerMem (s : State) (k off : Nat) (bs : List Byte) : (s.putRecord k off bs).peerMem = s.peerMem := by simp only [State.putRecord]; (repeat' split) <;> simp
@[simp] theorem State.putRecord_bufs (s : State) (k off : Nat) (bs : List Byte) : (s.putRecord k off bs).bufs = s.bufs := by simp only [State.putRecord]; (repeat' split) <;> simp
@[simp] theorem State.putRecord_transit (s : State) (k off : Nat) (bs : List Byte) : (s.putRecord k off bs).transit = s.transit := by simp only [State.putRecord]; (repeat' split) <;> simp
@[simp] theorem State.putRecord_moveAt (s : State) (k off : Nat) (bs : List Byte) : (s.putRecord k off bs).moveAt = s.moveAt := by simp only [State.putRecord]; (repeat' split) <;> simp
@[simp] theorem State.putRecord_lastLine (s : State) (k off : Nat) (bs : List Byte) : (s.putRecord k off bs).lastLine = s.lastLine := by simp only [State.putRecord]; (repeat' split) <;> simp
@[simp] theorem State.putRecord_readCopies (s : State) (k off : Nat) (bs : List Byte) : (s.putRecord k off bs).readCopies = s.readCopies := by simp only [State.putRecord]; (repeat' split) <;> simp
@[simp] theorem State.putRecord_dirty (s : State) (k off : Nat) (bs : List Byte) : (s.putRecord k off bs).dirty = s.dirty := by simp only [State.putRecord]; (repeat' split) <;> simp
@[simp] theorem State.putRecord_cells (s : State) (k off : Nat) (bs : List Byte) : (s.putRecord k off bs).cells = s.cells := by simp only [State.putRecord]; (repeat' split) <;> simp
@[simp] theorem State.putRecord_lodge (s : State) (k off : Nat) (bs : List Byte) : (s.putRecord k off bs).lodge = s.lodge := by simp only [State.putRecord]; (repeat' split) <;> simp
@[simp] theorem State.putRecord_slots (s : State) (k off : Nat) (bs : List Byte) : (s.putRecord k off bs).slots = s.slots := by simp only [State.putRecord]; (repeat' split) <;> simp
@[simp] theorem State.putRecord_lost (s : State) (k off : Nat) (bs : List Byte) : (s.putRecord k off bs).lost = s.lost := by simp only [State.putRecord]; (repeat' split) <;> simp
@[simp] theorem State.putRecord_evicted (s : State) (k off : Nat) (bs : List Byte) : (s.putRecord k off bs).evicted = s.evicted := by simp only [State.putRecord]; (repeat' split) <;> simp
@[simp] theorem State.putRecord_renewed (s : State) (k off : Nat) (bs : List Byte) : (s.putRecord k off bs).renewed = s.renewed := by simp only [State.putRecord]; (repeat' split) <;> simp
@[simp] theorem State.putRecord_late (s : State) (k off : Nat) (bs : List Byte) : (s.putRecord k off bs).late = s.late := by simp only [State.putRecord]; (repeat' split) <;> simp
@[simp] theorem State.putRecord_retained (s : State) (k off : Nat) (bs : List Byte) : (s.putRecord k off bs).retained = s.retained := by simp only [State.putRecord]; (repeat' split) <;> simp

/- ### putOwn -/

@[simp] theorem State.putOwn_clk (s : State) (a : Nat) (bs : List Byte) : (s.putOwn a bs).clk = s.clk := rfl
@[simp] theorem State.putOwn_tick (s : State) (a : Nat) (bs : List Byte) : (s.putOwn a bs).tick = s.tick := rfl
@[simp] theorem State.putOwn_turn (s : State) (a : Nat) (bs : List Byte) : (s.putOwn a bs).turn = s.turn := rfl
@[simp] theorem State.putOwn_inbox (s : State) (a : Nat) (bs : List Byte) : (s.putOwn a bs).inbox = s.inbox := rfl
@[simp] theorem State.putOwn_cur (s : State) (a : Nat) (bs : List Byte) : (s.putOwn a bs).cur = s.cur := rfl
@[simp] theorem State.putOwn_instances (s : State) (a : Nat) (bs : List Byte) : (s.putOwn a bs).instances = s.instances := rfl
@[simp] theorem State.putOwn_issuing (s : State) (a : Nat) (bs : List Byte) : (s.putOwn a bs).issuing = s.issuing := rfl
@[simp] theorem State.putOwn_completing (s : State) (a : Nat) (bs : List Byte) : (s.putOwn a bs).completing = s.completing := rfl
@[simp] theorem State.putOwn_teams (s : State) (a : Nat) (bs : List Byte) : (s.putOwn a bs).teams = s.teams := rfl
@[simp] theorem State.putOwn_launches (s : State) (a : Nat) (bs : List Byte) : (s.putOwn a bs).launches = s.launches := rfl
@[simp] theorem State.putOwn_ctxs (s : State) (a : Nat) (bs : List Byte) : (s.putOwn a bs).ctxs = s.ctxs := rfl
@[simp] theorem State.putOwn_groups (s : State) (a : Nat) (bs : List Byte) : (s.putOwn a bs).groups = s.groups := rfl
@[simp] theorem State.putOwn_cores (s : State) (a : Nat) (bs : List Byte) : (s.putOwn a bs).cores = s.cores := rfl
@[simp] theorem State.putOwn_poison (s : State) (a : Nat) (bs : List Byte) : (s.putOwn a bs).poison = s.poison := rfl
@[simp] theorem State.putOwn_hostMem (s : State) (a : Nat) (bs : List Byte) : (s.putOwn a bs).hostMem = s.hostMem := rfl
@[simp] theorem State.putOwn_peerMem (s : State) (a : Nat) (bs : List Byte) : (s.putOwn a bs).peerMem = s.peerMem := rfl
@[simp] theorem State.putOwn_bufs (s : State) (a : Nat) (bs : List Byte) : (s.putOwn a bs).bufs = s.bufs := rfl
@[simp] theorem State.putOwn_transit (s : State) (a : Nat) (bs : List Byte) : (s.putOwn a bs).transit = s.transit := rfl
@[simp] theorem State.putOwn_moveAt (s : State) (a : Nat) (bs : List Byte) : (s.putOwn a bs).moveAt = s.moveAt := rfl
@[simp] theorem State.putOwn_frames (s : State) (a : Nat) (bs : List Byte) : (s.putOwn a bs).frames = s.frames := rfl
@[simp] theorem State.putOwn_lastLine (s : State) (a : Nat) (bs : List Byte) : (s.putOwn a bs).lastLine = s.lastLine := rfl
@[simp] theorem State.putOwn_readCopies (s : State) (a : Nat) (bs : List Byte) : (s.putOwn a bs).readCopies = s.readCopies := rfl
@[simp] theorem State.putOwn_dirty (s : State) (a : Nat) (bs : List Byte) : (s.putOwn a bs).dirty = s.dirty := rfl
@[simp] theorem State.putOwn_cells (s : State) (a : Nat) (bs : List Byte) : (s.putOwn a bs).cells = s.cells := rfl
@[simp] theorem State.putOwn_lodge (s : State) (a : Nat) (bs : List Byte) : (s.putOwn a bs).lodge = s.lodge := rfl
@[simp] theorem State.putOwn_slots (s : State) (a : Nat) (bs : List Byte) : (s.putOwn a bs).slots = s.slots := rfl
@[simp] theorem State.putOwn_regs (s : State) (a : Nat) (bs : List Byte) : (s.putOwn a bs).regs = s.regs := rfl
@[simp] theorem State.putOwn_events (s : State) (a : Nat) (bs : List Byte) : (s.putOwn a bs).events = s.events := rfl
@[simp] theorem State.putOwn_lost (s : State) (a : Nat) (bs : List Byte) : (s.putOwn a bs).lost = s.lost := rfl
@[simp] theorem State.putOwn_evicted (s : State) (a : Nat) (bs : List Byte) : (s.putOwn a bs).evicted = s.evicted := rfl
@[simp] theorem State.putOwn_renewed (s : State) (a : Nat) (bs : List Byte) : (s.putOwn a bs).renewed = s.renewed := rfl
@[simp] theorem State.putOwn_late (s : State) (a : Nat) (bs : List Byte) : (s.putOwn a bs).late = s.late := rfl
@[simp] theorem State.putOwn_retained (s : State) (a : Nat) (bs : List Byte) : (s.putOwn a bs).retained = s.retained := rfl

/- ### putMem -/

@[simp] theorem State.putMem_clk (s : State) (a : Nat) (bs : List Byte) : (s.putMem a bs).clk = s.clk := rfl
@[simp] theorem State.putMem_tick (s : State) (a : Nat) (bs : List Byte) : (s.putMem a bs).tick = s.tick := rfl
@[simp] theorem State.putMem_turn (s : State) (a : Nat) (bs : List Byte) : (s.putMem a bs).turn = s.turn := rfl
@[simp] theorem State.putMem_inbox (s : State) (a : Nat) (bs : List Byte) : (s.putMem a bs).inbox = s.inbox := rfl
@[simp] theorem State.putMem_cur (s : State) (a : Nat) (bs : List Byte) : (s.putMem a bs).cur = s.cur := rfl
@[simp] theorem State.putMem_instances (s : State) (a : Nat) (bs : List Byte) : (s.putMem a bs).instances = s.instances := rfl
@[simp] theorem State.putMem_issuing (s : State) (a : Nat) (bs : List Byte) : (s.putMem a bs).issuing = s.issuing := rfl
@[simp] theorem State.putMem_completing (s : State) (a : Nat) (bs : List Byte) : (s.putMem a bs).completing = s.completing := rfl
@[simp] theorem State.putMem_teams (s : State) (a : Nat) (bs : List Byte) : (s.putMem a bs).teams = s.teams := rfl
@[simp] theorem State.putMem_launches (s : State) (a : Nat) (bs : List Byte) : (s.putMem a bs).launches = s.launches := rfl
@[simp] theorem State.putMem_ctxs (s : State) (a : Nat) (bs : List Byte) : (s.putMem a bs).ctxs = s.ctxs := rfl
@[simp] theorem State.putMem_groups (s : State) (a : Nat) (bs : List Byte) : (s.putMem a bs).groups = s.groups := rfl
@[simp] theorem State.putMem_cores (s : State) (a : Nat) (bs : List Byte) : (s.putMem a bs).cores = s.cores := rfl
@[simp] theorem State.putMem_poison (s : State) (a : Nat) (bs : List Byte) : (s.putMem a bs).poison = s.poison := rfl
@[simp] theorem State.putMem_hostMem (s : State) (a : Nat) (bs : List Byte) : (s.putMem a bs).hostMem = s.hostMem := rfl
@[simp] theorem State.putMem_peerMem (s : State) (a : Nat) (bs : List Byte) : (s.putMem a bs).peerMem = s.peerMem := rfl
@[simp] theorem State.putMem_bufs (s : State) (a : Nat) (bs : List Byte) : (s.putMem a bs).bufs = s.bufs := rfl
@[simp] theorem State.putMem_transit (s : State) (a : Nat) (bs : List Byte) : (s.putMem a bs).transit = s.transit := rfl
@[simp] theorem State.putMem_moveAt (s : State) (a : Nat) (bs : List Byte) : (s.putMem a bs).moveAt = s.moveAt := rfl
@[simp] theorem State.putMem_frames (s : State) (a : Nat) (bs : List Byte) : (s.putMem a bs).frames = s.frames := rfl
@[simp] theorem State.putMem_lastLine (s : State) (a : Nat) (bs : List Byte) : (s.putMem a bs).lastLine = s.lastLine := rfl
@[simp] theorem State.putMem_readCopies (s : State) (a : Nat) (bs : List Byte) : (s.putMem a bs).readCopies = s.readCopies := rfl
@[simp] theorem State.putMem_dirty (s : State) (a : Nat) (bs : List Byte) : (s.putMem a bs).dirty = s.dirty := rfl
@[simp] theorem State.putMem_cells (s : State) (a : Nat) (bs : List Byte) : (s.putMem a bs).cells = s.cells := rfl
@[simp] theorem State.putMem_lodge (s : State) (a : Nat) (bs : List Byte) : (s.putMem a bs).lodge = s.lodge := rfl
@[simp] theorem State.putMem_slots (s : State) (a : Nat) (bs : List Byte) : (s.putMem a bs).slots = s.slots := rfl
@[simp] theorem State.putMem_regs (s : State) (a : Nat) (bs : List Byte) : (s.putMem a bs).regs = s.regs := rfl
@[simp] theorem State.putMem_events (s : State) (a : Nat) (bs : List Byte) : (s.putMem a bs).events = s.events := rfl
@[simp] theorem State.putMem_lost (s : State) (a : Nat) (bs : List Byte) : (s.putMem a bs).lost = s.lost := rfl
@[simp] theorem State.putMem_evicted (s : State) (a : Nat) (bs : List Byte) : (s.putMem a bs).evicted = s.evicted := rfl
@[simp] theorem State.putMem_renewed (s : State) (a : Nat) (bs : List Byte) : (s.putMem a bs).renewed = s.renewed := rfl
@[simp] theorem State.putMem_late (s : State) (a : Nat) (bs : List Byte) : (s.putMem a bs).late = s.late := rfl
@[simp] theorem State.putMem_retained (s : State) (a : Nat) (bs : List Byte) : (s.putMem a bs).retained = s.retained := rfl

/- ### putTables -/

@[simp] theorem State.putTables_clk (n : Nat) (s : State) (a : Nat) (bs : List Byte) : (s.putTables a bs n).clk = s.clk := by
  induction n generalizing s a bs with
  | zero => rfl
  | succ n ih => unfold State.putTables; (repeat' split) <;> simp [ih]
@[simp] theorem State.putTables_tick (n : Nat) (s : State) (a : Nat) (bs : List Byte) : (s.putTables a bs n).tick = s.tick := by
  induction n generalizing s a bs with
  | zero => rfl
  | succ n ih => unfold State.putTables; (repeat' split) <;> simp [ih]
@[simp] theorem State.putTables_turn (n : Nat) (s : State) (a : Nat) (bs : List Byte) : (s.putTables a bs n).turn = s.turn := by
  induction n generalizing s a bs with
  | zero => rfl
  | succ n ih => unfold State.putTables; (repeat' split) <;> simp [ih]
@[simp] theorem State.putTables_inbox (n : Nat) (s : State) (a : Nat) (bs : List Byte) : (s.putTables a bs n).inbox = s.inbox := by
  induction n generalizing s a bs with
  | zero => rfl
  | succ n ih => unfold State.putTables; (repeat' split) <;> simp [ih]
@[simp] theorem State.putTables_cur (n : Nat) (s : State) (a : Nat) (bs : List Byte) : (s.putTables a bs n).cur = s.cur := by
  induction n generalizing s a bs with
  | zero => rfl
  | succ n ih => unfold State.putTables; (repeat' split) <;> simp [ih]
@[simp] theorem State.putTables_instances (n : Nat) (s : State) (a : Nat) (bs : List Byte) : (s.putTables a bs n).instances = s.instances := by
  induction n generalizing s a bs with
  | zero => rfl
  | succ n ih => unfold State.putTables; (repeat' split) <;> simp [ih]
@[simp] theorem State.putTables_issuing (n : Nat) (s : State) (a : Nat) (bs : List Byte) : (s.putTables a bs n).issuing = s.issuing := by
  induction n generalizing s a bs with
  | zero => rfl
  | succ n ih => unfold State.putTables; (repeat' split) <;> simp [ih]
@[simp] theorem State.putTables_completing (n : Nat) (s : State) (a : Nat) (bs : List Byte) : (s.putTables a bs n).completing = s.completing := by
  induction n generalizing s a bs with
  | zero => rfl
  | succ n ih => unfold State.putTables; (repeat' split) <;> simp [ih]
@[simp] theorem State.putTables_teams (n : Nat) (s : State) (a : Nat) (bs : List Byte) : (s.putTables a bs n).teams = s.teams := by
  induction n generalizing s a bs with
  | zero => rfl
  | succ n ih => unfold State.putTables; (repeat' split) <;> simp [ih]
@[simp] theorem State.putTables_launches (n : Nat) (s : State) (a : Nat) (bs : List Byte) : (s.putTables a bs n).launches = s.launches := by
  induction n generalizing s a bs with
  | zero => rfl
  | succ n ih => unfold State.putTables; (repeat' split) <;> simp [ih]
@[simp] theorem State.putTables_ctxs (n : Nat) (s : State) (a : Nat) (bs : List Byte) : (s.putTables a bs n).ctxs = s.ctxs := by
  induction n generalizing s a bs with
  | zero => rfl
  | succ n ih => unfold State.putTables; (repeat' split) <;> simp [ih]
@[simp] theorem State.putTables_groups (n : Nat) (s : State) (a : Nat) (bs : List Byte) : (s.putTables a bs n).groups = s.groups := by
  induction n generalizing s a bs with
  | zero => rfl
  | succ n ih => unfold State.putTables; (repeat' split) <;> simp [ih]
@[simp] theorem State.putTables_cores (n : Nat) (s : State) (a : Nat) (bs : List Byte) : (s.putTables a bs n).cores = s.cores := by
  induction n generalizing s a bs with
  | zero => rfl
  | succ n ih => unfold State.putTables; (repeat' split) <;> simp [ih]
@[simp] theorem State.putTables_poison (n : Nat) (s : State) (a : Nat) (bs : List Byte) : (s.putTables a bs n).poison = s.poison := by
  induction n generalizing s a bs with
  | zero => rfl
  | succ n ih => unfold State.putTables; (repeat' split) <;> simp [ih]
@[simp] theorem State.putTables_peerMem (n : Nat) (s : State) (a : Nat) (bs : List Byte) : (s.putTables a bs n).peerMem = s.peerMem := by
  induction n generalizing s a bs with
  | zero => rfl
  | succ n ih => unfold State.putTables; (repeat' split) <;> simp [ih]
@[simp] theorem State.putTables_transit (n : Nat) (s : State) (a : Nat) (bs : List Byte) : (s.putTables a bs n).transit = s.transit := by
  induction n generalizing s a bs with
  | zero => rfl
  | succ n ih => unfold State.putTables; (repeat' split) <;> simp [ih]
@[simp] theorem State.putTables_moveAt (n : Nat) (s : State) (a : Nat) (bs : List Byte) : (s.putTables a bs n).moveAt = s.moveAt := by
  induction n generalizing s a bs with
  | zero => rfl
  | succ n ih => unfold State.putTables; (repeat' split) <;> simp [ih]
@[simp] theorem State.putTables_lastLine (n : Nat) (s : State) (a : Nat) (bs : List Byte) : (s.putTables a bs n).lastLine = s.lastLine := by
  induction n generalizing s a bs with
  | zero => rfl
  | succ n ih => unfold State.putTables; (repeat' split) <;> simp [ih]
@[simp] theorem State.putTables_readCopies (n : Nat) (s : State) (a : Nat) (bs : List Byte) : (s.putTables a bs n).readCopies = s.readCopies := by
  induction n generalizing s a bs with
  | zero => rfl
  | succ n ih => unfold State.putTables; (repeat' split) <;> simp [ih]
@[simp] theorem State.putTables_dirty (n : Nat) (s : State) (a : Nat) (bs : List Byte) : (s.putTables a bs n).dirty = s.dirty := by
  induction n generalizing s a bs with
  | zero => rfl
  | succ n ih => unfold State.putTables; (repeat' split) <;> simp [ih]
@[simp] theorem State.putTables_slots (n : Nat) (s : State) (a : Nat) (bs : List Byte) : (s.putTables a bs n).slots = s.slots := by
  induction n generalizing s a bs with
  | zero => rfl
  | succ n ih => unfold State.putTables; (repeat' split) <;> simp [ih]
@[simp] theorem State.putTables_lost (n : Nat) (s : State) (a : Nat) (bs : List Byte) : (s.putTables a bs n).lost = s.lost := by
  induction n generalizing s a bs with
  | zero => rfl
  | succ n ih => unfold State.putTables; (repeat' split) <;> simp [ih]
@[simp] theorem State.putTables_evicted (n : Nat) (s : State) (a : Nat) (bs : List Byte) : (s.putTables a bs n).evicted = s.evicted := by
  induction n generalizing s a bs with
  | zero => rfl
  | succ n ih => unfold State.putTables; (repeat' split) <;> simp [ih]
@[simp] theorem State.putTables_renewed (n : Nat) (s : State) (a : Nat) (bs : List Byte) : (s.putTables a bs n).renewed = s.renewed := by
  induction n generalizing s a bs with
  | zero => rfl
  | succ n ih => unfold State.putTables; (repeat' split) <;> simp [ih]
@[simp] theorem State.putTables_late (n : Nat) (s : State) (a : Nat) (bs : List Byte) : (s.putTables a bs n).late = s.late := by
  induction n generalizing s a bs with
  | zero => rfl
  | succ n ih => unfold State.putTables; (repeat' split) <;> simp [ih]
@[simp] theorem State.putTables_retained (n : Nat) (s : State) (a : Nat) (bs : List Byte) : (s.putTables a bs n).retained = s.retained := by
  induction n generalizing s a bs with
  | zero => rfl
  | succ n ih => unfold State.putTables; (repeat' split) <;> simp [ih]

/- ### putDev -/

@[simp] theorem State.putDev_clk (s : State) (a : Nat) (bs : List Byte) : (s.putDev a bs).clk = s.clk := by unfold State.putDev; (repeat' split) <;> simp
@[simp] theorem State.putDev_tick (s : State) (a : Nat) (bs : List Byte) : (s.putDev a bs).tick = s.tick := by unfold State.putDev; (repeat' split) <;> simp
@[simp] theorem State.putDev_turn (s : State) (a : Nat) (bs : List Byte) : (s.putDev a bs).turn = s.turn := by unfold State.putDev; (repeat' split) <;> simp
@[simp] theorem State.putDev_inbox (s : State) (a : Nat) (bs : List Byte) : (s.putDev a bs).inbox = s.inbox := by unfold State.putDev; (repeat' split) <;> simp
@[simp] theorem State.putDev_cur (s : State) (a : Nat) (bs : List Byte) : (s.putDev a bs).cur = s.cur := by unfold State.putDev; (repeat' split) <;> simp
@[simp] theorem State.putDev_instances (s : State) (a : Nat) (bs : List Byte) : (s.putDev a bs).instances = s.instances := by unfold State.putDev; (repeat' split) <;> simp
@[simp] theorem State.putDev_issuing (s : State) (a : Nat) (bs : List Byte) : (s.putDev a bs).issuing = s.issuing := by unfold State.putDev; (repeat' split) <;> simp
@[simp] theorem State.putDev_completing (s : State) (a : Nat) (bs : List Byte) : (s.putDev a bs).completing = s.completing := by unfold State.putDev; (repeat' split) <;> simp
@[simp] theorem State.putDev_teams (s : State) (a : Nat) (bs : List Byte) : (s.putDev a bs).teams = s.teams := by unfold State.putDev; (repeat' split) <;> simp
@[simp] theorem State.putDev_launches (s : State) (a : Nat) (bs : List Byte) : (s.putDev a bs).launches = s.launches := by unfold State.putDev; (repeat' split) <;> simp
@[simp] theorem State.putDev_ctxs (s : State) (a : Nat) (bs : List Byte) : (s.putDev a bs).ctxs = s.ctxs := by unfold State.putDev; (repeat' split) <;> simp
@[simp] theorem State.putDev_groups (s : State) (a : Nat) (bs : List Byte) : (s.putDev a bs).groups = s.groups := by unfold State.putDev; (repeat' split) <;> simp
@[simp] theorem State.putDev_cores (s : State) (a : Nat) (bs : List Byte) : (s.putDev a bs).cores = s.cores := by unfold State.putDev; (repeat' split) <;> simp
@[simp] theorem State.putDev_poison (s : State) (a : Nat) (bs : List Byte) : (s.putDev a bs).poison = s.poison := by unfold State.putDev; (repeat' split) <;> simp
@[simp] theorem State.putDev_peerMem (s : State) (a : Nat) (bs : List Byte) : (s.putDev a bs).peerMem = s.peerMem := by unfold State.putDev; (repeat' split) <;> simp
@[simp] theorem State.putDev_transit (s : State) (a : Nat) (bs : List Byte) : (s.putDev a bs).transit = s.transit := by unfold State.putDev; (repeat' split) <;> simp
@[simp] theorem State.putDev_moveAt (s : State) (a : Nat) (bs : List Byte) : (s.putDev a bs).moveAt = s.moveAt := by unfold State.putDev; (repeat' split) <;> simp
@[simp] theorem State.putDev_lastLine (s : State) (a : Nat) (bs : List Byte) : (s.putDev a bs).lastLine = s.lastLine := by unfold State.putDev; (repeat' split) <;> simp
@[simp] theorem State.putDev_readCopies (s : State) (a : Nat) (bs : List Byte) : (s.putDev a bs).readCopies = s.readCopies := by unfold State.putDev; (repeat' split) <;> simp
@[simp] theorem State.putDev_dirty (s : State) (a : Nat) (bs : List Byte) : (s.putDev a bs).dirty = s.dirty := by unfold State.putDev; (repeat' split) <;> simp
@[simp] theorem State.putDev_slots (s : State) (a : Nat) (bs : List Byte) : (s.putDev a bs).slots = s.slots := by unfold State.putDev; (repeat' split) <;> simp
@[simp] theorem State.putDev_lost (s : State) (a : Nat) (bs : List Byte) : (s.putDev a bs).lost = s.lost := by unfold State.putDev; (repeat' split) <;> simp
@[simp] theorem State.putDev_evicted (s : State) (a : Nat) (bs : List Byte) : (s.putDev a bs).evicted = s.evicted := by unfold State.putDev; (repeat' split) <;> simp
@[simp] theorem State.putDev_renewed (s : State) (a : Nat) (bs : List Byte) : (s.putDev a bs).renewed = s.renewed := by unfold State.putDev; (repeat' split) <;> simp
@[simp] theorem State.putDev_late (s : State) (a : Nat) (bs : List Byte) : (s.putDev a bs).late = s.late := by unfold State.putDev; (repeat' split) <;> simp
@[simp] theorem State.putDev_retained (s : State) (a : Nat) (bs : List Byte) : (s.putDev a bs).retained = s.retained := by unfold State.putDev; (repeat' split) <;> simp

/- ### zeroFrame -/

@[simp] theorem State.zeroFrame_clk (s : State) (k : Nat) : (s.zeroFrame k).clk = s.clk := by unfold State.zeroFrame; simp only; (repeat' split) <;> rfl
@[simp] theorem State.zeroFrame_tick (s : State) (k : Nat) : (s.zeroFrame k).tick = s.tick := by unfold State.zeroFrame; simp only; (repeat' split) <;> rfl
@[simp] theorem State.zeroFrame_turn (s : State) (k : Nat) : (s.zeroFrame k).turn = s.turn := by unfold State.zeroFrame; simp only; (repeat' split) <;> rfl
@[simp] theorem State.zeroFrame_inbox (s : State) (k : Nat) : (s.zeroFrame k).inbox = s.inbox := by unfold State.zeroFrame; simp only; (repeat' split) <;> rfl
@[simp] theorem State.zeroFrame_cur (s : State) (k : Nat) : (s.zeroFrame k).cur = s.cur := by unfold State.zeroFrame; simp only; (repeat' split) <;> rfl
@[simp] theorem State.zeroFrame_instances (s : State) (k : Nat) : (s.zeroFrame k).instances = s.instances := by unfold State.zeroFrame; simp only; (repeat' split) <;> rfl
@[simp] theorem State.zeroFrame_issuing (s : State) (k : Nat) : (s.zeroFrame k).issuing = s.issuing := by unfold State.zeroFrame; simp only; (repeat' split) <;> rfl
@[simp] theorem State.zeroFrame_completing (s : State) (k : Nat) : (s.zeroFrame k).completing = s.completing := by unfold State.zeroFrame; simp only; (repeat' split) <;> rfl
@[simp] theorem State.zeroFrame_teams (s : State) (k : Nat) : (s.zeroFrame k).teams = s.teams := by unfold State.zeroFrame; simp only; (repeat' split) <;> rfl
@[simp] theorem State.zeroFrame_launches (s : State) (k : Nat) : (s.zeroFrame k).launches = s.launches := by unfold State.zeroFrame; simp only; (repeat' split) <;> rfl
@[simp] theorem State.zeroFrame_ctxs (s : State) (k : Nat) : (s.zeroFrame k).ctxs = s.ctxs := by unfold State.zeroFrame; simp only; (repeat' split) <;> rfl
@[simp] theorem State.zeroFrame_groups (s : State) (k : Nat) : (s.zeroFrame k).groups = s.groups := by unfold State.zeroFrame; simp only; (repeat' split) <;> rfl
@[simp] theorem State.zeroFrame_cores (s : State) (k : Nat) : (s.zeroFrame k).cores = s.cores := by unfold State.zeroFrame; simp only; (repeat' split) <;> rfl
@[simp] theorem State.zeroFrame_peerMem (s : State) (k : Nat) : (s.zeroFrame k).peerMem = s.peerMem := by unfold State.zeroFrame; simp only; (repeat' split) <;> rfl
@[simp] theorem State.zeroFrame_bufs (s : State) (k : Nat) : (s.zeroFrame k).bufs = s.bufs := by unfold State.zeroFrame; simp only; (repeat' split) <;> rfl
@[simp] theorem State.zeroFrame_transit (s : State) (k : Nat) : (s.zeroFrame k).transit = s.transit := by unfold State.zeroFrame; simp only; (repeat' split) <;> rfl
@[simp] theorem State.zeroFrame_moveAt (s : State) (k : Nat) : (s.zeroFrame k).moveAt = s.moveAt := by unfold State.zeroFrame; simp only; (repeat' split) <;> rfl
@[simp] theorem State.zeroFrame_frames (s : State) (k : Nat) : (s.zeroFrame k).frames = s.frames := by unfold State.zeroFrame; simp only; (repeat' split) <;> rfl
@[simp] theorem State.zeroFrame_lastLine (s : State) (k : Nat) : (s.zeroFrame k).lastLine = s.lastLine := by unfold State.zeroFrame; simp only; (repeat' split) <;> rfl
@[simp] theorem State.zeroFrame_cells (s : State) (k : Nat) : (s.zeroFrame k).cells = s.cells := by unfold State.zeroFrame; simp only; (repeat' split) <;> rfl
@[simp] theorem State.zeroFrame_lodge (s : State) (k : Nat) : (s.zeroFrame k).lodge = s.lodge := by unfold State.zeroFrame; simp only; (repeat' split) <;> rfl
@[simp] theorem State.zeroFrame_slots (s : State) (k : Nat) : (s.zeroFrame k).slots = s.slots := by unfold State.zeroFrame; simp only; (repeat' split) <;> rfl
@[simp] theorem State.zeroFrame_regs (s : State) (k : Nat) : (s.zeroFrame k).regs = s.regs := by unfold State.zeroFrame; simp only; (repeat' split) <;> rfl
@[simp] theorem State.zeroFrame_events (s : State) (k : Nat) : (s.zeroFrame k).events = s.events := by unfold State.zeroFrame; simp only; (repeat' split) <;> rfl
@[simp] theorem State.zeroFrame_lost (s : State) (k : Nat) : (s.zeroFrame k).lost = s.lost := by unfold State.zeroFrame; simp only; (repeat' split) <;> rfl
@[simp] theorem State.zeroFrame_evicted (s : State) (k : Nat) : (s.zeroFrame k).evicted = s.evicted := by unfold State.zeroFrame; simp only; (repeat' split) <;> rfl
@[simp] theorem State.zeroFrame_late (s : State) (k : Nat) : (s.zeroFrame k).late = s.late := by unfold State.zeroFrame; simp only; (repeat' split) <;> rfl
@[simp] theorem State.zeroFrame_retained (s : State) (k : Nat) : (s.zeroFrame k).retained = s.retained := by unfold State.zeroFrame; simp only; (repeat' split) <;> rfl

/- ### ownFrame -/

@[simp] theorem State.ownFrame_clk (s : State) (ctx k : Nat) : (s.ownFrame ctx k).clk = s.clk := by simp only [State.ownFrame]; (repeat' split) <;> simp
@[simp] theorem State.ownFrame_tick (s : State) (ctx k : Nat) : (s.ownFrame ctx k).tick = s.tick := by simp only [State.ownFrame]; (repeat' split) <;> simp
@[simp] theorem State.ownFrame_turn (s : State) (ctx k : Nat) : (s.ownFrame ctx k).turn = s.turn := by simp only [State.ownFrame]; (repeat' split) <;> simp
@[simp] theorem State.ownFrame_inbox (s : State) (ctx k : Nat) : (s.ownFrame ctx k).inbox = s.inbox := by simp only [State.ownFrame]; (repeat' split) <;> simp
@[simp] theorem State.ownFrame_cur (s : State) (ctx k : Nat) : (s.ownFrame ctx k).cur = s.cur := by simp only [State.ownFrame]; (repeat' split) <;> simp
@[simp] theorem State.ownFrame_instances (s : State) (ctx k : Nat) : (s.ownFrame ctx k).instances = s.instances := by simp only [State.ownFrame]; (repeat' split) <;> simp
@[simp] theorem State.ownFrame_issuing (s : State) (ctx k : Nat) : (s.ownFrame ctx k).issuing = s.issuing := by simp only [State.ownFrame]; (repeat' split) <;> simp
@[simp] theorem State.ownFrame_completing (s : State) (ctx k : Nat) : (s.ownFrame ctx k).completing = s.completing := by simp only [State.ownFrame]; (repeat' split) <;> simp
@[simp] theorem State.ownFrame_teams (s : State) (ctx k : Nat) : (s.ownFrame ctx k).teams = s.teams := by simp only [State.ownFrame]; (repeat' split) <;> simp
@[simp] theorem State.ownFrame_launches (s : State) (ctx k : Nat) : (s.ownFrame ctx k).launches = s.launches := by simp only [State.ownFrame]; (repeat' split) <;> simp
@[simp] theorem State.ownFrame_ctxs (s : State) (ctx k : Nat) : (s.ownFrame ctx k).ctxs = s.ctxs := by simp only [State.ownFrame]; (repeat' split) <;> simp
@[simp] theorem State.ownFrame_groups (s : State) (ctx k : Nat) : (s.ownFrame ctx k).groups = s.groups := by simp only [State.ownFrame]; (repeat' split) <;> simp
@[simp] theorem State.ownFrame_cores (s : State) (ctx k : Nat) : (s.ownFrame ctx k).cores = s.cores := by simp only [State.ownFrame]; (repeat' split) <;> simp
@[simp] theorem State.ownFrame_peerMem (s : State) (ctx k : Nat) : (s.ownFrame ctx k).peerMem = s.peerMem := by simp only [State.ownFrame]; (repeat' split) <;> simp
@[simp] theorem State.ownFrame_bufs (s : State) (ctx k : Nat) : (s.ownFrame ctx k).bufs = s.bufs := by simp only [State.ownFrame]; (repeat' split) <;> simp
@[simp] theorem State.ownFrame_transit (s : State) (ctx k : Nat) : (s.ownFrame ctx k).transit = s.transit := by simp only [State.ownFrame]; (repeat' split) <;> simp
@[simp] theorem State.ownFrame_moveAt (s : State) (ctx k : Nat) : (s.ownFrame ctx k).moveAt = s.moveAt := by simp only [State.ownFrame]; (repeat' split) <;> simp
@[simp] theorem State.ownFrame_lastLine (s : State) (ctx k : Nat) : (s.ownFrame ctx k).lastLine = s.lastLine := by simp only [State.ownFrame]; (repeat' split) <;> simp
@[simp] theorem State.ownFrame_cells (s : State) (ctx k : Nat) : (s.ownFrame ctx k).cells = s.cells := by simp only [State.ownFrame]; (repeat' split) <;> simp
@[simp] theorem State.ownFrame_lodge (s : State) (ctx k : Nat) : (s.ownFrame ctx k).lodge = s.lodge := by simp only [State.ownFrame]; (repeat' split) <;> simp
@[simp] theorem State.ownFrame_slots (s : State) (ctx k : Nat) : (s.ownFrame ctx k).slots = s.slots := by simp only [State.ownFrame]; (repeat' split) <;> simp
@[simp] theorem State.ownFrame_regs (s : State) (ctx k : Nat) : (s.ownFrame ctx k).regs = s.regs := by simp only [State.ownFrame]; (repeat' split) <;> simp
@[simp] theorem State.ownFrame_events (s : State) (ctx k : Nat) : (s.ownFrame ctx k).events = s.events := by simp only [State.ownFrame]; (repeat' split) <;> simp
@[simp] theorem State.ownFrame_lost (s : State) (ctx k : Nat) : (s.ownFrame ctx k).lost = s.lost := by simp only [State.ownFrame]; (repeat' split) <;> simp
@[simp] theorem State.ownFrame_evicted (s : State) (ctx k : Nat) : (s.ownFrame ctx k).evicted = s.evicted := by simp only [State.ownFrame]; (repeat' split) <;> simp
@[simp] theorem State.ownFrame_late (s : State) (ctx k : Nat) : (s.ownFrame ctx k).late = s.late := by simp only [State.ownFrame]; (repeat' split) <;> simp

/- ### useObj -/

@[simp] theorem State.useObj_clk (s : State) (die : Nat) (k : ObjKey) : (s.useObj die k).clk = s.clk := by unfold State.useObj; (repeat' split) <;> simp
@[simp] theorem State.useObj_tick (s : State) (die : Nat) (k : ObjKey) : (s.useObj die k).tick = s.tick := by unfold State.useObj; (repeat' split) <;> simp
@[simp] theorem State.useObj_turn (s : State) (die : Nat) (k : ObjKey) : (s.useObj die k).turn = s.turn := by unfold State.useObj; (repeat' split) <;> simp
@[simp] theorem State.useObj_inbox (s : State) (die : Nat) (k : ObjKey) : (s.useObj die k).inbox = s.inbox := by unfold State.useObj; (repeat' split) <;> simp
@[simp] theorem State.useObj_cur (s : State) (die : Nat) (k : ObjKey) : (s.useObj die k).cur = s.cur := by unfold State.useObj; (repeat' split) <;> simp
@[simp] theorem State.useObj_instances (s : State) (die : Nat) (k : ObjKey) : (s.useObj die k).instances = s.instances := by unfold State.useObj; (repeat' split) <;> simp
@[simp] theorem State.useObj_issuing (s : State) (die : Nat) (k : ObjKey) : (s.useObj die k).issuing = s.issuing := by unfold State.useObj; (repeat' split) <;> simp
@[simp] theorem State.useObj_completing (s : State) (die : Nat) (k : ObjKey) : (s.useObj die k).completing = s.completing := by unfold State.useObj; (repeat' split) <;> simp
@[simp] theorem State.useObj_teams (s : State) (die : Nat) (k : ObjKey) : (s.useObj die k).teams = s.teams := by unfold State.useObj; (repeat' split) <;> simp
@[simp] theorem State.useObj_launches (s : State) (die : Nat) (k : ObjKey) : (s.useObj die k).launches = s.launches := by unfold State.useObj; (repeat' split) <;> simp
@[simp] theorem State.useObj_ctxs (s : State) (die : Nat) (k : ObjKey) : (s.useObj die k).ctxs = s.ctxs := by unfold State.useObj; (repeat' split) <;> simp
@[simp] theorem State.useObj_groups (s : State) (die : Nat) (k : ObjKey) : (s.useObj die k).groups = s.groups := by unfold State.useObj; (repeat' split) <;> simp
@[simp] theorem State.useObj_cores (s : State) (die : Nat) (k : ObjKey) : (s.useObj die k).cores = s.cores := by unfold State.useObj; (repeat' split) <;> simp
@[simp] theorem State.useObj_mem (s : State) (die : Nat) (k : ObjKey) : (s.useObj die k).mem = s.mem := by unfold State.useObj; (repeat' split) <;> simp
@[simp] theorem State.useObj_poison (s : State) (die : Nat) (k : ObjKey) : (s.useObj die k).poison = s.poison := by unfold State.useObj; (repeat' split) <;> simp
@[simp] theorem State.useObj_hostMem (s : State) (die : Nat) (k : ObjKey) : (s.useObj die k).hostMem = s.hostMem := by unfold State.useObj; (repeat' split) <;> simp
@[simp] theorem State.useObj_peerMem (s : State) (die : Nat) (k : ObjKey) : (s.useObj die k).peerMem = s.peerMem := by unfold State.useObj; (repeat' split) <;> simp
@[simp] theorem State.useObj_bufs (s : State) (die : Nat) (k : ObjKey) : (s.useObj die k).bufs = s.bufs := by unfold State.useObj; (repeat' split) <;> simp
@[simp] theorem State.useObj_transit (s : State) (die : Nat) (k : ObjKey) : (s.useObj die k).transit = s.transit := by unfold State.useObj; (repeat' split) <;> simp
@[simp] theorem State.useObj_moveAt (s : State) (die : Nat) (k : ObjKey) : (s.useObj die k).moveAt = s.moveAt := by unfold State.useObj; (repeat' split) <;> simp
@[simp] theorem State.useObj_frames (s : State) (die : Nat) (k : ObjKey) : (s.useObj die k).frames = s.frames := by unfold State.useObj; (repeat' split) <;> simp
@[simp] theorem State.useObj_lastLine (s : State) (die : Nat) (k : ObjKey) : (s.useObj die k).lastLine = s.lastLine := by unfold State.useObj; (repeat' split) <;> simp
@[simp] theorem State.useObj_readCopies (s : State) (die : Nat) (k : ObjKey) : (s.useObj die k).readCopies = s.readCopies := by unfold State.useObj; (repeat' split) <;> simp
@[simp] theorem State.useObj_dirty (s : State) (die : Nat) (k : ObjKey) : (s.useObj die k).dirty = s.dirty := by unfold State.useObj; (repeat' split) <;> simp
@[simp] theorem State.useObj_cells (s : State) (die : Nat) (k : ObjKey) : (s.useObj die k).cells = s.cells := by unfold State.useObj; (repeat' split) <;> simp
@[simp] theorem State.useObj_slots (s : State) (die : Nat) (k : ObjKey) : (s.useObj die k).slots = s.slots := by unfold State.useObj; (repeat' split) <;> simp
@[simp] theorem State.useObj_regs (s : State) (die : Nat) (k : ObjKey) : (s.useObj die k).regs = s.regs := by unfold State.useObj; (repeat' split) <;> simp
@[simp] theorem State.useObj_events (s : State) (die : Nat) (k : ObjKey) : (s.useObj die k).events = s.events := by unfold State.useObj; (repeat' split) <;> simp
@[simp] theorem State.useObj_lost (s : State) (die : Nat) (k : ObjKey) : (s.useObj die k).lost = s.lost := by unfold State.useObj; (repeat' split) <;> simp
@[simp] theorem State.useObj_evicted (s : State) (die : Nat) (k : ObjKey) : (s.useObj die k).evicted = s.evicted := by unfold State.useObj; (repeat' split) <;> simp
@[simp] theorem State.useObj_renewed (s : State) (die : Nat) (k : ObjKey) : (s.useObj die k).renewed = s.renewed := by unfold State.useObj; (repeat' split) <;> simp
@[simp] theorem State.useObj_late (s : State) (die : Nat) (k : ObjKey) : (s.useObj die k).late = s.late := by unfold State.useObj; (repeat' split) <;> simp
@[simp] theorem State.useObj_retained (s : State) (die : Nat) (k : ObjKey) : (s.useObj die k).retained = s.retained := by unfold State.useObj; (repeat' split) <;> simp

/- ### useCell -/

@[simp] theorem State.useCell_clk (s : State) (die buf off : Nat) : (s.useCell die buf off).clk = s.clk := by unfold State.useCell; (repeat' split) <;> simp
@[simp] theorem State.useCell_tick (s : State) (die buf off : Nat) : (s.useCell die buf off).tick = s.tick := by unfold State.useCell; (repeat' split) <;> simp
@[simp] theorem State.useCell_turn (s : State) (die buf off : Nat) : (s.useCell die buf off).turn = s.turn := by unfold State.useCell; (repeat' split) <;> simp
@[simp] theorem State.useCell_inbox (s : State) (die buf off : Nat) : (s.useCell die buf off).inbox = s.inbox := by unfold State.useCell; (repeat' split) <;> simp
@[simp] theorem State.useCell_cur (s : State) (die buf off : Nat) : (s.useCell die buf off).cur = s.cur := by unfold State.useCell; (repeat' split) <;> simp
@[simp] theorem State.useCell_instances (s : State) (die buf off : Nat) : (s.useCell die buf off).instances = s.instances := by unfold State.useCell; (repeat' split) <;> simp
@[simp] theorem State.useCell_issuing (s : State) (die buf off : Nat) : (s.useCell die buf off).issuing = s.issuing := by unfold State.useCell; (repeat' split) <;> simp
@[simp] theorem State.useCell_completing (s : State) (die buf off : Nat) : (s.useCell die buf off).completing = s.completing := by unfold State.useCell; (repeat' split) <;> simp
@[simp] theorem State.useCell_teams (s : State) (die buf off : Nat) : (s.useCell die buf off).teams = s.teams := by unfold State.useCell; (repeat' split) <;> simp
@[simp] theorem State.useCell_launches (s : State) (die buf off : Nat) : (s.useCell die buf off).launches = s.launches := by unfold State.useCell; (repeat' split) <;> simp
@[simp] theorem State.useCell_ctxs (s : State) (die buf off : Nat) : (s.useCell die buf off).ctxs = s.ctxs := by unfold State.useCell; (repeat' split) <;> simp
@[simp] theorem State.useCell_groups (s : State) (die buf off : Nat) : (s.useCell die buf off).groups = s.groups := by unfold State.useCell; (repeat' split) <;> simp
@[simp] theorem State.useCell_cores (s : State) (die buf off : Nat) : (s.useCell die buf off).cores = s.cores := by unfold State.useCell; (repeat' split) <;> simp
@[simp] theorem State.useCell_mem (s : State) (die buf off : Nat) : (s.useCell die buf off).mem = s.mem := by unfold State.useCell; (repeat' split) <;> simp
@[simp] theorem State.useCell_poison (s : State) (die buf off : Nat) : (s.useCell die buf off).poison = s.poison := by unfold State.useCell; (repeat' split) <;> simp
@[simp] theorem State.useCell_hostMem (s : State) (die buf off : Nat) : (s.useCell die buf off).hostMem = s.hostMem := by unfold State.useCell; (repeat' split) <;> simp
@[simp] theorem State.useCell_peerMem (s : State) (die buf off : Nat) : (s.useCell die buf off).peerMem = s.peerMem := by unfold State.useCell; (repeat' split) <;> simp
@[simp] theorem State.useCell_bufs (s : State) (die buf off : Nat) : (s.useCell die buf off).bufs = s.bufs := by unfold State.useCell; (repeat' split) <;> simp
@[simp] theorem State.useCell_transit (s : State) (die buf off : Nat) : (s.useCell die buf off).transit = s.transit := by unfold State.useCell; (repeat' split) <;> simp
@[simp] theorem State.useCell_moveAt (s : State) (die buf off : Nat) : (s.useCell die buf off).moveAt = s.moveAt := by unfold State.useCell; (repeat' split) <;> simp
@[simp] theorem State.useCell_frames (s : State) (die buf off : Nat) : (s.useCell die buf off).frames = s.frames := by unfold State.useCell; (repeat' split) <;> simp
@[simp] theorem State.useCell_lastLine (s : State) (die buf off : Nat) : (s.useCell die buf off).lastLine = s.lastLine := by unfold State.useCell; (repeat' split) <;> simp
@[simp] theorem State.useCell_readCopies (s : State) (die buf off : Nat) : (s.useCell die buf off).readCopies = s.readCopies := by unfold State.useCell; (repeat' split) <;> simp
@[simp] theorem State.useCell_dirty (s : State) (die buf off : Nat) : (s.useCell die buf off).dirty = s.dirty := by unfold State.useCell; (repeat' split) <;> simp
@[simp] theorem State.useCell_cells (s : State) (die buf off : Nat) : (s.useCell die buf off).cells = s.cells := by unfold State.useCell; (repeat' split) <;> simp
@[simp] theorem State.useCell_slots (s : State) (die buf off : Nat) : (s.useCell die buf off).slots = s.slots := by unfold State.useCell; (repeat' split) <;> simp
@[simp] theorem State.useCell_regs (s : State) (die buf off : Nat) : (s.useCell die buf off).regs = s.regs := by unfold State.useCell; (repeat' split) <;> simp
@[simp] theorem State.useCell_events (s : State) (die buf off : Nat) : (s.useCell die buf off).events = s.events := by unfold State.useCell; (repeat' split) <;> simp
@[simp] theorem State.useCell_lost (s : State) (die buf off : Nat) : (s.useCell die buf off).lost = s.lost := by unfold State.useCell; (repeat' split) <;> simp
@[simp] theorem State.useCell_evicted (s : State) (die buf off : Nat) : (s.useCell die buf off).evicted = s.evicted := by unfold State.useCell; (repeat' split) <;> simp
@[simp] theorem State.useCell_renewed (s : State) (die buf off : Nat) : (s.useCell die buf off).renewed = s.renewed := by unfold State.useCell; (repeat' split) <;> simp
@[simp] theorem State.useCell_late (s : State) (die buf off : Nat) : (s.useCell die buf off).late = s.late := by unfold State.useCell; (repeat' split) <;> simp
@[simp] theorem State.useCell_retained (s : State) (die buf off : Nat) : (s.useCell die buf off).retained = s.retained := by unfold State.useCell; (repeat' split) <;> simp

/- ### reach -/

@[simp] theorem State.reach_clk (s : State) (ctx : Nat) (p : Phys) : (s.reach ctx p).clk = s.clk := by unfold State.reach; (repeat' split) <;> simp
@[simp] theorem State.reach_tick (s : State) (ctx : Nat) (p : Phys) : (s.reach ctx p).tick = s.tick := by unfold State.reach; (repeat' split) <;> simp
@[simp] theorem State.reach_turn (s : State) (ctx : Nat) (p : Phys) : (s.reach ctx p).turn = s.turn := by unfold State.reach; (repeat' split) <;> simp
@[simp] theorem State.reach_inbox (s : State) (ctx : Nat) (p : Phys) : (s.reach ctx p).inbox = s.inbox := by unfold State.reach; (repeat' split) <;> simp
@[simp] theorem State.reach_cur (s : State) (ctx : Nat) (p : Phys) : (s.reach ctx p).cur = s.cur := by unfold State.reach; (repeat' split) <;> simp
@[simp] theorem State.reach_instances (s : State) (ctx : Nat) (p : Phys) : (s.reach ctx p).instances = s.instances := by unfold State.reach; (repeat' split) <;> simp
@[simp] theorem State.reach_issuing (s : State) (ctx : Nat) (p : Phys) : (s.reach ctx p).issuing = s.issuing := by unfold State.reach; (repeat' split) <;> simp
@[simp] theorem State.reach_completing (s : State) (ctx : Nat) (p : Phys) : (s.reach ctx p).completing = s.completing := by unfold State.reach; (repeat' split) <;> simp
@[simp] theorem State.reach_teams (s : State) (ctx : Nat) (p : Phys) : (s.reach ctx p).teams = s.teams := by unfold State.reach; (repeat' split) <;> simp
@[simp] theorem State.reach_launches (s : State) (ctx : Nat) (p : Phys) : (s.reach ctx p).launches = s.launches := by unfold State.reach; (repeat' split) <;> simp
@[simp] theorem State.reach_groups (s : State) (ctx : Nat) (p : Phys) : (s.reach ctx p).groups = s.groups := by unfold State.reach; (repeat' split) <;> simp
@[simp] theorem State.reach_cores (s : State) (ctx : Nat) (p : Phys) : (s.reach ctx p).cores = s.cores := by unfold State.reach; (repeat' split) <;> simp
@[simp] theorem State.reach_peerMem (s : State) (ctx : Nat) (p : Phys) : (s.reach ctx p).peerMem = s.peerMem := by unfold State.reach; (repeat' split) <;> simp
@[simp] theorem State.reach_bufs (s : State) (ctx : Nat) (p : Phys) : (s.reach ctx p).bufs = s.bufs := by unfold State.reach; (repeat' split) <;> simp
@[simp] theorem State.reach_transit (s : State) (ctx : Nat) (p : Phys) : (s.reach ctx p).transit = s.transit := by unfold State.reach; (repeat' split) <;> simp
@[simp] theorem State.reach_moveAt (s : State) (ctx : Nat) (p : Phys) : (s.reach ctx p).moveAt = s.moveAt := by unfold State.reach; (repeat' split) <;> simp
@[simp] theorem State.reach_cells (s : State) (ctx : Nat) (p : Phys) : (s.reach ctx p).cells = s.cells := by unfold State.reach; (repeat' split) <;> simp
@[simp] theorem State.reach_slots (s : State) (ctx : Nat) (p : Phys) : (s.reach ctx p).slots = s.slots := by unfold State.reach; (repeat' split) <;> simp
@[simp] theorem State.reach_lost (s : State) (ctx : Nat) (p : Phys) : (s.reach ctx p).lost = s.lost := by unfold State.reach; (repeat' split) <;> simp
@[simp] theorem State.reach_evicted (s : State) (ctx : Nat) (p : Phys) : (s.reach ctx p).evicted = s.evicted := by unfold State.reach; (repeat' split) <;> simp
@[simp] theorem State.reach_late (s : State) (ctx : Nat) (p : Phys) : (s.reach ctx p).late = s.late := by unfold State.reach; (repeat' split) <;> simp

/- ### acquire -/

@[simp] theorem State.acquire_clk (s : State) (die ctx : Nat) (x : Scp) : (s.acquire die ctx x).clk = s.clk := by unfold State.acquire; split <;> rfl
@[simp] theorem State.acquire_tick (s : State) (die ctx : Nat) (x : Scp) : (s.acquire die ctx x).tick = s.tick := by unfold State.acquire; split <;> rfl
@[simp] theorem State.acquire_turn (s : State) (die ctx : Nat) (x : Scp) : (s.acquire die ctx x).turn = s.turn := by unfold State.acquire; split <;> rfl
@[simp] theorem State.acquire_inbox (s : State) (die ctx : Nat) (x : Scp) : (s.acquire die ctx x).inbox = s.inbox := by unfold State.acquire; split <;> rfl
@[simp] theorem State.acquire_cur (s : State) (die ctx : Nat) (x : Scp) : (s.acquire die ctx x).cur = s.cur := by unfold State.acquire; split <;> rfl
@[simp] theorem State.acquire_instances (s : State) (die ctx : Nat) (x : Scp) : (s.acquire die ctx x).instances = s.instances := by unfold State.acquire; split <;> rfl
@[simp] theorem State.acquire_issuing (s : State) (die ctx : Nat) (x : Scp) : (s.acquire die ctx x).issuing = s.issuing := by unfold State.acquire; split <;> rfl
@[simp] theorem State.acquire_completing (s : State) (die ctx : Nat) (x : Scp) : (s.acquire die ctx x).completing = s.completing := by unfold State.acquire; split <;> rfl
@[simp] theorem State.acquire_teams (s : State) (die ctx : Nat) (x : Scp) : (s.acquire die ctx x).teams = s.teams := by unfold State.acquire; split <;> rfl
@[simp] theorem State.acquire_launches (s : State) (die ctx : Nat) (x : Scp) : (s.acquire die ctx x).launches = s.launches := by unfold State.acquire; split <;> rfl
@[simp] theorem State.acquire_ctxs (s : State) (die ctx : Nat) (x : Scp) : (s.acquire die ctx x).ctxs = s.ctxs := by unfold State.acquire; split <;> rfl
@[simp] theorem State.acquire_groups (s : State) (die ctx : Nat) (x : Scp) : (s.acquire die ctx x).groups = s.groups := by unfold State.acquire; split <;> rfl
@[simp] theorem State.acquire_cores (s : State) (die ctx : Nat) (x : Scp) : (s.acquire die ctx x).cores = s.cores := by unfold State.acquire; split <;> rfl
@[simp] theorem State.acquire_mem (s : State) (die ctx : Nat) (x : Scp) : (s.acquire die ctx x).mem = s.mem := by unfold State.acquire; split <;> rfl
@[simp] theorem State.acquire_poison (s : State) (die ctx : Nat) (x : Scp) : (s.acquire die ctx x).poison = s.poison := by unfold State.acquire; split <;> rfl
@[simp] theorem State.acquire_hostMem (s : State) (die ctx : Nat) (x : Scp) : (s.acquire die ctx x).hostMem = s.hostMem := by unfold State.acquire; split <;> rfl
@[simp] theorem State.acquire_peerMem (s : State) (die ctx : Nat) (x : Scp) : (s.acquire die ctx x).peerMem = s.peerMem := by unfold State.acquire; split <;> rfl
@[simp] theorem State.acquire_bufs (s : State) (die ctx : Nat) (x : Scp) : (s.acquire die ctx x).bufs = s.bufs := by unfold State.acquire; split <;> rfl
@[simp] theorem State.acquire_transit (s : State) (die ctx : Nat) (x : Scp) : (s.acquire die ctx x).transit = s.transit := by unfold State.acquire; split <;> rfl
@[simp] theorem State.acquire_moveAt (s : State) (die ctx : Nat) (x : Scp) : (s.acquire die ctx x).moveAt = s.moveAt := by unfold State.acquire; split <;> rfl
@[simp] theorem State.acquire_frames (s : State) (die ctx : Nat) (x : Scp) : (s.acquire die ctx x).frames = s.frames := by unfold State.acquire; split <;> rfl
@[simp] theorem State.acquire_lastLine (s : State) (die ctx : Nat) (x : Scp) : (s.acquire die ctx x).lastLine = s.lastLine := by unfold State.acquire; split <;> rfl
@[simp] theorem State.acquire_dirty (s : State) (die ctx : Nat) (x : Scp) : (s.acquire die ctx x).dirty = s.dirty := by unfold State.acquire; split <;> rfl
@[simp] theorem State.acquire_cells (s : State) (die ctx : Nat) (x : Scp) : (s.acquire die ctx x).cells = s.cells := by unfold State.acquire; split <;> rfl
@[simp] theorem State.acquire_lodge (s : State) (die ctx : Nat) (x : Scp) : (s.acquire die ctx x).lodge = s.lodge := by unfold State.acquire; split <;> rfl
@[simp] theorem State.acquire_slots (s : State) (die ctx : Nat) (x : Scp) : (s.acquire die ctx x).slots = s.slots := by unfold State.acquire; split <;> rfl
@[simp] theorem State.acquire_regs (s : State) (die ctx : Nat) (x : Scp) : (s.acquire die ctx x).regs = s.regs := by unfold State.acquire; split <;> rfl
@[simp] theorem State.acquire_events (s : State) (die ctx : Nat) (x : Scp) : (s.acquire die ctx x).events = s.events := by unfold State.acquire; split <;> rfl
@[simp] theorem State.acquire_lost (s : State) (die ctx : Nat) (x : Scp) : (s.acquire die ctx x).lost = s.lost := by unfold State.acquire; split <;> rfl
@[simp] theorem State.acquire_evicted (s : State) (die ctx : Nat) (x : Scp) : (s.acquire die ctx x).evicted = s.evicted := by unfold State.acquire; split <;> rfl
@[simp] theorem State.acquire_renewed (s : State) (die ctx : Nat) (x : Scp) : (s.acquire die ctx x).renewed = s.renewed := by unfold State.acquire; split <;> rfl
@[simp] theorem State.acquire_late (s : State) (die ctx : Nat) (x : Scp) : (s.acquire die ctx x).late = s.late := by unfold State.acquire; split <;> rfl
@[simp] theorem State.acquire_retained (s : State) (die ctx : Nat) (x : Scp) : (s.acquire die ctx x).retained = s.retained := by unfold State.acquire; split <;> rfl

/- ### release -/

@[simp] theorem State.release_clk (s : State) (die ctx : Nat) (x : Scp) : (s.release die ctx x).clk = s.clk := by unfold State.release; split <;> rfl
@[simp] theorem State.release_tick (s : State) (die ctx : Nat) (x : Scp) : (s.release die ctx x).tick = s.tick := by unfold State.release; split <;> rfl
@[simp] theorem State.release_turn (s : State) (die ctx : Nat) (x : Scp) : (s.release die ctx x).turn = s.turn := by unfold State.release; split <;> rfl
@[simp] theorem State.release_inbox (s : State) (die ctx : Nat) (x : Scp) : (s.release die ctx x).inbox = s.inbox := by unfold State.release; split <;> rfl
@[simp] theorem State.release_cur (s : State) (die ctx : Nat) (x : Scp) : (s.release die ctx x).cur = s.cur := by unfold State.release; split <;> rfl
@[simp] theorem State.release_instances (s : State) (die ctx : Nat) (x : Scp) : (s.release die ctx x).instances = s.instances := by unfold State.release; split <;> rfl
@[simp] theorem State.release_issuing (s : State) (die ctx : Nat) (x : Scp) : (s.release die ctx x).issuing = s.issuing := by unfold State.release; split <;> rfl
@[simp] theorem State.release_completing (s : State) (die ctx : Nat) (x : Scp) : (s.release die ctx x).completing = s.completing := by unfold State.release; split <;> rfl
@[simp] theorem State.release_teams (s : State) (die ctx : Nat) (x : Scp) : (s.release die ctx x).teams = s.teams := by unfold State.release; split <;> rfl
@[simp] theorem State.release_launches (s : State) (die ctx : Nat) (x : Scp) : (s.release die ctx x).launches = s.launches := by unfold State.release; split <;> rfl
@[simp] theorem State.release_ctxs (s : State) (die ctx : Nat) (x : Scp) : (s.release die ctx x).ctxs = s.ctxs := by unfold State.release; split <;> rfl
@[simp] theorem State.release_groups (s : State) (die ctx : Nat) (x : Scp) : (s.release die ctx x).groups = s.groups := by unfold State.release; split <;> rfl
@[simp] theorem State.release_cores (s : State) (die ctx : Nat) (x : Scp) : (s.release die ctx x).cores = s.cores := by unfold State.release; split <;> rfl
@[simp] theorem State.release_mem (s : State) (die ctx : Nat) (x : Scp) : (s.release die ctx x).mem = s.mem := by unfold State.release; split <;> rfl
@[simp] theorem State.release_poison (s : State) (die ctx : Nat) (x : Scp) : (s.release die ctx x).poison = s.poison := by unfold State.release; split <;> rfl
@[simp] theorem State.release_hostMem (s : State) (die ctx : Nat) (x : Scp) : (s.release die ctx x).hostMem = s.hostMem := by unfold State.release; split <;> rfl
@[simp] theorem State.release_peerMem (s : State) (die ctx : Nat) (x : Scp) : (s.release die ctx x).peerMem = s.peerMem := by unfold State.release; split <;> rfl
@[simp] theorem State.release_bufs (s : State) (die ctx : Nat) (x : Scp) : (s.release die ctx x).bufs = s.bufs := by unfold State.release; split <;> rfl
@[simp] theorem State.release_transit (s : State) (die ctx : Nat) (x : Scp) : (s.release die ctx x).transit = s.transit := by unfold State.release; split <;> rfl
@[simp] theorem State.release_moveAt (s : State) (die ctx : Nat) (x : Scp) : (s.release die ctx x).moveAt = s.moveAt := by unfold State.release; split <;> rfl
@[simp] theorem State.release_frames (s : State) (die ctx : Nat) (x : Scp) : (s.release die ctx x).frames = s.frames := by unfold State.release; split <;> rfl
@[simp] theorem State.release_lastLine (s : State) (die ctx : Nat) (x : Scp) : (s.release die ctx x).lastLine = s.lastLine := by unfold State.release; split <;> rfl
@[simp] theorem State.release_readCopies (s : State) (die ctx : Nat) (x : Scp) : (s.release die ctx x).readCopies = s.readCopies := by unfold State.release; split <;> rfl
@[simp] theorem State.release_cells (s : State) (die ctx : Nat) (x : Scp) : (s.release die ctx x).cells = s.cells := by unfold State.release; split <;> rfl
@[simp] theorem State.release_lodge (s : State) (die ctx : Nat) (x : Scp) : (s.release die ctx x).lodge = s.lodge := by unfold State.release; split <;> rfl
@[simp] theorem State.release_slots (s : State) (die ctx : Nat) (x : Scp) : (s.release die ctx x).slots = s.slots := by unfold State.release; split <;> rfl
@[simp] theorem State.release_regs (s : State) (die ctx : Nat) (x : Scp) : (s.release die ctx x).regs = s.regs := by unfold State.release; split <;> rfl
@[simp] theorem State.release_events (s : State) (die ctx : Nat) (x : Scp) : (s.release die ctx x).events = s.events := by unfold State.release; split <;> rfl
@[simp] theorem State.release_lost (s : State) (die ctx : Nat) (x : Scp) : (s.release die ctx x).lost = s.lost := by unfold State.release; split <;> rfl
@[simp] theorem State.release_evicted (s : State) (die ctx : Nat) (x : Scp) : (s.release die ctx x).evicted = s.evicted := by unfold State.release; split <;> rfl
@[simp] theorem State.release_renewed (s : State) (die ctx : Nat) (x : Scp) : (s.release die ctx x).renewed = s.renewed := by unfold State.release; split <;> rfl
@[simp] theorem State.release_late (s : State) (die ctx : Nat) (x : Scp) : (s.release die ctx x).late = s.late := by unfold State.release; split <;> rfl
@[simp] theorem State.release_retained (s : State) (die ctx : Nat) (x : Scp) : (s.release die ctx x).retained = s.retained := by unfold State.release; split <;> rfl

/- ### showWrites -/

@[simp] theorem State.showWrites_clk (s : State) (die : Nat) (t : List Bar → Bool) (w : Option Bar) : (s.showWrites die t w).clk = s.clk := rfl
@[simp] theorem State.showWrites_tick (s : State) (die : Nat) (t : List Bar → Bool) (w : Option Bar) : (s.showWrites die t w).tick = s.tick := rfl
@[simp] theorem State.showWrites_turn (s : State) (die : Nat) (t : List Bar → Bool) (w : Option Bar) : (s.showWrites die t w).turn = s.turn := rfl
@[simp] theorem State.showWrites_inbox (s : State) (die : Nat) (t : List Bar → Bool) (w : Option Bar) : (s.showWrites die t w).inbox = s.inbox := rfl
@[simp] theorem State.showWrites_cur (s : State) (die : Nat) (t : List Bar → Bool) (w : Option Bar) : (s.showWrites die t w).cur = s.cur := rfl
@[simp] theorem State.showWrites_instances (s : State) (die : Nat) (t : List Bar → Bool) (w : Option Bar) : (s.showWrites die t w).instances = s.instances := rfl
@[simp] theorem State.showWrites_issuing (s : State) (die : Nat) (t : List Bar → Bool) (w : Option Bar) : (s.showWrites die t w).issuing = s.issuing := rfl
@[simp] theorem State.showWrites_completing (s : State) (die : Nat) (t : List Bar → Bool) (w : Option Bar) : (s.showWrites die t w).completing = s.completing := rfl
@[simp] theorem State.showWrites_teams (s : State) (die : Nat) (t : List Bar → Bool) (w : Option Bar) : (s.showWrites die t w).teams = s.teams := rfl
@[simp] theorem State.showWrites_launches (s : State) (die : Nat) (t : List Bar → Bool) (w : Option Bar) : (s.showWrites die t w).launches = s.launches := rfl
@[simp] theorem State.showWrites_ctxs (s : State) (die : Nat) (t : List Bar → Bool) (w : Option Bar) : (s.showWrites die t w).ctxs = s.ctxs := rfl
@[simp] theorem State.showWrites_groups (s : State) (die : Nat) (t : List Bar → Bool) (w : Option Bar) : (s.showWrites die t w).groups = s.groups := rfl
@[simp] theorem State.showWrites_cores (s : State) (die : Nat) (t : List Bar → Bool) (w : Option Bar) : (s.showWrites die t w).cores = s.cores := rfl
@[simp] theorem State.showWrites_mem (s : State) (die : Nat) (t : List Bar → Bool) (w : Option Bar) : (s.showWrites die t w).mem = s.mem := rfl
@[simp] theorem State.showWrites_poison (s : State) (die : Nat) (t : List Bar → Bool) (w : Option Bar) : (s.showWrites die t w).poison = s.poison := rfl
@[simp] theorem State.showWrites_hostMem (s : State) (die : Nat) (t : List Bar → Bool) (w : Option Bar) : (s.showWrites die t w).hostMem = s.hostMem := rfl
@[simp] theorem State.showWrites_peerMem (s : State) (die : Nat) (t : List Bar → Bool) (w : Option Bar) : (s.showWrites die t w).peerMem = s.peerMem := rfl
@[simp] theorem State.showWrites_bufs (s : State) (die : Nat) (t : List Bar → Bool) (w : Option Bar) : (s.showWrites die t w).bufs = s.bufs := rfl
@[simp] theorem State.showWrites_transit (s : State) (die : Nat) (t : List Bar → Bool) (w : Option Bar) : (s.showWrites die t w).transit = s.transit := rfl
@[simp] theorem State.showWrites_moveAt (s : State) (die : Nat) (t : List Bar → Bool) (w : Option Bar) : (s.showWrites die t w).moveAt = s.moveAt := rfl
@[simp] theorem State.showWrites_frames (s : State) (die : Nat) (t : List Bar → Bool) (w : Option Bar) : (s.showWrites die t w).frames = s.frames := rfl
@[simp] theorem State.showWrites_lastLine (s : State) (die : Nat) (t : List Bar → Bool) (w : Option Bar) : (s.showWrites die t w).lastLine = s.lastLine := rfl
@[simp] theorem State.showWrites_dirty (s : State) (die : Nat) (t : List Bar → Bool) (w : Option Bar) : (s.showWrites die t w).dirty = s.dirty := rfl
@[simp] theorem State.showWrites_cells (s : State) (die : Nat) (t : List Bar → Bool) (w : Option Bar) : (s.showWrites die t w).cells = s.cells := rfl
@[simp] theorem State.showWrites_lodge (s : State) (die : Nat) (t : List Bar → Bool) (w : Option Bar) : (s.showWrites die t w).lodge = s.lodge := rfl
@[simp] theorem State.showWrites_slots (s : State) (die : Nat) (t : List Bar → Bool) (w : Option Bar) : (s.showWrites die t w).slots = s.slots := rfl
@[simp] theorem State.showWrites_regs (s : State) (die : Nat) (t : List Bar → Bool) (w : Option Bar) : (s.showWrites die t w).regs = s.regs := rfl
@[simp] theorem State.showWrites_events (s : State) (die : Nat) (t : List Bar → Bool) (w : Option Bar) : (s.showWrites die t w).events = s.events := rfl
@[simp] theorem State.showWrites_lost (s : State) (die : Nat) (t : List Bar → Bool) (w : Option Bar) : (s.showWrites die t w).lost = s.lost := rfl
@[simp] theorem State.showWrites_evicted (s : State) (die : Nat) (t : List Bar → Bool) (w : Option Bar) : (s.showWrites die t w).evicted = s.evicted := rfl
@[simp] theorem State.showWrites_renewed (s : State) (die : Nat) (t : List Bar → Bool) (w : Option Bar) : (s.showWrites die t w).renewed = s.renewed := rfl
@[simp] theorem State.showWrites_retained (s : State) (die : Nat) (t : List Bar → Bool) (w : Option Bar) : (s.showWrites die t w).retained = s.retained := rfl

/- ### barCopy -/

@[simp] theorem State.barCopy_clk (s : State) (die line : Nat) (b : Bar) : (s.barCopy die line b).clk = s.clk := rfl
@[simp] theorem State.barCopy_tick (s : State) (die line : Nat) (b : Bar) : (s.barCopy die line b).tick = s.tick := rfl
@[simp] theorem State.barCopy_turn (s : State) (die line : Nat) (b : Bar) : (s.barCopy die line b).turn = s.turn := rfl
@[simp] theorem State.barCopy_inbox (s : State) (die line : Nat) (b : Bar) : (s.barCopy die line b).inbox = s.inbox := rfl
@[simp] theorem State.barCopy_cur (s : State) (die line : Nat) (b : Bar) : (s.barCopy die line b).cur = s.cur := rfl
@[simp] theorem State.barCopy_instances (s : State) (die line : Nat) (b : Bar) : (s.barCopy die line b).instances = s.instances := rfl
@[simp] theorem State.barCopy_issuing (s : State) (die line : Nat) (b : Bar) : (s.barCopy die line b).issuing = s.issuing := rfl
@[simp] theorem State.barCopy_completing (s : State) (die line : Nat) (b : Bar) : (s.barCopy die line b).completing = s.completing := rfl
@[simp] theorem State.barCopy_teams (s : State) (die line : Nat) (b : Bar) : (s.barCopy die line b).teams = s.teams := rfl
@[simp] theorem State.barCopy_launches (s : State) (die line : Nat) (b : Bar) : (s.barCopy die line b).launches = s.launches := rfl
@[simp] theorem State.barCopy_ctxs (s : State) (die line : Nat) (b : Bar) : (s.barCopy die line b).ctxs = s.ctxs := rfl
@[simp] theorem State.barCopy_groups (s : State) (die line : Nat) (b : Bar) : (s.barCopy die line b).groups = s.groups := rfl
@[simp] theorem State.barCopy_cores (s : State) (die line : Nat) (b : Bar) : (s.barCopy die line b).cores = s.cores := rfl
@[simp] theorem State.barCopy_mem (s : State) (die line : Nat) (b : Bar) : (s.barCopy die line b).mem = s.mem := rfl
@[simp] theorem State.barCopy_poison (s : State) (die line : Nat) (b : Bar) : (s.barCopy die line b).poison = s.poison := rfl
@[simp] theorem State.barCopy_hostMem (s : State) (die line : Nat) (b : Bar) : (s.barCopy die line b).hostMem = s.hostMem := rfl
@[simp] theorem State.barCopy_peerMem (s : State) (die line : Nat) (b : Bar) : (s.barCopy die line b).peerMem = s.peerMem := rfl
@[simp] theorem State.barCopy_bufs (s : State) (die line : Nat) (b : Bar) : (s.barCopy die line b).bufs = s.bufs := rfl
@[simp] theorem State.barCopy_transit (s : State) (die line : Nat) (b : Bar) : (s.barCopy die line b).transit = s.transit := rfl
@[simp] theorem State.barCopy_moveAt (s : State) (die line : Nat) (b : Bar) : (s.barCopy die line b).moveAt = s.moveAt := rfl
@[simp] theorem State.barCopy_frames (s : State) (die line : Nat) (b : Bar) : (s.barCopy die line b).frames = s.frames := rfl
@[simp] theorem State.barCopy_lastLine (s : State) (die line : Nat) (b : Bar) : (s.barCopy die line b).lastLine = s.lastLine := rfl
@[simp] theorem State.barCopy_dirty (s : State) (die line : Nat) (b : Bar) : (s.barCopy die line b).dirty = s.dirty := rfl
@[simp] theorem State.barCopy_cells (s : State) (die line : Nat) (b : Bar) : (s.barCopy die line b).cells = s.cells := rfl
@[simp] theorem State.barCopy_lodge (s : State) (die line : Nat) (b : Bar) : (s.barCopy die line b).lodge = s.lodge := rfl
@[simp] theorem State.barCopy_slots (s : State) (die line : Nat) (b : Bar) : (s.barCopy die line b).slots = s.slots := rfl
@[simp] theorem State.barCopy_regs (s : State) (die line : Nat) (b : Bar) : (s.barCopy die line b).regs = s.regs := rfl
@[simp] theorem State.barCopy_events (s : State) (die line : Nat) (b : Bar) : (s.barCopy die line b).events = s.events := rfl
@[simp] theorem State.barCopy_lost (s : State) (die line : Nat) (b : Bar) : (s.barCopy die line b).lost = s.lost := rfl
@[simp] theorem State.barCopy_evicted (s : State) (die line : Nat) (b : Bar) : (s.barCopy die line b).evicted = s.evicted := rfl
@[simp] theorem State.barCopy_renewed (s : State) (die line : Nat) (b : Bar) : (s.barCopy die line b).renewed = s.renewed := rfl
@[simp] theorem State.barCopy_late (s : State) (die line : Nat) (b : Bar) : (s.barCopy die line b).late = s.late := rfl
@[simp] theorem State.barCopy_retained (s : State) (die line : Nat) (b : Bar) : (s.barCopy die line b).retained = s.retained := rfl

/- ### barCopyFor -/

@[simp] theorem State.barCopyFor_clk (s : State) (g : Group) (p : Pending) (line : Nat) : (s.barCopyFor g p line).clk = s.clk := by
  unfold State.barCopyFor; simp only; split
  · rfl
  · exact foldl_keeps State.clk _ (fun a b => by simp) _ _
@[simp] theorem State.barCopyFor_tick (s : State) (g : Group) (p : Pending) (line : Nat) : (s.barCopyFor g p line).tick = s.tick := by
  unfold State.barCopyFor; simp only; split
  · rfl
  · exact foldl_keeps State.tick _ (fun a b => by simp) _ _
@[simp] theorem State.barCopyFor_turn (s : State) (g : Group) (p : Pending) (line : Nat) : (s.barCopyFor g p line).turn = s.turn := by
  unfold State.barCopyFor; simp only; split
  · rfl
  · exact foldl_keeps State.turn _ (fun a b => by simp) _ _
@[simp] theorem State.barCopyFor_inbox (s : State) (g : Group) (p : Pending) (line : Nat) : (s.barCopyFor g p line).inbox = s.inbox := by
  unfold State.barCopyFor; simp only; split
  · rfl
  · exact foldl_keeps State.inbox _ (fun a b => by simp) _ _
@[simp] theorem State.barCopyFor_cur (s : State) (g : Group) (p : Pending) (line : Nat) : (s.barCopyFor g p line).cur = s.cur := by
  unfold State.barCopyFor; simp only; split
  · rfl
  · exact foldl_keeps State.cur _ (fun a b => by simp) _ _
@[simp] theorem State.barCopyFor_instances (s : State) (g : Group) (p : Pending) (line : Nat) : (s.barCopyFor g p line).instances = s.instances := by
  unfold State.barCopyFor; simp only; split
  · rfl
  · exact foldl_keeps State.instances _ (fun a b => by simp) _ _
@[simp] theorem State.barCopyFor_issuing (s : State) (g : Group) (p : Pending) (line : Nat) : (s.barCopyFor g p line).issuing = s.issuing := by
  unfold State.barCopyFor; simp only; split
  · rfl
  · exact foldl_keeps State.issuing _ (fun a b => by simp) _ _
@[simp] theorem State.barCopyFor_completing (s : State) (g : Group) (p : Pending) (line : Nat) : (s.barCopyFor g p line).completing = s.completing := by
  unfold State.barCopyFor; simp only; split
  · rfl
  · exact foldl_keeps State.completing _ (fun a b => by simp) _ _
@[simp] theorem State.barCopyFor_teams (s : State) (g : Group) (p : Pending) (line : Nat) : (s.barCopyFor g p line).teams = s.teams := by
  unfold State.barCopyFor; simp only; split
  · rfl
  · exact foldl_keeps State.teams _ (fun a b => by simp) _ _
@[simp] theorem State.barCopyFor_launches (s : State) (g : Group) (p : Pending) (line : Nat) : (s.barCopyFor g p line).launches = s.launches := by
  unfold State.barCopyFor; simp only; split
  · rfl
  · exact foldl_keeps State.launches _ (fun a b => by simp) _ _
@[simp] theorem State.barCopyFor_ctxs (s : State) (g : Group) (p : Pending) (line : Nat) : (s.barCopyFor g p line).ctxs = s.ctxs := by
  unfold State.barCopyFor; simp only; split
  · rfl
  · exact foldl_keeps State.ctxs _ (fun a b => by simp) _ _
@[simp] theorem State.barCopyFor_groups (s : State) (g : Group) (p : Pending) (line : Nat) : (s.barCopyFor g p line).groups = s.groups := by
  unfold State.barCopyFor; simp only; split
  · rfl
  · exact foldl_keeps State.groups _ (fun a b => by simp) _ _
@[simp] theorem State.barCopyFor_cores (s : State) (g : Group) (p : Pending) (line : Nat) : (s.barCopyFor g p line).cores = s.cores := by
  unfold State.barCopyFor; simp only; split
  · rfl
  · exact foldl_keeps State.cores _ (fun a b => by simp) _ _
@[simp] theorem State.barCopyFor_mem (s : State) (g : Group) (p : Pending) (line : Nat) : (s.barCopyFor g p line).mem = s.mem := by
  unfold State.barCopyFor; simp only; split
  · rfl
  · exact foldl_keeps State.mem _ (fun a b => by simp) _ _
@[simp] theorem State.barCopyFor_poison (s : State) (g : Group) (p : Pending) (line : Nat) : (s.barCopyFor g p line).poison = s.poison := by
  unfold State.barCopyFor; simp only; split
  · rfl
  · exact foldl_keeps State.poison _ (fun a b => by simp) _ _
@[simp] theorem State.barCopyFor_hostMem (s : State) (g : Group) (p : Pending) (line : Nat) : (s.barCopyFor g p line).hostMem = s.hostMem := by
  unfold State.barCopyFor; simp only; split
  · rfl
  · exact foldl_keeps State.hostMem _ (fun a b => by simp) _ _
@[simp] theorem State.barCopyFor_peerMem (s : State) (g : Group) (p : Pending) (line : Nat) : (s.barCopyFor g p line).peerMem = s.peerMem := by
  unfold State.barCopyFor; simp only; split
  · rfl
  · exact foldl_keeps State.peerMem _ (fun a b => by simp) _ _
@[simp] theorem State.barCopyFor_bufs (s : State) (g : Group) (p : Pending) (line : Nat) : (s.barCopyFor g p line).bufs = s.bufs := by
  unfold State.barCopyFor; simp only; split
  · rfl
  · exact foldl_keeps State.bufs _ (fun a b => by simp) _ _
@[simp] theorem State.barCopyFor_transit (s : State) (g : Group) (p : Pending) (line : Nat) : (s.barCopyFor g p line).transit = s.transit := by
  unfold State.barCopyFor; simp only; split
  · rfl
  · exact foldl_keeps State.transit _ (fun a b => by simp) _ _
@[simp] theorem State.barCopyFor_moveAt (s : State) (g : Group) (p : Pending) (line : Nat) : (s.barCopyFor g p line).moveAt = s.moveAt := by
  unfold State.barCopyFor; simp only; split
  · rfl
  · exact foldl_keeps State.moveAt _ (fun a b => by simp) _ _
@[simp] theorem State.barCopyFor_frames (s : State) (g : Group) (p : Pending) (line : Nat) : (s.barCopyFor g p line).frames = s.frames := by
  unfold State.barCopyFor; simp only; split
  · rfl
  · exact foldl_keeps State.frames _ (fun a b => by simp) _ _
@[simp] theorem State.barCopyFor_lastLine (s : State) (g : Group) (p : Pending) (line : Nat) : (s.barCopyFor g p line).lastLine = s.lastLine := by
  unfold State.barCopyFor; simp only; split
  · rfl
  · exact foldl_keeps State.lastLine _ (fun a b => by simp) _ _
@[simp] theorem State.barCopyFor_dirty (s : State) (g : Group) (p : Pending) (line : Nat) : (s.barCopyFor g p line).dirty = s.dirty := by
  unfold State.barCopyFor; simp only; split
  · rfl
  · exact foldl_keeps State.dirty _ (fun a b => by simp) _ _
@[simp] theorem State.barCopyFor_cells (s : State) (g : Group) (p : Pending) (line : Nat) : (s.barCopyFor g p line).cells = s.cells := by
  unfold State.barCopyFor; simp only; split
  · rfl
  · exact foldl_keeps State.cells _ (fun a b => by simp) _ _
@[simp] theorem State.barCopyFor_lodge (s : State) (g : Group) (p : Pending) (line : Nat) : (s.barCopyFor g p line).lodge = s.lodge := by
  unfold State.barCopyFor; simp only; split
  · rfl
  · exact foldl_keeps State.lodge _ (fun a b => by simp) _ _
@[simp] theorem State.barCopyFor_slots (s : State) (g : Group) (p : Pending) (line : Nat) : (s.barCopyFor g p line).slots = s.slots := by
  unfold State.barCopyFor; simp only; split
  · rfl
  · exact foldl_keeps State.slots _ (fun a b => by simp) _ _
@[simp] theorem State.barCopyFor_regs (s : State) (g : Group) (p : Pending) (line : Nat) : (s.barCopyFor g p line).regs = s.regs := by
  unfold State.barCopyFor; simp only; split
  · rfl
  · exact foldl_keeps State.regs _ (fun a b => by simp) _ _
@[simp] theorem State.barCopyFor_events (s : State) (g : Group) (p : Pending) (line : Nat) : (s.barCopyFor g p line).events = s.events := by
  unfold State.barCopyFor; simp only; split
  · rfl
  · exact foldl_keeps State.events _ (fun a b => by simp) _ _
@[simp] theorem State.barCopyFor_lost (s : State) (g : Group) (p : Pending) (line : Nat) : (s.barCopyFor g p line).lost = s.lost := by
  unfold State.barCopyFor; simp only; split
  · rfl
  · exact foldl_keeps State.lost _ (fun a b => by simp) _ _
@[simp] theorem State.barCopyFor_evicted (s : State) (g : Group) (p : Pending) (line : Nat) : (s.barCopyFor g p line).evicted = s.evicted := by
  unfold State.barCopyFor; simp only; split
  · rfl
  · exact foldl_keeps State.evicted _ (fun a b => by simp) _ _
@[simp] theorem State.barCopyFor_renewed (s : State) (g : Group) (p : Pending) (line : Nat) : (s.barCopyFor g p line).renewed = s.renewed := by
  unfold State.barCopyFor; simp only; split
  · rfl
  · exact foldl_keeps State.renewed _ (fun a b => by simp) _ _
@[simp] theorem State.barCopyFor_late (s : State) (g : Group) (p : Pending) (line : Nat) : (s.barCopyFor g p line).late = s.late := by
  unfold State.barCopyFor; simp only; split
  · rfl
  · exact foldl_keeps State.late _ (fun a b => by simp) _ _
@[simp] theorem State.barCopyFor_retained (s : State) (g : Group) (p : Pending) (line : Nat) : (s.barCopyFor g p line).retained = s.retained := by
  unfold State.barCopyFor; simp only; split
  · rfl
  · exact foldl_keeps State.retained _ (fun a b => by simp) _ _

/- ### releaseCopies -/

@[simp] theorem State.releaseCopies_clk (s : State) (g : Group) (m : Mask) (x : Scp) : (s.releaseCopies g m x).clk = s.clk := by simp [State.releaseCopies]
@[simp] theorem State.releaseCopies_tick (s : State) (g : Group) (m : Mask) (x : Scp) : (s.releaseCopies g m x).tick = s.tick := by simp [State.releaseCopies]
@[simp] theorem State.releaseCopies_turn (s : State) (g : Group) (m : Mask) (x : Scp) : (s.releaseCopies g m x).turn = s.turn := by simp [State.releaseCopies]
@[simp] theorem State.releaseCopies_inbox (s : State) (g : Group) (m : Mask) (x : Scp) : (s.releaseCopies g m x).inbox = s.inbox := by simp [State.releaseCopies]
@[simp] theorem State.releaseCopies_cur (s : State) (g : Group) (m : Mask) (x : Scp) : (s.releaseCopies g m x).cur = s.cur := by simp [State.releaseCopies]
@[simp] theorem State.releaseCopies_instances (s : State) (g : Group) (m : Mask) (x : Scp) : (s.releaseCopies g m x).instances = s.instances := by simp [State.releaseCopies]
@[simp] theorem State.releaseCopies_issuing (s : State) (g : Group) (m : Mask) (x : Scp) : (s.releaseCopies g m x).issuing = s.issuing := by simp [State.releaseCopies]
@[simp] theorem State.releaseCopies_completing (s : State) (g : Group) (m : Mask) (x : Scp) : (s.releaseCopies g m x).completing = s.completing := by simp [State.releaseCopies]
@[simp] theorem State.releaseCopies_teams (s : State) (g : Group) (m : Mask) (x : Scp) : (s.releaseCopies g m x).teams = s.teams := by simp [State.releaseCopies]
@[simp] theorem State.releaseCopies_launches (s : State) (g : Group) (m : Mask) (x : Scp) : (s.releaseCopies g m x).launches = s.launches := by simp [State.releaseCopies]
@[simp] theorem State.releaseCopies_ctxs (s : State) (g : Group) (m : Mask) (x : Scp) : (s.releaseCopies g m x).ctxs = s.ctxs := by simp [State.releaseCopies]
@[simp] theorem State.releaseCopies_groups (s : State) (g : Group) (m : Mask) (x : Scp) : (s.releaseCopies g m x).groups = s.groups := by simp [State.releaseCopies]
@[simp] theorem State.releaseCopies_cores (s : State) (g : Group) (m : Mask) (x : Scp) : (s.releaseCopies g m x).cores = s.cores := by simp [State.releaseCopies]
@[simp] theorem State.releaseCopies_mem (s : State) (g : Group) (m : Mask) (x : Scp) : (s.releaseCopies g m x).mem = s.mem := by simp [State.releaseCopies]
@[simp] theorem State.releaseCopies_poison (s : State) (g : Group) (m : Mask) (x : Scp) : (s.releaseCopies g m x).poison = s.poison := by simp [State.releaseCopies]
@[simp] theorem State.releaseCopies_hostMem (s : State) (g : Group) (m : Mask) (x : Scp) : (s.releaseCopies g m x).hostMem = s.hostMem := by simp [State.releaseCopies]
@[simp] theorem State.releaseCopies_peerMem (s : State) (g : Group) (m : Mask) (x : Scp) : (s.releaseCopies g m x).peerMem = s.peerMem := by simp [State.releaseCopies]
@[simp] theorem State.releaseCopies_bufs (s : State) (g : Group) (m : Mask) (x : Scp) : (s.releaseCopies g m x).bufs = s.bufs := by simp [State.releaseCopies]
@[simp] theorem State.releaseCopies_transit (s : State) (g : Group) (m : Mask) (x : Scp) : (s.releaseCopies g m x).transit = s.transit := by simp [State.releaseCopies]
@[simp] theorem State.releaseCopies_moveAt (s : State) (g : Group) (m : Mask) (x : Scp) : (s.releaseCopies g m x).moveAt = s.moveAt := by simp [State.releaseCopies]
@[simp] theorem State.releaseCopies_frames (s : State) (g : Group) (m : Mask) (x : Scp) : (s.releaseCopies g m x).frames = s.frames := by simp [State.releaseCopies]
@[simp] theorem State.releaseCopies_lastLine (s : State) (g : Group) (m : Mask) (x : Scp) : (s.releaseCopies g m x).lastLine = s.lastLine := by simp [State.releaseCopies]
@[simp] theorem State.releaseCopies_cells (s : State) (g : Group) (m : Mask) (x : Scp) : (s.releaseCopies g m x).cells = s.cells := by simp [State.releaseCopies]
@[simp] theorem State.releaseCopies_lodge (s : State) (g : Group) (m : Mask) (x : Scp) : (s.releaseCopies g m x).lodge = s.lodge := by simp [State.releaseCopies]
@[simp] theorem State.releaseCopies_slots (s : State) (g : Group) (m : Mask) (x : Scp) : (s.releaseCopies g m x).slots = s.slots := by simp [State.releaseCopies]
@[simp] theorem State.releaseCopies_regs (s : State) (g : Group) (m : Mask) (x : Scp) : (s.releaseCopies g m x).regs = s.regs := by simp [State.releaseCopies]
@[simp] theorem State.releaseCopies_events (s : State) (g : Group) (m : Mask) (x : Scp) : (s.releaseCopies g m x).events = s.events := by simp [State.releaseCopies]
@[simp] theorem State.releaseCopies_lost (s : State) (g : Group) (m : Mask) (x : Scp) : (s.releaseCopies g m x).lost = s.lost := by simp [State.releaseCopies]
@[simp] theorem State.releaseCopies_evicted (s : State) (g : Group) (m : Mask) (x : Scp) : (s.releaseCopies g m x).evicted = s.evicted := by simp [State.releaseCopies]
@[simp] theorem State.releaseCopies_renewed (s : State) (g : Group) (m : Mask) (x : Scp) : (s.releaseCopies g m x).renewed = s.renewed := by simp [State.releaseCopies]
@[simp] theorem State.releaseCopies_retained (s : State) (g : Group) (m : Mask) (x : Scp) : (s.releaseCopies g m x).retained = s.retained := by simp [State.releaseCopies]

/- ### setPoison -/

@[simp] theorem State.setPoison_clk (s : State) (a : Nat) : (s.setPoison a).clk = s.clk := rfl
@[simp] theorem State.setPoison_tick (s : State) (a : Nat) : (s.setPoison a).tick = s.tick := rfl
@[simp] theorem State.setPoison_turn (s : State) (a : Nat) : (s.setPoison a).turn = s.turn := rfl
@[simp] theorem State.setPoison_inbox (s : State) (a : Nat) : (s.setPoison a).inbox = s.inbox := rfl
@[simp] theorem State.setPoison_cur (s : State) (a : Nat) : (s.setPoison a).cur = s.cur := rfl
@[simp] theorem State.setPoison_instances (s : State) (a : Nat) : (s.setPoison a).instances = s.instances := rfl
@[simp] theorem State.setPoison_issuing (s : State) (a : Nat) : (s.setPoison a).issuing = s.issuing := rfl
@[simp] theorem State.setPoison_completing (s : State) (a : Nat) : (s.setPoison a).completing = s.completing := rfl
@[simp] theorem State.setPoison_teams (s : State) (a : Nat) : (s.setPoison a).teams = s.teams := rfl
@[simp] theorem State.setPoison_launches (s : State) (a : Nat) : (s.setPoison a).launches = s.launches := rfl
@[simp] theorem State.setPoison_ctxs (s : State) (a : Nat) : (s.setPoison a).ctxs = s.ctxs := rfl
@[simp] theorem State.setPoison_groups (s : State) (a : Nat) : (s.setPoison a).groups = s.groups := rfl
@[simp] theorem State.setPoison_cores (s : State) (a : Nat) : (s.setPoison a).cores = s.cores := rfl
@[simp] theorem State.setPoison_mem (s : State) (a : Nat) : (s.setPoison a).mem = s.mem := rfl
@[simp] theorem State.setPoison_hostMem (s : State) (a : Nat) : (s.setPoison a).hostMem = s.hostMem := rfl
@[simp] theorem State.setPoison_peerMem (s : State) (a : Nat) : (s.setPoison a).peerMem = s.peerMem := rfl
@[simp] theorem State.setPoison_bufs (s : State) (a : Nat) : (s.setPoison a).bufs = s.bufs := rfl
@[simp] theorem State.setPoison_transit (s : State) (a : Nat) : (s.setPoison a).transit = s.transit := rfl
@[simp] theorem State.setPoison_moveAt (s : State) (a : Nat) : (s.setPoison a).moveAt = s.moveAt := rfl
@[simp] theorem State.setPoison_frames (s : State) (a : Nat) : (s.setPoison a).frames = s.frames := rfl
@[simp] theorem State.setPoison_lastLine (s : State) (a : Nat) : (s.setPoison a).lastLine = s.lastLine := rfl
@[simp] theorem State.setPoison_readCopies (s : State) (a : Nat) : (s.setPoison a).readCopies = s.readCopies := rfl
@[simp] theorem State.setPoison_dirty (s : State) (a : Nat) : (s.setPoison a).dirty = s.dirty := rfl
@[simp] theorem State.setPoison_cells (s : State) (a : Nat) : (s.setPoison a).cells = s.cells := rfl
@[simp] theorem State.setPoison_lodge (s : State) (a : Nat) : (s.setPoison a).lodge = s.lodge := rfl
@[simp] theorem State.setPoison_slots (s : State) (a : Nat) : (s.setPoison a).slots = s.slots := rfl
@[simp] theorem State.setPoison_regs (s : State) (a : Nat) : (s.setPoison a).regs = s.regs := rfl
@[simp] theorem State.setPoison_events (s : State) (a : Nat) : (s.setPoison a).events = s.events := rfl
@[simp] theorem State.setPoison_lost (s : State) (a : Nat) : (s.setPoison a).lost = s.lost := rfl
@[simp] theorem State.setPoison_evicted (s : State) (a : Nat) : (s.setPoison a).evicted = s.evicted := rfl
@[simp] theorem State.setPoison_renewed (s : State) (a : Nat) : (s.setPoison a).renewed = s.renewed := rfl
@[simp] theorem State.setPoison_late (s : State) (a : Nat) : (s.setPoison a).late = s.late := rfl
@[simp] theorem State.setPoison_retained (s : State) (a : Nat) : (s.setPoison a).retained = s.retained := rfl

/- ### putBytes -/

@[simp] theorem State.putBytes_clk (s : State) (sp : Space) (a : Nat) (bs : List Byte) : (s.putBytes sp a bs).clk = s.clk := by unfold State.putBytes; (repeat' split) <;> simp
@[simp] theorem State.putBytes_tick (s : State) (sp : Space) (a : Nat) (bs : List Byte) : (s.putBytes sp a bs).tick = s.tick := by unfold State.putBytes; (repeat' split) <;> simp
@[simp] theorem State.putBytes_turn (s : State) (sp : Space) (a : Nat) (bs : List Byte) : (s.putBytes sp a bs).turn = s.turn := by unfold State.putBytes; (repeat' split) <;> simp
@[simp] theorem State.putBytes_inbox (s : State) (sp : Space) (a : Nat) (bs : List Byte) : (s.putBytes sp a bs).inbox = s.inbox := by unfold State.putBytes; (repeat' split) <;> simp
@[simp] theorem State.putBytes_cur (s : State) (sp : Space) (a : Nat) (bs : List Byte) : (s.putBytes sp a bs).cur = s.cur := by unfold State.putBytes; (repeat' split) <;> simp
@[simp] theorem State.putBytes_instances (s : State) (sp : Space) (a : Nat) (bs : List Byte) : (s.putBytes sp a bs).instances = s.instances := by unfold State.putBytes; (repeat' split) <;> simp
@[simp] theorem State.putBytes_issuing (s : State) (sp : Space) (a : Nat) (bs : List Byte) : (s.putBytes sp a bs).issuing = s.issuing := by unfold State.putBytes; (repeat' split) <;> simp
@[simp] theorem State.putBytes_completing (s : State) (sp : Space) (a : Nat) (bs : List Byte) : (s.putBytes sp a bs).completing = s.completing := by unfold State.putBytes; (repeat' split) <;> simp
@[simp] theorem State.putBytes_teams (s : State) (sp : Space) (a : Nat) (bs : List Byte) : (s.putBytes sp a bs).teams = s.teams := by unfold State.putBytes; (repeat' split) <;> simp
@[simp] theorem State.putBytes_launches (s : State) (sp : Space) (a : Nat) (bs : List Byte) : (s.putBytes sp a bs).launches = s.launches := by unfold State.putBytes; (repeat' split) <;> simp
@[simp] theorem State.putBytes_ctxs (s : State) (sp : Space) (a : Nat) (bs : List Byte) : (s.putBytes sp a bs).ctxs = s.ctxs := by unfold State.putBytes; (repeat' split) <;> simp
@[simp] theorem State.putBytes_groups (s : State) (sp : Space) (a : Nat) (bs : List Byte) : (s.putBytes sp a bs).groups = s.groups := by unfold State.putBytes; (repeat' split) <;> simp
@[simp] theorem State.putBytes_cores (s : State) (sp : Space) (a : Nat) (bs : List Byte) : (s.putBytes sp a bs).cores = s.cores := by unfold State.putBytes; (repeat' split) <;> simp
@[simp] theorem State.putBytes_transit (s : State) (sp : Space) (a : Nat) (bs : List Byte) : (s.putBytes sp a bs).transit = s.transit := by unfold State.putBytes; (repeat' split) <;> simp
@[simp] theorem State.putBytes_moveAt (s : State) (sp : Space) (a : Nat) (bs : List Byte) : (s.putBytes sp a bs).moveAt = s.moveAt := by unfold State.putBytes; (repeat' split) <;> simp
@[simp] theorem State.putBytes_lastLine (s : State) (sp : Space) (a : Nat) (bs : List Byte) : (s.putBytes sp a bs).lastLine = s.lastLine := by unfold State.putBytes; (repeat' split) <;> simp
@[simp] theorem State.putBytes_readCopies (s : State) (sp : Space) (a : Nat) (bs : List Byte) : (s.putBytes sp a bs).readCopies = s.readCopies := by unfold State.putBytes; (repeat' split) <;> simp
@[simp] theorem State.putBytes_dirty (s : State) (sp : Space) (a : Nat) (bs : List Byte) : (s.putBytes sp a bs).dirty = s.dirty := by unfold State.putBytes; (repeat' split) <;> simp
@[simp] theorem State.putBytes_slots (s : State) (sp : Space) (a : Nat) (bs : List Byte) : (s.putBytes sp a bs).slots = s.slots := by unfold State.putBytes; (repeat' split) <;> simp
@[simp] theorem State.putBytes_lost (s : State) (sp : Space) (a : Nat) (bs : List Byte) : (s.putBytes sp a bs).lost = s.lost := by unfold State.putBytes; (repeat' split) <;> simp
@[simp] theorem State.putBytes_evicted (s : State) (sp : Space) (a : Nat) (bs : List Byte) : (s.putBytes sp a bs).evicted = s.evicted := by unfold State.putBytes; (repeat' split) <;> simp
@[simp] theorem State.putBytes_renewed (s : State) (sp : Space) (a : Nat) (bs : List Byte) : (s.putBytes sp a bs).renewed = s.renewed := by unfold State.putBytes; (repeat' split) <;> simp
@[simp] theorem State.putBytes_late (s : State) (sp : Space) (a : Nat) (bs : List Byte) : (s.putBytes sp a bs).late = s.late := by unfold State.putBytes; (repeat' split) <;> simp
@[simp] theorem State.putBytes_retained (s : State) (sp : Space) (a : Nat) (bs : List Byte) : (s.putBytes sp a bs).retained = s.retained := by unfold State.putBytes; (repeat' split) <;> simp

/- ### cacheRoom -/

@[simp] theorem State.cacheRoom_clk (s : State) (die : Nat) : (s.cacheRoom die).clk = s.clk := by unfold State.cacheRoom; (repeat' split) <;> simp
@[simp] theorem State.cacheRoom_tick (s : State) (die : Nat) : (s.cacheRoom die).tick = s.tick := by unfold State.cacheRoom; (repeat' split) <;> simp
@[simp] theorem State.cacheRoom_turn (s : State) (die : Nat) : (s.cacheRoom die).turn = s.turn := by unfold State.cacheRoom; (repeat' split) <;> simp
@[simp] theorem State.cacheRoom_inbox (s : State) (die : Nat) : (s.cacheRoom die).inbox = s.inbox := by unfold State.cacheRoom; (repeat' split) <;> simp
@[simp] theorem State.cacheRoom_cur (s : State) (die : Nat) : (s.cacheRoom die).cur = s.cur := by unfold State.cacheRoom; (repeat' split) <;> simp
@[simp] theorem State.cacheRoom_instances (s : State) (die : Nat) : (s.cacheRoom die).instances = s.instances := by unfold State.cacheRoom; (repeat' split) <;> simp
@[simp] theorem State.cacheRoom_issuing (s : State) (die : Nat) : (s.cacheRoom die).issuing = s.issuing := by unfold State.cacheRoom; (repeat' split) <;> simp
@[simp] theorem State.cacheRoom_completing (s : State) (die : Nat) : (s.cacheRoom die).completing = s.completing := by unfold State.cacheRoom; (repeat' split) <;> simp
@[simp] theorem State.cacheRoom_teams (s : State) (die : Nat) : (s.cacheRoom die).teams = s.teams := by unfold State.cacheRoom; (repeat' split) <;> simp
@[simp] theorem State.cacheRoom_launches (s : State) (die : Nat) : (s.cacheRoom die).launches = s.launches := by unfold State.cacheRoom; (repeat' split) <;> simp
@[simp] theorem State.cacheRoom_ctxs (s : State) (die : Nat) : (s.cacheRoom die).ctxs = s.ctxs := by unfold State.cacheRoom; (repeat' split) <;> simp
@[simp] theorem State.cacheRoom_groups (s : State) (die : Nat) : (s.cacheRoom die).groups = s.groups := by unfold State.cacheRoom; (repeat' split) <;> simp
@[simp] theorem State.cacheRoom_cores (s : State) (die : Nat) : (s.cacheRoom die).cores = s.cores := by unfold State.cacheRoom; (repeat' split) <;> simp
@[simp] theorem State.cacheRoom_mem (s : State) (die : Nat) : (s.cacheRoom die).mem = s.mem := by unfold State.cacheRoom; (repeat' split) <;> simp
@[simp] theorem State.cacheRoom_poison (s : State) (die : Nat) : (s.cacheRoom die).poison = s.poison := by unfold State.cacheRoom; (repeat' split) <;> simp
@[simp] theorem State.cacheRoom_hostMem (s : State) (die : Nat) : (s.cacheRoom die).hostMem = s.hostMem := by unfold State.cacheRoom; (repeat' split) <;> simp
@[simp] theorem State.cacheRoom_peerMem (s : State) (die : Nat) : (s.cacheRoom die).peerMem = s.peerMem := by unfold State.cacheRoom; (repeat' split) <;> simp
@[simp] theorem State.cacheRoom_bufs (s : State) (die : Nat) : (s.cacheRoom die).bufs = s.bufs := by unfold State.cacheRoom; (repeat' split) <;> simp
@[simp] theorem State.cacheRoom_transit (s : State) (die : Nat) : (s.cacheRoom die).transit = s.transit := by unfold State.cacheRoom; (repeat' split) <;> simp
@[simp] theorem State.cacheRoom_moveAt (s : State) (die : Nat) : (s.cacheRoom die).moveAt = s.moveAt := by unfold State.cacheRoom; (repeat' split) <;> simp
@[simp] theorem State.cacheRoom_frames (s : State) (die : Nat) : (s.cacheRoom die).frames = s.frames := by unfold State.cacheRoom; (repeat' split) <;> simp
@[simp] theorem State.cacheRoom_lastLine (s : State) (die : Nat) : (s.cacheRoom die).lastLine = s.lastLine := by unfold State.cacheRoom; (repeat' split) <;> simp
@[simp] theorem State.cacheRoom_cells (s : State) (die : Nat) : (s.cacheRoom die).cells = s.cells := by unfold State.cacheRoom; (repeat' split) <;> simp
@[simp] theorem State.cacheRoom_lodge (s : State) (die : Nat) : (s.cacheRoom die).lodge = s.lodge := by unfold State.cacheRoom; (repeat' split) <;> simp
@[simp] theorem State.cacheRoom_slots (s : State) (die : Nat) : (s.cacheRoom die).slots = s.slots := by unfold State.cacheRoom; (repeat' split) <;> simp
@[simp] theorem State.cacheRoom_regs (s : State) (die : Nat) : (s.cacheRoom die).regs = s.regs := by unfold State.cacheRoom; (repeat' split) <;> simp
@[simp] theorem State.cacheRoom_events (s : State) (die : Nat) : (s.cacheRoom die).events = s.events := by unfold State.cacheRoom; (repeat' split) <;> simp
@[simp] theorem State.cacheRoom_lost (s : State) (die : Nat) : (s.cacheRoom die).lost = s.lost := by unfold State.cacheRoom; (repeat' split) <;> simp
@[simp] theorem State.cacheRoom_evicted (s : State) (die : Nat) : (s.cacheRoom die).evicted = s.evicted := by unfold State.cacheRoom; (repeat' split) <;> simp
@[simp] theorem State.cacheRoom_renewed (s : State) (die : Nat) : (s.cacheRoom die).renewed = s.renewed := by unfold State.cacheRoom; (repeat' split) <;> simp
@[simp] theorem State.cacheRoom_late (s : State) (die : Nat) : (s.cacheRoom die).late = s.late := by unfold State.cacheRoom; (repeat' split) <;> simp
@[simp] theorem State.cacheRoom_retained (s : State) (die : Nat) : (s.cacheRoom die).retained = s.retained := by unfold State.cacheRoom; (repeat' split) <;> simp

/- ### takeCopy -/

@[simp] theorem State.takeCopy_clk (s : State) (die line ctx : Nat) : (s.takeCopy die line ctx).clk = s.clk := by simp [State.takeCopy]
@[simp] theorem State.takeCopy_tick (s : State) (die line ctx : Nat) : (s.takeCopy die line ctx).tick = s.tick := by simp [State.takeCopy]
@[simp] theorem State.takeCopy_turn (s : State) (die line ctx : Nat) : (s.takeCopy die line ctx).turn = s.turn := by simp [State.takeCopy]
@[simp] theorem State.takeCopy_inbox (s : State) (die line ctx : Nat) : (s.takeCopy die line ctx).inbox = s.inbox := by simp [State.takeCopy]
@[simp] theorem State.takeCopy_cur (s : State) (die line ctx : Nat) : (s.takeCopy die line ctx).cur = s.cur := by simp [State.takeCopy]
@[simp] theorem State.takeCopy_instances (s : State) (die line ctx : Nat) : (s.takeCopy die line ctx).instances = s.instances := by simp [State.takeCopy]
@[simp] theorem State.takeCopy_issuing (s : State) (die line ctx : Nat) : (s.takeCopy die line ctx).issuing = s.issuing := by simp [State.takeCopy]
@[simp] theorem State.takeCopy_completing (s : State) (die line ctx : Nat) : (s.takeCopy die line ctx).completing = s.completing := by simp [State.takeCopy]
@[simp] theorem State.takeCopy_teams (s : State) (die line ctx : Nat) : (s.takeCopy die line ctx).teams = s.teams := by simp [State.takeCopy]
@[simp] theorem State.takeCopy_launches (s : State) (die line ctx : Nat) : (s.takeCopy die line ctx).launches = s.launches := by simp [State.takeCopy]
@[simp] theorem State.takeCopy_ctxs (s : State) (die line ctx : Nat) : (s.takeCopy die line ctx).ctxs = s.ctxs := by simp [State.takeCopy]
@[simp] theorem State.takeCopy_groups (s : State) (die line ctx : Nat) : (s.takeCopy die line ctx).groups = s.groups := by simp [State.takeCopy]
@[simp] theorem State.takeCopy_cores (s : State) (die line ctx : Nat) : (s.takeCopy die line ctx).cores = s.cores := by simp [State.takeCopy]
@[simp] theorem State.takeCopy_mem (s : State) (die line ctx : Nat) : (s.takeCopy die line ctx).mem = s.mem := by simp [State.takeCopy]
@[simp] theorem State.takeCopy_poison (s : State) (die line ctx : Nat) : (s.takeCopy die line ctx).poison = s.poison := by simp [State.takeCopy]
@[simp] theorem State.takeCopy_hostMem (s : State) (die line ctx : Nat) : (s.takeCopy die line ctx).hostMem = s.hostMem := by simp [State.takeCopy]
@[simp] theorem State.takeCopy_peerMem (s : State) (die line ctx : Nat) : (s.takeCopy die line ctx).peerMem = s.peerMem := by simp [State.takeCopy]
@[simp] theorem State.takeCopy_bufs (s : State) (die line ctx : Nat) : (s.takeCopy die line ctx).bufs = s.bufs := by simp [State.takeCopy]
@[simp] theorem State.takeCopy_transit (s : State) (die line ctx : Nat) : (s.takeCopy die line ctx).transit = s.transit := by simp [State.takeCopy]
@[simp] theorem State.takeCopy_moveAt (s : State) (die line ctx : Nat) : (s.takeCopy die line ctx).moveAt = s.moveAt := by simp [State.takeCopy]
@[simp] theorem State.takeCopy_frames (s : State) (die line ctx : Nat) : (s.takeCopy die line ctx).frames = s.frames := by simp [State.takeCopy]
@[simp] theorem State.takeCopy_lastLine (s : State) (die line ctx : Nat) : (s.takeCopy die line ctx).lastLine = s.lastLine := by simp [State.takeCopy]
@[simp] theorem State.takeCopy_cells (s : State) (die line ctx : Nat) : (s.takeCopy die line ctx).cells = s.cells := by simp [State.takeCopy]
@[simp] theorem State.takeCopy_lodge (s : State) (die line ctx : Nat) : (s.takeCopy die line ctx).lodge = s.lodge := by simp [State.takeCopy]
@[simp] theorem State.takeCopy_slots (s : State) (die line ctx : Nat) : (s.takeCopy die line ctx).slots = s.slots := by simp [State.takeCopy]
@[simp] theorem State.takeCopy_regs (s : State) (die line ctx : Nat) : (s.takeCopy die line ctx).regs = s.regs := by simp [State.takeCopy]
@[simp] theorem State.takeCopy_events (s : State) (die line ctx : Nat) : (s.takeCopy die line ctx).events = s.events := by simp [State.takeCopy]
@[simp] theorem State.takeCopy_lost (s : State) (die line ctx : Nat) : (s.takeCopy die line ctx).lost = s.lost := by simp [State.takeCopy]
@[simp] theorem State.takeCopy_evicted (s : State) (die line ctx : Nat) : (s.takeCopy die line ctx).evicted = s.evicted := by simp [State.takeCopy]
@[simp] theorem State.takeCopy_renewed (s : State) (die line ctx : Nat) : (s.takeCopy die line ctx).renewed = s.renewed := by simp [State.takeCopy]
@[simp] theorem State.takeCopy_late (s : State) (die line ctx : Nat) : (s.takeCopy die line ctx).late = s.late := by simp [State.takeCopy]
@[simp] theorem State.takeCopy_retained (s : State) (die line ctx : Nat) : (s.takeCopy die line ctx).retained = s.retained := by simp [State.takeCopy]

/- ### keepCopy -/

@[simp] theorem State.keepCopy_clk (s : State) (g : Group) (m : Mask) (p : Phys) (b : Bool) : (s.keepCopy g m p b).clk = s.clk := by simp only [State.keepCopy]; (repeat' split) <;> simp
@[simp] theorem State.keepCopy_tick (s : State) (g : Group) (m : Mask) (p : Phys) (b : Bool) : (s.keepCopy g m p b).tick = s.tick := by simp only [State.keepCopy]; (repeat' split) <;> simp
@[simp] theorem State.keepCopy_turn (s : State) (g : Group) (m : Mask) (p : Phys) (b : Bool) : (s.keepCopy g m p b).turn = s.turn := by simp only [State.keepCopy]; (repeat' split) <;> simp
@[simp] theorem State.keepCopy_inbox (s : State) (g : Group) (m : Mask) (p : Phys) (b : Bool) : (s.keepCopy g m p b).inbox = s.inbox := by simp only [State.keepCopy]; (repeat' split) <;> simp
@[simp] theorem State.keepCopy_cur (s : State) (g : Group) (m : Mask) (p : Phys) (b : Bool) : (s.keepCopy g m p b).cur = s.cur := by simp only [State.keepCopy]; (repeat' split) <;> simp
@[simp] theorem State.keepCopy_instances (s : State) (g : Group) (m : Mask) (p : Phys) (b : Bool) : (s.keepCopy g m p b).instances = s.instances := by simp only [State.keepCopy]; (repeat' split) <;> simp
@[simp] theorem State.keepCopy_issuing (s : State) (g : Group) (m : Mask) (p : Phys) (b : Bool) : (s.keepCopy g m p b).issuing = s.issuing := by simp only [State.keepCopy]; (repeat' split) <;> simp
@[simp] theorem State.keepCopy_completing (s : State) (g : Group) (m : Mask) (p : Phys) (b : Bool) : (s.keepCopy g m p b).completing = s.completing := by simp only [State.keepCopy]; (repeat' split) <;> simp
@[simp] theorem State.keepCopy_teams (s : State) (g : Group) (m : Mask) (p : Phys) (b : Bool) : (s.keepCopy g m p b).teams = s.teams := by simp only [State.keepCopy]; (repeat' split) <;> simp
@[simp] theorem State.keepCopy_launches (s : State) (g : Group) (m : Mask) (p : Phys) (b : Bool) : (s.keepCopy g m p b).launches = s.launches := by simp only [State.keepCopy]; (repeat' split) <;> simp
@[simp] theorem State.keepCopy_ctxs (s : State) (g : Group) (m : Mask) (p : Phys) (b : Bool) : (s.keepCopy g m p b).ctxs = s.ctxs := by simp only [State.keepCopy]; (repeat' split) <;> simp
@[simp] theorem State.keepCopy_groups (s : State) (g : Group) (m : Mask) (p : Phys) (b : Bool) : (s.keepCopy g m p b).groups = s.groups := by simp only [State.keepCopy]; (repeat' split) <;> simp
@[simp] theorem State.keepCopy_cores (s : State) (g : Group) (m : Mask) (p : Phys) (b : Bool) : (s.keepCopy g m p b).cores = s.cores := by simp only [State.keepCopy]; (repeat' split) <;> simp
@[simp] theorem State.keepCopy_mem (s : State) (g : Group) (m : Mask) (p : Phys) (b : Bool) : (s.keepCopy g m p b).mem = s.mem := by simp only [State.keepCopy]; (repeat' split) <;> simp
@[simp] theorem State.keepCopy_poison (s : State) (g : Group) (m : Mask) (p : Phys) (b : Bool) : (s.keepCopy g m p b).poison = s.poison := by simp only [State.keepCopy]; (repeat' split) <;> simp
@[simp] theorem State.keepCopy_hostMem (s : State) (g : Group) (m : Mask) (p : Phys) (b : Bool) : (s.keepCopy g m p b).hostMem = s.hostMem := by simp only [State.keepCopy]; (repeat' split) <;> simp
@[simp] theorem State.keepCopy_peerMem (s : State) (g : Group) (m : Mask) (p : Phys) (b : Bool) : (s.keepCopy g m p b).peerMem = s.peerMem := by simp only [State.keepCopy]; (repeat' split) <;> simp
@[simp] theorem State.keepCopy_bufs (s : State) (g : Group) (m : Mask) (p : Phys) (b : Bool) : (s.keepCopy g m p b).bufs = s.bufs := by simp only [State.keepCopy]; (repeat' split) <;> simp
@[simp] theorem State.keepCopy_transit (s : State) (g : Group) (m : Mask) (p : Phys) (b : Bool) : (s.keepCopy g m p b).transit = s.transit := by simp only [State.keepCopy]; (repeat' split) <;> simp
@[simp] theorem State.keepCopy_moveAt (s : State) (g : Group) (m : Mask) (p : Phys) (b : Bool) : (s.keepCopy g m p b).moveAt = s.moveAt := by simp only [State.keepCopy]; (repeat' split) <;> simp
@[simp] theorem State.keepCopy_frames (s : State) (g : Group) (m : Mask) (p : Phys) (b : Bool) : (s.keepCopy g m p b).frames = s.frames := by simp only [State.keepCopy]; (repeat' split) <;> simp
@[simp] theorem State.keepCopy_lastLine (s : State) (g : Group) (m : Mask) (p : Phys) (b : Bool) : (s.keepCopy g m p b).lastLine = s.lastLine := by simp only [State.keepCopy]; (repeat' split) <;> simp
@[simp] theorem State.keepCopy_cells (s : State) (g : Group) (m : Mask) (p : Phys) (b : Bool) : (s.keepCopy g m p b).cells = s.cells := by simp only [State.keepCopy]; (repeat' split) <;> simp
@[simp] theorem State.keepCopy_lodge (s : State) (g : Group) (m : Mask) (p : Phys) (b : Bool) : (s.keepCopy g m p b).lodge = s.lodge := by simp only [State.keepCopy]; (repeat' split) <;> simp
@[simp] theorem State.keepCopy_slots (s : State) (g : Group) (m : Mask) (p : Phys) (b : Bool) : (s.keepCopy g m p b).slots = s.slots := by simp only [State.keepCopy]; (repeat' split) <;> simp
@[simp] theorem State.keepCopy_regs (s : State) (g : Group) (m : Mask) (p : Phys) (b : Bool) : (s.keepCopy g m p b).regs = s.regs := by simp only [State.keepCopy]; (repeat' split) <;> simp
@[simp] theorem State.keepCopy_events (s : State) (g : Group) (m : Mask) (p : Phys) (b : Bool) : (s.keepCopy g m p b).events = s.events := by simp only [State.keepCopy]; (repeat' split) <;> simp
@[simp] theorem State.keepCopy_lost (s : State) (g : Group) (m : Mask) (p : Phys) (b : Bool) : (s.keepCopy g m p b).lost = s.lost := by simp only [State.keepCopy]; (repeat' split) <;> simp
@[simp] theorem State.keepCopy_evicted (s : State) (g : Group) (m : Mask) (p : Phys) (b : Bool) : (s.keepCopy g m p b).evicted = s.evicted := by simp only [State.keepCopy]; (repeat' split) <;> simp
@[simp] theorem State.keepCopy_renewed (s : State) (g : Group) (m : Mask) (p : Phys) (b : Bool) : (s.keepCopy g m p b).renewed = s.renewed := by simp only [State.keepCopy]; (repeat' split) <;> simp
@[simp] theorem State.keepCopy_late (s : State) (g : Group) (m : Mask) (p : Phys) (b : Bool) : (s.keepCopy g m p b).late = s.late := by simp only [State.keepCopy]; (repeat' split) <;> simp
@[simp] theorem State.keepCopy_retained (s : State) (g : Group) (m : Mask) (p : Phys) (b : Bool) : (s.keepCopy g m p b).retained = s.retained := by simp only [State.keepCopy]; (repeat' split) <;> simp

/- ### perform -/

@[simp] theorem State.perform_clk (s : State) (die ctx : Nat) (p : Phys) (bs : List Byte) : (s.perform die ctx p bs).clk = s.clk := by simp only [State.perform]; (repeat' split) <;> simp
@[simp] theorem State.perform_tick (s : State) (die ctx : Nat) (p : Phys) (bs : List Byte) : (s.perform die ctx p bs).tick = s.tick := by simp only [State.perform]; (repeat' split) <;> simp
@[simp] theorem State.perform_turn (s : State) (die ctx : Nat) (p : Phys) (bs : List Byte) : (s.perform die ctx p bs).turn = s.turn := by simp only [State.perform]; (repeat' split) <;> simp
@[simp] theorem State.perform_inbox (s : State) (die ctx : Nat) (p : Phys) (bs : List Byte) : (s.perform die ctx p bs).inbox = s.inbox := by simp only [State.perform]; (repeat' split) <;> simp
@[simp] theorem State.perform_cur (s : State) (die ctx : Nat) (p : Phys) (bs : List Byte) : (s.perform die ctx p bs).cur = s.cur := by simp only [State.perform]; (repeat' split) <;> simp
@[simp] theorem State.perform_instances (s : State) (die ctx : Nat) (p : Phys) (bs : List Byte) : (s.perform die ctx p bs).instances = s.instances := by simp only [State.perform]; (repeat' split) <;> simp
@[simp] theorem State.perform_issuing (s : State) (die ctx : Nat) (p : Phys) (bs : List Byte) : (s.perform die ctx p bs).issuing = s.issuing := by simp only [State.perform]; (repeat' split) <;> simp
@[simp] theorem State.perform_completing (s : State) (die ctx : Nat) (p : Phys) (bs : List Byte) : (s.perform die ctx p bs).completing = s.completing := by simp only [State.perform]; (repeat' split) <;> simp
@[simp] theorem State.perform_teams (s : State) (die ctx : Nat) (p : Phys) (bs : List Byte) : (s.perform die ctx p bs).teams = s.teams := by simp only [State.perform]; (repeat' split) <;> simp
@[simp] theorem State.perform_launches (s : State) (die ctx : Nat) (p : Phys) (bs : List Byte) : (s.perform die ctx p bs).launches = s.launches := by simp only [State.perform]; (repeat' split) <;> simp
@[simp] theorem State.perform_ctxs (s : State) (die ctx : Nat) (p : Phys) (bs : List Byte) : (s.perform die ctx p bs).ctxs = s.ctxs := by simp only [State.perform]; (repeat' split) <;> simp
@[simp] theorem State.perform_groups (s : State) (die ctx : Nat) (p : Phys) (bs : List Byte) : (s.perform die ctx p bs).groups = s.groups := by simp only [State.perform]; (repeat' split) <;> simp
@[simp] theorem State.perform_cores (s : State) (die ctx : Nat) (p : Phys) (bs : List Byte) : (s.perform die ctx p bs).cores = s.cores := by simp only [State.perform]; (repeat' split) <;> simp
@[simp] theorem State.perform_transit (s : State) (die ctx : Nat) (p : Phys) (bs : List Byte) : (s.perform die ctx p bs).transit = s.transit := by simp only [State.perform]; (repeat' split) <;> simp
@[simp] theorem State.perform_moveAt (s : State) (die ctx : Nat) (p : Phys) (bs : List Byte) : (s.perform die ctx p bs).moveAt = s.moveAt := by simp only [State.perform]; (repeat' split) <;> simp
@[simp] theorem State.perform_lastLine (s : State) (die ctx : Nat) (p : Phys) (bs : List Byte) : (s.perform die ctx p bs).lastLine = s.lastLine := by simp only [State.perform]; (repeat' split) <;> simp
@[simp] theorem State.perform_slots (s : State) (die ctx : Nat) (p : Phys) (bs : List Byte) : (s.perform die ctx p bs).slots = s.slots := by simp only [State.perform]; (repeat' split) <;> simp
@[simp] theorem State.perform_lost (s : State) (die ctx : Nat) (p : Phys) (bs : List Byte) : (s.perform die ctx p bs).lost = s.lost := by simp only [State.perform]; (repeat' split) <;> simp
@[simp] theorem State.perform_evicted (s : State) (die ctx : Nat) (p : Phys) (bs : List Byte) : (s.perform die ctx p bs).evicted = s.evicted := by simp only [State.perform]; (repeat' split) <;> simp
@[simp] theorem State.perform_renewed (s : State) (die ctx : Nat) (p : Phys) (bs : List Byte) : (s.perform die ctx p bs).renewed = s.renewed := by simp only [State.perform]; (repeat' split) <;> simp
@[simp] theorem State.perform_late (s : State) (die ctx : Nat) (p : Phys) (bs : List Byte) : (s.perform die ctx p bs).late = s.late := by simp only [State.perform]; (repeat' split) <;> simp
@[simp] theorem State.perform_retained (s : State) (die ctx : Nat) (p : Phys) (bs : List Byte) : (s.perform die ctx p bs).retained = s.retained := by simp only [State.perform]; (repeat' split) <;> simp

/- ### homeWrite -/

@[simp] theorem State.homeWrite_clk (s : State) (a : Nat) (bs : List Byte) : (s.homeWrite a bs).clk = s.clk := by simp [State.homeWrite, State.putBytes]
@[simp] theorem State.homeWrite_tick (s : State) (a : Nat) (bs : List Byte) : (s.homeWrite a bs).tick = s.tick := by simp [State.homeWrite, State.putBytes]
@[simp] theorem State.homeWrite_turn (s : State) (a : Nat) (bs : List Byte) : (s.homeWrite a bs).turn = s.turn := by simp [State.homeWrite, State.putBytes]
@[simp] theorem State.homeWrite_inbox (s : State) (a : Nat) (bs : List Byte) : (s.homeWrite a bs).inbox = s.inbox := by simp [State.homeWrite, State.putBytes]
@[simp] theorem State.homeWrite_cur (s : State) (a : Nat) (bs : List Byte) : (s.homeWrite a bs).cur = s.cur := by simp [State.homeWrite, State.putBytes]
@[simp] theorem State.homeWrite_instances (s : State) (a : Nat) (bs : List Byte) : (s.homeWrite a bs).instances = s.instances := by simp [State.homeWrite, State.putBytes]
@[simp] theorem State.homeWrite_issuing (s : State) (a : Nat) (bs : List Byte) : (s.homeWrite a bs).issuing = s.issuing := by simp [State.homeWrite, State.putBytes]
@[simp] theorem State.homeWrite_completing (s : State) (a : Nat) (bs : List Byte) : (s.homeWrite a bs).completing = s.completing := by simp [State.homeWrite, State.putBytes]
@[simp] theorem State.homeWrite_teams (s : State) (a : Nat) (bs : List Byte) : (s.homeWrite a bs).teams = s.teams := by simp [State.homeWrite, State.putBytes]
@[simp] theorem State.homeWrite_launches (s : State) (a : Nat) (bs : List Byte) : (s.homeWrite a bs).launches = s.launches := by simp [State.homeWrite, State.putBytes]
@[simp] theorem State.homeWrite_ctxs (s : State) (a : Nat) (bs : List Byte) : (s.homeWrite a bs).ctxs = s.ctxs := by simp [State.homeWrite, State.putBytes]
@[simp] theorem State.homeWrite_groups (s : State) (a : Nat) (bs : List Byte) : (s.homeWrite a bs).groups = s.groups := by simp [State.homeWrite, State.putBytes]
@[simp] theorem State.homeWrite_cores (s : State) (a : Nat) (bs : List Byte) : (s.homeWrite a bs).cores = s.cores := by simp [State.homeWrite, State.putBytes]
@[simp] theorem State.homeWrite_peerMem (s : State) (a : Nat) (bs : List Byte) : (s.homeWrite a bs).peerMem = s.peerMem := by simp [State.homeWrite, State.putBytes]
@[simp] theorem State.homeWrite_transit (s : State) (a : Nat) (bs : List Byte) : (s.homeWrite a bs).transit = s.transit := by simp [State.homeWrite, State.putBytes]
@[simp] theorem State.homeWrite_moveAt (s : State) (a : Nat) (bs : List Byte) : (s.homeWrite a bs).moveAt = s.moveAt := by simp [State.homeWrite, State.putBytes]
@[simp] theorem State.homeWrite_lastLine (s : State) (a : Nat) (bs : List Byte) : (s.homeWrite a bs).lastLine = s.lastLine := by simp [State.homeWrite, State.putBytes]
@[simp] theorem State.homeWrite_readCopies (s : State) (a : Nat) (bs : List Byte) : (s.homeWrite a bs).readCopies = s.readCopies := by simp [State.homeWrite, State.putBytes]
@[simp] theorem State.homeWrite_slots (s : State) (a : Nat) (bs : List Byte) : (s.homeWrite a bs).slots = s.slots := by simp [State.homeWrite, State.putBytes]
@[simp] theorem State.homeWrite_lost (s : State) (a : Nat) (bs : List Byte) : (s.homeWrite a bs).lost = s.lost := by simp [State.homeWrite, State.putBytes]
@[simp] theorem State.homeWrite_evicted (s : State) (a : Nat) (bs : List Byte) : (s.homeWrite a bs).evicted = s.evicted := by simp [State.homeWrite, State.putBytes]
@[simp] theorem State.homeWrite_renewed (s : State) (a : Nat) (bs : List Byte) : (s.homeWrite a bs).renewed = s.renewed := by simp [State.homeWrite, State.putBytes]
@[simp] theorem State.homeWrite_late (s : State) (a : Nat) (bs : List Byte) : (s.homeWrite a bs).late = s.late := by simp [State.homeWrite, State.putBytes]
@[simp] theorem State.homeWrite_retained (s : State) (a : Nat) (bs : List Byte) : (s.homeWrite a bs).retained = s.retained := by simp [State.homeWrite, State.putBytes]

/- ### endRestripe -/

@[simp] theorem State.endRestripe_clk (s : State) (b : Nat) : (s.endRestripe b).clk = s.clk := by simp only [State.endRestripe]; (repeat' split) <;> simp
@[simp] theorem State.endRestripe_tick (s : State) (b : Nat) : (s.endRestripe b).tick = s.tick := by simp only [State.endRestripe]; (repeat' split) <;> simp
@[simp] theorem State.endRestripe_turn (s : State) (b : Nat) : (s.endRestripe b).turn = s.turn := by simp only [State.endRestripe]; (repeat' split) <;> simp
@[simp] theorem State.endRestripe_inbox (s : State) (b : Nat) : (s.endRestripe b).inbox = s.inbox := by simp only [State.endRestripe]; (repeat' split) <;> simp
@[simp] theorem State.endRestripe_cur (s : State) (b : Nat) : (s.endRestripe b).cur = s.cur := by simp only [State.endRestripe]; (repeat' split) <;> simp
@[simp] theorem State.endRestripe_instances (s : State) (b : Nat) : (s.endRestripe b).instances = s.instances := by simp only [State.endRestripe]; (repeat' split) <;> simp
@[simp] theorem State.endRestripe_issuing (s : State) (b : Nat) : (s.endRestripe b).issuing = s.issuing := by simp only [State.endRestripe]; (repeat' split) <;> simp
@[simp] theorem State.endRestripe_completing (s : State) (b : Nat) : (s.endRestripe b).completing = s.completing := by simp only [State.endRestripe]; (repeat' split) <;> simp
@[simp] theorem State.endRestripe_teams (s : State) (b : Nat) : (s.endRestripe b).teams = s.teams := by simp only [State.endRestripe]; (repeat' split) <;> simp
@[simp] theorem State.endRestripe_launches (s : State) (b : Nat) : (s.endRestripe b).launches = s.launches := by simp only [State.endRestripe]; (repeat' split) <;> simp
@[simp] theorem State.endRestripe_ctxs (s : State) (b : Nat) : (s.endRestripe b).ctxs = s.ctxs := by simp only [State.endRestripe]; (repeat' split) <;> simp
@[simp] theorem State.endRestripe_groups (s : State) (b : Nat) : (s.endRestripe b).groups = s.groups := by simp only [State.endRestripe]; (repeat' split) <;> simp
@[simp] theorem State.endRestripe_mem (s : State) (b : Nat) : (s.endRestripe b).mem = s.mem := by simp only [State.endRestripe]; (repeat' split) <;> simp
@[simp] theorem State.endRestripe_poison (s : State) (b : Nat) : (s.endRestripe b).poison = s.poison := by simp only [State.endRestripe]; (repeat' split) <;> simp
@[simp] theorem State.endRestripe_hostMem (s : State) (b : Nat) : (s.endRestripe b).hostMem = s.hostMem := by simp only [State.endRestripe]; (repeat' split) <;> simp
@[simp] theorem State.endRestripe_peerMem (s : State) (b : Nat) : (s.endRestripe b).peerMem = s.peerMem := by simp only [State.endRestripe]; (repeat' split) <;> simp
@[simp] theorem State.endRestripe_transit (s : State) (b : Nat) : (s.endRestripe b).transit = s.transit := by simp only [State.endRestripe]; (repeat' split) <;> simp
@[simp] theorem State.endRestripe_moveAt (s : State) (b : Nat) : (s.endRestripe b).moveAt = s.moveAt := by simp only [State.endRestripe]; (repeat' split) <;> simp
@[simp] theorem State.endRestripe_frames (s : State) (b : Nat) : (s.endRestripe b).frames = s.frames := by simp only [State.endRestripe]; (repeat' split) <;> simp
@[simp] theorem State.endRestripe_lastLine (s : State) (b : Nat) : (s.endRestripe b).lastLine = s.lastLine := by simp only [State.endRestripe]; (repeat' split) <;> simp
@[simp] theorem State.endRestripe_readCopies (s : State) (b : Nat) : (s.endRestripe b).readCopies = s.readCopies := by simp only [State.endRestripe]; (repeat' split) <;> simp
@[simp] theorem State.endRestripe_dirty (s : State) (b : Nat) : (s.endRestripe b).dirty = s.dirty := by simp only [State.endRestripe]; (repeat' split) <;> simp
@[simp] theorem State.endRestripe_cells (s : State) (b : Nat) : (s.endRestripe b).cells = s.cells := by simp only [State.endRestripe]; (repeat' split) <;> simp
@[simp] theorem State.endRestripe_lodge (s : State) (b : Nat) : (s.endRestripe b).lodge = s.lodge := by simp only [State.endRestripe]; (repeat' split) <;> simp
@[simp] theorem State.endRestripe_slots (s : State) (b : Nat) : (s.endRestripe b).slots = s.slots := by simp only [State.endRestripe]; (repeat' split) <;> simp
@[simp] theorem State.endRestripe_regs (s : State) (b : Nat) : (s.endRestripe b).regs = s.regs := by simp only [State.endRestripe]; (repeat' split) <;> simp
@[simp] theorem State.endRestripe_events (s : State) (b : Nat) : (s.endRestripe b).events = s.events := by simp only [State.endRestripe]; (repeat' split) <;> simp
@[simp] theorem State.endRestripe_lost (s : State) (b : Nat) : (s.endRestripe b).lost = s.lost := by simp only [State.endRestripe]; (repeat' split) <;> simp
@[simp] theorem State.endRestripe_evicted (s : State) (b : Nat) : (s.endRestripe b).evicted = s.evicted := by simp only [State.endRestripe]; (repeat' split) <;> simp
@[simp] theorem State.endRestripe_renewed (s : State) (b : Nat) : (s.endRestripe b).renewed = s.renewed := by simp only [State.endRestripe]; (repeat' split) <;> simp
@[simp] theorem State.endRestripe_late (s : State) (b : Nat) : (s.endRestripe b).late = s.late := by simp only [State.endRestripe]; (repeat' split) <;> simp
@[simp] theorem State.endRestripe_retained (s : State) (b : Nat) : (s.endRestripe b).retained = s.retained := by simp only [State.endRestripe]; (repeat' split) <;> simp

/- ### commitLine -/

@[simp] theorem State.commitLine_clk (s : State) (b : Nat) : (s.commitLine b).clk = s.clk := by simp only [State.commitLine]; (repeat' split) <;> simp
@[simp] theorem State.commitLine_tick (s : State) (b : Nat) : (s.commitLine b).tick = s.tick := by simp only [State.commitLine]; (repeat' split) <;> simp
@[simp] theorem State.commitLine_turn (s : State) (b : Nat) : (s.commitLine b).turn = s.turn := by simp only [State.commitLine]; (repeat' split) <;> simp
@[simp] theorem State.commitLine_inbox (s : State) (b : Nat) : (s.commitLine b).inbox = s.inbox := by simp only [State.commitLine]; (repeat' split) <;> simp
@[simp] theorem State.commitLine_cur (s : State) (b : Nat) : (s.commitLine b).cur = s.cur := by simp only [State.commitLine]; (repeat' split) <;> simp
@[simp] theorem State.commitLine_instances (s : State) (b : Nat) : (s.commitLine b).instances = s.instances := by simp only [State.commitLine]; (repeat' split) <;> simp
@[simp] theorem State.commitLine_issuing (s : State) (b : Nat) : (s.commitLine b).issuing = s.issuing := by simp only [State.commitLine]; (repeat' split) <;> simp
@[simp] theorem State.commitLine_completing (s : State) (b : Nat) : (s.commitLine b).completing = s.completing := by simp only [State.commitLine]; (repeat' split) <;> simp
@[simp] theorem State.commitLine_teams (s : State) (b : Nat) : (s.commitLine b).teams = s.teams := by simp only [State.commitLine]; (repeat' split) <;> simp
@[simp] theorem State.commitLine_launches (s : State) (b : Nat) : (s.commitLine b).launches = s.launches := by simp only [State.commitLine]; (repeat' split) <;> simp
@[simp] theorem State.commitLine_ctxs (s : State) (b : Nat) : (s.commitLine b).ctxs = s.ctxs := by simp only [State.commitLine]; (repeat' split) <;> simp
@[simp] theorem State.commitLine_groups (s : State) (b : Nat) : (s.commitLine b).groups = s.groups := by simp only [State.commitLine]; (repeat' split) <;> simp
@[simp] theorem State.commitLine_mem (s : State) (b : Nat) : (s.commitLine b).mem = s.mem := by simp only [State.commitLine]; (repeat' split) <;> simp
@[simp] theorem State.commitLine_poison (s : State) (b : Nat) : (s.commitLine b).poison = s.poison := by simp only [State.commitLine]; (repeat' split) <;> simp
@[simp] theorem State.commitLine_hostMem (s : State) (b : Nat) : (s.commitLine b).hostMem = s.hostMem := by simp only [State.commitLine]; (repeat' split) <;> simp
@[simp] theorem State.commitLine_peerMem (s : State) (b : Nat) : (s.commitLine b).peerMem = s.peerMem := by simp only [State.commitLine]; (repeat' split) <;> simp
@[simp] theorem State.commitLine_frames (s : State) (b : Nat) : (s.commitLine b).frames = s.frames := by simp only [State.commitLine]; (repeat' split) <;> simp
@[simp] theorem State.commitLine_lastLine (s : State) (b : Nat) : (s.commitLine b).lastLine = s.lastLine := by simp only [State.commitLine]; (repeat' split) <;> simp
@[simp] theorem State.commitLine_cells (s : State) (b : Nat) : (s.commitLine b).cells = s.cells := by simp only [State.commitLine]; (repeat' split) <;> simp
@[simp] theorem State.commitLine_lodge (s : State) (b : Nat) : (s.commitLine b).lodge = s.lodge := by simp only [State.commitLine]; (repeat' split) <;> simp
@[simp] theorem State.commitLine_slots (s : State) (b : Nat) : (s.commitLine b).slots = s.slots := by simp only [State.commitLine]; (repeat' split) <;> simp
@[simp] theorem State.commitLine_regs (s : State) (b : Nat) : (s.commitLine b).regs = s.regs := by simp only [State.commitLine]; (repeat' split) <;> simp
@[simp] theorem State.commitLine_events (s : State) (b : Nat) : (s.commitLine b).events = s.events := by simp only [State.commitLine]; (repeat' split) <;> simp
@[simp] theorem State.commitLine_lost (s : State) (b : Nat) : (s.commitLine b).lost = s.lost := by simp only [State.commitLine]; (repeat' split) <;> simp
@[simp] theorem State.commitLine_evicted (s : State) (b : Nat) : (s.commitLine b).evicted = s.evicted := by simp only [State.commitLine]; (repeat' split) <;> simp
@[simp] theorem State.commitLine_renewed (s : State) (b : Nat) : (s.commitLine b).renewed = s.renewed := by simp only [State.commitLine]; (repeat' split) <;> simp
@[simp] theorem State.commitLine_late (s : State) (b : Nat) : (s.commitLine b).late = s.late := by simp only [State.commitLine]; (repeat' split) <;> simp
@[simp] theorem State.commitLine_retained (s : State) (b : Nat) : (s.commitLine b).retained = s.retained := by simp only [State.commitLine]; (repeat' split) <;> simp

/- ### markSeen -/

@[simp] theorem State.markSeen_clk (s : State) (k : GKey) (t : Pending → Bool) (x : Scp) : (s.markSeen k t x).clk = s.clk := by simp [State.markSeen]
@[simp] theorem State.markSeen_tick (s : State) (k : GKey) (t : Pending → Bool) (x : Scp) : (s.markSeen k t x).tick = s.tick := by simp [State.markSeen]
@[simp] theorem State.markSeen_turn (s : State) (k : GKey) (t : Pending → Bool) (x : Scp) : (s.markSeen k t x).turn = s.turn := by simp [State.markSeen]
@[simp] theorem State.markSeen_inbox (s : State) (k : GKey) (t : Pending → Bool) (x : Scp) : (s.markSeen k t x).inbox = s.inbox := by simp [State.markSeen]
@[simp] theorem State.markSeen_cur (s : State) (k : GKey) (t : Pending → Bool) (x : Scp) : (s.markSeen k t x).cur = s.cur := by simp [State.markSeen]
@[simp] theorem State.markSeen_instances (s : State) (k : GKey) (t : Pending → Bool) (x : Scp) : (s.markSeen k t x).instances = s.instances := by simp [State.markSeen]
@[simp] theorem State.markSeen_issuing (s : State) (k : GKey) (t : Pending → Bool) (x : Scp) : (s.markSeen k t x).issuing = s.issuing := by simp [State.markSeen]
@[simp] theorem State.markSeen_completing (s : State) (k : GKey) (t : Pending → Bool) (x : Scp) : (s.markSeen k t x).completing = s.completing := by simp [State.markSeen]
@[simp] theorem State.markSeen_teams (s : State) (k : GKey) (t : Pending → Bool) (x : Scp) : (s.markSeen k t x).teams = s.teams := by simp [State.markSeen]
@[simp] theorem State.markSeen_launches (s : State) (k : GKey) (t : Pending → Bool) (x : Scp) : (s.markSeen k t x).launches = s.launches := by simp [State.markSeen]
@[simp] theorem State.markSeen_ctxs (s : State) (k : GKey) (t : Pending → Bool) (x : Scp) : (s.markSeen k t x).ctxs = s.ctxs := by simp [State.markSeen]
@[simp] theorem State.markSeen_cores (s : State) (k : GKey) (t : Pending → Bool) (x : Scp) : (s.markSeen k t x).cores = s.cores := by simp [State.markSeen]
@[simp] theorem State.markSeen_mem (s : State) (k : GKey) (t : Pending → Bool) (x : Scp) : (s.markSeen k t x).mem = s.mem := by simp [State.markSeen]
@[simp] theorem State.markSeen_poison (s : State) (k : GKey) (t : Pending → Bool) (x : Scp) : (s.markSeen k t x).poison = s.poison := by simp [State.markSeen]
@[simp] theorem State.markSeen_hostMem (s : State) (k : GKey) (t : Pending → Bool) (x : Scp) : (s.markSeen k t x).hostMem = s.hostMem := by simp [State.markSeen]
@[simp] theorem State.markSeen_peerMem (s : State) (k : GKey) (t : Pending → Bool) (x : Scp) : (s.markSeen k t x).peerMem = s.peerMem := by simp [State.markSeen]
@[simp] theorem State.markSeen_bufs (s : State) (k : GKey) (t : Pending → Bool) (x : Scp) : (s.markSeen k t x).bufs = s.bufs := by simp [State.markSeen]
@[simp] theorem State.markSeen_transit (s : State) (k : GKey) (t : Pending → Bool) (x : Scp) : (s.markSeen k t x).transit = s.transit := by simp [State.markSeen]
@[simp] theorem State.markSeen_moveAt (s : State) (k : GKey) (t : Pending → Bool) (x : Scp) : (s.markSeen k t x).moveAt = s.moveAt := by simp [State.markSeen]
@[simp] theorem State.markSeen_frames (s : State) (k : GKey) (t : Pending → Bool) (x : Scp) : (s.markSeen k t x).frames = s.frames := by simp [State.markSeen]
@[simp] theorem State.markSeen_lastLine (s : State) (k : GKey) (t : Pending → Bool) (x : Scp) : (s.markSeen k t x).lastLine = s.lastLine := by simp [State.markSeen]
@[simp] theorem State.markSeen_readCopies (s : State) (k : GKey) (t : Pending → Bool) (x : Scp) : (s.markSeen k t x).readCopies = s.readCopies := by simp [State.markSeen]
@[simp] theorem State.markSeen_dirty (s : State) (k : GKey) (t : Pending → Bool) (x : Scp) : (s.markSeen k t x).dirty = s.dirty := by simp [State.markSeen]
@[simp] theorem State.markSeen_cells (s : State) (k : GKey) (t : Pending → Bool) (x : Scp) : (s.markSeen k t x).cells = s.cells := by simp [State.markSeen]
@[simp] theorem State.markSeen_lodge (s : State) (k : GKey) (t : Pending → Bool) (x : Scp) : (s.markSeen k t x).lodge = s.lodge := by simp [State.markSeen]
@[simp] theorem State.markSeen_slots (s : State) (k : GKey) (t : Pending → Bool) (x : Scp) : (s.markSeen k t x).slots = s.slots := by simp [State.markSeen]
@[simp] theorem State.markSeen_regs (s : State) (k : GKey) (t : Pending → Bool) (x : Scp) : (s.markSeen k t x).regs = s.regs := by simp [State.markSeen]
@[simp] theorem State.markSeen_events (s : State) (k : GKey) (t : Pending → Bool) (x : Scp) : (s.markSeen k t x).events = s.events := by simp [State.markSeen]
@[simp] theorem State.markSeen_lost (s : State) (k : GKey) (t : Pending → Bool) (x : Scp) : (s.markSeen k t x).lost = s.lost := by simp [State.markSeen]
@[simp] theorem State.markSeen_evicted (s : State) (k : GKey) (t : Pending → Bool) (x : Scp) : (s.markSeen k t x).evicted = s.evicted := by simp [State.markSeen]
@[simp] theorem State.markSeen_renewed (s : State) (k : GKey) (t : Pending → Bool) (x : Scp) : (s.markSeen k t x).renewed = s.renewed := by simp [State.markSeen]
@[simp] theorem State.markSeen_late (s : State) (k : GKey) (t : Pending → Bool) (x : Scp) : (s.markSeen k t x).late = s.late := by simp [State.markSeen]
@[simp] theorem State.markSeen_retained (s : State) (k : GKey) (t : Pending → Bool) (x : Scp) : (s.markSeen k t x).retained = s.retained := by simp [State.markSeen]

/- ### makeReleases -/

@[simp] theorem State.makeReleases_clk (s : State) (g : Group) (p : Pending) : (s.makeReleases g p).clk = s.clk := foldl_keeps State.clk _ (fun a b => by simp) _ _
@[simp] theorem State.makeReleases_tick (s : State) (g : Group) (p : Pending) : (s.makeReleases g p).tick = s.tick := foldl_keeps State.tick _ (fun a b => by simp) _ _
@[simp] theorem State.makeReleases_turn (s : State) (g : Group) (p : Pending) : (s.makeReleases g p).turn = s.turn := foldl_keeps State.turn _ (fun a b => by simp) _ _
@[simp] theorem State.makeReleases_inbox (s : State) (g : Group) (p : Pending) : (s.makeReleases g p).inbox = s.inbox := foldl_keeps State.inbox _ (fun a b => by simp) _ _
@[simp] theorem State.makeReleases_cur (s : State) (g : Group) (p : Pending) : (s.makeReleases g p).cur = s.cur := foldl_keeps State.cur _ (fun a b => by simp) _ _
@[simp] theorem State.makeReleases_instances (s : State) (g : Group) (p : Pending) : (s.makeReleases g p).instances = s.instances := foldl_keeps State.instances _ (fun a b => by simp) _ _
@[simp] theorem State.makeReleases_issuing (s : State) (g : Group) (p : Pending) : (s.makeReleases g p).issuing = s.issuing := foldl_keeps State.issuing _ (fun a b => by simp) _ _
@[simp] theorem State.makeReleases_completing (s : State) (g : Group) (p : Pending) : (s.makeReleases g p).completing = s.completing := foldl_keeps State.completing _ (fun a b => by simp) _ _
@[simp] theorem State.makeReleases_teams (s : State) (g : Group) (p : Pending) : (s.makeReleases g p).teams = s.teams := foldl_keeps State.teams _ (fun a b => by simp) _ _
@[simp] theorem State.makeReleases_launches (s : State) (g : Group) (p : Pending) : (s.makeReleases g p).launches = s.launches := foldl_keeps State.launches _ (fun a b => by simp) _ _
@[simp] theorem State.makeReleases_ctxs (s : State) (g : Group) (p : Pending) : (s.makeReleases g p).ctxs = s.ctxs := foldl_keeps State.ctxs _ (fun a b => by simp) _ _
@[simp] theorem State.makeReleases_cores (s : State) (g : Group) (p : Pending) : (s.makeReleases g p).cores = s.cores := foldl_keeps State.cores _ (fun a b => by simp) _ _
@[simp] theorem State.makeReleases_mem (s : State) (g : Group) (p : Pending) : (s.makeReleases g p).mem = s.mem := foldl_keeps State.mem _ (fun a b => by simp) _ _
@[simp] theorem State.makeReleases_poison (s : State) (g : Group) (p : Pending) : (s.makeReleases g p).poison = s.poison := foldl_keeps State.poison _ (fun a b => by simp) _ _
@[simp] theorem State.makeReleases_hostMem (s : State) (g : Group) (p : Pending) : (s.makeReleases g p).hostMem = s.hostMem := foldl_keeps State.hostMem _ (fun a b => by simp) _ _
@[simp] theorem State.makeReleases_peerMem (s : State) (g : Group) (p : Pending) : (s.makeReleases g p).peerMem = s.peerMem := foldl_keeps State.peerMem _ (fun a b => by simp) _ _
@[simp] theorem State.makeReleases_bufs (s : State) (g : Group) (p : Pending) : (s.makeReleases g p).bufs = s.bufs := foldl_keeps State.bufs _ (fun a b => by simp) _ _
@[simp] theorem State.makeReleases_transit (s : State) (g : Group) (p : Pending) : (s.makeReleases g p).transit = s.transit := foldl_keeps State.transit _ (fun a b => by simp) _ _
@[simp] theorem State.makeReleases_moveAt (s : State) (g : Group) (p : Pending) : (s.makeReleases g p).moveAt = s.moveAt := foldl_keeps State.moveAt _ (fun a b => by simp) _ _
@[simp] theorem State.makeReleases_frames (s : State) (g : Group) (p : Pending) : (s.makeReleases g p).frames = s.frames := foldl_keeps State.frames _ (fun a b => by simp) _ _
@[simp] theorem State.makeReleases_lastLine (s : State) (g : Group) (p : Pending) : (s.makeReleases g p).lastLine = s.lastLine := foldl_keeps State.lastLine _ (fun a b => by simp) _ _
@[simp] theorem State.makeReleases_cells (s : State) (g : Group) (p : Pending) : (s.makeReleases g p).cells = s.cells := foldl_keeps State.cells _ (fun a b => by simp) _ _
@[simp] theorem State.makeReleases_lodge (s : State) (g : Group) (p : Pending) : (s.makeReleases g p).lodge = s.lodge := foldl_keeps State.lodge _ (fun a b => by simp) _ _
@[simp] theorem State.makeReleases_slots (s : State) (g : Group) (p : Pending) : (s.makeReleases g p).slots = s.slots := foldl_keeps State.slots _ (fun a b => by simp) _ _
@[simp] theorem State.makeReleases_regs (s : State) (g : Group) (p : Pending) : (s.makeReleases g p).regs = s.regs := foldl_keeps State.regs _ (fun a b => by simp) _ _
@[simp] theorem State.makeReleases_events (s : State) (g : Group) (p : Pending) : (s.makeReleases g p).events = s.events := foldl_keeps State.events _ (fun a b => by simp) _ _
@[simp] theorem State.makeReleases_lost (s : State) (g : Group) (p : Pending) : (s.makeReleases g p).lost = s.lost := foldl_keeps State.lost _ (fun a b => by simp) _ _
@[simp] theorem State.makeReleases_evicted (s : State) (g : Group) (p : Pending) : (s.makeReleases g p).evicted = s.evicted := foldl_keeps State.evicted _ (fun a b => by simp) _ _
@[simp] theorem State.makeReleases_renewed (s : State) (g : Group) (p : Pending) : (s.makeReleases g p).renewed = s.renewed := foldl_keeps State.renewed _ (fun a b => by simp) _ _
@[simp] theorem State.makeReleases_retained (s : State) (g : Group) (p : Pending) : (s.makeReleases g p).retained = s.retained := foldl_keeps State.retained _ (fun a b => by simp) _ _

/- ### makeAcquires -/

@[simp] theorem State.makeAcquires_clk (s : State) (g : Group) (p : Pending) : (s.makeAcquires g p).clk = s.clk := foldl_keeps State.clk _ (fun a b => by simp) _ _
@[simp] theorem State.makeAcquires_tick (s : State) (g : Group) (p : Pending) : (s.makeAcquires g p).tick = s.tick := foldl_keeps State.tick _ (fun a b => by simp) _ _
@[simp] theorem State.makeAcquires_turn (s : State) (g : Group) (p : Pending) : (s.makeAcquires g p).turn = s.turn := foldl_keeps State.turn _ (fun a b => by simp) _ _
@[simp] theorem State.makeAcquires_inbox (s : State) (g : Group) (p : Pending) : (s.makeAcquires g p).inbox = s.inbox := foldl_keeps State.inbox _ (fun a b => by simp) _ _
@[simp] theorem State.makeAcquires_cur (s : State) (g : Group) (p : Pending) : (s.makeAcquires g p).cur = s.cur := foldl_keeps State.cur _ (fun a b => by simp) _ _
@[simp] theorem State.makeAcquires_instances (s : State) (g : Group) (p : Pending) : (s.makeAcquires g p).instances = s.instances := foldl_keeps State.instances _ (fun a b => by simp) _ _
@[simp] theorem State.makeAcquires_issuing (s : State) (g : Group) (p : Pending) : (s.makeAcquires g p).issuing = s.issuing := foldl_keeps State.issuing _ (fun a b => by simp) _ _
@[simp] theorem State.makeAcquires_completing (s : State) (g : Group) (p : Pending) : (s.makeAcquires g p).completing = s.completing := foldl_keeps State.completing _ (fun a b => by simp) _ _
@[simp] theorem State.makeAcquires_teams (s : State) (g : Group) (p : Pending) : (s.makeAcquires g p).teams = s.teams := foldl_keeps State.teams _ (fun a b => by simp) _ _
@[simp] theorem State.makeAcquires_launches (s : State) (g : Group) (p : Pending) : (s.makeAcquires g p).launches = s.launches := foldl_keeps State.launches _ (fun a b => by simp) _ _
@[simp] theorem State.makeAcquires_ctxs (s : State) (g : Group) (p : Pending) : (s.makeAcquires g p).ctxs = s.ctxs := foldl_keeps State.ctxs _ (fun a b => by simp) _ _
@[simp] theorem State.makeAcquires_groups (s : State) (g : Group) (p : Pending) : (s.makeAcquires g p).groups = s.groups := foldl_keeps State.groups _ (fun a b => by simp) _ _
@[simp] theorem State.makeAcquires_cores (s : State) (g : Group) (p : Pending) : (s.makeAcquires g p).cores = s.cores := foldl_keeps State.cores _ (fun a b => by simp) _ _
@[simp] theorem State.makeAcquires_mem (s : State) (g : Group) (p : Pending) : (s.makeAcquires g p).mem = s.mem := foldl_keeps State.mem _ (fun a b => by simp) _ _
@[simp] theorem State.makeAcquires_poison (s : State) (g : Group) (p : Pending) : (s.makeAcquires g p).poison = s.poison := foldl_keeps State.poison _ (fun a b => by simp) _ _
@[simp] theorem State.makeAcquires_hostMem (s : State) (g : Group) (p : Pending) : (s.makeAcquires g p).hostMem = s.hostMem := foldl_keeps State.hostMem _ (fun a b => by simp) _ _
@[simp] theorem State.makeAcquires_peerMem (s : State) (g : Group) (p : Pending) : (s.makeAcquires g p).peerMem = s.peerMem := foldl_keeps State.peerMem _ (fun a b => by simp) _ _
@[simp] theorem State.makeAcquires_bufs (s : State) (g : Group) (p : Pending) : (s.makeAcquires g p).bufs = s.bufs := foldl_keeps State.bufs _ (fun a b => by simp) _ _
@[simp] theorem State.makeAcquires_transit (s : State) (g : Group) (p : Pending) : (s.makeAcquires g p).transit = s.transit := foldl_keeps State.transit _ (fun a b => by simp) _ _
@[simp] theorem State.makeAcquires_moveAt (s : State) (g : Group) (p : Pending) : (s.makeAcquires g p).moveAt = s.moveAt := foldl_keeps State.moveAt _ (fun a b => by simp) _ _
@[simp] theorem State.makeAcquires_frames (s : State) (g : Group) (p : Pending) : (s.makeAcquires g p).frames = s.frames := foldl_keeps State.frames _ (fun a b => by simp) _ _
@[simp] theorem State.makeAcquires_lastLine (s : State) (g : Group) (p : Pending) : (s.makeAcquires g p).lastLine = s.lastLine := foldl_keeps State.lastLine _ (fun a b => by simp) _ _
@[simp] theorem State.makeAcquires_dirty (s : State) (g : Group) (p : Pending) : (s.makeAcquires g p).dirty = s.dirty := foldl_keeps State.dirty _ (fun a b => by simp) _ _
@[simp] theorem State.makeAcquires_cells (s : State) (g : Group) (p : Pending) : (s.makeAcquires g p).cells = s.cells := foldl_keeps State.cells _ (fun a b => by simp) _ _
@[simp] theorem State.makeAcquires_lodge (s : State) (g : Group) (p : Pending) : (s.makeAcquires g p).lodge = s.lodge := foldl_keeps State.lodge _ (fun a b => by simp) _ _
@[simp] theorem State.makeAcquires_slots (s : State) (g : Group) (p : Pending) : (s.makeAcquires g p).slots = s.slots := foldl_keeps State.slots _ (fun a b => by simp) _ _
@[simp] theorem State.makeAcquires_regs (s : State) (g : Group) (p : Pending) : (s.makeAcquires g p).regs = s.regs := foldl_keeps State.regs _ (fun a b => by simp) _ _
@[simp] theorem State.makeAcquires_events (s : State) (g : Group) (p : Pending) : (s.makeAcquires g p).events = s.events := foldl_keeps State.events _ (fun a b => by simp) _ _
@[simp] theorem State.makeAcquires_lost (s : State) (g : Group) (p : Pending) : (s.makeAcquires g p).lost = s.lost := foldl_keeps State.lost _ (fun a b => by simp) _ _
@[simp] theorem State.makeAcquires_evicted (s : State) (g : Group) (p : Pending) : (s.makeAcquires g p).evicted = s.evicted := foldl_keeps State.evicted _ (fun a b => by simp) _ _
@[simp] theorem State.makeAcquires_renewed (s : State) (g : Group) (p : Pending) : (s.makeAcquires g p).renewed = s.renewed := foldl_keeps State.renewed _ (fun a b => by simp) _ _
@[simp] theorem State.makeAcquires_late (s : State) (g : Group) (p : Pending) : (s.makeAcquires g p).late = s.late := foldl_keeps State.late _ (fun a b => by simp) _ _
@[simp] theorem State.makeAcquires_retained (s : State) (g : Group) (p : Pending) : (s.makeAcquires g p).retained = s.retained := foldl_keeps State.retained _ (fun a b => by simp) _ _

/- ### deliver -/

@[simp] theorem State.deliver_clk (s : State) (k : GKey) (n : Nat) (ws : List Write) : (s.deliver k n ws).clk = s.clk := by simp [State.deliver]
@[simp] theorem State.deliver_tick (s : State) (k : GKey) (n : Nat) (ws : List Write) : (s.deliver k n ws).tick = s.tick := by simp [State.deliver]
@[simp] theorem State.deliver_turn (s : State) (k : GKey) (n : Nat) (ws : List Write) : (s.deliver k n ws).turn = s.turn := by simp [State.deliver]
@[simp] theorem State.deliver_inbox (s : State) (k : GKey) (n : Nat) (ws : List Write) : (s.deliver k n ws).inbox = s.inbox := by simp [State.deliver]
@[simp] theorem State.deliver_cur (s : State) (k : GKey) (n : Nat) (ws : List Write) : (s.deliver k n ws).cur = s.cur := by simp [State.deliver]
@[simp] theorem State.deliver_instances (s : State) (k : GKey) (n : Nat) (ws : List Write) : (s.deliver k n ws).instances = s.instances := by simp [State.deliver]
@[simp] theorem State.deliver_issuing (s : State) (k : GKey) (n : Nat) (ws : List Write) : (s.deliver k n ws).issuing = s.issuing := by simp [State.deliver]
@[simp] theorem State.deliver_completing (s : State) (k : GKey) (n : Nat) (ws : List Write) : (s.deliver k n ws).completing = s.completing := by simp [State.deliver]
@[simp] theorem State.deliver_teams (s : State) (k : GKey) (n : Nat) (ws : List Write) : (s.deliver k n ws).teams = s.teams := by simp [State.deliver]
@[simp] theorem State.deliver_launches (s : State) (k : GKey) (n : Nat) (ws : List Write) : (s.deliver k n ws).launches = s.launches := by simp [State.deliver]
@[simp] theorem State.deliver_ctxs (s : State) (k : GKey) (n : Nat) (ws : List Write) : (s.deliver k n ws).ctxs = s.ctxs := by simp [State.deliver]
@[simp] theorem State.deliver_cores (s : State) (k : GKey) (n : Nat) (ws : List Write) : (s.deliver k n ws).cores = s.cores := by simp [State.deliver]
@[simp] theorem State.deliver_mem (s : State) (k : GKey) (n : Nat) (ws : List Write) : (s.deliver k n ws).mem = s.mem := by simp [State.deliver]
@[simp] theorem State.deliver_poison (s : State) (k : GKey) (n : Nat) (ws : List Write) : (s.deliver k n ws).poison = s.poison := by simp [State.deliver]
@[simp] theorem State.deliver_hostMem (s : State) (k : GKey) (n : Nat) (ws : List Write) : (s.deliver k n ws).hostMem = s.hostMem := by simp [State.deliver]
@[simp] theorem State.deliver_peerMem (s : State) (k : GKey) (n : Nat) (ws : List Write) : (s.deliver k n ws).peerMem = s.peerMem := by simp [State.deliver]
@[simp] theorem State.deliver_bufs (s : State) (k : GKey) (n : Nat) (ws : List Write) : (s.deliver k n ws).bufs = s.bufs := by simp [State.deliver]
@[simp] theorem State.deliver_transit (s : State) (k : GKey) (n : Nat) (ws : List Write) : (s.deliver k n ws).transit = s.transit := by simp [State.deliver]
@[simp] theorem State.deliver_moveAt (s : State) (k : GKey) (n : Nat) (ws : List Write) : (s.deliver k n ws).moveAt = s.moveAt := by simp [State.deliver]
@[simp] theorem State.deliver_frames (s : State) (k : GKey) (n : Nat) (ws : List Write) : (s.deliver k n ws).frames = s.frames := by simp [State.deliver]
@[simp] theorem State.deliver_lastLine (s : State) (k : GKey) (n : Nat) (ws : List Write) : (s.deliver k n ws).lastLine = s.lastLine := by simp [State.deliver]
@[simp] theorem State.deliver_readCopies (s : State) (k : GKey) (n : Nat) (ws : List Write) : (s.deliver k n ws).readCopies = s.readCopies := by simp [State.deliver]
@[simp] theorem State.deliver_dirty (s : State) (k : GKey) (n : Nat) (ws : List Write) : (s.deliver k n ws).dirty = s.dirty := by simp [State.deliver]
@[simp] theorem State.deliver_cells (s : State) (k : GKey) (n : Nat) (ws : List Write) : (s.deliver k n ws).cells = s.cells := by simp [State.deliver]
@[simp] theorem State.deliver_lodge (s : State) (k : GKey) (n : Nat) (ws : List Write) : (s.deliver k n ws).lodge = s.lodge := by simp [State.deliver]
@[simp] theorem State.deliver_slots (s : State) (k : GKey) (n : Nat) (ws : List Write) : (s.deliver k n ws).slots = s.slots := by simp [State.deliver]
@[simp] theorem State.deliver_regs (s : State) (k : GKey) (n : Nat) (ws : List Write) : (s.deliver k n ws).regs = s.regs := by simp [State.deliver]
@[simp] theorem State.deliver_events (s : State) (k : GKey) (n : Nat) (ws : List Write) : (s.deliver k n ws).events = s.events := by simp [State.deliver]
@[simp] theorem State.deliver_lost (s : State) (k : GKey) (n : Nat) (ws : List Write) : (s.deliver k n ws).lost = s.lost := by simp [State.deliver]
@[simp] theorem State.deliver_evicted (s : State) (k : GKey) (n : Nat) (ws : List Write) : (s.deliver k n ws).evicted = s.evicted := by simp [State.deliver]
@[simp] theorem State.deliver_renewed (s : State) (k : GKey) (n : Nat) (ws : List Write) : (s.deliver k n ws).renewed = s.renewed := by simp [State.deliver]
@[simp] theorem State.deliver_late (s : State) (k : GKey) (n : Nat) (ws : List Write) : (s.deliver k n ws).late = s.late := by simp [State.deliver]
@[simp] theorem State.deliver_retained (s : State) (k : GKey) (n : Nat) (ws : List Write) : (s.deliver k n ws).retained = s.retained := by simp [State.deliver]

/- ### performOp -/

@[simp] theorem State.performOp_clk (s : State) (g : Group) (p : Pending) : (s.performOp g p).clk = s.clk := by simp only [State.performOp]; (repeat' split) <;> simp
@[simp] theorem State.performOp_tick (s : State) (g : Group) (p : Pending) : (s.performOp g p).tick = s.tick := by simp only [State.performOp]; (repeat' split) <;> simp
@[simp] theorem State.performOp_turn (s : State) (g : Group) (p : Pending) : (s.performOp g p).turn = s.turn := by simp only [State.performOp]; (repeat' split) <;> simp
@[simp] theorem State.performOp_inbox (s : State) (g : Group) (p : Pending) : (s.performOp g p).inbox = s.inbox := by simp only [State.performOp]; (repeat' split) <;> simp
@[simp] theorem State.performOp_cur (s : State) (g : Group) (p : Pending) : (s.performOp g p).cur = s.cur := by simp only [State.performOp]; (repeat' split) <;> simp
@[simp] theorem State.performOp_instances (s : State) (g : Group) (p : Pending) : (s.performOp g p).instances = s.instances := by simp only [State.performOp]; (repeat' split) <;> simp
@[simp] theorem State.performOp_issuing (s : State) (g : Group) (p : Pending) : (s.performOp g p).issuing = s.issuing := by simp only [State.performOp]; (repeat' split) <;> simp
@[simp] theorem State.performOp_completing (s : State) (g : Group) (p : Pending) : (s.performOp g p).completing = s.completing := by simp only [State.performOp]; (repeat' split) <;> simp
@[simp] theorem State.performOp_teams (s : State) (g : Group) (p : Pending) : (s.performOp g p).teams = s.teams := by simp only [State.performOp]; (repeat' split) <;> simp
@[simp] theorem State.performOp_launches (s : State) (g : Group) (p : Pending) : (s.performOp g p).launches = s.launches := by simp only [State.performOp]; (repeat' split) <;> simp
@[simp] theorem State.performOp_ctxs (s : State) (g : Group) (p : Pending) : (s.performOp g p).ctxs = s.ctxs := by simp only [State.performOp]; (repeat' split) <;> simp
@[simp] theorem State.performOp_cores (s : State) (g : Group) (p : Pending) : (s.performOp g p).cores = s.cores := by simp only [State.performOp]; (repeat' split) <;> simp
@[simp] theorem State.performOp_transit (s : State) (g : Group) (p : Pending) : (s.performOp g p).transit = s.transit := by simp only [State.performOp]; (repeat' split) <;> simp
@[simp] theorem State.performOp_moveAt (s : State) (g : Group) (p : Pending) : (s.performOp g p).moveAt = s.moveAt := by simp only [State.performOp]; (repeat' split) <;> simp
@[simp] theorem State.performOp_lastLine (s : State) (g : Group) (p : Pending) : (s.performOp g p).lastLine = s.lastLine := by simp only [State.performOp]; (repeat' split) <;> simp
@[simp] theorem State.performOp_slots (s : State) (g : Group) (p : Pending) : (s.performOp g p).slots = s.slots := by simp only [State.performOp]; (repeat' split) <;> simp
@[simp] theorem State.performOp_lost (s : State) (g : Group) (p : Pending) : (s.performOp g p).lost = s.lost := by simp only [State.performOp]; (repeat' split) <;> simp
@[simp] theorem State.performOp_evicted (s : State) (g : Group) (p : Pending) : (s.performOp g p).evicted = s.evicted := by simp only [State.performOp]; (repeat' split) <;> simp
@[simp] theorem State.performOp_renewed (s : State) (g : Group) (p : Pending) : (s.performOp g p).renewed = s.renewed := by simp only [State.performOp]; (repeat' split) <;> simp
@[simp] theorem State.performOp_late (s : State) (g : Group) (p : Pending) : (s.performOp g p).late = s.late := by simp only [State.performOp]; (repeat' split) <;> simp
@[simp] theorem State.performOp_retained (s : State) (g : Group) (p : Pending) : (s.performOp g p).retained = s.retained := by simp only [State.performOp]; (repeat' split) <;> simp

/- ### performOne -/

@[simp] theorem State.performOne_clk (s : State) (k : GKey) (p : Pending) : (s.performOne k p).clk = s.clk := by
  unfold State.performOne; simp only; (repeat' split) <;> (try simp) <;> (apply foldl_keeps State.clk; intro s x; split <;> simp)
@[simp] theorem State.performOne_tick (s : State) (k : GKey) (p : Pending) : (s.performOne k p).tick = s.tick := by
  unfold State.performOne; simp only; (repeat' split) <;> (try simp) <;> (apply foldl_keeps State.tick; intro s x; split <;> simp)
@[simp] theorem State.performOne_turn (s : State) (k : GKey) (p : Pending) : (s.performOne k p).turn = s.turn := by
  unfold State.performOne; simp only; (repeat' split) <;> (try simp) <;> (apply foldl_keeps State.turn; intro s x; split <;> simp)
@[simp] theorem State.performOne_inbox (s : State) (k : GKey) (p : Pending) : (s.performOne k p).inbox = s.inbox := by
  unfold State.performOne; simp only; (repeat' split) <;> (try simp) <;> (apply foldl_keeps State.inbox; intro s x; split <;> simp)
@[simp] theorem State.performOne_cur (s : State) (k : GKey) (p : Pending) : (s.performOne k p).cur = s.cur := by
  unfold State.performOne; simp only; (repeat' split) <;> (try simp) <;> (apply foldl_keeps State.cur; intro s x; split <;> simp)
@[simp] theorem State.performOne_instances (s : State) (k : GKey) (p : Pending) : (s.performOne k p).instances = s.instances := by
  unfold State.performOne; simp only; (repeat' split) <;> (try simp) <;> (apply foldl_keeps State.instances; intro s x; split <;> simp)
@[simp] theorem State.performOne_issuing (s : State) (k : GKey) (p : Pending) : (s.performOne k p).issuing = s.issuing := by
  unfold State.performOne; simp only; (repeat' split) <;> (try simp) <;> (apply foldl_keeps State.issuing; intro s x; split <;> simp)
@[simp] theorem State.performOne_completing (s : State) (k : GKey) (p : Pending) : (s.performOne k p).completing = s.completing := by
  unfold State.performOne; simp only; (repeat' split) <;> (try simp) <;> (apply foldl_keeps State.completing; intro s x; split <;> simp)
@[simp] theorem State.performOne_teams (s : State) (k : GKey) (p : Pending) : (s.performOne k p).teams = s.teams := by
  unfold State.performOne; simp only; (repeat' split) <;> (try simp) <;> (apply foldl_keeps State.teams; intro s x; split <;> simp)
@[simp] theorem State.performOne_launches (s : State) (k : GKey) (p : Pending) : (s.performOne k p).launches = s.launches := by
  unfold State.performOne; simp only; (repeat' split) <;> (try simp) <;> (apply foldl_keeps State.launches; intro s x; split <;> simp)
@[simp] theorem State.performOne_ctxs (s : State) (k : GKey) (p : Pending) : (s.performOne k p).ctxs = s.ctxs := by
  unfold State.performOne; simp only; (repeat' split) <;> (try simp) <;> (apply foldl_keeps State.ctxs; intro s x; split <;> simp)
@[simp] theorem State.performOne_lastLine (s : State) (k : GKey) (p : Pending) : (s.performOne k p).lastLine = s.lastLine := by
  unfold State.performOne; simp only; (repeat' split) <;> (try simp) <;> (apply foldl_keeps State.lastLine; intro s x; split <;> simp)
@[simp] theorem State.performOne_slots (s : State) (k : GKey) (p : Pending) : (s.performOne k p).slots = s.slots := by
  unfold State.performOne; simp only; (repeat' split) <;> (try simp) <;> (apply foldl_keeps State.slots; intro s x; split <;> simp)
@[simp] theorem State.performOne_lost (s : State) (k : GKey) (p : Pending) : (s.performOne k p).lost = s.lost := by
  unfold State.performOne; simp only; (repeat' split) <;> (try simp) <;> (apply foldl_keeps State.lost; intro s x; split <;> simp)
@[simp] theorem State.performOne_evicted (s : State) (k : GKey) (p : Pending) : (s.performOne k p).evicted = s.evicted := by
  unfold State.performOne; simp only; (repeat' split) <;> (try simp) <;> (apply foldl_keeps State.evicted; intro s x; split <;> simp)
@[simp] theorem State.performOne_renewed (s : State) (k : GKey) (p : Pending) : (s.performOne k p).renewed = s.renewed := by
  unfold State.performOne; simp only; (repeat' split) <;> (try simp) <;> (apply foldl_keeps State.renewed; intro s x; split <;> simp)
@[simp] theorem State.performOne_retained (s : State) (k : GKey) (p : Pending) : (s.performOne k p).retained = s.retained := by
  unfold State.performOne; simp only; (repeat' split) <;> (try simp) <;> (apply foldl_keeps State.retained; intro s x; split <;> simp)

/-- What performing an access and changing a group leave alone, an access performed after others leaves alone. -/
theorem State.performWith_keeps {γ : Type} (F : State → γ) (hm : ∀ (s : State) (k : GKey) (f : Group → Group), F (s.modGroup k f) = F s)
    (ho : ∀ (s : State) (k : GKey) (p : Pending), F (s.performOne k p) = F s)
    (first : GKey → (Pending → Bool) → State → State) (hf : ∀ k t s, F (first k t s) = F s) (s : State) (k : GKey) (p : Pending) :
    F (s.performWith first k p) = F s := by
  unfold State.performWith
  split
  · rfl
  · split
    · rfl
    · simp only [hm, ho]
      exact (foldl_keeps F _ (fun (u : State) (h : Group) => hf h.key _ u) _ _).trans (hm ..)

/-- The same of all the accesses that a need names. -/
theorem State.performSome_keeps {γ : Type} (F : State → γ) (hm : ∀ (s : State) (k : GKey) (f : Group → Group), F (s.modGroup k f) = F s)
    (ho : ∀ (s : State) (k : GKey) (p : Pending), F (s.performOne k p) = F s) (n : Nat) (k : GKey) (t : Pending → Bool) (s : State) :
    F (State.performSome n k t s) = F s := by
  induction n generalizing k t s with
  | zero => rfl
  | succ n ih => exact foldl_keeps F _ (fun (u : State) (x : GKey × Pending) => State.performWith_keeps F hm ho _ ih u x.1 x.2) _ _

/- ### performNeed -/

@[simp] theorem State.performNeed_clk (s : State) (k : GKey) (t : Pending → Bool) : (s.performNeed k t).clk = s.clk := State.performSome_keeps State.clk (by simp) (by simp) _ _ _ _
@[simp] theorem State.performNeed_tick (s : State) (k : GKey) (t : Pending → Bool) : (s.performNeed k t).tick = s.tick := State.performSome_keeps State.tick (by simp) (by simp) _ _ _ _
@[simp] theorem State.performNeed_turn (s : State) (k : GKey) (t : Pending → Bool) : (s.performNeed k t).turn = s.turn := State.performSome_keeps State.turn (by simp) (by simp) _ _ _ _
@[simp] theorem State.performNeed_inbox (s : State) (k : GKey) (t : Pending → Bool) : (s.performNeed k t).inbox = s.inbox := State.performSome_keeps State.inbox (by simp) (by simp) _ _ _ _
@[simp] theorem State.performNeed_cur (s : State) (k : GKey) (t : Pending → Bool) : (s.performNeed k t).cur = s.cur := State.performSome_keeps State.cur (by simp) (by simp) _ _ _ _
@[simp] theorem State.performNeed_instances (s : State) (k : GKey) (t : Pending → Bool) : (s.performNeed k t).instances = s.instances := State.performSome_keeps State.instances (by simp) (by simp) _ _ _ _
@[simp] theorem State.performNeed_issuing (s : State) (k : GKey) (t : Pending → Bool) : (s.performNeed k t).issuing = s.issuing := State.performSome_keeps State.issuing (by simp) (by simp) _ _ _ _
@[simp] theorem State.performNeed_completing (s : State) (k : GKey) (t : Pending → Bool) : (s.performNeed k t).completing = s.completing := State.performSome_keeps State.completing (by simp) (by simp) _ _ _ _
@[simp] theorem State.performNeed_teams (s : State) (k : GKey) (t : Pending → Bool) : (s.performNeed k t).teams = s.teams := State.performSome_keeps State.teams (by simp) (by simp) _ _ _ _
@[simp] theorem State.performNeed_launches (s : State) (k : GKey) (t : Pending → Bool) : (s.performNeed k t).launches = s.launches := State.performSome_keeps State.launches (by simp) (by simp) _ _ _ _
@[simp] theorem State.performNeed_ctxs (s : State) (k : GKey) (t : Pending → Bool) : (s.performNeed k t).ctxs = s.ctxs := State.performSome_keeps State.ctxs (by simp) (by simp) _ _ _ _
@[simp] theorem State.performNeed_lastLine (s : State) (k : GKey) (t : Pending → Bool) : (s.performNeed k t).lastLine = s.lastLine := State.performSome_keeps State.lastLine (by simp) (by simp) _ _ _ _
@[simp] theorem State.performNeed_slots (s : State) (k : GKey) (t : Pending → Bool) : (s.performNeed k t).slots = s.slots := State.performSome_keeps State.slots (by simp) (by simp) _ _ _ _
@[simp] theorem State.performNeed_lost (s : State) (k : GKey) (t : Pending → Bool) : (s.performNeed k t).lost = s.lost := State.performSome_keeps State.lost (by simp) (by simp) _ _ _ _
@[simp] theorem State.performNeed_evicted (s : State) (k : GKey) (t : Pending → Bool) : (s.performNeed k t).evicted = s.evicted := State.performSome_keeps State.evicted (by simp) (by simp) _ _ _ _
@[simp] theorem State.performNeed_renewed (s : State) (k : GKey) (t : Pending → Bool) : (s.performNeed k t).renewed = s.renewed := State.performSome_keeps State.renewed (by simp) (by simp) _ _ _ _
@[simp] theorem State.performNeed_retained (s : State) (k : GKey) (t : Pending → Bool) : (s.performNeed k t).retained = s.retained := State.performSome_keeps State.retained (by simp) (by simp) _ _ _ _

/- ### letPass -/

@[simp] theorem State.letPass_clk (s : State) (k : GKey) (m : Mask) (t : Pending → Bool) : (s.letPass k m t).clk = s.clk := by
  unfold State.letPass; simp only; split
  · simp
  · exact (foldl_keeps State.clk _ (fun a b => by simp) _ _).trans (by simp)
@[simp] theorem State.letPass_tick (s : State) (k : GKey) (m : Mask) (t : Pending → Bool) : (s.letPass k m t).tick = s.tick := by
  unfold State.letPass; simp only; split
  · simp
  · exact (foldl_keeps State.tick _ (fun a b => by simp) _ _).trans (by simp)
@[simp] theorem State.letPass_turn (s : State) (k : GKey) (m : Mask) (t : Pending → Bool) : (s.letPass k m t).turn = s.turn := by
  unfold State.letPass; simp only; split
  · simp
  · exact (foldl_keeps State.turn _ (fun a b => by simp) _ _).trans (by simp)
@[simp] theorem State.letPass_inbox (s : State) (k : GKey) (m : Mask) (t : Pending → Bool) : (s.letPass k m t).inbox = s.inbox := by
  unfold State.letPass; simp only; split
  · simp
  · exact (foldl_keeps State.inbox _ (fun a b => by simp) _ _).trans (by simp)
@[simp] theorem State.letPass_cur (s : State) (k : GKey) (m : Mask) (t : Pending → Bool) : (s.letPass k m t).cur = s.cur := by
  unfold State.letPass; simp only; split
  · simp
  · exact (foldl_keeps State.cur _ (fun a b => by simp) _ _).trans (by simp)
@[simp] theorem State.letPass_instances (s : State) (k : GKey) (m : Mask) (t : Pending → Bool) : (s.letPass k m t).instances = s.instances := by
  unfold State.letPass; simp only; split
  · simp
  · exact (foldl_keeps State.instances _ (fun a b => by simp) _ _).trans (by simp)
@[simp] theorem State.letPass_issuing (s : State) (k : GKey) (m : Mask) (t : Pending → Bool) : (s.letPass k m t).issuing = s.issuing := by
  unfold State.letPass; simp only; split
  · simp
  · exact (foldl_keeps State.issuing _ (fun a b => by simp) _ _).trans (by simp)
@[simp] theorem State.letPass_completing (s : State) (k : GKey) (m : Mask) (t : Pending → Bool) : (s.letPass k m t).completing = s.completing := by
  unfold State.letPass; simp only; split
  · simp
  · exact (foldl_keeps State.completing _ (fun a b => by simp) _ _).trans (by simp)
@[simp] theorem State.letPass_teams (s : State) (k : GKey) (m : Mask) (t : Pending → Bool) : (s.letPass k m t).teams = s.teams := by
  unfold State.letPass; simp only; split
  · simp
  · exact (foldl_keeps State.teams _ (fun a b => by simp) _ _).trans (by simp)
@[simp] theorem State.letPass_launches (s : State) (k : GKey) (m : Mask) (t : Pending → Bool) : (s.letPass k m t).launches = s.launches := by
  unfold State.letPass; simp only; split
  · simp
  · exact (foldl_keeps State.launches _ (fun a b => by simp) _ _).trans (by simp)
@[simp] theorem State.letPass_ctxs (s : State) (k : GKey) (m : Mask) (t : Pending → Bool) : (s.letPass k m t).ctxs = s.ctxs := by
  unfold State.letPass; simp only; split
  · simp
  · exact (foldl_keeps State.ctxs _ (fun a b => by simp) _ _).trans (by simp)
@[simp] theorem State.letPass_lastLine (s : State) (k : GKey) (m : Mask) (t : Pending → Bool) : (s.letPass k m t).lastLine = s.lastLine := by
  unfold State.letPass; simp only; split
  · simp
  · exact (foldl_keeps State.lastLine _ (fun a b => by simp) _ _).trans (by simp)
@[simp] theorem State.letPass_slots (s : State) (k : GKey) (m : Mask) (t : Pending → Bool) : (s.letPass k m t).slots = s.slots := by
  unfold State.letPass; simp only; split
  · simp
  · exact (foldl_keeps State.slots _ (fun a b => by simp) _ _).trans (by simp)
@[simp] theorem State.letPass_lost (s : State) (k : GKey) (m : Mask) (t : Pending → Bool) : (s.letPass k m t).lost = s.lost := by
  unfold State.letPass; simp only; split
  · simp
  · exact (foldl_keeps State.lost _ (fun a b => by simp) _ _).trans (by simp)
@[simp] theorem State.letPass_evicted (s : State) (k : GKey) (m : Mask) (t : Pending → Bool) : (s.letPass k m t).evicted = s.evicted := by
  unfold State.letPass; simp only; split
  · simp
  · exact (foldl_keeps State.evicted _ (fun a b => by simp) _ _).trans (by simp)
@[simp] theorem State.letPass_renewed (s : State) (k : GKey) (m : Mask) (t : Pending → Bool) : (s.letPass k m t).renewed = s.renewed := by
  unfold State.letPass; simp only; split
  · simp
  · exact (foldl_keeps State.renewed _ (fun a b => by simp) _ _).trans (by simp)
@[simp] theorem State.letPass_retained (s : State) (k : GKey) (m : Mask) (t : Pending → Bool) : (s.letPass k m t).retained = s.retained := by
  unfold State.letPass; simp only; split
  · simp
  · exact (foldl_keeps State.retained _ (fun a b => by simp) _ _).trans (by simp)

/- ### performNth -/

@[simp] theorem State.performNth_clk (s : State) (k : GKey) (n : Nat) : (s.performNth k n).clk = s.clk := by
  unfold State.performNth; (repeat' split) <;> first
    | rfl
    | exact (State.performWith_keeps State.clk (by simp) (by simp) _ (State.performSome_keeps State.clk (by simp) (by simp) _) _ _ _).trans (by first | rfl | simp)
@[simp] theorem State.performNth_tick (s : State) (k : GKey) (n : Nat) : (s.performNth k n).tick = s.tick := by
  unfold State.performNth; (repeat' split) <;> first
    | rfl
    | exact (State.performWith_keeps State.tick (by simp) (by simp) _ (State.performSome_keeps State.tick (by simp) (by simp) _) _ _ _).trans (by first | rfl | simp)
@[simp] theorem State.performNth_turn (s : State) (k : GKey) (n : Nat) : (s.performNth k n).turn = s.turn := by
  unfold State.performNth; (repeat' split) <;> first
    | rfl
    | exact (State.performWith_keeps State.turn (by simp) (by simp) _ (State.performSome_keeps State.turn (by simp) (by simp) _) _ _ _).trans (by first | rfl | simp)
@[simp] theorem State.performNth_inbox (s : State) (k : GKey) (n : Nat) : (s.performNth k n).inbox = s.inbox := by
  unfold State.performNth; (repeat' split) <;> first
    | rfl
    | exact (State.performWith_keeps State.inbox (by simp) (by simp) _ (State.performSome_keeps State.inbox (by simp) (by simp) _) _ _ _).trans (by first | rfl | simp)
@[simp] theorem State.performNth_cur (s : State) (k : GKey) (n : Nat) : (s.performNth k n).cur = s.cur := by
  unfold State.performNth; (repeat' split) <;> first
    | rfl
    | exact (State.performWith_keeps State.cur (by simp) (by simp) _ (State.performSome_keeps State.cur (by simp) (by simp) _) _ _ _).trans (by first | rfl | simp)
@[simp] theorem State.performNth_instances (s : State) (k : GKey) (n : Nat) : (s.performNth k n).instances = s.instances := by
  unfold State.performNth; (repeat' split) <;> first
    | rfl
    | exact (State.performWith_keeps State.instances (by simp) (by simp) _ (State.performSome_keeps State.instances (by simp) (by simp) _) _ _ _).trans (by first | rfl | simp)
@[simp] theorem State.performNth_issuing (s : State) (k : GKey) (n : Nat) : (s.performNth k n).issuing = s.issuing := by
  unfold State.performNth; (repeat' split) <;> first
    | rfl
    | exact (State.performWith_keeps State.issuing (by simp) (by simp) _ (State.performSome_keeps State.issuing (by simp) (by simp) _) _ _ _).trans (by first | rfl | simp)
@[simp] theorem State.performNth_completing (s : State) (k : GKey) (n : Nat) : (s.performNth k n).completing = s.completing := by
  unfold State.performNth; (repeat' split) <;> first
    | rfl
    | exact (State.performWith_keeps State.completing (by simp) (by simp) _ (State.performSome_keeps State.completing (by simp) (by simp) _) _ _ _).trans (by first | rfl | simp)
@[simp] theorem State.performNth_teams (s : State) (k : GKey) (n : Nat) : (s.performNth k n).teams = s.teams := by
  unfold State.performNth; (repeat' split) <;> first
    | rfl
    | exact (State.performWith_keeps State.teams (by simp) (by simp) _ (State.performSome_keeps State.teams (by simp) (by simp) _) _ _ _).trans (by first | rfl | simp)
@[simp] theorem State.performNth_launches (s : State) (k : GKey) (n : Nat) : (s.performNth k n).launches = s.launches := by
  unfold State.performNth; (repeat' split) <;> first
    | rfl
    | exact (State.performWith_keeps State.launches (by simp) (by simp) _ (State.performSome_keeps State.launches (by simp) (by simp) _) _ _ _).trans (by first | rfl | simp)
@[simp] theorem State.performNth_ctxs (s : State) (k : GKey) (n : Nat) : (s.performNth k n).ctxs = s.ctxs := by
  unfold State.performNth; (repeat' split) <;> first
    | rfl
    | exact (State.performWith_keeps State.ctxs (by simp) (by simp) _ (State.performSome_keeps State.ctxs (by simp) (by simp) _) _ _ _).trans (by first | rfl | simp)
@[simp] theorem State.performNth_lastLine (s : State) (k : GKey) (n : Nat) : (s.performNth k n).lastLine = s.lastLine := by
  unfold State.performNth; (repeat' split) <;> first
    | rfl
    | exact (State.performWith_keeps State.lastLine (by simp) (by simp) _ (State.performSome_keeps State.lastLine (by simp) (by simp) _) _ _ _).trans (by first | rfl | simp)
@[simp] theorem State.performNth_slots (s : State) (k : GKey) (n : Nat) : (s.performNth k n).slots = s.slots := by
  unfold State.performNth; (repeat' split) <;> first
    | rfl
    | exact (State.performWith_keeps State.slots (by simp) (by simp) _ (State.performSome_keeps State.slots (by simp) (by simp) _) _ _ _).trans (by first | rfl | simp)
@[simp] theorem State.performNth_lost (s : State) (k : GKey) (n : Nat) : (s.performNth k n).lost = s.lost := by
  unfold State.performNth; (repeat' split) <;> first
    | rfl
    | exact (State.performWith_keeps State.lost (by simp) (by simp) _ (State.performSome_keeps State.lost (by simp) (by simp) _) _ _ _).trans (by first | rfl | simp)
@[simp] theorem State.performNth_evicted (s : State) (k : GKey) (n : Nat) : (s.performNth k n).evicted = s.evicted := by
  unfold State.performNth; (repeat' split) <;> first
    | rfl
    | exact (State.performWith_keeps State.evicted (by simp) (by simp) _ (State.performSome_keeps State.evicted (by simp) (by simp) _) _ _ _).trans (by first | rfl | simp)
@[simp] theorem State.performNth_renewed (s : State) (k : GKey) (n : Nat) : (s.performNth k n).renewed = s.renewed := by
  unfold State.performNth; (repeat' split) <;> first
    | rfl
    | exact (State.performWith_keeps State.renewed (by simp) (by simp) _ (State.performSome_keeps State.renewed (by simp) (by simp) _) _ _ _).trans (by first | rfl | simp)
@[simp] theorem State.performNth_retained (s : State) (k : GKey) (n : Nat) : (s.performNth k n).retained = s.retained := by
  unfold State.performNth; (repeat' split) <;> first
    | rfl
    | exact (State.performWith_keeps State.retained (by simp) (by simp) _ (State.performSome_keeps State.retained (by simp) (by simp) _) _ _ _).trans (by first | rfl | simp)

/- ### pullIf -/

@[simp] theorem State.pullIf_clk (s : State) (t : Group → Pending → Bool) : (s.pullIf t).clk = s.clk := foldl_keeps State.clk _ (fun a b => by simp) _ _
@[simp] theorem State.pullIf_tick (s : State) (t : Group → Pending → Bool) : (s.pullIf t).tick = s.tick := foldl_keeps State.tick _ (fun a b => by simp) _ _
@[simp] theorem State.pullIf_turn (s : State) (t : Group → Pending → Bool) : (s.pullIf t).turn = s.turn := foldl_keeps State.turn _ (fun a b => by simp) _ _
@[simp] theorem State.pullIf_inbox (s : State) (t : Group → Pending → Bool) : (s.pullIf t).inbox = s.inbox := foldl_keeps State.inbox _ (fun a b => by simp) _ _
@[simp] theorem State.pullIf_cur (s : State) (t : Group → Pending → Bool) : (s.pullIf t).cur = s.cur := foldl_keeps State.cur _ (fun a b => by simp) _ _
@[simp] theorem State.pullIf_instances (s : State) (t : Group → Pending → Bool) : (s.pullIf t).instances = s.instances := foldl_keeps State.instances _ (fun a b => by simp) _ _
@[simp] theorem State.pullIf_issuing (s : State) (t : Group → Pending → Bool) : (s.pullIf t).issuing = s.issuing := foldl_keeps State.issuing _ (fun a b => by simp) _ _
@[simp] theorem State.pullIf_completing (s : State) (t : Group → Pending → Bool) : (s.pullIf t).completing = s.completing := foldl_keeps State.completing _ (fun a b => by simp) _ _
@[simp] theorem State.pullIf_teams (s : State) (t : Group → Pending → Bool) : (s.pullIf t).teams = s.teams := foldl_keeps State.teams _ (fun a b => by simp) _ _
@[simp] theorem State.pullIf_launches (s : State) (t : Group → Pending → Bool) : (s.pullIf t).launches = s.launches := foldl_keeps State.launches _ (fun a b => by simp) _ _
@[simp] theorem State.pullIf_ctxs (s : State) (t : Group → Pending → Bool) : (s.pullIf t).ctxs = s.ctxs := foldl_keeps State.ctxs _ (fun a b => by simp) _ _
@[simp] theorem State.pullIf_lastLine (s : State) (t : Group → Pending → Bool) : (s.pullIf t).lastLine = s.lastLine := foldl_keeps State.lastLine _ (fun a b => by simp) _ _
@[simp] theorem State.pullIf_slots (s : State) (t : Group → Pending → Bool) : (s.pullIf t).slots = s.slots := foldl_keeps State.slots _ (fun a b => by simp) _ _
@[simp] theorem State.pullIf_lost (s : State) (t : Group → Pending → Bool) : (s.pullIf t).lost = s.lost := foldl_keeps State.lost _ (fun a b => by simp) _ _
@[simp] theorem State.pullIf_evicted (s : State) (t : Group → Pending → Bool) : (s.pullIf t).evicted = s.evicted := foldl_keeps State.evicted _ (fun a b => by simp) _ _
@[simp] theorem State.pullIf_renewed (s : State) (t : Group → Pending → Bool) : (s.pullIf t).renewed = s.renewed := foldl_keeps State.renewed _ (fun a b => by simp) _ _
@[simp] theorem State.pullIf_retained (s : State) (t : Group → Pending → Bool) : (s.pullIf t).retained = s.retained := foldl_keeps State.retained _ (fun a b => by simp) _ _

/- ### pull -/

@[simp] theorem State.pull_clk (s : State) (k : GKey) (t : Pending → Bool) : (s.pull k t).clk = s.clk := by unfold State.pull; (repeat' split) <;> simp
@[simp] theorem State.pull_tick (s : State) (k : GKey) (t : Pending → Bool) : (s.pull k t).tick = s.tick := by unfold State.pull; (repeat' split) <;> simp
@[simp] theorem State.pull_turn (s : State) (k : GKey) (t : Pending → Bool) : (s.pull k t).turn = s.turn := by unfold State.pull; (repeat' split) <;> simp
@[simp] theorem State.pull_inbox (s : State) (k : GKey) (t : Pending → Bool) : (s.pull k t).inbox = s.inbox := by unfold State.pull; (repeat' split) <;> simp
@[simp] theorem State.pull_cur (s : State) (k : GKey) (t : Pending → Bool) : (s.pull k t).cur = s.cur := by unfold State.pull; (repeat' split) <;> simp
@[simp] theorem State.pull_instances (s : State) (k : GKey) (t : Pending → Bool) : (s.pull k t).instances = s.instances := by unfold State.pull; (repeat' split) <;> simp
@[simp] theorem State.pull_issuing (s : State) (k : GKey) (t : Pending → Bool) : (s.pull k t).issuing = s.issuing := by unfold State.pull; (repeat' split) <;> simp
@[simp] theorem State.pull_completing (s : State) (k : GKey) (t : Pending → Bool) : (s.pull k t).completing = s.completing := by unfold State.pull; (repeat' split) <;> simp
@[simp] theorem State.pull_teams (s : State) (k : GKey) (t : Pending → Bool) : (s.pull k t).teams = s.teams := by unfold State.pull; (repeat' split) <;> simp
@[simp] theorem State.pull_launches (s : State) (k : GKey) (t : Pending → Bool) : (s.pull k t).launches = s.launches := by unfold State.pull; (repeat' split) <;> simp
@[simp] theorem State.pull_ctxs (s : State) (k : GKey) (t : Pending → Bool) : (s.pull k t).ctxs = s.ctxs := by unfold State.pull; (repeat' split) <;> simp
@[simp] theorem State.pull_lastLine (s : State) (k : GKey) (t : Pending → Bool) : (s.pull k t).lastLine = s.lastLine := by unfold State.pull; (repeat' split) <;> simp
@[simp] theorem State.pull_slots (s : State) (k : GKey) (t : Pending → Bool) : (s.pull k t).slots = s.slots := by unfold State.pull; (repeat' split) <;> simp
@[simp] theorem State.pull_lost (s : State) (k : GKey) (t : Pending → Bool) : (s.pull k t).lost = s.lost := by unfold State.pull; (repeat' split) <;> simp
@[simp] theorem State.pull_evicted (s : State) (k : GKey) (t : Pending → Bool) : (s.pull k t).evicted = s.evicted := by unfold State.pull; (repeat' split) <;> simp
@[simp] theorem State.pull_renewed (s : State) (k : GKey) (t : Pending → Bool) : (s.pull k t).renewed = s.renewed := by unfold State.pull; (repeat' split) <;> simp
@[simp] theorem State.pull_retained (s : State) (k : GKey) (t : Pending → Bool) : (s.pull k t).retained = s.retained := by unfold State.pull; (repeat' split) <;> simp

/- ### before -/

@[simp] theorem State.before_clk (s : State) (k : GKey) (p : Pending) : (s.before k p).clk = s.clk := by simp [State.before]
@[simp] theorem State.before_tick (s : State) (k : GKey) (p : Pending) : (s.before k p).tick = s.tick := by simp [State.before]
@[simp] theorem State.before_turn (s : State) (k : GKey) (p : Pending) : (s.before k p).turn = s.turn := by simp [State.before]
@[simp] theorem State.before_inbox (s : State) (k : GKey) (p : Pending) : (s.before k p).inbox = s.inbox := by simp [State.before]
@[simp] theorem State.before_cur (s : State) (k : GKey) (p : Pending) : (s.before k p).cur = s.cur := by simp [State.before]
@[simp] theorem State.before_instances (s : State) (k : GKey) (p : Pending) : (s.before k p).instances = s.instances := by simp [State.before]
@[simp] theorem State.before_issuing (s : State) (k : GKey) (p : Pending) : (s.before k p).issuing = s.issuing := by simp [State.before]
@[simp] theorem State.before_completing (s : State) (k : GKey) (p : Pending) : (s.before k p).completing = s.completing := by simp [State.before]
@[simp] theorem State.before_teams (s : State) (k : GKey) (p : Pending) : (s.before k p).teams = s.teams := by simp [State.before]
@[simp] theorem State.before_launches (s : State) (k : GKey) (p : Pending) : (s.before k p).launches = s.launches := by simp [State.before]
@[simp] theorem State.before_ctxs (s : State) (k : GKey) (p : Pending) : (s.before k p).ctxs = s.ctxs := by simp [State.before]
@[simp] theorem State.before_lastLine (s : State) (k : GKey) (p : Pending) : (s.before k p).lastLine = s.lastLine := by simp [State.before]
@[simp] theorem State.before_slots (s : State) (k : GKey) (p : Pending) : (s.before k p).slots = s.slots := by simp [State.before]
@[simp] theorem State.before_lost (s : State) (k : GKey) (p : Pending) : (s.before k p).lost = s.lost := by simp [State.before]
@[simp] theorem State.before_evicted (s : State) (k : GKey) (p : Pending) : (s.before k p).evicted = s.evicted := by simp [State.before]
@[simp] theorem State.before_renewed (s : State) (k : GKey) (p : Pending) : (s.before k p).renewed = s.renewed := by simp [State.before]
@[simp] theorem State.before_retained (s : State) (k : GKey) (p : Pending) : (s.before k p).retained = s.retained := by simp [State.before]

/- ### passOn -/

@[simp] theorem State.passOn_clk (s : State) (k : GKey) (m : Mask) (n : Nat) (x : Scp) : (s.passOn k m n x).clk = s.clk := by unfold State.passOn; (repeat' split) <;> simp
@[simp] theorem State.passOn_tick (s : State) (k : GKey) (m : Mask) (n : Nat) (x : Scp) : (s.passOn k m n x).tick = s.tick := by unfold State.passOn; (repeat' split) <;> simp
@[simp] theorem State.passOn_turn (s : State) (k : GKey) (m : Mask) (n : Nat) (x : Scp) : (s.passOn k m n x).turn = s.turn := by unfold State.passOn; (repeat' split) <;> simp
@[simp] theorem State.passOn_inbox (s : State) (k : GKey) (m : Mask) (n : Nat) (x : Scp) : (s.passOn k m n x).inbox = s.inbox := by unfold State.passOn; (repeat' split) <;> simp
@[simp] theorem State.passOn_cur (s : State) (k : GKey) (m : Mask) (n : Nat) (x : Scp) : (s.passOn k m n x).cur = s.cur := by unfold State.passOn; (repeat' split) <;> simp
@[simp] theorem State.passOn_instances (s : State) (k : GKey) (m : Mask) (n : Nat) (x : Scp) : (s.passOn k m n x).instances = s.instances := by unfold State.passOn; (repeat' split) <;> simp
@[simp] theorem State.passOn_issuing (s : State) (k : GKey) (m : Mask) (n : Nat) (x : Scp) : (s.passOn k m n x).issuing = s.issuing := by unfold State.passOn; (repeat' split) <;> simp
@[simp] theorem State.passOn_completing (s : State) (k : GKey) (m : Mask) (n : Nat) (x : Scp) : (s.passOn k m n x).completing = s.completing := by unfold State.passOn; (repeat' split) <;> simp
@[simp] theorem State.passOn_teams (s : State) (k : GKey) (m : Mask) (n : Nat) (x : Scp) : (s.passOn k m n x).teams = s.teams := by unfold State.passOn; (repeat' split) <;> simp
@[simp] theorem State.passOn_launches (s : State) (k : GKey) (m : Mask) (n : Nat) (x : Scp) : (s.passOn k m n x).launches = s.launches := by unfold State.passOn; (repeat' split) <;> simp
@[simp] theorem State.passOn_ctxs (s : State) (k : GKey) (m : Mask) (n : Nat) (x : Scp) : (s.passOn k m n x).ctxs = s.ctxs := by unfold State.passOn; (repeat' split) <;> simp
@[simp] theorem State.passOn_lastLine (s : State) (k : GKey) (m : Mask) (n : Nat) (x : Scp) : (s.passOn k m n x).lastLine = s.lastLine := by unfold State.passOn; (repeat' split) <;> simp
@[simp] theorem State.passOn_slots (s : State) (k : GKey) (m : Mask) (n : Nat) (x : Scp) : (s.passOn k m n x).slots = s.slots := by unfold State.passOn; (repeat' split) <;> simp
@[simp] theorem State.passOn_lost (s : State) (k : GKey) (m : Mask) (n : Nat) (x : Scp) : (s.passOn k m n x).lost = s.lost := by unfold State.passOn; (repeat' split) <;> simp
@[simp] theorem State.passOn_evicted (s : State) (k : GKey) (m : Mask) (n : Nat) (x : Scp) : (s.passOn k m n x).evicted = s.evicted := by unfold State.passOn; (repeat' split) <;> simp
@[simp] theorem State.passOn_renewed (s : State) (k : GKey) (m : Mask) (n : Nat) (x : Scp) : (s.passOn k m n x).renewed = s.renewed := by unfold State.passOn; (repeat' split) <;> simp
@[simp] theorem State.passOn_retained (s : State) (k : GKey) (m : Mask) (n : Nat) (x : Scp) : (s.passOn k m n x).retained = s.retained := by unfold State.passOn; (repeat' split) <;> simp

/- ### orderBefore -/

@[simp] theorem State.orderBefore_clk (s : State) (k : GKey) (x : Scp) (t : Pending → Bool) : (s.orderBefore k x t).clk = s.clk := by unfold State.orderBefore; (repeat' split) <;> simp
@[simp] theorem State.orderBefore_tick (s : State) (k : GKey) (x : Scp) (t : Pending → Bool) : (s.orderBefore k x t).tick = s.tick := by unfold State.orderBefore; (repeat' split) <;> simp
@[simp] theorem State.orderBefore_turn (s : State) (k : GKey) (x : Scp) (t : Pending → Bool) : (s.orderBefore k x t).turn = s.turn := by unfold State.orderBefore; (repeat' split) <;> simp
@[simp] theorem State.orderBefore_inbox (s : State) (k : GKey) (x : Scp) (t : Pending → Bool) : (s.orderBefore k x t).inbox = s.inbox := by unfold State.orderBefore; (repeat' split) <;> simp
@[simp] theorem State.orderBefore_cur (s : State) (k : GKey) (x : Scp) (t : Pending → Bool) : (s.orderBefore k x t).cur = s.cur := by unfold State.orderBefore; (repeat' split) <;> simp
@[simp] theorem State.orderBefore_instances (s : State) (k : GKey) (x : Scp) (t : Pending → Bool) : (s.orderBefore k x t).instances = s.instances := by unfold State.orderBefore; (repeat' split) <;> simp
@[simp] theorem State.orderBefore_issuing (s : State) (k : GKey) (x : Scp) (t : Pending → Bool) : (s.orderBefore k x t).issuing = s.issuing := by unfold State.orderBefore; (repeat' split) <;> simp
@[simp] theorem State.orderBefore_completing (s : State) (k : GKey) (x : Scp) (t : Pending → Bool) : (s.orderBefore k x t).completing = s.completing := by unfold State.orderBefore; (repeat' split) <;> simp
@[simp] theorem State.orderBefore_teams (s : State) (k : GKey) (x : Scp) (t : Pending → Bool) : (s.orderBefore k x t).teams = s.teams := by unfold State.orderBefore; (repeat' split) <;> simp
@[simp] theorem State.orderBefore_launches (s : State) (k : GKey) (x : Scp) (t : Pending → Bool) : (s.orderBefore k x t).launches = s.launches := by unfold State.orderBefore; (repeat' split) <;> simp
@[simp] theorem State.orderBefore_ctxs (s : State) (k : GKey) (x : Scp) (t : Pending → Bool) : (s.orderBefore k x t).ctxs = s.ctxs := by unfold State.orderBefore; (repeat' split) <;> simp
@[simp] theorem State.orderBefore_lastLine (s : State) (k : GKey) (x : Scp) (t : Pending → Bool) : (s.orderBefore k x t).lastLine = s.lastLine := by unfold State.orderBefore; (repeat' split) <;> simp
@[simp] theorem State.orderBefore_slots (s : State) (k : GKey) (x : Scp) (t : Pending → Bool) : (s.orderBefore k x t).slots = s.slots := by unfold State.orderBefore; (repeat' split) <;> simp
@[simp] theorem State.orderBefore_lost (s : State) (k : GKey) (x : Scp) (t : Pending → Bool) : (s.orderBefore k x t).lost = s.lost := by unfold State.orderBefore; (repeat' split) <;> simp
@[simp] theorem State.orderBefore_evicted (s : State) (k : GKey) (x : Scp) (t : Pending → Bool) : (s.orderBefore k x t).evicted = s.evicted := by unfold State.orderBefore; (repeat' split) <;> simp
@[simp] theorem State.orderBefore_renewed (s : State) (k : GKey) (x : Scp) (t : Pending → Bool) : (s.orderBefore k x t).renewed = s.renewed := by unfold State.orderBefore; (repeat' split) <;> simp
@[simp] theorem State.orderBefore_retained (s : State) (k : GKey) (x : Scp) (t : Pending → Bool) : (s.orderBefore k x t).retained = s.retained := by unfold State.orderBefore; (repeat' split) <;> simp

/- ### releaseLanes -/

@[simp] theorem State.releaseLanes_clk (s : State) (k : GKey) (m : Mask) (x : Scp) : (s.releaseLanes k m x).clk = s.clk := by simp only [State.releaseLanes]; (repeat' split) <;> simp
@[simp] theorem State.releaseLanes_tick (s : State) (k : GKey) (m : Mask) (x : Scp) : (s.releaseLanes k m x).tick = s.tick := by simp only [State.releaseLanes]; (repeat' split) <;> simp
@[simp] theorem State.releaseLanes_turn (s : State) (k : GKey) (m : Mask) (x : Scp) : (s.releaseLanes k m x).turn = s.turn := by simp only [State.releaseLanes]; (repeat' split) <;> simp
@[simp] theorem State.releaseLanes_inbox (s : State) (k : GKey) (m : Mask) (x : Scp) : (s.releaseLanes k m x).inbox = s.inbox := by simp only [State.releaseLanes]; (repeat' split) <;> simp
@[simp] theorem State.releaseLanes_cur (s : State) (k : GKey) (m : Mask) (x : Scp) : (s.releaseLanes k m x).cur = s.cur := by simp only [State.releaseLanes]; (repeat' split) <;> simp
@[simp] theorem State.releaseLanes_instances (s : State) (k : GKey) (m : Mask) (x : Scp) : (s.releaseLanes k m x).instances = s.instances := by simp only [State.releaseLanes]; (repeat' split) <;> simp
@[simp] theorem State.releaseLanes_issuing (s : State) (k : GKey) (m : Mask) (x : Scp) : (s.releaseLanes k m x).issuing = s.issuing := by simp only [State.releaseLanes]; (repeat' split) <;> simp
@[simp] theorem State.releaseLanes_completing (s : State) (k : GKey) (m : Mask) (x : Scp) : (s.releaseLanes k m x).completing = s.completing := by simp only [State.releaseLanes]; (repeat' split) <;> simp
@[simp] theorem State.releaseLanes_teams (s : State) (k : GKey) (m : Mask) (x : Scp) : (s.releaseLanes k m x).teams = s.teams := by simp only [State.releaseLanes]; (repeat' split) <;> simp
@[simp] theorem State.releaseLanes_launches (s : State) (k : GKey) (m : Mask) (x : Scp) : (s.releaseLanes k m x).launches = s.launches := by simp only [State.releaseLanes]; (repeat' split) <;> simp
@[simp] theorem State.releaseLanes_ctxs (s : State) (k : GKey) (m : Mask) (x : Scp) : (s.releaseLanes k m x).ctxs = s.ctxs := by simp only [State.releaseLanes]; (repeat' split) <;> simp
@[simp] theorem State.releaseLanes_lastLine (s : State) (k : GKey) (m : Mask) (x : Scp) : (s.releaseLanes k m x).lastLine = s.lastLine := by simp only [State.releaseLanes]; (repeat' split) <;> simp
@[simp] theorem State.releaseLanes_slots (s : State) (k : GKey) (m : Mask) (x : Scp) : (s.releaseLanes k m x).slots = s.slots := by simp only [State.releaseLanes]; (repeat' split) <;> simp
@[simp] theorem State.releaseLanes_lost (s : State) (k : GKey) (m : Mask) (x : Scp) : (s.releaseLanes k m x).lost = s.lost := by simp only [State.releaseLanes]; (repeat' split) <;> simp
@[simp] theorem State.releaseLanes_evicted (s : State) (k : GKey) (m : Mask) (x : Scp) : (s.releaseLanes k m x).evicted = s.evicted := by simp only [State.releaseLanes]; (repeat' split) <;> simp
@[simp] theorem State.releaseLanes_renewed (s : State) (k : GKey) (m : Mask) (x : Scp) : (s.releaseLanes k m x).renewed = s.renewed := by simp only [State.releaseLanes]; (repeat' split) <;> simp
@[simp] theorem State.releaseLanes_retained (s : State) (k : GKey) (m : Mask) (x : Scp) : (s.releaseLanes k m x).retained = s.retained := by simp only [State.releaseLanes]; (repeat' split) <;> simp

/- ### devLoadsFirst -/

@[simp] theorem State.devLoadsFirst_clk (s : State) (k : GKey) (m : Mask) : (s.devLoadsFirst k m).clk = s.clk := by simp [State.devLoadsFirst]
@[simp] theorem State.devLoadsFirst_tick (s : State) (k : GKey) (m : Mask) : (s.devLoadsFirst k m).tick = s.tick := by simp [State.devLoadsFirst]
@[simp] theorem State.devLoadsFirst_turn (s : State) (k : GKey) (m : Mask) : (s.devLoadsFirst k m).turn = s.turn := by simp [State.devLoadsFirst]
@[simp] theorem State.devLoadsFirst_inbox (s : State) (k : GKey) (m : Mask) : (s.devLoadsFirst k m).inbox = s.inbox := by simp [State.devLoadsFirst]
@[simp] theorem State.devLoadsFirst_cur (s : State) (k : GKey) (m : Mask) : (s.devLoadsFirst k m).cur = s.cur := by simp [State.devLoadsFirst]
@[simp] theorem State.devLoadsFirst_instances (s : State) (k : GKey) (m : Mask) : (s.devLoadsFirst k m).instances = s.instances := by simp [State.devLoadsFirst]
@[simp] theorem State.devLoadsFirst_issuing (s : State) (k : GKey) (m : Mask) : (s.devLoadsFirst k m).issuing = s.issuing := by simp [State.devLoadsFirst]
@[simp] theorem State.devLoadsFirst_completing (s : State) (k : GKey) (m : Mask) : (s.devLoadsFirst k m).completing = s.completing := by simp [State.devLoadsFirst]
@[simp] theorem State.devLoadsFirst_teams (s : State) (k : GKey) (m : Mask) : (s.devLoadsFirst k m).teams = s.teams := by simp [State.devLoadsFirst]
@[simp] theorem State.devLoadsFirst_launches (s : State) (k : GKey) (m : Mask) : (s.devLoadsFirst k m).launches = s.launches := by simp [State.devLoadsFirst]
@[simp] theorem State.devLoadsFirst_ctxs (s : State) (k : GKey) (m : Mask) : (s.devLoadsFirst k m).ctxs = s.ctxs := by simp [State.devLoadsFirst]
@[simp] theorem State.devLoadsFirst_lastLine (s : State) (k : GKey) (m : Mask) : (s.devLoadsFirst k m).lastLine = s.lastLine := by simp [State.devLoadsFirst]
@[simp] theorem State.devLoadsFirst_slots (s : State) (k : GKey) (m : Mask) : (s.devLoadsFirst k m).slots = s.slots := by simp [State.devLoadsFirst]
@[simp] theorem State.devLoadsFirst_lost (s : State) (k : GKey) (m : Mask) : (s.devLoadsFirst k m).lost = s.lost := by simp [State.devLoadsFirst]
@[simp] theorem State.devLoadsFirst_evicted (s : State) (k : GKey) (m : Mask) : (s.devLoadsFirst k m).evicted = s.evicted := by simp [State.devLoadsFirst]
@[simp] theorem State.devLoadsFirst_renewed (s : State) (k : GKey) (m : Mask) : (s.devLoadsFirst k m).renewed = s.renewed := by simp [State.devLoadsFirst]
@[simp] theorem State.devLoadsFirst_retained (s : State) (k : GKey) (m : Mask) : (s.devLoadsFirst k m).retained = s.retained := by simp [State.devLoadsFirst]

/- ### fencesFirst -/

@[simp] theorem State.fencesFirst_clk (s : State) (k : GKey) (m : Mask) : (s.fencesFirst k m).clk = s.clk := by
  unfold State.fencesFirst; split
  · rfl
  · refine foldl_keeps State.clk _ (fun s f => ?_) _ _
    split <;> simp
@[simp] theorem State.fencesFirst_tick (s : State) (k : GKey) (m : Mask) : (s.fencesFirst k m).tick = s.tick := by
  unfold State.fencesFirst; split
  · rfl
  · refine foldl_keeps State.tick _ (fun s f => ?_) _ _
    split <;> simp
@[simp] theorem State.fencesFirst_turn (s : State) (k : GKey) (m : Mask) : (s.fencesFirst k m).turn = s.turn := by
  unfold State.fencesFirst; split
  · rfl
  · refine foldl_keeps State.turn _ (fun s f => ?_) _ _
    split <;> simp
@[simp] theorem State.fencesFirst_inbox (s : State) (k : GKey) (m : Mask) : (s.fencesFirst k m).inbox = s.inbox := by
  unfold State.fencesFirst; split
  · rfl
  · refine foldl_keeps State.inbox _ (fun s f => ?_) _ _
    split <;> simp
@[simp] theorem State.fencesFirst_cur (s : State) (k : GKey) (m : Mask) : (s.fencesFirst k m).cur = s.cur := by
  unfold State.fencesFirst; split
  · rfl
  · refine foldl_keeps State.cur _ (fun s f => ?_) _ _
    split <;> simp
@[simp] theorem State.fencesFirst_instances (s : State) (k : GKey) (m : Mask) : (s.fencesFirst k m).instances = s.instances := by
  unfold State.fencesFirst; split
  · rfl
  · refine foldl_keeps State.instances _ (fun s f => ?_) _ _
    split <;> simp
@[simp] theorem State.fencesFirst_issuing (s : State) (k : GKey) (m : Mask) : (s.fencesFirst k m).issuing = s.issuing := by
  unfold State.fencesFirst; split
  · rfl
  · refine foldl_keeps State.issuing _ (fun s f => ?_) _ _
    split <;> simp
@[simp] theorem State.fencesFirst_completing (s : State) (k : GKey) (m : Mask) : (s.fencesFirst k m).completing = s.completing := by
  unfold State.fencesFirst; split
  · rfl
  · refine foldl_keeps State.completing _ (fun s f => ?_) _ _
    split <;> simp
@[simp] theorem State.fencesFirst_teams (s : State) (k : GKey) (m : Mask) : (s.fencesFirst k m).teams = s.teams := by
  unfold State.fencesFirst; split
  · rfl
  · refine foldl_keeps State.teams _ (fun s f => ?_) _ _
    split <;> simp
@[simp] theorem State.fencesFirst_launches (s : State) (k : GKey) (m : Mask) : (s.fencesFirst k m).launches = s.launches := by
  unfold State.fencesFirst; split
  · rfl
  · refine foldl_keeps State.launches _ (fun s f => ?_) _ _
    split <;> simp
@[simp] theorem State.fencesFirst_ctxs (s : State) (k : GKey) (m : Mask) : (s.fencesFirst k m).ctxs = s.ctxs := by
  unfold State.fencesFirst; split
  · rfl
  · refine foldl_keeps State.ctxs _ (fun s f => ?_) _ _
    split <;> simp
@[simp] theorem State.fencesFirst_lastLine (s : State) (k : GKey) (m : Mask) : (s.fencesFirst k m).lastLine = s.lastLine := by
  unfold State.fencesFirst; split
  · rfl
  · refine foldl_keeps State.lastLine _ (fun s f => ?_) _ _
    split <;> simp
@[simp] theorem State.fencesFirst_slots (s : State) (k : GKey) (m : Mask) : (s.fencesFirst k m).slots = s.slots := by
  unfold State.fencesFirst; split
  · rfl
  · refine foldl_keeps State.slots _ (fun s f => ?_) _ _
    split <;> simp
@[simp] theorem State.fencesFirst_lost (s : State) (k : GKey) (m : Mask) : (s.fencesFirst k m).lost = s.lost := by
  unfold State.fencesFirst; split
  · rfl
  · refine foldl_keeps State.lost _ (fun s f => ?_) _ _
    split <;> simp
@[simp] theorem State.fencesFirst_evicted (s : State) (k : GKey) (m : Mask) : (s.fencesFirst k m).evicted = s.evicted := by
  unfold State.fencesFirst; split
  · rfl
  · refine foldl_keeps State.evicted _ (fun s f => ?_) _ _
    split <;> simp
@[simp] theorem State.fencesFirst_renewed (s : State) (k : GKey) (m : Mask) : (s.fencesFirst k m).renewed = s.renewed := by
  unfold State.fencesFirst; split
  · rfl
  · refine foldl_keeps State.renewed _ (fun s f => ?_) _ _
    split <;> simp
@[simp] theorem State.fencesFirst_retained (s : State) (k : GKey) (m : Mask) : (s.fencesFirst k m).retained = s.retained := by
  unfold State.fencesFirst; split
  · rfl
  · refine foldl_keeps State.retained _ (fun s f => ?_) _ _
    split <;> simp

/- ### beforeWrite -/

@[simp] theorem State.beforeWrite_clk (s : State) (k : GKey) (m : Mask) : (s.beforeWrite k m).clk = s.clk := by simp [State.beforeWrite]
@[simp] theorem State.beforeWrite_tick (s : State) (k : GKey) (m : Mask) : (s.beforeWrite k m).tick = s.tick := by simp [State.beforeWrite]
@[simp] theorem State.beforeWrite_turn (s : State) (k : GKey) (m : Mask) : (s.beforeWrite k m).turn = s.turn := by simp [State.beforeWrite]
@[simp] theorem State.beforeWrite_inbox (s : State) (k : GKey) (m : Mask) : (s.beforeWrite k m).inbox = s.inbox := by simp [State.beforeWrite]
@[simp] theorem State.beforeWrite_cur (s : State) (k : GKey) (m : Mask) : (s.beforeWrite k m).cur = s.cur := by simp [State.beforeWrite]
@[simp] theorem State.beforeWrite_instances (s : State) (k : GKey) (m : Mask) : (s.beforeWrite k m).instances = s.instances := by simp [State.beforeWrite]
@[simp] theorem State.beforeWrite_issuing (s : State) (k : GKey) (m : Mask) : (s.beforeWrite k m).issuing = s.issuing := by simp [State.beforeWrite]
@[simp] theorem State.beforeWrite_completing (s : State) (k : GKey) (m : Mask) : (s.beforeWrite k m).completing = s.completing := by simp [State.beforeWrite]
@[simp] theorem State.beforeWrite_teams (s : State) (k : GKey) (m : Mask) : (s.beforeWrite k m).teams = s.teams := by simp [State.beforeWrite]
@[simp] theorem State.beforeWrite_launches (s : State) (k : GKey) (m : Mask) : (s.beforeWrite k m).launches = s.launches := by simp [State.beforeWrite]
@[simp] theorem State.beforeWrite_ctxs (s : State) (k : GKey) (m : Mask) : (s.beforeWrite k m).ctxs = s.ctxs := by simp [State.beforeWrite]
@[simp] theorem State.beforeWrite_lastLine (s : State) (k : GKey) (m : Mask) : (s.beforeWrite k m).lastLine = s.lastLine := by simp [State.beforeWrite]
@[simp] theorem State.beforeWrite_slots (s : State) (k : GKey) (m : Mask) : (s.beforeWrite k m).slots = s.slots := by simp [State.beforeWrite]
@[simp] theorem State.beforeWrite_lost (s : State) (k : GKey) (m : Mask) : (s.beforeWrite k m).lost = s.lost := by simp [State.beforeWrite]
@[simp] theorem State.beforeWrite_evicted (s : State) (k : GKey) (m : Mask) : (s.beforeWrite k m).evicted = s.evicted := by simp [State.beforeWrite]
@[simp] theorem State.beforeWrite_renewed (s : State) (k : GKey) (m : Mask) : (s.beforeWrite k m).renewed = s.renewed := by simp [State.beforeWrite]
@[simp] theorem State.beforeWrite_retained (s : State) (k : GKey) (m : Mask) : (s.beforeWrite k m).retained = s.retained := by simp [State.beforeWrite]

/- ### performIssue -/

@[simp] theorem State.performIssue_clk (s : State) (k : GKey) (n : Nat) : (s.performIssue k n).clk = s.clk := by simp [State.performIssue]
@[simp] theorem State.performIssue_tick (s : State) (k : GKey) (n : Nat) : (s.performIssue k n).tick = s.tick := by simp [State.performIssue]
@[simp] theorem State.performIssue_turn (s : State) (k : GKey) (n : Nat) : (s.performIssue k n).turn = s.turn := by simp [State.performIssue]
@[simp] theorem State.performIssue_inbox (s : State) (k : GKey) (n : Nat) : (s.performIssue k n).inbox = s.inbox := by simp [State.performIssue]
@[simp] theorem State.performIssue_cur (s : State) (k : GKey) (n : Nat) : (s.performIssue k n).cur = s.cur := by simp [State.performIssue]
@[simp] theorem State.performIssue_instances (s : State) (k : GKey) (n : Nat) : (s.performIssue k n).instances = s.instances := by simp [State.performIssue]
@[simp] theorem State.performIssue_issuing (s : State) (k : GKey) (n : Nat) : (s.performIssue k n).issuing = s.issuing := by simp [State.performIssue]
@[simp] theorem State.performIssue_completing (s : State) (k : GKey) (n : Nat) : (s.performIssue k n).completing = s.completing := by simp [State.performIssue]
@[simp] theorem State.performIssue_teams (s : State) (k : GKey) (n : Nat) : (s.performIssue k n).teams = s.teams := by simp [State.performIssue]
@[simp] theorem State.performIssue_launches (s : State) (k : GKey) (n : Nat) : (s.performIssue k n).launches = s.launches := by simp [State.performIssue]
@[simp] theorem State.performIssue_ctxs (s : State) (k : GKey) (n : Nat) : (s.performIssue k n).ctxs = s.ctxs := by simp [State.performIssue]
@[simp] theorem State.performIssue_lastLine (s : State) (k : GKey) (n : Nat) : (s.performIssue k n).lastLine = s.lastLine := by simp [State.performIssue]
@[simp] theorem State.performIssue_slots (s : State) (k : GKey) (n : Nat) : (s.performIssue k n).slots = s.slots := by simp [State.performIssue]
@[simp] theorem State.performIssue_lost (s : State) (k : GKey) (n : Nat) : (s.performIssue k n).lost = s.lost := by simp [State.performIssue]
@[simp] theorem State.performIssue_evicted (s : State) (k : GKey) (n : Nat) : (s.performIssue k n).evicted = s.evicted := by simp [State.performIssue]
@[simp] theorem State.performIssue_renewed (s : State) (k : GKey) (n : Nat) : (s.performIssue k n).renewed = s.renewed := by simp [State.performIssue]
@[simp] theorem State.performIssue_retained (s : State) (k : GKey) (n : Nat) : (s.performIssue k n).retained = s.retained := by simp [State.performIssue]

/- ### fenceTeam -/

@[simp] theorem State.fenceTeam_clk (s : State) (k : GKey) (m : Mask) : (s.fenceTeam k m).clk = s.clk := by simp [State.fenceTeam]
@[simp] theorem State.fenceTeam_tick (s : State) (k : GKey) (m : Mask) : (s.fenceTeam k m).tick = s.tick := by simp [State.fenceTeam]
@[simp] theorem State.fenceTeam_turn (s : State) (k : GKey) (m : Mask) : (s.fenceTeam k m).turn = s.turn := by simp [State.fenceTeam]
@[simp] theorem State.fenceTeam_inbox (s : State) (k : GKey) (m : Mask) : (s.fenceTeam k m).inbox = s.inbox := by simp [State.fenceTeam]
@[simp] theorem State.fenceTeam_cur (s : State) (k : GKey) (m : Mask) : (s.fenceTeam k m).cur = s.cur := by simp [State.fenceTeam]
@[simp] theorem State.fenceTeam_instances (s : State) (k : GKey) (m : Mask) : (s.fenceTeam k m).instances = s.instances := by simp [State.fenceTeam]
@[simp] theorem State.fenceTeam_issuing (s : State) (k : GKey) (m : Mask) : (s.fenceTeam k m).issuing = s.issuing := by simp [State.fenceTeam]
@[simp] theorem State.fenceTeam_completing (s : State) (k : GKey) (m : Mask) : (s.fenceTeam k m).completing = s.completing := by simp [State.fenceTeam]
@[simp] theorem State.fenceTeam_teams (s : State) (k : GKey) (m : Mask) : (s.fenceTeam k m).teams = s.teams := by simp [State.fenceTeam]
@[simp] theorem State.fenceTeam_launches (s : State) (k : GKey) (m : Mask) : (s.fenceTeam k m).launches = s.launches := by simp [State.fenceTeam]
@[simp] theorem State.fenceTeam_ctxs (s : State) (k : GKey) (m : Mask) : (s.fenceTeam k m).ctxs = s.ctxs := by simp [State.fenceTeam]
@[simp] theorem State.fenceTeam_lastLine (s : State) (k : GKey) (m : Mask) : (s.fenceTeam k m).lastLine = s.lastLine := by simp [State.fenceTeam]
@[simp] theorem State.fenceTeam_slots (s : State) (k : GKey) (m : Mask) : (s.fenceTeam k m).slots = s.slots := by simp [State.fenceTeam]
@[simp] theorem State.fenceTeam_lost (s : State) (k : GKey) (m : Mask) : (s.fenceTeam k m).lost = s.lost := by simp [State.fenceTeam]
@[simp] theorem State.fenceTeam_evicted (s : State) (k : GKey) (m : Mask) : (s.fenceTeam k m).evicted = s.evicted := by simp [State.fenceTeam]
@[simp] theorem State.fenceTeam_renewed (s : State) (k : GKey) (m : Mask) : (s.fenceTeam k m).renewed = s.renewed := by simp [State.fenceTeam]
@[simp] theorem State.fenceTeam_retained (s : State) (k : GKey) (m : Mask) : (s.fenceTeam k m).retained = s.retained := by simp [State.fenceTeam]

/- ### fenceArTeam -/

@[simp] theorem State.fenceArTeam_clk (s : State) (k : GKey) (m : Mask) : (s.fenceArTeam k m).clk = s.clk := by simp [State.fenceArTeam]
@[simp] theorem State.fenceArTeam_tick (s : State) (k : GKey) (m : Mask) : (s.fenceArTeam k m).tick = s.tick := by simp [State.fenceArTeam]
@[simp] theorem State.fenceArTeam_turn (s : State) (k : GKey) (m : Mask) : (s.fenceArTeam k m).turn = s.turn := by simp [State.fenceArTeam]
@[simp] theorem State.fenceArTeam_inbox (s : State) (k : GKey) (m : Mask) : (s.fenceArTeam k m).inbox = s.inbox := by simp [State.fenceArTeam]
@[simp] theorem State.fenceArTeam_cur (s : State) (k : GKey) (m : Mask) : (s.fenceArTeam k m).cur = s.cur := by simp [State.fenceArTeam]
@[simp] theorem State.fenceArTeam_instances (s : State) (k : GKey) (m : Mask) : (s.fenceArTeam k m).instances = s.instances := by simp [State.fenceArTeam]
@[simp] theorem State.fenceArTeam_issuing (s : State) (k : GKey) (m : Mask) : (s.fenceArTeam k m).issuing = s.issuing := by simp [State.fenceArTeam]
@[simp] theorem State.fenceArTeam_completing (s : State) (k : GKey) (m : Mask) : (s.fenceArTeam k m).completing = s.completing := by simp [State.fenceArTeam]
@[simp] theorem State.fenceArTeam_teams (s : State) (k : GKey) (m : Mask) : (s.fenceArTeam k m).teams = s.teams := by simp [State.fenceArTeam]
@[simp] theorem State.fenceArTeam_launches (s : State) (k : GKey) (m : Mask) : (s.fenceArTeam k m).launches = s.launches := by simp [State.fenceArTeam]
@[simp] theorem State.fenceArTeam_ctxs (s : State) (k : GKey) (m : Mask) : (s.fenceArTeam k m).ctxs = s.ctxs := by simp [State.fenceArTeam]
@[simp] theorem State.fenceArTeam_lastLine (s : State) (k : GKey) (m : Mask) : (s.fenceArTeam k m).lastLine = s.lastLine := by simp [State.fenceArTeam]
@[simp] theorem State.fenceArTeam_slots (s : State) (k : GKey) (m : Mask) : (s.fenceArTeam k m).slots = s.slots := by simp [State.fenceArTeam]
@[simp] theorem State.fenceArTeam_lost (s : State) (k : GKey) (m : Mask) : (s.fenceArTeam k m).lost = s.lost := by simp [State.fenceArTeam]
@[simp] theorem State.fenceArTeam_evicted (s : State) (k : GKey) (m : Mask) : (s.fenceArTeam k m).evicted = s.evicted := by simp [State.fenceArTeam]
@[simp] theorem State.fenceArTeam_renewed (s : State) (k : GKey) (m : Mask) : (s.fenceArTeam k m).renewed = s.renewed := by simp [State.fenceArTeam]
@[simp] theorem State.fenceArTeam_retained (s : State) (k : GKey) (m : Mask) : (s.fenceArTeam k m).retained = s.retained := by simp [State.fenceArTeam]

/- ### releaseMask -/

@[simp] theorem State.releaseMask_clk (s : State) (k : GKey) (n : Nat) : (s.releaseMask k n).clk = s.clk := by simp only [State.releaseMask]; (repeat' split) <;> simp
@[simp] theorem State.releaseMask_tick (s : State) (k : GKey) (n : Nat) : (s.releaseMask k n).tick = s.tick := by simp only [State.releaseMask]; (repeat' split) <;> simp
@[simp] theorem State.releaseMask_turn (s : State) (k : GKey) (n : Nat) : (s.releaseMask k n).turn = s.turn := by simp only [State.releaseMask]; (repeat' split) <;> simp
@[simp] theorem State.releaseMask_inbox (s : State) (k : GKey) (n : Nat) : (s.releaseMask k n).inbox = s.inbox := by simp only [State.releaseMask]; (repeat' split) <;> simp
@[simp] theorem State.releaseMask_cur (s : State) (k : GKey) (n : Nat) : (s.releaseMask k n).cur = s.cur := by simp only [State.releaseMask]; (repeat' split) <;> simp
@[simp] theorem State.releaseMask_instances (s : State) (k : GKey) (n : Nat) : (s.releaseMask k n).instances = s.instances := by simp only [State.releaseMask]; (repeat' split) <;> simp
@[simp] theorem State.releaseMask_issuing (s : State) (k : GKey) (n : Nat) : (s.releaseMask k n).issuing = s.issuing := by simp only [State.releaseMask]; (repeat' split) <;> simp
@[simp] theorem State.releaseMask_completing (s : State) (k : GKey) (n : Nat) : (s.releaseMask k n).completing = s.completing := by simp only [State.releaseMask]; (repeat' split) <;> simp
@[simp] theorem State.releaseMask_teams (s : State) (k : GKey) (n : Nat) : (s.releaseMask k n).teams = s.teams := by simp only [State.releaseMask]; (repeat' split) <;> simp
@[simp] theorem State.releaseMask_launches (s : State) (k : GKey) (n : Nat) : (s.releaseMask k n).launches = s.launches := by simp only [State.releaseMask]; (repeat' split) <;> simp
@[simp] theorem State.releaseMask_ctxs (s : State) (k : GKey) (n : Nat) : (s.releaseMask k n).ctxs = s.ctxs := by simp only [State.releaseMask]; (repeat' split) <;> simp
@[simp] theorem State.releaseMask_lastLine (s : State) (k : GKey) (n : Nat) : (s.releaseMask k n).lastLine = s.lastLine := by simp only [State.releaseMask]; (repeat' split) <;> simp
@[simp] theorem State.releaseMask_slots (s : State) (k : GKey) (n : Nat) : (s.releaseMask k n).slots = s.slots := by simp only [State.releaseMask]; (repeat' split) <;> simp
@[simp] theorem State.releaseMask_lost (s : State) (k : GKey) (n : Nat) : (s.releaseMask k n).lost = s.lost := by simp only [State.releaseMask]; (repeat' split) <;> simp
@[simp] theorem State.releaseMask_evicted (s : State) (k : GKey) (n : Nat) : (s.releaseMask k n).evicted = s.evicted := by simp only [State.releaseMask]; (repeat' split) <;> simp
@[simp] theorem State.releaseMask_renewed (s : State) (k : GKey) (n : Nat) : (s.releaseMask k n).renewed = s.renewed := by simp only [State.releaseMask]; (repeat' split) <;> simp
@[simp] theorem State.releaseMask_retained (s : State) (k : GKey) (n : Nat) : (s.releaseMask k n).retained = s.retained := by simp only [State.releaseMask]; (repeat' split) <;> simp

/- ### releaseRounds -/

@[simp] theorem State.releaseRounds_clk (k : GKey) (n : Nat) (s : State) : (State.releaseRounds k n s).clk = s.clk := by
  induction n generalizing s with
  | zero => rfl
  | succ n ih =>
    unfold State.releaseRounds; split
    · rfl
    · simp only; split
      · exact foldl_keeps State.clk _ (fun a b => by simp) _ _
      · rw [ih]; exact foldl_keeps State.clk _ (fun a b => by simp) _ _
@[simp] theorem State.releaseRounds_tick (k : GKey) (n : Nat) (s : State) : (State.releaseRounds k n s).tick = s.tick := by
  induction n generalizing s with
  | zero => rfl
  | succ n ih =>
    unfold State.releaseRounds; split
    · rfl
    · simp only; split
      · exact foldl_keeps State.tick _ (fun a b => by simp) _ _
      · rw [ih]; exact foldl_keeps State.tick _ (fun a b => by simp) _ _
@[simp] theorem State.releaseRounds_turn (k : GKey) (n : Nat) (s : State) : (State.releaseRounds k n s).turn = s.turn := by
  induction n generalizing s with
  | zero => rfl
  | succ n ih =>
    unfold State.releaseRounds; split
    · rfl
    · simp only; split
      · exact foldl_keeps State.turn _ (fun a b => by simp) _ _
      · rw [ih]; exact foldl_keeps State.turn _ (fun a b => by simp) _ _
@[simp] theorem State.releaseRounds_inbox (k : GKey) (n : Nat) (s : State) : (State.releaseRounds k n s).inbox = s.inbox := by
  induction n generalizing s with
  | zero => rfl
  | succ n ih =>
    unfold State.releaseRounds; split
    · rfl
    · simp only; split
      · exact foldl_keeps State.inbox _ (fun a b => by simp) _ _
      · rw [ih]; exact foldl_keeps State.inbox _ (fun a b => by simp) _ _
@[simp] theorem State.releaseRounds_cur (k : GKey) (n : Nat) (s : State) : (State.releaseRounds k n s).cur = s.cur := by
  induction n generalizing s with
  | zero => rfl
  | succ n ih =>
    unfold State.releaseRounds; split
    · rfl
    · simp only; split
      · exact foldl_keeps State.cur _ (fun a b => by simp) _ _
      · rw [ih]; exact foldl_keeps State.cur _ (fun a b => by simp) _ _
@[simp] theorem State.releaseRounds_instances (k : GKey) (n : Nat) (s : State) : (State.releaseRounds k n s).instances = s.instances := by
  induction n generalizing s with
  | zero => rfl
  | succ n ih =>
    unfold State.releaseRounds; split
    · rfl
    · simp only; split
      · exact foldl_keeps State.instances _ (fun a b => by simp) _ _
      · rw [ih]; exact foldl_keeps State.instances _ (fun a b => by simp) _ _
@[simp] theorem State.releaseRounds_issuing (k : GKey) (n : Nat) (s : State) : (State.releaseRounds k n s).issuing = s.issuing := by
  induction n generalizing s with
  | zero => rfl
  | succ n ih =>
    unfold State.releaseRounds; split
    · rfl
    · simp only; split
      · exact foldl_keeps State.issuing _ (fun a b => by simp) _ _
      · rw [ih]; exact foldl_keeps State.issuing _ (fun a b => by simp) _ _
@[simp] theorem State.releaseRounds_completing (k : GKey) (n : Nat) (s : State) : (State.releaseRounds k n s).completing = s.completing := by
  induction n generalizing s with
  | zero => rfl
  | succ n ih =>
    unfold State.releaseRounds; split
    · rfl
    · simp only; split
      · exact foldl_keeps State.completing _ (fun a b => by simp) _ _
      · rw [ih]; exact foldl_keeps State.completing _ (fun a b => by simp) _ _
@[simp] theorem State.releaseRounds_teams (k : GKey) (n : Nat) (s : State) : (State.releaseRounds k n s).teams = s.teams := by
  induction n generalizing s with
  | zero => rfl
  | succ n ih =>
    unfold State.releaseRounds; split
    · rfl
    · simp only; split
      · exact foldl_keeps State.teams _ (fun a b => by simp) _ _
      · rw [ih]; exact foldl_keeps State.teams _ (fun a b => by simp) _ _
@[simp] theorem State.releaseRounds_launches (k : GKey) (n : Nat) (s : State) : (State.releaseRounds k n s).launches = s.launches := by
  induction n generalizing s with
  | zero => rfl
  | succ n ih =>
    unfold State.releaseRounds; split
    · rfl
    · simp only; split
      · exact foldl_keeps State.launches _ (fun a b => by simp) _ _
      · rw [ih]; exact foldl_keeps State.launches _ (fun a b => by simp) _ _
@[simp] theorem State.releaseRounds_ctxs (k : GKey) (n : Nat) (s : State) : (State.releaseRounds k n s).ctxs = s.ctxs := by
  induction n generalizing s with
  | zero => rfl
  | succ n ih =>
    unfold State.releaseRounds; split
    · rfl
    · simp only; split
      · exact foldl_keeps State.ctxs _ (fun a b => by simp) _ _
      · rw [ih]; exact foldl_keeps State.ctxs _ (fun a b => by simp) _ _
@[simp] theorem State.releaseRounds_lastLine (k : GKey) (n : Nat) (s : State) : (State.releaseRounds k n s).lastLine = s.lastLine := by
  induction n generalizing s with
  | zero => rfl
  | succ n ih =>
    unfold State.releaseRounds; split
    · rfl
    · simp only; split
      · exact foldl_keeps State.lastLine _ (fun a b => by simp) _ _
      · rw [ih]; exact foldl_keeps State.lastLine _ (fun a b => by simp) _ _
@[simp] theorem State.releaseRounds_slots (k : GKey) (n : Nat) (s : State) : (State.releaseRounds k n s).slots = s.slots := by
  induction n generalizing s with
  | zero => rfl
  | succ n ih =>
    unfold State.releaseRounds; split
    · rfl
    · simp only; split
      · exact foldl_keeps State.slots _ (fun a b => by simp) _ _
      · rw [ih]; exact foldl_keeps State.slots _ (fun a b => by simp) _ _
@[simp] theorem State.releaseRounds_lost (k : GKey) (n : Nat) (s : State) : (State.releaseRounds k n s).lost = s.lost := by
  induction n generalizing s with
  | zero => rfl
  | succ n ih =>
    unfold State.releaseRounds; split
    · rfl
    · simp only; split
      · exact foldl_keeps State.lost _ (fun a b => by simp) _ _
      · rw [ih]; exact foldl_keeps State.lost _ (fun a b => by simp) _ _
@[simp] theorem State.releaseRounds_evicted (k : GKey) (n : Nat) (s : State) : (State.releaseRounds k n s).evicted = s.evicted := by
  induction n generalizing s with
  | zero => rfl
  | succ n ih =>
    unfold State.releaseRounds; split
    · rfl
    · simp only; split
      · exact foldl_keeps State.evicted _ (fun a b => by simp) _ _
      · rw [ih]; exact foldl_keeps State.evicted _ (fun a b => by simp) _ _
@[simp] theorem State.releaseRounds_renewed (k : GKey) (n : Nat) (s : State) : (State.releaseRounds k n s).renewed = s.renewed := by
  induction n generalizing s with
  | zero => rfl
  | succ n ih =>
    unfold State.releaseRounds; split
    · rfl
    · simp only; split
      · exact foldl_keeps State.renewed _ (fun a b => by simp) _ _
      · rw [ih]; exact foldl_keeps State.renewed _ (fun a b => by simp) _ _
@[simp] theorem State.releaseRounds_retained (k : GKey) (n : Nat) (s : State) : (State.releaseRounds k n s).retained = s.retained := by
  induction n generalizing s with
  | zero => rfl
  | succ n ih =>
    unfold State.releaseRounds; split
    · rfl
    · simp only; split
      · exact foldl_keeps State.retained _ (fun a b => by simp) _ _
      · rw [ih]; exact foldl_keeps State.retained _ (fun a b => by simp) _ _

/- ### releaseMasks -/

@[simp] theorem State.releaseMasks_clk (s : State) (k : GKey) : (s.releaseMasks k).clk = s.clk := by simp [State.releaseMasks]
@[simp] theorem State.releaseMasks_tick (s : State) (k : GKey) : (s.releaseMasks k).tick = s.tick := by simp [State.releaseMasks]
@[simp] theorem State.releaseMasks_turn (s : State) (k : GKey) : (s.releaseMasks k).turn = s.turn := by simp [State.releaseMasks]
@[simp] theorem State.releaseMasks_inbox (s : State) (k : GKey) : (s.releaseMasks k).inbox = s.inbox := by simp [State.releaseMasks]
@[simp] theorem State.releaseMasks_cur (s : State) (k : GKey) : (s.releaseMasks k).cur = s.cur := by simp [State.releaseMasks]
@[simp] theorem State.releaseMasks_instances (s : State) (k : GKey) : (s.releaseMasks k).instances = s.instances := by simp [State.releaseMasks]
@[simp] theorem State.releaseMasks_issuing (s : State) (k : GKey) : (s.releaseMasks k).issuing = s.issuing := by simp [State.releaseMasks]
@[simp] theorem State.releaseMasks_completing (s : State) (k : GKey) : (s.releaseMasks k).completing = s.completing := by simp [State.releaseMasks]
@[simp] theorem State.releaseMasks_teams (s : State) (k : GKey) : (s.releaseMasks k).teams = s.teams := by simp [State.releaseMasks]
@[simp] theorem State.releaseMasks_launches (s : State) (k : GKey) : (s.releaseMasks k).launches = s.launches := by simp [State.releaseMasks]
@[simp] theorem State.releaseMasks_ctxs (s : State) (k : GKey) : (s.releaseMasks k).ctxs = s.ctxs := by simp [State.releaseMasks]
@[simp] theorem State.releaseMasks_lastLine (s : State) (k : GKey) : (s.releaseMasks k).lastLine = s.lastLine := by simp [State.releaseMasks]
@[simp] theorem State.releaseMasks_slots (s : State) (k : GKey) : (s.releaseMasks k).slots = s.slots := by simp [State.releaseMasks]
@[simp] theorem State.releaseMasks_lost (s : State) (k : GKey) : (s.releaseMasks k).lost = s.lost := by simp [State.releaseMasks]
@[simp] theorem State.releaseMasks_evicted (s : State) (k : GKey) : (s.releaseMasks k).evicted = s.evicted := by simp [State.releaseMasks]
@[simp] theorem State.releaseMasks_renewed (s : State) (k : GKey) : (s.releaseMasks k).renewed = s.renewed := by simp [State.releaseMasks]
@[simp] theorem State.releaseMasks_retained (s : State) (k : GKey) : (s.releaseMasks k).retained = s.retained := by simp [State.releaseMasks]

/- ### bumpGen -/

@[simp] theorem State.bumpGen_clk (s : State) (r : ConvReg) : (s.bumpGen r).clk = s.clk := by unfold State.bumpGen; cases r <;> simp
@[simp] theorem State.bumpGen_tick (s : State) (r : ConvReg) : (s.bumpGen r).tick = s.tick := by unfold State.bumpGen; cases r <;> simp
@[simp] theorem State.bumpGen_turn (s : State) (r : ConvReg) : (s.bumpGen r).turn = s.turn := by unfold State.bumpGen; cases r <;> simp
@[simp] theorem State.bumpGen_inbox (s : State) (r : ConvReg) : (s.bumpGen r).inbox = s.inbox := by unfold State.bumpGen; cases r <;> simp
@[simp] theorem State.bumpGen_cur (s : State) (r : ConvReg) : (s.bumpGen r).cur = s.cur := by unfold State.bumpGen; cases r <;> simp
@[simp] theorem State.bumpGen_instances (s : State) (r : ConvReg) : (s.bumpGen r).instances = s.instances := by unfold State.bumpGen; cases r <;> simp
@[simp] theorem State.bumpGen_issuing (s : State) (r : ConvReg) : (s.bumpGen r).issuing = s.issuing := by unfold State.bumpGen; cases r <;> simp
@[simp] theorem State.bumpGen_completing (s : State) (r : ConvReg) : (s.bumpGen r).completing = s.completing := by unfold State.bumpGen; cases r <;> simp
@[simp] theorem State.bumpGen_launches (s : State) (r : ConvReg) : (s.bumpGen r).launches = s.launches := by unfold State.bumpGen; cases r <;> simp
@[simp] theorem State.bumpGen_cores (s : State) (r : ConvReg) : (s.bumpGen r).cores = s.cores := by unfold State.bumpGen; cases r <;> simp
@[simp] theorem State.bumpGen_mem (s : State) (r : ConvReg) : (s.bumpGen r).mem = s.mem := by unfold State.bumpGen; cases r <;> simp
@[simp] theorem State.bumpGen_poison (s : State) (r : ConvReg) : (s.bumpGen r).poison = s.poison := by unfold State.bumpGen; cases r <;> simp
@[simp] theorem State.bumpGen_hostMem (s : State) (r : ConvReg) : (s.bumpGen r).hostMem = s.hostMem := by unfold State.bumpGen; cases r <;> simp
@[simp] theorem State.bumpGen_peerMem (s : State) (r : ConvReg) : (s.bumpGen r).peerMem = s.peerMem := by unfold State.bumpGen; cases r <;> simp
@[simp] theorem State.bumpGen_bufs (s : State) (r : ConvReg) : (s.bumpGen r).bufs = s.bufs := by unfold State.bumpGen; cases r <;> simp
@[simp] theorem State.bumpGen_transit (s : State) (r : ConvReg) : (s.bumpGen r).transit = s.transit := by unfold State.bumpGen; cases r <;> simp
@[simp] theorem State.bumpGen_moveAt (s : State) (r : ConvReg) : (s.bumpGen r).moveAt = s.moveAt := by unfold State.bumpGen; cases r <;> simp
@[simp] theorem State.bumpGen_frames (s : State) (r : ConvReg) : (s.bumpGen r).frames = s.frames := by unfold State.bumpGen; cases r <;> simp
@[simp] theorem State.bumpGen_lastLine (s : State) (r : ConvReg) : (s.bumpGen r).lastLine = s.lastLine := by unfold State.bumpGen; cases r <;> simp
@[simp] theorem State.bumpGen_readCopies (s : State) (r : ConvReg) : (s.bumpGen r).readCopies = s.readCopies := by unfold State.bumpGen; cases r <;> simp
@[simp] theorem State.bumpGen_dirty (s : State) (r : ConvReg) : (s.bumpGen r).dirty = s.dirty := by unfold State.bumpGen; cases r <;> simp
@[simp] theorem State.bumpGen_cells (s : State) (r : ConvReg) : (s.bumpGen r).cells = s.cells := by unfold State.bumpGen; cases r <;> simp
@[simp] theorem State.bumpGen_lodge (s : State) (r : ConvReg) : (s.bumpGen r).lodge = s.lodge := by unfold State.bumpGen; cases r <;> simp
@[simp] theorem State.bumpGen_slots (s : State) (r : ConvReg) : (s.bumpGen r).slots = s.slots := by unfold State.bumpGen; cases r <;> simp
@[simp] theorem State.bumpGen_regs (s : State) (r : ConvReg) : (s.bumpGen r).regs = s.regs := by unfold State.bumpGen; cases r <;> simp
@[simp] theorem State.bumpGen_events (s : State) (r : ConvReg) : (s.bumpGen r).events = s.events := by unfold State.bumpGen; cases r <;> simp
@[simp] theorem State.bumpGen_lost (s : State) (r : ConvReg) : (s.bumpGen r).lost = s.lost := by unfold State.bumpGen; cases r <;> simp
@[simp] theorem State.bumpGen_evicted (s : State) (r : ConvReg) : (s.bumpGen r).evicted = s.evicted := by unfold State.bumpGen; cases r <;> simp
@[simp] theorem State.bumpGen_renewed (s : State) (r : ConvReg) : (s.bumpGen r).renewed = s.renewed := by unfold State.bumpGen; cases r <;> simp
@[simp] theorem State.bumpGen_late (s : State) (r : ConvReg) : (s.bumpGen r).late = s.late := by unfold State.bumpGen; cases r <;> simp
@[simp] theorem State.bumpGen_retained (s : State) (r : ConvReg) : (s.bumpGen r).retained = s.retained := by unfold State.bumpGen; cases r <;> simp

/- ### releaseReg -/

@[simp] theorem State.releaseReg_clk (s : State) (r : ConvReg) : (s.releaseReg r).clk = s.clk := by simp [State.releaseReg]
@[simp] theorem State.releaseReg_tick (s : State) (r : ConvReg) : (s.releaseReg r).tick = s.tick := by simp [State.releaseReg]
@[simp] theorem State.releaseReg_turn (s : State) (r : ConvReg) : (s.releaseReg r).turn = s.turn := by simp [State.releaseReg]
@[simp] theorem State.releaseReg_inbox (s : State) (r : ConvReg) : (s.releaseReg r).inbox = s.inbox := by simp [State.releaseReg]
@[simp] theorem State.releaseReg_cur (s : State) (r : ConvReg) : (s.releaseReg r).cur = s.cur := by simp [State.releaseReg]
@[simp] theorem State.releaseReg_instances (s : State) (r : ConvReg) : (s.releaseReg r).instances = s.instances := by simp [State.releaseReg]
@[simp] theorem State.releaseReg_issuing (s : State) (r : ConvReg) : (s.releaseReg r).issuing = s.issuing := by simp [State.releaseReg]
@[simp] theorem State.releaseReg_completing (s : State) (r : ConvReg) : (s.releaseReg r).completing = s.completing := by simp [State.releaseReg]
@[simp] theorem State.releaseReg_teams (s : State) (r : ConvReg) : (s.releaseReg r).teams = s.teams := by simp [State.releaseReg]
@[simp] theorem State.releaseReg_launches (s : State) (r : ConvReg) : (s.releaseReg r).launches = s.launches := by simp [State.releaseReg]
@[simp] theorem State.releaseReg_ctxs (s : State) (r : ConvReg) : (s.releaseReg r).ctxs = s.ctxs := by simp [State.releaseReg]
@[simp] theorem State.releaseReg_cores (s : State) (r : ConvReg) : (s.releaseReg r).cores = s.cores := by simp [State.releaseReg]
@[simp] theorem State.releaseReg_mem (s : State) (r : ConvReg) : (s.releaseReg r).mem = s.mem := by simp [State.releaseReg]
@[simp] theorem State.releaseReg_poison (s : State) (r : ConvReg) : (s.releaseReg r).poison = s.poison := by simp [State.releaseReg]
@[simp] theorem State.releaseReg_hostMem (s : State) (r : ConvReg) : (s.releaseReg r).hostMem = s.hostMem := by simp [State.releaseReg]
@[simp] theorem State.releaseReg_peerMem (s : State) (r : ConvReg) : (s.releaseReg r).peerMem = s.peerMem := by simp [State.releaseReg]
@[simp] theorem State.releaseReg_bufs (s : State) (r : ConvReg) : (s.releaseReg r).bufs = s.bufs := by simp [State.releaseReg]
@[simp] theorem State.releaseReg_transit (s : State) (r : ConvReg) : (s.releaseReg r).transit = s.transit := by simp [State.releaseReg]
@[simp] theorem State.releaseReg_moveAt (s : State) (r : ConvReg) : (s.releaseReg r).moveAt = s.moveAt := by simp [State.releaseReg]
@[simp] theorem State.releaseReg_frames (s : State) (r : ConvReg) : (s.releaseReg r).frames = s.frames := by simp [State.releaseReg]
@[simp] theorem State.releaseReg_lastLine (s : State) (r : ConvReg) : (s.releaseReg r).lastLine = s.lastLine := by simp [State.releaseReg]
@[simp] theorem State.releaseReg_readCopies (s : State) (r : ConvReg) : (s.releaseReg r).readCopies = s.readCopies := by simp [State.releaseReg]
@[simp] theorem State.releaseReg_dirty (s : State) (r : ConvReg) : (s.releaseReg r).dirty = s.dirty := by simp [State.releaseReg]
@[simp] theorem State.releaseReg_cells (s : State) (r : ConvReg) : (s.releaseReg r).cells = s.cells := by simp [State.releaseReg]
@[simp] theorem State.releaseReg_lodge (s : State) (r : ConvReg) : (s.releaseReg r).lodge = s.lodge := by simp [State.releaseReg]
@[simp] theorem State.releaseReg_slots (s : State) (r : ConvReg) : (s.releaseReg r).slots = s.slots := by simp [State.releaseReg]
@[simp] theorem State.releaseReg_regs (s : State) (r : ConvReg) : (s.releaseReg r).regs = s.regs := by simp [State.releaseReg]
@[simp] theorem State.releaseReg_events (s : State) (r : ConvReg) : (s.releaseReg r).events = s.events := by simp [State.releaseReg]
@[simp] theorem State.releaseReg_lost (s : State) (r : ConvReg) : (s.releaseReg r).lost = s.lost := by simp [State.releaseReg]
@[simp] theorem State.releaseReg_evicted (s : State) (r : ConvReg) : (s.releaseReg r).evicted = s.evicted := by simp [State.releaseReg]
@[simp] theorem State.releaseReg_renewed (s : State) (r : ConvReg) : (s.releaseReg r).renewed = s.renewed := by simp [State.releaseReg]
@[simp] theorem State.releaseReg_late (s : State) (r : ConvReg) : (s.releaseReg r).late = s.late := by simp [State.releaseReg]
@[simp] theorem State.releaseReg_retained (s : State) (r : ConvReg) : (s.releaseReg r).retained = s.retained := by simp [State.releaseReg]

/- ### endGen -/

@[simp] theorem State.endGen_clk (s : State) (c : Completion) : (s.endGen c).clk = s.clk := by
  simp only [State.endGen, State.releaseReg_clk]; (repeat' split) <;> exact (foldl_keeps State.clk _ (fun a b => by simp) _ _).trans ((foldl_keeps State.clk _ (fun a b => by simp) _ _).trans (by simp))
@[simp] theorem State.endGen_tick (s : State) (c : Completion) : (s.endGen c).tick = s.tick := by
  simp only [State.endGen, State.releaseReg_tick]; (repeat' split) <;> exact (foldl_keeps State.tick _ (fun a b => by simp) _ _).trans ((foldl_keeps State.tick _ (fun a b => by simp) _ _).trans (by simp))
@[simp] theorem State.endGen_turn (s : State) (c : Completion) : (s.endGen c).turn = s.turn := by
  simp only [State.endGen, State.releaseReg_turn]; (repeat' split) <;> exact (foldl_keeps State.turn _ (fun a b => by simp) _ _).trans ((foldl_keeps State.turn _ (fun a b => by simp) _ _).trans (by simp))
@[simp] theorem State.endGen_inbox (s : State) (c : Completion) : (s.endGen c).inbox = s.inbox := by
  simp only [State.endGen, State.releaseReg_inbox]; (repeat' split) <;> exact (foldl_keeps State.inbox _ (fun a b => by simp) _ _).trans ((foldl_keeps State.inbox _ (fun a b => by simp) _ _).trans (by simp))
@[simp] theorem State.endGen_cur (s : State) (c : Completion) : (s.endGen c).cur = s.cur := by
  simp only [State.endGen, State.releaseReg_cur]; (repeat' split) <;> exact (foldl_keeps State.cur _ (fun a b => by simp) _ _).trans ((foldl_keeps State.cur _ (fun a b => by simp) _ _).trans (by simp))
@[simp] theorem State.endGen_completing (s : State) (c : Completion) : (s.endGen c).completing = s.completing := by
  simp only [State.endGen, State.releaseReg_completing]; (repeat' split) <;> exact (foldl_keeps State.completing _ (fun a b => by simp) _ _).trans ((foldl_keeps State.completing _ (fun a b => by simp) _ _).trans (by simp))
@[simp] theorem State.endGen_launches (s : State) (c : Completion) : (s.endGen c).launches = s.launches := by
  simp only [State.endGen, State.releaseReg_launches]; (repeat' split) <;> exact (foldl_keeps State.launches _ (fun a b => by simp) _ _).trans ((foldl_keeps State.launches _ (fun a b => by simp) _ _).trans (by simp))
@[simp] theorem State.endGen_lastLine (s : State) (c : Completion) : (s.endGen c).lastLine = s.lastLine := by
  simp only [State.endGen, State.releaseReg_lastLine]; (repeat' split) <;> exact (foldl_keeps State.lastLine _ (fun a b => by simp) _ _).trans ((foldl_keeps State.lastLine _ (fun a b => by simp) _ _).trans (by simp))
@[simp] theorem State.endGen_slots (s : State) (c : Completion) : (s.endGen c).slots = s.slots := by
  simp only [State.endGen, State.releaseReg_slots]; (repeat' split) <;> exact (foldl_keeps State.slots _ (fun a b => by simp) _ _).trans ((foldl_keeps State.slots _ (fun a b => by simp) _ _).trans (by simp))
@[simp] theorem State.endGen_lost (s : State) (c : Completion) : (s.endGen c).lost = s.lost := by
  simp only [State.endGen, State.releaseReg_lost]; (repeat' split) <;> exact (foldl_keeps State.lost _ (fun a b => by simp) _ _).trans ((foldl_keeps State.lost _ (fun a b => by simp) _ _).trans (by simp))
@[simp] theorem State.endGen_evicted (s : State) (c : Completion) : (s.endGen c).evicted = s.evicted := by
  simp only [State.endGen, State.releaseReg_evicted]; (repeat' split) <;> exact (foldl_keeps State.evicted _ (fun a b => by simp) _ _).trans ((foldl_keeps State.evicted _ (fun a b => by simp) _ _).trans (by simp))
@[simp] theorem State.endGen_renewed (s : State) (c : Completion) : (s.endGen c).renewed = s.renewed := by
  simp only [State.endGen, State.releaseReg_renewed]; (repeat' split) <;> exact (foldl_keeps State.renewed _ (fun a b => by simp) _ _).trans ((foldl_keeps State.renewed _ (fun a b => by simp) _ _).trans (by simp))
@[simp] theorem State.endGen_retained (s : State) (c : Completion) : (s.endGen c).retained = s.retained := by
  simp only [State.endGen, State.releaseReg_retained]; (repeat' split) <;> exact (foldl_keeps State.retained _ (fun a b => by simp) _ _).trans ((foldl_keeps State.retained _ (fun a b => by simp) _ _).trans (by simp))

/- ### tryComplete -/

@[simp] theorem State.tryComplete_clk (s : State) (k : GKey) (x : Scope) : (s.tryComplete k x).clk = s.clk := by unfold State.tryComplete; simp only; (repeat' split) <;> simp
@[simp] theorem State.tryComplete_tick (s : State) (k : GKey) (x : Scope) : (s.tryComplete k x).tick = s.tick := by unfold State.tryComplete; simp only; (repeat' split) <;> simp
@[simp] theorem State.tryComplete_turn (s : State) (k : GKey) (x : Scope) : (s.tryComplete k x).turn = s.turn := by unfold State.tryComplete; simp only; (repeat' split) <;> simp
@[simp] theorem State.tryComplete_inbox (s : State) (k : GKey) (x : Scope) : (s.tryComplete k x).inbox = s.inbox := by unfold State.tryComplete; simp only; (repeat' split) <;> simp
@[simp] theorem State.tryComplete_cur (s : State) (k : GKey) (x : Scope) : (s.tryComplete k x).cur = s.cur := by unfold State.tryComplete; simp only; (repeat' split) <;> simp
@[simp] theorem State.tryComplete_launches (s : State) (k : GKey) (x : Scope) : (s.tryComplete k x).launches = s.launches := by unfold State.tryComplete; simp only; (repeat' split) <;> simp
@[simp] theorem State.tryComplete_lastLine (s : State) (k : GKey) (x : Scope) : (s.tryComplete k x).lastLine = s.lastLine := by unfold State.tryComplete; simp only; (repeat' split) <;> simp
@[simp] theorem State.tryComplete_slots (s : State) (k : GKey) (x : Scope) : (s.tryComplete k x).slots = s.slots := by unfold State.tryComplete; simp only; (repeat' split) <;> simp
@[simp] theorem State.tryComplete_lost (s : State) (k : GKey) (x : Scope) : (s.tryComplete k x).lost = s.lost := by unfold State.tryComplete; simp only; (repeat' split) <;> simp
@[simp] theorem State.tryComplete_evicted (s : State) (k : GKey) (x : Scope) : (s.tryComplete k x).evicted = s.evicted := by unfold State.tryComplete; simp only; (repeat' split) <;> simp
@[simp] theorem State.tryComplete_renewed (s : State) (k : GKey) (x : Scope) : (s.tryComplete k x).renewed = s.renewed := by unfold State.tryComplete; simp only; (repeat' split) <;> simp
@[simp] theorem State.tryComplete_retained (s : State) (k : GKey) (x : Scope) : (s.tryComplete k x).retained = s.retained := by unfold State.tryComplete; simp only; (repeat' split) <;> simp

/- ### raiseSplit -/

@[simp] theorem State.raiseSplit_clk (s : State) (x : Scope) (gs : List Group) : (s.raiseSplit x gs).clk = s.clk := by simp [State.raiseSplit]
@[simp] theorem State.raiseSplit_tick (s : State) (x : Scope) (gs : List Group) : (s.raiseSplit x gs).tick = s.tick := by simp [State.raiseSplit]
@[simp] theorem State.raiseSplit_turn (s : State) (x : Scope) (gs : List Group) : (s.raiseSplit x gs).turn = s.turn := by simp [State.raiseSplit]
@[simp] theorem State.raiseSplit_inbox (s : State) (x : Scope) (gs : List Group) : (s.raiseSplit x gs).inbox = s.inbox := by simp [State.raiseSplit]
@[simp] theorem State.raiseSplit_cur (s : State) (x : Scope) (gs : List Group) : (s.raiseSplit x gs).cur = s.cur := by simp [State.raiseSplit]
@[simp] theorem State.raiseSplit_instances (s : State) (x : Scope) (gs : List Group) : (s.raiseSplit x gs).instances = s.instances := by simp [State.raiseSplit]
@[simp] theorem State.raiseSplit_issuing (s : State) (x : Scope) (gs : List Group) : (s.raiseSplit x gs).issuing = s.issuing := by simp [State.raiseSplit]
@[simp] theorem State.raiseSplit_completing (s : State) (x : Scope) (gs : List Group) : (s.raiseSplit x gs).completing = s.completing := by simp [State.raiseSplit]
@[simp] theorem State.raiseSplit_teams (s : State) (x : Scope) (gs : List Group) : (s.raiseSplit x gs).teams = s.teams := by simp [State.raiseSplit]
@[simp] theorem State.raiseSplit_launches (s : State) (x : Scope) (gs : List Group) : (s.raiseSplit x gs).launches = s.launches := by simp [State.raiseSplit]
@[simp] theorem State.raiseSplit_cores (s : State) (x : Scope) (gs : List Group) : (s.raiseSplit x gs).cores = s.cores := by simp [State.raiseSplit]
@[simp] theorem State.raiseSplit_mem (s : State) (x : Scope) (gs : List Group) : (s.raiseSplit x gs).mem = s.mem := by simp [State.raiseSplit]
@[simp] theorem State.raiseSplit_poison (s : State) (x : Scope) (gs : List Group) : (s.raiseSplit x gs).poison = s.poison := by simp [State.raiseSplit]
@[simp] theorem State.raiseSplit_peerMem (s : State) (x : Scope) (gs : List Group) : (s.raiseSplit x gs).peerMem = s.peerMem := by simp [State.raiseSplit]
@[simp] theorem State.raiseSplit_bufs (s : State) (x : Scope) (gs : List Group) : (s.raiseSplit x gs).bufs = s.bufs := by simp [State.raiseSplit]
@[simp] theorem State.raiseSplit_transit (s : State) (x : Scope) (gs : List Group) : (s.raiseSplit x gs).transit = s.transit := by simp [State.raiseSplit]
@[simp] theorem State.raiseSplit_moveAt (s : State) (x : Scope) (gs : List Group) : (s.raiseSplit x gs).moveAt = s.moveAt := by simp [State.raiseSplit]
@[simp] theorem State.raiseSplit_frames (s : State) (x : Scope) (gs : List Group) : (s.raiseSplit x gs).frames = s.frames := by simp [State.raiseSplit]
@[simp] theorem State.raiseSplit_lastLine (s : State) (x : Scope) (gs : List Group) : (s.raiseSplit x gs).lastLine = s.lastLine := by simp [State.raiseSplit]
@[simp] theorem State.raiseSplit_readCopies (s : State) (x : Scope) (gs : List Group) : (s.raiseSplit x gs).readCopies = s.readCopies := by simp [State.raiseSplit]
@[simp] theorem State.raiseSplit_dirty (s : State) (x : Scope) (gs : List Group) : (s.raiseSplit x gs).dirty = s.dirty := by simp [State.raiseSplit]
@[simp] theorem State.raiseSplit_cells (s : State) (x : Scope) (gs : List Group) : (s.raiseSplit x gs).cells = s.cells := by simp [State.raiseSplit]
@[simp] theorem State.raiseSplit_lodge (s : State) (x : Scope) (gs : List Group) : (s.raiseSplit x gs).lodge = s.lodge := by simp [State.raiseSplit]
@[simp] theorem State.raiseSplit_slots (s : State) (x : Scope) (gs : List Group) : (s.raiseSplit x gs).slots = s.slots := by simp [State.raiseSplit]
@[simp] theorem State.raiseSplit_lost (s : State) (x : Scope) (gs : List Group) : (s.raiseSplit x gs).lost = s.lost := by simp [State.raiseSplit]
@[simp] theorem State.raiseSplit_evicted (s : State) (x : Scope) (gs : List Group) : (s.raiseSplit x gs).evicted = s.evicted := by simp [State.raiseSplit]
@[simp] theorem State.raiseSplit_renewed (s : State) (x : Scope) (gs : List Group) : (s.raiseSplit x gs).renewed = s.renewed := by simp [State.raiseSplit]
@[simp] theorem State.raiseSplit_late (s : State) (x : Scope) (gs : List Group) : (s.raiseSplit x gs).late = s.late := by simp [State.raiseSplit]
@[simp] theorem State.raiseSplit_retained (s : State) (x : Scope) (gs : List Group) : (s.raiseSplit x gs).retained = s.retained := by simp [State.raiseSplit]

/- ### splitTest -/

@[simp] theorem State.splitTest_clk (s : State) (k : GKey) : (s.splitTest k).clk = s.clk := by simp only [State.splitTest]; (repeat' split) <;> simp
@[simp] theorem State.splitTest_tick (s : State) (k : GKey) : (s.splitTest k).tick = s.tick := by simp only [State.splitTest]; (repeat' split) <;> simp
@[simp] theorem State.splitTest_turn (s : State) (k : GKey) : (s.splitTest k).turn = s.turn := by simp only [State.splitTest]; (repeat' split) <;> simp
@[simp] theorem State.splitTest_inbox (s : State) (k : GKey) : (s.splitTest k).inbox = s.inbox := by simp only [State.splitTest]; (repeat' split) <;> simp
@[simp] theorem State.splitTest_cur (s : State) (k : GKey) : (s.splitTest k).cur = s.cur := by simp only [State.splitTest]; (repeat' split) <;> simp
@[simp] theorem State.splitTest_instances (s : State) (k : GKey) : (s.splitTest k).instances = s.instances := by simp only [State.splitTest]; (repeat' split) <;> simp
@[simp] theorem State.splitTest_issuing (s : State) (k : GKey) : (s.splitTest k).issuing = s.issuing := by simp only [State.splitTest]; (repeat' split) <;> simp
@[simp] theorem State.splitTest_completing (s : State) (k : GKey) : (s.splitTest k).completing = s.completing := by simp only [State.splitTest]; (repeat' split) <;> simp
@[simp] theorem State.splitTest_teams (s : State) (k : GKey) : (s.splitTest k).teams = s.teams := by simp only [State.splitTest]; (repeat' split) <;> simp
@[simp] theorem State.splitTest_launches (s : State) (k : GKey) : (s.splitTest k).launches = s.launches := by simp only [State.splitTest]; (repeat' split) <;> simp
@[simp] theorem State.splitTest_cores (s : State) (k : GKey) : (s.splitTest k).cores = s.cores := by simp only [State.splitTest]; (repeat' split) <;> simp
@[simp] theorem State.splitTest_mem (s : State) (k : GKey) : (s.splitTest k).mem = s.mem := by simp only [State.splitTest]; (repeat' split) <;> simp
@[simp] theorem State.splitTest_poison (s : State) (k : GKey) : (s.splitTest k).poison = s.poison := by simp only [State.splitTest]; (repeat' split) <;> simp
@[simp] theorem State.splitTest_peerMem (s : State) (k : GKey) : (s.splitTest k).peerMem = s.peerMem := by simp only [State.splitTest]; (repeat' split) <;> simp
@[simp] theorem State.splitTest_bufs (s : State) (k : GKey) : (s.splitTest k).bufs = s.bufs := by simp only [State.splitTest]; (repeat' split) <;> simp
@[simp] theorem State.splitTest_transit (s : State) (k : GKey) : (s.splitTest k).transit = s.transit := by simp only [State.splitTest]; (repeat' split) <;> simp
@[simp] theorem State.splitTest_moveAt (s : State) (k : GKey) : (s.splitTest k).moveAt = s.moveAt := by simp only [State.splitTest]; (repeat' split) <;> simp
@[simp] theorem State.splitTest_frames (s : State) (k : GKey) : (s.splitTest k).frames = s.frames := by simp only [State.splitTest]; (repeat' split) <;> simp
@[simp] theorem State.splitTest_lastLine (s : State) (k : GKey) : (s.splitTest k).lastLine = s.lastLine := by simp only [State.splitTest]; (repeat' split) <;> simp
@[simp] theorem State.splitTest_readCopies (s : State) (k : GKey) : (s.splitTest k).readCopies = s.readCopies := by simp only [State.splitTest]; (repeat' split) <;> simp
@[simp] theorem State.splitTest_dirty (s : State) (k : GKey) : (s.splitTest k).dirty = s.dirty := by simp only [State.splitTest]; (repeat' split) <;> simp
@[simp] theorem State.splitTest_cells (s : State) (k : GKey) : (s.splitTest k).cells = s.cells := by simp only [State.splitTest]; (repeat' split) <;> simp
@[simp] theorem State.splitTest_lodge (s : State) (k : GKey) : (s.splitTest k).lodge = s.lodge := by simp only [State.splitTest]; (repeat' split) <;> simp
@[simp] theorem State.splitTest_slots (s : State) (k : GKey) : (s.splitTest k).slots = s.slots := by simp only [State.splitTest]; (repeat' split) <;> simp
@[simp] theorem State.splitTest_lost (s : State) (k : GKey) : (s.splitTest k).lost = s.lost := by simp only [State.splitTest]; (repeat' split) <;> simp
@[simp] theorem State.splitTest_evicted (s : State) (k : GKey) : (s.splitTest k).evicted = s.evicted := by simp only [State.splitTest]; (repeat' split) <;> simp
@[simp] theorem State.splitTest_renewed (s : State) (k : GKey) : (s.splitTest k).renewed = s.renewed := by simp only [State.splitTest]; (repeat' split) <;> simp
@[simp] theorem State.splitTest_late (s : State) (k : GKey) : (s.splitTest k).late = s.late := by simp only [State.splitTest]; (repeat' split) <;> simp
@[simp] theorem State.splitTest_retained (s : State) (k : GKey) : (s.splitTest k).retained = s.retained := by simp only [State.splitTest]; (repeat' split) <;> simp

/- ### settle -/

@[simp] theorem State.settle_clk (s : State) (k : GKey) : (s.settle k).clk = s.clk := by
  unfold State.settle; simp only
  exact (foldl_keeps State.clk _ (fun a b => by simp) _ _).trans (by simp)
@[simp] theorem State.settle_tick (s : State) (k : GKey) : (s.settle k).tick = s.tick := by
  unfold State.settle; simp only
  exact (foldl_keeps State.tick _ (fun a b => by simp) _ _).trans (by simp)
@[simp] theorem State.settle_turn (s : State) (k : GKey) : (s.settle k).turn = s.turn := by
  unfold State.settle; simp only
  exact (foldl_keeps State.turn _ (fun a b => by simp) _ _).trans (by simp)
@[simp] theorem State.settle_inbox (s : State) (k : GKey) : (s.settle k).inbox = s.inbox := by
  unfold State.settle; simp only
  exact (foldl_keeps State.inbox _ (fun a b => by simp) _ _).trans (by simp)
@[simp] theorem State.settle_cur (s : State) (k : GKey) : (s.settle k).cur = s.cur := by
  unfold State.settle; simp only
  exact (foldl_keeps State.cur _ (fun a b => by simp) _ _).trans (by simp)
@[simp] theorem State.settle_launches (s : State) (k : GKey) : (s.settle k).launches = s.launches := by
  unfold State.settle; simp only
  exact (foldl_keeps State.launches _ (fun a b => by simp) _ _).trans (by simp)
@[simp] theorem State.settle_lastLine (s : State) (k : GKey) : (s.settle k).lastLine = s.lastLine := by
  unfold State.settle; simp only
  exact (foldl_keeps State.lastLine _ (fun a b => by simp) _ _).trans (by simp)
@[simp] theorem State.settle_slots (s : State) (k : GKey) : (s.settle k).slots = s.slots := by
  unfold State.settle; simp only
  exact (foldl_keeps State.slots _ (fun a b => by simp) _ _).trans (by simp)
@[simp] theorem State.settle_lost (s : State) (k : GKey) : (s.settle k).lost = s.lost := by
  unfold State.settle; simp only
  exact (foldl_keeps State.lost _ (fun a b => by simp) _ _).trans (by simp)
@[simp] theorem State.settle_evicted (s : State) (k : GKey) : (s.settle k).evicted = s.evicted := by
  unfold State.settle; simp only
  exact (foldl_keeps State.evicted _ (fun a b => by simp) _ _).trans (by simp)
@[simp] theorem State.settle_renewed (s : State) (k : GKey) : (s.settle k).renewed = s.renewed := by
  unfold State.settle; simp only
  exact (foldl_keeps State.renewed _ (fun a b => by simp) _ _).trans (by simp)
@[simp] theorem State.settle_retained (s : State) (k : GKey) : (s.settle k).retained = s.retained := by
  unfold State.settle; simp only
  exact (foldl_keeps State.retained _ (fun a b => by simp) _ _).trans (by simp)

/- ### endGens -/

@[simp] theorem State.endGens_clk (s : State)  : (s.endGens).clk = s.clk := by
  unfold State.endGens; simp only; split
  · rfl
  · exact (foldl_keeps State.clk _ (fun a b => by simp) _ _).trans ((foldl_keeps State.clk _ (fun a b => by simp) _ _).trans rfl)
@[simp] theorem State.endGens_tick (s : State)  : (s.endGens).tick = s.tick := by
  unfold State.endGens; simp only; split
  · rfl
  · exact (foldl_keeps State.tick _ (fun a b => by simp) _ _).trans ((foldl_keeps State.tick _ (fun a b => by simp) _ _).trans rfl)
@[simp] theorem State.endGens_turn (s : State)  : (s.endGens).turn = s.turn := by
  unfold State.endGens; simp only; split
  · rfl
  · exact (foldl_keeps State.turn _ (fun a b => by simp) _ _).trans ((foldl_keeps State.turn _ (fun a b => by simp) _ _).trans rfl)
@[simp] theorem State.endGens_inbox (s : State)  : (s.endGens).inbox = s.inbox := by
  unfold State.endGens; simp only; split
  · rfl
  · exact (foldl_keeps State.inbox _ (fun a b => by simp) _ _).trans ((foldl_keeps State.inbox _ (fun a b => by simp) _ _).trans rfl)
@[simp] theorem State.endGens_cur (s : State)  : (s.endGens).cur = s.cur := by
  unfold State.endGens; simp only; split
  · rfl
  · exact (foldl_keeps State.cur _ (fun a b => by simp) _ _).trans ((foldl_keeps State.cur _ (fun a b => by simp) _ _).trans rfl)
@[simp] theorem State.endGens_launches (s : State)  : (s.endGens).launches = s.launches := by
  unfold State.endGens; simp only; split
  · rfl
  · exact (foldl_keeps State.launches _ (fun a b => by simp) _ _).trans ((foldl_keeps State.launches _ (fun a b => by simp) _ _).trans rfl)
@[simp] theorem State.endGens_lastLine (s : State)  : (s.endGens).lastLine = s.lastLine := by
  unfold State.endGens; simp only; split
  · rfl
  · exact (foldl_keeps State.lastLine _ (fun a b => by simp) _ _).trans ((foldl_keeps State.lastLine _ (fun a b => by simp) _ _).trans rfl)
@[simp] theorem State.endGens_slots (s : State)  : (s.endGens).slots = s.slots := by
  unfold State.endGens; simp only; split
  · rfl
  · exact (foldl_keeps State.slots _ (fun a b => by simp) _ _).trans ((foldl_keeps State.slots _ (fun a b => by simp) _ _).trans rfl)
@[simp] theorem State.endGens_lost (s : State)  : (s.endGens).lost = s.lost := by
  unfold State.endGens; simp only; split
  · rfl
  · exact (foldl_keeps State.lost _ (fun a b => by simp) _ _).trans ((foldl_keeps State.lost _ (fun a b => by simp) _ _).trans rfl)
@[simp] theorem State.endGens_evicted (s : State)  : (s.endGens).evicted = s.evicted := by
  unfold State.endGens; simp only; split
  · rfl
  · exact (foldl_keeps State.evicted _ (fun a b => by simp) _ _).trans ((foldl_keeps State.evicted _ (fun a b => by simp) _ _).trans rfl)
@[simp] theorem State.endGens_renewed (s : State)  : (s.endGens).renewed = s.renewed := by
  unfold State.endGens; simp only; split
  · rfl
  · exact (foldl_keeps State.renewed _ (fun a b => by simp) _ _).trans ((foldl_keeps State.renewed _ (fun a b => by simp) _ _).trans rfl)
@[simp] theorem State.endGens_retained (s : State)  : (s.endGens).retained = s.retained := by
  unfold State.endGens; simp only; split
  · rfl
  · exact (foldl_keeps State.retained _ (fun a b => by simp) _ _).trans ((foldl_keeps State.retained _ (fun a b => by simp) _ _).trans rfl)

end Sys2Proof.Machine
end

