-- ==== Sys2Proof/Laws/Canonical.lean ====
section
/-! SUPPORT. The shared operations keep every memory in its canonical form, up to the issue of an instruction whose effect
keeps it. -/

namespace Sys2Proof.Machine

/-- The canonical form rests on the three memories alone. -/
theorem State.Canonical.of_mems {s t : State} (h : s.Canonical) (h1 : t.mem = s.mem) (h2 : t.hostMem = s.hostMem)
    (h3 : t.peerMem = s.peerMem) : t.Canonical := by
  unfold State.Canonical; rw [h1, h2, h3]; exact h

/-- A fold keeps the form where every step does. -/
theorem canonical_foldl {β : Type} {f : State → β → State} (hf : ∀ s x, s.Canonical → (f s x).Canonical) (l : List β)
    {s : State} (h : s.Canonical) : (l.foldl f s).Canonical := by
  induction l generalizing s with
  | nil => exact h
  | cons x t ih => exact ih (hf s x h)

/- ### Updates that touch no memory -/

theorem State.modGroup_canonical {s : State} (h : s.Canonical) (k : GKey) (f : Group → Group) : (s.modGroup k f).Canonical := h
theorem State.modGroups_canonical {s : State} (h : s.Canonical) (f : Group → Group) : (s.modGroups f).Canonical := h
theorem State.modCtx_canonical {s : State} (h : s.Canonical) (n : Nat) (f : Ctx → Ctx) : (s.modCtx n f).Canonical := h
theorem State.modTeam_canonical {s : State} (h : s.Canonical) (k : GKey) (f : Team → Team) : (s.modTeam k f).Canonical := h
theorem State.putFixed_canonical {s : State} (h : s.Canonical) (k : GKey) (n : Nat) (ws : List Write) :
    (s.putFixed k n ws).Canonical := h
theorem State.putVar_canonical {s : State} (h : s.Canonical) (k : GKey) (ws : List Write) (ls : List Nat) :
    (s.putVar k ws ls).Canonical := h
theorem State.setCore_canonical {s : State} (h : s.Canonical) (c : Core) : (s.setCore c).Canonical :=
  h.of_mems (by simp) (by simp) (by simp)
theorem State.modCore_canonical {s : State} (h : s.Canonical) (k : CKey) (f : Core → Core) : (s.modCore k f).Canonical :=
  h.of_mems (by simp) (by simp) (by simp)
theorem State.modPart_canonical {s : State} (h : s.Canonical) (p : PKey) (f : Part → Part) : (s.modPart p f).Canonical :=
  h.of_mems (by simp) (by simp) (by simp)
theorem State.touch_canonical {s : State} (h : s.Canonical) (ctx die : Nat) : (s.touch ctx die).Canonical := h
theorem State.acquire_canonical {s : State} (h : s.Canonical) (die ctx : Nat) (x : Scp) : (s.acquire die ctx x).Canonical :=
  h.of_mems (by simp) (by simp) (by simp)
theorem State.release_canonical {s : State} (h : s.Canonical) (die ctx : Nat) (x : Scp) : (s.release die ctx x).Canonical :=
  h.of_mems (by simp) (by simp) (by simp)
theorem State.releaseCopies_canonical {s : State} (h : s.Canonical) (g : Group) (m : Mask) (x : Scp) :
    (s.releaseCopies g m x).Canonical := h.of_mems (by simp) (by simp) (by simp)
theorem State.markSeen_canonical {s : State} (h : s.Canonical) (k : GKey) (t : Pending → Bool) (x : Scp) :
    (s.markSeen k t x).Canonical := h
theorem State.deliver_canonical {s : State} (h : s.Canonical) (k : GKey) (n : Nat) (ws : List Write) :
    (s.deliver k n ws).Canonical := h
theorem State.keepCopy_canonical {s : State} (h : s.Canonical) (g : Group) (m : Mask) (p : Phys) (fresh : Bool) :
    (s.keepCopy g m p fresh).Canonical := h.of_mems (by simp) (by simp) (by simp)
theorem State.commitLine_canonical {s : State} (h : s.Canonical) (b : Nat) : (s.commitLine b).Canonical :=
  h.of_mems (by simp) (by simp) (by simp)
theorem State.releaseReg_canonical {s : State} (h : s.Canonical) (r : ConvReg) : (s.releaseReg r).Canonical := h
theorem State.bumpGen_canonical {s : State} (h : s.Canonical) (r : ConvReg) : (s.bumpGen r).Canonical :=
  h.of_mems (by simp) (by simp) (by simp)

/- ### Operations that write a memory -/

theorem State.ringEvent_canonical {s : State} (h : s.Canonical) (e : Event) : (s.ringEvent e).Canonical := by
  simp only [State.Canonical, State.ringEvent]
  exact ⟨h.1, Memory.store_wf _ _ h.2.1, h.2.2⟩

theorem State.post_canonical {s : State} (h : s.Canonical) (kind die ctx : Nat) (p0 : Word) (p1 : BitVec 64) :
    (s.post kind die ctx p0 p1).Canonical := by
  simp only [State.post]
  split
  · exact s.ringEvent_canonical h _
  · split <;> exact h

theorem State.haltCtx_canonical {s : State} (h : s.Canonical) (n cause : Nat) (p : FaultRec) :
    (s.haltCtx n cause p).Canonical := by
  unfold State.haltCtx
  split
  · exact h
  · exact State.post_canonical (s.modCtx_canonical h n _) _ _ _ _ _

theorem State.meetLost_canonical {s : State} (h : s.Canonical) (n die : Nat) : (s.meetLost n die).Canonical := by
  unfold State.meetLost
  simp only [State.meetLostAt]
  split
  · exact h
  · exact State.haltCtx_canonical (s.touch_canonical h _ _) _ _ _

theorem State.takeFault_canonical {s : State} (h : s.Canonical) (f : FaultInfo) : (s.takeFault f).Canonical := by
  simp only [State.takeFault]
  split
  · exact h
  · split
    · exact h
    · split
      · exact State.modGroups_canonical (State.meetLost_canonical (s := s.endSteps f) h _ _) _
      · split
        · exact h
        · split
          · exact State.modGroups_canonical (State.haltCtx_canonical (s := (s.endSteps f).writeFaultRegs f _) h _ _ _) _
          · split
            · exact State.modGroups_canonical (State.haltCtx_canonical (s := (s.endSteps f).writeFaultRegs f _) h _ _ _) _
            · exact h

theorem State.returnFault_canonical {s : State} (h : s.Canonical) (g : Group) (k : Rte) (adv : Group → Group) (n : Nat) :
    (s.returnFault g k adv n).Canonical := h

theorem State.zeroFrame_canonical {s : State} (h : s.Canonical) (k : Nat) : (s.zeroFrame k).Canonical := by
  simp only [State.zeroFrame]
  split
  · exact ⟨Memory.filter_wf _ h.1, h.2⟩
  · exact ⟨h.1, Memory.filter_wf _ h.2.1, h.2.2⟩

theorem State.ownFrame_canonical {s : State} (h : s.Canonical) (ctx k : Nat) : (s.ownFrame ctx k).Canonical := by
  simp only [State.ownFrame]
  split
  · exact h
  · split
    · exact s.zeroFrame_canonical h k
    · exact h

theorem State.checkHot_canonical {s : State} (h : s.Canonical) (ctx die k : Nat) : (s.checkHot ctx die k).Canonical := by
  simp only [State.checkHot]
  (repeat' split) <;> first | exact h | exact State.post_canonical (s := { s with hot := s.hot ++ [k] }) h _ _ _ _ _

theorem State.setCount_canonical {s : State} (h : s.Canonical) (k n : Nat) : (s.setCount k n).Canonical :=
  State.checkHot_canonical (s := State.setFrame { s with hot := s.hot.filter (fun x => x != k) } k _) h _ _ _

theorem State.countFrame_canonical {s : State} (h : s.Canonical) (ctx die line : Nat) : (s.countFrame ctx die line).Canonical := by
  unfold State.countFrame
  split
  · exact h
  · exact State.checkHot_canonical (s := State.setFrame { s with lastLine := some line } _ _) h ctx die _

theorem State.reach_canonical {s : State} (h : s.Canonical) (ctx : Nat) (p : Phys) : (s.reach ctx p).Canonical := by
  unfold State.reach
  split
  · exact State.countFrame_canonical (State.ownFrame_canonical (s.touch_canonical h ctx p.die) _ _) _ _ _
  · exact h.of_mems (by simp) (by simp) (by simp)
  · exact h

/- ### Tables and bytes -/

theorem State.putMem_canonical {s : State} (h : s.Canonical) (a : Nat) (bs : List Byte) : (s.putMem a bs).Canonical :=
  ⟨Memory.store_wf _ _ h.1, h.2⟩

theorem State.putEntry_canonical {s : State} (h : s.Canonical) (i off : Nat) (bs : List Byte) : (s.putEntry i off bs).Canonical :=
  h.of_mems (by simp) (by simp) (by simp)

theorem State.putRecord_canonical {s : State} (h : s.Canonical) (k off : Nat) (bs : List Byte) :
    (s.putRecord k off bs).Canonical := by
  simp only [State.putRecord]
  split
  · exact s.setCount_canonical h _ _
  · exact h

theorem State.putTables_canonical (n : Nat) {s : State} (h : s.Canonical) (a : Nat) (bs : List Byte) :
    (s.putTables a bs n).Canonical := by
  induction n generalizing s a bs with
  | zero => exact h
  | succ n ih =>
    unfold State.putTables
    split
    · exact h
    · refine ih ?_ _ _
      split
      · exact State.putEntry_canonical h _ _ _
      · split
        · dsimp only; apply State.putRecord_canonical h
        · exact State.putMem_canonical h _ _

theorem State.putDev_canonical {s : State} (h : s.Canonical) (a : Nat) (bs : List Byte) : (s.putDev a bs).Canonical := by
  unfold State.putDev
  split
  · exact ⟨h.1, Memory.store_wf _ _ h.2.1, h.2.2⟩
  · split
    · exact State.putTables_canonical _ h _ _
    · exact s.putMem_canonical h _ _

theorem State.putBytes_canonical {s : State} (h : s.Canonical) (sp : Space) (a : Nat) (bs : List Byte) :
    (s.putBytes sp a bs).Canonical := by
  unfold State.putBytes
  split
  · exact State.putDev_canonical (s := { s with poison := s.poison.filter _ }) h _ _
  · exact ⟨h.1, Memory.store_wf _ _ h.2.1, h.2.2⟩
  · exact ⟨h.1, h.2.1, Memory.store_wf _ _ h.2.2⟩
  · exact h

theorem State.perform_canonical {s : State} (h : s.Canonical) (die ctx : Nat) (p : Phys) (bs : List Byte) :
    (s.perform die ctx p bs).Canonical := by
  have h1 := s.putBytes_canonical h p.space p.addr bs
  simp only [State.perform]
  (repeat' split) <;> first | exact h1 | exact h1.of_mems (by simp) (by simp) (by simp)

theorem State.homeWrite_canonical {s : State} (h : s.Canonical) (a : Nat) (bs : List Byte) : (s.homeWrite a bs).Canonical :=
  s.putBytes_canonical h .dev a bs

/- ### Pending accesses -/

theorem State.makeReleases_canonical {s : State} (h : s.Canonical) (g : Group) (p : Pending) : (s.makeReleases g p).Canonical :=
  canonical_foldl (fun _ _ ht => State.releaseCopies_canonical (State.markSeen_canonical ht _ _ _) _ _ _) _ h

theorem State.makeAcquires_canonical {s : State} (h : s.Canonical) (g : Group) (p : Pending) : (s.makeAcquires g p).Canonical :=
  canonical_foldl (fun _ _ ht => State.acquire_canonical ht _ _ _) _ h

theorem State.performOp_canonical {s : State} (h : s.Canonical) (g : Group) (p : Pending) : (s.performOp g p).Canonical := by
  have hw : ∀ a bs g p l, ((s.homeWrite a bs).barCopyFor g p l).Canonical := fun a bs _ _ _ =>
    (s.homeWrite_canonical h a bs).of_mems (by simp) (by simp) (by simp)
  have hr : ∀ (b : Bool) a bs g p l, (if b = true then (s.homeWrite a bs).barCopyFor g p l else s).Canonical := by
    intro b a bs g p l; split; exact hw _ _ _ _ _; exact h
  simp only [State.performOp]
  split
  · exact h
  · split
    · exact State.deliver_canonical (s.keepCopy_canonical h _ _ _ _) _ _ _
    · exact State.deliver_canonical h _ _ _
  · split
    · exact s.perform_canonical h _ _ _ _
    · exact h
  · split
    · exact State.deliver_canonical (hr _ _ _ _ _ _) _ _ _
    · exact hr _ _ _ _ _ _
  · split
    · exact h
    · split
      · exact hw _ _ _ _ _
      · exact (State.modGroup_canonical (s := s.setPoison _) h _ _)

theorem State.performOne_canonical {s : State} (h : s.Canonical) (k : GKey) (p : Pending) : (s.performOne k p).Canonical := by
  simp only [State.performOne]
  have h1 : ∀ l : List (Phys × Nat), (l.foldl (fun s x =>
      if x.1.space == .dev && s.inTransit x.1.buf x.1.line then s.commitLine x.1.buf else s) s).Canonical := fun l =>
    canonical_foldl (fun t x ht => by split; exact t.commitLine_canonical ht _; exact ht) l h
  split
  · exact h1 _
  · next g _ =>
    have h2 : ∀ (b : Bool) (u : State), u.Canonical → (if b = true then u.makeReleases g p else u).Canonical := by
      intro b u hu; split
      · exact u.makeReleases_canonical hu g p
      · exact hu
    split
    · exact State.makeAcquires_canonical (State.performOp_canonical (h2 _ _ (h1 _)) _ _) _ _
    · exact State.performOp_canonical (h2 _ _ (h1 _)) _ _

theorem State.performWith_canonical {first : GKey → (Pending → Bool) → State → State}
    (hf : ∀ k t (s : State), s.Canonical → (first k t s).Canonical) {s : State} (h : s.Canonical) (k : GKey) (p : Pending) :
    (s.performWith first k p).Canonical := by
  unfold State.performWith
  split
  · exact h
  · split
    · exact h
    · exact State.modGroup_canonical (State.performOne_canonical
        (canonical_foldl (fun t x ht => hf _ _ t ht) _ (s.modGroup_canonical h _ _)) _ _) _ _

theorem State.performSome_canonical (n : Nat) (k : GKey) (t : Pending → Bool) {s : State} (h : s.Canonical) :
    (State.performSome n k t s).Canonical := by
  induction n generalizing k t s with
  | zero => exact h
  | succ n ih => exact canonical_foldl (fun u _ hu => State.performWith_canonical (fun k t s hs => ih k t hs) hu _ _) _ h

theorem State.performNeed_canonical {s : State} (h : s.Canonical) (k : GKey) (need : Pending → Bool) :
    (s.performNeed k need).Canonical := by
  exact State.performSome_canonical _ _ _ h

theorem State.letPass_canonical {s : State} (h : s.Canonical) (k : GKey) (m : Mask) (t : Pending → Bool) :
    (s.letPass k m t).Canonical := by
  have h1 := s.performNeed_canonical h k (fun e => t e && e.of m && e.acq == some .system)
  simp only [State.letPass]
  split
  · exact h1
  · exact canonical_foldl (fun u _ hu =>
      State.acquire_canonical (State.modGroup_canonical (State.markSeen_canonical hu _ _ _) _ _) _ _ _) _ h1

theorem State.performNth_canonical {s : State} (h : s.Canonical) (k : GKey) (n : Nat) : (s.performNth k n).Canonical := by
  unfold State.performNth
  split
  · exact h
  · split
    · exact h
    · split
      · refine State.performWith_canonical (fun k t s hs => State.performSome_canonical _ k t hs) ?_ _ _
        split
        · exact s.letPass_canonical h _ _ _
        · exact h
      · exact h

theorem State.pullIf_canonical {s : State} (h : s.Canonical) (t : Group → Pending → Bool) : (s.pullIf t).Canonical :=
  canonical_foldl (fun u _ hu => u.performNeed_canonical hu _ _) _ h

theorem State.pull_canonical {s : State} (h : s.Canonical) (k : GKey) (t : Pending → Bool) : (s.pull k t).Canonical := by
  unfold State.pull
  split
  · exact h
  · exact s.pullIf_canonical h _

theorem State.passOn_canonical {s : State} (h : s.Canonical) (k : GKey) (m : Mask) (n : Nat) (x : Scp) :
    (s.passOn k m n x).Canonical := by
  unfold State.passOn
  split
  · exact h
  · exact s.pullIf_canonical h _

theorem State.orderBefore_canonical {s : State} (h : s.Canonical) (k : GKey) (x : Scp) (t : Pending → Bool) :
    (s.orderBefore k x t).Canonical := by
  unfold State.orderBefore
  split
  · exact s.performNeed_canonical h k _
  · exact State.markSeen_canonical (s.letPass_canonical h k _ _) k t x

theorem State.releaseLanes_canonical {s : State} (h : s.Canonical) (k : GKey) (m : Mask) (x : Scp) :
    (s.releaseLanes k m x).Canonical := by
  have h1 := State.orderBefore_canonical (s.passOn_canonical h k m s.tick x) k x (fun e => e.of m)
  simp only [State.releaseLanes]
  split
  · exact h1
  · exact State.releaseCopies_canonical h1 _ _ _

theorem State.fenceArTeam_canonical {s : State} (h : s.Canonical) (k : GKey) (m : Mask) : (s.fenceArTeam k m).Canonical :=
  State.modGroup_canonical (s.releaseLanes_canonical h k m .team) k _

/- ### Settling -/

theorem State.releaseMask_canonical {s : State} (h : s.Canonical) (k : GKey) (n : Nat) : (s.releaseMask k n).Canonical := by
  unfold State.releaseMask
  split
  · exact h
  · simp only
    split
    · exact h
    · exact State.modGroup_canonical (State.releaseLanes_canonical (s.performNeed_canonical h k _) k _ .team) _ _

theorem State.releaseMasks_canonical {s : State} (h : s.Canonical) (k : GKey) : (s.releaseMasks k).Canonical := by
  suffices ∀ n (s : State), s.Canonical → (State.releaseRounds k n s).Canonical from this 12 s h
  intro n
  induction n with
  | zero => exact fun s h => h
  | succ n ih =>
    intro s h
    have h1 : ∀ l : List Nat, (l.foldl (fun s j => s.releaseMask k j) s).Canonical := fun l =>
      canonical_foldl (fun t j ht => t.releaseMask_canonical ht k j) l h
    simp only [State.releaseRounds]
    split
    · exact h
    · split
      · exact h1 _
      · exact ih _ (h1 _)

theorem State.endGen_canonical {s : State} (h : s.Canonical) (c : Completion) : (s.endGen c).Canonical := by
  have h1 : ∀ (l : List Group) (ms : List Member),
      (ms.foldl (fun s m => s.modGroup m.key (fun g => g.setWait m.lanes (.issuing c.scope)))
        (l.foldl (fun s y => s.fenceArTeam y.key y.live) (s.bumpGen c.reg))).Canonical := fun l ms =>
    canonical_foldl (fun t m ht => t.modGroup_canonical ht _ _) _
      (canonical_foldl (fun t y ht => t.fenceArTeam_canonical ht _ _) _ (s.bumpGen_canonical h c.reg))
  refine State.releaseReg_canonical ?_ _
  simp only
  split
  · exact h1 _ _
  · split <;> exact (h1 _ _).of_mems rfl rfl rfl

theorem State.tryComplete_canonical {s : State} (h : s.Canonical) (k : GKey) (x : Scope) : (s.tryComplete k x).Canonical := by
  unfold State.tryComplete
  split
  · exact h
  · simp only
    split
    · exact h
    · split
      · exact s.endGen_canonical h _
      · exact h

theorem State.splitTest_canonical {s : State} (h : s.Canonical) (k : GKey) : (s.splitTest k).Canonical := by
  unfold State.splitTest
  have hr : ∀ sc gs, (s.raiseSplit sc gs).Canonical := fun sc gs => s.takeFault_canonical h _
  split
  · exact h
  · simp only
    split
    · exact h
    · split
      · exact hr _ _
      · split
        · exact hr _ _
        · split
          · exact hr _ _
          · exact h

theorem State.settle_canonical {s : State} (h : s.Canonical) (k : GKey) : (s.settle k).Canonical :=
  canonical_foldl (fun t j ht => t.splitTest_canonical ht j) _ (State.splitTest_canonical (State.modGroup_canonical
    (canonical_foldl (fun t sc ht => t.tryComplete_canonical ht k sc) _ (s.releaseMasks_canonical h k)) _ _) _)

theorem State.endGens_canonical {s : State} (h : s.Canonical) : s.endGens.Canonical := by
  simp only [State.endGens]
  split
  · exact h
  · exact canonical_foldl (fun t k ht => t.settle_canonical ht k) _
      (canonical_foldl (fun t c ht => t.endGen_canonical ht c) _ (h.of_mems rfl rfl rfl))

/- ### The issue of an instruction -/

theorem State.qReach_canonical {s : State} (h : s.Canonical) (g : Group) (b : QBind) : (s.qReach g b).Canonical := by
  refine canonical_foldl (fun t l ht => ?_) _ h
  split
  · simp only
    refine State.keepCopy_canonical ?_ _ _ _ _
    refine State.reach_canonical ?_ _ _
    refine State.pull_canonical ?_ _ _
    exact State.performNeed_canonical ht _ _
  · exact State.touch_canonical ht _ _
  · exact ht

theorem State.qEnsure_canonical {s : State} (h : s.Canonical) (k : GKey) (n : Nat) : (s.qEnsure k n).Canonical := by
  unfold State.qEnsure
  split
  · unfold State.qFetch
    split
    · exact h
    · exact State.modGroup_canonical (State.qReach_canonical (s.letPass_canonical h _ _ _) _ _) _ _
  · exact h

theorem State.qMiss_canonical {s : State} (h : s.Canonical) (k : GKey) (n : Nat) : (s.qMiss k n).Canonical := by
  unfold State.qMiss
  split
  · exact s.post_canonical h _ _ _ _ _
  · exact h

theorem State.qForget_canonical {s : State} (h : s.Canonical) (k : GKey) (n : Nat) : (s.qForget k n).Canonical := by
  unfold State.qForget
  split <;> exact h

theorem State.onWalks_canonical {s : State} (h : s.Canonical) (d : Desc) {f : State → GKey → Nat → State}
    (hf : ∀ t k n, t.Canonical → (f t k n).Canonical) : (s.onWalks d f).Canonical := by
  unfold State.onWalks
  split
  · exact h
  · exact canonical_foldl (fun t m ht => canonical_foldl (fun u n hu => hf u m.key n hu) _ ht) _ h

theorem State.passAll_canonical {s : State} (h : s.Canonical) : s.passAll.Canonical := by
  unfold State.passAll
  split
  · split <;> exact h
  · exact canonical_foldl (fun t m ht => t.modGroup_canonical ht _ _) _ h

theorem State.stampAll_canonical {s : State} (h : s.Canonical) (c : Ctl) (d : Desc) (pen : Nat) (y : Bool) :
    (s.stampAll c d pen y).Canonical := by
  simp only [State.stampAll]
  split
  · exact canonical_foldl (fun t p ht => t.modPart_canonical ht _ _) _ h
  · exact h

theorem State.settleAll_canonical {s : State} (h : s.Canonical) : s.settleAll.Canonical :=
  canonical_foldl (fun t m ht => t.settle_canonical ht m.key) _ h

theorem State.holdIssue_canonical {s : State} (h : s.Canonical) : s.holdIssue.Canonical := by
  unfold State.holdIssue
  split
  · exact h
  · exact h
  · split <;> exact h

theorem State.laneFault_canonical {s : State} (h : s.Canonical) (i : Instr) (c : Ctl) (fs : List LaneFault) :
    (s.laneFault i c fs).Canonical := by
  unfold State.laneFault State.faultOf
  split
  · exact h
  · exact s.takeFault_canonical h _

/-- The state that an effect comes to. -/
def Eff.state : Eff → State
  | .done s => s
  | .moved s _ => s
  | .waits s => s
  | .hold s => s
  | .fault s _ => s

theorem State.endStep_canonical {s : State} (h : s.Canonical) (k : GKey) : (s.endStep k).Canonical := by
  simp only [State.endStep]
  split <;> exact h

theorem finish_canonical {e : Eff} (h : e.state.Canonical) (i : Instr) (c : Ctl) (d : Desc) : (finish i c d e).Canonical := by
  cases e with
  | done s => exact State.settleAll_canonical (State.stampAll_canonical (State.passAll_canonical
      (State.onWalks_canonical h d (fun t k n ht => t.modGroup_canonical ht k _))) _ _ _ _)
  | moved s p => exact State.settleAll_canonical (State.stampAll_canonical
      (State.onWalks_canonical h d (fun t k n ht => t.modGroup_canonical ht k _)) _ _ _ _)
  | waits s => exact canonical_foldl (fun t m ht => t.endStep_canonical ht m.key) _ (State.settleAll_canonical h)
  | hold s => exact State.holdIssue_canonical h
  | fault s fs => exact State.settleAll_canonical (State.laneFault_canonical (State.stampAll_canonical h _ _ _ _) _ _ _)

theorem State.pastAcquires_canonical {s : State} (h : s.Canonical) : s.pastAcquires.Canonical :=
  canonical_foldl (fun t m ht => t.letPass_canonical ht m.key _ _) _ h

theorem besideFaults_canonical {s : State} (h : s.Canonical) (b : Bool) (fs : List LaneFault) {eff : State → Eff}
    (he : ∀ t, t.Canonical → (eff t).state.Canonical) : (besideFaults b fs s eff).state.Canonical := by
  simp only [besideFaults]
  split
  · exact h
  · have h1 := he (s.withoutLanes (fs.map (·.key))) h
    split <;> rename_i x e <;> rw [e] at h1 <;> exact h1

theorem run_canonical {s : State} (h : s.Canonical) (i : Instr) (c : Ctl) (d : Desc) {eff : State → Eff}
    (he : ∀ t, t.Canonical → (eff t).state.Canonical) : (run i c d s eff).Canonical := by
  simp only [run]
  have h0 : (if directAccess i = true then s.pastAcquires else s).Canonical := by
    split
    · exact s.pastAcquires_canonical h
    · exact h
  generalize (if directAccess i = true then s.pastAcquires else s) = u at h0 ⊢
  have h1 := State.onWalks_canonical h0 d (fun t k n ht => t.qEnsure_canonical ht k n)
  split
  · exact finish_canonical (e := .hold s) h i c d
  · split
    · exact finish_canonical (he _ h1) i c d
    · exact finish_canonical (besideFaults_canonical (State.onWalks_canonical
        (State.onWalks_canonical h1 d (fun t k n ht => t.qMiss_canonical ht k n)) d (fun t k n ht => t.qForget_canonical ht k n)) _ _ he) i c d

/-- The issue of an instruction whose effect keeps the canonical form keeps it. -/
theorem issueWith_canonical {b : Bool} {i : Instr} {c : Ctl} {s t : State} {eff : State → Eff} (h : s.Canonical)
    (he : ∀ u, u.Canonical → (eff u).state.Canonical) (hn : issueWith b i c s eff = .next t) : t.Canonical := by
  unfold issueWith at hn
  split at hn
  · split at hn
    · split at hn
      · cases hn; exact State.settleAll_canonical (s.takeFault_canonical h _)
      · cases hn; exact run_canonical h i c _ he
    · split at hn
      · cases hn; exact State.settle_canonical (s.takeFault_canonical h _) _
      · split at hn
        · cases hn; exact run_canonical h i c _ he
        · cases hn
          unfold arrive
          simp only
          split
          · split
            · exact State.endStep_canonical (State.settle_canonical (s.modGroup_canonical h _ _) _) _
            · exact run_canonical (s := _) (by exact h) i c _ he
          · exact State.endStep_canonical (State.settle_canonical (s.modGroup_canonical h _ _) _) _
  · cases hn

end Sys2Proof.Machine
end

