-- ==== Sys2Proof/Laws/Float.lean ====
section
/-! SUPPORT. The shared effect of the floating-point instructions where no lane faults on its values. -/

namespace Sys2Proof.Machine

theorem fpStep_quiet {lat : Option Nat} {d : Opd} {how : FpDst} {srcs : List (Nat × Opd)} {out : State → Group → FpOut}
    {s : State} {x : Group × Mask} (he : enablesOf x.1.fpstat = 0)
    (hm : s.nomark x.1.ctx = true ∨ s.markerFaults x.1 d.isScalarDst x.2 srcs = []) (t : State) (fs : List LaneFault) :
    fpStep lat d how srcs out s (t, fs) x = (fpPut lat d how out s t x, fs) := by
  have hmf : (if s.nomark x.1.ctx = true then [] else s.markerFaults x.1 d.isScalarDst x.2 srcs) = [] := by
    rcases hm with h | h <;> simp [h]
  simp only [fpStep, fpPut, fpResults, hmf, he, faultMask, List.foldl_nil, if_true, List.append_nil, beq_iff_eq]
  have hz : ∀ m : Mask, m &&& ~~~(0 : Mask) = m := fun m => by
    rw [show ~~~(0 : Mask) = BitVec.allOnes 64 by decide, BitVec.and_allOnes]
  simp only [hz]
  all_goals cases lat <;> cases how <;> simp

/-- Where no lane can fault on its values the effect is done, with the results and flags of every member. -/
theorem fpEff_quiet {c : Ctl} {lat : Option Nat} {d : Opd} {how : FpDst} {srcs : List (Nat × Opd)}
    {out : State → Group → FpOut} {s : State} (h : s.FpQuiet c d srcs) :
    fpEff c lat d how srcs out s = .done (fpState c lat d how out s) := by
  have key : ∀ (l : List (Group × Mask)) (t : State),
      (∀ x ∈ l, enablesOf x.1.fpstat = 0 ∧ (s.nomark x.1.ctx = true ∨ s.markerFaults x.1 d.isScalarDst x.2 srcs = [])) →
      l.foldl (fpStep lat d how srcs out s) (t, []) = (l.foldl (fpPut lat d how out s) t, []) := by
    intro l
    induction l with
    | nil => intros; rfl
    | cons x l ih =>
      intro t hx
      have hx1 := hx x (by simp)
      rw [List.foldl_cons, List.foldl_cons, fpStep_quiet hx1.1 hx1.2, ih _ (fun y hy => hx y (by simp [hy]))]
  simp [fpEff, key _ s h, fpState]

/-- What a member group leaves, and its faults, whatever its lanes do. -/
theorem fpStep_live (lat : Option Nat) (d : Opd) (how : FpDst) (srcs : List (Nat × Opd)) (out : State → Group → FpOut) (s t : State)
    (fs : List LaneFault) (x : Group × Mask) :
    fpStep lat d how srcs out s (t, fs) x = (fpPutLive lat d how srcs out s t x, fs ++ fpFaults d srcs out s x) := by
  simp only [fpStep, fpPutLive, fpFaults, fpTrapped, fpLive, fpMarks, fpResults, List.map_map, List.append_assoc, beq_iff_eq]
  rfl

/-- The effect of a floating-point instruction, said once: done where no lane faults, else the fault of those that do. -/
theorem fpEff_live (c : Ctl) (lat : Option Nat) (d : Opd) (how : FpDst) (srcs : List (Nat × Opd)) (out : State → Group → FpOut)
    (s : State) : fpEff c lat d how srcs out s =
      if ((s.execs c).flatMap (fpFaults d srcs out s)).isEmpty then .done ((s.execs c).foldl (fpPutLive lat d how srcs out s) s)
      else .fault ((s.execs c).foldl (fpPutLive lat d how srcs out s) s) ((s.execs c).flatMap (fpFaults d srcs out s)) := by
  have key : ∀ (l : List (Group × Mask)) (t : State) (fs : List LaneFault), l.foldl (fpStep lat d how srcs out s) (t, fs) =
      (l.foldl (fpPutLive lat d how srcs out s) t, fs ++ l.flatMap (fpFaults d srcs out s)) := by
    intro l
    induction l with
    | nil => simp
    | cons x l ih => intro t fs; rw [List.foldl_cons, fpStep_live, ih]; simp
  simp only [fpEff, key, List.nil_append]

end Sys2Proof.Machine
end

