-- ==== Sys2Proof/Laws/Groups.lean ====
section
/-! SUPPORT. Finding a group, a context or a core after an update, entries of lists after a write, lanes after a merge,
and the settling of groups that wait for nothing. -/

namespace Sys2Proof.Machine

/- ### Lists -/

theorem nth_setAt_same {α : Type} (d : α) (l : List α) (n : Nat) (x : α) (h : n < l.length) : nth d (setAt l n x) n = x := by
  induction l generalizing n with
  | nil => simp at h
  | cons y t ih => cases n with
    | zero => rfl
    | succ n => exact ih n (by simpa using h)

theorem nth_setAt_other {α : Type} (d : α) (l : List α) {n k : Nat} (x : α) (h : k ≠ n) : nth d (setAt l n x) k = nth d l k := by
  induction l generalizing n k with
  | nil => rfl
  | cons y t ih => cases n <;> cases k <;> simp_all [setAt, nth]

theorem nth_modAt_same {α : Type} (d : α) (l : List α) (n : Nat) (f : α → α) (h : n < l.length) :
    nth d (modAt l n f) n = f (nth d l n) := by
  induction l generalizing n with
  | nil => simp at h
  | cons y t ih => cases n with
    | zero => rfl
    | succ n => exact ih n (by simpa using h)

theorem nth_modAt_other {α : Type} (d : α) (l : List α) {n k : Nat} (f : α → α) (h : k ≠ n) :
    nth d (modAt l n f) k = nth d l k := by
  induction l generalizing n k with
  | nil => rfl
  | cons y t ih => cases n <;> cases k <;> simp_all [modAt, nth]

@[simp] theorem length_setAt {α : Type} (l : List α) (n : Nat) (x : α) : (setAt l n x).length = l.length := by
  induction l generalizing n with
  | nil => rfl
  | cons y t ih => cases n <;> simp [setAt, ih]

@[simp] theorem length_modAt {α : Type} (l : List α) (n : Nat) (f : α → α) : (modAt l n f).length = l.length := by
  induction l generalizing n with
  | nil => rfl
  | cons y t ih => cases n <;> simp [modAt, ih]

theorem nth_eq_getElem {α : Type} (d : α) (l : List α) (n : Nat) (h : n < l.length) : nth d l n = l[n] := by
  induction l generalizing n with
  | nil => simp at h
  | cons y t ih => cases n with
    | zero => rfl
    | succ n => exact ih n (by simpa using h)

theorem nth_beyond {α : Type} (d : α) (l : List α) (n : Nat) (h : l.length ≤ n) : nth d l n = d := by
  induction l generalizing n with
  | nil => rfl
  | cons y t ih => cases n with
    | zero => simp at h
    | succ n => exact ih n (by simpa using h)

/- ### Lanes -/

theorem bitOf_toNat (m : Mask) (i : Nat) : bitOf m.toNat i = laneBit m i := by
  simp [bitOf, laneBit, BitVec.getLsbD, Nat.testBit, Nat.shiftRight_eq_div_pow]

theorem nth_mergeFrom (d : Word) (m k : Nat) (o x : Lanes) (i : Nat) (hl : o.length = x.length) (hi : i < o.length) :
    nth d (mergeFrom m k o x) i = if bitOf m (k + i) then nth d x i else nth d o i := by
  induction o generalizing k x i with
  | nil => simp at hi
  | cons a t ih => cases x with
    | nil => simp at hl
    | cons b u => cases i with
      | zero => simp [mergeFrom, nth]
      | succ i =>
        simp only [mergeFrom, nth]
        rw [ih (k + 1) u i (by simpa using hl) (by simpa using hi)]
        simp [Nat.add_right_comm, Nat.add_assoc]

/-- A merge under a mask takes the new value in the lanes of the mask and keeps the old one in the others. -/
theorem nth_mergeLanes (m : Mask) (o x : Lanes) (i : Nat) (hl : o.length = x.length) (hi : i < o.length) :
    nth 0 (mergeLanes m o x) i = if laneBit m i then nth 0 x i else nth 0 o i := by
  rw [mergeLanes, nth_mergeFrom 0 _ 0 o x i hl hi, Nat.zero_add, bitOf_toNat]

/- ### Finding after an update -/

theorem State.group?_modGroup (s : State) (k : GKey) (f : Group → Group) (hf : ∀ g, (f g).key = g.key) (j : GKey) :
    (s.modGroup k f).group? j = (s.group? j).map (fun g => if g.key == k then f g else g) := by
  simp only [State.group?, State.modGroup, List.find?_map]
  congr 2
  funext g
  simp only [Function.comp]
  split <;> simp_all

theorem State.group?_key {s : State} {k : GKey} {g : Group} (h : s.group? k = some g) : g.key = k := by
  simpa using List.find?_some h

theorem State.group?_mem {s : State} {k : GKey} {g : Group} (h : s.group? k = some g) : g ∈ s.groups := List.mem_of_find?_eq_some h

theorem State.group?_modGroup_same {s : State} {k : GKey} {f : Group → Group} (hf : ∀ g, (f g).key = g.key) {g : Group}
    (h : s.group? k = some g) : (s.modGroup k f).group? k = some (f g) := by
  rw [State.group?_modGroup s k f hf, h]
  simp [State.group?_key h]

theorem State.group?_modGroup_other {s : State} {k j : GKey} {f : Group → Group} (hf : ∀ g, (f g).key = g.key) (h : j ≠ k) :
    (s.modGroup k f).group? j = s.group? j := by
  rw [State.group?_modGroup s k f hf]
  cases hg : s.group? j with
  | none => rfl
  | some g => simp [State.group?_key hg, h]

theorem State.group?_modGroups (s : State) (f : Group → Group) (hf : ∀ g, (f g).key = g.key) (j : GKey) :
    (s.modGroups f).group? j = (s.group? j).map f := by
  simp only [State.group?, State.modGroups, List.find?_map]
  congr 2
  funext g
  simp [hf]

theorem State.ctx?_modCtx (s : State) (n : Nat) (f : Ctx → Ctx) (hf : ∀ c, (f c).num = c.num) (j : Nat) :
    (s.modCtx n f).ctx? j = (s.ctx? j).map (fun c => if c.num == n then f c else c) := by
  simp only [State.ctx?, State.modCtx, List.find?_map]
  congr 2
  funext g
  simp only [Function.comp]
  split <;> simp_all

@[simp] theorem State.group?_modCtx (s : State) (n : Nat) (f : Ctx → Ctx) (j : GKey) : (s.modCtx n f).group? j = s.group? j := rfl
@[simp] theorem State.group?_modCore (s : State) (n : CKey) (f : Core → Core) (j : GKey) : (s.modCore n f).group? j = s.group? j := by
  simp [State.group?]
@[simp] theorem State.group?_modPart (s : State) (n : PKey) (f : Part → Part) (j : GKey) : (s.modPart n f).group? j = s.group? j := by
  simp [State.group?]

theorem State.core_setCore_same (s : State) (c : Core) : (s.setCore c).core c.key = c := by
  unfold State.setCore State.core
  split
  next h =>
    rw [List.find?_map]
    obtain ⟨x, hx, hk⟩ := List.any_eq_true.1 h
    cases hf : s.cores.find? ((fun y => y.key == c.key) ∘ fun y => if (y.key == c.key) = true then c else y) with
    | none =>
      have := List.find?_eq_none.1 hf x hx
      simp only [Function.comp, hk, if_true, beq_self_eq_true, not_true] at this
    | some y =>
      have := List.find?_some hf
      simp only [Function.comp] at this
      simp only [Option.map_some, Option.getD_some]
      split
      · rfl
      · next hn => rw [if_neg hn] at this; exact absurd this hn
  next h =>
    have : s.cores.find? (fun y => y.key == c.key) = none := by
      rw [List.find?_eq_none]
      intro y hy hk
      exact h (List.any_eq_true.2 ⟨y, hy, hk⟩)
    rw [List.find?_append, this]
    simp

theorem State.core_setCore_other (s : State) (c : Core) {k : CKey} (hk : k ≠ c.key) : (s.setCore c).core k = s.core k := by
  unfold State.setCore State.core
  split
  · rw [List.find?_map]
    have : ((fun y : Core => y.key == k) ∘ fun y => if (y.key == c.key) = true then c else y) = fun y => y.key == k := by
      funext y
      simp only [Function.comp]
      split
      next h =>
        have h1 : y.key = c.key := by simpa using h
        have h2 : (c.key == k) = false := by simpa using fun h => hk h.symm
        have h3 : (y.key == k) = false := by rw [h1]; exact h2
        rw [h2, h3]
      · rfl
    rw [this]
    cases hf : s.cores.find? (fun y => y.key == k) with
    | none => rfl
    | some y =>
      have h1 : y.key = k := by simpa using List.find?_some hf
      simp [h1, hk]
  · rw [List.find?_append]
    cases s.cores.find? (fun y => y.key == k) with
    | some y => rfl
    | none => simp [Ne.symm hk]

/- ### Settling where nothing waits -/

theorem maskFrom_false (i n : Nat) : maskFrom (fun _ => false) i n = 0 := by
  induction n generalizing i with
  | zero => rfl
  | succ n ih => simp [maskFrom, ih]

theorem maskOf_false {f : Nat → Bool} (h : ∀ i, f i = false) : maskOf f = 0 := by
  have : f = fun _ => false := funext h
  rw [this, maskOf, maskFrom_false]
  rfl

theorem Group.Calm.waiting {g : Group} (h : g.Calm) {f : LaneWait → Bool} (hf : f .free = false) : g.waiting f = 0 := by
  unfold Group.waiting
  rw [maskOf_false (f := fun i => f (nth .free g.wait i)) (fun i => by simp only [h.2.1 i]; exact hf)]
  exact BitVec.and_zero

theorem Group.Calm.sig {g : Group} (h : g.Calm) (sc : Scope) (i : Nat) : nth none (g.sig sc) i = none := by
  cases sc
  · simp [Group.sig, nth]
  · exact h.2.2.1 i
  · exact h.2.2.2.1 i
  · exact h.2.2.2.2 i

theorem State.parkedOf_calm {s : State} (h : s.Calm) (k : GKey) : s.parkedOf k = 0 := by
  unfold State.parkedOf
  split
  · rfl
  · next g hg => exact (h g (State.group?_mem hg)).waiting rfl

theorem State.releaseMasks_calm {s : State} (h : s.Calm) (k : GKey) : s.releaseMasks k = s := by
  simp [State.releaseMasks, State.releaseRounds, State.parkedOf_calm h]

theorem State.arrivedOrSigned_calm {s : State} {g : Group} (h : g.Calm) (sc : Scope) : s.arrivedOrSigned g sc = 0 := by
  unfold State.arrivedOrSigned State.signedFor
  rw [maskOf_false (fun i => by simp only [h.2.1 i]; rfl), maskOf_false (fun i => by simp [h.sig _ i])]
  simp

theorem State.members_mem {s : State} {g : Group} (hg : g ∈ s.groups) (sc : Scope) : ∀ x ∈ s.members g sc, x ∈ s.groups := by
  have team : ∀ k, ∀ x ∈ s.teamGroups k, x ∈ s.groups := by
    intro k x hx
    obtain ⟨i, _, h⟩ := List.mem_filterMap.1 hx
    exact State.group?_mem h
  intro x hx
  cases sc with
  | lane => simp [State.members] at hx; exact hx ▸ hg
  | group => simp [State.members] at hx; exact hx ▸ hg
  | party =>
    simp only [State.members, State.partyGroups] at hx
    split at hx
    · simp at hx; exact hx ▸ hg
    · exact team _ x (List.mem_filter.1 hx).1
  | team => exact team _ x hx

theorem State.tryComplete_calm {s : State} (h : s.Calm) (k : GKey) (sc : Scope) : s.tryComplete k sc = s := by
  unfold State.tryComplete
  split
  · rfl
  · next g hg =>
    simp only
    rw [if_pos]
    cases hgs : (s.members g sc).filter (fun x => x.live != 0) with
    | nil => rfl
    | cons x t =>
      have hx : x ∈ (s.members g sc).filter (fun x => x.live != 0) := by rw [hgs]; simp
      obtain ⟨hm, hl⟩ := List.mem_filter.1 hx
      have hc := h x (State.members_mem (State.group?_mem hg) sc x hm)
      have : (s.arrivedOrSigned x sc == x.live) = false := by
        rw [State.arrivedOrSigned_calm hc sc]
        simpa using fun e : (0 : Mask) = x.live => by simp [← e] at hl
      simp [this]

theorem State.splitSet_calm {s : State} {gs : List Group} (h : ∀ g ∈ gs, g.Calm ∧ g.live ≠ 0) : s.splitSet gs = false := by
  cases gs with
  | nil => rfl
  | cons g t =>
    obtain ⟨hc, hl⟩ := h g (by simp)
    have : lanesOf g.live ≠ [] := by
      intro he
      apply hl
      apply BitVec.eq_of_getLsbD_eq
      intro i hi
      have := List.filter_eq_nil_iff.1 he i (by simpa using hi)
      simpa [laneBit] using this
    obtain ⟨i, hi⟩ := List.exists_mem_of_ne_nil _ this
    unfold State.splitSet
    rw [List.all_cons, Bool.and_eq_false_iff]
    right
    rw [Bool.and_eq_false_iff]
    left
    rw [Bool.and_eq_false_iff]
    right
    rw [List.all_eq_false]
    exact ⟨i, hi, by simp [hc.2.1 i]⟩

theorem State.splitTest_calm {s : State} (h : s.Calm) (k : GKey) : s.splitTest k = s := by
  unfold State.splitTest
  split
  · rfl
  · next g hg =>
    have team : ∀ x ∈ (s.teamGroups k).filter (fun x => x.live != 0), x.Calm ∧ x.live ≠ 0 := by
      intro x hx
      obtain ⟨hm, hl⟩ := List.mem_filter.1 hx
      obtain ⟨i, _, hh⟩ := List.mem_filterMap.1 hm
      exact ⟨h x (State.group?_mem hh), by simpa using hl⟩
    simp only
    split
    · rfl
    · have h1 : ((s.teamGroups k).filter (fun x => x.live != 0)).find? (fun x => s.splitSet [x]) = none := by
        rw [List.find?_eq_none]
        intro x hx
        rw [State.splitSet_calm (by intro y hy; simp at hy; exact hy ▸ team x hx)]
        simp
      have h2 : (partiesOf ((s.teamGroups k).filter (fun x => x.live != 0))).find? (fun ps => 1 < ps.length && s.splitSet ps) = none := by
        rw [List.find?_eq_none]
        intro ps hps
        obtain ⟨y, _, rfl⟩ := List.mem_map.1 hps
        rw [State.splitSet_calm (fun z hz => team z (List.mem_filter.1 hz).1)]
        simp
      rw [h1, h2]
      simp only
      rw [State.splitSet_calm team]
      simp

theorem State.normLevels_calm {s : State} (h : s.Calm) (k : GKey) : s.modGroup k Group.normLevels = s := by
  have : s.groups.map (fun g => if g.key == k then g.normLevels else g) = s.groups := by
    conv => rhs; rw [← List.map_id s.groups]
    apply List.map_congr_left
    intro g hg
    split
    · simp [Group.normLevels, (h g hg).1]
    · rfl
  unfold State.modGroup
  rw [this]

theorem State.watchers_calm {s : State} (h : s.Calm) (k : GKey) : s.watchers k = [] := by
  unfold State.watchers
  split
  · rfl
  · split
    · rfl
    · rw [List.map_eq_nil_iff, List.filter_eq_nil_iff]
      intro x hx
      rw [(h x hx).waiting rfl]
      simp

/-- Where nothing waits, settling changes nothing. -/
theorem State.settle_calm {s : State} (h : s.Calm) (k : GKey) : s.settle k = s := by
  simp [State.settle, State.releaseMasks_calm h, State.tryComplete_calm h, State.normLevels_calm h, State.splitTest_calm h, State.watchers_calm h]

end Sys2Proof.Machine
end

