-- ==== Sys2Proof/Laws/Issue.lean ====
section
/-! SUPPORT. The issue of an instruction, said once: where it is ready it has its effect, and it never refuses. -/

namespace Sys2Proof.Machine

/-- A test that holds is readiness. -/
theorem ready_of_test {i : Instr} {c : Ctl} {s : State} (h : readyTest i c s = true) : ∃ d, Ready i c d s := by
  unfold readyTest at h
  cases hd : i.desc with
  | none => simp [hd] at h
  | some d =>
    simp only [hd, Bool.and_eq_true, decide_eq_true_eq] at h
    exact ⟨d, hd, h.1.1.1, h.1.1.2, by simpa using h.1.2, h.2⟩

/-- Where an instruction is ready, its issue has its effect on the walked state. -/
theorem issueWith_completes {b : Bool} {i : Instr} {c : Ctl} {d : Desc} {s : State} (h : Ready i c d s) (eff : State → Eff) :
    issueWith b i c s eff = .next (finish i c d (eff (s.walked i d))) := by
  obtain ⟨hd, hp, hb, ht, hw⟩ := h
  have hrun : run i c d s eff = finish i c d (eff (s.walked i d)) := by
    unfold run
    unfold State.boardFree at hb
    simp only [State.walked] at hw ⊢
    rw [ht, Bool.or_false]
    split
    · next hx => rw [hx] at hb; cases hb
    · simp [hw]
  cases hm : s.cur.members with
  | nil => simp [State.passes, State.issuer, hm] at hp
  | cons m ms =>
    cases hi : s.issuer with
    | none => simp [State.passes, hi] at hp
    | some g =>
      simp only [State.passes, hi] at hp
      simp only [issueWith, hd, hm, hi]
      split at hp
      · next hx => rw [if_pos hx, Option.isNone_iff_eq_none.mp hp]; simp only [hrun]
      · next hx =>
        simp only [Bool.and_eq_true, Bool.or_eq_true, Option.isNone_iff_eq_none] at hp
        obtain ⟨hp, hq⟩ := hp
        rcases hq with (hq | hq) | hq <;> simp [hx, hp, hq, hrun]

theorem issue_completes {i : Instr} {c : Ctl} {d : Desc} {s : State} (h : Ready i c d s) (eff : State → Eff) :
    issue i c s eff = .next (finish i c d (eff (s.walked i d))) := issueWith_completes h eff

/-- Two effects on the issuing group are the same where they agree on it. -/
theorem onGroup_congr {c : Ctl} {s : State} {P : Group → Member → Mask → Prop} {f f' : Group → Member → Mask → Eff}
    (h : s.OnIssuer c P) (hf : ∀ g m e, P g m e → f g m e = f' g m e) : onGroup c s f = onGroup c s f' := by
  unfold onGroup
  split
  · next m ms hm =>
    split
    · next g hg => exact hf _ _ _ (h m ms g hm hg)
    · rfl
  · rfl

/-- An issue answers a next state, or the model's own fault where it names no group. -/
theorem issueWith_outcome (b : Bool) (i : Instr) (c : Ctl) (s : State) (eff : State → Eff) :
    (∃ t, issueWith b i c s eff = .next t) ∨ issueWith b i c s eff = .fault .noIssuer := by
  unfold issueWith
  split
  · split
    · split <;> exact .inl ⟨_, rfl⟩
    · split
      · exact .inl ⟨_, rfl⟩
      · split <;> exact .inl ⟨_, rfl⟩
  · exact .inr rfl

/-- An issue of an encoded instruction that names a group answers a next state. -/
theorem issueWith_next {b : Bool} {i : Instr} {c : Ctl} {s : State} {eff : State → Eff} {d : Desc} {g : Group}
    (hd : i.desc = some d) (hg : s.issuer = some g) : ∃ t, issueWith b i c s eff = .next t := by
  cases hm : s.cur.members with
  | nil => simp [State.issuer, hm] at hg
  | cons m ms =>
    rcases issueWith_outcome b i c s eff with h | h
    · exact h
    · simp only [issueWith, hd, hm, hg] at h
      split at h
      · split at h <;> cases h
      · split at h
        · cases h
        · split at h <;> cases h

end Sys2Proof.Machine
end

