-- ==== Sys2Proof/Laws/Reach.lean ====
section
/-! SUPPORT. Bytes written and read back, what reaching a frame does to memory, and when no pending access is to be
performed first. -/

namespace Sys2Proof.Machine

/- ### Bytes -/

/-- A store gives its bytes in its run and leaves every other byte. -/
theorem Memory.get_store {m : List Host.Cell} (h : Memory.wf m = true) (a b : Nat) (bs : List Byte) :
    Memory.get (Memory.store m a bs) b = if a ≤ b ∧ b < a + bs.length then nth 0 bs (b - a) else Memory.get m b := by
  split
  · next hb =>
    have := Memory.get_store_inside bs (a := a) (j := b - a) h (by omega)
    rw [show a + (b - a) = b by omega] at this
    rw [this, nth_eq_getElem _ _ _ (by omega)]
  · exact Memory.get_store_outside bs h (by omega)

/-- The run that a store wrote reads back as its bytes. -/
theorem Memory.bytes_store {m : List Host.Cell} (h : Memory.wf m = true) (a : Nat) (bs : List Byte) :
    Memory.bytes (Memory.store m a bs) a bs.length = bs := by
  have : ∀ (n j : Nat), j + n = bs.length → Memory.bytes (Memory.store m a bs) (a + j) n = bs.drop j := by
    intro n
    induction n with
    | zero => intro j hj; simp [Memory.bytes]; omega
    | succ n ih =>
      intro j hj
      rw [Memory.bytes, Memory.get_store_inside bs h (by omega : j < bs.length), Nat.add_assoc, ih (j + 1) (by omega)]
      exact (List.drop_eq_getElem_cons (by omega)).symm
  simpa using this bs.length 0 (by simp)

/-- A number that fits reads back from its little-endian bytes. -/
theorem leNat_leBytes (n x : Nat) (h : x < 256 ^ n) : leNat (leBytes n x) = x := by
  induction n generalizing x with
  | zero => simp at h; simp [leBytes, leNat, h]
  | succ n ih =>
    simp only [leBytes, leNat]
    rw [ih]
    · simp; omega
    · rw [pow_succ] at h; omega

/-- Keeping the entries of some addresses makes every other byte read 0 and leaves theirs. -/
theorem Memory.get_filter {m : List Host.Cell} (h : Memory.wf m = true) (keep : Nat → Bool) (a : Nat) :
    Memory.get (m.filter (fun c => keep c.1)) a = if keep a then Memory.get m a else 0 := by
  suffices ∀ (m : List Host.Cell) (lo : Nat), Sparse.okFrom Memory.unlisted lo m = true →
      Sparse.get Memory.unlisted (m.filter (fun c => keep c.1)) a = if keep a then Sparse.get Memory.unlisted m a else 0 from this m 0 h
  intro m
  induction m with
  | nil => intro lo hm; simp [Sparse.get, Memory.unlisted]
  | cons c t ih =>
    obtain ⟨x, y⟩ := c
    intro lo hm
    simp only [Sparse.okFrom, Bool.and_eq_true, decide_eq_true_eq] at hm
    rw [List.filter_cons]
    split
    · next hx =>
      simp only [Sparse.get, ih _ hm.2]
      split
      · simp [Memory.unlisted]
      · split
        · subst_vars; simp [hx]
        · rfl
    · next hx =>
      rw [ih _ hm.2]
      simp only [Sparse.get]
      by_cases ha : keep a = true
      · simp only [ha, if_true]
        by_cases hlt : a < x
        · simp only [hlt, if_true]
          exact Sparse.get_below hm.2 (by omega)
        · simp only [hlt, if_false]
          rw [if_neg]; rintro rfl; exact hx ha
      · simp [ha]

/- ### Frames -/

theorem State.zeroFrame_get {s : State} (h : Memory.wf s.mem = true) (k a : Nat) :
    Memory.get (s.zeroFrame k).mem a =
      if k < 2 ^ 40 ∧ a / 65536 = k ∧ ¬ s.renewed.any (fun x => x.1 / 65536 == k && x.1 ≤ a && a < x.1 + x.2) then 0 else Memory.get s.mem a := by
  simp only [State.zeroFrame]
  by_cases hk : k < 2 ^ 40
  · simp only [hk, if_true, true_and]
    rw [Memory.get_filter h (fun b => b / 65536 != k || s.renewed.any (fun x => x.1 / 65536 == k && x.1 ≤ b && b < x.1 + x.2)) a]
    by_cases ha : a / 65536 = k <;> cases hr : s.renewed.any (fun x => x.1 / 65536 == k && decide (x.1 ≤ a) && decide (a < x.1 + x.2)) <;> simp [ha]
  · simp only [hk, if_false, false_and]

@[simp] theorem State.ownFrame_of_owner {s : State} {ctx k : Nat} (ho : frameOwner (s.frame k) = ctx) (hr : k ∉ s.retained) :
    s.ownFrame ctx k = s := by
  unfold State.ownFrame
  simp [ho, hr]

/-- Reaching a frame that its context owns changes no byte of memory. -/
theorem State.reach_mem_of_owner {s : State} {ctx : Nat} {p : Phys} (ho : frameOwner (s.frame (frameKey p.addr)) = ctx)
    (hr : frameKey p.addr ∉ s.retained) : (s.reach ctx p).mem = s.mem := by
  unfold State.reach
  split
  · rw [State.countFrame_mem, State.ownFrame_of_owner (s := s.touch ctx p.die) ho hr]; rfl
  · simp
  · rfl

/-- Reaching a frame changes no byte of another frame. -/
theorem State.reach_get_other {s : State} (h : Memory.wf s.mem = true) (ctx : Nat) (p : Phys) {a : Nat}
    (ha : a / 65536 ≠ frameKey p.addr) : Memory.get (s.reach ctx p).mem a = Memory.get s.mem a := by
  unfold State.reach
  split
  · rw [State.countFrame_mem]
    simp only [State.ownFrame]
    split
    · rfl
    · split
      case isFalse => rfl
      case isTrue =>
        show Memory.get (State.zeroFrame (s.touch ctx p.die) (frameKey p.addr)).mem a = _
        rw [State.zeroFrame_get (s := s.touch ctx p.die) h, if_neg (fun hx => ha hx.2.1)]; rfl
  · simp
  · rfl

/- ### Pending accesses -/

theorem mustPerform_none {scp : Scp} {need : GKey × Pending → Bool} {l : List (GKey × Pending)} (h : ∀ x ∈ l, need x = false) :
    ∀ y ∈ mustPerform scp need l, y.2 = false := by
  induction l with
  | nil => simp [mustPerform]
  | cons x t ih =>
    have ht := ih (fun y hy => h y (List.mem_cons_of_mem _ hy))
    intro y hy
    simp only [mustPerform, List.mem_cons] at hy
    rcases hy with rfl | hy
    · simp only [h x (by simp), Bool.false_or]
      rw [List.any_eq_false]
      intro z hz
      simp [ht z hz]
    · exact ht y hy

/-- Where a group has no pending access that a test selects, performing those it selects changes nothing. -/
theorem State.performNeed_none {s : State} {k : GKey} {need : Pending → Bool}
    (h : ∀ g, s.group? k = some g → ∀ p ∈ g.pending, need p = false) : s.performNeed k need = s := by
  unfold State.performNeed State.performSome
  rw [List.filter_eq_nil_iff.2]
  · rfl
  intro y hy
  rw [Bool.not_eq_true]
  refine mustPerform_none (fun x hx => ?_) y hy
  obtain ⟨g, hg, hx⟩ := List.mem_flatMap.1 hx
  obtain ⟨p, hp, rfl⟩ := List.mem_map.1 hx
  by_cases hk : g.key = k
  · obtain ⟨i, _, hi⟩ := List.mem_filterMap.1 hg
    have : s.group? k = some g := by rw [← hk, State.group?_key hi]; exact hi
    simp [h g this p hp]
  · simp [hk]

/-- A group with no pending access has none to perform first. -/
theorem State.performNeed_empty {s : State} {k : GKey} {g : Group} (hg : s.group? k = some g) (h : g.pending = [])
    (need : Pending → Bool) : s.performNeed k need = s :=
  State.performNeed_none (fun g' hg' p hp => by rw [hg] at hg'; cases hg'; simp [h] at hp)

theorem State.letPass_empty {s : State} {k : GKey} {g : Group} (hg : s.group? k = some g) (h : g.pending = []) (m : Mask)
    (t : Pending → Bool) : s.letPass k m t = s := by
  simp [State.letPass, State.performNeed_empty hg h, hg, h]

theorem State.devLoadsFirst_empty {s : State} {k : GKey} {g : Group} (hg : s.group? k = some g) (h : g.pending = []) (m : Mask) :
    s.devLoadsFirst k m = s := State.performNeed_empty hg h _

end Sys2Proof.Machine
end

