-- ==== Sys2Proof/Tests/Slice0.lean ====
section
/-! SUPPORT. The model's own tests: ill-formed terms are refused, words written out from the spec decode, and the
hypotheses of the statements are met by concrete states and operands. -/

open Sys2Proof Sys2Proof.Machine

namespace Sys2Proof.Tests

set_option Elab.async false

abbrev cL : Ctl := ⟨0, .lane, none, false, false⟩
abbrev cG : Ctl := ⟨0, .group, none, false, false⟩
abbrev cP : Ctl := ⟨0, .party, none, false, false⟩
abbrev cT : Ctl := ⟨0, .team, none, false, false⟩

def decodesTo (x : Word × Word × Instr) : Bool :=
  match decodeWords x.1 x.2.1 with | .ok i => decide (i = x.2.2) | .error _ => false

def decodesAll (l : List (Word × Word × Instr)) : Bool := l.all decodesTo

/- ### A small machine: one group that stands at an instruction -/

def isSign : Instr → Bool
  | .sign _ => true
  | _ => false

/-- How the instruction comes to issue with its own effect: RTE in a handler, a wider scope in a complete instance. -/
def phaseOf (i : Instr) (c : Ctl) : Phase :=
  if isRte i then .handler else if c.scope == .lane || isSign i then .group else .instance_

/-- The group with every vector, scalar and party register 0. -/
def cleared (g : Machine.Group) : Machine.Group :=
  { g with v := g.v.map (fun x => x.map (fun _ => 0)), s := g.s.map (fun _ => 0), y := g.y.map (fun x => x.map (fun _ => 0)) }

/-- One group at `i`, after `f` and `st`. -/
def placed (i : Instr) (c : Ctl) (f : Machine.Group → Machine.Group) (st : State → State) : State :=
  let ws := encode i
  let s := st ((State.reset.withFetchWord 64 ((ws.getD 0 0).toNat + 2 ^ 32 * (ws.getD 1 0).toNat)).modGroups (fun g => f (cleared g)))
  match s.groups with
  | [] => s
  | g :: _ => s.atIssue g.key { s.issueAt g 4 ⟨0, 1⟩ with phase := phaseOf i c, scope := c.scope }

/-- `i` is ready on that machine, and `p` holds of the state in which it acts, its group and its executing lanes. -/
def meets (i : Instr) (c : Ctl) (f : Machine.Group → Machine.Group) (st : State → State)
    (p : State → Machine.Group → Mask → Bool) : Bool :=
  let s := placed i c f st
  readyTest i c s && match i.desc with
    | none => false
    | some d =>
      let u := s.walked i d
      match u.cur.members with
      | [] => false
      | m :: _ => match u.group? m.key with
        | none => false
        | some g => p u g (u.execLanes c m)

/-- A machine on which `meets` answers true meets the hypotheses of a statement about `i` with the condition `p`. -/
theorem meets_spec {i c f st p} (h : meets i c f st p = true) :
    ∃ d s m ms g, Ready i c d s ∧ (s.walked i d).cur.members = m :: ms ∧ (s.walked i d).group? m.key = some g ∧
      p (s.walked i d) g ((s.walked i d).execLanes c m) = true := by
  unfold meets at h
  simp only [Bool.and_eq_true] at h
  obtain ⟨hr, h⟩ := h
  unfold readyTest at hr
  split at h
  · cases h
  · next d hd =>
    rw [hd] at hr
    simp only [Bool.and_eq_true, decide_eq_true_eq] at hr
    split at h
    · cases h
    · next m ms hm =>
      split at h
      · cases h
      · next g hg => exact ⟨d, _, m, ms, g, ⟨hd, hr.1.1.1, hr.1.1.2, by simpa using hr.1.2, hr.2⟩, hm, hg, h⟩

/-- The instruction of each row issues with its own effect on that machine. -/
def readyAll (l : List (Word × Word × Instr)) : Bool :=
  l.all (fun x => match x.2.2.ctl with | some c => meets x.2.2 c id id (fun _ _ _ => true) | none => false)

/-- Words of the control families, field by field from R26, R27, R30, R32 and R40. -/
def words_control : List (Word × Word × Instr) := [
    (0b000_00_0_0000000_00000_0000000000_0000, 0, .nop cL),
    (0b000_11_1_0000000_00000_0000000000_0000, 0b0000000000_0000000000_0000000000_10, .nop ⟨0, .team, none, true, true⟩),
    (0b101_00_0_0000000_00001_0000000000_0000, 0, .yield ⟨5, .lane, none, false, false⟩),
    (0b000_00_1_0000001_00000_0000000000_0000, 0b0000000000_0111111111_1111111101_00, .bra cL .lk (BitVec.ofInt 18 (-3))),
    (0b000_00_1_0000001_00001_0000000010_0000, 0b1101000101_0000000000_0000000110_01, .brc cL true 2 (.q 5) .none 6),
    (0b000_00_1_0000001_00001_0000000000_0011, 0b0100000100_1100000001_0111011100_00, .brc ⟨0, .lane, some 2, false, false⟩ false 0 (.s 4) .un 1500),
    (0b000_00_1_0000010_00000_0000000000_0000, 0b0000000011_0000000000_0000000000_00, .brx cL (.v 3)),
    (0b000_00_1_0000010_00001_0100001001_0000, 0b0000000000_1011111111_0000000000_00, .call cL (.s 9) .ul (BitVec.ofInt 18 (-1024))),
    (0b000_00_1_0000010_00010_0000000111_0000, 0b0100001000_0000000000_0000000000_00, .callReg cL (.v 7) (.s 8)),
    (0b000_00_0_0000010_00011_0100001001_0000, 0, .ret cL (.s 9)),
    (0b000_00_0_0000011_00000_0000000000_1100, 0, .exit ⟨0, .lane, some 11, false, false⟩),
    (0b000_00_1_0000100_00000_1101010100_0000, 0b0000000000_0000000000_0000000000_00, .join cL 4),
    (0b000_00_1_0000100_00001_1101010101_0000, 0b0000000000_0000000000_0000000000_00, .leave cL 5),
    (0b000_00_1_0000100_00010_0000000000_0000, 0b1101010110_0000000000_0000000000_00, .waitm cL 6),
    (0b000_00_1_0000101_00000_1101010001_0000, 0b1101010010_1101010011_0000000000_00, .mop cL .and 1 2 3),
    (0b000_00_1_0000101_00001_1101010001_0000, 0b1101010010_1101010011_0000000000_00, .mop cL .or 1 2 3),
    (0b000_00_1_0000101_00010_1101010001_0000, 0b1101010010_1101010011_0000000000_00, .mop cL .xor 1 2 3),
    (0b000_00_1_0000101_00011_1101010001_0000, 0b1101010010_1101010011_0000000000_00, .mop cL .andn 1 2 3),
    (0b000_00_1_0000101_00100_0100000010_0000, 0b1101010011_0000000000_0000000000_00, .mcnt cL (.s 2) 3),
    (0b000_00_1_0000101_00101_1101010111_0000, 0b0000000110_0000000000_0000000000_00, .mfrom cL 7 (.v 6)),
    (0b000_00_1_0000101_00110_0100000110_0000, 0b1101011000_0000000000_0000000000_00, .mto cL (.s 6) 8),
    (0b000_00_1_0000110_00000_1101101010_0000, 0b0100000011_0000000000_0000001100_00, .loop cL 1 (.s 3) 12),
    (0b000_00_1_0000110_00001_1101101011_0000, 0b1101000011_0000000001_0000010100_00, .loopq cL 2 3 20 1),
    (0b000_00_1_0000110_00010_0000000000_0000, 0b1110000001_0000000000_0000000000_00, .lbrk cL 1),
    (0b000_00_1_0000111_00000_1101000001_0000, 0b0100000010_0100001000_1110000001_00, .qbind cL 1 (2 : SReg) (8 : SReg) .i16),
    (0b000_00_1_0000111_00001_0000000100_0000, 0b1101000101_1110000011_0000000000_00, .qstat cL (.v 4) 5 3),
    (0b000_00_1_0000111_00010_1101000110_0000, 0b1110001001_0000000000_0000000000_00, .qskip cL 6 (.imm 9))]

theorem test_decode_control : decodesAll words_control = true := by decide +kernel

/-- Each of them issues with its own effect on the small machine. -/
theorem witness_control_ready : readyAll (words_control) = true := by decide +kernel

/-- Words of the scope families, field by field from R26, R27, R30, R32 and R40. -/
def words_scope : List (Word × Word × Instr) := [
    (0b000_10_0_0010000_00000_0000000000_0000, 0, .sign cP),
    (0b000_00_1_0010000_00001_0000000000_0000, 0b0000000010_1110001001_0000000000_00, .cvwait cL (.v 2) 9),
    (0b000_00_1_0010000_00010_0100000011_0000, 0b0000000000_1110000100_0000000000_00, .cvrd cL (.s 3) 4),
    (0b000_01_1_0010001_00000_0000000001_0000, 0b0000000000_0000000000_0000000000_00, .elect cG (.v 1)),
    (0b000_10_1_0010001_00001_0000000001_0000, 0b0000000010_0100000011_0000000000_10, .bcast ⟨0, .party, none, true, false⟩ (.v 1) (.v 2) (.s 3))]

theorem test_decode_scope : decodesAll words_scope = true := by decide +kernel

/-- Each of them issues with its own effect on the small machine. -/
theorem witness_scope_ready : readyAll (words_scope.filter (fun x => !isSign x.2.2)) = true := by decide +kernel

/-- Words of the integer families, field by field from R26, R27, R30, R32 and R40. -/
def words_integer : List (Word × Word × Instr) := [
    (0b000_00_1_0011000_01000_0000000010_0000, 0b0000000000_1110000101_0000000000_00, .iadd cL .i32 false (.v 2) (.v 0) (.imm 5)),
    (0b000_00_1_0011000_00101_0000000001_0000, 0b0000000010_0000000011_0000000000_01, .isub cL .i16 true (.v 1) (.v 2) (.v 3)),
    (0b000_00_1_0011000_11110_0000000010_0000, 0b0000000100_0000000110_1101010011_00, .iaddc cL .w64 (.v 2) (.v 4) (.v 6) 3),
    (0b000_00_1_0011000_11011_1100000010_0000, 0b0000000100_0000000110_1101010011_00, .isubb cL .w32 (.y 2) (.v 4) (.v 6) 3),
    (0b000_00_1_0011001_00000_0100000001_0000, 0b0100000010_0100000011_0000000000_00, .imul cL .i8 (.s 1) (.s 2) (.s 3)),
    (0b000_00_1_0011001_11001_0000000001_0000, 0b0000000010_0000000011_0000000000_00, .imulh cL .w32 (.v 1) (.v 2) (.v 3)),
    (0b000_00_1_0011001_01010_0000000001_0000, 0b0000000010_0000000011_0000000100_00, .imad cL .i32 (.v 1) (.v 2) (.v 3) (.v 4)),
    (0b000_00_1_0011010_01000_0000000001_0000, 0b0000000010_1101000011_0000000000_00, .imin cL .i32 (.v 1) (.v 2) (.q 3)),
    (0b000_00_1_0011010_10001_0000000001_0000, 0b0000000010_0000000011_0000000000_00, .imax cL .w8 (.v 1) (.v 2) (.v 3)),
    (0b000_00_1_0011010_01110_0000000010_0000, 0b0000000100_0000000000_0000000000_00, .iabs cL .i64 (.v 2) (.v 4)),
    (0b000_00_1_0011011_11000_0000000001_0000, 0b0000000010_0000000011_0000000000_00, .shl cL .w32 (.v 1) (.v 2) (.v 3)),
    (0b000_00_1_0011011_11001_0000000001_0000, 0b0000000010_0000000011_0000000000_00, .shr cL .w32 (.v 1) (.v 2) (.v 3)),
    (0b000_00_1_0011011_01010_0000000001_0000, 0b0000000010_1110000011_0000000000_00, .sar cL .i32 (.v 1) (.v 2) (.imm 3)),
    (0b000_00_1_0011011_10111_0000000001_0000, 0b0000000010_0000000011_0000000000_00, .rotl cL .w16 (.v 1) (.v 2) (.v 3)),
    (0b000_00_1_0011100_01000_0000000001_0000, 0b0000000010_0000000011_0000000100_00, .bfx cL .i32 (.v 1) (.v 2) (.v 3) (.v 4)),
    (0b000_00_1_0011100_11001_0000000001_0000, 0b0000000010_0000000011_0000000100_00, .bfi cL .w32 (.v 1) (.v 2) (.v 3) (.v 4)),
    (0b000_00_1_0011101_11000_0000000001_0000, 0b1101100000_0000000000_0000000000_00, .popc cL .w32 (.v 1) (.sp .lane)),
    (0b000_00_1_0011101_11001_0000000001_0000, 0b0000000010_0000000000_0000000000_00, .clz cL .w32 (.v 1) (.v 2)),
    (0b000_00_1_0011101_11010_0000000001_0000, 0b0000000010_0000000000_0000000000_00, .ctz cL .w32 (.v 1) (.v 2)),
    (0b000_00_1_0011101_11011_0000000001_0000, 0b0000000010_0000000000_0000000000_00, .brev cL .w32 (.v 1) (.v 2)),
    (0b000_00_1_0011110_01001_1101010011_0000, 0b0000000001_0000000010_0000000000_01, .icmp cL .i32 .le (.m 3) (.v 1) (.v 2)),
    (0b000_00_1_0011110_11010_0000000011_0000, 0b0000000001_0000000010_0000000000_00, .icmp cL .w32 .gt (.v 3) (.v 1) (.v 2)),
    (0b000_00_1_0011111_00000_0000000001_0000, 0b0000000010_0000000011_1101010100_00, .isel cL (.v 1) (.v 2) (.v 3) (.m 4)),
    (0b000_00_1_0011111_00001_1101101011_0000, 0b0100000101_0000000000_0000000000_00, .mov cL (.lc 2) (.s 5)),
    (0b000_00_1_0011111_00010_0000000001_0000, 0b0000000010_0001101010_1111001101_00, .movw cL true (.v 1) (.v 2) 0xABCD),
    (0b000_00_1_0100000_00000_0100000111_0000, 0b1101111010_1011011011_1110111011_11, .movi cL (.s 7) 0xDEADBEEF),
    (0b000_00_1_0100001_00000_0000000001_0000, 0b0000000010_1100000000_0000000000_01, .cvti cL .i8 .w32 true (.v 1) (.v 2)),
    (0b000_00_1_0100011_10010_0000000001_0000, 0b0000000010_0000000011_0000000100_10, .bitfn cL 0xCA (.v 1) (.v 2) (.v 3) (.v 4))]

theorem test_decode_integer : decodesAll words_integer = true := by decide +kernel

/-- Each of them issues with its own effect on the small machine. -/
theorem witness_integer_ready : readyAll (words_integer) = true := by decide +kernel

/-- Words of the cross lane families, field by field from R26, R27, R30, R32 and R40. -/
def words_cross_lane : List (Word × Word × Instr) := [
    (0b000_00_1_0100110_00000_0000000001_0000, 0b0000000010_1110000011_0000000000_00, .lsh cL .up (.v 1) (.v 2) (.imm 3)),
    (0b000_00_1_0100110_00001_0000000001_0000, 0b0000000010_1110000011_0000000000_00, .lsh cL .down (.v 1) (.v 2) (.imm 3)),
    (0b000_00_1_0100110_00010_0000000001_0000, 0b0000000010_1110000011_0000000000_00, .lsh cL .xor (.v 1) (.v 2) (.imm 3)),
    (0b000_00_1_0100110_00011_0000000001_0000, 0b0000000010_1110000011_0000000000_00, .lsh cL .rot (.v 1) (.v 2) (.imm 3)),
    (0b000_01_1_0100111_00000_0000000001_0000, 0b0000000010_0000000011_0000000000_00, .lxch cG (.v 1) (.v 2) (.v 3)),
    (0b000_10_1_0101000_01000_0100000001_0000, 0b0000000010_0000000000_0000000000_00, .lred cP .add .i32 (.s 1) (.v 2)),
    (0b000_01_1_0101001_01000_0000000001_0000, 0b0000000010_0000000000_0000000000_01, .lscan cG .add .i32 true (.v 1) (.v 2)),
    (0b000_10_1_0101000_01001_0100000001_0000, 0b0000000010_0000000000_0000000000_00, .lred cP .min .i32 (.s 1) (.v 2)),
    (0b000_01_1_0101001_01001_0000000001_0000, 0b0000000010_0000000000_0000000000_01, .lscan cG .min .i32 true (.v 1) (.v 2)),
    (0b000_10_1_0101000_01010_0100000001_0000, 0b0000000010_0000000000_0000000000_00, .lred cP .max .i32 (.s 1) (.v 2)),
    (0b000_01_1_0101001_01010_0000000001_0000, 0b0000000010_0000000000_0000000000_01, .lscan cG .max .i32 true (.v 1) (.v 2)),
    (0b000_10_1_0101000_01011_0100000001_0000, 0b0000000010_0000000000_0000000000_00, .lred cP .or .i32 (.s 1) (.v 2)),
    (0b000_01_1_0101001_01011_0000000001_0000, 0b0000000010_0000000000_0000000000_01, .lscan cG .or .i32 true (.v 1) (.v 2)),
    (0b000_01_1_0101010_00000_1101010001_0000, 0b0000000010_0000000000_0000000000_00, .lbal cG (.m 1) (.v 2)),
    (0b000_01_1_0101010_00001_0100000001_0000, 0b0000000010_0000000000_0000000000_00, .lvote cG .all (.s 1) (.v 2)),
    (0b000_01_1_0101010_00010_0100000001_0000, 0b0000000010_0000000000_0000000000_00, .lvote cG .any (.s 1) (.v 2)),
    (0b000_01_1_0101010_00011_0100000001_0000, 0b0000000010_0000000000_0000000000_00, .lvote cG .same (.s 1) (.v 2)),
    (0b000_00_1_0101011_00000_0100000001_0000, 0b0000000010_0100000011_0000000000_00, .lget cL (1 : SReg) (.v 2) (.s 3)),
    (0b000_00_1_0101011_00001_0000000001_0000, 0b0100000010_1110000011_0000000000_00, .lput cL (.v 1) (.s 2) (.imm 3))]

theorem test_decode_cross_lane : decodesAll words_cross_lane = true := by decide +kernel

/-- An s destination is LRED's alone: the word of LSCAN with one is no encoding, and that of LRED is (R132). -/
theorem test_lscan_s_destination :
    decodeWords 0b000_01_1_0101001_01000_0100000001_0000 0b0000000010_0000000000_0000000000_01 = .error .illegal ∧
    decodeWords 0b000_01_1_0101000_01000_0100000001_0000 0b0000000010_0000000000_0000000000_00 = .ok (.lred cG .add .i32 (.s 1) (.v 2)) := by
  decide +kernel

/-- Each of them issues with its own effect on the small machine. -/
theorem witness_cross_lane_ready : readyAll (words_cross_lane) = true := by decide +kernel

/-- Words of the float families, field by field from R26, R27, R30, R32 and R40. -/
def words_float : List (Word × Word × Instr) := [
    (0b000_00_1_0110000_01001_0000000001_0000, 0b0000000010_0000000011_0000000000_01, .fadd cL .f16 .rz true (.v 1) (.v 2) (.v 3) (.v 0)),
    (0b000_00_1_0110001_00100_0000000001_0000, 0b0000000010_0000000011_0100000100_00, .fsub cL .f32 .sr false (.v 1) (.v 2) (.v 3) (.s 4)),
    (0b000_00_1_0110010_10000_0000000001_0000, 0b0000000010_0000000011_0000000000_00, .fmul cL .bf16 .rne false (.v 1) (.v 2) (.v 3) (.v 0)),
    (0b000_00_1_0110011_00010_0000000001_0000, 0b0000000010_0000000011_0000000100_00, .ffma cL .f32 .rp (.v 1) (.v 2) (.v 3) (.v 4)),
    (0b000_00_1_0110100_00000_0000000001_0000, 0b0000000010_0000000011_0000000000_00, .fmin cL .f32 (.v 1) (.v 2) (.v 3)),
    (0b000_00_1_0110100_00001_0000000001_0000, 0b0000000010_0000000011_0000000000_00, .fmax cL .f32 (.v 1) (.v 2) (.v 3)),
    (0b000_00_1_0110100_00010_0000000001_0000, 0b0000000010_0000000011_0000000000_00, .fminn cL .f32 (.v 1) (.v 2) (.v 3)),
    (0b000_00_1_0110100_00011_0000000001_0000, 0b0000000010_0000000011_0000000000_00, .fmaxn cL .f32 (.v 1) (.v 2) (.v 3)),
    (0b000_00_1_0110101_01000_1101010001_0000, 0b0000000010_0000000011_0000000000_00, .fcmp cL .f16 .eq (.m 1) (.v 2) (.v 3)),
    (0b000_00_1_0110101_01001_1101010001_0000, 0b0000000010_0000000011_0000000000_00, .fcmp cL .f16 .ne (.m 1) (.v 2) (.v 3)),
    (0b000_00_1_0110101_01010_1101010001_0000, 0b0000000010_0000000011_0000000000_00, .fcmp cL .f16 .lt (.m 1) (.v 2) (.v 3)),
    (0b000_00_1_0110101_01011_1101010001_0000, 0b0000000010_0000000011_0000000000_00, .fcmp cL .f16 .le (.m 1) (.v 2) (.v 3)),
    (0b000_00_1_0110101_01100_1101010001_0000, 0b0000000010_0000000011_0000000000_00, .fcmp cL .f16 .gt (.m 1) (.v 2) (.v 3)),
    (0b000_00_1_0110101_01101_1101010001_0000, 0b0000000010_0000000011_0000000000_00, .fcmp cL .f16 .ge (.m 1) (.v 2) (.v 3)),
    (0b000_00_1_0110101_01110_1101010001_0000, 0b0000000010_0000000011_0000000000_00, .fcmp cL .f16 .ord (.m 1) (.v 2) (.v 3)),
    (0b000_00_1_0110101_01111_1101010001_0000, 0b0000000010_0000000011_0000000000_00, .fcmp cL .f16 .unord (.m 1) (.v 2) (.v 3)),
    (0b000_00_1_0110110_00000_0000000001_0000, 0b0000000010_0000000000_0000000000_00, .fclass cL .f32 (.v 1) (.v 2)),
    (0b000_00_1_0110111_01000_0000000001_0000, 0b0000000010_0000011000_0000000000_01, .fcvt cL .i8 .f32 .rm true (.v 1) (.v 2) (.v 0)),
    (0b000_00_1_0110111_00000_0000000001_0000, 0b0000000010_1111000000_0000000000_00, .fcvt cL .f32 .w64 .rne false (.v 1) (.v 2) (.v 0)),
    (0b000_00_1_0111000_00011_0000000001_0000, 0b0000000010_0000000000_0000000000_00, .frnd cL .f32 .rm (.v 1) (.v 2)),
    (0b000_00_1_0111001_00001_0000000001_0000, 0b0000000010_0000000011_0000000000_00, .fscale cL .f32 .rz (.v 1) (.v 2) (.v 3)),
    (0b000_00_1_0111010_00000_0000000001_0000, 0b0000000010_0000000000_0000000000_00, .fsqrt cL .f32 .rne (.v 1) (.v 2)),
    (0b000_00_1_0111011_00000_0000000001_0000, 0b0000000010_0000000000_0000000000_00, .frcp cL .f32 (.v 1) (.v 2)),
    (0b000_00_1_0111011_00001_0000000001_0000, 0b0000000010_0000000000_0000000000_00, .frsq cL .f32 (.v 1) (.v 2)),
    (0b000_00_1_0111011_00010_0000000001_0000, 0b0000000010_0000000011_0000000000_00, .fdivs cL .f32 (.v 1) (.v 2) (.v 3)),
    (0b000_00_1_0111011_00011_0000000001_0000, 0b0000000010_0000000000_0000000000_00, .fexp2 cL .f32 (.v 1) (.v 2)),
    (0b000_00_1_0111011_00100_0000000001_0000, 0b0000000010_0000000000_0000000000_00, .flog2 cL .f32 (.v 1) (.v 2)),
    (0b000_00_1_0111011_00101_0000000001_0000, 0b0000000010_0000000000_0000000000_00, .fsin cL .f32 (.v 1) (.v 2)),
    (0b000_00_1_0111011_00110_0000000001_0000, 0b0000000010_0000000000_0000000000_00, .fcos cL .f32 (.v 1) (.v 2)),
    (0b000_00_1_0111011_00111_0000000001_0000, 0b0000000010_0000000000_0000000000_00, .ftanh cL .f32 (.v 1) (.v 2)),
    (0b000_00_1_0111100_00000_0000000001_0000, 0b0000000010_0000000000_0000000000_00, .fsigm cL .f32 (.v 1) (.v 2)),
    (0b000_00_1_0111100_10001_0000000001_0000, 0b0000000010_0000000000_0000000000_00, .fact cL .bf16 (.v 1) (.v 2)),
    (0b000_00_1_0111101_00000_0000000000_0000, 0b0100000001_1110000001_0000000000_00, .tblld cL (.s 1) 1),
    (0b000_00_1_0111101_00001_0000000000_0000, 0b1110000001_0000000000_0000000000_00, .tblsel cL (.imm 1)),
    (0b000_00_1_0111110_01000_0000000001_0000, 0b0000000010_0000000011_0000000000_01, .pradd cL .f16 .rne true (.v 1) (.v 2) (.v 3) (.v 0)),
    (0b000_00_1_0111111_10100_0000000001_0000, 0b0000000010_0000000011_0100000100_00, .prmul cL .bf16 .sr false (.v 1) (.v 2) (.v 3) (.s 4)),
    (0b000_00_1_1000000_01001_0000000001_0000, 0b0000000010_0000000011_0000000100_00, .prfma cL .f16 .rz false (.v 1) (.v 2) (.v 3) (.v 4))]

theorem test_decode_float : decodesAll words_float = true := by decide +kernel

/-- Each of them issues with its own effect on the small machine. -/
theorem witness_float_ready : readyAll (words_float) = true := by decide +kernel

/-- Words of the packed families, field by field from R26, R27, R30, R32 and R40. -/
def words_packed : List (Word × Word × Instr) := [
    (0b000_00_1_1001000_00000_0000000001_0000, 0b0000000010_0000000011_0000000100_01, .dp4i cL true (.v 1) (.v 2) (.v 3) (.v 4)),
    (0b000_00_1_1001000_00001_0000000001_0000, 0b0000000010_0000000011_0000000100_00, .dp8i cL false (.v 1) (.v 2) (.v 3) (.v 4)),
    (0b000_00_1_1001001_00001_0000000001_0000, 0b0000000010_0000000011_0000000100_00, .dpf8 cL true false (.v 1) (.v 2) (.v 3) (.v 4)),
    (0b000_00_1_1001010_00000_0000000001_0000, 0b0000000010_0000000011_0000000100_00, .dpf4 cL (.v 1) (.v 2) (.v 3) (.v 4)),
    (0b000_00_1_1001011_00011_0000000001_0000, 0b0000000100_0000000000_0000000000_01, .pcvt cL .e4m3 .f32 .rne true (.v 1) (.v 4) (.v 0)),
    (0b000_00_1_1001100_00111_0000000100_0000, 0b0000000001_0000000000_0000000000_01, .punp cL .e2m1 true (.v 4) (.v 1)),
    (0b000_00_1_1001101_00000_0000000001_0000, 0b0000000010_0000000011_0000000100_00, .mxsc cL false (.v 1) (.v 2) (.v 3) (.v 4)),
    (0b000_01_1_1001110_00000_0000000010_0000, 0b0000000100_0000000101_1110000110_01, .vtopk cG true (2 : VReg) (4 : VReg) (.v 5) (.imm 6)),
    (0b000_01_1_1001110_00001_0000000010_0000, 0b0000000100_0100000110_0000000000_00, .vtopkm cG false (2 : VReg) (4 : VReg) (.s 6)),
    (0b000_10_1_1001111_00000_0100000010_0000, 0b0000000100_0000000101_0000000000_00, .argmx cP .f32 false (.s 2) (.v 4) (.v 5))]

theorem test_decode_packed : decodesAll words_packed = true := by decide +kernel

/-- Each of them issues with its own effect on the small machine. -/
theorem witness_packed_ready : readyAll (words_packed) = true := by decide +kernel

/-- Words of the matrix families, field by field from R26, R27, R30, R32 and R40. -/
def words_matrix : List (Word × Word × Instr) := [
    (0b000_10_1_1010000_00111_0000000000_0000, 0b0100000001_0100000010_0000000000_00, .mwld cP .e2m1 (.s 1) (.s 2)),
    (0b000_01_0_1010001_00000_0000000000_0000, 0, .mwsw cG),
    (0b000_10_1_1010010_00000_0000000000_0000, 0b0000000000_0000000000_0000000000_00, .mwfm cP),
    (0b000_10_1_1010011_10110_0000001101_0000, 0b1100000100_0100000101_0000000000_01, .mma cP .bf16 true 2 1 3 (.y 4) (.s 5) (.v 0)),
    (0b000_01_1_1010011_00001_0000000000_0000, 0b0000000100_0100000101_1110000000_00, .mma cG .e4m3 false 1 0 0 (.v 4) (.s 5) (.imm 0)),
    (0b000_01_0_1010100_00011_0000000000_0000, 0, .mzero cG 3),
    (0b000_01_1_1010101_00001_0000001000_0000, 0b1110000100_0100000010_1110001000_01, .mrda cG true 1 (.v 8) 4 (.s 2) (.imm 8)),
    (0b000_01_1_1010110_00010_0000001000_0000, 0b1110000100_0100000010_1110001000_00, .mwra cG 2 (.v 8) 4 (.s 2) (.imm 8)),
    (0b000_10_1_1010111_00001_0000000000_0000, 0b0100000010_1110000010_0000000000_00, .msta cP 1 (.s 2) .bf16),
    (0b000_10_1_1011000_00000_0000000000_0000, 0b0100000010_0000000000_0000000000_00, .mlda cP 0 (.s 2)),
    (0b000_01_1_1011001_00010_0000000000_0000, 0b0100000100_0000000000_0000000000_00, .mrow cG 2 (.s 4)),
    (0b000_01_1_1011010_00011_0000000000_0000, 0b0100000100_0000000000_0000000000_00, .mcol cG 3 (.s 4)),
    (0b000_01_1_1011011_00000_0000000000_0000, 0b0100000001_0000000000_0000000000_00, .msca cG (.s 1)),
    (0b000_01_0_1011100_00000_0000000000_0000, 0, .mrel cG),
    (0b000_10_0_1011101_00000_0000000000_0000, 0, .mfin cP)]

theorem test_decode_matrix : decodesAll words_matrix = true := by decide +kernel

/-- Each of them issues with its own effect on the small machine. -/
theorem witness_matrix_ready : readyAll (words_matrix) = true := by decide +kernel

/-- Words of the memory families, field by field from R26, R27, R30, R32 and R40. -/
def words_memory : List (Word × Word × Instr) := [
    (0b000_00_1_1100000_00100_0000000001_0000, 0b0100000010_0000000011_0111111110_01, .ld cL .i16 (.v 1) ⟨.s 2, .v 3, (BitVec.ofInt 7 (-2)), .package, .acq⟩),
    (0b000_00_1_1100001_11000_0000000001_0000, 0b0100000010_0000000011_0100000101_10, .st cL .w32 (.v 1) ⟨.s 2, .v 3, 5, .die, .rel⟩),
    (0b000_00_1_1100010_11000_0000000001_0000, 0b0100000010_0000000011_0000000000_00, .ldx cL .w32 (.v 1) ⟨.s 2, .v 3, 0, .team, .rlx⟩),
    (0b000_00_1_1100011_10000_0000000001_0000, 0b0100000010_0000000011_0000000000_00, .stx cL .w8 (.v 1) ⟨.s 2, .v 3, 0, .team, .rlx⟩),
    (0b000_00_1_1100100_11100_0000000010_0000, 0b0000000100_1110000000_0010000001_00, .ldv cL .w64 (.v 2) ⟨.v 4, .imm 0, 1, .cluster, .rlx⟩),
    (0b000_00_1_1100101_11100_0000000010_0000, 0b0000000100_1110000000_1000000001_10, .stv cL .w64 (.v 2) ⟨.v 4, .imm 0, 1, .system, .rel⟩),
    (0b000_00_1_1100110_00000_0000000000_0000, 0b0100000001_0000000010_0000000011_00, .pref cL (.s 1) (.v 2) 3),
    (0b000_00_0_1100111_11011_0000000000_0000, 0, .fence cL .ar .package),
    (0b000_00_1_1101000_00000_0000000001_0000, 0b0100000010_1110001001_0000000000_00, .btrd cL (.v 1) (2 : SReg) 9),
    (0b000_00_1_1101001_00000_0000000000_0000, 0b0100000010_0000000011_0000000100_01, .rowmap cL true (2 : SReg) (.v 3) (.v 4)),
    (0b000_00_1_1110100_11000_0000000001_0000, 0b0000000010_1110000100_0000000000_00, .ldsp cL .w32 (.v 1) (.v 2) (.imm 4)),
    (0b000_00_1_1110101_10100_0000000001_0000, 0b0000000010_1110000100_0000000000_00, .stsp cL .w16 (.v 1) (.v 2) (.imm 4)),
    (0b000_00_1_1110110_00000_0000000001_0000, 0b0000000010_0000000000_0000000000_00, .tlook cL (.v 1) (.v 2)),
    (0b000_00_1_1110110_00001_0000000000_0000, 0b0000000001_0000000010_0000000000_00, .tset cL (.v 1) (.v 2)),
    (0b000_00_1_1110110_00010_0000000000_0000, 0b0100000001_0000000000_0000000000_00, .tclr cL (.s 1))]

theorem test_decode_memory : decodesAll words_memory = true := by decide +kernel

/-- Each of them issues with its own effect on the small machine. -/
theorem witness_memory_ready : readyAll (words_memory) = true := by decide +kernel

/-- Words of the restripe and copy families, field by field from R26, R27, R30, R32 and R40. -/
def words_restripe_and_copy : List (Word × Word × Instr) := [
    (0b000_00_1_1110000_00000_0000000000_0000, 0b0100000010_1110000101_0100000110_01, .restripe cL true (2 : SReg) 5 (.s 6)),
    (0b000_00_1_1110000_00001_0000000001_0000, 0b0100000010_0000000000_0000000000_00, .rsqry cL (.v 1) (2 : SReg)),
    (0b000_00_1_1110001_00100_0100000010_0000, 0b0000000011_0000000100_0000000101_01, .ipadd cL .i16 true (2 : SReg) (.v 3) (.v 4) (.v 5)),
    (0b000_00_1_1110001_11001_0100000010_0000, 0b0000000011_0000000100_0000000101_00, .ipsub cL .w32 false (2 : SReg) (.v 3) (.v 4) (.v 5)),
    (0b000_00_1_1110001_01010_0100000010_0000, 0b0000000011_0000000100_0000000101_00, .ipmin cL .i32 (2 : SReg) (.v 3) (.v 4) (.v 5)),
    (0b000_00_1_1110001_01011_0100000010_0000, 0b0000000011_0000000100_0000000101_00, .ipmax cL .i32 (2 : SReg) (.v 3) (.v 4) (.v 5)),
    (0b000_00_1_1110010_10000_0100000010_0000, 0b0000000011_0000000100_0000000101_00, .ipmac cL .bf16 (2 : SReg) (.v 3) (.v 4) (.v 5)),
    (0b000_00_1_1110010_00100_0100000010_0000, 0b0000000011_0000000100_0000000000_00, .ipcpy cL (2 : SReg) (.v 3) (.v 4)),
    (0b000_00_1_1110011_00000_0000001001_0000, 0b0100000010_0100000011_0100010000_00, .nbkick cL (2 : SReg) (.s 3) (16 : SReg) 9),
    (0b000_00_1_1110011_00001_0000000100_0000, 0b1110001001_0000000000_0000000000_00, .nbstat cL (.v 4) 9),
    (0b000_00_1_1111000_00000_0000100001_0000, 0b0100010000_0000000000_0000000000_00, .copy cL 33 (16 : SReg)),
    (0b000_00_1_1111000_00001_0000100001_0000, 0b0100010000_0000000000_0000000000_00, .copyShadow cL 33 (16 : SReg)),
    (0b000_00_1_1111001_00000_0000000111_0000, 0b0100000010_0000000011_0100010000_00, .blkcpy cL 7 (2 : SReg) (3 : VReg) (16 : SReg)),
    (0b000_00_1_1111010_00000_0100000010_0000, 0b0100000100_1110000010_0000000000_00, .waitany cL (2 : SReg) (.s 4) .die),
    (0b000_00_1_1111010_00001_0100000010_0000, 0b1110010001_1110000100_0000000000_00, .waitall cL (2 : SReg) (.imm 17) .system),
    (0b000_00_1_1111010_00010_0100000010_0000, 0b0100000100_0000000000_0000000000_00, .ffrdy cL (2 : SReg) (.s 4)),
    (0b000_00_1_1111010_00011_0000000000_0000, 0b1110111111_0000000000_0000000000_00, .tagclr cL (.imm 63)),
    (0b000_00_1_1111011_00000_0000000111_0000, 0b0100000010_0100000011_1110000100_00, .shadow cL 7 (2 : SReg) (.s 3) (.imm 4)),
    (0b000_00_1_1111011_00001_0000000000_0000, 0b0100000010_0000000000_0000000000_00, .publish cL (2 : SReg))]

theorem test_decode_restripe_and_copy : decodesAll words_restripe_and_copy = true := by decide +kernel

/-- Each of them issues with its own effect on the small machine. -/
theorem witness_restripe_and_copy_ready : readyAll (words_restripe_and_copy) = true := by decide +kernel

/-- Words of the sync families, field by field from R26, R27, R30, R32 and R40. -/
def words_sync : List (Word × Word × Instr) := [
    (0b000_00_1_1111100_01000_0000000001_0000, 0b0100000010_0000000011_0110000000_11, .aadd cL .i32 (.v 1) ⟨.s 2, .v 3, 0, .package, .ar⟩),
    (0b000_00_1_1111100_01001_0000000001_0000, 0b0100000010_0000000011_0110000000_11, .amin cL .i32 (.v 1) ⟨.s 2, .v 3, 0, .package, .ar⟩),
    (0b000_00_1_1111100_01010_0000000001_0000, 0b0100000010_0000000011_0110000000_11, .amax cL .i32 (.v 1) ⟨.s 2, .v 3, 0, .package, .ar⟩),
    (0b000_00_1_1111100_01011_0000000001_0000, 0b0100000010_0000000011_0110000000_11, .aand cL .i32 (.v 1) ⟨.s 2, .v 3, 0, .package, .ar⟩),
    (0b000_00_1_1111101_01000_0000000001_0000, 0b0100000010_0000000011_0110000000_11, .aor cL .i32 (.v 1) ⟨.s 2, .v 3, 0, .package, .ar⟩),
    (0b000_00_1_1111101_01001_0000000001_0000, 0b0100000010_0000000011_0110000000_11, .axor cL .i32 (.v 1) ⟨.s 2, .v 3, 0, .package, .ar⟩),
    (0b000_00_1_1111101_01010_0000000001_0000, 0b0100000010_0000000011_0110000000_11, .axchg cL .i32 (.v 1) ⟨.s 2, .v 3, 0, .package, .ar⟩),
    (0b000_00_1_1111101_11111_0000000100_0000, 0b0100000010_0000000011_1000000000_01, .acas cL .w64 (.v 4) ⟨.s 2, .v 3, 0, .system, .acq⟩),
    (0b000_00_1_1111110_00010_0000000001_0000, 0b0100000010_0000000011_0100000000_10, .afadd cL .bf16 (.v 1) ⟨.s 2, .v 3, 0, .die, .rel⟩),
    (0b000_00_1_1111110_11010_0000000001_0000, 0b0100000010_0000000011_0000000000_00, .redop cL .i32 .max (.v 1) ⟨.s 2, .v 3, 0, .team, .rlx⟩),
    (0b000_00_1_1111110_00011_0000000010_0000, 0b0100000100_0000000101_0000001000_01, .vld cL true (.v 2) (4 : SReg) (.v 5) (.v 8)),
    (0b000_00_1_1111110_00100_0000000010_0000, 0b0100000100_0000000101_1110000111_00, .vlds cL false (.v 2) (4 : SReg) (.v 5) (.imm 7)),
    (0b000_00_1_1111110_00101_0000000010_0000, 0b0100000100_0000000101_0000001000_00, .vst cL false (.v 2) (4 : SReg) (.v 5) (.v 8)),
    (0b000_00_1_1111110_00110_0000000010_0000, 0b0100000100_0000000101_0000001000_00, .recon cL .sum false (.v 2) (4 : SReg) (.v 5) (.v 8)),
    (0b000_00_1_1111110_00111_0000000010_0000, 0b0100000100_0000000101_0000001000_00, .recon cL .min false (.v 2) (4 : SReg) (.v 5) (.v 8)),
    (0b000_00_1_1111110_01000_0000000010_0000, 0b0100000100_0000000101_0000001000_00, .recon cL .max false (.v 2) (4 : SReg) (.v 5) (.v 8)),
    (0b000_00_1_1111110_01001_0000000010_0000, 0b0100000100_0000000101_0000001000_00, .recon cL .or false (.v 2) (4 : SReg) (.v 5) (.v 8)),
    (0b000_00_1_1111110_01010_0000000010_0000, 0b0100000100_0000000101_0000001000_00, .recon cL .and false (.v 2) (4 : SReg) (.v 5) (.v 8)),
    (0b000_00_1_1111110_01011_0000000010_0000, 0b0100000100_0000000101_0000001000_00, .recon cL .pick false (.v 2) (4 : SReg) (.v 5) (.v 8)),
    (0b000_00_1_1111110_01100_0000000000_0000, 0b0100000010_0100000011_0000000000_00, .barr cL (2 : SReg) (.s 3)),
    (0b000_00_1_1111110_01101_0000000000_0000, 0b0100000010_1110000011_0000000000_00, .barw cL (2 : SReg) (.imm 3)),
    (0b000_00_1_1111110_01110_0000000000_0000, 0b0100000001_0100000100_0000000000_00, .mbput cL (.s 1) (4 : SReg)),
    (0b000_00_1_1111110_01111_0100000100_0000, 0b0100000001_0000000000_0000000000_00, .mbget cL (4 : SReg) (.s 1)),
    (0b000_00_1_1111110_10000_0100000100_0000, 0b1110000001_0000000000_0000000000_00, .mbtry cL (4 : SReg) (.imm 1))]

theorem test_decode_sync : decodesAll words_sync = true := by decide +kernel

/-- Each of them issues with its own effect on the small machine. -/
theorem witness_sync_ready : readyAll (words_sync) = true := by decide +kernel

/-- Words of the system families, field by field from R26, R27, R30, R32 and R40. -/
def words_system : List (Word × Word × Instr) := [
    (0b000_00_1_1111111_00000_0000000000_0000, 0b0100000001_0000000000_0000000000_00, .trap cL (.s 1)),
    (0b000_00_1_1111111_00001_0000000000_0000, 0b0100001000_0000000000_0000000000_00, .rteReplay cL (.s 8)),
    (0b000_00_0_1111111_00010_0000000000_0000, 0, .rteSkip cL),
    (0b000_00_0_1111111_00011_0000000000_0000, 0, .rteResume cL),
    (0b000_00_1_1111111_00100_0100000100_0000, 0b1110000110_0000000000_0000000000_00, .gsr cL (4 : SReg) 6),
    (0b000_00_1_1111111_00101_0000000000_0000, 0b1110000111_0100000100_0000000000_00, .ssr cL 7 (.s 4)),
    (0b000_00_0_1111111_00110_0000000000_0000, 0, .halt cL),
    (0b000_00_0_1111111_00111_0000000000_0000, 0, .brk cL),
    (0b000_00_1_1111111_01000_0000000010_0000, 0b0000000000_0000000000_0000000000_00, .clk cL (.v 2))]

theorem test_decode_system : decodesAll words_system = true := by decide +kernel

/-- Each of them issues with its own effect on the small machine. -/
theorem witness_system_ready : readyAll (words_system) = true := by decide +kernel
/- ### Conditions under which an instruction completes: one machine for each -/

/-- A group with scalar registers set. -/
def scalars (l : List (Nat × Word)) (g : Machine.Group) : Machine.Group :=
  { g with s := l.foldl (fun s x => setAt s x.1 x.2) g.s }

/-- A v register that holds `x` in every lane. -/
def fullV (n : Nat) (x : Word) (g : Machine.Group) : Machine.Group := { g with v := setAt g.v n (List.replicate W x) }

/-- A walk over `n` elements of two rows. -/
def walk (h : Word) (n : Word) : QBind := ⟨h, .w32, 0, 4, n, 256, 2, 512, 1, 0, 0, 0, 0, false, false, false, []⟩

def withQ (n : Nat) (b : QBind) (g : Machine.Group) : Machine.Group := { g with q := setAt g.q n (some b) }

/-- A buffer-table entry of context 1, present, with every right: kind, lines, placement map, and the fields `more`. -/
def buffer (kind lines map more : Nat) : BitVec 512 :=
  BitVec.ofNat 512 (2 ^ 56 + lines * 2 ^ 64 + 31 * 2 ^ 96 + kind * 2 ^ 104 + 2 ^ 112 + 2 ^ 132 + map * 2 ^ 224 + more)

/-- Buffers 1 (plain, shadowed), 2 (SYNC), 3 (VERSIONED, one replica) 4 (with a row map) and 5 (GATHERED), slot 0, and mailbox 0 of two messages. -/
def world (s : State) : State :=
  { s with
    bufs := [(1, buffer 0 16 0x100000 (0x10000 + 0x100010 * 2 ^ 288)), (2, buffer 2 4 0x100100 0), (3, buffer 1 4 0x100100 (2 ^ 448)),
      (4, buffer 0 16 0x100000 (0x140000 * 2 ^ 352 + 3 * 2 ^ 408 + 8 * 2 ^ 420)), (5, buffer 0 16 0x100000 (2 ^ 106))]
    slots := [((0, 0), (1, 0))]
    mem := Memory.store (Memory.store (Memory.store s.mem 0x100000 (leBytes 8 (2 ^ 32 + 0x20) ++ leBytes 8 0 ++ leBytes 8 (2 ^ 32 + 0x22)))
      0x100100 (leBytes 8 (2 ^ 32 + 0x21))) 0x110000 (leBytes 8 (1 + 1 * 2 ^ 4 + 2 ^ 8))
    ctxs := s.ctxs.map (fun c => { c with mbtab := 0x110000 }) }

def yes (_ : State) (_ : Machine.Group) (_ : Mask) : Bool := true

/-- LOOP and LOOPQ whose setup is legal, and LBRK of an active level (R79, R82). -/
theorem witness_loops :
    meets (.loop cL 0 (.imm 3) 12) cL id id (fun s g _ => s.loopOk g 0 12 true) = true ∧
    meets (.loopq cL 0 3 20 1) cL (withQ 3 (walk 1 5)) world (fun s g _ => s.loopOk g 0 20 true && (regQ g 3).isSome) = true ∧
    meets (.lbrk cL 0) cL (fun g => { g with levels := [⟨0, 64, .count⟩] }) id (fun _ g _ => decide (0 < g.levels.length)) = true := by
  decide +kernel

def boundBy (s : State) (g : Machine.Group) (h ds : Nat) (it : IT) : QBind :=
  let w := fun (j : Nat) => nth 0 g.s (ds + j)
  let none_ := w 2 == 0 || w 4 == 0 || w 6 == 0
  let _ := s
  QBind.mk (nth 0 g.s h) it (w 0) (w 1) (w 2) (w 3) (w 4) (w 5) (w 6) (w 7) 0 0 0 none_ none_ none_ []

/-- QBIND of a walk that its buffer admits, one that ends at the buffer's last element, and an empty one (R86). -/
theorem witness_binds :
    meets (.qbind cL 1 2 8 .w32) cL (scalars [(2, 1), (9, 4), (10, 8), (12, 1), (14, 1)]) world (fun s g e =>
      e != 0 && !(boundBy s g 2 8 .w32).e0 && (s.bindFault g.ctx (boundBy s g 2 8 .w32)).isNone) = true ∧
    meets (.qbind cL 1 2 8 .w32) cL (scalars [(2, 1), (8, 4092 - 4 * 63), (9, 4), (10, 1), (12, 1), (14, 1)]) world (fun s g e =>
      e != 0 && (s.bindFault g.ctx (boundBy s g 2 8 .w32)).isNone) = true ∧
    meets (.qbind cL 1 2 8 .w32) cL (scalars [(2, 1)]) world (fun s g e => e != 0 && (boundBy s g 2 8 .w32).e0) = true := by
  decide +kernel

def targetsGood (s : State) (g : Machine.Group) (e : Mask) (tgt : Nat → Option Word) : Bool :=
  (lanesOf e).all (fun i => match tgt i with | some t => (s.targetFault g t).isNone | none => true)

/-- Branches whose targets lie in the image: forward, to its last word, to a register target, and back to its first (R65 to R69). -/
theorem witness_branches :
    meets (.bra cL .none 6) cL id id (fun s g e => targetsGood s g e (fun _ => some (directTarget s 6))) = true ∧
    meets (.brc cL false 0 (.v 1) .none 6) cL (fullV 1 1) id (fun s g e => targetsGood s g e (fun i =>
      if brcTest s g false 0 (.v 1) i then some (directTarget s 6) else none)) = true ∧
    meets (.brc cL true 0 (.v 1) .none 6) cL (fullV 1 1) id (fun s g e => targetsGood s g e (fun i =>
      if brcTest s g true 0 (.v 1) i then some (directTarget s 6) else none)) = true ∧
    meets (.brx cL (.v 3)) cL (fullV 3 (BitVec.ofNat 32 (2 ^ 20 - 4))) id (fun s g e =>
      g.levels.isEmpty && targetsGood s g e (regTarget 1 (.v 3) s g)) = true ∧
    meets (.brx cL (.s 3)) cL id id (fun s g e => g.levels.isEmpty && targetsGood s g e (regTarget 1 (.s 3) s g)) = true ∧
    meets (.call cL (.s 9) .none 6) cL id id (fun s g e =>
      g.levels.isEmpty && targetsGood s g e (fun _ => some (directTarget s 6))) = true ∧
    meets (.callReg cL (.s 9) (.s 8)) cL (scalars [(8, 256)]) id (fun s g e =>
      g.levels.isEmpty && targetsGood s g e (regTarget 1 (.s 8) s g)) = true ∧
    meets (.ret cL (.s 9)) cL (scalars [(9, 256)]) id (fun s g e =>
      g.levels.isEmpty && targetsGood s g e (regTarget 0 (.s 9) s g)) = true := by
  decide +kernel

/-- The group's lanes are calm and stand where BranchMovesItsLanes and the frames ask. -/
def calmTest (g : Machine.Group) : Bool :=
  g.levels.isEmpty && (List.range W).all (fun i => decide (nth .free g.wait i = .free) && (nth none g.sigG i).isNone &&
    (nth none g.sigP i).isNone && (nth none g.sigT i).isNone)

/-- BRC and BRA on a calm machine whose lanes all stand at it, one lane guarded off. -/
theorem witness_branch_of_calm_lanes :
    meets (.brc ⟨0, .lane, some 2, false, false⟩ false 0 (.v 1) .none 6) ⟨0, .lane, some 2, false, false⟩
      (fun g => fullV 1 1 { g with m := setAt g.m 2 (allLanes - 1) }) id (fun s g e =>
        calmTest g && s.groups.all calmTest && decide (s.cur.phase = .group) &&
        s.cur.members.all (fun m => decide (m.may = m.lanes)) && decide (g.pcs.length = W) && e != 0 && e != allLanes &&
        targetsGood s g e (fun i => if brcTest s g false 0 (.v 1) i then some (directTarget s 6) else none)) = true ∧
    meets (.bra ⟨0, .lane, some 2, false, false⟩ .none 6) ⟨0, .lane, some 2, false, false⟩
      (fun g => { g with m := setAt g.m 2 (allLanes - 1) }) id (fun s g e =>
        calmTest g && s.groups.all calmTest && decide (s.cur.phase = .group) &&
        s.cur.members.all (fun m => decide (m.may = m.lanes)) && decide (g.pcs.length = W) && e != 0 && e != allLanes &&
        targetsGood s g e (fun _ => some (directTarget s 6))) = true := by
  decide +kernel

/-- IntegerLaneValues and the frames: a calm machine, registers of W elements, at the first and the last v of the budget. -/
theorem witness_calm_lanes :
    meets (.iadd cL .w32 false (.v 63) (.v 0) (.v 63)) cL id id (fun s g e =>
      s.groups.all calmTest && laneBit e 0 && laneBit e 63 && decide ((s.vec g 1 0 (.v 0)).length = W) &&
        decide ((s.vec g 2 0 (.v 63)).length = W) && decide ((s.vec g 3 0 (.v 63)).length = W)) = true ∧
    meets (.iaddc cL .w32 (.v 2) (.v 0) (.v 1) 3) cL id id (fun s _ e => s.groups.all calmTest && e != 0) = true := by
  decide +kernel

/-- IntegerFrame: each of its instructions issues on a calm machine, and all rows but one read no walk. -/
theorem witness_integer_frames :
    (words_integer.filter (fun x => x.2.2.desc.any (fun d => d.walks.isEmpty))).length = words_integer.length - 1 ∧
    words_integer.all (fun x => match x.2.2.ctl with
      | some c => meets x.2.2 c id id (fun s _ _ => s.groups.all calmTest)
      | none => false) = true := by
  decide +kernel
/-- SIGN at its own issue passes its checks (R103). -/
theorem witness_sign :
    (let s := placed (.sign cP) cP id id
     match (Instr.sign cP).desc, s.issuer with
     | some d, some g => decide (s.cur.phase ≠ .instance_) && (precheck (.sign cP) cP d s g).isNone
     | _, _ => false) = true := by
  decide +kernel

/-- CVWAIT of lanes, and of a handler where the generation differs (R113, R395). -/
theorem witness_cvwait :
    meets (.cvwait cL (.v 1) 9) cL id id (fun s _ _ => decide (s.cur.phase ≠ .handler)) = true ∧
    (let i := Instr.cvwait cL (.s 1) 0
     let s := placed i cL (fun g => scalars [(1, 5)] { g with inh := true, hpc := 4, hpos := some ⟨0, 1⟩ }) id
     readyTest i cL { s with cur := { s.cur with phase := .handler } } &&
       (match s.issuer with
         | some g => s.gen (g.selReg 0) != BitVec.ofNat 16 (nth 0 (s.vec g 1 0 (.s 1)) 0).toNat
         | none => false)) = true := by
  decide +kernel

/-- `FpQuiet` as a test: no lane can fault on its values (R144 to R146). -/
def quiet (s : State) (c : Ctl) (d : Opd) (srcs : List (Nat × Opd)) : Bool :=
  (s.execs c).all (fun x => decide (enablesOf x.1.fpstat = 0) &&
    (s.nomark x.1.ctx || decide (s.markerFaults x.1 d.isScalarDst x.2 srcs = [])))

/-- Rows of a floating-point instruction: it issues, and is quiet with the sources given. -/
def quietAll (l : List (Instr × Opd × List (Nat × Opd))) : Bool :=
  l.all (fun x => match x.1.ctl with
    | some c => meets x.1 c id id (fun s _ e => e != 0 && quiet s c x.2.1 x.2.2)
    | none => false)

/-- The floating-point instructions of FloatResults on cleared registers, with a vector and with a scalar destination. -/
theorem witness_float_quiet : quietAll [
    (.fadd cL .f32 .rne false (.v 2) (.v 0) (.v 1) (.v 0), .v 2, [(1, .v 0), (2, .v 1)]),
    (.fadd cL .f32 .sr false (.v 2) (.v 0) (.v 1) (.s 3), .v 2, [(1, .v 0), (2, .v 1)]),
    (.fadd cL .f32 .rne false (.s 2) (.s 0) (.s 1) (.v 0), .s 2, [(1, .s 0), (2, .s 1)]),
    (.fsub cL .f16 .rne false (.v 2) (.v 0) (.v 1) (.v 0), .v 2, [(1, .v 0), (2, .v 1)]),
    (.fmul cL .bf16 .rne true (.v 2) (.v 0) (.v 1) (.v 0), .v 2, [(1, .v 0), (2, .v 1)]),
    (.fmin cL .f32 (.v 2) (.v 0) (.v 1), .v 2, [(1, .v 0), (2, .v 1)]), (.fmax cL .f32 (.v 2) (.v 0) (.v 1), .v 2, [(1, .v 0), (2, .v 1)]),
    (.fminn cL .f32 (.v 2) (.v 0) (.v 1), .v 2, [(1, .v 0), (2, .v 1)]), (.fmaxn cL .f32 (.v 2) (.v 0) (.v 1), .v 2, [(1, .v 0), (2, .v 1)]),
    (.ffma cL .f32 .rne (.v 2) (.v 0) (.v 1) (.v 3), .v 2, [(1, .v 0), (2, .v 1), (3, .v 3)]),
    (.fcmp cL .f32 .lt (.v 2) (.v 0) (.v 1), .v 2, [(1, .v 0), (2, .v 1)]), (.fclass cL .f32 (.v 2) (.v 0), .v 2, []),
    (.fcvt cL .i32 .f32 .rne false (.v 2) (.v 0) (.v 0), .v 2, [(1, .v 0)]), (.fcvt cL .f32 .i32 .rne false (.v 2) (.v 0) (.v 0), .v 2, []),
    (.frnd cL .f32 .rz (.v 2) (.v 0), .v 2, [(1, .v 0)]), (.fscale cL .f32 .rne (.v 2) (.v 0) (.v 1), .v 2, [(1, .v 0)]),
    (.fsqrt cL .f32 .rne (.v 2) (.v 0), .v 2, [(1, .v 0)]), (.frcp cL .f32 (.v 2) (.v 0), .v 2, [(1, .v 0)]),
    (.frsq cL .f32 (.v 2) (.v 0), .v 2, [(1, .v 0)]), (.fdivs cL .f32 (.v 2) (.v 0) (.v 1), .v 2, [(1, .v 0), (2, .v 1)]),
    (.fexp2 cL .f32 (.v 2) (.v 0), .v 2, [(1, .v 0)]), (.flog2 cL .f32 (.v 2) (.v 0), .v 2, [(1, .v 0)]),
    (.fsin cL .f32 (.v 2) (.v 0), .v 2, [(1, .v 0)]), (.fcos cL .f32 (.v 2) (.v 0), .v 2, [(1, .v 0)]),
    (.ftanh cL .f32 (.v 2) (.v 0), .v 2, [(1, .v 0)]), (.fsigm cL .f32 (.v 2) (.v 0), .v 2, [(1, .v 0)])] = true := by
  decide +kernel

/-- FloatResults and PackedResults: lanes that hold a marker, of a context without NOMARK, and a lane whose result raises a flag that
FPSTAT enables (R145, R146). -/
theorem witness_float_faults :
    (let f := fun (g : Machine.Group) => { g with v := setAt g.v 0 (0x7FA00000 :: List.replicate 63 0) }
     let marked := fun (i : Instr) (srcs : List (Nat × Opd)) => meets i cL f id (fun s _ _ =>
       (s.execs cL).any (fun x => decide (fpMarks (.v 2) srcs s x ≠ [])))
     marked (.fadd cL .f32 .rne false (.v 2) (.v 0) (.v 1) (.v 0)) [(1, .v 0), (2, .v 1)] &&
     marked (.pradd cL .f16 .rne false (.v 2) (.v 0) (.v 1) (.v 0)) [(1, .v 0), (2, .v 1)]) = true ∧
    meets (.fsqrt cL .f32 .rne (.v 2) (.v 0)) cL (fun g => { g with fpstat := 0x1F00, v := setAt g.v 0 (0xBF800000 :: List.replicate 63 0) }) id
      (fun s _ _ => (s.execs cL).any (fun x => decide (fpTrapped (.v 2) [(1, .v 0)] (fun s g => FpOut.mk
        (fun _ => (s.fvec g 1 (ftFmt .f32) (.v 0)).map (fun x => fpFinish (ftFmt .f32) .rne false 0 (fvSqrt x)))
        (fun _ => fpFinish (ftFmt .f32) .rne false 0 (fvSqrt (s.fscal g 1 (ftFmt .f32) (.v 0))))) s x = 1))) = true := by
  decide +kernel

/-- The packed instructions of PackedResults on cleared registers. -/
theorem witness_packed_quiet : quietAll [
    (.pradd cL .f16 .rne false (.v 2) (.v 0) (.v 1) (.v 0), .v 2, [(1, .v 0), (2, .v 1)]),
    (.pradd cL .bf16 .sr true (.v 2) (.v 0) (.v 1) (.s 3), .v 2, [(1, .v 0), (2, .v 1)]),
    (.prmul cL .bf16 .rne true (.v 2) (.v 0) (.v 1) (.v 0), .v 2, [(1, .v 0), (2, .v 1)]),
    (.prfma cL .f16 .rne false (.v 2) (.v 0) (.v 1) (.v 3), .v 2, [(1, .v 0), (2, .v 1), (3, .v 3)]),
    (.dp4i cL true (.v 2) (.v 0) (.v 1) (.v 3), .v 2, []), (.dp8i cL false (.v 2) (.v 0) (.v 1) (.v 3), .v 2, []),
    (.dpf8 cL false true (.v 2) (.v 0) (.v 1) (.v 3), .v 2, [(1, .v 0), (2, .v 1), (3, .v 3)]),
    (.dpf4 cL (.v 2) (.v 0) (.v 1) (.v 3), .v 2, [(1, .v 0), (2, .v 1), (3, .v 3)]),
    (.mxsc cL true (.v 2) (.v 0) (.v 1) (.v 0), .v 2, [(1, .v 0)]),
    (.pcvt cL .f16 .f32 .rne false (.v 2) (.v 4) (.v 0), .v 2, [(1, .v 4), (1, .v 5)]),
    (.punp cL .e4m3 false (.v 2) (.v 0), .v 2, [])] = true := by
  decide +kernel

/-- A bank that context 1 owns, and loads of bank 0 at the instruction, with their core. -/
def banked (loads : List TblLoad) (s : State) : State :=
  s.modCore ⟨0, 0⟩ (fun k => { k with tables := List.replicate 2 ⟨some 1, []⟩, loads := loads })

/-- FACT with its bank's owner and no load, TBLLD complete and TBLLD starting, at offset 0 and at the last that fits (R161 to R164). -/
theorem witness_tables :
    meets (.fact cL .f32 (.v 2) (.v 0)) cL id (banked []) (fun s g e => quiet s cL (.v 2) [(1, .v 0)] &&
      (s.execs cL).all (fun x => !s.loadOn x.1.core (b2n x.1.bank) && (x.2 == 0 || decide ((s.bankOf x.1).owner = some x.1.ctx))) &&
      e != 0 && decide (g.ctx = 1)) = true ∧
    meets (.tblld cL (.s 1) 0) cL id (banked [⟨0, 0, 1, ⟨0, 0, 0⟩, 4, false, true⟩]) (fun s g _ =>
      ((s.core g.core).loads.find? (isLoadOf g.key s.cur.pc)).any (fun l => l.done)) = true ∧
    ([0, 524288 - tableBytes].all (fun off => meets (.tblld cL (.s 1) 0) cL (scalars [(1, BitVec.ofNat 32 off)]) (banked []) (fun s g e =>
      let off := (s.scal g 1 0 (.s 1)).toNat
      e != 0 && ((s.core g.core).loads.find? (isLoadOf g.key s.cur.pc)).isNone && decide (off % 16 = 0 ∧ off + tableBytes ≤ 524288) &&
        !(s.core g.core).segRefused g.ctx off tableBytes))) = true := by
  decide +kernel

/-- Partial sorts of unmarked values: K 1, K 64 and beyond, and K 0 (R174 to R177). -/
theorem witness_partial_sorts :
    ([1, 64, 200].all (fun k => meets (.vtopk cG false 2 0 (.v 1) (.s 3)) cG (scalars [(3, k)]) id (fun s g e =>
      let kk := min (s.once 3 (.s 3)).toNat W
      decide (kk ≠ 0) && s.topMarkers g (maskOf (fun i => decide (i < kk))) (s.vec g 0 0 (.v 2)) == 0 &&
        s.topMarkers g e (s.vec g 1 0 (.v 0)) == 0))) = true ∧
    ([1, 64].all (fun k => meets (.vtopkm cG true 2 4 (.s 3)) cG (scalars [(3, k)]) id (fun s g _ =>
      let kk := min (s.once 2 (.s 3)).toNat W
      decide (kk ≠ 0) && s.topMarkers g (maskOf (fun i => decide (i < kk))) (s.vec g 0 0 (.v 2)) == 0 &&
        s.topMarkers g (maskOf (fun i => decide (i < kk))) (s.vec g 1 0 (.v 4)) == 0))) = true ∧
    meets (.vtopk cG false 2 0 (.v 1) (.s 3)) cG id id (fun s _ _ => decide ((s.once 3 (.s 3)).toNat = 0)) = true ∧
    meets (.vtopkm cG false 2 4 (.s 3)) cG id id (fun s _ _ => decide ((s.once 2 (.s 3)).toNat = 0)) = true ∧
    meets (.argmx cG .f32 false (.s 2) (.v 0) (.v 1)) cG id id (fun s _ _ =>
      (s.execs cG).all (fun x => s.topMarkers x.1 x.2 (s.vec x.1 1 0 (.v 0)) == 0)) = true := by
  decide +kernel

/-- Partial sorts where a value that takes part is a marker, in the candidates, and in the first place of the list (R146). -/
theorem witness_partial_sorts_of_markers :
    (let f := fun (n : Nat) (g : Machine.Group) => scalars [(3, 1)] { g with v := setAt g.v n (List.replicate 64 0x7FA00000) }
     let low : Mask := maskOf (fun i => decide (i < 1))
     let sees := fun (n : Nat) (i : Instr) (p : State → Machine.Group → Mask → Bool) =>
       meets i cG (f n) id (fun s g e => decide ((s.once 3 (.s 3)).toNat = 1) && p s g e)
     sees 0 (.vtopk cG false 2 0 (.v 1) (.s 3)) (fun s g e => s.topMarkers g e (s.vec g 1 0 (.v 0)) != 0) &&
     sees 2 (.vtopk cG false 2 0 (.v 1) (.s 3)) (fun s g _ => s.topMarkers g low (s.vec g 0 0 (.v 2)) != 0) &&
     sees 4 (.vtopkm cG true 2 4 (.s 3)) (fun s g _ => s.topMarkers g low (s.vec g 1 0 (.v 4)) != 0) &&
     sees 0 (.argmx cG .f32 false (.s 2) (.v 0) (.v 1)) (fun s _ _ =>
       (s.execs cG).any (fun x => s.topMarkers x.1 x.2 (s.vec x.1 1 0 (.v 0)) != 0))) = true := by
  decide +kernel

/-- The unit of the reading group has room, and `p` holds of it (MxRoom). -/
def roomy (p : State → Machine.Group → Mx → Bool) (s : State) (_ : Machine.Group) (_ : Mask) : Bool :=
  match s.readerOf with
  | none => false
  | some g => match s.mxFor g.pkey g.ctx with
    | none => false
    | some m => decide (m.queue.length < 16) && p s g m

def inRange (a : Opd) (n align : Nat) (s : State) (g : Machine.Group) (_ : Mx) : Bool :=
  (spRangeFault s g (s.once 1 a).toNat n align).isNone

/-- A unit of context 1 in the issuing partition, changed by `f`. -/
def unit (f : Mx → Mx) (s : State) : State := s.setMx ⟨0, 0, 0⟩ (f (Mx.fresh 1))

/-- The matrix instructions with a fresh unit, one with fifteen entries queued, and scratchpad ranges at both ends (R184, R195 to R199). -/
theorem witness_matrix_enters :
    (meets (.mwfm cG) cG id id (roomy (fun _ _ m => m.queue.all (fun e => !isMwld e.op))) &&
      meets (.mwfm cG) cG id (unit (fun m => { m with queue := List.replicate 15 ⟨.mrel, 0⟩ })) (roomy (fun _ _ m => m.queue.all (fun e => !isMwld e.op))) &&
      meets (.mfin cG) cG id id (roomy (fun _ _ m => m.queue.isEmpty))) = true ∧
    ([Instr.mwsw cG, .mzero cG 3, .mrel cG, .mrow cG 3 (.s 4), .mcol cG 0 (.s 4), .mrda cG true 1 (.v 8) 4 (.s 2) (.imm 8),
      .mwra cG 2 (.v 8) 4 (.s 2) (.imm 8)].all (fun i => meets i cG id id (roomy (fun _ _ _ => true)) &&
        meets i cG id (unit (fun m => { m with queue := List.replicate 15 ⟨.mrel, 0⟩ })) (roomy (fun _ _ _ => true)))) = true ∧
    ([0, 524288 - 128 * 128].all (fun off => meets (.mwld cG .e4m3 (.s 1) (.s 2)) cG (scalars [(1, BitVec.ofNat 32 off)]) id
      (roomy (fun s g m => inRange (.s 1) (weightBytes (colsOf g.core.die)) 128 s g m &&
        (spRangeFault s g (s.once 2 (.s 2)).toNat (scaleBytes .e4m3 (colsOf g.core.die)) 16).isNone)))) = true ∧
    meets (.mwld cG .bf16 (.s 1) (.v 0)) cG id id (roomy (fun s g m => inRange (.s 1) (weightBytes (colsOf g.core.die)) 128 s g m)) = true ∧
    meets (.msca cG (.s 1)) cG (scalars [(1, 0x3F800000)]) id (roomy (fun s _ _ => !isMarker (s.once 1 (.s 1)))) = true ∧
    meets (.msca cG (.imm 4)) cG id id (roomy (fun _ _ _ => true)) = true ∧
    meets (.msta cG 1 (.s 1) .f32) cG id id (roomy (fun s g m => inRange (.s 1) (128 * colsOf g.core.die * tileSize .f32) 128 s g m)) = true ∧
    meets (.mlda cG 1 (.s 1)) cG id id (roomy (fun s g m => inRange (.s 1) (128 * colsOf g.core.die * 4) 128 s g m)) = true := by
  decide +kernel

def viewOf (fmt : Option TC) (latch : Option (AKind × Nat)) (m : Mx) : Mx :=
  { m with view := { m.view with fmt0 := fmt, latch := latch } }

/-- MMA with its latch, MMA with its registers, and the three causes of MATRIX_STATE (R185 to R192). -/
theorem witness_mma :
    (let i := Instr.mma cG .e4m3 true 1 0 3 (.v 4) (.s 5) (.imm 0)
     let k := mxK .e4m3
     meets i cG id (unit (viewOf (some .e4m3) (some (.e4m3, k)))) (roomy (fun _ _ m =>
       decide (m.view.activeFmt = some .e4m3) && mxPairs .e4m3 .e4m3 && decide (m.view.latch = some (.e4m3, k)))) &&
     meets i cG id (unit (viewOf (some .e4m3) none)) (roomy (fun s g m =>
       decide (m.view.activeFmt = some .e4m3) && m.view.latch.isNone && (runFault g (.v 4) (aRun .e4m3 k)).isNone &&
         (runFault g (.imm 0) (scaleRun .e4m3 k (.imm 0))).isNone &&
         (mmaMarkers s (mmaRows s cG (s.once 2 (.s 5)).toNat) [(1, .v 4, aRun .e4m3 k), (3, .imm 0, scaleRun .e4m3 k (.imm 0))]).isEmpty)) &&
     meets i cG id (unit (viewOf none none)) (roomy (fun _ _ m => m.view.activeFmt.isNone)) &&
     meets i cG id (unit (viewOf (some .bf16) none)) (roomy (fun _ _ m =>
       decide (m.view.activeFmt = some .bf16) && !mxPairs .e4m3 .bf16)) &&
     meets i cG id (unit (viewOf (some .e4m3) (some (.bf16, 64)))) (roomy (fun _ _ m =>
       decide (m.view.activeFmt = some .e4m3) && mxPairs .e4m3 .e4m3 && decide (m.view.latch = some (.bf16, 64))))) = true := by
  decide +kernel

def mwldOp : MxOp := .mwld .e4m3 0 0
def mmaOp (pass : Nat) : MxOp := .mma .e4m3 true 0 0 0 false [] allPred allPred pass

/-- The queue heads of MatrixEngineSteps: a loader's head, none behind an MWSW, MWSW free and behind an MWLD, an array
instruction that may run and one that has passes of its own, and the first and the last pass of an MMA (R186, R187, R192). -/
theorem witness_matrix_engines :
    (loaderHead [⟨mmaOp 0, 0⟩, ⟨mwldOp, 4⟩] = some ⟨mwldOp, 4⟩) ∧ loaderHead [⟨.mwsw, 0⟩, ⟨mwldOp, 4⟩] = none ∧
    arrayHead false [⟨.mwsw, 0⟩] = some (⟨.mwsw, 0⟩, false) ∧ arrayHead false [⟨mwldOp, 0⟩, ⟨.mwsw, 4⟩] = some (⟨.mwsw, 4⟩, true) ∧
    arrayMayRun (.mzero 0) = true ∧ arrayMayRun (mmaOp 0) = false ∧
    arrayHead false [⟨mmaOp 0, 0⟩] = some (⟨mmaOp 0, 0⟩, false) ∧ 0 + 1 < mxPasses .e4m3 .e2m1 ∧ ¬ 1 + 1 < mxPasses .e4m3 .e2m1 := by
  decide +kernel

def accessOk (c : Ctl) (scalar : Bool) (reg : Nat) (dst : Option (Opd × Nat))
    (f : State → GKey → State → Nat → Mask → State × LaneRes) (s : State) : Bool :=
  (accessRun [] c scalar reg dst (f s) s).2.2.isEmpty

/-- v `n` holds `a + k * lane`. -/
def ramp (n : Nat) (a k : Nat) (g : Machine.Group) : Machine.Group :=
  { g with v := setAt g.v n ((List.range W).map (fun i => BitVec.ofNat 32 (a + k * i))) }

/-- Lanes 0 to 3 alone execute, a line apart each: which requests of one line are one is a free choice (R272). -/
abbrev c4 : Ctl := ⟨0, .lane, some 2, false, false⟩
def four (g : Machine.Group) : Machine.Group := { g with m := setAt g.m 2 15 }

/-- The hypotheses of MemoryAccessResults for a form. -/
def memOk (a : Acc) (d : Opd) (x : MemOpd) (s : State) (_ : Machine.Group) (_ : Mask) : Bool :=
  let dst := if a.store then none else some (d, a.it.run)
  (s.allReach c4 a x d.isScalarDst).all (fun r => match r with
    | .at_ p => a.store || decide (p.space ≠ .dev) || !s.inTransit p.buf p.line
    | _ => false) &&
  (accessRun [] c4 d.isScalarDst x.h.code dst (memLane a d x d.isScalarDst s) s.endSpanHold).2.2.isEmpty

/-- The six access instructions: at the buffer's first word and its last, through a row map, and flat (R209 to R216). -/
theorem witness_memory_accesses :
    (let x : MemOpd := ⟨.s 1, .v 1, 0, .team, .rlx⟩
     let xs : MemOpd := ⟨.s 1, .s 2, 0, .team, .rlx⟩
     let y : MemOpd := ⟨.s 1, .v 1, 0, .system, .acq⟩
     let ys : MemOpd := ⟨.s 1, .s 2, 0, .system, .ar⟩
     let flat : MemOpd := ⟨.s 4, .imm 0, 0, .team, .rlx⟩
     let yf : MemOpd := ⟨.s 4, .imm 0, 0, .system, .acq⟩
     let g := fun n => fun g => four (scalars [(1, n)] (ramp 1 0 256 g))
     let last := fun g => four (scalars [(1, 1), (2, 4092)] g)
     meets (.ld c4 .w32 (.v 2) y) c4 (g 1) world (memOk ⟨.w32, false, false, false⟩ (.v 2) y) &&
     meets (.ld c4 .w32 (.s 4) ys) c4 last world (memOk ⟨.w32, false, false, false⟩ (.s 4) ys) &&
     meets (.st c4 .w32 (.v 2) x) c4 (g 1) world (memOk ⟨.w32, true, false, false⟩ (.v 2) x) &&
     meets (.st c4 .w32 (.s 4) xs) c4 last world (memOk ⟨.w32, true, false, false⟩ (.s 4) xs) &&
     meets (.ldx c4 .w32 (.s 4) ys) c4 (fun g => four (scalars [(1, 4)] g)) world (memOk ⟨.w32, false, true, false⟩ (.s 4) ys) &&
     meets (.stx c4 .w32 (.s 4) xs) c4 (fun g => four (scalars [(1, 4), (2, 4092)] g)) world (memOk ⟨.w32, true, true, false⟩ (.s 4) xs) &&
     meets (.ldv c4 .w32 (.s 8) yf) c4 (fun g => four (scalars [(4, 0x10000)] g)) world (memOk ⟨.w32, false, false, true⟩ (.s 8) yf) &&
     meets (.stv c4 .w32 (.s 8) flat) c4 (fun g => four (scalars [(4, 0x10000 + 4092)] g)) world (memOk ⟨.w32, true, false, true⟩ (.s 8) flat)) = true := by
  decide +kernel

/-- PREF, FENCE, BTRD and ROWMAP (R219 to R222), and the scratchpad and tag-table forms (R247, R250, R252). -/
theorem witness_buffer_and_scratchpad :
    meets (.pref cL (.s 1) (.s 2) 0) cL (scalars [(1, 1)]) world (fun s _ _ =>
      accessOk cL (!laneForm [.s 1, .s 2]) 0x101 none (fun s k s1 i _ => prefLane (.s 1) (.s 2) 0 (!laneForm [.s 1, .s 2]) s k s1 i) s) = true ∧
    meets (.fence cL .ar .package) cL id world (fun s _ _ => (s.execs cL).all (fun x => !s.vstAwaited x.1 .package)) = true ∧
    meets (.btrd cL (.s 4) 1 15) cL (scalars [(1, 1)]) world (fun s _ _ =>
      (s.execs cL).all (fun x => x.2 == 0 || (s.entryFault x.1.ctx (s.scal x.1 1 0 (.s 1))).isNone)) = true ∧
    ([0, 3].all (fun row => meets (.rowmap cL true 1 (.s 2) (.imm 3)) cL (scalars [(1, 4), (2, row)]) world (fun s _ _ =>
      accessOk cL (!laneForm [.s 2, .imm 3]) 0x101 none
        (fun s k s1 i who => rowmapLane true 1 (.s 2) (.imm 3) (!laneForm [.s 2, .imm 3]) s k s1 i who) s))) = true ∧
    ([0, 524284].all (fun o => meets (.ldsp cL .w32 (.s 4) (.s 1) (.imm 0)) cL (scalars [(1, o)]) id (fun s g _ =>
      ((s.core g.core).spCheck g.ctx (s.scal g 1 0 (.s 1)).toNat 4 true).isNone))) = true ∧
    meets (.stsp cL .w32 (.v 4) (.v 1) (.imm 0)) cL (ramp 1 0 4) id (fun s g e =>
      (lanesOf e).all (fun i => ((s.core g.core).spCheck g.ctx (nth 0 (s.vec g 1 0 (.v 1)) i).toNat 4 false).isNone)) = true ∧
    meets (.tlook cL (.v 4) (.v 1)) cL id id yes = true ∧
    ([0, 255].all (fun n => meets (.tset cL (.s 1) (.s 2)) cL (scalars [(1, n)]) id (fun s g _ =>
      ((s.core g.core).slotFault g.ctx (s.scal g 1 0 (.s 1)).toNat).isNone))) = true ∧
    meets (.tclr cL (.s 1)) cL id id (fun s g _ => ((s.core g.core).slotFault g.ctx (s.scal g 1 0 (.s 1)).toNat).isNone) = true := by
  decide +kernel
/-- The small machine with its buffers, at a NOP. -/
def small : State := placed (.nop cL) cL id world
def key0 : GKey := ⟨0, 0, 0⟩
/-- The first word of buffer 1, and of the SYNC buffer 2. -/
def first1 : Phys := ⟨.dev, 0x200000, 0, 1, 0⟩
def first2 : Phys := ⟨.dev, 0x210000, 0, 2, 0⟩

def hasGroup (s : State) (p : Machine.Group → Bool) : Bool := match s.group? key0 with | some g => p g | none => false

/-- The small machine with the frame of buffer 1 owned by context 1. -/
def owned : State := small.setFrame (frameKey first1.addr) (frameRec 1 false 0 1)

/-- LoadReadsMemory and StoreOnlyPends: the groups have nothing outstanding, and the frame has no owner, or context 1 (R215). -/
theorem witness_load_and_store :
    hasGroup small (fun g => small.groups.all (fun h => h.pending.isEmpty) && decide (first1.die = g.core.die)) = true ∧
    (small.entry first1.buf).kind ≠ 1 ∧ frameOwner (small.frame (frameKey first1.addr)) = 0 ∧ tierOf first1.addr = 0 ∧
    small.meetsTable first1.addr 4 = false ∧
    hasGroup owned (fun g => decide (frameOwner (owned.frame (frameKey first1.addr)) = g.ctx) && owned.holdsFrame g.ctx first1 &&
      owned.groups.all (fun h => h.pending.isEmpty) && decide (owned.rehome first1 = first1) &&
      !owned.retained.contains (frameKey first1.addr)) = true := by
  decide +kernel

/-- A pending store of four bytes in a lane of the group. -/
def pendingStore (lane addr line issue : Nat) : Pending :=
  ⟨BitVec.ofNat 64 (2 ^ lane), ⟨.dev, addr, 0, 1, line⟩, 1, .store [1, 2, 3, 4], none, none, issue, [], none⟩

/-- PerformedStoreWritesItsBytes: a group with two pending stores, either of which may go (R281). -/
theorem witness_performed_store :
    (let p := pendingStore 0 0x200000 0 1
     let q := pendingStore 1 0x200FFC 15 1
     let s := owned.modGroup key0 (fun g => { g with pending := [p, q] })
     s.canPerform key0 p [] && s.canPerform key0 q [p] && [p, q].all (fun e => s.holdsFrame e.ctx e.at_ &&
       decide (tierOf e.at_.addr = 0) && e.rel.isNone && e.acq.isNone && e.seen.isEmpty && s.isPlain e.at_.addr 4 && !e.isFence) && Memory.wf s.mem) = true := by
  decide +kernel

/-- ScratchpadLaneReadsAndWrites: the first word and the last of the scratchpad (R247). -/
theorem witness_scratchpad_lane :
    [0, 524284].all (fun o => hasGroup small (fun g =>
      ((small.core g.core).spCheck g.ctx o 4 false).isNone && ((small.core g.core).spCheck g.ctx o 4 true).isNone && small.late.isEmpty && Sparse.wf (0 : Byte) (small.core g.core).sp)) = true := by
  decide +kernel

/-- The in-place operations, RESTRIPE, RSQRY, NBKICK and NBSTAT (R232 to R245). -/
theorem witness_in_memory :
    (let ip := fun (i : Instr) (f : IpFn) (b : Opd) => meets i c4 (fun g => four (scalars [(2, 5), (4, 256), (5, 512)] g)) world (fun s _ _ =>
       accessOk c4 false 0x102 none (ipLane f 2 (.s 3) (.s 4) b) s)
     ip (.ipadd c4 .i16 true 2 (.s 3) (.s 4) (.s 5)) (.add .i16 true) (.s 5) &&
     ip (.ipsub c4 .w32 false 2 (.s 3) (.s 4) (.s 5)) (.sub .w32 false) (.s 5) &&
     ip (.ipmin c4 .i32 2 (.s 3) (.s 4) (.s 5)) (.least .i32) (.s 5) && ip (.ipmax c4 .i32 2 (.s 3) (.s 4) (.s 5)) (.greatest .i32) (.s 5) &&
     ip (.ipmac c4 .bf16 2 (.s 3) (.s 4) (.s 5)) (.mac .bf16) (.s 5) && ip (.ipcpy c4 2 (.s 3) (.s 4)) .copy (.s 4)) = true ∧
    ([0, 63].all (fun tag => meets (.restripe cL true 2 (BitVec.ofNat 6 tag) (.s 6)) cL (scalars [(2, 1)]) world (fun s g _ =>
      (s.restripeFault g (s.scal g 1 0 (.s 2)) true tag).isNone))) = true ∧
    meets (.rsqry cL (.s 4) 2) cL (scalars [(2, 1)]) world (fun s _ _ =>
      (s.execs cL).all (fun x => x.2 == 0 || (s.entryFault x.1.ctx (s.scal x.1 1 0 (.s 2))).isNone)) = true ∧
    meets (.nbkick cL 2 (.s 3) 16 9) cL (scalars [(2, 5), (17, 1024), (26, 1)]) world (fun s g _ =>
      (s.kickFault g (s.scal g 1 0 (.s 2)) (s.scal g 2 0 (.s 3)).toNat 9 ((List.range 14).map (fun j => s.scal g 3 j (.s 16)))).isNone) = true ∧
    meets (.nbstat cL (.v 4) 9) cL id world yes = true := by
  decide +kernel

def tagged (op : TagOp) (t : Tag → Tag) (s : State) : State :=
  s.modCore ⟨0, 0⟩ (fun c => { c with tags := [t ⟨3, 1, false, false, .copy, key0, 4, op, 0, none, none, false, false, none, false, false, 0⟩] })

/-- EngineSteps: a restripe that may move, one in transit at its first line and at its last, a kick with two steps, a copy
with a segment to run and one that is held, and none (R227, R242, R259, R374). -/
theorem witness_engines :
    (let moving := fun (n : Nat) => small.setEntry 1 (buffer 0 16 0x100000 (n * 2 ^ 160 + 2 ^ 192 + 2 ^ 201))
     let s := moving 0
     s.mayMove 1 && !s.mayMove 2 && (s.moveLost 1).isNone && (({ s with lost := [0] } : State).moveLost 1).isSome && (!s.transit.contains 1) && ({ s with transit := [1] } : State).transit.contains 1 &&
       decide ((s.entry 1).milestone + 1 ≠ (s.entry 1).lines) && decide (((moving 15).entry 1).milestone + 1 = ((moving 15).entry 1).lines) &&
       Sparse.wf (0 : BitVec 512) s.bufs) = true ∧
    (let copy := TagOp.copy 0 1 0x100000 0 0 0 64 1 0 0 0 0
     let may := fun (s : State) => (s.core ⟨0, 0⟩).tags.any (fun x => x.num == 3 && s.maySegment ⟨0, 0⟩ x)
     may (tagged copy id small) && may (tagged copy (fun t => { t with held := some ⟨List.replicate 64 0, []⟩, released := true }) small) &&
       !may small && (tagged copy (fun t => { t with held := some ⟨List.replicate 64 0, []⟩ }) small).cores.any (fun c => c.tags.any (fun x =>
         x.num == 3 && x.held.isSome && !x.released))) = true := by
  decide +kernel

/-- A kick runs on tag 3. -/
def kicking : State := tagged (.kick 5 0x100000 0 0 [] [0, 1] [] 0) id small

theorem choice_of_one {α : Type} {l : List α} (n : Nat) (h : l.length ≤ 1) : choice n l = l.head? := by
  cases l with
  | nil => simp [choice]
  | cons x t => cases t with
    | nil => simp [choice, Nat.mod_one]
    | cons y t => simp at h

/-- EngineSteps: a tag number whose kick runs, and one that has none (R242). -/
theorem witness_kick : (kicking.kickOf ⟨0, 0⟩ 3).isSome = true ∧ kicking.kickOf ⟨0, 0⟩ 4 = none := by
  constructor <;> rw [State.kickOf, choice_of_one _ (by decide +kernel)] <;> decide +kernel

/-- EngineSteps: the next step of a kick, the only one to come, reaches a die that is lost, and one that is not (R343). -/
theorem witness_kick_meets_lost :
    small.kickNext [] [0] = some 0 ∧ (({ small with lost := [0] } : State).kickMeetsLost 1 0x100000 [] 0).isSome = true ∧
    small.kickMeetsLost 1 0x100000 [] 0 = none :=
  ⟨by simp [State.kickNext, choice, Nat.mod_one], by decide +kernel⟩

/-- InPlaceLaneWritesOneWord: a frame of context 1, the sources' words with and without an error, and an accepted lane that is
performed (R236 to R238). -/
theorem witness_in_place_lane :
    (let s := owned
     let at_ := fun (o : Nat) => s.phys (s.entry 5) 5 o
     [0, 32, 4064].all (fun o => decide (frameOwner (s.frame (frameKey (at_ o).addr)) = 1 ∧ tierOf (at_ o).addr = 0) &&
       s.isPlain (at_ o).addr wordBytes && !s.poisoned (at_ o).addr wordBytes) &&
       ({ s with poison := [(at_ 32).addr / 32] } : State).poisoned (at_ 32).addr wordBytes && Memory.wf s.mem &&
       Sparse.wf (0 : BitVec 64) s.frames && s.groups.all (fun g => g.pending.isEmpty) && decide (s.rehome (at_ 0) = at_ 0) &&
       s.holdsFrame 1 (at_ 0)) = true ∧
    hasGroup (small.modGroup key0 (fun g => { g with checks := true, deciding := some ⟨small.cur, .lane, 0x102⟩ }))
      (fun g => g.checks && g.deciding.isSome) = true := by
  decide +kernel

/-- COPY in both directions and of length 0, COPY.shadow, BLKCPY and SHADOW (R257 to R267). -/
theorem witness_copies :
    (let args := fun (s : State) (g : Machine.Group) (shadow : Bool) => CopyArgs.mk ((List.range 9).map (fun j => s.scal g 1 j (.s 16))) shadow
     let ok := fun (i : Instr) (shadow : Bool) (l : List (Nat × Word)) => meets i cL (scalars l) world (fun s g x =>
       x != 0 && (s.copyFault g 33 (args s g shadow)).isNone)
     ok (.copy cL 33 16) false [(17, 1), (21, 64), (22, 1)] && ok (.copy cL 33 16) false [(17, 1), (21, 0), (22, 1)] &&
     ok (.copy cL 33 16) false [(16, 1), (17, 524224), (19, 1), (21, 64), (22, 1)] &&
     ok (.copyShadow cL 33 16) true [(16, 1), (17, 0), (19, 1), (21, 64), (22, 1)]) = true ∧
    meets (.blkcpy cL 7 2 3 16) cL (fun g => scalars [(2, 1), (16, 4), (17, 64)] (ramp 3 0 1 g)) world (fun s g x => x != 0 && s.lost.isEmpty &&
      (s.blkFault g (s.scal g 1 0 (.s 2)) 7 (s.scal g 3 0 (.s 16)).toNat (s.scal g 3 3 (.s 16)).toNat (s.scal g 3 2 (.s 16)).toNat).isNone) = true ∧
    ([0, 16].all (fun n => meets (.shadow cL 7 2 (.s 3) (.s 4)) cL (scalars [(2, 1), (4, n)]) world (fun s g x => x != 0 &&
      (s.shadowFault g (s.scal g 1 0 (.s 2)) 7 (s.scal g 2 0 (.s 3)).toNat (s.scal g 3 0 (.s 4)).toNat).isNone))) = true := by
  decide +kernel

/-- WAITANY of a DONE tag and of no tag, WAITALL, FFRDY with and without a DONE tag, TAGCLR (R254 to R256). -/
theorem witness_tag_waits :
    (let done := fun s => tagged .none (fun t => { t with done := true }) s
     let own := fun (s : State) (g : Machine.Group) => ((s.core g.core).tagIn (s.tagMask g (.s 4)) (fun t => t.ctx != g.ctx)).isNone
     let ready := fun (s : State) (g : Machine.Group) => (s.core g.core).tagDone g.ctx &&& s.tagMask g (.s 4)
     meets (.waitany cL 2 (.s 4) .die) cL (scalars [(4, 8)]) done (fun s g x => x != 0 && own s g && ready s g != 0) &&
     meets (.waitany cL 2 (.s 4) .die) cL id id (fun s g x => x != 0 && own s g && s.tagMask g (.s 4) == 0) &&
     meets (.waitall cL 2 (.s 4) .system) cL (scalars [(4, 8)]) done (fun s g x => x != 0 && own s g && ready s g == s.tagMask g (.s 4)) &&
     meets (.ffrdy cL 2 (.s 4)) cL (scalars [(4, 8)]) done (fun s g x => x != 0 && own s g && (lowestLane (ready s g)).isSome) &&
     meets (.ffrdy cL 2 (.s 4)) cL id id (fun s g x => x != 0 && own s g && (lowestLane (ready s g)).isNone) &&
     meets (.tagclr cL (.s 4)) cL (scalars [(4, 8)]) done (fun s g x => x != 0 && own s g &&
       ((s.core g.core).tagIn (s.tagMask g (.s 4)) (fun t => !t.done)).isNone)) = true := by
  decide +kernel

/-- PUBLISH at its issue, outstanding with an exchange that may take effect, and exchanged (R268). -/
theorem witness_publish :
    meets (.publish cL 2) cL (scalars [(2, 1)]) world (fun s g x => x != 0 && g.publish.isNone &&
      (s.publishFault g (s.scal g 1 0 (.s 2))).isNone) = true ∧
    meets (.publish cL 2) cL (fun g => { g with publish := some (1, true) }) world (fun _ g x => x != 0 && decide (g.publish = some (1, true))) = true ∧
    (let s := placed (.publish cL 2) cL (fun g => { g with publish := some (1, false) }) world
     hasGroup s (fun g => decide (g.publish = some (1, false)) && s.mayExchange g 1 && s.lost.isEmpty)) = true := by
  decide +kernel

/-- PublishSteps: an exchange of a buffer with a row map, every die lost (R343). -/
theorem witness_publish_lost :
    (let s : State := { small with lost := List.range 8 }
     ∃ d, (s.entry 4).rowMapDies.find? s.lost.contains = some d) := by
  intro s
  have he : (s.entry 4).rmap ≠ 0 := by decide +kernel
  refine Option.isSome_iff_exists.mp (List.find?_isSome.mpr ⟨Config.lineDie ((s.entry 4).rmap / 256 + 0) % 8, ?_, ?_⟩)
  · rw [Entry.rowMapDies, if_neg he, List.mem_dedup]
    exact List.mem_map_of_mem (List.mem_range.mpr (by decide))
  · exact List.contains_iff_mem.mpr (List.mem_range.mpr (Nat.mod_lt _ (by decide)))

/-- The objects of the statements' requests are in their lodges already, so that no capacity matters (R292). -/
def lodged (s : State) : State :=
  { world s with lodge := [⟨0, 1, .sync 2 0, false⟩, ⟨0, 1, .mailbox 1 0, false⟩, ⟨0, 1, .cell 3 0, false⟩] }

/-- The hypotheses of AtomicResults for a form. -/
def atomOk (op : AtomOp) (d : Opd) (x : MemOpd) (s : State) (_ : Machine.Group) (e : Mask) : Bool :=
  let scalar := d.isScalarDst
  let rs := s.atomReaches cL op.z x scalar []
  let dst := op.ret.map (fun n => (d, n))
  e != 0 && rs.all (fun p => !s.inTransit p.2.buf p.2.line) &&
    (!op.marks || (s.execs cL).all (fun g => s.nomark g.1.ctx || decide (s.markerFaults g.1 scalar g.2 [(0, d)] = []))) &&
    (match s.reserveAll (rs.filterMap (fun p =>
        if (s.entry p.2.buf).kind = 2 then some (p.2.die, p.1.ctx, ObjKey.sync p.2.buf (p.2.offset / 16)) else none)) with
      | .ok s1 => (accessRun [] cL scalar x.h.code dst (atomLane op d x scalar s1) s1).2.2.isEmpty
      | .error _ => false)

/-- The atomics and REDOP: on a plain buffer, at its last words, and on a SYNC buffer (R295 to R298). -/
theorem witness_atomics :
    (let x : MemOpd := ⟨.s 1, .s 2, 0, .package, .ar⟩
     let plain := scalars [(1, 1), (2, 4088)]
     let ok := fun (i : Instr) (op : AtomOp) (d : Opd) =>
       meets i cL plain lodged (atomOk op d x) && meets i cL (scalars [(1, 2)]) lodged (atomOk op d x)
     ok (.aadd cL .i32 (.s 4) x) (intAtom .add .i32 (.s 4)) (.s 4) &&
     ok (.amin cL .i32 (.s 4) x) (intAtom (.least .i32) .i32 (.s 4)) (.s 4) &&
     ok (.amax cL .i64 (.s 4) x) (intAtom (.greatest .i64) .i64 (.s 4)) (.s 4) &&
     ok (.aand cL .w32 (.s 4) x) (intAtom .and .w32 (.s 4)) (.s 4) && ok (.aor cL .w32 (.s 4) x) (intAtom .or .w32 (.s 4)) (.s 4) &&
     ok (.axor cL .w32 (.s 4) x) (intAtom .xor .w32 (.s 4)) (.s 4) && ok (.axchg cL .w64 (.s 4) x) (intAtom .xchg .w64 (.s 4)) (.s 4) &&
     ok (.acas cL .w64 (.s 4) x) (casAtom .w64 (.s 4)) (.s 4) &&
     ok (.afadd cL .f32 (.s 4) x) (fpAtom (.fadd .f32) fmtF32 (some 1) (.s 4)) (.s 4) &&
     ok (.redop cL .f32 .add (.s 4) x) (redAtom .f32 .add (.s 4)) (.s 4) && ok (.redop cL .w32 .or (.s 4) x) (redAtom .w32 .or (.s 4)) (.s 4)) = true := by
  decide +kernel

/-- ReadModifyWriteIsOneStep: a frame of the context (R298). -/
theorem witness_read_modify_write :
    (decide (owned.rehome first1 = first1) && owned.holdsFrame 1 first1 && decide (tierOf first1.addr = 0) && owned.isPlain first1.addr 8 &&
      Memory.wf owned.mem) = true := by
  decide +kernel

/-- BARR without a record and with one whose phase is over, BARW without a record and with one whose phase is over (R303). -/
theorem witness_barriers :
    (let place := fun (s : State) (g : Machine.Group) => s.check (barReq g.ctx (s.scal g 1 0 (.s 2)) (s.scal g 2 0 (.s 3)).toNat)
     let there := fun (s : State) (g : Machine.Group) => match place s g with
       | .ok p => (s.reserve p.die g.ctx (.sync 2 ((s.scal g 2 0 (.s 3)).toNat / 16))).isSome
       | .error _ => false
     let past := fun (s : State) (g : Machine.Group) => match place s g with
       | .ok p => s.barFirst g.key p
       | .error _ => s
     let old : Arrival := ⟨2, 0, 7, 0⟩
     let f := scalars [(2, 2)]
     let with_ := fun (g : Machine.Group) => { f g with arrivals := [old, ⟨2, 16, 7, 0⟩, ⟨2, 32, 7, 0⟩, ⟨2, 48, 7, 0⟩] }
     meets (.barr cL 2 (.s 3)) cL f lodged (fun s g x => x != 0 && (g.barFirst 2 0).isNone && there s g) &&
     meets (.barr cL 2 (.s 3)) cL with_ lodged (fun s g x => x != 0 &&
       (match g.barFirst 2 0 with | some a => (past s g).barPhase a != a.phase | none => false) && there s g) &&
     meets (.barw cL 2 (.s 3)) cL f lodged (fun s g x => x != 0 && (g.arrivals.find? (fun a => a.buf == 2 && a.off == 0)).isNone && there s g) &&
     meets (.barw cL 2 (.s 3)) cL with_ lodged (fun s g x => x != 0 &&
       (match g.arrivals.find? (fun a => a.buf == 2 && a.off == 0) with | some a => (past s g).barPhase a != a.phase | none => false) &&
       there s g)) = true := by
  decide +kernel

def mailed (msgs : List (List Word)) (waiting : List GKey) (s : State) : State :=
  { lodged s with ctxs := (lodged s).ctxs.map (fun c => c.setMailbox ⟨0, msgs, waiting⟩) }

/-- MBPUT with room for one more message, MBGET, and MBTRY with a message and without one (R304 to R306). -/
theorem witness_mailboxes :
    (let good : State → Machine.Group → Bool := fun s g => match s.ctx? g.ctx with
       | some k => mbValid (s.mbEntry k (s.scal g 1 0 (.s 1)).toNat) && !s.lost.contains (mbHome (s.mbEntry k 0))
       | none => false
     let box : State → Machine.Group → Mailbox := fun s g => match s.ctx? g.ctx with | some k => k.mailbox 0 | none => ⟨0, [], []⟩
     let depth : State → Machine.Group → Nat := fun s g => match s.ctx? g.ctx with | some k => mbDepth (s.mbEntry k 0) | none => 0
     let one : List (List Word) := [[1, 2, 3, 4]]
     ([[], one].all (fun q => meets (.mbput cL (.s 1) 4) cL id (mailed q []) (fun s g x => x != 0 && good s g &&
       decide ((box s g).held < depth s g) && (s.reserve 0 g.ctx (.mailbox g.ctx 0)).isSome))) &&
     meets (.mbget cL 4 (.s 1)) cL id (mailed one []) (fun s g x => x != 0 && good s g && decide ((box s g).waiting.length < (box s g).msgs.length)) &&
     meets (.mbget cL 4 (.s 1)) cL id (mailed (one ++ one) [⟨0, 0, 9⟩, key0]) (fun s g x => x != 0 && good s g && (box s g).waiting.contains g.key &&
       decide ((box s g).waiting.idxOf g.key < (box s g).msgs.length)) &&
     meets (.mbtry cL 4 (.s 1)) cL id (mailed one []) (fun s g x => x != 0 && good s g && decide ((box s g).waiting.length < (box s g).msgs.length)) &&
     meets (.mbtry cL 4 (.s 1)) cL id (mailed one [⟨0, 0, 9⟩]) (fun s g x => x != 0 && good s g &&
       decide ((box s g).msgs.length ≤ (box s g).waiting.length))) = true := by
  decide +kernel

/-- VLD, VLDS, VST and RECON of a cell that nothing has stored to, at both ends of the buffer (R308 to R315). -/
theorem witness_versioned :
    ([0, 1016].all (fun o =>
      let reach := fun (w : Nat) (all : Bool) (s : State) (g : Machine.Group) =>
        match s.verReach g (s.scal g 1 0 (.s 2)) (s.scal g 2 0 (.s 3)).toNat w all with | .ok x => some x | .error _ => none
      let f := scalars [(2, 3), (3, o)]
      let room := fun (w : Nat) (s : State) (g : Machine.Group) => match reach w true s g with
        | some x => (({ s with lodge := [⟨x.e.rep x.r, 1, .cell x.buf x.off, false⟩] } : State).reserve (x.e.rep x.r) g.ctx (.cell x.buf x.off)).isSome
        | none => false
      meets (.vld cL true (.s 4) 2 (.s 3) (.s 8)) cL f lodged (fun s g x => x != 0 && (reach 8 false s g).isSome) &&
      meets (.vlds cL false (.s 4) 2 (.s 3) (.imm 7)) cL f lodged (fun s g x => x != 0 && (reach 4 false s g).isSome) &&
      meets (.vst cL false (.s 4) 2 (.s 3) (.s 8)) cL f lodged (fun s g x => x != 0 && room 4 s g &&
        (match reach 4 true s g with
          | some v => (((s.cellFor v.buf v.off v.w v.e.nrep).rep v.r).store v.r 5 (s.quad g (.s 8) true 0)).isSome
          | none => false)) &&
      meets (.recon cL .sum false (.s 4) 2 (.s 3) (.s 8)) cL f lodged (fun s g x => x != 0 && room 0 s g &&
        (match reach 0 true s g with
          | some v => (reconMisfit g (.s 4) v.w).isNone &&
            (((s.cellFor v.buf v.off v.w v.e.nrep).rep v.r).recon v.r .sum v.w (some (s.quad g (.s 8) true 0))).isSome
          | none => false)))) = true := by
  decide +kernel
/-- TRAP, BRK under a debugger and without one, with no executing lane, RTE.resume in the image, and a faulting marker (R324 to R328). -/
theorem witness_system :
    (let off : Ctl := ⟨0, .lane, some 0, false, false⟩
     meets (.trap cL (.s 1)) cL id id (fun _ _ x => x != 0) && meets (.brk cL) cL id id (fun s g x => x != 0 && !s.dbg g.ctx) &&
     meets (.brk cL) cL id (fun s => { s with ctxs := s.ctxs.map (fun c => { c with flags := 4 ||| 2 ||| 1 }) }) (fun s g x => x != 0 && s.dbg g.ctx) &&
     meets (.trap off (.s 1)) off id id (fun _ _ x => x == 0) && meets (.brk off) off id id (fun _ _ x => x == 0) &&
     meets (.rteResume cL) cL (fun g => { g with resume := 8, resume0 := 8 }) id (fun s g _ => s.inImage g g.resume)) = true := by
  decide +kernel

/-- The small machine at a TRAP, with a handler at 0x100 or none. -/
def trapped (vec : Word) (f : Machine.Group → Machine.Group) : State :=
  placed (.trap cL (.imm 5)) cL f (fun s => { s with ctxs := s.ctxs.map (fun c => { c with trapvec := vec }) })

def trapFault (s : State) : FaultInfo := s.pointFault .softTrap 0 5

/-- FaultEntersTheHandler and FaultHaltsTheContext: a handler, no handler, and a masked member (R320, R323). -/
theorem witness_faults :
    (let runs := fun (s : State) (vec : Bool) (masked : Bool) =>
       match s.handling (trapFault s) with
       | none => false
       | some h => match s.ctx? h.ctx with
         | none => false
         | some c => c.halt.isNone && decide ((trapFault s).code ≠ .dieLost) && (c.trapvec != 0) == vec &&
           ((trapFault s).arrived.any (fun x => match s.group? x.1 with | some g => g.mask || g.susp | none => false)) == masked
     runs (trapped 0x100 id) true false && runs (trapped 0 id) false false && runs (trapped 0x100 (fun g => { g with mask := true })) true true) = true := by
  decide +kernel

/-- ReturnClearsTheHandlerBits: a suspended group, and a group that the fault did not suspend (R325). -/
theorem witness_return :
    (let s := (trapped 0x100 id).takeFault (trapFault (trapped 0x100 id))
     hasGroup s (fun g => (s.suspendedWith g).any (fun h => h.key == key0)) &&
       hasGroup s (fun g => !(s.suspendedWith g).any (fun h => h.key == ⟨0, 0, 1⟩) &&
       (({ s with groups := s.groups ++ [{ g with key := ⟨0, 0, 1⟩ }] } : State).group? ⟨0, 0, 1⟩).isSome)) = true := by
  decide +kernel

/-- What a check before the issue answers. -/
def failsWith (i : Instr) (c : Ctl) (f : Machine.Group → Machine.Group) (phase : Phase) : Option (FaultCode × Nat) :=
  let s := placed i c f id
  let t := { s with cur := { s.cur with phase := phase } }
  match i.desc, t.issuer with
  | some d, some g => (precheck i c d t g).map (fun x => (x.code, x.reg))
  | _, _ => none

/-- ChecksBeforeTheIssue: a register at the budget, RTE outside a handler, LOOP in one, and a scope that VTOPK does not have (R43, R109, R322, R325, R393). -/
theorem witness_checks :
    failsWith (.mov cL (.v 64) (.v 0)) cL (fun g => { g with nv := 64 }) .group = some (.illegalEnc, 64) ∧
    failsWith (.mov cL (.v 63) (.v 0)) cL (fun g => { g with nv := 64 }) .group = none ∧
    failsWith (.mov cL (.v 63) (.s 32)) cL (fun g => { g with nv := 64, ns := 32 }) .group = some (.illegalEnc, 0x120) ∧
    failsWith (.mov cL (.y 1) (.v 0)) cL (fun g => { g with ny := 1 }) .group = some (.scopeIllegal, 0x301) ∧
    failsWith (.rteSkip cL) cL id .group = some (.illegalEnc, 0) ∧ failsWith (.loop cL 0 (.imm 3) 12) cL id .handler = some (.illegalEnc, 0) ∧
    failsWith (.mov cG (.s 1) (.s 2)) cG id .handler = some (.scopeIllegal, 0) ∧
    failsWith (.vtopk cL false 2 0 (.v 1) (.s 3)) cL id .group = some (.scopeIllegal, 0) := by
  decide +kernel

/-- WiderScopeArrives: an instruction at GROUP scope that passes its checks at its own issue (R97). -/
theorem witness_arrives : (let i := Instr.lvote cG .any (.s 4) (.v 0)
    (match i.ctl with | some c => !c.await && decide (c.scope ≠ .lane) | none => false) && decide (failsWith i cG id .group = none)) = true := by
  decide +kernel

/-- A machine whose group stands at a clause header, in or out of its image. -/
def atHeader (pc : Word) : State := small.modGroup key0 (fun g => { g with pcs := List.replicate W pc, clause := List.replicate W none })

/-- ClauseEvents: a header outside the image, one that fails the checks, and one that passes (R24, R41, R63). -/
theorem witness_clauses :
    (let point := fun (s : State) (pc : Word) => hasGroup s (fun g => decide (g.nextPoint = some (pc, none)))
     point (atHeader (BitVec.ofNat 32 (2 ^ 20))) (BitVec.ofNat 32 (2 ^ 20)) && point (atHeader 0) 0 && point (atHeader 64) 64 &&
     hasGroup (atHeader (BitVec.ofNat 32 (2 ^ 20))) (fun g => (atHeader 0).pastImage g (BitVec.ofNat 32 (2 ^ 20)) false) &&
     hasGroup (atHeader 0) (fun g => !(atHeader 0).pastImage g 0 false && (atHeader 0).clauseOk g 0 && decide (g.pcs.length = W)) &&
     hasGroup ({ atHeader 64 with mem := Memory.store (atHeader 64).mem 64 [255, 255, 255, 255] } : State) (fun g =>
       !({ atHeader 64 with mem := Memory.store (atHeader 64).mem 64 [255, 255, 255, 255] } : State).clauseOk g 64)) = true := by
  decide +kernel

/-- ArrivalEvents: a result on a scoreboard, checks to return, a walk, an instance that may issue, a read copy, a running load (R37, R98, R164). -/
theorem witness_arrivals :
    (let e : InFlight := ⟨none, 0, [.s 1 5], [], 0, none, none, [0x101], 0⟩
     let s := small.modGroup key0 (fun g => { withQ 3 (walk 1 5) g with inFlight := [e], checks := true })
     let inst : Instance := ⟨0, { small.cur with phase := .instance_ }, false, false⟩
     hasGroup s (fun g => decide (g.inFlight[0]? = some e) && g.checks && g.resident &&
       (match regQ g 3 with | some b => !b.empty && !s.qTransit g b | none => false)) &&
     ({ small with instances := [inst] } : State).instanceMay inst &&
     (({ s with readCopies := [⟨1, 0x2000, [], [1], [], 0⟩] } : State).readCopy 1 0x2000).isSome &&
     ((firstLoad ((banked [⟨0, 0, 1, key0, 4, true, false⟩] small).core ⟨0, 0⟩).loads 0).any (fun l => l.running))) = true := by
  decide +kernel

def sib (h n : Nat) : Sib := ⟨5, h, n, [0, 0, 0, 0]⟩

/-- CellEvents: a queue with a sibling to arrive, one that is held with room, arrivals known, ninth and new, and cells that
may be compacted and may not (R314, R316). -/
theorem witness_cells :
    (let eight := (List.range 8).map (fun n => sib 0 (n + 1))
     let x := sib 1 1
     let c : Cell := ⟨3, 0, 4, [⟨0, [0, 0, 0], [x]⟩, ⟨0, [0, 1, 0], []⟩, ⟨0, [8, 0, 0], eight⟩], [⟨0, 1, false, [x]⟩, ⟨0, 2, true, [x]⟩], none⟩
     let y : Sib := sib 0 (2 ^ 31)
     let one : Rep := ⟨0, [2 ^ 31, 0, 0], [y]⟩
     let old : Cell := ⟨3, 0, 4, [one, one, one], [], none⟩
     (c.queue? 0 1).any (fun q => !q.held) && (c.queue? 0 2).any (fun q => q.held) &&
     decide ((c.rep 1).sibs.length < 8) && decide (x.n ≤ nth 0 (c.rep 1).cv x.h) && decide (nth 0 (c.rep 2).cv x.h < x.n) &&
     decide (((c.rep 2).sibs.filter (fun z => !covers x.vw (c.rep 2).era z)).length = 8) &&
     decide (((c.rep 0).sibs.filter (fun z => !covers x.vw (c.rep 0).era z)).length ≠ 8) &&
     (old.compactable 0).isSome && (c.compactable 0).isNone) = true := by
  decide +kernel

/-- DebuggerEvents and HaltEvents: a stopped group of a stopped context; halts before and after each die and dump, with a
dump area and without; a handler that outlasts its bound (R331 to R346). -/
theorem witness_debug_and_halt :
    (let c : Ctx := { probeCtx with touched := 3, stopped := true }
     let h : Halt := ⟨3, 0, [0, 1], FaultRec.blank, FaultRec.blank, 0, none, [], false⟩
     let s : State := { small with ctxs := [c] }
     let half : Halt := { h with reached := [0] }
     (s.ctx? 1).any (fun c => c.stopped) && (s.ctx? 1).any (fun c => c.halt.isNone) && s.lost.isEmpty && !({ s with lost := [7] } : State).lost.contains 0 && hasGroup (s.modGroup key0 (fun g => { g with dstop := true })) (fun g => g.dstop) &&
     c.touched.getLsbD 1 && !half.reached.contains 1 && half.reached.contains 0 && !c.touched.getLsbD 7 &&
     s.allStopped c h && !s.allStopped c half && decide (c.dump = 0) && decide (({ c with dump := 0x400000 } : Ctx).dump ≠ 0) &&
     hasGroup (small.modGroup key0 (fun g => { g with broke := true })) (fun g => g.broke) &&
     (let v : Victim := ⟨[key0], ⟨0, 0⟩, 0, 1, false⟩
      let l : Launch := { probeLaunch 7 with ctx := 2, plan := [⟨⟨0, 0⟩, [], [v], 0⟩] }
      let s1 : State := { small.modGroup key0 (fun g => { g with inh := true, rteWait := some 0 }) with
        launches := [l], clk := overrunClk, ctxs := [probeCtx, { probeCtx with num := 2 }] }
      hasGroup s1 s1.overran)) = true := by
  decide +kernel
/-- LaunchEvents: descriptors refused and accepted, a resident launch that has its places and one that has none, and the
next team of a launch with its place decided and without (R356 to R362). -/
theorem witness_launches :
    (let r : LaunchReq := ⟨1, probeDesc, 0, 64, true, [], [], none, [], [], [], [], none⟩
     let b : BufReq := ⟨5, .plain, false, 16, 0x10000, 0, 1, 0, 0x100000, [], []⟩
     let k : KeldbReq := ⟨2, true, 0x200000, 0x210000, 0x220000, 0x8000000, 0, 0x10000000, 0, [⟨1023, 7, 12, true⟩]⟩
     let l : Launch := { probeLaunch 1 with next := 0, ptr := 0, resident := false }
     let d : TDesc := probeDesc
     let s : State := { small with groups := [], launches := [l] }
     let full : State := { small with lost := [0, 1, 2, 3, 4, 5, 6, 7] }
     let p : Plan := ⟨⟨0, 0⟩, [⟨0, 0⟩], [], 0⟩
     let scan := fun (s : State) => s.scan l (s.candidates l.d) false 0 0 s.rooms [] (s.candidates l.d).length
     !TDesc.ok (0 : TDesc) && d.ok && !s.halted r.ctx && s.halted 9 && homeOk r && !homeOk { r with home := [(5, 2)] } &&
     homeOk { r with buffers := [b], home := [(5, 15)] } && rowMapsOk r && rowMapsOk { r with buffers := [b], rowmaps := [⟨5, 8, 0x140000, 0x150000⟩] } &&
     !rowMapsOk { r with buffers := [b], rowmaps := [⟨5, 7, 0x140000, 0x150000⟩] } && !homeOk { r with buffers := [b], home := [(5, 16)] } && (s.restorable p.core).isNone &&
     repOk r && repOk { r with buffers := [{ b with sort := .versioned 3 }], rep := [(5, [0, 4, 7])] } && ctxOk r s &&
     !repOk { r with buffers := [{ b with sort := .versioned 3 }], rep := [(5, [0, 4, 4])] } &&
     !repOk { r with buffers := [{ b with sort := .versioned 2 }], rep := [(5, [0, 4, 7])] } && mboxOk k.mbox && k.prio == 2 &&
     !mboxOk [⟨1024, 7, 12, true⟩] && !mboxOk [⟨0, 8, 12, true⟩] && !mboxOk [⟨0, 7, 13, true⟩] && !mboxOk [⟨0, 0, 0, true⟩, ⟨0, 1, 0, true⟩] &&
     (s.placeAll l (s.candidates d) (d.nteams / d.block) 0 0 s.rooms []).isSome &&
     (full.placeAll l (full.candidates d) (d.nteams / d.block) 0 0 full.rooms []).isNone &&
     decide (l.next < l.d.nteams) && p.victims.all s.victimOut && s.roomNow.fits l.d l.ctx p.core &&
     (match scan s with | some (b, _) => b.plans.length == 1 && !b.plans.any (fun p => (s.restorable p.core).isSome) | none => false)) = true := by
  decide +kernel

/-- PlacedGroupIsFresh: no group has the new key, at the first and the last v and s register of the budget (R62). -/
theorem witness_placed :
    (let l := probeLaunch 1
     small.groups.all (fun h => decide (h.key ≠ ⟨l.id, 0, 0⟩)) && decide (255 < l.d.vregs ∧ 511 < l.d.sregs) && l.inits.isEmpty) = true := by
  decide +kernel

theorem anyOf_single (s : State) (g : Machine.Group) : s.anyOf [g] = some g := by
  simp [State.anyOf, Nat.mod_one]

/-- Eight active groups of a partition, the first stalled, and a ninth that is pending. -/
def crowd (n : Nat) : State :=
  { small with groups := match small.groups with
      | g :: _ => (List.range n).map (fun i =>
          { g with key := ⟨0, 0, i⟩, slot := (if i < 8 then some i else none), heldSince := (if i = 0 then some 0 else none) })
      | [] => [] }

/-- ResidencyEvents: a free slot and one pending group, no free slot and a stalled group, a victim that is ready, and a
party that may come back (R365 to R370). -/
theorem witness_residency :
    (let p : PKey := ⟨0, 0, 0⟩
     let few : State := { crowd 9 with groups := (crowd 9).groups.filter (fun g => g.key.grp != 3) }
     let v : Victim := ⟨[⟨0, 0, 1⟩], ⟨0, 0⟩, 0, 1, false⟩
     let x : Plan := ⟨⟨0, 0⟩, [], [v], 0⟩
     let out : Evicted := ⟨[⟨0, 0, 0⟩], ⟨0, 0⟩, 0, 1⟩
     let away : State := { (crowd 1).modGroup ⟨0, 0, 0⟩ (fun g => { g with resident := false, slot := none }) with evicted := [out] }
     decide (few.freeSlot p = some 3) && decide ((few.entrants p).length = 1) && ((crowd 9).freeSlot p).isNone &&
       decide (((crowd 9).entrants p).length = 1) &&
     (firstOut (crowd 9) ((((crowd 9).active p).filter (fun g => g.drained && !(crowd 9).stopsFor g && !(crowd 9).halted g.ctx)).filter
       (crowd 9).stalled)).isSome &&
     ((crowd 2).victimReady v) && decide (x.victims = [v]) && (away.restorable ⟨0, 0⟩).isSome) = true := by
  decide +kernel

/-- One core works, and a group of context 1 stands there. -/
def oneCore : State :=
  { crowd 1 with lost := [1, 2, 3, 4, 5, 6, 7], harvest := (List.range 95).map (fun i => (⟨0, i + 1⟩, 0)), cores := []
                 ctxs := [{ probeCtx with saveLen := Config.saveBytes 256 512 64 }, { probeCtx with num := 2, flags := 0x30 }] }
/-- A queued launch of a context of higher priority. -/
def wants : Launch := { probeLaunch 7 with ctx := 2, next := 0, ptr := 0, resident := false }

/-- The party of that group. -/
def lone : Victim := ⟨[⟨0, 0, 0⟩], ⟨0, 0⟩, 0, 1, false⟩

/-- The victim keeps within SAVELEN, whatever a group takes of a save area. -/
theorem lone_savable : oneCore.savable [] lone = true := by
  have h1 : ((oneCore.groups.filter (fun g => g.ctx == lone.ctx && (!g.resident || ([] ++ [] ++ [lone]).any (fun v => v.keys.contains g.key)))).map
      (fun g => (g.nv, g.ns, g.ny))) = [(256, 512, 64)] := by decide +kernel
  have h2 : oneCore.mxSavedDies lone.ctx = [] := by decide +kernel
  have h3 : oneCore.chosen = [] := by decide +kernel
  have h4 : oneCore.ctx? lone.ctx = some { probeCtx with saveLen := Config.saveBytes 256 512 64 } := rfl
  have h5 : oneCore.saveTaken lone.ctx ([] ++ [] ++ [lone]) = Config.saveBytes 256 512 64 := by
    have h6 := congrArg (List.map (fun x : Nat × Nat × Nat => Config.saveBytes x.1 x.2.1 x.2.2)) h1
    rw [List.map_map] at h6
    unfold State.saveTaken
    rw [h2]
    rw [show (fun g : Machine.Group => Config.saveBytes g.nv g.ns g.ny) =
      (fun x : Nat × Nat × Nat => Config.saveBytes x.1 x.2.1 x.2.2) ∘ (fun g => (g.nv, g.ns, g.ny)) from rfl]
    dsimp only
    rw [h6]
    simp [lone]
  unfold State.savable
  rw [h4, h3, h5]
  simp
  omega

theorem lone_forced : oneCore.forced wants.d wants.ctx ⟨0, 0⟩ oneCore.rooms [] (oneCore.partyUnits ⟨0, 0⟩) = some [lone] := by
  unfold State.forced
  have h1 : (if wants.d.mxuse then oneCore.rooms.planned.mx.filter (fun x => x.1.die == 0 && x.1.core == 0 && wants.d.parts.contains x.1.part && x.2 != wants.ctx) else []) = [] := by decide +kernel
  have h2 : (((oneCore.partyUnits ⟨0, 0⟩).filter (fun u => !([] : List Victim).any (fun v => v.ctx == u.victim.ctx && v.part == u.victim.part) &&
    (wants.d.occ ⟨0, 0⟩).any (fun o => o.part == u.victim.part && o.party.isSome && o.party == u.party))).map (·.victim)) = [lone] := by decide +kernel
  have h3 : [lone].all (fun v => oneCore.prio v.ctx < oneCore.prio wants.ctx && (!v.keys.isEmpty || oneCore.evicted.any (fun e =>
    e.core == (⟨0, 0⟩ : CKey) && e.part == v.part && e.ctx == v.ctx))) = true := by decide +kernel
  simp only [h1, List.map_nil, h2, List.nil_append, List.foldl, h3, if_true, Option.bind, lone_savable]

theorem lone_victims : oneCore.victims wants.d wants.ctx ⟨0, 0⟩ oneCore.rooms [] = some [lone] := by
  have h : ((oneCore.partyUnits ⟨0, 0⟩).filter (fun u => !([] : List Victim).any (fun v => v.keys.any (fun k => u.victim.keys.contains k)))) = oneCore.partyUnits ⟨0, 0⟩ := by
    decide +kernel
  have h1 : ([lone].foldl Rooms.drop oneCore.rooms).fits wants.d wants.ctx ⟨0, 0⟩ = true := by decide +kernel
  unfold State.victims
  simp only [h, lone_forced, State.chooseMore, h1, if_true]

/-- ResidencyEvents: a scan that finds a place only with eviction (R359, R367). -/
theorem witness_eviction_scan :
    (oneCore.scan wants (oneCore.candidates wants.d) false 0 0 oneCore.rooms [] 1).isNone = true ∧
    (oneCore.scan wants (oneCore.candidates wants.d) true 0 0 oneCore.rooms [] 1).isSome = true := by
  have h : oneCore.candidates wants.d = [⟨0, 0⟩] := by decide +kernel
  refine ⟨by decide +kernel, ?_⟩
  have h1 : wants.d.rect ⟨0, 0⟩ = [⟨0, 0⟩] := by decide +kernel
  have h2 : wants.allows 0 0 = true := by decide +kernel
  have h3 : oneCore.rooms.fits wants.desc wants.ctx ⟨0, 0⟩ = false := by decide +kernel
  have h4 : oneCore.victims wants.desc wants.ctx ⟨0, 0⟩ oneCore.rooms [] = some [lone] := lone_victims
  simp [h, State.scan, h1, State.tryBlock, h2, h3, h4]

/-- CommandResults: no command runs, descriptors good and bad, contexts present and absent, a slot that is free and one in
use, an owner that is halted, and a context that may retire (R381 to R383). -/
theorem witness_commands :
    (let desc := leBytes 64 2
     let s : State := { small with mem := Memory.store small.mem 0x300000 desc }
     let dead : Ctx := { probeCtx with num := 4, halt := some ⟨6, 0, [], FaultRec.blank, FaultRec.blank, 0, none, [], true⟩, destroying := true }
     let u : State := { s with ctxs := s.ctxs ++ [dead] }
     let kick : TagOp := .kick 5 0x100000 0 0 [] [0, 1] [] 0
     let good : Nat := 0 + 1 * 2 ^ 12
     !s.cmdBusy && ctxDescOk (s.memNat 0x300000 64) && decide (fld (s.memNat 0x300000 64) 0 16 = 2) && (s.ctx? 2).isNone &&
       (s.ctx? 1).isSome && !ctxDescOk (2 ^ 19) && areaOk 0x10000 0 && !areaOk 0x10001 0 && !areaOk 0x10000 deviceBytes &&
       (cmdCode (.ctxHalt ⟨65536, false, 0, 0⟩)).isSome && (cmdCode (.frameRef ⟨1, true, 0, 0⟩)).isSome && !slotImageOk (2 ^ 19) && !u.halted 1 &&
       decide (fld (2 ^ 20) 0 32 * 65536 < deviceBytes ∧ deviceBytes ≤ fld 0xFFFFFFFF 0 32 * 65536) && slotImageOk 0 && decide (fld good 6 2 = 0 ∧ 1 ≤ fld good 12 5) &&
       !s.slotBusy (slotKeys good) && (tagged kick id s).slotBusy (slotKeys good) && u.halted 4 && u.stoppedCtx 4 && !u.stoppedCtx 1 && (u.ctx? 4).isSome && u.dumpDone 4 &&
       (match u.ctx? 4 with | some c => c.destroying | none => false)) = true := by
  decide +kernel

/-- FrameReferences and HostAndLinkEvents: counts at each boundary, links up and down, a held request, a queue to deliver,
mailbox posts good and bad (R270, R272, R344, R384, R391). -/
theorem witness_host :
    (let rec_ := fun (n : Nat) (pin : Bool) => small.setFrame 7 (frameRec n pin 0 1)
     ([0, 4093].all (fun n => decide (frameRefs ((rec_ n false).frame 7) < 4094) && !framePinned ((rec_ n false).frame 7))) &&
     decide (frameRefs ((rec_ 4094 false).frame 7) = 4094) && decide (frameRefs ((rec_ 4095 true).frame 7) = 4095) &&
     framePinned ((rec_ 4095 true).frame 7) && framePinned ((rec_ 4094 true).frame 7) && decide (frameRefs ((rec_ 4094 true).frame 7) = 4094) &&
     decide (frameRefs ((rec_ 1 false).frame 7) = 1) && decide (frameRefs ((rec_ 2 false).frame 7) = 2) &&
     Sparse.wf (0 : BitVec 64) (rec_ 1 false).frames && Memory.wf (rec_ 1 false).mem &&
     bitOf (BitVec.toNat (w := 12) 0x800) 11 && !bitOf (BitVec.toNat (w := 12) 0x800) 0 &&
     (let ev : Event := ⟨5, 0, 1, 0, 0, 0⟩
      let s : State := { small with overflow := [(0, [ev])] }
      decide (s.overflowOf 0 = [ev]) && !s.ringFull) &&
     (let msg : List Byte := List.replicate 16 0 ++ [255, 3] ++ List.replicate 14 0
      decide (msg.length = 32) && decide (msg.drop 18 = List.replicate 14 0) && decide (leNat ((msg.drop 16).take 2) ≤ 1023) &&
        (small.ctx? (4096 / 4096)).isSome && (small.ctx? (8192 / 4096)).isNone) &&
     (let h : SpanHold := ⟨3, 0, false, false⟩
      let s : State := { small.modGroup key0 (fun g => { g with spanHold := [⟨2, 0, true, false⟩, h] }) with clk := 25000000 }
      hasGroup s (fun g => g.spanHold.contains h && decide (h.since + 25000000 ≤ s.clk) && !bitOf s.regs.spanstat.toNat h.link))) = true := by
  decide +kernel

/-- AttestationAndResets: a measurement that is held, and an index beyond them (R388). -/
theorem witness_attestation :
    (let s : State := { small with measurements := [1, 2, 3, 4] }
     s.measurements[3]? = some 4 ∧ s.measurements[4]? = none) := by
  decide +kernel

/-- StepRunsTheInstruction: the machine after reset with an instruction placed has that issue to make, and its group stands
in a clause inside its image (R59, R364). -/
theorem witness_step :
    (let i := Instr.iadd cL .i32 false (.v 2) (.v 0) (.v 1)
     let ws := encode i
     let s := State.reset.withFetchWord 64 ((ws.getD 0 0).toNat + 2 ^ 32 * (ws.getD 1 0).toNat)
     let u := s.land
     u.powered && u.issuing.isNone && decide (u.turn = 0) && decide (u.usedParts = [⟨0, 0, 0⟩]) &&
     (match u.comers ⟨0, 0, 0⟩ with
       | [(g, .issue k j cur)] => decide (k = g.key) && decide (j = i) && g.heldSince.isNone && decide (g.nextPoint = some (4, some ⟨0, 1⟩)) && !u.pastImage g 4 true &&
         !u.atBreak g && decide (cur.members.length = 1)
       | _ => false)) = true := by
  decide +kernel

/-- The other hypotheses: an encoded instruction whose issue names a group, a canonical state whose step is a next state,
an instance that is to issue, and lanes of a group with and without a COUNT level that ends (R60, R80). -/
theorem witness_whole_machine :
    small.issuer.isSome = true ∧ (Memory.wf State.reset.mem && Memory.wf State.reset.hostMem && Memory.wf State.reset.peerMem) = true ∧
    hasGroup ({ small with issuing := some small.cur } : State) (fun g => decide (g.pcs.length = W) && g.levels.isEmpty &&
      decide (g.lc.length = 3)) = true ∧
    (let l : LoopLevel := ⟨4, 8, .count⟩
     hasGroup (small.modGroup key0 (fun g => { g with levels := [l], lc := [2, 0, 0] })) (fun g =>
       decide (g.levels.getLast? = some l) && decide (l.exit = 8 ∧ l.kind = .count ∧ g.levels.length ≤ 3) && decide (2 ≤ (regLc g 0).toNat))) = true := by
  decide +kernel

/-- A write of a register with lanes lands in a group of W-element registers (R36). -/
theorem witness_landing : hasGroup small (fun g => decide (2 < g.v.length ∧ (regV g 2).length = W ∧ 511 < g.s.length)) = true := by
  decide +kernel
/- ### Well-formedness refuses -/

/-- One ill-formed term for each check: an operand that a slot does not take, an odd first register of a pair, a run past
the last register, an inline constant where none may stand, AWAIT at LANE scope, AWAIT on a short one-word form, the long
form on a two-word instruction, BITFN at a wider scope, and a matrix format that no bank takes (R26 to R31, R40, R179). -/
theorem test_wf_refuses :
    [Instr.iadd cL .i32 false (.m 3) (.v 0) (.v 1), .iadd cL .i64 false (.v 3) (.v 0) (.v 2), .iadd cL .i32 false (.imm 3) (.v 0) (.v 1),
      .rteReplay cL (.s 2), .iadd ⟨0, .lane, none, true, false⟩ .i32 false (.v 2) (.v 0) (.v 1), .nop ⟨0, .team, none, true, false⟩,
      .iadd ⟨0, .lane, none, false, true⟩ .i32 false (.v 2) (.v 0) (.v 1), .bitfn cG 0x88 (.v 2) (.v 0) (.v 1) (.v 3),
      .mwld cP .f32 (.s 1) (.s 2)].all (fun i => !i.wf) = true := by decide +kernel

/-- The same terms put right are well-formed. -/
theorem test_wf_accepts :
    [Instr.iadd cL .i32 false (.v 3) (.v 0) (.v 1), .iadd cL .i64 false (.v 4) (.v 0) (.v 2), .rteReplay cL (.s 4),
      .iadd ⟨0, .team, none, true, false⟩ .i32 false (.v 2) (.v 0) (.v 1), .nop ⟨0, .team, none, true, true⟩,
      .bitfn cL 0x88 (.v 2) (.v 0) (.v 1) (.v 3), .mwld cP .e4m3 (.s 1) (.s 2)].all (fun i => i.wf) = true := by decide +kernel

/- ### One step: what an instruction sends on its way to lane 0 -/

/-- v0, v1 and v3 hold `a`, `b` and `c` in every lane; the answer is what v2 of lane 0 is to hold. -/
def lane0 (i : Instr) (a b c : Word) : Option Word :=
  match i.ctl with
  | none => none
  | some x => match exec i (placed i x (fun g => fullV 0 a (fullV 1 b (fullV 3 c g))) id) with
    | .next t => (t.newest key0).bind (fun e => writesV 2 0 e.writes)
    | _ => none

/-- Integer results worked out by hand from R118 to R128: wraps, clamps, shifts by the width and beyond, sign extension. -/
theorem test_integer_results :
    lane0 (.iadd cL .i32 false (.v 2) (.v 0) (.v 1)) 0x7FFFFFFF 1 0 = some 0x80000000 ∧
    lane0 (.iadd cL .i32 true (.v 2) (.v 0) (.v 1)) 0x7FFFFFFF 1 0 = some 0x7FFFFFFF ∧
    lane0 (.isub cL .w32 true (.v 2) (.v 0) (.v 1)) 1 2 0 = some 0 ∧
    lane0 (.isub cL .i8 false (.v 2) (.v 0) (.v 1)) 0x80 1 0 = some 0x7F ∧
    lane0 (.imul cL .w32 (.v 2) (.v 0) (.v 1)) 0x10001 0x10001 0 = some 0x20001 ∧
    lane0 (.imulh cL .i32 (.v 2) (.v 0) (.v 1)) 0xFFFFFFFF 2 0 = some 0xFFFFFFFF ∧
    lane0 (.imulh cL .w32 (.v 2) (.v 0) (.v 1)) 0xFFFFFFFF 2 0 = some 1 ∧
    lane0 (.imad cL .i32 (.v 2) (.v 0) (.v 1) (.v 3)) 3 5 7 = some 22 ∧
    lane0 (.imin cL .i32 (.v 2) (.v 0) (.v 1)) 0xFFFFFFFF 1 0 = some 0xFFFFFFFF ∧
    lane0 (.imin cL .w32 (.v 2) (.v 0) (.v 1)) 0xFFFFFFFF 1 0 = some 1 ∧
    lane0 (.imax cL .i32 (.v 2) (.v 0) (.v 1)) 0xFFFFFFFF 1 0 = some 1 ∧
    lane0 (.iabs cL .i32 (.v 2) (.v 0)) 0xFFFFFFF0 0 0 = some 16 ∧
    lane0 (.shl cL .w32 (.v 2) (.v 0) (.v 1)) 1 32 0 = some 0 ∧ lane0 (.shl cL .w32 (.v 2) (.v 0) (.v 1)) 1 31 0 = some 0x80000000 ∧
    lane0 (.shr cL .w32 (.v 2) (.v 0) (.v 1)) 0x80000000 31 0 = some 1 ∧
    lane0 (.sar cL .i32 (.v 2) (.v 0) (.v 1)) 0x80000000 40 0 = some 0xFFFFFFFF ∧
    lane0 (.rotl cL .w32 (.v 2) (.v 0) (.v 1)) 0x80000001 1 0 = some 3 ∧
    lane0 (.popc cL .w32 (.v 2) (.v 0)) 0xF0F0 0 0 = some 8 ∧ lane0 (.clz cL .w32 (.v 2) (.v 0)) 1 0 0 = some 31 ∧
    lane0 (.ctz cL .w32 (.v 2) (.v 0)) 0 0 0 = some 32 ∧ lane0 (.brev cL .w32 (.v 2) (.v 0)) 1 0 0 = some 0x80000000 ∧
    lane0 (.isel cL (.v 2) (.v 0) (.v 1) (.v 3)) 5 6 0 = some 6 ∧ lane0 (.mov cL (.v 2) (.v 0)) 9 0 0 = some 9 ∧
    lane0 (.movi cL (.v 2) 0xCAFE0001) 0 0 0 = some 0xCAFE0001 ∧
    lane0 (.bitfn cL 0x96 (.v 2) (.v 0) (.v 1) (.v 3)) 0xFF00 0xF0F0 0xCCCC = some 0xC33C := by
  decide +kernel

/-- Floating-point results worked out by hand from R139 to R155: sums, a tie to even, a signed zero, a clamp. -/
theorem test_float_results :
    lane0 (.fadd cL .f32 .rne false (.v 2) (.v 0) (.v 1) (.v 0)) 0x3F800000 0x40000000 0 = some 0x40400000 ∧
    lane0 (.fadd cL .f32 .rne false (.v 2) (.v 0) (.v 1) (.v 0)) 0x3F800000 0x33800000 0 = some 0x3F800000 ∧
    lane0 (.fadd cL .f32 .rp false (.v 2) (.v 0) (.v 1) (.v 0)) 0x3F800000 0x33800000 0 = some 0x3F800001 ∧
    lane0 (.fsub cL .f32 .rne false (.v 2) (.v 0) (.v 1) (.v 0)) 0x3F800000 0x3F800000 0 = some 0 ∧
    lane0 (.fmul cL .f32 .rne false (.v 2) (.v 0) (.v 1) (.v 0)) 0xC0000000 0x40400000 0 = some 0xC0C00000 ∧
    lane0 (.ffma cL .f32 .rne (.v 2) (.v 0) (.v 1) (.v 3)) 0x40000000 0x40400000 0x3F800000 = some 0x40E00000 ∧
    lane0 (.fcvt cL .i32 .f32 .rz true (.v 2) (.v 0) (.v 0)) 0xC0200000 0 0 = some 0xFFFFFFFE ∧
    lane0 (.fsqrt cL .f32 .rne (.v 2) (.v 0)) 0x40800000 0 0 = some 0x40000000 ∧
    lane0 (.fadd cL .f16 .rne false (.v 2) (.v 0) (.v 1) (.v 0)) 0x3C00 0x4000 0 = some 0x4200 := by
  decide +kernel

/-- A step after reset runs the instruction that was placed (R35): the sum is on its way, and the group has moved on. -/
theorem test_step_runs_the_placed_instruction :
    (match step (State.reset.withFetchWord 64 (let ws := encode (.iadd cL .i32 false (.v 2) (.imm 1) (.imm 2)); (ws.getD 0 0).toNat + 2 ^ 32 * (ws.getD 1 0).toNat)) with
      | .next t => hasGroup t (fun g => g.pcs.all (fun x => x == 12) && (match g.inFlight with
          | [e] => decide (writesV 2 63 e.writes = some 3)
          | _ => false))
      | _ => false) = true := by
  decide +kernel

/-- A trap with a handler: the fault registers, RESUMEPC and the handler's program counter (R320, R321, R324). -/
theorem test_trap_enters_the_handler :
    (match exec (.trap cL (.imm 5)) (trapped 0x100 id) with
      | .next t => hasGroup t (fun g => g.inh && g.mask && g.fault.code == BitVec.ofNat 32 FaultCode.softTrap.num && g.fault.pc == 4 &&
          g.fault.addr == 5 && g.fault.lanes == allLanes && g.resume == 12 && g.hpc == 0x100)
      | _ => false) = true := by
  decide +kernel

end Sys2Proof.Tests
end

section
/-! SUPPORT. Bit fields of a number and of a buffer-table entry: a field reads what was put there, and the others are left. -/

namespace Sys2Proof.Machine

theorem testBit_fld (x lo n i : Nat) : (fld x lo n).testBit i = (decide (i < n) && x.testBit (lo + i)) := by
  simp [fld, Nat.testBit_mod_two_pow, Nat.testBit_div_two_pow, Nat.add_comm]

theorem bitOf_eq_testBit (x i : Nat) : bitOf x i = x.testBit i := by
  simp [bitOf, Nat.testBit_eq_decide_div_mod_eq, beq_eq_decide]

/-- A bit of a number with one field replaced comes from the new field, or from the number. -/
theorem testBit_replace (y lo n x i : Nat) : (y - fld y lo n * 2 ^ lo + x % 2 ^ n * 2 ^ lo).testBit i =
    if lo ≤ i ∧ i < lo + n then x.testBit (i - lo) else y.testBit i := by
  have hsplit : y = 2 ^ lo * (2 ^ n * (y / 2 ^ lo / 2 ^ n) + fld y lo n) + y % 2 ^ lo := by
    rw [fld, Nat.div_add_mod, Nat.div_add_mod]
  have hnew : y - fld y lo n * 2 ^ lo + x % 2 ^ n * 2 ^ lo =
      2 ^ lo * (2 ^ n * (y / 2 ^ lo / 2 ^ n) + x % 2 ^ n) + y % 2 ^ lo := by
    rw [Nat.mul_add] at hsplit ⊢
    rw [Nat.mul_comm (fld _ _ _), Nat.mul_comm (x % 2 ^ n)]
    omega
  rw [hnew, Nat.testBit_two_pow_mul_add _ (Nat.mod_lt _ (Nat.two_pow_pos lo))]
  by_cases hi : i < lo
  · simp [hi, Nat.testBit_mod_two_pow, show ¬ lo ≤ i by omega]
  rw [if_neg hi, Nat.testBit_two_pow_mul_add _ (Nat.mod_lt _ (Nat.two_pow_pos n))]
  by_cases hin : i < lo + n
  · simp [hin, Nat.testBit_mod_two_pow, show lo ≤ i by omega, show i - lo < n by omega]
  · simp [hin, Nat.testBit_div_two_pow, show ¬ i - lo < n by omega, show i - lo - n + n + lo = i by omega]

/-- A bit of an entry after a put comes from the field put there, or from the entry. -/
theorem Entry.testBit_put (e : Entry) {lo n : Nat} (x : Nat) (h : lo + n ≤ 512) (i : Nat) :
    (e.put lo n x).toNat.testBit i = if lo ≤ i ∧ i < lo + n then x.testBit (i - lo) else e.toNat.testBit i := by
  rw [BitVec.testBit_toNat, Entry.put, BitVec.getLsbD_ofNat, testBit_replace]
  by_cases h512 : i < 512
  · simp [h512]
  · simp [h512, show ¬ (lo ≤ i ∧ i < lo + n) by omega, BitVec.testBit_toNat, BitVec.getLsbD_of_ge e i (by omega)]

@[simp] theorem Entry.f_put_same (e : Entry) {lo n : Nat} (x : Nat) (h : lo + n ≤ 512) :
    Entry.f (e.put lo n x) lo n = x % 2 ^ n := by
  apply Nat.eq_of_testBit_eq
  intro i
  rw [Entry.f, testBit_fld, Entry.testBit_put e x h, Nat.testBit_mod_two_pow]
  by_cases hi : i < n <;> simp [hi]

@[simp] theorem Entry.f_put_apart (e : Entry) {lo n lo' n' : Nat} (x : Nat) (h : lo + n ≤ 512)
    (hapart : lo' + n' ≤ lo ∨ lo + n ≤ lo') : Entry.f (e.put lo n x) lo' n' = Entry.f e lo' n' := by
  apply Nat.eq_of_testBit_eq
  intro i
  rw [Entry.f, Entry.f, testBit_fld, testBit_fld, Entry.testBit_put e x h]
  by_cases hi : i < n'
  · rw [if_neg (by omega)]
  · simp [hi]

@[simp] theorem Entry.bitOf_put (e : Entry) {lo n : Nat} (x i : Nat) (h : lo + n ≤ 512) :
    bitOf (e.put lo n x).toNat i = if lo ≤ i ∧ i < lo + n then bitOf x (i - lo) else bitOf e.toNat i := by
  simp only [bitOf_eq_testBit, Entry.testBit_put e x h]

@[simp] theorem Entry.f_zero (lo n : Nat) : Entry.f 0#512 lo n = 0 := by
  rw [Entry.f, BitVec.toNat_zero, fld, Nat.zero_div, Nat.zero_mod]

@[simp] theorem Entry.putReps_nil (e : Entry) : e.putReps [] = e := rfl

/-- The number of lines depends on the LINES field alone (R202). -/
theorem Entry.lines_congr {e e' : Entry} (h : e.f 64 24 = e'.f 64 24) : e.lines = e'.lines := by
  rw [Entry.lines, Entry.lines, h]

@[simp] theorem State.setEntry_entry_same {s : State} (h : Sparse.wf (0 : BitVec 512) s.bufs = true) (i : Nat) (e : Entry) :
    (s.setEntry i e).entry i = e := Sparse.get_set_same (lo := 0) h

theorem State.setEntry_entry_other {s : State} (h : Sparse.wf (0 : BitVec 512) s.bufs = true) {i j : Nat} (e : Entry) (hj : j ≠ i) :
    (s.setEntry i e).entry j = s.entry j := Sparse.get_set_other (lo := 0) h hj

end Sys2Proof.Machine
end

section
/-! SUPPORT. The entries that a launch writes: as declared (R51), on one stack (R372), on replica dies (R351), with a row map (R354). -/

namespace Sys2Proof.Machine

/-- The entry that `home` leaves: the whole buffer on stack `k` (R372). -/
def Entry.onStack (e : Entry) (k : Nat) : Entry := ((e.put 128 4 k).put 132 5 1).put 137 11 0

/-- The entry that `rowmap` leaves (R354). -/
def Entry.withRowMap (e : Entry) (x : RowMapReq) : Entry :=
  ((((e.put 352 56 x.area).put 420 5 x.shift).put 408 12 (min (e.len / 2 ^ x.shift) 4096 - 1)).put 425 1 0).put 288 56 x.map

/-- `rowmap` changes the buffer table at its buffer alone. -/
theorem State.rowMap_entry (s : State) (x : RowMapReq) (j : Nat) :
    (s.rowMap x).entry j = (s.setEntry x.buf ((s.entry x.buf).withRowMap x)).entry j := by
  simp [State.rowMap, State.entry, Entry.withRowMap]

theorem Entry.onStack_fields (e : Entry) {k : Nat} (hk : k ≤ 15) :
    (e.onStack k).stk0 = k ∧ (e.onStack k).nstk = 1 ∧ (e.onStack k).cbase = 0 ∧ (e.onStack k).lines = e.lines := by
  refine ⟨?_, ?_, ?_, Entry.lines_congr ?_⟩ <;>
    simp [Entry.onStack, Entry.stk0, Entry.nstk, Entry.cbase]
  omega

theorem Entry.withRowMap_fields (e : Entry) {x : RowMapReq} (ha : x.area < 2 ^ 56) (hm : x.map < 2 ^ 56) (hs : x.shift ≤ 23) :
    let e' := e.withRowMap x
    e'.rmap = x.area ∧ e'.rshift = x.shift ∧ e'.rmlen = min (e'.len / 2 ^ x.shift) 4096 - 1 ∧ e'.rmsel = 0 ∧ e'.smap = x.map ∧
      e'.len = e.len := by
  have hlen : (e.withRowMap x).len = e.len := by
    rw [Entry.len, Entry.len, Entry.lines_congr]
    simp [Entry.withRowMap]
  dsimp only
  rw [hlen]
  refine ⟨?_, ?_, ?_, ?_, ?_, rfl⟩ <;>
    simp [Entry.withRowMap, Entry.rmap, Entry.rshift, Entry.rmlen, Entry.rmsel, Entry.smap] <;> omega

theorem Entry.putReps_three (e : Entry) {x y z : Nat} (hx : x < 8) (hy : y < 8) (hz : z < 8) :
    let e' := e.putReps [x, y, z]
    e'.rep 0 = x ∧ e'.rep 1 = y ∧ e'.rep 2 = z ∧ e'.nrep = e.nrep := by
  simp [Entry.putReps, Entry.rep, Entry.nrep]
  omega

end Sys2Proof.Machine
end

section
/-! SUPPORT. The entry of a declared buffer (R51, R202), and what the loader leaves of a buffer whose section is empty. -/

namespace Sys2Proof.Machine

/-- The fields of a declared buffer's entry whose value does not depend on its kind. -/
theorem bufEntry_fields {b : BufReq} {ctx : Nat} (hv : b.vbase < 2 ^ 56) (hl : b.lines < 2 ^ 24) (h0 : b.stk0 < 16) (hn : b.nstk < 32)
    (hc : b.cbase < 2 ^ 11) (hp : b.pmap < 2 ^ 56) (ho : ctx < 2 ^ 16) (hr : b.reps = []) :
    let e := bufEntry b ctx
    e.valid = true ∧ e.vbase = b.vbase ∧ e.lines = (if b.lines = 0 then 2 ^ 24 else b.lines) ∧ e.owner = ctx ∧ e.ilv = b2n b.gathered ∧
      e.stk0 = b.stk0 ∧ e.nstk = b.nstk ∧ e.cbase = b.cbase ∧ e.pmap = b.pmap ∧ e.smap = 0 ∧ e.rmap = 0 ∧ e.rstate = 0 := by
  have hg : b2n b.gathered % 2 = b2n b.gathered := by cases b.gathered <;> rfl
  have hlines : b.lines % 16777216 = b.lines := Nat.mod_eq_of_lt hl
  refine ⟨?_, ?_, ?_, ?_, ?_, ?_, ?_, ?_, ?_, ?_, ?_, ?_⟩
  case refine_1 => simp [bufEntry, hr, Entry.valid, show bitOf 1 0 = true from rfl]
  case refine_3 => simp [bufEntry, hr, Entry.lines, hlines]
  all_goals
    simp [bufEntry, hr, Entry.vbase, Entry.owner, Entry.ilv, Entry.stk0, Entry.nstk, Entry.cbase, Entry.pmap, Entry.smap, Entry.rmap,
      Entry.rstate, hg]
  all_goals assumption

/-- The kind, the rights and the replicas of a declared buffer are those of its sort. -/
theorem bufEntry_sort {b : BufReq} (ctx : Nat) (hr : b.reps = []) (hs : sortReps b.sort ≤ 3) :
    let e := bufEntry b ctx
    e.kind = sortKind b.sort ∧ e.rd = bitOf (sortRights b.sort) 0 ∧ e.wr = bitOf (sortRights b.sort) 1 ∧
      e.at_ = bitOf (sortRights b.sort) 2 ∧ e.vr = bitOf (sortRights b.sort) 3 ∧ e.ip = bitOf (sortRights b.sort) 4 ∧
      e.nrep = sortReps b.sort := by
  have hk : sortKind b.sort % 4 = sortKind b.sort := by cases b.sort <;> rfl
  simp [bufEntry, hr, Entry.kind, Entry.rd, Entry.wr, Entry.at_, Entry.vr, Entry.ip, Entry.nrep, hk]
  omega

theorem Entry.lines_pos (e : Entry) : 0 < e.lines := by
  unfold Entry.lines
  split <;> omega

/- ### Bytes that are wiped -/

/-- A byte that no cell lists reads 0. -/
theorem Memory.get_unlisted {m : List Host.Cell} {a : Nat} (h : ∀ c ∈ m, c.1 ≠ a) : Memory.get m a = 0 := by
  unfold Memory.get
  induction m with
  | nil => rfl
  | cons c t ih =>
    obtain ⟨b, x⟩ := c
    simp only [List.forall_mem_cons] at h
    rw [Sparse.get, if_neg (Ne.symm h.1), ih h.2]
    split <;> rfl

@[simp] theorem State.wipe_bufs (s : State) (a n : Nat) : (s.wipe a n).bufs = s.bufs := by unfold State.wipe; dsimp only; split <;> rfl
@[simp] theorem State.wipe_ctxs (s : State) (a n : Nat) : (s.wipe a n).ctxs = s.ctxs := by unfold State.wipe; dsimp only; split <;> rfl

theorem State.wipe_mem {s : State} {a : Nat} (n : Nat) (h : a < 2 ^ 56) :
    (s.wipe a n).mem = s.mem.filter (fun c => c.1 < a || a + n ≤ c.1) := by
  have htier : tierOf a = 0 := Nat.div_eq_of_lt h
  simp only [State.wipe, htier, if_true]

theorem State.wipe_get {s : State} {a n b : Nat} (h : a < 2 ^ 56) (hab : a ≤ b) (hb : b < a + n) :
    Memory.get (s.wipe a n).mem b = 0 := by
  apply Memory.get_unlisted
  rw [State.wipe_mem n h]
  rintro c hc rfl
  simp only [List.mem_filter, Bool.or_eq_true, decide_eq_true_eq] at hc
  omega

/-- A number whose bytes all read 0 is 0. -/
theorem State.memNat_of_zero {s : State} {a n : Nat} (h : ∀ j, j < n → Memory.get s.mem (a + j) = 0) : s.memNat a n = 0 := by
  unfold State.memNat
  induction n generalizing a with
  | zero => rfl
  | succ n ih =>
    rw [Memory.bytes, leNat, ih (fun j hj => by rw [Nat.add_right_comm]; exact h (j + 1) (by omega)), show Memory.get s.mem a = 0 from h 0 (by omega)]
    rfl

/- ### What the loader leaves of a buffer (R51) -/

@[simp] theorem State.fillFrame_bufs (s : State) {b : BufReq} (h : b.image = []) (e : Entry) (off a : Nat) :
    (s.fillFrame b e off a).bufs = s.bufs := by
  unfold State.fillFrame
  cases b.sort <;> simp [h]

theorem State.makeBuffer_versioned (s : State) (ctx : Nat) {b : BufReq} {k : Nat} (h : b.sort = .versioned k) :
    s.makeBuffer ctx b = (s.dropObjects b.idx).setEntry b.idx (bufEntry b ctx) := by
  simp [State.makeBuffer, h]

/-- The loader changes the buffer table at the buffer's entry alone. -/
theorem State.makeBuffer_bufs (s : State) (ctx : Nat) {b : BufReq} (h : b.image = []) :
    (s.makeBuffer ctx b).bufs = (s.setEntry b.idx (bufEntry b ctx)).bufs := by
  have hfill : ∀ l : List (Nat × Nat), (l.foldl (fun s x => (s.ownFrame ctx (frameKey x.2)).fillFrame b (bufEntry b ctx) x.1 x.2)
      ((s.dropObjects b.idx).setEntry b.idx (bufEntry b ctx))).bufs = (s.setEntry b.idx (bufEntry b ctx)).bufs := fun l =>
    List.foldlRecOn (motive := fun t : State => t.bufs = (s.setEntry b.idx (bufEntry b ctx)).bufs) l _ rfl
      (fun t ht x _ => by simp [h, ht])
  cases hs : b.sort with
  | versioned k => rw [State.makeBuffer_versioned s ctx hs]; rfl
  | plain | readOnly | sync => simpa only [State.makeBuffer, hs] using hfill _

/-- The frames of a buffer of one frame that is PRESENT: that frame (R205). -/
theorem State.presentFrames_one {s : State} {e : Entry} (hlen : e.len ≤ 65536) (hp : dPresent (s.descr e 0 0) = true) :
    s.presentFrames e = [(0, physAddr (s.descr e 0 0) 0)] := by
  have hpos := e.lines_pos
  have hone : cdiv e.len 65536 = 1 := by
    unfold cdiv
    unfold Entry.len at hlen ⊢
    omega
  simp [State.presentFrames, hone, hp]

/-- The place of a frame of tier 0, and of the bytes in it. -/
theorem physAddr_tier0 {d : Nat} (h : dTier d = 0) {j : Nat} (hj : j < 65536) :
    physAddr d 0 < 2 ^ 56 ∧ physAddr d j = physAddr d 0 + j := by
  have hframe : dFrame d < 2 ^ 32 := Nat.mod_lt _ (by decide)
  simp only [physAddr, h]
  omega

/-- A SYNC buffer of one frame of tier 0 reads zero (R51). -/
theorem State.makeBuffer_sync_zero {s : State} {ctx : Nat} {b : BufReq} (hs : b.sort = .sync) (hlen : (bufEntry b ctx).len ≤ 65536)
    (hp : dPresent (s.descr (bufEntry b ctx) 0 0) = true) (ht : dTier (s.descr (bufEntry b ctx) 0 0) = 0) {j : Nat}
    (hj : j < (bufEntry b ctx).len) :
    Memory.get (s.makeBuffer ctx b).mem (physAddr (s.descr (bufEntry b ctx) 0 0) j) = 0 := by
  obtain ⟨hlow, haddr⟩ := physAddr_tier0 ht (by omega : j < 65536)
  have hframes : ((s.dropObjects b.idx).setEntry b.idx (bufEntry b ctx)).presentFrames (bufEntry b ctx) =
      [(0, physAddr (s.descr (bufEntry b ctx) 0 0) 0)] := State.presentFrames_one hlen hp
  simp only [State.makeBuffer, hs]
  rw [hframes]
  simp only [List.foldl, State.fillFrame, hs]
  rw [haddr]
  exact State.wipe_get hlow (by omega) (by omega)

end Sys2Proof.Machine
end

section
/-! SUPPORT. The context of a keldb launch (R394), and a launch and its next team case by case (R357, R359, R362, R370). -/

namespace Sys2Proof.Machine

/- ### The context of a keldb launch -/

/-- Whole frames that hold a number of bytes. -/
theorem le_cdiv_mul {n : Nat} (m : Nat) (hn : 0 < n) : m ≤ cdiv m n * n := by
  have := Nat.div_add_mod (m + n - 1) n
  have := Nat.mod_lt (m + n - 1) hn
  unfold cdiv
  rw [Nat.mul_comm]
  omega

/-- CTXFLAGS as keldb fills them (R329, R394): DBG set, STALLCHK clear, NOMARK and PRIO as asked for. -/
theorem keldbCtx_flags (k : KeldbReq) (n : Nat) (d : TDesc) :
    let f := (keldbCtx k n d).flags
    f.getLsbD 2 = true ∧ f.getLsbD 0 = false ∧ f.getLsbD 1 = k.nomark ∧ fld f.toNat 4 2 = k.prio % 4 := by
  have hall : ∀ (nomark : Bool) (p : Fin 4),
      let f := BitVec.ofNat 32 (4 + 2 * b2n nomark + 16 * p.val)
      f.getLsbD 2 = true ∧ f.getLsbD 0 = false ∧ f.getLsbD 1 = nomark ∧ fld f.toNat 4 2 = p.val := by decide
  exact hall k.nomark ⟨k.prio % 4, Nat.mod_lt _ (by decide)⟩

/-- keldb's dump and save areas hold what the launch can need. -/
theorem keldbCtx_areas (k : KeldbReq) (n : Nat) (d : TDesc) :
    d.dumpBytes ≤ (keldbCtx k n d).dumpLen * 65536 ∧ d.saveBytes ≤ (keldbCtx k n d).saveLen * 65536 :=
  ⟨(le_cdiv_mul _ (by decide)).trans (Nat.mul_le_mul_right _ (le_max_right _ _)),
    (le_cdiv_mul _ (by decide)).trans (Nat.mul_le_mul_right _ (le_max_right _ _))⟩

theorem State.makeCtx_ctxs (s : State) {r : LaunchReq} {k : KeldbReq} (hk : r.keldb = some k) :
    (s.makeCtx r).ctxs = s.ctxs ++ [keldbCtx k r.ctx r.desc] := by
  have hbox : (k.mbox.foldl (fun (s : State) m => { s with mem := Memory.store s.mem (k.mbtab + 8 * m.q) (leBytes 8 (mboxWord m)) })
      ((s.wipe k.wintab 1024).wipe k.mbtab 8192)).ctxs = s.ctxs :=
    List.foldlRecOn (motive := fun t : State => t.ctxs = s.ctxs) k.mbox _ (by simp) (fun _ ht _ _ => ht)
  simp only [State.makeCtx, hk]
  rw [hbox]

/-- The memory of a keldb launch: its window and mailbox tables wiped, then the entries of `mbox` written. -/
theorem State.makeCtx_mem (s : State) {r : LaunchReq} {k : KeldbReq} (hk : r.keldb = some k) :
    (s.makeCtx r).mem = k.mbox.foldl (fun mem m => Memory.store mem (k.mbtab + 8 * m.q) (leBytes 8 (mboxWord m)))
      ((s.wipe k.wintab 1024).wipe k.mbtab 8192).mem := by
  simp only [State.makeCtx, hk]
  exact (List.foldl_hom State.mem (fun _ _ => rfl)).symm

/-- A byte that either of two wipes covers reads 0. -/
theorem State.wipe_wipe_get {s : State} {a n b m x : Nat} (ha : a < 2 ^ 56) (hb : b < 2 ^ 56)
    (hx : a ≤ x ∧ x < a + n ∨ b ≤ x ∧ x < b + m) : Memory.get ((s.wipe a n).wipe b m).mem x = 0 := by
  apply Memory.get_unlisted
  rw [State.wipe_mem m hb, State.wipe_mem n ha]
  rintro c hc rfl
  simp only [List.mem_filter, Bool.or_eq_true, decide_eq_true_eq] at hc
  omega

theorem State.wipe_wf {s : State} (a n : Nat) (h : Memory.wf s.mem = true) : Memory.wf (s.wipe a n).mem = true := by
  by_cases ht : tierOf a = 0 <;> simp [State.wipe, ht, h, Memory.filter_wf]

theorem mboxWord_lt {m : MboxReq} (hh : m.home ≤ 7) (hd : m.logDepth ≤ 12) : mboxWord m < 256 ^ 8 := by
  have hb : b2n m.host ≤ 1 := by cases m.host <;> decide
  unfold mboxWord
  omega

/-- The mailbox table of a keldb launch with one mailbox: its entry, and every other one zero (R304, R394). -/
theorem State.makeCtx_mbox {s : State} {r : LaunchReq} {k : KeldbReq} {m : MboxReq} (hk : r.keldb = some k) (hm : k.mbox = [m])
    (hok : mboxOk [m] = true) (hb : k.mbtab < 2 ^ 56) (hw : k.wintab < 2 ^ 56) (hwf : Memory.wf s.mem = true) :
    (s.makeCtx r).memNat (k.mbtab + 8 * m.q) 8 = mboxWord m ∧
      ∀ q, q ≤ 1023 → q ≠ m.q → (s.makeCtx r).memNat (k.mbtab + 8 * q) 8 = 0 := by
  have hmem := s.makeCtx_mem hk
  rw [hm, List.foldl_cons, List.foldl_nil] at hmem
  have hwiped : Memory.wf ((s.wipe k.wintab 1024).wipe k.mbtab 8192).mem = true := State.wipe_wf _ _ (State.wipe_wf _ _ hwf)
  have hlen := leBytes_length 8 (mboxWord m)
  obtain ⟨⟨-, hhome⟩, hdepth⟩ : (m.q ≤ 1023 ∧ m.home ≤ 7) ∧ m.logDepth ≤ 12 := by simpa [mboxOk] using hok
  constructor
  · have hread := Memory.bytes_store hwiped (k.mbtab + 8 * m.q) (leBytes 8 (mboxWord m))
    rw [hlen, ← hmem] at hread
    rw [State.memNat, hread, leNat_leBytes 8 _ (mboxWord_lt hhome hdepth)]
  · intro q hq hne
    apply State.memNat_of_zero
    intro j hj
    rw [hmem, Memory.get_store_outside _ hwiped (by omega)]
    exact State.wipe_wipe_get hw hb (by omega)

/- ### LAUNCH -/

theorem exec_launch (r : LaunchReq) (s : State) : exec (.launch r) s = execLaunch r s := rfl

theorem exec_teamPlacement (n : Nat) (s : State) : exec (.teamPlacement n) s = execTeamPlacement n s := rfl

/-- A launch stands in the queue of launches. -/
def State.addLaunch (s : State) (r : LaunchReq) (l : Launch) : State :=
  ({ s with launches := s.launches ++ [l], nextLaunch := s.nextLaunch + 1 }).modCtx r.ctx (fun c =>
    { c with seghold := r.seghold, segUsed := [] })

section
variable {r : LaunchReq} {s : State}

/-- keldb reports a fault in the options: nothing is made (R351, R354, R372, R394). -/
theorem exec_launch_misfit (h : launchOk r s = false) : exec (.launch r) s = .next s.refuseLaunch := by
  simp [exec_launch, execLaunch, h]

/-- A context that halts, or a descriptor that the driver does not accept (R357): the launch is refused. -/
theorem exec_launch_refused (h : launchOk r s = true)
    (hr : ((s.makeCtx r).makeBuffers r).halted r.ctx = true ∨ TDesc.ok r.desc = false) :
    exec (.launch r) s = .next ((s.makeCtx r).makeBuffers r).refuseLaunch := by
  have hd : ∀ n, (launchOf r n).d = r.desc := fun _ => rfl
  rcases hr with hr | hr <;> simp [exec_launch, execLaunch, h, hd, hr]

/-- A launch that is not resident is queued (R362). -/
theorem exec_launch_queued (h : launchOk r s = true) (hh : ((s.makeCtx r).makeBuffers r).halted r.ctx = false)
    (hd : TDesc.ok r.desc = true) (hw : (r.resident || r.keldb.isSome) = false) :
    let t := (s.makeCtx r).makeBuffers r
    exec (.launch r) s = .next (t.addLaunch r (launchOf r t.nextLaunch)) := by
  have hd' : ∀ n, (launchOf r n).d = r.desc := fun _ => rfl
  have hw' : ∀ n, (launchOf r n).resident = false := fun _ => hw
  simp [exec_launch, execLaunch, h, hh, hd, hd', hw', State.addLaunch]

/-- A resident launch whose teams all have a place is placed whole (R362). -/
theorem exec_launch_placed (h : launchOk r s = true) (hh : ((s.makeCtx r).makeBuffers r).halted r.ctx = false)
    (hd : TDesc.ok r.desc = true) (hw : (r.resident || r.keldb.isSome) = true) {ps : List Plan} {ptr : Nat} :
    let t := (s.makeCtx r).makeBuffers r
    let l := launchOf r t.nextLaunch
    t.placeAll l (t.candidates l.d) (l.d.nteams / l.d.block) 0 0 t.rooms [] = some (ps, ptr) →
      exec (.launch r) s = .next (t.addLaunch r { l with plan := ps, ptr := ptr }) := by
  intro t l hplace
  have hd' : l.d.ok = true := hd
  have hw' : l.resident = true := hw
  simp [exec_launch, execLaunch, h, hh, t, l, hd', hw', hplace, State.addLaunch]

/-- A resident launch with a team that has no place is refused (R362). -/
theorem exec_launch_placeless (h : launchOk r s = true) (hh : ((s.makeCtx r).makeBuffers r).halted r.ctx = false)
    (hd : TDesc.ok r.desc = true) (hw : (r.resident || r.keldb.isSome) = true) :
    let t := (s.makeCtx r).makeBuffers r
    let l := launchOf r t.nextLaunch
    t.placeAll l (t.candidates l.d) (l.d.nteams / l.d.block) 0 0 t.rooms [] = none → exec (.launch r) s = .next t.refuseLaunch := by
  intro t l hplace
  have hd' : l.d.ok = true := hd
  have hw' : l.resident = true := hw
  simp [exec_launch, execLaunch, h, hh, t, l, hd', hw', hplace]

end

/- ### The next team of a launch -/

section
variable {s : State} {n : Nat} {l : Launch} {p : Plan} {rest : List Plan}

/-- The team whose place is decided takes it (R359, R362, R370). -/
theorem exec_teamPlacement_planned (hl : s.launch? n = some l) (hh : s.halted l.ctx = false) (hn : l.next < l.d.nteams)
    (hp : l.plan = p :: rest) (hout : p.victims.all s.victimOut = true) (hfit : s.roomNow.fits l.d l.ctx p.core = true)
    (hback : s.restorable p.core = none) : exec (.teamPlacement n) s = .next (s.takePlace l p rest) := by
  simp only [exec_teamPlacement, execTeamPlacement, hl, hh, hp, hout, hfit, hback]
  simp [Nat.not_le.2 hn]

/-- A queued launch with no place decided takes the first place of its list that needs no eviction (R359, R360). -/
theorem exec_teamPlacement_scanned {b : Block} {ptr : Nat} (hl : s.launch? n = some l) (hh : s.halted l.ctx = false)
    (hn : l.next < l.d.nteams) (hp : l.plan = []) (hr : l.resident = false)
    (hscan : s.scan l (s.candidates l.d) false l.next l.ptr s.rooms [] (s.candidates l.d).length = some (b, ptr))
    (hb : b.plans = p :: rest) (hback : b.plans.any (fun p => (s.restorable p.core).isSome) = false) :
    exec (.teamPlacement n) s = .next ((s.takePlace l p rest).modLaunch n (fun x => { x with ptr := ptr })) := by
  rw [hb] at hback
  simp only [exec_teamPlacement, execTeamPlacement, hl, hh, hp, hr, hscan, hb, hback]
  simp [Nat.not_le.2 hn]

end

end Sys2Proof.Machine
end

section
/-! SUPPORT. The options of keldb each by itself, and the statement on launches. -/

namespace Sys2Proof.Machine

section
variable {t : State} (hwf : Sparse.wf (0 : BitVec 512) t.bufs = true)
include hwf

/-- The `rowmap` option on one buffer (R354). -/
theorem State.rowMap_effect {x : RowMapReq} (ha : x.area < 2 ^ 56) (hm : x.map < 2 ^ 56) (hs : x.shift ≤ 23) :
    let e := (t.rowMap x).entry x.buf
    e.rmap = x.area ∧ e.rshift = x.shift ∧ e.rmlen = min (e.len / 2 ^ x.shift) 4096 - 1 ∧ e.rmsel = 0 ∧ e.smap = x.map ∧
      e.len = (t.entry x.buf).len ∧ ∀ j, j ≠ x.buf → (t.rowMap x).entry j = t.entry j := by
  simp only [State.rowMap_entry, State.setEntry_entry_same hwf]
  obtain ⟨hrmap, hshift, hrmlen, hsel, hsmap, hlen⟩ := (t.entry x.buf).withRowMap_fields ha hm hs
  exact ⟨hrmap, hshift, hrmlen, hsel, hsmap, hlen, fun j hj => State.setEntry_entry_other hwf _ hj⟩

/-- The `home` option on one buffer (R372). -/
theorem State.home_effect {b k : Nat} (hk : k ≤ 15) :
    let u := t.setEntry b ((t.entry b).onStack k)
    (u.entry b).stk0 = k ∧ (u.entry b).nstk = 1 ∧ (u.entry b).cbase = 0 ∧ (u.entry b).lines = (t.entry b).lines ∧
      ∀ j, j ≠ b → u.entry j = t.entry j := by
  simp only [State.setEntry_entry_same hwf]
  obtain ⟨hstk, hn, hc, hl⟩ := (t.entry b).onStack_fields hk
  exact ⟨hstk, hn, hc, hl, fun j hj => State.setEntry_entry_other hwf _ hj⟩

/-- The `rep` option on one buffer of three replicas (R351). -/
theorem State.rep_effect {b x y z : Nat} (hx : x < 8) (hy : y < 8) (hz : z < 8) :
    let u := t.setEntry b ((t.entry b).putReps [x, y, z])
    (u.entry b).rep 0 = x ∧ (u.entry b).rep 1 = y ∧ (u.entry b).rep 2 = z ∧ (u.entry b).nrep = (t.entry b).nrep ∧
      ∀ j, j ≠ b → u.entry j = t.entry j := by
  simp only [State.setEntry_entry_same hwf]
  obtain ⟨h0, h1, h2, hn⟩ := (t.entry b).putReps_three hx hy hz
  exact ⟨h0, h1, h2, hn, fun j hj => State.setEntry_entry_other hwf _ hj⟩

/-- The loader writes the entry of a buffer with an empty section, and no other (R51). -/
theorem State.makeBuffer_entry {ctx : Nat} {b : BufReq} (hi : b.image = []) :
    (t.makeBuffer ctx b).entry b.idx = bufEntry b ctx ∧ ∀ j, j ≠ b.idx → (t.makeBuffer ctx b).entry j = t.entry j := by
  have hentry : ∀ j, (t.makeBuffer ctx b).entry j = (t.setEntry b.idx (bufEntry b ctx)).entry j := fun j => by
    rw [State.entry, State.makeBuffer_bufs t ctx hi, State.entry]
  simp only [hentry]
  exact ⟨State.setEntry_entry_same hwf _ _, fun j hj => State.setEntry_entry_other hwf _ hj⟩

end

/-- A VERSIONED buffer that the loader creates has no cell (R51, R308). -/
theorem State.makeBuffer_no_cell {s : State} {ctx : Nat} {b : BufReq} {k : Nat} (hs : b.sort = .versioned k) :
    ∀ c ∈ (s.makeBuffer ctx b).cells, c.buf ≠ b.idx := by
  intro c hc
  rw [State.makeBuffer_versioned s ctx hs, State.setEntry_cells] at hc
  simpa using (List.mem_filter.1 hc).2

/-- Settles O44: each case of LAUNCH and of TEAM_PLACEMENT, and what the loader and each option of keldb leave. -/
theorem launchEvents : Obligations.LaunchEvents := by
  unfold Obligations.LaunchEvents
  intro s0 r n made s d whole l added good
  refine ⟨exec_launch_misfit, exec_launch_refused, exec_launch_queued, fun hg hh hd hw => ⟨?_, exec_launch_placeless hg hh hd hw⟩,
    ?rowmap, ?home, ?rep, ?entry, ?loader, ?keldb, ?planned, ?scanned⟩
  · exact fun ps ptr => exec_launch_placed hg hh hd hw
  case rowmap =>
    intro x hhome hrep hrow ha hm hshift hwf
    have hs : s = made.rowMap x := by simp [s, State.homeBuffers, State.repBuffers, hhome, hrep, hrow]
    rw [hs]
    exact State.rowMap_effect hwf ha hm hshift
  case home =>
    intro b k hhome hrep hrow hk hwf
    have hs : s = made.setEntry b ((made.entry b).onStack k) := by
      simp [s, State.homeBuffers, State.repBuffers, hhome, hrep, hrow, Entry.onStack]
    rw [hs]
    exact State.home_effect hwf hk
  case rep =>
    intro b x y z hhome hrep hrow hx hy hz hwf
    have hs : s = made.setEntry b ((made.entry b).putReps [x, y, z]) := by
      simp [s, State.homeBuffers, State.repBuffers, hhome, hrep, hrow]
    rw [hs]
    exact State.rep_effect hwf hx hy hz
  case entry =>
    intro b ctx hv hl h0 hn hc hp ho hr hs e
    obtain ⟨hvalid, hvbase, hlines, howner, hilv, hstk, hnstk, hcbase, hpmap, hsmap, hrmap, hrstate⟩ := bufEntry_fields hv hl h0 hn hc hp ho hr
    obtain ⟨hkind, hrd, hwr, hat, hvr, hip, hnrep⟩ := bufEntry_sort ctx hr hs
    refine ⟨hvalid, hvbase, hlines, howner, hilv, hstk, hnstk, hcbase, hpmap, hsmap, hrmap, hrstate, ?_⟩
    simp only [e, hkind, hrd, hwr, hat, hvr, hip, hnrep]
    cases b.sort with
    | plain | readOnly | sync => rfl
    | versioned k => simp [sortKind, sortRights, sortReps, bitOf]
  case loader =>
    intro b ctx k hi hwf t
    obtain ⟨hown, hother⟩ := State.makeBuffer_entry hwf (ctx := ctx) hi
    exact ⟨hown, hother, State.makeBuffer_no_cell, fun hs hlen hp ht j => State.makeBuffer_sync_zero hs hlen hp ht⟩
  case keldb =>
    intro k hk c t
    obtain ⟨hdbg, hstall, hnomark, hprio⟩ := keldbCtx_flags k r.ctx d
    obtain ⟨hdump, hsave⟩ := keldbCtx_areas k r.ctx d
    refine ⟨rfl, hdbg, hstall, hnomark, hprio, rfl, hdump, hsave, s0.makeCtx_ctxs hk, ?_, fun m => State.makeCtx_mbox hk⟩
    intro hbox a ha hw hb
    rw [State.makeCtx_mem s0 hk, hbox]
    exact State.wipe_wipe_get hw hb ha
  case planned => exact fun l p rest => exec_teamPlacement_planned
  case scanned => exact fun l b ptr p rest => exec_teamPlacement_scanned

end Sys2Proof.Machine
end

section
/-! SUPPORT. The effects of the instructions that compute keep every memory in its canonical form: what the effects share, then
control, scope, floating point, packed arithmetic and the matrix unit. -/

namespace Sys2Proof.Machine

/-- The state that an effect comes to has its memories in canonical form. -/
def EffCanonical : Eff → Prop
  | .done s => s.Canonical
  | .moved s _ => s.Canonical
  | .waits s => s.Canonical
  | .hold s => s.Canonical
  | .fault s _ => s.Canonical

theorem effCanonical_iff {e : Eff} : EffCanonical e ↔ e.state.Canonical := by cases e <;> exact Iff.rfl

/-- A next state that an outcome answers has its memories in canonical form. -/
def NextCanonical : Host.Outcome State Fault Refusal → Prop
  | .next s => s.Canonical
  | .fault _ => True
  | .refused _ => True

theorem issueWith_nextCanonical {b : Bool} {i : Instr} {c : Ctl} {s : State} {eff : State → Eff} (h : s.Canonical)
    (he : ∀ u, u.Canonical → EffCanonical (eff u)) : NextCanonical (issueWith b i c s eff) := by
  cases hn : issueWith b i c s eff with
  | next t => exact issueWith_canonical h (fun u hu => effCanonical_iff.1 (he u hu)) hn
  | fault _ => trivial
  | refused _ => trivial

theorem issue_nextCanonical {i : Instr} {c : Ctl} {s : State} {eff : State → Eff} (h : s.Canonical)
    (he : ∀ u, u.Canonical → EffCanonical (eff u)) : NextCanonical (issue i c s eff) := issueWith_nextCanonical h he

/-- The state after an event that can occur, else the same. -/
theorem orSame_canonical {s : State} (h : s.Canonical) {o : Host.Outcome State Fault Refusal} (ho : NextCanonical o) :
    (orSame s o).Canonical := by
  cases o with
  | next t => exact ho
  | fault _ => exact h
  | refused _ => exact h

/-- A fold that carries something beside the state keeps the form where every step does. -/
theorem canonical_foldl_fst {σ β : Type} {f : State × σ → β → State × σ} (hf : ∀ a x, a.1.Canonical → (f a x).1.Canonical)
    (l : List β) {a : State × σ} (h : a.1.Canonical) : (l.foldl f a).1.Canonical :=
  List.foldlRecOn (motive := fun a => a.1.Canonical) l f h (fun a ha x _ => hf a x ha)

/- ### Results on their way -/

variable {c : Ctl} {s : State}

theorem State.perLane_canonical (h : s.Canonical) (lat : Nat) (f : Group → Mask → List Write) : (s.perLane c lat f).Canonical :=
  canonical_foldl (fun t x ht => by split <;> exact ht) _ h

theorem State.perLaneVar_canonical (h : s.Canonical) (f : Group → Mask → List Write) : (s.perLaneVar c f).Canonical :=
  canonical_foldl (fun _ _ ht => State.putVar_canonical ht _ _ _) _ h

theorem State.everyMember_canonical (h : s.Canonical) (lat : Option Nat) (f : Nat → Mask → List Write) :
    (s.everyMember c lat f).Canonical :=
  canonical_foldl (fun t x ht => by cases lat <;> (dsimp only; split <;> exact ht)) _ h

theorem onGroup_canonical {f : Group → Member → Mask → Eff} (h : s.Canonical) (hf : ∀ g m e, EffCanonical (f g m e)) :
    EffCanonical (onGroup c s f) := by
  unfold onGroup
  split
  · split
    · exact hf _ _ _
    · exact h
  · exact h

/- ### Floating point -/

theorem fpStep_canonical {lat : Option Nat} {d : Opd} {how : FpDst} {srcs : List (Nat × Opd)} {out : State → Group → FpOut}
    {acc : State × List LaneFault} (h : acc.1.Canonical) (x : Group × Mask) : (fpStep lat d how srcs out s acc x).1.Canonical := by
  cases lat with
  | none => exact h
  | some n => simp only [fpStep]; split <;> exact h

theorem fpEff_canonical (h : s.Canonical) (lat : Option Nat) (d : Opd) (how : FpDst) (srcs : List (Nat × Opd))
    (out : State → Group → FpOut) : EffCanonical (fpEff c lat d how srcs out s) := by
  have h1 : ∀ l : List (Group × Mask), (l.foldl (fpStep lat d how srcs out s) (s, [])).1.Canonical := fun l =>
    canonical_foldl_fst (fun _ x ha => fpStep_canonical ha x) l (a := (s, [])) h
  simp only [fpEff]
  split <;> exact h1 _

/- ### Branches, exits and the stream registers -/

theorem State.goTo_canonical (h : s.Canonical) (k : GKey) (m : Mask) (t : Word) : (s.goTo k m t).Canonical := by
  unfold State.goTo
  split <;> exact h

theorem jumpEff_canonical (h : s.Canonical) (tgt : State → Group → Nat → Option Word) (link : Mask → List Write)
    (pen : List Word → Nat → Nat) : EffCanonical (jumpEff c tgt link pen s) := by
  refine onGroup_canonical h fun g m e => ?_
  dsimp only
  split
  · exact h
  · refine canonical_foldl (fun t x ht => t.goTo_canonical ht _ _ _) _ (State.goTo_canonical ?_ _ _ _)
    split <;> exact h

theorem noLoops_canonical {eff : State → Eff} (h : s.Canonical) (he : EffCanonical (eff s)) :
    EffCanonical (noLoops c eff s) := by
  refine onGroup_canonical h fun g m e => ?_
  split
  · exact he
  · exact h

theorem State.dropLate_canonical (h : s.Canonical) (ctx : Nat) (test : CKey → Bool) : (s.dropLate ctx test).Canonical := h

theorem State.leaveCore_canonical (h : s.Canonical) (k : CKey) (ctx : Nat) : (s.leaveCore k ctx).Canonical := by
  unfold State.leaveCore
  split
  · exact h
  · exact State.modCore_canonical (s.dropLate_canonical h _ _) _ _

theorem State.freeMx_canonical (h : s.Canonical) (p : PKey) : (s.freeMx p).Canonical := by
  unfold State.freeMx
  split
  · split
    · exact s.modPart_canonical h _ _
    · exact h
  · exact h

theorem State.groupEnded_canonical (h : s.Canonical) (g : Group) : (s.groupEnded g).Canonical := by
  have h1 : (s.endMx g.pkey g.ctx).Canonical := by
    unfold State.endMx
    split
    · exact h
    · exact State.freeMx_canonical (s.modPart_canonical h _ _) _
  refine State.leaveCore_canonical ?_ _ _
  unfold State.freeCvs
  split <;> exact h1

theorem execExit_canonical (h : s.Canonical) (c : Ctl) : NextCanonical (execExit c s) :=
  issue_nextCanonical h fun u hu => onGroup_canonical hu fun g m e => by
    have h1 := State.modGroup_canonical (u.goTo_canonical hu g.key (m.lanes &&& ~~~e) u.cur.next) g.key (fun g => g.exitLanes e)
    simp only [EffCanonical]
    split
    · exact State.groupEnded_canonical h1 g
    · exact h1

theorem execLoop_canonical (h : s.Canonical) (c : Ctl) (lc : LcReg) (count : Opd) (len : BitVec 10) :
    NextCanonical (execLoop c lc count len s) :=
  issue_nextCanonical h fun u hu => onGroup_canonical hu fun g m e => by dsimp only; split <;> exact hu

theorem execLoopq_canonical (h : s.Canonical) (c : Ctl) (lc : LcReg) (q : QReg) (len : BitVec 10) (dim : Fin 3) :
    NextCanonical (execLoopq c lc q len dim s) :=
  issue_nextCanonical h fun u hu => onGroup_canonical hu fun g m e => by dsimp only; split <;> exact hu

theorem execLbrk_canonical (h : s.Canonical) (c : Ctl) (n : Fin 3) : NextCanonical (execLbrk c n s) :=
  issue_nextCanonical h fun u hu => onGroup_canonical hu fun g m e => by
    split
    · exact hu
    · exact State.goTo_canonical (u.goTo_canonical hu _ _ _) _ _ _

theorem execQbind_canonical (h : s.Canonical) (c : Ctl) (q : QReg) (hd d : SReg) (it : IT) :
    NextCanonical (execQbind c q hd d it s) :=
  issue_nextCanonical h fun u hu => onGroup_canonical hu fun g m x => by
    dsimp only
    split
    · exact hu
    · split
      · exact hu
      · split <;> exact hu

/- ### Scope and convergence -/

theorem signEff_canonical (h : s.Canonical) (c : Ctl) : EffCanonical (signEff c s) := by
  unfold signEff
  split
  · exact h
  · split
    · exact h
    · dsimp only
      split
      · exact h
      · exact State.modGroup_canonical (s.releaseLanes_canonical h _ _ _) _ _

theorem cvwaitEff_canonical (h : s.Canonical) (c : Ctl) (a : Opd) (sel : Fin 10) :
    EffCanonical (cvwaitEff c a sel s) := by
  refine onGroup_canonical h fun g m e => ?_
  dsimp only
  split
  · split <;> exact h
  · split <;> exact h

/- ### Packed arithmetic and sorting -/

theorem topMerge_canonical (h : s.Canonical) (asc : Bool) (d : VReg) (k : Nat) (other : State → Group → Mask → List TopEntry)
    (marks : State → Group → Mask → List LaneFault) (c : Ctl) : EffCanonical (topMerge asc d k other marks c s) := by
  simp only [topMerge]
  split
  · exact s.perLaneVar_canonical h _
  · split
    · exact h
    · split <;> (split <;> exact h)

theorem execArgmx_canonical (h : s.Canonical) (c : Ctl) (ft : FT) (asc : Bool) (d a b : Opd) :
    NextCanonical (execArgmx c ft asc d a b s) :=
  issue_nextCanonical h fun u hu => by
    dsimp only
    split
    · exact hu
    · exact u.everyMember_canonical hu _ _

/- ### Cross-lane instructions -/

theorem execLred_canonical (h : s.Canonical) (c : Ctl) (op : RedOp) (it : IT) (d a : Opd) :
    NextCanonical (execLred c op it d a s) :=
  issue_nextCanonical h fun u hu => by
    dsimp only
    split <;> exact u.everyMember_canonical hu _ _

theorem execLget_canonical (h : s.Canonical) (c : Ctl) (d : SReg) (a l : Opd) : NextCanonical (execLget c d a l s) :=
  issue_nextCanonical h fun u hu => onGroup_canonical hu fun g m e => by simp only [EffCanonical]; split <;> exact hu

theorem execLput_canonical (h : s.Canonical) (c : Ctl) (d a l : Opd) : NextCanonical (execLput c d a l s) :=
  issue_nextCanonical h fun u hu => onGroup_canonical hu fun g m e => by
    split
    · simp only [EffCanonical]; split <;> exact hu
    · exact hu

/- ### The matrix unit -/

theorem State.setMx_canonical (h : s.Canonical) (p : PKey) (m : Mx) : (s.setMx p m).Canonical := s.modPart_canonical h p _

/-- The state in which a matrix instruction enters the queue has its memories in canonical form. -/
def MxIssueCanonical : MxIssue → Prop
  | .enter s _ _ => s.Canonical
  | .fault _ => True

theorem mxEff_canonical {f : State → Group → Mx → MxIssue} (h : s.Canonical)
    (hf : ∀ g m, MxIssueCanonical (f s g m)) : EffCanonical (mxEff f s) := by
  unfold mxEff
  split
  · exact h
  · next g _ =>
    split
    · exact h
    · next m _ =>
      split
      · exact h
      · have h1 := hf g m
        split
        · exact h
        · next s1 op v hx => rw [hx] at h1; exact State.setMx_canonical h1 _ _

theorem mxWait_canonical {f : State → State} (h : s.Canonical) (hf : (f s).Canonical) (busy : List MxEntry → Bool) :
    EffCanonical (mxWait busy f s) := by
  unfold mxWait
  split
  · exact h
  · split
    · exact h
    · split
      · exact h
      · exact hf

theorem State.mxAcquire_canonical (h : s.Canonical) : s.mxAcquire.Canonical :=
  canonical_foldl (fun t k ht => by refine State.modGroup_canonical ?_ _ _; split <;> exact ht) _ h

theorem execMwld_canonical (h : s.Canonical) (c : Ctl) (fmt : TC) (a b : Opd) : NextCanonical (execMwld c fmt a b s) :=
  issue_nextCanonical h fun u hu => mxEff_canonical hu fun g m => by
    dsimp only
    split
    · trivial
    · exact u.modCore_canonical hu _ _

theorem mmaIssue_canonical (h : s.Canonical) (c : Ctl) (ka : AKind) (reuse : Bool) (t : Tile) (i j : BitVec 2) (a b e : Opd)
    (g : Group) (m : Mx) : MxIssueCanonical (mmaIssue c ka reuse t i j a b e s g m) := by
  simp only [mmaIssue]
  split
  · trivial
  · split
    · trivial
    · split
      · split
        · trivial
        · exact h
      · split
        · trivial
        · split
          · trivial
          · exact h

theorem execMrda_canonical (h : s.Canonical) (c : Ctl) (raw : Bool) (t : Tile) (d : Opd) (n : BitVec 6) (row0 col : Opd) :
    NextCanonical (execMrda c raw t d n row0 col s) :=
  issue_nextCanonical h fun _ hu => mxEff_canonical hu fun _ _ => canonical_foldl (fun t _ ht => t.modGroup_canonical ht _ _) _ hu

theorem execMsta_canonical (h : s.Canonical) (c : Ctl) (t : Tile) (a : Opd) (ft : TC) : NextCanonical (execMsta c t a ft s) :=
  issue_nextCanonical h fun u hu => mxEff_canonical hu fun g m => by
    dsimp only
    split
    · trivial
    · exact u.modCore_canonical hu _ _

theorem execMlda_canonical (h : s.Canonical) (c : Ctl) (t : Tile) (a : Opd) : NextCanonical (execMlda c t a s) :=
  issue_nextCanonical h fun u hu => mxEff_canonical hu fun g m => by
    dsimp only
    split
    · trivial
    · exact u.modCore_canonical hu _ _

theorem execMsca_canonical (h : s.Canonical) (c : Ctl) (a : Opd) : NextCanonical (execMsca c a s) :=
  issue_nextCanonical h fun u hu => mxEff_canonical hu fun g m => by
    split
    · exact hu
    · dsimp only
      split
      · trivial
      · exact hu

theorem execWeightLoadComplete_canonical (h : s.Canonical) (p : PKey) : NextCanonical (execWeightLoadComplete p s) := by
  unfold execWeightLoadComplete
  split
  · trivial
  · split
    · split
      · exact State.freeMx_canonical (s.setMx_canonical h p _) p
      · trivial
    · trivial

theorem execBankSwap_canonical (h : s.Canonical) (p : PKey) : NextCanonical (execBankSwap p s) := by
  unfold execBankSwap
  split
  · trivial
  · split
    · split
      · exact State.freeMx_canonical (s.setMx_canonical h p _) p
      · trivial
    · trivial

theorem execMmaPass_canonical (h : s.Canonical) (p : PKey) : NextCanonical (execMmaPass p s) := by
  unfold execMmaPass
  split
  · trivial
  · split
    · split
      · split
        · trivial
        · dsimp only
          split
          · exact s.setMx_canonical h p _
          · exact State.freeMx_canonical (s.setMx_canonical h p _) p
      · trivial
    · trivial

theorem State.spLate_canonical (h : s.Canonical) (k : CKey) (o n : Nat) (b : Bar) : (s.spLate k o n b).Canonical := h

theorem arrayStep_canonical (h : s.Canonical) (p : PKey) (m : Mx) (op : MxOp) : (arrayStep p m s op).1.Canonical := by
  cases op with
  | mrda raw t d cnt row0 col ms token => exact canonical_foldl (fun t _ ht => t.modGroup_canonical ht _ _) _ h
  | msta t off ft =>
    unfold arrayStep
    generalize mstaBytes m (colsOf p.die) t ft = bs
    dsimp only
    split
    · exact State.modCore_canonical (State.spLate_canonical h _ _ _ _) _ _
    · exact h
  | _ => exact h

theorem execArraySequenceStep_canonical (h : s.Canonical) (p : PKey) : NextCanonical (execArraySequenceStep p s) := by
  unfold execArraySequenceStep
  split
  · trivial
  · split
    · split
      · exact canonical_foldl (fun t k ht => t.settle_canonical ht k) _
          (State.freeMx_canonical (State.setMx_canonical (arrayStep_canonical h p _ _) p _) p)
      · trivial
    · trivial

end Sys2Proof.Machine
end

section
/-! SUPPORT. The effects that act lane by lane keep every memory in its canonical form: the shared effect of accesses, then
scratchpad, device memory, in-place operations and near-bank kicks. -/

namespace Sys2Proof.Machine

variable {c : Ctl} {s : State}

/- ### The shared effect -/

theorem LaneRun.add_canonical (r : LaneRun) (k : GKey) (reg : Nat) (lanes : Mask) {x : State × LaneRes} (h : x.1.Canonical) :
    (r.add k reg lanes x).state.Canonical := by
  obtain ⟨t, res⟩ := x
  cases res <;> exact h

theorem laneRun_canonical {f : State → Nat → Mask → State × LaneRes} (hf : ∀ t i m, t.Canonical → (f t i m).1.Canonical)
    (h : s.Canonical) (k : GKey) (reg : Nat) (m : Mask) : (laneRun k reg m f s).state.Canonical := by
  refine List.foldlRecOn (motive := fun r : LaneRun => r.state.Canonical) _ _ h fun r hr i _ => ?_
  split
  · exact r.add_canonical _ _ _ (hf _ _ _ hr)
  · exact hr

theorem scalarRun_canonical {f : State → Nat → Mask → State × LaneRes} (hf : ∀ t i m, t.Canonical → (f t i m).1.Canonical)
    (h : s.Canonical) (k : GKey) (reg : Nat) (m : Mask) : (scalarRun k reg m f s).state.Canonical :=
  LaneRun.add_canonical _ _ _ _ (hf _ _ _ h)

theorem State.writeNow_canonical (h : s.Canonical) (k : GKey) (ws : List Write) : (s.writeNow k ws).Canonical :=
  State.modGroup_canonical (s.performNeed_canonical h k _) _ _

section
variable {f : GKey → State → Nat → Mask → State × LaneRes} (hf : ∀ k t i m, t.Canonical → (f k t i m).1.Canonical)
include hf

theorem accessStep_canonical (pre : List LaneFault) (scalar : Bool) (reg : Nat) (dst : Option (Opd × Nat))
    {acc : State × List GroupRun × List LaneFault} (h : acc.1.Canonical) (y : Group × Mask) :
    (accessStep pre scalar reg dst f acc y).1.Canonical := by
  simp only [accessStep]
  split
  · exact h
  · cases scalar
    · exact laneRun_canonical (hf _) h _ _ _
    · exact scalarRun_canonical (hf _) h _ _ _

theorem accessEffWith_canonical (h : s.Canonical) (pre : List LaneFault) (c : Ctl) (scalar : Bool) (reg : Nat)
    (dst : Option (Opd × Nat)) : EffCanonical (accessEffWith pre c scalar reg dst f s) := by
  have h1 : (accessRun pre c scalar reg dst f s).1.Canonical :=
    canonical_foldl_fst (fun _ y ha => accessStep_canonical hf pre scalar reg dst ha y) _ (a := (s, [], pre)) h
  simp only [accessEffWith]
  split
  · unfold accessDone
    split
    · exact h1
    · exact canonical_foldl (fun _ _ ht => State.putVar_canonical ht _ _ _) _ h1
  · exact canonical_foldl (fun _ _ ht => State.writeNow_canonical ht _ _) _ h1

theorem accessEff_canonical (h : s.Canonical) (c : Ctl) (scalar : Bool) (reg : Nat) (dst : Option (Opd × Nat)) :
    EffCanonical (accessEff c scalar reg dst f s) := accessEffWith_canonical hf h [] c scalar reg dst

end

/- ### The scratchpad and the tag table -/

theorem State.devLoadsFirst_canonical (h : s.Canonical) (k : GKey) (who : Mask) : (s.devLoadsFirst k who).Canonical :=
  s.performNeed_canonical h k _

theorem State.fencesFirst_canonical (h : s.Canonical) (k : GKey) (who : Mask) : (s.fencesFirst k who).Canonical := by
  unfold State.fencesFirst
  split
  · exact h
  · refine canonical_foldl (fun t f ht => ?_) _ h
    split
    · exact State.releaseCopies_canonical (State.orderBefore_canonical (t.passOn_canonical ht _ _ _ _) _ _ _) _ _ _
    · exact ht

theorem State.beforeWrite_canonical (h : s.Canonical) (k : GKey) (who : Mask) : (s.beforeWrite k who).Canonical :=
  State.fencesFirst_canonical (s.performNeed_canonical h k _) k who

theorem State.spNote_canonical (h : s.Canonical) (g : Group) (who : Mask) (o n : Nat) : (s.spNote g who o n).Canonical := by
  unfold State.spNote
  split <;> exact h

theorem State.lateStore_canonical (h : s.Canonical) (k : CKey) (o : Nat) (bs : List Byte) : (s.lateStore k o bs).Canonical := h

theorem spLane_canonical (h : s.Canonical) (z : Nat) (it : IT) (o : Nat) (data : Option Nat) (who : Mask) (g : Group) :
    (spLane z it o data who g s).1.Canonical := by
  simp only [spLane]
  split
  · exact h
  · split
    · exact State.setCore_canonical (s.spNote_canonical h g who o z) _
    · exact State.setCore_canonical (s.lateStore_canonical h g.core o _) _

theorem spEff_canonical (h : s.Canonical) (c : Ctl) (it : IT) (store : Bool) (d a b : Opd) :
    EffCanonical (spEff c it store d a b s) := by
  refine accessEff_canonical (fun k t i m ht => ?_) h _ _ _ _
  dsimp only
  split
  · exact ht
  · refine spLane_canonical ?_ _ _ _ _ _ _
    split
    · exact t.beforeWrite_canonical ht _ _
    · exact t.devLoadsFirst_canonical ht _ _

theorem execTlook_canonical (h : s.Canonical) (c : Ctl) (d key : Opd) : NextCanonical (execTlook c d key s) :=
  issue_nextCanonical h fun u hu => by
    refine accessEff_canonical (fun k t i m ht => ?_) hu _ _ _ _
    dsimp only
    split
    · exact ht
    · exact t.devLoadsFirst_canonical ht _ _

theorem slotEff_canonical (h : s.Canonical) (c : Ctl) (slot : Opd) (others : List Opd)
    (f : State → Group → Nat → Core → Nat → Core) : EffCanonical (slotEff c slot others f s) := by
  refine accessEff_canonical (fun k t i m ht => ?_) h _ _ _ _
  dsimp only
  split
  · exact ht
  · next g _ =>
    have h1 := t.beforeWrite_canonical ht k (s.threads g m)
    split
    · exact h1
    · exact State.setCore_canonical h1 _

/- ### Loads and stores -/

theorem State.touchMap_canonical (h : s.Canonical) (ctx : Nat) (a : Acc) (w : Word) (o : Int) : (s.touchMap ctx a w o).Canonical := by
  unfold State.touchMap
  split
  · exact s.touch_canonical h _ _
  · exact h

theorem State.accFail_canonical (h : s.Canonical) (g : Group) (f : FaultCode) (buf : Nat) (addr off : Int) (die : Nat) :
    (s.accFail g f buf addr off die).1.Canonical := by
  simp only [State.accFail]
  split
  · exact s.post_canonical h _ _ _ _ _
  · split
    · exact h
    · split
      · exact s.touch_canonical h _ _
      · exact h

theorem State.pend_canonical (h : s.Canonical) (k : GKey) (p : Pending) : (s.pend k p).Canonical :=
  State.modGroup_canonical (State.reach_canonical (s.pull_canonical h k _) _ _) _ _

theorem State.before_canonical (h : s.Canonical) (k : GKey) (p : Pending) : (s.before k p).Canonical :=
  State.pull_canonical (s.performNeed_canonical h k _) k _

theorem State.performLoad_canonical (h : s.Canonical) (k : GKey) (who : Mask) (a : Acc) (x : MemOpd) (p0 : Phys) (dst : Opd)
    (lanes : Mask) : (s.performLoad k who a x p0 dst lanes).1.Canonical := by
  simp only [State.performLoad]
  split
  · exact h
  · next g _ =>
    have h1 : ∀ t : Pending → Bool, (if x.ord == .ar then s.orderBefore k x.scp t else s).Canonical := fun t => by
      split
      · exact s.orderBefore_canonical h _ _ _
      · exact h
    split
    · exact State.pend_canonical (h1 _) _ _
    · refine State.keepCopy_canonical ?_ _ _ _ _
      have h2 := fun p => State.reach_canonical (State.before_canonical (h1 fun e => e.of who && e.rel.isSome && !e.isFence) k p)
      split
      · exact State.acquire_canonical (h2 _ _ _) _ _ _
      · exact h2 _ _ _

theorem State.performStoreIssue_canonical (h : s.Canonical) (k : GKey) (who : Mask) (a : Acc) (x : MemOpd) (p : Phys) (data : Nat) :
    (s.performStoreIssue k who a x p data).Canonical := by
  unfold State.performStoreIssue
  split
  · exact h
  · exact s.pend_canonical h _ _

theorem memLane_canonical {t : State} (h : t.Canonical) (a : Acc) (d : Opd) (x : MemOpd) (scalar : Bool) (s0 : State) (k : GKey)
    (i : Nat) (who : Mask) : (memLane a d x scalar s0 k t i who).1.Canonical := by
  unfold memLane
  split
  · exact h
  · dsimp only
    split
    · exact State.accFail_canonical (t.touchMap_canonical h _ _ _ _) _ _ _ _ _ _
    · exact h
    · split
      · exact State.performStoreIssue_canonical (t.touchMap_canonical h _ _ _ _) _ _ _ _ _ _
      · exact State.performLoad_canonical (t.touchMap_canonical h _ _ _ _) _ _ _ _ _ _ _

theorem memEff_canonical (h : s.Canonical) (c : Ctl) (a : Acc) (d : Opd) (x : MemOpd) : EffCanonical (memEff c a d x s) := by
  simp only [memEff]
  split
  · exact s.modGroups_canonical h _
  · split
    · exact h
    · exact accessEff_canonical (fun k t i m ht => memLane_canonical ht _ _ _ _ _ _ _ _) (s.modGroups_canonical h _) _ _ _ _

/- ### Prefetches, fences, and what reads or writes an entry -/

theorem State.takeCopy_canonical (h : s.Canonical) (die line ctx : Nat) : (s.takeCopy die line ctx).Canonical :=
  h.of_mems (by simp) (by simp) (by simp)

theorem State.prefetch_canonical (h : s.Canonical) (die ctx : Nat) (p : Phys) : (s.prefetch die ctx p).Canonical := by
  simp only [State.prefetch]
  split
  · exact h
  · exact State.takeCopy_canonical (s.pullIf_canonical h _) _ _ _

theorem prefLane_canonical {t : State} (h : t.Canonical) (w b : Opd) (off : BitVec 7) (scalar : Bool) (s0 : State) (k : GKey)
    (i : Nat) : (prefLane w b off scalar s0 k t i).1.Canonical := by
  unfold prefLane
  split
  · exact h
  · dsimp only
    split
    · split
      · exact t.reach_canonical h _ _
      · exact State.prefetch_canonical (t.reach_canonical h _ _) _ _ _
    · exact t.meetLost_canonical h _ _
    · exact h

theorem execPref_canonical (h : s.Canonical) (c : Ctl) (w b : Opd) (off : BitVec 7) : NextCanonical (execPref c w b off s) :=
  issue_nextCanonical h fun _ hu => accessEff_canonical (fun _ _ _ _ ht => prefLane_canonical ht _ _ _ _ _ _ _) hu _ _ _ _

theorem State.fence_canonical (h : s.Canonical) (g : Group) (who : Mask) (ord : Ordr) (scp : Scp) :
    (s.fence g who ord scp).Canonical := by
  unfold State.fence
  extract_lets acq mark s1 s2 s3
  have h1 : s1.Canonical := by
    simp only [s1]
    split
    · exact s.performNeed_canonical h _ _
    · exact h
  have h2 : s2.Canonical := by
    cases ord with
    | rel => exact State.releaseCopies_canonical (s1.passOn_canonical h1 _ _ _ _) _ _ _
    | ar => exact s1.releaseLanes_canonical h1 _ _ _
    | _ => exact h1
  have h3 : s3.Canonical := by
    simp only [s3]
    split
    · exact s2.modGroup_canonical h2 _ _
    · exact h2
  cases ord with
  | rel => exact h3
  | _ => exact State.modGroup_canonical (s3.acquire_canonical h3 _ _ _) _ _

theorem fenceEff_canonical (h : s.Canonical) (c : Ctl) (ord : Ordr) (scp : Scp) : EffCanonical (fenceEff c ord scp s) := by
  unfold fenceEff
  split
  · exact h
  · refine canonical_foldl (fun t x ht => State.modGroup_canonical ?_ _ _) _ h
    split
    · exact ht
    · exact t.fence_canonical ht _ _ _ _

theorem entryEff_canonical (h : s.Canonical) (c : Ctl) (d : Opd) (w : SReg) (words : Entry → List Word) :
    EffCanonical (entryEff c d w words s) := by
  simp only [entryEff]
  split
  · exact h
  · exact s.perLaneVar_canonical h _

theorem rowmapLane_canonical {t : State} (h : t.Canonical) (ind : Bool) (w : SReg) (row val : Opd) (scalar : Bool) (s0 : State)
    (k : GKey) (i : Nat) (who : Mask) : (rowmapLane ind w row val scalar s0 k t i who).1.Canonical := by
  unfold rowmapLane
  split
  · exact h
  · next g _ =>
    extract_lets hd e b v bad p dies s1
    have h1 : s1.Canonical := canonical_foldl (fun u x hu => u.touch_canonical hu g.ctx x) _ h
    split
    · exact h
    · split
      · exact h
      · split
        · exact h
        · split
          · exact h
          · split
            · exact h1
            · exact State.putBytes_canonical (State.beforeWrite_canonical h1 _ _) _ _ _

theorem execRowmap_canonical (h : s.Canonical) (c : Ctl) (ind : Bool) (w : SReg) (row val : Opd) :
    NextCanonical (execRowmap c ind w row val s) :=
  issue_nextCanonical h fun _ hu => accessEff_canonical (fun _ _ _ _ ht => rowmapLane_canonical ht _ _ _ _ _ _ _ _ _) hu _ _ _ _

/- ### Restripe and the in-place operations -/

theorem State.startTag_canonical (h : s.Canonical) (k : CKey) (t : Tag) : (s.startTag k t).Canonical := by
  have h1 := State.pull_canonical (s.performNeed_canonical h t.key Pending.reads) t.key (fun _ => true)
  unfold State.startTag
  extract_lets hold s0 s1
  refine State.modCore_canonical ?_ _ _
  simp only [s1]
  split
  · exact State.modCtx_canonical h1 _ _
  · exact h1

theorem State.restripe_canonical (h : s.Canonical) (g : Group) (w : Word) (gathered : Bool) (tag pace : Nat) :
    (s.restripe g w gathered tag pace).Canonical := by
  simp only [State.restripe]
  split
  · exact s.startTag_canonical h _ _
  · have h1 : ∀ e, (s.setEntry (hIndex w) e).Canonical := fun e => h.of_mems (by simp) (by simp) (by simp)
    split <;> exact State.startTag_canonical (h1 _) _ _

theorem execFault_canonical (h : s.Canonical) (m : Member) (e : Mask) (f : FaultCode) (reg : Nat) (a : BitVec 64) :
    EffCanonical (execFault s m e f reg a) := h

theorem execRestripe_canonical (h : s.Canonical) (c : Ctl) (gathered : Bool) (w : SReg) (tag : BitVec 6) (pace : Opd) :
    NextCanonical (execRestripe c gathered w tag pace s) :=
  issue_nextCanonical h fun u hu => onGroup_canonical hu fun g m e => by
    dsimp only
    split
    · exact hu
    · split
      · exact hu
      · exact u.restripe_canonical hu _ _ _ _ _

theorem execLineMoveStart_canonical (h : s.Canonical) (buf : Nat) : NextCanonical (execLineMoveStart buf s) := by
  simp only [execLineMoveStart]
  split
  · trivial
  · split
    · exact s.meetLost_canonical h _ _
    · exact canonical_foldl (fun t d ht => t.touch_canonical ht (s.entry buf).owner d) (s.moveHomes buf) h

theorem execLineMoveCommit_canonical (h : s.Canonical) (buf : Nat) : NextCanonical (execLineMoveCommit buf s) := by
  unfold execLineMoveCommit
  split
  · trivial
  · exact s.commitLine_canonical h buf

theorem State.ipAccept_canonical (h : s.Canonical) (k : GKey) (who : Mask) (g : Group) (w : Word) (f : IpFn) (dst a b : Nat) :
    (s.ipAccept k who g w f dst a b).Canonical :=
  State.modGroup_canonical (canonical_foldl (fun t _ ht =>
    State.reach_canonical (State.pull_canonical (t.performNeed_canonical ht _ _) _ _) _ _) _ h) _ _

theorem ipLane_canonical {t : State} (h : t.Canonical) (f : IpFn) (w : SReg) (dst a b : Opd) (s0 : State) (k : GKey) (i : Nat)
    (who : Mask) : (ipLane f w dst a b s0 k t i who).1.Canonical := by
  simp only [ipLane]
  split
  · exact h
  · split
    · exact t.accFail_canonical h _ _ _ _ _ _
    · exact t.ipAccept_canonical h _ _ _ _ _ _ _ _

theorem State.performIps_canonical (h : s.Canonical) : s.performIps.Canonical :=
  canonical_foldl (fun t _ ht => t.performNeed_canonical ht _ _) _ h

theorem ipEff_canonical (h : s.Canonical) (c : Ctl) (f : IpFn) (w : SReg) (dst a b : Opd) :
    EffCanonical (ipEff c f w dst a b s) := by
  have h1 := accessEff_canonical (fun k t i m ht => ipLane_canonical ht f w dst a b s k i m) h c false (0x100 + w.toNat) none
  simp only [ipEff]
  split
  · next hx =>
    rw [hx] at h1
    split <;> exact h1
  · next s1 _ hx =>
    rw [hx] at h1
    exact State.modGroups_canonical (s1.performIps_canonical h1) _
  · exact h1

/- ### Near-bank kicks -/

theorem execNbkick_canonical (h : s.Canonical) (c : Ctl) (w : SReg) (slot : Opd) (args : SReg) (tag : BitVec 6) :
    NextCanonical (execNbkick c w slot args tag s) :=
  issue_nextCanonical h fun u hu => onGroup_canonical hu fun g m e => by
    dsimp only
    split
    · exact hu
    · split
      · exact u.post_canonical hu _ _ _ _ _
      · exact hu
      · exact State.modCore_canonical (u.startTag_canonical hu _ _) _ _

theorem State.opBefore_canonical (h : s.Canonical) (t : Tag) (p : Phys) (n : Nat) : (s.opBefore t p n).Canonical :=
  s.performNeed_canonical h _ _

theorem State.opWrite_canonical (h : s.Canonical) (k : CKey) (t : Tag) (a : Nat) (bs : List Byte) :
    (s.opWrite k t a bs).Canonical :=
  (s.homeWrite_canonical h a bs).of_mems (by simp [State.opWrite]) (by simp [State.opWrite]) (by simp [State.opWrite])

theorem State.setPoison_canonical (h : s.Canonical) (a : Nat) : (s.setPoison a).Canonical := h

theorem State.kickBegin_canonical (h : s.Canonical) (t : Tag) (w : Word) (map : Nat) (args : List Word) (k : Nat) :
    (s.kickBegin t w map args k).Canonical := canonical_foldl (fun u _ hu => u.reach_canonical hu _ _) _ h

theorem State.kickWord_canonical (h : s.Canonical) (k : CKey) (t : Tag) (w : Word) (map : Nat) (img : BitVec 64) (args : List Word)
    (r : KickRun) : (s.kickWord k t w map img args r).1.Canonical := by
  simp only [State.kickWord]
  split
  · split
    · exact h
    · exact s.opBefore_canonical h _ _ _
  · split
    · exact h
    · split
      · exact State.opWrite_canonical (s.opBefore_canonical h _ _ _) _ _ _ _
      · exact s.opBefore_canonical h _ _ _

theorem State.kickStep_canonical (h : s.Canonical) (k : CKey) (t : Tag) (w : Word) (map slot : Nat) (img : BitVec 64)
    (args : List Word) (todo : List Nat) (runs : List KickRun) (done : Nat) :
    (s.kickStep k t w map slot img args todo runs done).1.Canonical := by
  simp only [State.kickStep]
  split
  · exact h
  · split
    · exact s.kickBegin_canonical h _ _ _ _ _
    · exact s.kickWord_canonical h _ _ _ _ _ _ _

theorem State.addStop_canonical (h : s.Canonical) (n : Nat) (r : StopRec) : (s.addStop n r).Canonical := h

theorem State.kickStopped_canonical (h : s.Canonical) (t : Tag) (w : Word) (steps status : Nat) :
    (s.kickStopped t w steps status).Canonical := by
  unfold State.kickStopped
  split
  · exact s.addStop_canonical h _ _
  · exact h

theorem execKickStep_canonical (h : s.Canonical) (k : CKey) (tag : Nat) : NextCanonical (execKickStep k tag s) := by
  unfold execKickStep
  split
  · trivial
  · split
    · split
      · exact State.kickStopped_canonical (State.modCore_canonical (s.meetLost_canonical h _ _) _ _) _ _ _ _
      · have h1 := fun t w map slot img args todo runs done => s.kickStep_canonical h k t w map slot img args todo runs done
        have h2 : ∀ (j : Option Nat) (u : State) (f : Nat → Core → Core), u.Canonical →
            (match j with | some j => u.modCore k (f j) | none => u).Canonical := fun j u f hu => by
          cases j
          · exact hu
          · exact u.modCore_canonical hu _ _
        dsimp only
        split
        · exact State.kickStopped_canonical (State.modCore_canonical (h2 _ _ _ (h1 _ _ _ _ _ _ _ _ _)) _ _) _ _ _ _
        · exact State.modCore_canonical (h2 _ _ _ (h1 _ _ _ _ _ _ _ _ _)) _ _
    · trivial

theorem execNbstat_canonical (h : s.Canonical) (c : Ctl) (d : Opd) (tag : BitVec 6) : NextCanonical (execNbstat c d tag s) :=
  issue_nextCanonical h fun u hu => u.perLaneVar_canonical hu _

end Sys2Proof.Machine
end

section
/-! SUPPORT. Copies, completion tags, the lodge of a sync engine, atomics and cross-lane instructions keep every memory in its
canonical form. -/

namespace Sys2Proof.Machine

variable {c : Ctl} {s : State}

/- ### Tags -/

theorem tagEff_canonical (h : s.Canonical) {f : Group → Member → Mask → Core → BitVec 64 → Eff}
    (hf : ∀ g m x k b, EffCanonical (f g m x k b)) (c : Ctl) (mask : Opd) : EffCanonical (tagEff c mask s f) := by
  refine onGroup_canonical h fun g m e => ?_
  dsimp only
  split
  · exact h
  · split
    · exact h
    · exact hf _ _ _ _ _

theorem State.tagsSeen_canonical (h : s.Canonical) (g : Group) (scp : Scp) (r : BitVec 64) : (s.tagsSeen g scp r).Canonical := h

theorem waitEff_canonical (h : s.Canonical) (c : Ctl) (d : SReg) (mask : Opd) (scp : Scp) (enough : BitVec 64 → BitVec 64 → Bool) :
    EffCanonical (waitEff c d mask scp enough s) := by
  unfold waitEff
  split
  · exact s.perLaneVar_canonical h _
  · refine tagEff_canonical h (fun g m x k b => ?_) c mask
    dsimp only
    split
    · exact h
    · exact State.putVar_canonical (State.tagsSeen_canonical (s.acquire_canonical h _ _ _) _ _ _) _ _ _

theorem execFfrdy_canonical (h : s.Canonical) (c : Ctl) (d : SReg) (mask : Opd) : NextCanonical (execFfrdy c d mask s) :=
  issue_nextCanonical h fun u hu => tagEff_canonical hu (fun g m x k b => by exact u.putFixed_canonical hu _ _ _) c mask

theorem execTagclr_canonical (h : s.Canonical) (c : Ctl) (mask : Opd) : NextCanonical (execTagclr c mask s) :=
  issue_nextCanonical h fun u hu => tagEff_canonical hu (fun g m x k b => by
    split
    · exact hu
    · exact u.modCore_canonical hu _ _) c mask

/- ### The start of an operation -/

theorem State.claimRows_canonical (h : s.Canonical) (g : Group) (x : Rows) : (s.claimRows g x).Canonical := s.modCore_canonical h _ _

theorem opFault_canonical (h : s.Canonical) (g : Group) (m : Member) (x : Mask) (f : OpFault) : EffCanonical (opFault s g m x f) := by
  refine execFault_canonical ?_ _ _ _ _ _
  split
  · exact s.post_canonical h _ _ _ _ _
  · exact h

theorem State.startOp_canonical (h : s.Canonical) (g : Group) (n : Nat) (kind : TagKind) (op : TagOp) (atOnce : Bool) :
    (s.startOp g n kind op atOnce).Canonical := s.startTag_canonical h _ _

theorem copyEff_canonical (h : s.Canonical) (c : Ctl) (tag : BitVec 6) (a : SReg) (shadow : Bool) :
    EffCanonical (copyEff c tag a shadow s) := by
  refine onGroup_canonical h fun g m e => ?_
  extract_lets ar dstH srcH op s1
  have h1 : s1.Canonical := by
    simp only [s1]
    split
    · exact s.claimRows_canonical h _ _
    · split
      · exact s.claimRows_canonical h _ _
      · exact h
  split
  · exact h
  · split
    · exact opFault_canonical h _ _ _ _
    · exact s1.startOp_canonical h1 _ _ _ _ _

theorem execBlkcpy_canonical (h : s.Canonical) (c : Ctl) (tag : BitVec 6) (w : SReg) (idx : VReg) (a : SReg) :
    NextCanonical (execBlkcpy c tag w idx a s) :=
  issue_nextCanonical h fun u hu => onGroup_canonical hu fun g m e => by
    extract_lets hd e ar size is off want map dies blocks skipped s1
    have h1 : s1.Canonical :=
      State.claimRows_canonical (canonical_foldl (fun t d ht => t.touch_canonical ht g.ctx d) _ hu) _ _
    split
    · exact hu
    · split
      · exact opFault_canonical hu _ _ _ _
      · split
        · exact opFault_canonical hu _ _ _ _
        · exact s1.startTag_canonical h1 _ _

theorem execShadow_canonical (h : s.Canonical) (c : Ctl) (tag : BitVec 6) (w : SReg) (first count : Opd) :
    NextCanonical (execShadow c tag w first count s) :=
  issue_nextCanonical h fun u hu => onGroup_canonical hu fun g m e => by
    dsimp only
    split
    · exact hu
    · split
      · exact opFault_canonical hu _ _ _ _
      · exact u.startOp_canonical hu _ _ _ _ _

theorem execPublish_canonical (h : s.Canonical) (c : Ctl) (w : SReg) : NextCanonical (execPublish c w s) :=
  issue_nextCanonical h fun u hu => onGroup_canonical hu fun g m e => by
    dsimp only
    split
    · exact hu
    · split
      · exact hu
      · exact hu
      · split <;> exact hu

theorem State.setEntry_canonical (h : s.Canonical) (i : Nat) (e : Entry) : (s.setEntry i e).Canonical :=
  h.of_mems (by simp) (by simp) (by simp)

theorem State.exchange_canonical (h : s.Canonical) (buf : Nat) : (s.exchange buf).Canonical := by
  simp only [State.exchange]
  split
  · exact s.setEntry_canonical h _ _
  · exact State.putBytes_canonical (State.setEntry_canonical
      (canonical_foldl (fun t d ht => t.touch_canonical ht (s.entry buf).owner d) _ h) _ _) _ _ _

theorem execPublishExchange_canonical (h : s.Canonical) (k : GKey) : NextCanonical (execPublishExchange k s) := by
  unfold execPublishExchange
  split
  · trivial
  · split
    · split
      · trivial
      · split
        · exact s.meetLost_canonical h _ _
        · extract_lets s1 fs s2
          have h2 : s2.Canonical := s.releaseLanes_canonical h k allLanes .system
          exact State.modGroup_canonical (s2.exchange_canonical h2 _) _ _
    · trivial

/- ### Segments of a copy -/

theorem State.runReach_canonical (h : s.Canonical) (t : Tag) (x : Side) (o n : Nat) : (s.runReach t x o n).Canonical :=
  canonical_foldl (fun u _ hu => u.reach_canonical hu _ _) _ (canonical_foldl (fun u _ hu => u.opBefore_canonical hu _ _ _) _ h)

theorem State.barCopy_canonical (h : s.Canonical) (die line : Nat) (b : Bar) : (s.barCopy die line b).Canonical := h

theorem State.setDirty_canonical (h : s.Canonical) (l : List Dirty) : ({ s with dirty := l } : State).Canonical := h

theorem State.runWrite_canonical (h : s.Canonical) (k : CKey) (t : Tag) (x : Side) (o : Nat) (d : HeldSeg) :
    (s.runWrite k t x o d).Canonical := by
  unfold State.runWrite
  extract_lets a s1
  refine canonical_foldl (fun u _ hu => u.setPoison_canonical hu _) _ ?_
  refine canonical_foldl (fun u p hu => ?_) _ h
  refine canonical_foldl (fun v _ hv => v.barCopy_canonical hv _ _ _) _ (State.setDirty_canonical ?_ _)
  exact u.putBytes_canonical hu .dev _ _

theorem State.segRead_canonical (h : s.Canonical) (k : CKey) (t : Tag) (n : Nat) : (s.segRead k t n).1.Canonical := by
  unfold State.segRead
  split
  · dsimp only
    split
    · exact h
    · split
      · exact h
      · exact h
      · exact s.runReach_canonical h _ _ _ _
  · dsimp only
    split
    · exact h
    · exact h
    · exact canonical_foldl (fun u _ hu => u.reach_canonical hu _ _) _
        (canonical_foldl (fun u _ hu => u.opBefore_canonical hu _ _ _) _ h)
  · exact h

theorem State.spSeg_canonical (h : s.Canonical) (k : CKey) (t : Tag) (o : Nat) (bs : List Byte) (pois : List Nat) :
    (s.spSeg k t o bs pois).Canonical := by
  unfold State.spSeg
  split
  · exact State.modCore_canonical (s.spLate_canonical h _ _ _ _) _ _
  · exact h

theorem State.segWrite_canonical (h : s.Canonical) (k : CKey) (t : Tag) (n : Nat) (x : HeldSeg) :
    (s.segWrite k t n x).1.Canonical := by
  unfold State.segWrite
  split
  · dsimp only
    split
    · exact s.spSeg_canonical h _ _ _ _ _
    · split
      · exact h
      · exact h
      · exact State.runWrite_canonical (s.runReach_canonical h _ _ _ _) _ _ _ _ _
  · exact canonical_foldl (fun u _ hu => u.spSeg_canonical hu _ _ _ _ _) _ h
  · exact h

theorem State.secondary_canonical (h : s.Canonical) (n : Nat) (r : FaultRec) (cut : Option (CKey × Nat)) :
    (s.secondary n r cut).Canonical := h

theorem State.meetLostAt_canonical (h : s.Canonical) (n die : Nat) (cut : Option (CKey × Nat)) :
    (s.meetLostAt n die cut).Canonical := by
  simp only [State.meetLostAt]
  split
  · exact h
  · exact State.haltCtx_canonical (s.touch_canonical h _ _) _ _ _

theorem State.segStop_canonical (h : s.Canonical) (k : CKey) (t : Tag) (r : SegRead) : (s.segStop k t r).Canonical := by
  cases r with
  | ok x => exact h
  | lost d => exact State.modCore_canonical (s.meetLostAt_canonical h _ _ _) _ _
  | missing buf off =>
    have h1 := s.post_canonical h 4 k.die t.ctx (BitVec.ofNat 32 buf) (BitVec.ofNat 64 off)
    simp only [State.segStop]
    split
    · exact State.modCore_canonical (State.secondary_canonical h1 _ _ _) _ _
    · exact State.modCore_canonical h1 _ _

theorem State.segFinish_canonical (h : s.Canonical) (k : CKey) (t : Tag) (n : Nat) (x : HeldSeg) :
    (s.segFinish k t n x).Canonical := by
  have h1 := s.segWrite_canonical h k t n x
  unfold State.segFinish
  split
  · next s1 r hx => rw [hx] at h1; exact s1.segStop_canonical h1 _ _ _
  · next s1 hx =>
    rw [hx] at h1
    dsimp only
    split <;> exact s1.modCore_canonical h1 _ _

theorem State.drained_canonical (h : s.Canonical) (k : CKey) (t : Tag) : (s.drained k t).Canonical := by
  unfold State.drained
  split
  · exact h
  · split
    · split
      · exact h
      · exact s.addStop_canonical h _ _
    · exact h

theorem execCopySegment_canonical (h : s.Canonical) (k : CKey) (tag : Nat) : NextCanonical (execCopySegment k tag s) := by
  unfold execCopySegment
  split
  · trivial
  · next t _ =>
    split
    · exact State.drained_canonical (s.segFinish_canonical h _ _ _ _) _ _
    · have h1 := s.segRead_canonical h k t (s.portion t)
      dsimp only
      split
      · next s1 x hx =>
        rw [hx] at h1
        split
        · exact s1.modCore_canonical h1 _ _
        · exact State.drained_canonical (s1.segFinish_canonical h1 _ _ _ _) _ _
      · next s1 r _ hx =>
        rw [hx] at h1
        exact State.drained_canonical (s1.segStop_canonical h1 _ _ _) _ _

theorem execSegholdRelease_canonical (h : s.Canonical) (ctx tag : Nat) : NextCanonical (execSegholdRelease ctx tag s) := by
  unfold execSegholdRelease
  split
  · exact h
  · trivial

/- ### The lodge of a sync engine -/

theorem State.lodgeRoom_canonical (n : Nat) (h : s.Canonical) (die need : Nat) {t : State} (ht : s.lodgeRoom die need n = some t) :
    t.Canonical := by
  induction n generalizing s with
  | zero =>
    simp only [State.lodgeRoom] at ht
    split at ht
    · cases ht; exact h
    · cases ht
  | succ n ih =>
    simp only [State.lodgeRoom] at ht
    split at ht
    · cases ht; exact h
    · split at ht
      · exact ih (by exact h) ht
      · cases ht

theorem State.reserve_canonical (h : s.Canonical) (die ctx : Nat) (key : ObjKey) {t : State} (ht : s.reserve die ctx key = some t) :
    t.Canonical := by
  unfold State.reserve at ht
  split at ht
  · cases ht; exact h.of_mems (by simp) (by simp) (by simp)
  · split at ht
    · next s1 hx => have h1 := s.lodgeRoom_canonical _ h _ _ hx; cases ht; exact h1
    · dsimp only at ht
      split at ht
      · cases ht; exact h
      · cases ht

theorem State.noteFull_canonical (h : s.Canonical) (die ctx : Nat) : (s.noteFull die ctx).Canonical := by
  unfold State.noteFull
  split
  · exact h
  · split
    · exact h
    · exact State.post_canonical (s.modCtx_canonical h _ _) _ _ _ _ _

theorem State.reserveAll_canonical (l : List (Nat × Nat × ObjKey)) (h : s.Canonical) {t : State} (ht : s.reserveAll l = .ok t) :
    t.Canonical := by
  induction l generalizing s with
  | nil => cases ht; exact h
  | cons x l ih =>
    obtain ⟨die, ctx, key⟩ := x
    unfold State.reserveAll at ht
    split at ht
    · next s1 hx => exact ih (State.modCtx_canonical (s.reserve_canonical h _ _ _ hx) _ _) ht
    · cases ht

/- ### Atomics -/

theorem atomLane_canonical {t : State} (h : t.Canonical) (op : AtomOp) (d : Opd) (x : MemOpd) (scalar : Bool) (s0 : State) (k : GKey)
    (i : Nat) (who : Mask) : (atomLane op d x scalar s0 k t i who).1.Canonical := by
  unfold atomLane
  split
  · exact h
  · dsimp only
    split
    · exact t.accFail_canonical h _ _ _ _ _ _
    · exact t.pend_canonical h _ _

theorem atomEff_canonical (h : s.Canonical) (c : Ctl) (op : AtomOp) (d : Opd) (x : MemOpd) : EffCanonical (atomEff c op d x s) := by
  unfold atomEff
  extract_lets scalar mf ps
  split
  · exact h
  · split
    · exact s.noteFull_canonical h _ _
    · next s1 hx =>
      exact accessEffWith_canonical (fun _ _ _ _ ht => atomLane_canonical ht _ _ _ _ _ _ _ _) (s.reserveAll_canonical _ h hx) _ _ _ _ _

/- ### Cross-lane instructions -/

theorem shuffleEff_canonical (h : s.Canonical) (c : Ctl) (d a : Opd) (pick : State → Nat → Group → Nat → Int) :
    EffCanonical (shuffleEff c d a pick s) := s.everyMember_canonical h _ _

theorem execLscan_canonical (h : s.Canonical) (c : Ctl) (op : RedOp) (it : IT) (excl : Bool) (d a : Opd) :
    NextCanonical (execLscan c op it excl d a s) := issue_nextCanonical h fun u hu => u.everyMember_canonical hu _ _

theorem execLbal_canonical (h : s.Canonical) (c : Ctl) (d a : Opd) : NextCanonical (execLbal c d a s) :=
  issue_nextCanonical h fun u hu => u.everyMember_canonical hu _ _

theorem execLvote_canonical (h : s.Canonical) (c : Ctl) (op : VoteOp) (d a : Opd) : NextCanonical (execLvote c op d a s) :=
  issue_nextCanonical h fun u hu => u.everyMember_canonical hu _ _

end Sys2Proof.Machine
end

section
/-! SUPPORT. Barriers, mailboxes, versioned cells, and the system instructions keep every memory in its canonical form. -/

namespace Sys2Proof.Machine

variable {c : Ctl} {s : State}

/- ### Barrier objects -/

theorem State.barFirst_canonical (h : s.Canonical) (k : GKey) (p : Phys) : (s.barFirst k p).Canonical :=
  State.pull_canonical (s.performNeed_canonical h k _) k _

theorem State.barWait_canonical (h : s.Canonical) (g : Group) (a : Arrival) {t : State} (ht : s.barWait g a = some t) :
    t.Canonical := by
  unfold State.barWait at ht
  split at ht
  · cases ht
  · cases ht; exact State.modGroup_canonical (s.acquire_canonical h _ _ _) _ _

theorem State.barArrive_canonical (h : s.Canonical) (g : Group) (p : Phys) (buf off view : Nat) :
    (s.barArrive g p buf off view).Canonical :=
  State.modGroup_canonical (State.homeWrite_canonical (s.reach_canonical h _ _) _ _) _ _

theorem barrGo_canonical (h : s.Canonical) (g : Group) (x : Mask) (p : Phys) (buf off view : Nat) :
    EffCanonical (barrGo s g x p buf off view) := by
  unfold barrGo
  split
  · exact h
  · split
    · exact s.noteFull_canonical h _ _
    · next s1 hx =>
      exact State.barArrive_canonical (State.modCtx_canonical
        (State.releaseLanes_canonical (s.reserve_canonical h _ _ _ hx) _ _ _) _ _) _ _ _ _ _

theorem barEff_canonical (h : s.Canonical) (c : Ctl) (w : SReg) (off : Opd)
    {f : State → Group → Mask → Phys → Nat → Nat → Nat → Eff} (hf : ∀ t g x p b o v, t.Canonical → EffCanonical (f t g x p b o v)) :
    EffCanonical (barEff c w off s f) := by
  refine onGroup_canonical h fun g m x => ?_
  dsimp only
  split
  · exact h
  · split
    · exact hf _ _ _ _ _ _ _ (s.barFirst_canonical h _ _)
    · split
      · exact h
      · refine execFault_canonical ?_ _ _ _ _ _
        split
        · exact s.post_canonical h _ _ _ _ _
        · split
          · exact s.touch_canonical h _ _
          · exact h

/-- The wait on a record as an opaque function, which no comparison of effects then computes. -/
theorem State.exists_barWait (h : s.Canonical) (g : Group) :
    ∃ wait, s.barWait g = wait ∧ ∀ a t, wait a = some t → t.Canonical := ⟨_, rfl, fun _ _ ht => s.barWait_canonical h g _ ht⟩

theorem execBarr_canonical (h : s.Canonical) (c : Ctl) (w : SReg) (off : Opd) : NextCanonical (execBarr c w off s) :=
  issue_nextCanonical h fun u hu => barEff_canonical hu c w off fun t g x p b o v ht => by
    obtain ⟨wait, hwait, hw⟩ := t.exists_barWait ht g
    rw [hwait]
    split
    · exact barrGo_canonical ht _ _ _ _ _ _
    · split
      · exact ht
      · next s1 hx => exact barrGo_canonical (hw _ _ hx) _ _ _ _ _ _

theorem State.useObj_canonical (h : s.Canonical) (die : Nat) (key : ObjKey) : (s.useObj die key).Canonical :=
  h.of_mems (by simp) (by simp) (by simp)

theorem execBarw_canonical (h : s.Canonical) (c : Ctl) (w : SReg) (off : Opd) : NextCanonical (execBarw c w off s) :=
  issue_nextCanonical h fun u hu => barEff_canonical hu c w off fun t g x p b o v ht => by
    have h1 := t.touch_canonical ht g.ctx p.die
    have h2 := State.useObj_canonical h1 p.die (.sync b (o / 16))
    obtain ⟨wait, hwait, hw⟩ := State.exists_barWait h2 g
    dsimp only
    rw [hwait]
    split
    · exact h1
    · split
      · exact h2
      · next s1 hx => exact hw _ _ hx

/- ### Mailboxes -/

theorem State.putOwn_canonical (h : s.Canonical) (a : Nat) (bs : List Byte) : (s.putOwn a bs).Canonical :=
  ⟨Memory.store_wf _ _ h.1, h.2⟩

theorem State.setMailbox_canonical (h : s.Canonical) (ctx : Nat) (m : Mailbox) : (s.setMailbox ctx m).Canonical := by
  unfold State.setMailbox
  split
  · exact h
  · exact State.putOwn_canonical (s.modCtx_canonical h _ _) _ _

theorem mbEff_canonical (h : s.Canonical) (c : Ctl) (q : Opd) {f : Group → Mask → Ctx → Nat → Nat → Eff}
    (hf : ∀ g x k n e, EffCanonical (f g x k n e)) : EffCanonical (mbEff c q s f) := by
  refine onGroup_canonical h fun g m x => ?_
  dsimp only
  split
  · exact h
  · split
    · exact h
    · split
      · exact h
      · split
        · exact h
        · exact hf _ _ _ _ _

theorem execMbput_canonical (h : s.Canonical) (c : Ctl) (q : Opd) (a : SReg) : NextCanonical (execMbput c q a s) :=
  issue_nextCanonical h fun u hu => mbEff_canonical hu c q fun g x k n e => by
    dsimp only
    split
    · exact u.touch_canonical hu _ _
    · split
      · exact u.noteFull_canonical hu _ _
      · next s1 hx =>
        exact State.setMailbox_canonical (State.touch_canonical (State.modCtx_canonical
          (State.releaseLanes_canonical (u.reserve_canonical hu _ _ _ hx) _ _ _) _ _) _ _) _ _

theorem State.mbReturn_canonical (h : s.Canonical) (g : Group) (mb : Mailbox) (i home : Nat) (ws : List Write) :
    (s.mbReturn g mb i home ws).Canonical :=
  State.putVar_canonical (State.acquire_canonical (State.setMailbox_canonical (s.touch_canonical h _ _) _ _) _ _ _) _ _ _

theorem execMbget_canonical (h : s.Canonical) (c : Ctl) (d : SReg) (q : Opd) : NextCanonical (execMbget c d q s) :=
  issue_nextCanonical h fun u hu => by
    dsimp only
    split
    · exact u.perLaneVar_canonical hu _
    · refine mbEff_canonical hu c q fun g x k n e => ?_
      have h1 := u.useObj_canonical hu (mbHome e) (.mailbox g.ctx n)
      split
      · exact State.mbReturn_canonical h1 _ _ _ _ _
      · exact State.setMailbox_canonical (State.touch_canonical h1 _ _) _ _

theorem execMbtry_canonical (h : s.Canonical) (c : Ctl) (d : SReg) (q : Opd) : NextCanonical (execMbtry c d q s) :=
  issue_nextCanonical h fun u hu => by
    dsimp only
    split
    · exact u.perLaneVar_canonical hu _
    · refine mbEff_canonical hu c q fun g x k n e => ?_
      have h1 := u.useObj_canonical hu (mbHome e) (.mailbox g.ctx n)
      split
      · exact State.mbReturn_canonical h1 _ _ _ _ _
      · exact State.putVar_canonical (State.touch_canonical h1 _ _) _ _ _

theorem State.refusePost_canonical (h : s.Canonical) (k : Ctx) (q : Nat) : (s.refusePost k q).Canonical :=
  State.post_canonical (s.putOwn_canonical h _ _) _ _ _ _ _

theorem State.postTo_canonical (h : s.Canonical) (k : Ctx) (q : Nat) (msg : List Word) (again : Instr) :
    (s.postTo k q msg again).Canonical := by
  simp only [State.postTo]
  split
  · exact s.refusePost_canonical h k q
  · split
    · split
      · exact h
      · exact s.noteFull_canonical h _ _
    · next s1 hx => exact State.setMailbox_canonical (State.modCtx_canonical (s.reserve_canonical h _ _ _ hx) _ _) _ _

theorem execHostPost_canonical (h : s.Canonical) (off : Nat) (bytes : List Byte) : NextCanonical (execHostPost off bytes s) := by
  simp only [execHostPost]
  split
  · exact s.post_canonical h _ _ _ _ _
  · split
    · exact s.post_canonical h _ _ _ _ _
    · exact s.postTo_canonical h _ _ _ _

/- ### Versioned cells -/

theorem State.setCell_canonical (h : s.Canonical) (x : Cell) : (s.setCell x).Canonical := by
  unfold State.setCell
  split <;> exact h

theorem State.verTouch_canonical (h : s.Canonical) (ctx : Nat) (x : VReach) (all : Bool) : (s.verTouch ctx x all).Canonical := by
  unfold State.verTouch
  split
  · exact canonical_foldl (fun t i ht => t.touch_canonical ht ctx _) _ h
  · exact s.touch_canonical h _ _

/-- The act of one lane of a versioned instruction keeps every memory in its canonical form. -/
def VerOp.KeepsCanonical (op : VerOp) : Prop :=
  ∀ s0 g x scalar i t r, State.Canonical t → op.act s0 g x scalar i t = .ok r → r.1.Canonical

theorem verLane_canonical {op : VerOp} (hop : op.KeepsCanonical) {t : State} (h : t.Canonical) (w : SReg) (off : Opd) (scalar : Bool)
    (s0 : State) (k : GKey) (i : Nat) (who : Mask) : (verLane op w off scalar s0 k t i who).1.Canonical := by
  unfold verLane
  split
  · exact h
  · dsimp only
    split
    · exact t.accFail_canonical h _ _ _ _ _ _
    · have h1 : (if op.all then t.fencesFirst k (s0.threads ‹Group› who) else t).Canonical := by
        split
        · exact t.fencesFirst_canonical h _ _
        · exact h
      have h2 := fun ctx x die key => State.useObj_canonical (State.verTouch_canonical h1 ctx x op.all) die key
      split
      · next r hr => exact hop _ _ _ _ _ _ _ (h2 _ _ _ _) hr
      · exact h2 _ _ _ _

theorem verEff_canonical {op : VerOp} (hop : op.KeepsCanonical) (h : s.Canonical) (c : Ctl) (d : Opd) (w : SReg) (off : Opd)
    (load : Bool) : EffCanonical (verEff c op d w off load s) := by
  unfold verEff
  dsimp only
  split
  · exact s.noteFull_canonical h _ _
  · next s1 hx =>
    exact accessEff_canonical (fun _ _ _ _ ht => verLane_canonical hop ht _ _ _ _ _ _ _) (s.reserveAll_canonical _ h hx) _ _ _ _

theorem execVld_canonical (h : s.Canonical) (c : Ctl) (w64 : Bool) (d : Opd) (w : SReg) (off ctx : Opd) :
    NextCanonical (execVld c w64 d w off ctx s) :=
  issue_nextCanonical h fun _ hu => verEff_canonical (fun _ _ _ _ _ _ _ ht hr => by cases hr; exact ht) hu _ _ _ _ _

theorem execVlds_canonical (h : s.Canonical) (c : Ctl) (w64 : Bool) (d : Opd) (w : SReg) (off i : Opd) :
    NextCanonical (execVlds c w64 d w off i s) :=
  issue_nextCanonical h fun _ hu => verEff_canonical (fun _ _ _ _ _ _ _ ht hr => by
    dsimp only at hr
    split at hr <;> (cases hr; exact ht)) hu _ _ _ _ _

theorem execVst_canonical (h : s.Canonical) (c : Ctl) (w64 : Bool) (d : Opd) (w : SReg) (off ctx : Opd) :
    NextCanonical (execVst c w64 d w off ctx s) :=
  issue_nextCanonical h fun _ hu => verEff_canonical (fun _ _ _ _ _ t _ ht hr => by
    dsimp only at hr
    split at hr
    · cases hr
    · cases hr; exact State.modGroup_canonical (t.setCell_canonical ht _) _ _) hu _ _ _ _ _

theorem execRecon_canonical (h : s.Canonical) (c : Ctl) (op : ReconOp) (all : Bool) (d : Opd) (w : SReg) (off ctx : Opd) :
    NextCanonical (execRecon c op all d w off ctx s) :=
  issue_nextCanonical h fun _ hu => verEff_canonical (fun _ _ _ _ _ t _ ht hr => by
    dsimp only at hr
    split at hr
    · cases hr
    · split at hr
      · cases hr
      · cases hr
        dsimp only
        split
        · exact t.setCell_canonical ht _
        · exact ht) hu _ _ _ _ _

theorem State.sibArrive_canonical (h : s.Canonical) (x : Cell) (y : SibQueue) : (s.sibArrive x y).Canonical := by
  unfold State.sibArrive
  dsimp only
  split
  · exact h
  · split
    · exact s.noteFull_canonical h _ _
    · next s1 hx => exact State.setCell_canonical (s.reserve_canonical h _ _ _ hx) _

theorem execSiblingArrival_canonical (h : s.Canonical) (buf off src dst : Nat) :
    NextCanonical (execSiblingArrival buf off src dst s) := by
  unfold execSiblingArrival
  split
  · trivial
  · split
    · trivial
    · split
      · trivial
      · exact s.sibArrive_canonical h _ _

theorem execHeldSiblingRelease_canonical (h : s.Canonical) (buf off src dst : Nat) :
    NextCanonical (execHeldSiblingRelease buf off src dst s) := by
  unfold execHeldSiblingRelease
  split
  · trivial
  · split
    · trivial
    · split
      · exact s.sibArrive_canonical h _ _
      · trivial

theorem execCompaction_canonical (h : s.Canonical) (buf off : Nat) : NextCanonical (execCompaction buf off s) := by
  unfold execCompaction
  split
  · trivial
  · split
    · trivial
    · exact s.setCell_canonical h _

/- ### System instructions -/

theorem execTrap_canonical (h : s.Canonical) (c : Ctl) (a : Opd) : NextCanonical (execTrap c a s) :=
  issue_nextCanonical h fun u hu => onGroup_canonical hu fun _ _ _ => by split <;> exact hu

theorem State.endHandler_canonical (h : s.Canonical) (g : Group) (k : Rte) (n : Nat) : (s.endHandler g k n).Canonical :=
  canonical_foldl (fun t _ ht => t.settle_canonical ht _) _ (s.returnFault_canonical h _ _ _ _)

theorem State.rteReplay_canonical (h : s.Canonical) (g : Group) (mask : Mask) (n : Nat) : (s.rteReplay g mask n).Canonical := by
  unfold State.rteReplay
  split
  · exact s.endHandler_canonical h _ _ _
  · dsimp only
    split
    · exact s.endHandler_canonical h _ _ _
    · split
      · exact s.endHandler_canonical h _ _ _
      · exact h

theorem execRteReplay_canonical (h : s.Canonical) (c : Ctl) (a : Opd) : NextCanonical (execRteReplay c a s) :=
  issue_nextCanonical h fun u hu => onGroup_canonical hu fun g _ _ => by exact u.rteReplay_canonical hu _ _ _

theorem execRteSkip_canonical (h : s.Canonical) (c : Ctl) : NextCanonical (execRteSkip c s) :=
  issue_nextCanonical h fun u hu => onGroup_canonical hu fun g m x => by exact u.endHandler_canonical hu _ _ _

theorem execRteResume_canonical (h : s.Canonical) (c : Ctl) : NextCanonical (execRteResume c s) :=
  issue_nextCanonical h fun u hu => onGroup_canonical hu fun g m x => by
    split
    · exact hu
    · exact u.endHandler_canonical hu _ _ _

theorem execGsr_canonical (h : s.Canonical) (c : Ctl) (d : SReg) (sel : BitVec 6) : NextCanonical (execGsr c d sel s) :=
  issue_nextCanonical h fun u hu => onGroup_canonical hu fun g m x => by exact u.putVar_canonical hu _ _ _

theorem State.writeStateReg_canonical (h : s.Canonical) (g : Group) (sel : Nat) (x : Word) : (s.writeStateReg g sel x).Canonical := by
  unfold State.writeStateReg
  split
  case h_2 => split <;> exact h
  all_goals exact h

theorem execSsr_canonical (h : s.Canonical) (c : Ctl) (sel : BitVec 6) (b : Opd) : NextCanonical (execSsr c sel b s) :=
  issue_nextCanonical h fun u hu => onGroup_canonical hu fun g m x => by
    simp only [EffCanonical]
    split
    · exact hu
    · exact u.writeStateReg_canonical hu _ _ _

theorem execHalt_canonical (h : s.Canonical) (c : Ctl) : NextCanonical (execHalt c s) :=
  issue_nextCanonical h fun u hu => onGroup_canonical hu fun g m x => by
    simp only [EffCanonical]
    split
    · exact hu
    · exact u.haltCtx_canonical hu _ _ _

theorem State.debugStop_canonical (h : s.Canonical) (n : Nat) : (s.debugStop n).Canonical := h

theorem execBrk_canonical (h : s.Canonical) (c : Ctl) : NextCanonical (execBrk c s) :=
  issue_nextCanonical h fun u hu => onGroup_canonical hu fun g m x => by
    split
    · exact hu
    · split <;> exact hu

theorem execClk_canonical (h : s.Canonical) (c : Ctl) (d : Opd) : NextCanonical (execClk c d s) :=
  issue_nextCanonical h fun u hu => u.perLane_canonical hu _ _

end Sys2Proof.Machine
end

section
/-! SUPPORT. The placing of teams, evictions, restores and launches keep every memory in its canonical form. -/

namespace Sys2Proof.Machine

variable {s : State}

/- ### Placements and restores -/

theorem State.placeMx_canonical (h : s.Canonical) (p : PKey) (ctx : Nat) : (s.placeMx p ctx).Canonical := s.modPart_canonical h p _

theorem State.placeGroup_canonical (h : s.Canonical) (l : Launch) (team : Nat) (core : CKey) (g : Nat) :
    (s.placeGroup l team core g).Canonical := State.placeMx_canonical (by exact h) _ _

theorem State.placeTeam_canonical (h : s.Canonical) (l : Launch) (team : Nat) (core : CKey) (cluster : List CKey) :
    (s.placeTeam l team core cluster).Canonical :=
  canonical_foldl (fun t _ ht => t.placeGroup_canonical ht _ _ _ _) _ (State.touch_canonical (by exact h) _ _)

theorem State.modLaunch_canonical (h : s.Canonical) (n : Nat) (f : Launch → Launch) : (s.modLaunch n f).Canonical := h

theorem State.restoreGroup_canonical (h : s.Canonical) (k : GKey) : (s.restoreGroup k).Canonical := by
  unfold State.restoreGroup
  split <;> exact h

theorem State.restoreMx_canonical (h : s.Canonical) (p : PKey) (ctx : Nat) : (s.restoreMx p ctx).Canonical :=
  s.modPart_canonical h p _

theorem execPartyRestore_canonical (h : s.Canonical) (core : CKey) : NextCanonical (execPartyRestore core s) := by
  unfold execPartyRestore
  split
  · trivial
  · exact canonical_foldl (fun t k ht => t.settle_canonical ht k) _ (canonical_foldl (fun t k ht => t.restoreGroup_canonical ht k) _
      (State.restoreMx_canonical (by exact h) _ _))

theorem State.takePlace_canonical (h : s.Canonical) (l : Launch) (p : Plan) (rest : List Plan) : (s.takePlace l p rest).Canonical :=
  State.modLaunch_canonical (s.placeTeam_canonical h _ _ _ _) _ _

theorem execTeamPlacement_canonical (h : s.Canonical) (launch : Nat) : NextCanonical (execTeamPlacement launch s) := by
  unfold execTeamPlacement
  split
  · trivial
  · dsimp only
    split
    · trivial
    · split
      · split
        · exact s.takePlace_canonical h _ _ _
        · trivial
      · split
        · trivial
        · split
          · split
            · split
              · trivial
              · exact State.modLaunch_canonical (s.takePlace_canonical h _ _ _) _ _
            · trivial
          · trivial

/- ### Evictions -/

theorem State.writeSave_canonical (h : s.Canonical) (ctx n : Nat) : (s.writeSave ctx n).Canonical := by
  unfold State.writeSave
  split
  · exact h
  · exact ⟨Memory.store_wf _ _ h.1, h.2⟩

theorem State.saveGroup_canonical (h : s.Canonical) (k : GKey) : (s.saveGroup k).Canonical := by
  unfold State.saveGroup
  split
  · exact h
  · exact s.writeSave_canonical h _ _

theorem State.saveMx_canonical (h : s.Canonical) (p : PKey) (ctx : Nat) : (s.saveMx p ctx).Canonical := by
  unfold State.saveMx
  split
  · split
    · exact State.modPart_canonical (s.writeSave_canonical h _ _) _ _
    · exact h
  · exact h

theorem State.saveVictim_canonical (h : s.Canonical) (v : Victim) : (s.saveVictim v).Canonical := by
  unfold State.saveVictim
  extract_lets s1
  have h1 : s1.Canonical := by
    simp only [s1]
    split
    · exact s.saveGroup_canonical h _
    · exact h
  split
  · exact s1.saveMx_canonical h1 _ _
  · exact h1

theorem execPartialEviction_canonical (h : s.Canonical) (launch : Nat) : NextCanonical (execPartialEviction launch s) := by
  unfold execPartialEviction
  split
  · trivial
  · dsimp only
    split
    · trivial
    · split
      · split
        · exact s.saveVictim_canonical h _
        · trivial
      · split
        · trivial
        · split
          · exact s.modLaunch_canonical h _ _
          · trivial

theorem State.writeFaultRegs_canonical (h : s.Canonical) (f : FaultInfo) (sel : Nat) : (s.writeFaultRegs f sel).Canonical :=
  h.of_mems (by simp) (by simp) (by simp)

theorem execHandlerOverrun_canonical (h : s.Canonical) (k : GKey) : NextCanonical (execHandlerOverrun k s) := by
  unfold execHandlerOverrun
  split
  · trivial
  · split
    · trivial
    · exact State.haltCtx_canonical (s.writeFaultRegs_canonical h _ _) _ _ _

/- ### The active set -/

theorem execPendingGroupEntry_canonical (h : s.Canonical) (p : PKey) : NextCanonical (execPendingGroupEntry p s) := by
  unfold execPendingGroupEntry
  split
  · exact s.modGroup_canonical h _ _
  · trivial

theorem State.swapSlots_canonical (h : s.Canonical) (a b : Group) : (s.swapSlots a b).Canonical := h

theorem execGroupExchange_canonical (h : s.Canonical) (p : PKey) : NextCanonical (execGroupExchange p s) := by
  unfold execGroupExchange
  dsimp only
  split
  · trivial
  · split
    · exact s.swapSlots_canonical h _ _
    · split
      · split
        · exact s.swapSlots_canonical h _ _
        · trivial
      · trivial

/- ### The context and the buffers of a launch -/

theorem State.wipe_canonical (h : s.Canonical) (a n : Nat) : (s.wipe a n).Canonical := by
  unfold State.wipe
  dsimp only
  split
  · exact ⟨Memory.filter_wf _ h.1, h.2⟩
  · exact ⟨h.1, Memory.filter_wf _ h.2.1, h.2.2⟩

theorem State.makeCtx_canonical (h : s.Canonical) (r : LaunchReq) : (s.makeCtx r).Canonical := by
  unfold State.makeCtx
  split
  · exact h
  · exact canonical_foldl (fun t m ht => by exact ⟨Memory.store_wf _ _ ht.1, ht.2⟩) _
      (State.wipe_canonical (s.wipe_canonical h _ _) _ _)

theorem State.fillFrame_canonical (h : s.Canonical) (b : BufReq) (e : Entry) (off a : Nat) : (s.fillFrame b e off a).Canonical := by
  unfold State.fillFrame
  extract_lets n img
  have h1 : (if img.isEmpty then s else (s.wipe a (cdiv img.length 256 * 256)).putBytes .dev a img).Canonical := by
    split
    · exact h
    · exact State.putBytes_canonical (s.wipe_canonical h _ _) _ _ _
  cases b.sort with
  | sync => exact s.wipe_canonical h _ _
  | versioned n => exact h
  | _ => exact h1

theorem State.makeBuffer_canonical (h : s.Canonical) (ctx : Nat) (b : BufReq) : (State.makeBuffer ctx s b).Canonical := by
  have h1 : ((s.dropObjects b.idx).setEntry b.idx (bufEntry b ctx)).Canonical := h.of_mems (by simp) (by simp) (by simp)
  unfold State.makeBuffer
  dsimp only
  split
  · exact h1
  · exact canonical_foldl (fun t x ht => State.fillFrame_canonical (t.ownFrame_canonical ht _ _) _ _ _ _) _ h1

theorem State.rowMap_canonical (h : s.Canonical) (x : RowMapReq) : (s.rowMap x).Canonical :=
  State.putMem_canonical (State.putMem_canonical (s.setEntry_canonical h _ _) _ _) _ _

theorem State.makeBuffers_canonical (h : s.Canonical) (r : LaunchReq) : (s.makeBuffers r).Canonical :=
  canonical_foldl (fun t x ht => t.rowMap_canonical ht x) _ (canonical_foldl (fun t _ ht => t.setEntry_canonical ht _ _) _
    (canonical_foldl (fun t _ ht => t.setEntry_canonical ht _ _) _ (canonical_foldl (fun t b ht => t.makeBuffer_canonical ht _ b) _ h)))

theorem execLaunch_canonical (h : s.Canonical) (r : LaunchReq) : NextCanonical (execLaunch r s) := by
  have h1 := State.makeBuffers_canonical (s.makeCtx_canonical h r) r
  unfold execLaunch
  dsimp only
  split
  · exact h
  · split
    · exact h1
    · split
      · exact h1
      · split <;> exact h1

end Sys2Proof.Machine
end

section
/-! SUPPORT. The steps that no instruction word encodes, the activation tables, debug stops, the halt line, the loss of a die and the
dump keep every memory in its canonical form. -/

namespace Sys2Proof.Machine

variable {c : Ctl} {s : State}

/- ### Clauses, streams, instances and results -/

theorem execClauseFetch_canonical (h : s.Canonical) (k : GKey) : NextCanonical (execClauseFetch k s) := by
  unfold execClauseFetch
  split
  · trivial
  · split
    · trivial
    · dsimp only
      split
      · exact State.settle_canonical (State.takeFault_canonical (by exact h) _) k
      · split
        · trivial
        · split
          · exact State.settle_canonical (s.takeFault_canonical h _) k
          · exact s.modGroup_canonical h _ _

theorem execUnassignedEncoding_canonical (h : s.Canonical) (w : Word) : NextCanonical (execUnassignedEncoding w s) := by
  unfold execUnassignedEncoding
  split
  · exact State.settle_canonical (s.takeFault_canonical h _) _
  · trivial

theorem State.qFetch_canonical (h : s.Canonical) (k : GKey) (n : Nat) (b : QBind) : (s.qFetch k n b).Canonical := by
  unfold State.qFetch
  split
  · exact h
  · exact State.modGroup_canonical (State.qReach_canonical (s.letPass_canonical h _ _ _) _ _) _ _

theorem execStreamPrefetch_canonical (h : s.Canonical) (k : GKey) (q : QReg) : NextCanonical (execStreamPrefetch k q s) := by
  unfold execStreamPrefetch
  split
  · trivial
  · split
    · trivial
    · split
      · trivial
      · exact s.qFetch_canonical h _ _ _

theorem execInstanceIssue_canonical (h : s.Canonical) (n : Nat) : NextCanonical (execInstanceIssue n s) := by
  unfold execInstanceIssue
  split
  · trivial
  · split
    · exact h
    · trivial

theorem execResultWrite_canonical (h : s.Canonical) (k : GKey) (n : Nat) : NextCanonical (execResultWrite k n s) := by
  unfold execResultWrite
  split
  · trivial
  · split
    · trivial
    · exact State.settle_canonical (State.modGroup_canonical (s.performNeed_canonical h k _) _ _) k

theorem State.faultOf_canonical (h : s.Canonical) (branch : Bool) (sc : Scope) (fs : List LaneFault) :
    (s.faultOf branch sc fs).Canonical := by
  unfold State.faultOf
  split
  · exact h
  · exact s.takeFault_canonical h _

theorem State.decideChecks_canonical (h : s.Canonical) (d : Deciding) : (s.decideChecks d).Canonical := by
  unfold State.decideChecks
  extract_lets s1 fs s2
  have h2 : s2.Canonical := State.performIps_canonical (s := { s with cur := d.iss }) h
  have h3 : (if fs.isEmpty then s2.passAll else s2.faultOf false d.scope fs).Canonical := by
    split
    · exact s2.passAll_canonical h2
    · exact s2.faultOf_canonical h2 _ _ _
  exact State.settleAll_canonical h3

theorem execChecksDecided_canonical (h : s.Canonical) (k : GKey) : NextCanonical (execChecksDecided k s) := by
  unfold execChecksDecided
  split
  · trivial
  · split
    · trivial
    · split
      · exact s.decideChecks_canonical h _
      · exact State.modGroup_canonical (s.devLoadsFirst_canonical h k _) _ _

theorem execReadCopyExpiry_canonical (h : s.Canonical) (die line : Nat) : NextCanonical (execReadCopyExpiry die line s) := by
  unfold execReadCopyExpiry
  split
  · exact h
  · trivial

/- ### The activation tables -/

theorem factEff_canonical (h : s.Canonical) (c : Ctl) (ft : FT) (d a : Opd) : EffCanonical (factEff c ft d a s) := by
  unfold factEff
  extract_lets xs bad bf ms cur s0 f fin
  have hfin : ∀ t, t.Canonical → (fin t).Canonical := fun t ht => canonical_foldl (fun u m hu => u.modGroup_canonical hu _ _) _ ht
  split
  · exact h
  · have h1 : ∀ out, EffCanonical (fpEff c none d (.run 1) [(1, a)] out s0) := fpEff_canonical (s := s0) h none d _ _
    split
    · next s1 hx =>
      have h2 : EffCanonical (.done s1) := hx ▸ h1 _
      split <;> exact hfin s1 h2
    · next s1 fs hx =>
      have h2 : EffCanonical (.fault s1 fs) := hx ▸ h1 _
      exact hfin s1 h2
    · exact h1 _

theorem execTblsel_canonical (h : s.Canonical) (c : Ctl) (a : Opd) : NextCanonical (execTblsel c a s) :=
  issue_nextCanonical h fun u hu => onGroup_canonical hu fun _ _ _ => by simp only [EffCanonical]; split <;> exact hu

theorem tblldEff_canonical (h : s.Canonical) (c : Ctl) (a : Opd) (bank : Fin 2) : EffCanonical (tblldEff c a bank s) := by
  refine onGroup_canonical h fun g m e => ?_
  generalize tableBytes = n
  dsimp only
  split
  · exact h
  · split
    · split
      · exact s.modCore_canonical h _ _
      · exact h
    · split
      · exact h
      · split
        · exact h
        · split
          · exact h
          · exact s.modCore_canonical h _ _

theorem State.startLoad_canonical (h : s.Canonical) (k : CKey) (bank : Nat) : (s.startLoad k bank).Canonical := by
  unfold State.startLoad
  split
  · exact h
  · split
    · exact h
    · exact s.modCore_canonical h _ _

theorem execTblldLoadComplete_canonical (h : s.Canonical) (k : CKey) (bank : Nat) : NextCanonical (execTblldLoadComplete k bank s) := by
  unfold execTblldLoadComplete
  split
  · trivial
  · split
    · trivial
    · exact State.modGroup_canonical (s.setCore_canonical h _) _ _

/- ### The debugger -/

theorem execDebugStop_canonical (h : s.Canonical) (ctx : Nat) : NextCanonical (execDebugStop ctx s) := by
  unfold execDebugStop
  split
  · exact s.debugStop_canonical h ctx
  · trivial

theorem execDebugResume_canonical (h : s.Canonical) (ctx : Nat) : NextCanonical (execDebugResume ctx s) := by
  unfold execDebugResume
  split
  · trivial
  · split
    · trivial
    · exact State.modGroups_canonical (s.modCtx_canonical h _ _) _

theorem execSingleStep_canonical (h : s.Canonical) (k : GKey) : NextCanonical (execSingleStep k s) := by
  unfold execSingleStep
  split
  · trivial
  · split
    · trivial
    · split
      · exact h
      · simp only [NextCanonical]
        split <;> exact h

theorem execBreakpointSet_canonical (h : s.Canonical) (ctx : Nat) (addr : Word) (on : Bool) :
    NextCanonical (execBreakpointSet ctx addr on s) := by
  unfold execBreakpointSet
  split
  · trivial
  · exact s.modCtx_canonical h _ _

/- ### The halt line -/

theorem State.stopMx_canonical (h : s.Canonical) (ctx : Nat) (p : PKey) : (s.stopMx ctx p).Canonical := by
  unfold State.stopMx
  extract_lets s1 s2
  have h1 : s1.Canonical := by
    have hp := execMmaPass_canonical h p
    simp only [s1]
    split
    · next t hx => rw [hx] at hp; exact hp
    · exact orSame_canonical h (execArraySequenceStep_canonical h p)
  have h2 : s2.Canonical := orSame_canonical h1 (execWeightLoadComplete_canonical h1 p)
  split
  · exact h2
  · split
    · exact h2
    · exact State.addStop_canonical (s2.setMx_canonical h2 p _) _ _

theorem State.stopLoads_canonical (h : s.Canonical) (ctx : Nat) (k : CKey) : (s.stopLoads ctx k).Canonical := by
  refine State.modCore_canonical (canonical_foldl (fun t b ht => ?_) _ h) _ _
  split
  · exact orSame_canonical ht (execTblldLoadComplete_canonical ht k b)
  · exact ht

theorem State.stopCopies_canonical (h : s.Canonical) (ctx : Nat) (k : CKey) : (s.stopCopies ctx k).Canonical :=
  canonical_foldl (fun t _ ht => t.addStop_canonical ht _ _) _ (s.modCore_canonical h _ _)

theorem State.stopKicks_canonical (h : s.Canonical) (ctx die : Nat) : (s.stopKicks ctx die).Canonical := by
  refine canonical_foldl (fun t x ht => ?_) _ h
  split
  · split
    · exact t.addStop_canonical ht _ _
    · exact ht
  · exact ht

theorem State.stopRestripe_canonical (h : s.Canonical) (ctx buf : Nat) : (s.stopRestripe ctx buf).Canonical := by
  unfold State.stopRestripe
  extract_lets e moving s1 e1 s2
  have h1 : s1.Canonical := by
    simp only [s1]
    split
    · exact s.commitLine_canonical h buf
    · exact h
  have h2 : s2.Canonical := by
    simp only [s2]
    split
    · exact s1.setEntry_canonical h1 _ _
    · exact h1
  split
  · exact h2
  · exact s2.addStop_canonical h2 _ _

theorem State.stopDie_canonical (h : s.Canonical) (ctx die : Nat) : (s.stopDie ctx die).Canonical := by
  refine canonical_foldl (fun t b ht => t.stopRestripe_canonical ht ctx b) _ (State.stopKicks_canonical ?_ ctx die)
  refine canonical_foldl (fun t k ht => ?_) _ (canonical_foldl (fun t g ht => t.addStop_canonical ht _ _) _ h)
  refine State.stopCopies_canonical (State.stopLoads_canonical (canonical_foldl (fun u p hu => ?_) _ ht) _ _) _ _
  split
  · exact u.stopMx_canonical hu _ _
  · exact hu

theorem execHaltLineArrival_canonical (h : s.Canonical) (ctx die : Nat) : NextCanonical (execHaltLineArrival ctx die s) := by
  unfold execHaltLineArrival
  split
  · trivial
  · split
    · trivial
    · split
      · trivial
      · exact State.stopDie_canonical (s.modCtx_canonical h _ _) _ _

/- ### The loss of a die -/

theorem State.dropQueues_canonical (h : s.Canonical) (die : Nat) : (s.dropQueues die).Canonical := h

theorem State.loseDie_canonical (h : s.Canonical) (die : Nat) : (s.loseDie die).Canonical := by
  have h1 : ({ s with lost := s.lost ++ [die] }.post 9 die 0 0 0).Canonical := State.post_canonical (by exact h) _ _ _ _ _
  refine canonical_foldl (fun t x ht => canonical_foldl (fun u b hu => u.stopRestripe_canonical hu _ b) _ ht) _ ?_
  refine canonical_foldl (fun t b ht => t.stopRestripe_canonical ht _ b) _ ?_
  exact canonical_foldl (fun t x ht => t.meetLost_canonical ht _ die) _ (State.dropQueues_canonical h1 die)

theorem execDieLost_canonical (h : s.Canonical) (die : Nat) : NextCanonical (execDieLost die s) := by
  unfold execDieLost
  split
  · trivial
  · exact s.loseDie_canonical h die

theorem execHeartbeatTimeout_canonical (h : s.Canonical) (die : Nat) : NextCanonical (execHeartbeatTimeout die s) := by
  unfold execHeartbeatTimeout
  split
  · trivial
  · exact s.loseDie_canonical h die

/- ### The dump -/

theorem State.writeDump_canonical (h : s.Canonical) (k : Ctx) (ls : List Laid) (x : Halt) (cap : Nat) :
    (s.writeDump k ls x cap).Canonical := by
  refine canonical_foldl (fun t l ht => ?_) _ (s.putBytes_canonical h _ _ _)
  split
  · exact ht
  · exact t.putBytes_canonical ht _ _ _

theorem State.clearMx_canonical (h : s.Canonical) (ctx : Nat) : (s.clearMx ctx).Canonical := h

theorem execDumpWrite_canonical (h : s.Canonical) (ctx : Nat) : NextCanonical (execDumpWrite ctx s) := by
  unfold execDumpWrite
  split
  · trivial
  · split
    · trivial
    · split
      · trivial
      · dsimp only
        split
        · exact State.post_canonical (State.clearMx_canonical (s.modCtx_canonical h _ _) ctx) _ _ _ _ _
        · exact State.post_canonical (State.clearMx_canonical (State.modCtx_canonical (s.writeDump_canonical h _ _ _ _) _ _) ctx) _ _ _ _ _

end Sys2Proof.Machine
end

section
/-! SUPPORT. What the host, its driver, peer modules, the links and the firmware do keeps every memory in its canonical form. -/

namespace Sys2Proof.Machine

/- ### Maps whose entries change in place -/

/-- Dropping and changing entries keeps the canonical form where no key moves and no entry comes to the unlisted value. -/
theorem Sparse.filterMap_okFrom {α : Type} [DecidableEq α] {d : α} {f : Nat × α → Option (Nat × α)}
    (hf : ∀ x y, f x = some y → y.1 = x.1 ∧ y.2 ≠ d) {m : List (Nat × α)} {lo : Nat} (h : Sparse.okFrom d lo m = true) :
    Sparse.okFrom d lo (m.filterMap f) = true := by
  induction m generalizing lo with
  | nil => rfl
  | cons p t ih =>
    obtain ⟨a, x⟩ := p
    simp only [Sparse.okFrom, Bool.and_eq_true, decide_eq_true_eq] at h
    obtain ⟨⟨hlo, -⟩, ht⟩ := h
    rw [List.filterMap_cons]
    split
    · exact Sparse.okFrom_mono (by omega) (ih ht)
    · next y hy =>
      obtain ⟨hkey, hval⟩ := hf _ _ hy
      simp only at hkey
      simp only [Sparse.okFrom, Bool.and_eq_true, decide_eq_true_eq, hkey]
      exact ⟨⟨hlo, hval⟩, ih ht⟩

theorem mbStart_eq_some {tab : Nat} {x y : Nat × Byte} (h : mbStart tab x = some y) : y.1 = x.1 ∧ y.2 ≠ Memory.unlisted := by
  unfold mbStart at h
  extract_lets keep at h
  split at h
  · cases h
  · next hk => cases h; exact ⟨rfl, hk⟩

theorem Memory.mbStart_wf {m : List Host.Cell} (h : Memory.wf m = true) (tab : Nat) : Memory.wf (m.filterMap (mbStart tab)) = true :=
  Sparse.filterMap_okFrom (fun _ _ hx => mbStart_eq_some hx) (lo := 0) h

variable {s : State}

/- ### The command ring -/

theorem State.complete_canonical (h : s.Canonical) (code : Nat) : (s.complete code).Canonical := by
  simp only [State.Canonical, State.complete]
  exact ⟨h.1, Memory.store_wf _ _ h.2.1, h.2.2⟩

theorem State.submit_canonical (h : s.Canonical) (code : Nat) (x : Cmd) : (s.submit code x).Canonical := by
  simp only [State.Canonical, State.submit]
  exact ⟨h.1, Memory.store_wf _ _ h.2.1, h.2.2⟩

theorem command_canonical (h : s.Canonical) {f : State → State × Option Nat} (hf : (f s).1.Canonical) (x : Cmd) :
    NextCanonical (command x s f) := by
  unfold command
  split
  · trivial
  · split
    · exact s.complete_canonical h 1
    · split
      · next s1 code hx => rw [hx] at hf; exact s1.complete_canonical hf code
      · next s1 hx => rw [hx] at hf; exact hf

theorem onCtx_canonical (h : s.Canonical) {f : Ctx → State × Option Nat} (hf : ∀ c, (f c).1.Canonical) (x : Cmd) :
    (onCtx x s f).1.Canonical := by
  unfold onCtx
  split
  · exact hf _
  · exact h

/- ### Contexts -/

theorem execCtxCreate_canonical (h : s.Canonical) (x : Cmd) : NextCanonical (execCtxCreate x s) := by
  refine command_canonical h ?_ x
  dsimp only
  split
  · exact h
  · split
    · exact h
    · exact ⟨Memory.mbStart_wf h.1 _, h.2⟩

theorem execCtxHalt_canonical (h : s.Canonical) (x : Cmd) : NextCanonical (execCtxHalt x s) :=
  command_canonical h (onCtx_canonical h (fun _ => s.haltCtx_canonical h _ _ _) x) x

theorem execCtxDestroy_canonical (h : s.Canonical) (x : Cmd) : NextCanonical (execCtxDestroy x s) :=
  command_canonical h (onCtx_canonical h (fun _ => State.modCtx_canonical (s.haltCtx_canonical h _ _ _) _ _) x) x

theorem State.dropCtx_canonical (h : s.Canonical) (n : Nat) : (s.dropCtx n).Canonical := h

theorem execContextRetire_canonical (h : s.Canonical) (ctx : Nat) : NextCanonical (execContextRetire ctx s) := by
  unfold execContextRetire
  split
  · trivial
  · split
    · exact State.complete_canonical (s.dropCtx_canonical h ctx) 0
    · trivial

theorem execCtxAnnex_canonical (h : s.Canonical) (x : Cmd) : NextCanonical (execCtxAnnex x s) := by
  refine command_canonical h (onCtx_canonical h (fun c => ?_) x) x
  split <;> exact h

/- ### Slots -/

theorem execSlotLoad_canonical (h : s.Canonical) (x : Cmd) : NextCanonical (execSlotLoad x s) := by
  refine command_canonical h (onCtx_canonical h (fun c => ?_) x) x
  dsimp only
  split
  · exact h
  · split <;> exact h

theorem execSlotLoadComplete_canonical (h : s.Canonical) : NextCanonical (execSlotLoadComplete s) := by
  unfold execSlotLoadComplete
  split
  · trivial
  · split
    · trivial
    · exact State.complete_canonical (by exact h) 0

/- ### Frames and buffers -/

theorem State.setFrame_canonical (h : s.Canonical) (k : Nat) (r : Nat) : (s.setFrame k r).Canonical :=
  h.of_mems (by simp) (by simp) (by simp)

theorem State.setAudit_canonical (h : s.Canonical) (n : Nat) : ({ s with audit := n } : State).Canonical := h

theorem State.pinFrame_canonical (h : s.Canonical) (k refs : Nat) : (s.pinFrame k refs).Canonical :=
  State.post_canonical (State.setAudit_canonical (s.setFrame_canonical h k _) _) _ _ _ _ _

theorem State.addRef_canonical (h : s.Canonical) (k : Nat) : (s.addRef k).Canonical := by
  simp only [State.addRef]
  split
  · exact h
  · split
    · exact s.pinFrame_canonical h _ _
    · exact s.setFrame_canonical h _ _

theorem State.dropRef_canonical (h : s.Canonical) (k : Nat) : (s.dropRef k).Canonical := by
  simp only [State.dropRef]
  split
  · exact h
  · split
    · exact s.pinFrame_canonical h _ _
    · split
      · exact State.setFrame_canonical (State.zeroFrame_canonical (by exact h) k) _ _
      · exact s.setFrame_canonical h _ _

theorem execFrameRef_canonical (h : s.Canonical) (x : Cmd) : NextCanonical (execFrameRef x s) := by
  refine command_canonical h ?_ x
  dsimp only
  split
  · exact h
  · dsimp only
    split
    · exact s.dropRef_canonical h _
    · exact s.addRef_canonical h _

theorem State.adoptFrame_canonical (h : s.Canonical) (old ctx k : Nat) : (s.adoptFrame old ctx k).Canonical := by
  have h1 := s.ownFrame_canonical h old k
  simp only [State.adoptFrame]
  split
  · exact h1
  · exact State.setFrame_canonical (by exact h1) _ _

theorem State.adoptObjects_canonical (h : s.Canonical) (buf ctx : Nat) : (s.adoptObjects buf ctx).Canonical := h

theorem execBufAdopt_canonical (h : s.Canonical) (x : Cmd) : NextCanonical (execBufAdopt x s) := by
  refine command_canonical h (onCtx_canonical h (fun c => ?_) x) x
  dsimp only
  split
  · exact h
  · split
    · exact h
    · exact canonical_foldl (fun t k ht => t.adoptFrame_canonical ht _ _ k) _
        (State.setEntry_canonical (s.adoptObjects_canonical h _ _) _ _)

theorem execAcccntWrite_canonical (h : s.Canonical) (tier : Bool) (frame : Word) (val : BitVec 16) :
    NextCanonical (execAcccntWrite tier frame val s) := by
  exact s.setCount_canonical h _ _

/- ### Accesses from outside -/

theorem State.outWrite_canonical (n : Nat) (h : s.Canonical) (a : Nat) (bs : List Byte) : (s.outWrite a bs n).Canonical := by
  induction n generalizing s a bs with
  | zero => exact h
  | succ n ih =>
    unfold State.outWrite
    split
    · exact h
    · exact ih (s.homeWrite_canonical h _ _) _ _

theorem State.noteRenewed_canonical (h : s.Canonical) (a n : Nat) : (s.noteRenewed a n).Canonical := h

theorem State.outCount_canonical (h : s.Canonical) (a n : Nat) : (s.outCount a n).Canonical :=
  canonical_foldl (fun t l ht => t.countFrame_canonical ht 0 0 l) _ h

theorem State.extAccess_canonical (h : s.Canonical) (x : ExtAccess) : (s.extAccess x).Canonical := by
  unfold State.extAccess
  split
  · exact h
  · split
    · exact State.outWrite_canonical _ (State.noteRenewed_canonical (s.outCount_canonical h _ _) _ _) _ _
    · exact s.outCount_canonical h _ _

theorem execPeerModuleRequest_canonical (h : s.Canonical) (link : Nat) (x : ExtAccess) :
    NextCanonical (execPeerModuleRequest link x s) := by
  unfold execPeerModuleRequest
  split
  · exact s.extAccess_canonical h x
  · trivial

/- ### Control registers and the event ring -/

theorem State.setOverflow_canonical (h : s.Canonical) (die : Nat) (l : List Event) : (s.setOverflow die l).Canonical :=
  h.of_mems (by simp) (by simp) (by simp)

theorem execEventOverflowDelivery_canonical (h : s.Canonical) (die : Nat) : NextCanonical (execEventOverflowDelivery die s) := by
  unfold execEventOverflowDelivery
  split
  · trivial
  · split
    · trivial
    · exact State.ringEvent_canonical (s.setOverflow_canonical h _ _) _

theorem State.checkTier_canonical (h : s.Canonical) (tier : Nat) : (s.checkTier tier).Canonical :=
  canonical_foldl (fun t k ht => t.checkHot_canonical ht _ 0 k) _ h

theorem execControlRegisterWrite_canonical (h : s.Canonical) (off : Nat) (val : BitVec 64) :
    NextCanonical (execControlRegisterWrite off val s) := by
  simp only [execControlRegisterWrite, NextCanonical]
  split
  case h_5 => exact State.checkTier_canonical (by exact h) 0
  case h_6 => exact State.checkTier_canonical (by exact h) 1
  case h_7 => split <;> exact h
  all_goals exact h

/- ### Resets and links -/

theorem execColdReset_canonical (h : s.Canonical) (x : BootImages) : NextCanonical (execColdReset x s) := ⟨rfl, h.2⟩

theorem execWarmReset_canonical (h : s.Canonical) : NextCanonical (execWarmReset s) := h

theorem execThermalPowerRemoval_canonical (h : s.Canonical) : NextCanonical (execThermalPowerRemoval s) := ⟨rfl, h.2⟩

theorem execSpanLinkDown_canonical (h : s.Canonical) (link : Nat) : NextCanonical (execSpanLinkDown link s) := by
  unfold execSpanLinkDown
  split
  · exact State.post_canonical (by exact h) _ _ _ _ _
  · trivial

theorem execSpanLinkUp_canonical (h : s.Canonical) (link : Nat) : NextCanonical (execSpanLinkUp link s) := by
  unfold execSpanLinkUp
  split
  · exact State.modGroups_canonical (by exact h) _
  · trivial

theorem execSpanRequestTimeout_canonical (h : s.Canonical) (k : GKey) : NextCanonical (execSpanRequestTimeout k s) := by
  unfold execSpanRequestTimeout
  split
  · trivial
  · split
    · exact s.modGroup_canonical h _ _
    · trivial

end Sys2Proof.Machine
end

section
/-! SUPPORT. Every instruction, event and outside action, every move and every step keep the memories in their canonical form. -/

namespace Sys2Proof.Machine

variable {s : State}

/-- The state that an instruction or event answers keeps every memory in its canonical form: by its own lemma, or by that of the
effect it shares. -/
theorem exec_canonical (h : s.Canonical) (i : Instr) : NextCanonical (exec i s) := by
  cases i with
  | nop | yield => exact issue_nextCanonical h fun _ hu => hu
  | bra | brc => exact issue_nextCanonical h fun _ hu => jumpEff_canonical hu _ _ _
  | brx | call | callReg | ret => exact issue_nextCanonical h fun _ hu => noLoops_canonical hu (jumpEff_canonical hu _ _ _)
  | exit => exact execExit_canonical h _
  | join | leave | waitm | mop | mcnt | mfrom | mto | qstat | qskip | cvrd =>
    exact issue_nextCanonical h fun _ hu => onGroup_canonical hu fun _ _ _ => hu
  | loop => exact execLoop_canonical h _ _ _ _
  | loopq => exact execLoopq_canonical h _ _ _ _ _
  | lbrk => exact execLbrk_canonical h _ _
  | qbind => exact execQbind_canonical h _ _ _ _ _
  | sign => exact issueWith_nextCanonical h fun _ hu => signEff_canonical hu _
  | cvwait => exact issue_nextCanonical h fun _ hu => cvwaitEff_canonical hu _ _ _
  | elect | bcast => exact issue_nextCanonical h fun u hu => u.everyMember_canonical hu _ _
  | iadd | isub | iaddc | isubb | imul | imulh | imad | imin | imax | iabs | shl | shr | sar | rotl | bfx |
    bfi | popc | clz | ctz | brev | icmp | isel | mov | movw | movi | cvti | bitfn | dp4i | dp8i | punp =>
    exact issue_nextCanonical h fun u hu => u.perLane_canonical hu _ _
  | lsh | lxch => exact issue_nextCanonical h fun _ hu => shuffleEff_canonical hu _ _ _ _
  | lred => exact execLred_canonical h _ _ _ _ _
  | lscan => exact execLscan_canonical h _ _ _ _ _ _
  | lbal => exact execLbal_canonical h _ _ _
  | lvote => exact execLvote_canonical h _ _ _ _
  | lget => exact execLget_canonical h _ _ _ _
  | lput => exact execLput_canonical h _ _ _ _
  | fadd | fsub | fmul | ffma | fmin | fmax | fminn | fmaxn | fcmp | fclass | fcvt | frnd | fscale | fsqrt |
    frcp | frsq | fdivs | fexp2 | flog2 | fsin | fcos | ftanh | fsigm | pradd | prmul | prfma | dpf8 | dpf4 |
    mxsc | pcvt => exact issue_nextCanonical h fun _ hu => fpEff_canonical hu _ _ _ _ _
  | fact => exact issue_nextCanonical h fun _ hu => factEff_canonical hu _ _ _ _
  | tblsel => exact execTblsel_canonical h _ _
  | tblld => exact issue_nextCanonical h fun _ hu => tblldEff_canonical hu _ _ _
  | vtopk | vtopkm => exact issue_nextCanonical h fun _ hu => topMerge_canonical hu _ _ _ _ _ _
  | argmx => exact execArgmx_canonical h _ _ _ _ _ _
  | mwld => exact execMwld_canonical h _ _ _ _
  | mwsw | mzero | mwra | mrow | mcol | mrel => exact issue_nextCanonical h fun _ hu => mxEff_canonical hu fun _ _ => hu
  | mwfm => exact issue_nextCanonical h fun _ hu => mxWait_canonical hu hu _
  | mma => exact issue_nextCanonical h fun _ hu => mxEff_canonical hu fun _ _ => mmaIssue_canonical hu _ _ _ _ _ _ _ _ _ _ _
  | mrda => exact execMrda_canonical h _ _ _ _ _ _ _
  | msta => exact execMsta_canonical h _ _ _ _
  | mlda => exact execMlda_canonical h _ _ _
  | msca => exact execMsca_canonical h _ _
  | mfin => exact issue_nextCanonical h fun u hu => mxWait_canonical hu (u.mxAcquire_canonical hu) _
  | ld | st | ldx | stx | ldv | stv => exact issue_nextCanonical h fun _ hu => memEff_canonical hu _ _ _ _
  | pref => exact execPref_canonical h _ _ _ _
  | fence => exact issue_nextCanonical h fun _ hu => fenceEff_canonical hu _ _ _
  | btrd | rsqry => exact issue_nextCanonical h fun _ hu => entryEff_canonical hu _ _ _ _
  | rowmap => exact execRowmap_canonical h _ _ _ _ _
  | restripe => exact execRestripe_canonical h _ _ _ _ _
  | ipadd | ipsub | ipmin | ipmax | ipmac | ipcpy => exact issue_nextCanonical h fun _ hu => ipEff_canonical hu _ _ _ _ _ _
  | nbkick => exact execNbkick_canonical h _ _ _ _ _
  | nbstat => exact execNbstat_canonical h _ _ _
  | ldsp | stsp => exact issue_nextCanonical h fun _ hu => spEff_canonical hu _ _ _ _ _ _
  | tlook => exact execTlook_canonical h _ _ _
  | tset | tclr => exact issue_nextCanonical h fun _ hu => slotEff_canonical hu _ _ _ _
  | copy | copyShadow => exact issue_nextCanonical h fun _ hu => copyEff_canonical hu _ _ _ _
  | blkcpy => exact execBlkcpy_canonical h _ _ _ _ _
  | waitany | waitall => exact issue_nextCanonical h fun _ hu => waitEff_canonical hu _ _ _ _ _
  | ffrdy => exact execFfrdy_canonical h _ _ _
  | tagclr => exact execTagclr_canonical h _ _
  | shadow => exact execShadow_canonical h _ _ _ _ _
  | publish => exact execPublish_canonical h _ _
  | aadd | amin | amax | aand | aor | axor | axchg | acas | afadd | redop =>
    exact issue_nextCanonical h fun _ hu => atomEff_canonical hu _ _ _ _
  | barr => exact execBarr_canonical h _ _ _
  | barw => exact execBarw_canonical h _ _ _
  | mbput => exact execMbput_canonical h _ _ _
  | mbget => exact execMbget_canonical h _ _ _
  | mbtry => exact execMbtry_canonical h _ _ _
  | vld => exact execVld_canonical h _ _ _ _ _ _
  | vlds => exact execVlds_canonical h _ _ _ _ _ _
  | vst => exact execVst_canonical h _ _ _ _ _ _
  | recon => exact execRecon_canonical h _ _ _ _ _ _ _
  | trap => exact execTrap_canonical h _ _
  | rteReplay => exact execRteReplay_canonical h _ _
  | rteSkip => exact execRteSkip_canonical h _
  | rteResume => exact execRteResume_canonical h _
  | gsr => exact execGsr_canonical h _ _ _
  | ssr => exact execSsr_canonical h _ _ _
  | halt => exact execHalt_canonical h _
  | brk => exact execBrk_canonical h _
  | clk => exact execClk_canonical h _ _
  | streamPrefetch => exact execStreamPrefetch_canonical h _ _
  | instanceIssue => exact execInstanceIssue_canonical h _
  | tblldLoadComplete => exact execTblldLoadComplete_canonical h _ _
  | weightLoadComplete => exact execWeightLoadComplete_canonical h _
  | bankSwap => exact execBankSwap_canonical h _
  | mmaPass => exact execMmaPass_canonical h _
  | arraySequenceStep => exact execArraySequenceStep_canonical h _
  | resultWrite => exact execResultWrite_canonical h _ _
  | checksDecided => exact execChecksDecided_canonical h _
  | clauseFetch => exact execClauseFetch_canonical h _
  | readCopyExpiry => exact execReadCopyExpiry_canonical h _ _
  | lineMoveStart => exact execLineMoveStart_canonical h _
  | lineMoveCommit => exact execLineMoveCommit_canonical h _
  | kickStep => exact execKickStep_canonical h _ _
  | copySegment => exact execCopySegment_canonical h _ _
  | publishExchange => exact execPublishExchange_canonical h _
  | siblingArrival => exact execSiblingArrival_canonical h _ _ _ _
  | heldSiblingRelease => exact execHeldSiblingRelease_canonical h _ _ _ _
  | compaction => exact execCompaction_canonical h _ _
  | haltLineArrival => exact execHaltLineArrival_canonical h _ _
  | dumpWrite => exact execDumpWrite_canonical h _
  | handlerOverrun => exact execHandlerOverrun_canonical h _
  | debugStop => exact execDebugStop_canonical h _
  | debugResume => exact execDebugResume_canonical h _
  | singleStep => exact execSingleStep_canonical h _
  | launch => exact execLaunch_canonical h _
  | teamPlacement => exact execTeamPlacement_canonical h _
  | partialEviction => exact execPartialEviction_canonical h _
  | partyRestore => exact execPartyRestore_canonical h _
  | groupExchange => exact execGroupExchange_canonical h _
  | pendingGroupEntry => exact execPendingGroupEntry_canonical h _
  | ctxCreate => exact execCtxCreate_canonical h _
  | ctxHalt => exact execCtxHalt_canonical h _
  | ctxDestroy => exact execCtxDestroy_canonical h _
  | contextRetire => exact execContextRetire_canonical h _
  | ctxAnnex => exact execCtxAnnex_canonical h _
  | slotLoad => exact execSlotLoad_canonical h _
  | slotLoadComplete => exact execSlotLoadComplete_canonical h
  | frameRef => exact execFrameRef_canonical h _
  | bufAdopt => exact execBufAdopt_canonical h _
  | hostPost => exact execHostPost_canonical h _ _
  | cxlMemRequest => exact s.extAccess_canonical h _
  | acccntWrite => exact execAcccntWrite_canonical h _ _ _
  | evqHead | lostev | getVersion | getCapabilities | negotiateAlgorithms | getDigests | getCertificate |
    challenge | getMeasurements | throttle | throttleEnd | linkRetrain | flitCrcResend => exact h
  | eventOverflowDelivery => exact execEventOverflowDelivery_canonical h _
  | controlRegisterWrite => exact execControlRegisterWrite_canonical h _ _
  | coldReset => exact execColdReset_canonical h _
  | warmReset => exact execWarmReset_canonical h
  | thermalPowerRemoval => exact execThermalPowerRemoval_canonical h
  | spanLinkDown => exact execSpanLinkDown_canonical h _
  | spanLinkUp => exact execSpanLinkUp_canonical h _
  | spanRequestTimeout => exact execSpanRequestTimeout_canonical h _
  | dieLost => exact execDieLost_canonical h _
  | heartbeatTimeout => exact execHeartbeatTimeout_canonical h _
  | unassignedEncoding w => exact execUnassignedEncoding_canonical h w
  | peerModuleRequest => exact execPeerModuleRequest_canonical h _ _
  | breakpointSet => exact execBreakpointSet_canonical h _ _ _
  | segholdRelease => exact execSegholdRelease_canonical h _ _

/- ### Moves -/

theorem State.land_canonical (h : s.Canonical) : s.land.Canonical := by
  refine State.endGens_canonical ?_
  split
  · exact h
  · exact canonical_foldl (fun t k ht => t.settle_canonical ht k) _ (s.modGroups_canonical h _)

theorem State.outside_canonical (h : s.Canonical) (x : Outside) : (s.outside x).Canonical := by
  cases x with
  | act i =>
    simp only [State.outside]
    split
    · exact s.submit_canonical h _ _
    · exact orSame_canonical h (exec_canonical h i)
  | hostWrite a bs => exact ⟨h.1, Memory.store_wf _ _ h.2.1, h.2.2⟩
  | barRead bar2 off len => exact h

theorem State.perform1_canonical (h : s.Canonical) (m : Move) : NextCanonical (s.perform1 m) := by
  cases m with
  | exec i cur => exact exec_canonical (s := { s with cur := cur, issuing := none }) h i
  | issue k i cur => exact exec_canonical (s := s.atIssue k cur) h i
  | drain k n => exact s.performNth_canonical h k n
  | startLoad k b => exact s.startLoad_canonical h k b
  | outside n x => exact State.outside_canonical (s := { s with inbox := s.inbox.eraseIdx n, cur := Issue.idle }) h x
  | badCommand => exact s.complete_canonical h 1

theorem State.tickOn_canonical (h : s.Canonical) : s.tickOn.Canonical := h.of_mems (by simp) (by simp) (by simp)

theorem step_canonical (h : s.Canonical) : NextCanonical (step s) := by
  have h1 := s.land_canonical h
  simp only [step]
  split
  · exact State.tickOn_canonical h1
  · next m _ =>
    have h2 := State.perform1_canonical h1 m
    split
    · next t ht => rw [ht] at h2; exact t.tickOn_canonical h2
    · trivial
    · trivial

/-- Settles O57: what a step lands, does and lets pass keeps the form, move by move and instruction by instruction. -/
theorem stepKeepsMemoryCanonical : Obligations.StepKeepsMemoryCanonical := by
  unfold Obligations.StepKeepsMemoryCanonical
  intro s t h ht
  have h1 := step_canonical h
  rw [ht] at h1
  exact h1

end Sys2Proof.Machine
end

section
/-! SUPPORT. The codes of the fields, each read back by the decoder's own function, and the ranges of the codes (R26, R30, R32). -/

namespace Sys2Proof

/- ### What the decoder reads back from a code -/

@[simp] theorem scopeOf_code (x : Scope) : scopeOf x.code = x := by cases x <;> rfl
@[simp] theorem itOf_code (x : IT) : itOf x.code = some x := by cases x <;> rfl
@[simp] theorem ftOf_code (x : FT) : ftOf x.code = some x := by cases x <;> rfl
@[simp] theorem rndOf_code (x : Rnd) : rndOf x.code = some x := by cases x <;> rfl
@[simp] theorem ordOf_code (x : Ordr) : ordOf x.code = some x := by cases x <;> rfl
@[simp] theorem scpOf_code (x : Scp) : scpOf x.code = some x := by cases x <;> rfl
@[simp] theorem tcOf_code (x : TC) : tcOf x.code = some x := by cases x <;> rfl
@[simp] theorem lshOf_code (x : LshOp) : lshOf x.code = some x := by cases x <;> rfl
@[simp] theorem redOf_code (x : RedOp) : redOf x.code = x := by cases x <;> rfl
@[simp] theorem mopOf_code (x : MopOp) : mopOf x.code = x := by cases x <;> rfl
@[simp] theorem voteOf_code (x : VoteOp) : voteOf x.code = x := by cases x <;> rfl
@[simp] theorem reconOf_code (x : ReconOp) : reconOf x.code = x := by cases x <;> rfl
@[simp] theorem redTOf_code (x : RedT) : redTOf x.code = x := by cases x <;> rfl
@[simp] theorem akOf_code (x : AKind) : akOf x.code = some x := by cases x <;> rfl
@[simp] theorem fpredOf_code (x : FPred) : fpredOf x.code = x := by cases x <;> rfl

@[simp] theorem guardOf_guardCode (g : Option MReg) : guardOf (guardCode g) = some g := by
  cases g with
  | none => rfl
  | some m => simp [guardOf, guardCode]

theorem specialOf_code (x : Special) : specialOf (x.code - 0x360) = some x := by cases x <;> rfl

theorem Special.code_range (x : Special) : 0x360 ≤ x.code ∧ x.code < 0x369 := by cases x <;> decide

/-- An operand's code names that operand (R30): the ranges of the kinds lie apart, and each kind counts on from its first code. -/
@[simp] theorem opdOf_code (o : Opd) : opdOf o.code = some o := by
  cases o with
  | v n =>
    show opdOf n.toNat = _
    rw [opdOf, if_pos n.isLt]
    simp
  | s n =>
    show opdOf (0x100 + n.toNat) = _
    rw [opdOf, if_neg (by omega), if_pos (by omega)]
    simp
  | y n =>
    show opdOf (0x300 + n.toNat) = _
    rw [opdOf, if_neg (by omega), if_neg (by omega), if_pos (by omega)]
    simp
  | q n =>
    show opdOf (0x340 + n.toNat) = _
    rw [opdOf, if_neg (by omega), if_neg (by omega), if_neg (by omega), if_pos (by omega)]
    simp
  | m n =>
    show opdOf (0x350 + n.val) = _
    rw [opdOf, if_neg (by omega), if_neg (by omega), if_neg (by omega), if_neg (by omega), if_neg (by omega), dif_pos (by omega)]
    simp
  | sp x =>
    obtain ⟨hl, hu⟩ := x.code_range
    show opdOf x.code = _
    rw [opdOf, if_neg (by omega), if_neg (by omega), if_neg (by omega), if_neg (by omega), if_neg (by omega), dif_neg (by omega),
      if_neg (by omega), if_pos (by omega), specialOf_code]
    rfl
  | lc n =>
    show opdOf (0x369 + n.val) = _
    rw [opdOf, if_neg (by omega), if_neg (by omega), if_neg (by omega), if_neg (by omega), if_neg (by omega), dif_neg (by omega),
      if_neg (by omega), if_neg (by omega), dif_pos (by omega)]
    simp
  | imm k =>
    show opdOf (0x380 + k.toNat) = _
    rw [opdOf, if_neg (by omega), if_neg (by omega), if_neg (by omega), if_neg (by omega), if_neg (by omega), dif_neg (by omega),
      if_neg (by omega), if_neg (by omega), dif_neg (by omega), if_neg (by omega), if_pos (by omega)]
    simp

theorem Opd.code_lt (o : Opd) : o.code < 1024 := by
  cases o with
  | sp x => exact Nat.lt_trans x.code_range.2 (by decide)
  | _ => simp only [Opd.code]; omega

@[simp] theorem sOf_code (n : SReg) : sOf (Opd.s n).code = some n := by simp [sOf]
@[simp] theorem vOf_code (n : VReg) : vOf (Opd.v n).code = some n := by simp [vOf]
@[simp] theorem mOf_code (n : MReg) : mOf (Opd.m n).code = some n := by simp [mOf]
@[simp] theorem qOf_code (n : QReg) : qOf (Opd.q n).code = some n := by simp [qOf]
@[simp] theorem lcOf_code (n : LcReg) : lcOf (Opd.lc n).code = some n := by simp [lcOf]

@[simp] theorem immOf_code (n : Nat) : immOf (0x380 + n) = some n := by simp [immOf]
@[simp] theorem finOf_val {k : Nat} (n : Fin k) : finOf k n.val = some n := by simp [finOf]
@[simp] theorem finImm_val {k : Nat} (n : Fin k) : finImm k (0x380 + n.val) = some n := by simp [finImm]
@[simp] theorem tag6_toNat (t : BitVec 6) : tag6 t.toNat = t := by simp [tag6]

/- ### Function numbers and packed fields -/

theorem IT.code_lt (x : IT) : x.code < 8 := by cases x <;> decide
theorem FT.code_lt (x : FT) : x.code < 3 := by cases x <;> decide
theorem Rnd.code_lt (x : Rnd) : x.code < 5 := by cases x <;> decide
theorem TC.code_lt (x : TC) : x.code < 16 := by cases x <;> decide
theorem Scp.code_lt (x : Scp) : x.code < 5 := by cases x <;> decide
theorem Ordr.code_lt (x : Ordr) : x.code < 4 := by cases x <;> decide
theorem Scope.code_lt (x : Scope) : x.code < 4 := by cases x <;> decide
theorem Hint.code_lt (x : Hint) : x.code < 4 := by cases x <;> decide
theorem RedOp.code_lt (x : RedOp) : x.code < 4 := by cases x <;> decide
theorem RedT.code_lt (x : RedT) : x.code < 3 := by cases x <;> decide
theorem AKind.code_lt (x : AKind) : x.code < 7 := by cases x <;> decide
theorem FPred.code_lt (x : FPred) : x.code < 8 := by cases x <;> decide
theorem Pred.code_lt (x : Pred) : x.code < 6 := by cases x <;> decide
theorem guardCode_lt (g : Option MReg) : guardCode g < 16 := by
  cases g with
  | none => decide
  | some m => simp only [guardCode]; omega

@[simp] theorem b2n_beq (b : Bool) : (b2n b == 1) = b := by cases b <;> rfl
theorem b2n_lt (b : Bool) : b2n b < 2 := by cases b <;> decide

@[simp] theorem itx_div (it : IT) {x : Nat} (h : x < 4) : itx it x / 4 = it.code := by simp only [itx]; omega
@[simp] theorem itx_mod (it : IT) {x : Nat} (h : x < 4) : itx it x % 4 = x := by simp only [itx]; omega
@[simp] theorem ftx_div (ft : FT) {x : Nat} (h : x < 8) : ftx ft x / 8 = ft.code := by simp only [ftx]; omega
@[simp] theorem ftx_mod (ft : FT) {x : Nat} (h : x < 8) : ftx ft x % 8 = x := by simp only [ftx]; omega

@[simp] theorem hintOf_jB (h : Hint) (off : BitVec 18) : hintOf (jB h off) = h := by
  have : jB h off / 256 = h.code := by simp only [jB]; omega
  rw [hintOf, this]
  cases h <;> rfl

@[simp] theorem off18_jB_jC (h : Hint) (off : BitVec 18) : off18 (jB h off) (jC off) = off := by
  have : jB h off % 256 * 1024 + jC off = off.toNat := by simp only [jB, jC]; omega
  rw [off18, this, BitVec.ofNat_toNat, BitVec.setWidth_eq]

@[simp] theorem b2n_div_two (b : Bool) : b2n b / 2 = 0 := by cases b <;> rfl
@[simp] theorem b2n_mod_two (b : Bool) : b2n b % 2 = b2n b := by cases b <;> rfl
@[simp] theorem add_await_div (m : Nat) (b : Bool) : (m + 2 * b2n b) / 2 = m / 2 + b2n b := by omega

@[simp] theorem itx_redOp_div (it : IT) (x : RedOp) : itx it x.code / 4 = it.code := itx_div it x.code_lt
@[simp] theorem itx_redOp_mod (it : IT) (x : RedOp) : itx it x.code % 4 = x.code := itx_mod it x.code_lt
@[simp] theorem ftx_rnd_div (ft : FT) (x : Rnd) : ftx ft x.code / 8 = ft.code := ftx_div ft (by have := x.code_lt; omega)
@[simp] theorem ftx_rnd_mod (ft : FT) (x : Rnd) : ftx ft x.code % 8 = x.code := ftx_mod ft (by have := x.code_lt; omega)
@[simp] theorem ftx_fpred_div (ft : FT) (x : FPred) : ftx ft x.code / 8 = ft.code := ftx_div ft x.code_lt
@[simp] theorem ftx_fpred_mod (ft : FT) (x : FPred) : ftx ft x.code % 8 = x.code := ftx_mod ft x.code_lt
@[simp] theorem TC.code_mod (x : TC) : x.code % 16 = x.code := Nat.mod_eq_of_lt x.code_lt
@[simp] theorem cvt_src (x : TC) (r : Rnd) : (x.code * 64 + r.code * 8) / 64 = x.code := by have := r.code_lt; omega
@[simp] theorem cvt_rnd (x : TC) (r : Rnd) : (x.code * 64 + r.code * 8) / 8 % 8 = r.code := by have := r.code_lt; omega
@[simp] theorem mC_div (x : MemOpd) : mC x / 128 = x.scp.code := by simp only [mC]; omega
@[simp] theorem mC_mod (x : MemOpd) : mC x % 128 = x.off.toNat := by simp only [mC]; omega
@[simp] theorem ord_scp_div (o : Ordr) (x : Scp) : (o.code * 8 + x.code) / 8 = o.code := by have := x.code_lt; omega
@[simp] theorem Scp.code_mod (x : Scp) : x.code % 8 = x.code := by have := x.code_lt; omega
@[simp] theorem off7_mod (x : BitVec 7) : x.toNat % 128 = x.toNat := by omega
@[simp] theorem index_pair_div (i j : BitVec 2) : (i.toNat + 4 * j.toNat) / 4 = j.toNat := by omega
@[simp] theorem b2n_false : b2n false = 0 := rfl
@[simp] theorem movw_half (hi : Bool) (x : BitVec 16) : (b2n hi * 64 + x.toNat / 1024) / 64 % 2 = b2n hi := by have := b2n_lt hi; omega
@[simp] theorem movw_imm (x : BitVec 16) : BitVec.ofNat 16 (x.toNat / 1024 % 64 * 1024 + x.toNat % 1024) = x := by
  rw [show x.toNat / 1024 % 64 * 1024 + x.toNat % 1024 = x.toNat by omega, BitVec.ofNat_toNat, BitVec.setWidth_eq]
@[simp] theorem movi_imm (x : Word) : BitVec.ofNat 32 (x.toNat / 2 ^ 22 * 2 ^ 22 + x.toNat / 2 ^ 12 % 1024 * 2 ^ 12 +
    x.toNat / 4 % 1024 * 4 + x.toNat % 4) = x := by
  rw [show x.toNat / 2 ^ 22 * 2 ^ 22 + x.toNat / 2 ^ 12 % 1024 * 2 ^ 12 + x.toNat / 4 % 1024 * 4 + x.toNat % 4 = x.toNat by omega,
    BitVec.ofNat_toNat, BitVec.setWidth_eq]
/-- The table number of BITFN is split over OP, FN and M (R128). -/
theorem bitfn_table (k : BitVec 8) :
    k.toNat / 128 = 0 ∧ BitVec.ofNat 8 (k.toNat / 4 % 32 * 4 + k.toNat % 4) = k ∨
    k.toNat / 128 = 1 ∧ BitVec.ofNat 8 (128 + k.toNat / 4 % 32 * 4 + k.toNat % 4) = k := by
  rcases (by omega : k.toNat / 128 = 0 ∨ k.toNat / 128 = 1) with h | h
  · refine .inl ⟨h, ?_⟩
    rw [show k.toNat / 4 % 32 * 4 + k.toNat % 4 = k.toNat by omega, BitVec.ofNat_toNat, BitVec.setWidth_eq]
  · refine .inr ⟨h, ?_⟩
    rw [show 128 + k.toNat / 4 % 32 * 4 + k.toNat % 4 = k.toNat by omega, BitVec.ofNat_toNat, BitVec.setWidth_eq]
@[simp] theorem akind_tile_div (k : AKind) (t : Tile) : (k.code * 4 + t.toNat) / 4 = k.code := by omega
@[simp] theorem akind_tile_mod (k : AKind) (t : Tile) : (k.code * 4 + t.toNat) % 4 = t.toNat := by omega
@[simp] theorem tile_toNat_mod (t : Tile) : t.toNat % 4 = t.toNat := by omega
@[simp] theorem VoteOp.code_ne_zero (x : VoteOp) : x.code ≠ 0 := by cases x <;> decide

theorem itx_lt (it : IT) {x : Nat} (h : x < 4) : itx it x < 32 := by have := it.code_lt; simp only [itx]; omega
theorem ftx_lt (ft : FT) {x : Nat} (h : x < 8) : ftx ft x < 32 := by have := ft.code_lt; simp only [ftx]; omega
theorem jB_lt (h : Hint) (off : BitVec 18) : jB h off < 1024 := by have := h.code_lt; simp only [jB]; omega
theorem jC_lt (off : BitVec 18) : jC off < 1024 := by simp only [jC]; omega
theorem mC_lt (x : MemOpd) : mC x < 1024 := by have := x.scp.code_lt; simp only [mC]; omega
theorem Rnd.code_lt8 (x : Rnd) : x.code < 8 := by cases x <;> decide

theorem b2n_le_one (b : Bool) : b2n b ≤ 1 := by cases b <;> decide
theorem b2n_lt_four (b : Bool) : b2n b < 4 := by cases b <;> decide
theorem LshOp.code_lt (x : LshOp) : x.code < 4 := by cases x <;> decide
theorem MopOp.code_lt (x : MopOp) : x.code < 4 := by cases x <;> decide
theorem VoteOp.code_lt (x : VoteOp) : x.code < 4 := by cases x <;> decide
theorem ReconOp.code_lt (x : ReconOp) : x.code < 6 := by cases x <;> decide

/- ### The codes of the fields, whatever they accept -/

@[simp] theorem Slot.zero_code : Slot.zero.code = 0 := rfl
@[simp] theorem Slot.num_code (n : Nat) : (Slot.num n).code = n := rfl
@[simp] theorem Slot.unused_code (o : Opd) : (Slot.unused o).code = o.code := rfl
@[simp] theorem Slot.rd_code (acc : Opd → Bool) (o : Opd) (n k : Nat) : (Slot.rd acc o n k).code = o.code := rfl
@[simp] theorem Slot.wr_code (acc : Opd → Bool) (o : Opd) (n k : Nat) : (Slot.wr acc o n k).code = o.code := rfl
@[simp] theorem Slot.rw_code (acc : Opd → Bool) (o : Opd) (n k : Nat) : (Slot.rw acc o n k).code = o.code := rfl
@[simp] theorem Slot.name_code (acc : Opd → Bool) (o : Opd) : (Slot.name acc o).code = o.code := rfl
@[simp] theorem Slot.float_code (x : Slot) : x.float.code = x.code := rfl
@[simp] theorem Slot.noSr_code (r : Rnd) (x : Slot) : (Slot.noSr r x).code = x.code := rfl
@[simp] theorem Slot.isrc_code (d : Opd) (it : IT) (o : Opd) : (Slot.isrc d it o).code = o.code := rfl
@[simp] theorem Slot.isrc1_code (d o : Opd) : (Slot.isrc1 d o).code = o.code := rfl
@[simp] theorem Slot.idst_code (it : IT) (o : Opd) : (Slot.idst it o).code = o.code := rfl
@[simp] theorem Slot.fsrc_code (d o : Opd) : (Slot.fsrc d o).code = o.code := rfl
@[simp] theorem Slot.fdst_code (o : Opd) : (Slot.fdst o).code = o.code := rfl
@[simp] theorem Slot.dpAcc_code (d o : Opd) : (Slot.dpAcc d o).code = o.code := rfl
@[simp] theorem Slot.dpInt_code (d o : Opd) : (Slot.dpInt d o).code = o.code := rfl
@[simp] theorem Slot.scale_code (d o : Opd) : (Slot.scale d o).code = o.code := rfl
@[simp] theorem Slot.addr_code (d o : Opd) : (Slot.addr d o).code = o.code := rfl
@[simp] theorem Slot.hnd_code (d o : Opd) (n : Nat) : (Slot.hnd d o n).code = o.code := rfl
@[simp] theorem Slot.ipw_code (o : Opd) : (Slot.ipw o).code = o.code := rfl
@[simp] theorem Slot.seed_code (r : Rnd) (o : Opd) : (Slot.seed r o).code = o.code := by unfold Slot.seed; split <;> rfl
@[simp] theorem Slot.tags_code (o : Opd) : (Slot.tags o).code = o.code := by unfold Slot.tags; split <;> rfl

end Sys2Proof
end

section
/-! SUPPORT. The words of an instruction and their fields: fields that fit are read back from the words (R26, R27). -/

namespace Sys2Proof

/-- Every field fits its place in the words, and a one-word instruction has no field in a second. -/
structure Raw.Fits (r : Raw) : Prop where
  stall : r.stall < 8
  scope : r.scope < 4
  op : r.op < 128
  fn : r.fn < 32
  d : r.d < 1024
  g : r.g < 16
  a : r.a < 1024
  b : r.b < 1024
  c : r.c < 1024
  m : r.m < 4
  short : r.x = false → r.a = 0 ∧ r.b = 0 ∧ r.c = 0 ∧ r.m = 0

/-- The fields are read back from their base word, with the number of any word for an operand word. -/
theorem rawOf_base {r : Raw} (h : r.Fits) {w : Word} {k : Nat} (hk : (if r.x then w.toNat else 0) = k) :
    rawOf r.base w = { r with a := k / 2 ^ 22, b := k / 2 ^ 12 % 1024, c := k / 4 % 1024, m := k % 4 } := by
  obtain ⟨hs, hsc, hop, hfn, hd, hg, -, -, -, -, -⟩ := h
  have hx := b2n_lt r.x
  have hb : r.base.toNat = r.stall * 2 ^ 29 + r.scope * 2 ^ 27 + b2n r.x * 2 ^ 26 + r.op * 2 ^ 19 + r.fn * 2 ^ 14 + r.d * 2 ^ 4 + r.g := by
    rw [Raw.base, BitVec.toNat_ofNat, Nat.mod_eq_of_lt (by omega)]
  have hxb : rawOf.bitN r.base.toNat 26 = r.x := by
    rw [rawOf.bitN, show r.base.toNat / 2 ^ 26 % 2 = b2n r.x by omega, b2n_beq]
  simp only [rawOf, hxb, hk, Raw.mk.injEq, true_and, and_true]
  refine ⟨?_, ?_, ?_, ?_, ?_, ?_⟩ <;> omega

/-- The fields of an instruction's words, whatever follows a one-word instruction, are those it was made of. -/
theorem rawOf_words {r : Raw} (h : r.Fits) (w : Word) : rawOf (r.words.getD 0 0) (r.words.getD 1 w) = r := by
  cases hx : r.x with
  | false =>
    have hw : r.words = [r.base] := by simp [Raw.words, hx]
    obtain ⟨ha, hb, hc, hm⟩ := h.short hx
    rw [hw]
    refine (rawOf_base h (k := 0) (by simp [hx])).trans ?_
    cases r
    simp_all
  | true =>
    have hw : r.words = [r.base, r.opnd] := by simp [Raw.words, hx]
    obtain ⟨ha, hb, hc, hm⟩ := And.intro h.a (And.intro h.b (And.intro h.c h.m))
    have ho : r.opnd.toNat = r.a * 2 ^ 22 + r.b * 2 ^ 12 + r.c * 2 ^ 2 + r.m := by
      rw [Raw.opnd, BitVec.toNat_ofNat, Nat.mod_eq_of_lt (by omega)]
    rw [hw]
    refine (rawOf_base h (k := r.opnd.toNat) (by simp [hx])).trans ?_
    rw [show r.opnd.toNat / 2 ^ 22 = r.a by omega, show r.opnd.toNat / 2 ^ 12 % 1024 = r.b by omega,
      show r.opnd.toNat / 4 % 1024 = r.c by omega, show r.opnd.toNat % 4 = r.m by omega]

end Sys2Proof
end

section
/-! SUPPORT. What the decoder takes the fields of an encoded instruction to mean (R40). -/

namespace Sys2Proof

/-- The long form belongs to format S (R28). -/
theorem Ctl.wf_long {c : Ctl} {d : Desc} (h : c.wf d = true) (hf : d.fmt ≠ .S) : c.long = false := by
  simp only [Ctl.wf, Bool.and_eq_true, Bool.or_eq_true, Bool.not_eq_true', beq_iff_eq] at h
  exact h.2.resolve_right hf

/-- An instruction that cannot await has AWAIT clear (R27). -/
theorem Ctl.wf_never {c : Ctl} {d : Desc} (h : c.wf d = true) (ha : d.await = .never) : c.await = false := by
  simp only [Ctl.wf, ha, bne_self_eq_false, Bool.and_false, Bool.false_and, Bool.or_false, Bool.and_eq_true, Bool.not_eq_true'] at h
  exact h.1

/-- The decoder's classes by operation code: `c` is the instruction's control fields, `u` those without AWAIT, `s` those in the form that
the words have (R28, R40). -/
def candidateOf (r : Raw) (c u s : Ctl) : Option Instr :=
  if r.op < 0x08 then candControl r c s
  else if r.op < 0x18 then candScope r c s
  else if r.op < 0x1F then candInt r c
  else if r.op < 0x26 then candInt2 r c u
  else if r.op < 0x30 then candCross r c
  else if r.op < 0x48 then candFp r c
  else if r.op < 0x50 then candPacked r c
  else if r.op < 0x60 then candMatrix r c s
  else if r.op < 0x70 then candMem r c u s
  else if r.op < 0x74 then candAsync r c
  else if r.op < 0x78 then candMem r c u s
  else if r.op < 0x7C then candAsync r c
  else if r.op < 0x7F then candSync r c u
  else candSystem r c s

/-- An operation code of a range. -/
def opWithin (lo hi op : Nat) : Bool := Nat.ble lo op && Nat.blt op hi

theorem opWithin_iff {lo hi op : Nat} : opWithin lo hi op = true ↔ lo ≤ op ∧ op < hi := by
  simp [opWithin, Nat.blt_eq]

section classes
variable {r : Raw} (c u s : Ctl)

theorem candidateOf_control (h : opWithin 0x00 0x08 r.op = true) : candidateOf r c u s = candControl r c s := by
  rw [opWithin_iff] at h
  grind [candidateOf]

theorem candidateOf_scope (h : opWithin 0x08 0x18 r.op = true) : candidateOf r c u s = candScope r c s := by
  rw [opWithin_iff] at h
  grind [candidateOf]

theorem candidateOf_int (h : opWithin 0x18 0x1F r.op = true) : candidateOf r c u s = candInt r c := by
  rw [opWithin_iff] at h
  grind [candidateOf]

theorem candidateOf_int2 (h : opWithin 0x1F 0x26 r.op = true) : candidateOf r c u s = candInt2 r c u := by
  rw [opWithin_iff] at h
  grind [candidateOf]

theorem candidateOf_cross (h : opWithin 0x26 0x30 r.op = true) : candidateOf r c u s = candCross r c := by
  rw [opWithin_iff] at h
  grind [candidateOf]

theorem candidateOf_fp (h : opWithin 0x30 0x48 r.op = true) : candidateOf r c u s = candFp r c := by
  rw [opWithin_iff] at h
  grind [candidateOf]

theorem candidateOf_packed (h : opWithin 0x48 0x50 r.op = true) : candidateOf r c u s = candPacked r c := by
  rw [opWithin_iff] at h
  grind [candidateOf]

theorem candidateOf_matrix (h : opWithin 0x50 0x60 r.op = true) : candidateOf r c u s = candMatrix r c s := by
  rw [opWithin_iff] at h
  grind [candidateOf]

theorem candidateOf_mem (h : (opWithin 0x60 0x70 r.op || opWithin 0x74 0x78 r.op) = true) : candidateOf r c u s = candMem r c u s := by
  rw [Bool.or_eq_true, opWithin_iff, opWithin_iff] at h
  grind [candidateOf]

theorem candidateOf_async (h : (opWithin 0x70 0x74 r.op || opWithin 0x78 0x7C r.op) = true) : candidateOf r c u s = candAsync r c := by
  rw [Bool.or_eq_true, opWithin_iff, opWithin_iff] at h
  grind [candidateOf]

theorem candidateOf_sync (h : opWithin 0x7C 0x7F r.op = true) : candidateOf r c u s = candSync r c u := by
  rw [opWithin_iff] at h
  grind [candidateOf]

theorem candidateOf_system (h : opWithin 0x7F 0x80 r.op = true) : candidateOf r c u s = candSystem r c s := by
  rw [opWithin_iff] at h
  grind [candidateOf]

end classes

theorem candidate_of_guard {r : Raw} {g : Option MReg} (hg : guardOf r.g = some g) : candidate r =
    candidateOf r (ctlOf r g (r.m / 2 == 1) false) (ctlOf r g false false) (ctlOf r g (r.m / 2 == 1) r.x) := by
  unfold candidate
  rw [hg]
  rfl

/-- The control fields read back from the fields of an instruction. -/
theorem ctlOf_rawFor (c : Ctl) (d : Desc) (aw lo : Bool) : ctlOf (rawFor c d) c.guard aw lo = { c with await := aw, long := lo } := by
  simp [ctlOf, rawFor]

/-- The decoder at the fields of an instruction: AWAIT is the bit above M, and only the long form keeps its mark (R26, R27, R28). -/
theorem candidate_rawFor_eq (c : Ctl) (d : Desc) : candidate (rawFor c d) = candidateOf (rawFor c d)
    { c with await := d.m / 2 + b2n c.await == 1, long := false } { c with await := false, long := false }
    { c with await := d.m / 2 + b2n c.await == 1, long := d.fmt != .S || c.long } := by
  rw [candidate_of_guard (guardOf_guardCode c.guard), ctlOf_rawFor, ctlOf_rawFor, ctlOf_rawFor, ← add_await_div]
  rfl

/-- What the fields of an instruction can mean is that instruction, class by class of the decoder. -/
theorem candidate_rawFor {i : Instr} {c : Ctl} {d : Desc} (hd : i.desc = some d) (hc : i.ctl = some c) (hw : c.wf d = true) :
    candidate (rawFor c d) = some i := by
  rw [candidate_rawFor_eq]
  obtain ⟨st, sc, g, aw, lo⟩ := c
  cases i with
  | nop | yield | ret | exit | sign | mwsw | mzero | mrel | mfin | fence | rteSkip | rteResume | halt | brk =>
    cases hd; cases hc
    simp [candidateOf, rawFor, Desc.short, candControl, candScope, candMatrix, candMem, candSystem]
  | bra | brx | call | callReg | join | leave | waitm | mcnt | mfrom | mto | loop | loopq | lbrk | qbind | qstat | qskip =>
    cases hd; cases hc
    obtain rfl : lo = false := Ctl.wf_long hw nofun
    rw [candidateOf_control _ _ _ rfl]
    dsimp only [rawFor, Desc.jump, Desc.ctl, candControl, opd2]
    simp
  | brc _ _ _ a =>
    cases hd; cases hc
    obtain rfl : lo = false := Ctl.wf_long hw nofun
    rw [candidateOf_control _ _ _ rfl]
    cases a <;> (dsimp only [rawFor, Desc.jump, candControl]; simp)
  | mop _ op =>
    cases hd; cases hc
    obtain rfl : lo = false := Ctl.wf_long hw nofun
    rw [candidateOf_control _ _ _ rfl]
    cases op <;> (dsimp only [rawFor, Desc.ctl, candControl]; simp [MopOp.code, mopOf])
  | cvwait | cvrd | elect | bcast =>
    cases hd; cases hc
    obtain rfl : lo = false := Ctl.wf_long hw nofun
    rw [candidateOf_scope _ _ _ rfl]
    dsimp only [rawFor, Desc.ctl, candScope, opd3]
    simp
  | iadd | isub | iaddc | isubb | imul | imulh | imad | imin | imax | iabs | shl | shr | sar | rotl | bfx | bfi | popc | clz | ctz | brev =>
    cases hd; cases hc
    obtain rfl : lo = false := Ctl.wf_long hw nofun
    rw [candidateOf_int _ _ _ rfl]
    dsimp only [rawFor, Desc.int, candInt, int1, int2, int3]
    simp
  | icmp _ _ p =>
    cases hd; cases hc
    obtain rfl : lo = false := Ctl.wf_long hw nofun
    rw [candidateOf_int _ _ _ rfl]
    cases p <;> (dsimp only [rawFor, Desc.int, candInt]; simp [Pred.code, predOf])
  | isel | mov | movw | cvti =>
    cases hd; cases hc
    obtain rfl : lo = false := Ctl.wf_long hw nofun
    rw [candidateOf_int2 _ _ _ rfl]
    dsimp only [rawFor, Desc.int, candInt2, opd2, opd4]
    simp
  | movi _ _ imm =>
    cases hd; cases hc
    obtain rfl : lo = false := Ctl.wf_long hw nofun
    obtain rfl : aw = false := Ctl.wf_never hw rfl
    rw [candidateOf_int2 _ _ _ rfl]
    dsimp only [rawFor, Desc.int, candInt2]
    simpa using movi_imm imm
  | bitfn _ k =>
    cases hd; cases hc
    obtain rfl : lo = false := Ctl.wf_long hw nofun
    obtain rfl : aw = false := Ctl.wf_never hw rfl
    have hop : opWithin 0x1F 0x26 (0x22 + k.toNat / 128) = true := opWithin_iff.2 (by omega)
    rw [candidateOf_int2 _ _ _ hop]
    rcases bitfn_table k with ⟨hk, hv⟩ | ⟨hk, hv⟩ <;>
      simp [rawFor, Desc.int, candInt2, opd4, hk, hv]
  | lsh | lxch | lred | lscan | lbal | lvote | lget | lput =>
    cases hd; cases hc
    obtain rfl : lo = false := Ctl.wf_long hw nofun
    rw [candidateOf_cross _ _ _ rfl]
    dsimp only [rawFor, Desc.cross, candCross, int1, opd2, opd3]
    simp
  | fadd | fsub | fmul | ffma | fmin | fmax | fminn | fmaxn | fcmp | fclass | fcvt | frnd | fscale | fsqrt | frcp | frsq | fdivs |
    fexp2 | flog2 | fsin | fcos | ftanh | fsigm | fact | tblsel | tblld | pradd | prmul | prfma =>
    cases hd; cases hc
    obtain rfl : lo = false := Ctl.wf_long hw nofun
    rw [candidateOf_fp _ _ _ rfl]
    dsimp only [rawFor, Desc.fp, candFp, fp1, fp2, fpr1, fpr2, fpr3]
    simp
  | dp4i | dp8i | dpf8 | dpf4 | mxsc | pcvt | punp | vtopk | vtopkm | argmx =>
    cases hd; cases hc
    obtain rfl : lo = false := Ctl.wf_long hw nofun
    rw [candidateOf_packed _ _ _ rfl]
    dsimp only [rawFor, Desc.int, Desc.fp, candPacked, fp2, opd4]
    simp [apply_ite Slot.code]
  | mwld | mwfm | mma | mrda | mwra | msta | mlda | mrow | mcol | msca =>
    cases hd; cases hc
    obtain rfl : lo = false := Ctl.wf_long hw nofun
    rw [candidateOf_matrix _ _ _ rfl]
    dsimp only [rawFor, Desc.mx, candMatrix]
    simp [apply_ite Slot.code]
  | ld | st | ldx | stx | ldv | stv | pref =>
    cases hd; cases hc
    obtain rfl : lo = false := Ctl.wf_long hw nofun
    obtain rfl : aw = false := Ctl.wf_never hw rfl
    rw [candidateOf_mem _ _ _ rfl]
    dsimp only [rawFor, Desc.mem, candMem, mem1]
    simp [memOf]
  | btrd | rowmap | ldsp | stsp | tlook | tset | tclr =>
    cases hd; cases hc
    obtain rfl : lo = false := Ctl.wf_long hw nofun
    rw [candidateOf_mem _ _ _ rfl]
    dsimp only [rawFor, candMem, int2, opd2]
    simp
  | restripe | rsqry | ipadd | ipsub | ipmin | ipmax | ipcpy | nbkick | nbstat | copy | copyShadow | blkcpy | waitany | waitall |
    ffrdy | tagclr | shadow | publish =>
    cases hd; cases hc
    obtain rfl : lo = false := Ctl.wf_long hw nofun
    rw [candidateOf_async _ _ _ rfl]
    dsimp only [rawFor, Desc.ip, candAsync]
    simp
  | ipmac _ ft =>
    cases hd; cases hc
    obtain rfl : lo = false := Ctl.wf_long hw nofun
    rw [candidateOf_async _ _ _ rfl]
    cases ft <;> (dsimp only [rawFor, Desc.ip, candAsync]; simp [ftx, FT.code, ftOf])
  | aadd | amin | amax | aand | aor | axor | axchg | acas =>
    cases hd; cases hc
    obtain rfl : lo = false := Ctl.wf_long hw nofun
    obtain rfl : aw = false := Ctl.wf_never hw rfl
    rw [candidateOf_sync _ _ _ rfl]
    dsimp only [rawFor, Desc.atom, Desc.mem, candSync, mem1]
    simp [memOf]
  | afadd _ ft =>
    cases hd; cases hc
    obtain rfl : lo = false := Ctl.wf_long hw nofun
    obtain rfl : aw = false := Ctl.wf_never hw rfl
    rw [candidateOf_sync _ _ _ rfl]
    cases ft <;> (dsimp only [rawFor, Desc.mem, candSync]; simp [memOf, FT.code, ftOf])
  | redop _ t o =>
    cases hd; cases hc
    obtain rfl : lo = false := Ctl.wf_long hw nofun
    obtain rfl : aw = false := Ctl.wf_never hw rfl
    rw [candidateOf_sync _ _ _ rfl]
    cases t <;> cases o <;> (dsimp only [rawFor, Desc.mem, candSync]; simp [memOf, RedT.code, redTOf, RedOp.code, redOf])
  | recon _ op =>
    cases hd; cases hc
    obtain rfl : lo = false := Ctl.wf_long hw nofun
    rw [candidateOf_sync _ _ _ rfl]
    cases op <;> (dsimp only [rawFor, candSync]; simp [apply_ite Slot.code, ReconOp.code, reconOf])
  | barr | barw | mbput | mbget | mbtry | vld | vlds | vst =>
    cases hd; cases hc
    obtain rfl : lo = false := Ctl.wf_long hw nofun
    rw [candidateOf_sync _ _ _ rfl]
    dsimp only [rawFor, candSync]
    simp
  | trap | rteReplay | gsr | ssr | clk =>
    cases hd; cases hc
    obtain rfl : lo = false := Ctl.wf_long hw nofun
    rw [candidateOf_system _ _ _ rfl]
    dsimp only [rawFor, Desc.ctl, candSystem]
    simp
  | _ => cases hc

end Sys2Proof
end

section
/-! SUPPORT. Decoding an encoded instruction gives it back, and what decodes is an encoding (R26 to R34, R40). -/

namespace Sys2Proof

/-- The numbers of a description fit their fields (R26, R27): M has AWAIT's bit free where AWAIT may be set, and format S has
no operand word. -/
structure Desc.Fits (x : Desc) : Prop where
  op : x.op < 128
  fn : x.fn < 32
  d : x.d.code < 1024
  a : x.a.code < 1024
  b : x.b.code < 1024
  c : x.c.code < 1024
  m : x.m < 4
  await : x.await ≠ .never → x.m < 2
  short : x.fmt = .S → x.a.code = 0 ∧ x.b.code = 0 ∧ x.c.code = 0 ∧ x.m = 0

/-- The numbers of every description fit: where a field packs several codes, their ranges say so. -/
theorem Instr.desc_fits {i : Instr} {d : Desc} (hd : i.desc = some d) : d.Fits := by
  cases i with
  | brc _ _ _ a =>
    cases hd
    cases a <;> constructor <;> simp [Desc.jump, Opd.code_lt, jB_lt, jC_lt, b2n_le_one, b2n_lt_four] <;> omega
  | mop _ e | lsh _ e | lvote _ e | recon _ e | punp _ e | mwld _ e | mma _ e | qbind _ _ _ _ e | cvti _ _ e | msta _ _ _ e
  | waitany _ _ _ e | waitall _ _ _ e =>
    have := e.code_lt
    cases hd
    constructor <;> simp [Desc.int, Desc.ctl, Desc.cross, Desc.mx, Opd.code_lt, itx_lt, b2n_le_one, b2n_lt_four, apply_ite Slot.code] <;> omega
  | icmp _ it p =>
    have := itx_lt it (x := p.code / 2) (by have := p.code_lt; omega)
    cases hd
    constructor <;> simp [Desc.int, Opd.code_lt, this]
    all_goals omega
  | fcvt _ x y r | pcvt _ x y r =>
    obtain ⟨hx, hy, hr⟩ := And.intro x.code_lt (And.intro y.code_lt r.code_lt)
    cases hd
    constructor <;> simp [Desc.fp, Opd.code_lt, b2n_le_one, b2n_lt_four]
    all_goals omega
  | fence _ x y =>
    obtain ⟨hx, hy⟩ := And.intro x.code_lt y.code_lt
    cases hd
    constructor <;> simp [Desc.short]
    omega
  | redop _ x y =>
    obtain ⟨hx, hy⟩ := And.intro x.code_lt y.code_lt
    cases hd
    constructor <;> simp [Desc.mem, Opd.code_lt, mC_lt, Ordr.code_lt]
    omega
  | afadd _ x =>
    have := x.code_lt
    cases hd
    constructor <;> simp [Desc.mem, Opd.code_lt, mC_lt, Ordr.code_lt]
    omega
  | movw _ hi =>
    have := b2n_le_one hi
    cases hd
    constructor <;> simp [Desc.int, Opd.code_lt] <;> omega
  | dpf8 _ x y =>
    obtain ⟨hx, hy⟩ := And.intro (b2n_le_one x) (b2n_le_one y)
    cases hd
    constructor <;> simp [Desc.fp, Opd.code_lt]
    omega
  | _ =>
    cases hd <;> constructor <;> simp [Desc.int, Desc.fp, Desc.short, Desc.ctl, Desc.jump, Desc.cross, Desc.mx, Desc.ip, Desc.atom,
      Desc.mem, Opd.code_lt, itx_lt, ftx_lt, Rnd.code_lt8, FPred.code_lt, RedOp.code_lt, Ordr.code_lt, b2n_le_one, b2n_lt_four, jB_lt, jC_lt,
      mC_lt, apply_ite Slot.code] <;> omega

theorem Desc.wf_slots {x : Desc} (h : x.wf = true) : x.d.ok = true ∧ x.a.ok = true ∧ x.b.ok = true ∧ x.c.ok = true := by
  simpa [Desc.wf, Desc.slots] using h

theorem Slot.noSr_ok {r : Rnd} {x : Slot} (h : (Slot.noSr r x).ok = true) : x.ok = true ∧ r ≠ .sr := by
  simpa [Slot.noSr] using h

theorem le_ftx_of_half {ft : FT} (h : ft.half = true) (n : Nat) : 8 ≤ ftx ft n := by
  cases ft with
  | f32 => cases h
  | _ => simp only [ftx, FT.code]; omega

theorem Rnd.code_ne_four {r : Rnd} (h : r ≠ .sr) : r.code ≠ 4 := by cases r <;> simp_all [Rnd.code]

/-- Every (OP, FN) of a well-formed instruction is listed by the map (R40): the rounding code, the type and the order that the map
leaves out are those that the entries do not accept. -/
theorem fnAssigned_desc {i : Instr} {d : Desc} (hd : i.desc = some d) (hw : d.wf = true) : fnAssigned d.op d.fn = true := by
  cases i with
  | mop _ x | lsh _ x | lvote _ x | recon _ x | afadd _ x | fcvt _ x | pcvt _ x | punp _ x | mwld _ x => cases hd; cases x <;> rfl
  | imul | imulh | imad | imin | imax | iabs | bfx | bfi | fmin | fmax | fminn | fmaxn | fsigm | fact =>
    cases hd; exact decide_eq_true (by simp [Desc.int, Desc.fp])
  | cvti _ it | ld _ it | st _ it | ldx _ it | stx _ it | ldv _ it | stv _ it | ldsp _ it | stsp _ it =>
    cases hd; exact beq_iff_eq.2 (itx_mod it (by decide))
  | fclass _ ft | argmx _ ft => cases hd; exact beq_iff_eq.2 (ftx_mod ft (by decide))
  | ipmac _ ft => cases hd; exact Bool.or_eq_true_iff.2 (.inl (beq_iff_eq.2 (ftx_mod ft (by decide))))
  | redop _ x y | dpf8 _ x y => cases hd; cases x <;> cases y <;> rfl
  | bitfn _ k =>
    cases hd
    change fnAssigned (0x22 + k.toNat / 128) (k.toNat / 4 % 32) = true
    rcases bitfn_table k with ⟨hk, -⟩ | ⟨hk, -⟩ <;> rw [hk] <;> rfl
  | mzero _ t | mrda _ _ t | mwra _ t | msta _ t | mlda _ t | mrow _ t | mcol _ t => cases hd; exact decide_eq_true t.isLt
  | ffma _ ft r | frnd _ ft r | fscale _ ft r | fsqrt _ ft r =>
    cases hd
    exact bne_iff_ne.2 ((ftx_rnd_mod ft r).trans_ne (Rnd.code_ne_four (Slot.noSr_ok (Desc.wf_slots hw).1).2))
  | prfma _ ft r =>
    cases hd
    obtain ⟨hh, hr⟩ := Slot.noSr_ok (Desc.wf_slots hw).1
    exact Bool.and_eq_true_iff.2 ⟨decide_eq_true (le_ftx_of_half (Bool.and_eq_true_iff.1 hh).2 r.code),
      bne_iff_ne.2 ((ftx_rnd_mod ft r).trans_ne (Rnd.code_ne_four hr))⟩
  | pradd _ ft r | prmul _ ft r =>
    cases hd
    exact decide_eq_true (le_ftx_of_half (Bool.and_eq_true_iff.1 (Desc.wf_slots hw).1).2 r.code)
  | fence _ o =>
    cases hd
    have ho := (Desc.wf_slots hw).1
    cases o with
    | rlx => cases ho
    | _ => exact decide_eq_true (by simp only [Desc.short, Ordr.code]; omega)
  | _ => cases hd <;> rfl

/-- AWAIT of a one-word instruction stands in its long form alone (R28). -/
theorem Ctl.wf_short {c : Ctl} {d : Desc} (h : c.wf d = true) (hf : d.fmt = .S) (hl : c.long = false) : c.await = false := by
  simpa [Ctl.wf, hf, hl] using h

/-- The fields of a well-formed instruction fit its words. -/
theorem rawFor_fits {i : Instr} {c : Ctl} {d : Desc} (hd : i.desc = some d) (hw : c.wf d = true) : (rawFor c d).Fits := by
  obtain ⟨hop, hfn, hfd, ha, hb, hc, hm, hawait, hshort⟩ := Instr.desc_fits hd
  have hM : d.m + 2 * b2n c.await < 4 := by
    by_cases h : d.await = .never
    · rw [Ctl.wf_never hw h]; exact hm
    · have := hawait h; have := b2n_lt c.await; omega
  have hS : (rawFor c d).x = false → d.fmt = .S ∧ c.long = false := by simp [rawFor]
  refine ⟨c.stall.isLt, c.scope.code_lt, hop, hfn, hfd, guardCode_lt _, ha, hb, hc, hM, fun hx => ?_⟩
  obtain ⟨hf, hl⟩ := hS hx
  obtain ⟨ha, hb, hc, hm⟩ := hshort hf
  have haw : c.await = false := Ctl.wf_short hw hf hl
  exact ⟨ha, hb, hc, by simp [rawFor, hm, haw]⟩

theorem Instr.wf_parts {i : Instr} {c : Ctl} {d : Desc} (hd : i.desc = some d) (hc : i.ctl = some c) (h : i.wf = true) :
    d.wf = true ∧ c.wf d = true := by
  simp only [Instr.wf, hd, hc, Bool.and_eq_true] at h
  exact h.1

/-- An instruction has a description where it has the fields that every encoded one carries (R26). -/
theorem Instr.desc_isSome (i : Instr) : i.desc.isSome = i.ctl.isSome := by cases i <;> rfl

theorem Instr.desc_of_ctl {i : Instr} {c : Ctl} (h : i.ctl = some c) : ∃ d, i.desc = some d :=
  Option.isSome_iff_exists.1 (by rw [Instr.desc_isSome, h]; rfl)

theorem encode_eq {i : Instr} {c : Ctl} {d : Desc} (hd : i.desc = some d) (hc : i.ctl = some c) : encode i = (rawFor c d).words := by
  simp only [encode, hd, hc]

/-- A well-formed instruction decodes from its own words, whatever follows a one-word instruction. -/
theorem decodeWords_encode {i : Instr} {c : Ctl} (hc : i.ctl = some c) (h : i.wf = true) (w : Word) :
    decodeWords ((encode i).getD 0 0) ((encode i).getD 1 w) = .ok i := by
  obtain ⟨d, hd⟩ := Instr.desc_of_ctl hc
  obtain ⟨hdw, hcw⟩ := Instr.wf_parts hd hc h
  have hraw := rawOf_words (rawFor_fits hd hcw) w
  have hcand := candidate_rawFor hd hc hcw
  have hfn : fnAssigned (rawFor c d).op (rawFor c d).fn = true := fnAssigned_desc hd hdw
  have hwords : encode i = if (rawFor c d).x then [(encode i).getD 0 0, (encode i).getD 1 w] else [(encode i).getD 0 0] := by
    rw [encode_eq hd hc, Raw.words]
    split <;> rfl
  rw [decodeWords, encode_eq hd hc, hraw, ← encode_eq hd hc]
  simp only [hfn, hcand, h, ← hwords, Bool.not_true, Bool.false_eq_true, if_false, Bool.true_and, beq_self_eq_true, if_true]

/-- Words that decode are the encoding of what they give. -/
theorem encode_of_decodeWords {w0 w1 : Word} {i : Instr} (h : decodeWords w0 w1 = .ok i) :
    i.wf = true ∧ encode i = if (rawOf w0 w1).x then [w0, w1] else [w0] := by
  simp only [decodeWords] at h
  generalize (if (rawOf w0 w1).x then [w0, w1] else [w0]) = ws at h ⊢
  split at h
  · cases h
  · split at h
    · cases h
    · split at h
      · next hok =>
        cases h
        simpa using hok
      · cases h

/-- Settles O53: fields that fit are read back from the words, and their one candidate is the instruction, class by class. -/
theorem decodeEncodeAgree : Obligations.DecodeEncodeAgree := by
  unfold Obligations.DecodeEncodeAgree
  exact ⟨fun i c hc h w => decodeWords_encode hc h w, fun w0 w1 i h => encode_of_decodeWords h⟩

end Sys2Proof
end

section
/-! SUPPORT. A write that lands: the register file that it names, what its register holds then, and what it leaves (R36, R37, R117). -/

namespace Sys2Proof.Machine

theorem Write.regV_apply_other (g : Group) {w : Write} {n : Nat} (h : w.code ≠ n) : regV (w.apply g) n = regV g n := by
  cases w with
  | v k m x => exact nth_modAt_other _ _ _ (Ne.symm h)
  | _ => rfl

theorem Write.regS_apply_other (g : Group) {w : Write} {n : Nat} (h : w.code ≠ 0x100 + n) : regS (w.apply g) n = regS g n := by
  cases w with
  | s k x => exact nth_setAt_other _ _ _ (fun e => h (by rw [e, Write.code]))
  | _ => rfl

theorem Write.regY_apply_other (g : Group) {w : Write} {n : Nat} (h : w.code ≠ 0x300 + n) : regY (w.apply g) n = regY g n := by
  cases w with
  | y k m x => exact nth_modAt_other _ _ _ (fun e => h (by rw [e, Write.code]))
  | _ => rfl

theorem Write.regM_apply_other (g : Group) {w : Write} {n : Nat} (h : w.code ≠ 0x350 + n) : regM (w.apply g) n = regM g n := by
  cases w with
  | m k l b => exact nth_modAt_other _ _ _ (fun e => h (by rw [e, Write.code]))
  | _ => rfl

theorem Write.regLc_apply_other (g : Group) {w : Write} {n : Nat} (h : w.code ≠ 0x369 + n) : regLc (w.apply g) n = regLc g n := by
  cases w with
  | lc k x => exact nth_setAt_other _ _ _ (fun e => h (by rw [e, Write.code]))
  | _ => rfl

theorem Write.regQ_apply_other (g : Group) {w : Write} {n : Nat} (h : w.code ≠ 0x340 + n) : regQ (w.apply g) n = regQ g n := by
  cases w with
  | q k x => exact nth_setAt_other _ _ _ (fun e => h (by rw [e, Write.code]))
  | _ => rfl

theorem Write.fpstat_apply_other (g : Group) {w : Write} (h : w.code ≠ 0x3FE) : (w.apply g).fpstat = g.fpstat := by
  cases w with
  | flags f => exact absurd rfl h
  | _ => rfl

theorem Write.regV_apply_v (g : Group) {n i : Nat} (m : Mask) {x : Lanes} (hn : n < g.v.length) (hl : (regV g n).length = W)
    (hx : x.length = W) (hi : i < W) :
    nth 0 (regV ((Write.v n m x).apply g) n) i = if laneBit m i then nth 0 x i else nth 0 (regV g n) i := by
  show nth 0 (nth [] (modAt g.v n _) n) i = _
  rw [nth_modAt_same _ _ _ _ hn]
  exact nth_mergeLanes m _ x i (hl.trans hx.symm) (by rw [← hl] at hi; exact hi)

theorem Write.regY_apply_y (g : Group) {n i : Nat} (m : Mask) {x : Lanes} (hn : n < g.y.length) (hl : (regY g n).length = W)
    (hx : x.length = W) (hi : i < W) :
    nth 0 (regY ((Write.y n m x).apply g) n) i = if laneBit m i then nth 0 x i else nth 0 (regY g n) i := by
  show nth 0 (nth [] (modAt g.y n _) n) i = _
  rw [nth_modAt_same _ _ _ _ hn]
  exact nth_mergeLanes m _ x i (hl.trans hx.symm) (by rw [← hl] at hi; exact hi)

/-- A mask merged under another takes its bits in the lanes of that one and keeps the old ones elsewhere. -/
theorem laneBit_merge (o l b : Mask) {i : Nat} (hi : i < W) :
    laneBit ((o &&& ~~~l) ||| (b &&& l)) i = if laneBit l i then laneBit b i else laneBit o i := by
  have hi : i < 64 := hi
  simp only [laneBit, BitVec.getLsbD_or, BitVec.getLsbD_and, BitVec.getLsbD_not, hi, decide_true, Bool.true_and]
  by_cases h : l.getLsbD i = true <;> simp [h]

theorem Write.regM_apply_m (g : Group) {n i : Nat} (m b : Mask) (hn : n < g.m.length) (hi : i < W) :
    laneBit (regM ((Write.m n m b).apply g) n) i = if laneBit m i then laneBit b i else laneBit (regM g n) i := by
  show laneBit (nth 0 (modAt g.m n _) n) i = _
  rw [nth_modAt_same _ _ _ _ hn]
  exact laneBit_merge (regM g n) m b hi

/-- What a write leaves of its group but for the register files and FPSTAT. -/
theorem Write.apply_frame (g : Group) (w : Write) :
    w.apply g = { g with v := (w.apply g).v, s := (w.apply g).s, y := (w.apply g).y, m := (w.apply g).m, lc := (w.apply g).lc,
                         q := (w.apply g).q, fpstat := (w.apply g).fpstat } := by
  cases w <;> rfl

/-- Settles O59: each kind of write by its own register file; entries of a list after a write, and lanes after a merge. -/
theorem landingWritesItsRegisterOnly : Obligations.LandingWritesItsRegisterOnly := by
  unfold Obligations.LandingWritesItsRegisterOnly
  intro g w
  refine ⟨fun _ => w.regV_apply_other g, fun _ => w.regS_apply_other g, fun _ => w.regY_apply_other g, fun _ => w.regM_apply_other g,
    fun _ => w.regLc_apply_other g, fun _ => w.regQ_apply_other g, w.fpstat_apply_other g, ?_, ?_, ?_, ?_, ?_, ?_, ?_, w.apply_frame g⟩
  · rintro n m x i rfl hn hl hx hi; exact Write.regV_apply_v g m hn hl hx hi
  · rintro n m x i rfl hn hl hx hi; exact Write.regY_apply_y g m hn hl hx hi
  · rintro n m b i rfl hn hi; exact Write.regM_apply_m g m b hn hi
  · rintro n x rfl hn; exact nth_setAt_same 0 g.s n x hn
  · rintro n x rfl hn; exact nth_setAt_same 0 g.lc n x hn
  · rintro n x rfl hn; exact nth_setAt_same none g.q n x hn
  · rintro f rfl; rfl

end Sys2Proof.Machine
end

section
/-! SUPPORT. The meanings of the steps of the part that the proofs below speak of, one equation each (R24, R37, R40, R88, R98, R164, R211,
R319, R381). -/

namespace Sys2Proof.Machine

theorem exec_clauseFetch (k : GKey) (s : State) : exec (.clauseFetch k) s = execClauseFetch k s := rfl
theorem exec_unassignedEncoding (w : Word) (s : State) : exec (.unassignedEncoding w) s = execUnassignedEncoding w s := rfl
theorem exec_resultWrite (k : GKey) (n : Nat) (s : State) : exec (.resultWrite k n) s = execResultWrite k n s := rfl
theorem exec_checksDecided (k : GKey) (s : State) : exec (.checksDecided k) s = execChecksDecided k s := rfl
theorem exec_streamPrefetch (k : GKey) (q : QReg) (s : State) : exec (.streamPrefetch k q) s = execStreamPrefetch k q s := rfl
theorem exec_instanceIssue (n : Nat) (s : State) : exec (.instanceIssue n) s = execInstanceIssue n s := rfl
theorem exec_readCopyExpiry (die line : Nat) (s : State) : exec (.readCopyExpiry die line) s = execReadCopyExpiry die line s := rfl
theorem exec_tblldLoadComplete (k : CKey) (bank : Nat) (s : State) :
    exec (.tblldLoadComplete k bank) s = execTblldLoadComplete k bank s := rfl
theorem exec_ctxCreate (x : Cmd) (s : State) : exec (.ctxCreate x) s = execCtxCreate x s := rfl
theorem exec_ctxHalt (x : Cmd) (s : State) : exec (.ctxHalt x) s = execCtxHalt x s := rfl
theorem exec_ctxDestroy (x : Cmd) (s : State) : exec (.ctxDestroy x) s = execCtxDestroy x s := rfl
theorem exec_ctxAnnex (x : Cmd) (s : State) : exec (.ctxAnnex x) s = execCtxAnnex x s := rfl
theorem exec_slotLoad (x : Cmd) (s : State) : exec (.slotLoad x) s = execSlotLoad x s := rfl
theorem exec_frameRef (x : Cmd) (s : State) : exec (.frameRef x) s = execFrameRef x s := rfl
theorem exec_bufAdopt (x : Cmd) (s : State) : exec (.bufAdopt x) s = execBufAdopt x s := rfl

end Sys2Proof.Machine
end

section
/-! SUPPORT. A step: the move that it chooses, and the step where that move answers a next state (R35, R364). -/

namespace Sys2Proof.Machine

theorem State.fetched_of_decode {s : State} {g : Group} {pc : Word} {i : Instr}
    (h : decodeWords (s.codeWord g pc) (s.codeWord g (pc + 4)) = .ok i) : s.fetched g pc = i := by
  simp only [State.fetched, State.instrAt, h]

/-- In a clause inside its image, and at no breakpoint that stops it, a group issues the instruction there (R35, R331). -/
theorem State.groupMove_issue {s : State} {g : Group} {pc : Word} {p : ClausePos} (hp : g.nextPoint = some (pc, some p))
    (hi : s.pastImage g pc true = false) (hb : s.atBreak g = false ∨ g.stepOne = true) :
    s.groupMove g = some (.issue g.key (s.fetched g pc) (s.issueAt g pc p)) := by
  have hb : (s.atBreak g && !g.stepOne) = false := by rcases hb with h | h <;> simp [h]
  simp [State.groupMove, hp, hi, hb]

/-- A step whose move answers a next state is that state, after which time goes on. -/
theorem step_of_move {s t : State} {m : Move} (hm : s.land.nextMove? = some m) (ht : s.land.perform1 m = .next t) :
    step s = .next t.tickOn := by
  simp only [step, hm, ht]

/-- Where free choice takes the first of the moves, it is the next one. -/
theorem State.nextMove?_first {s : State} {m : Move} {ms : List Move} (hm : s.moves = m :: ms) (ht : s.turn % s.moves.length = 0) :
    s.nextMove? = some m := by
  rw [State.nextMove?, ht, hm]
  rfl

/-- The one comer of a partition issues, unless its instruction, which has held it, would hold it again (R363, R364). -/
theorem State.partMoves_one {s : State} {p : PKey} {g : Group} {i : Instr} {cur : Issue} (hc : s.comers p = [(g, .issue g.key i cur)])
    (hh : g.heldSince = none ∨ s.wouldHold g.key i cur = false) : s.partMoves p = [.issue g.key i cur] := by
  have hh : (g.heldSince.isSome && s.wouldHold g.key i cur) = false := by rcases hh with h | h <;> simp [h]
  simp only [State.partMoves, hc]
  rw [hh]
  rfl

/-- The issues of the partitions come first among the moves. -/
theorem State.moves_parts {s : State} {p : PKey} {ps : List PKey} {m : Move} (hp : s.powered = true) (hi : s.issuing = none)
    (hu : s.usedParts = p :: ps) (hm : s.partMoves p = [m]) : ∃ ms, s.moves = m :: ms := by
  simp only [State.moves, hp, hi, hu, List.flatMap_cons, hm]
  exact ⟨_, rfl⟩

/-- Where lanes of a wider scope are complete and issue next, that issue is all that can happen (R98). -/
theorem State.moves_issuing {s : State} {iss : Issue} {m : Member} {ms : List Member} {g : Group} (hp : s.powered = true)
    (hi : s.issuing = some iss) (hm : iss.members = m :: ms) (hg : s.group? m.key = some g) :
    s.moves = [.exec (s.fetched g iss.pc) iss] := by
  simp [State.moves, hp, hi, hm, hg]

/-- Settles O54: the move that each case leaves as the first one, and the step that performs it. -/
theorem stepRunsTheInstruction : Obligations.StepRunsTheInstruction := by
  unfold Obligations.StepRunsTheInstruction
  refine ⟨fun s g pc i h => State.fetched_of_decode h, fun s g pc p hp hi hb => State.groupMove_issue hp hi hb, ?_, ?_⟩
  · intro s p ps g i cur t u hp hi ht hu hc hh he
    obtain ⟨ms, hm⟩ := State.moves_parts hp hi hu (State.partMoves_one hc hh)
    exact step_of_move (State.nextMove?_first hm (by rw [ht, Nat.zero_mod])) he
  · intro s iss m ms g t u hp hi hm hg he
    have hmv := State.moves_issuing hp hi hm hg
    exact step_of_move (State.nextMove?_first hmv (by rw [hmv]; exact Nat.mod_one _)) he

end Sys2Proof.Machine
end

section
/-! SUPPORT. An encoded instruction is an issue, which answers a next state where it names a group; every move that a step may choose
answers one (R35, R209, R319, R364). -/

namespace Sys2Proof.Machine

/- ### Encoded instructions -/

/-- The meaning of an encoded instruction is the issue that all of them share, with an effect of its own. -/
theorem exec_eq_issueWith {i : Instr} {c : Ctl} (hc : i.ctl = some c) (s : State) : ∃ b eff, exec i s = issueWith b i c s eff := by
  cases i <;> cases hc <;> exact ⟨_, _, rfl⟩

/-- Where the issue names a group, an encoded instruction answers a next state. -/
theorem exec_encoded_next {i : Instr} {c : Ctl} {s : State} {g : Group} (hc : i.ctl = some c) (hg : s.issuer = some g) :
    ∃ t, exec i s = .next t := by
  obtain ⟨d, hd⟩ := Instr.desc_of_ctl hc
  obtain ⟨b, eff, he⟩ := exec_eq_issueWith hc s
  rw [he]
  exact issueWith_next hd hg

/-- Settles O55: the issue that every encoded instruction shares answers a next state. -/
theorem encodedInstructionNeverStops : Obligations.EncodedInstructionNeverStops := by
  unfold Obligations.EncodedInstructionNeverStops
  exact fun i c s g => exec_encoded_next

/-- Words decode to encoded instructions alone. -/
theorem ctl_of_decodeWords {w0 w1 : Word} {i : Instr} (h : decodeWords w0 w1 = .ok i) : ∃ c, i.ctl = some c := by
  have he := (encode_of_decodeWords h).2
  cases hc : i.ctl with
  | some c => exact ⟨c, rfl⟩
  | none =>
    have : encode i = [] := by simp only [encode, hc]; split <;> simp_all
    rw [this] at he
    split at he <;> cases he

theorem State.issuer_members {s : State} {g : Group} (h : s.issuer = some g) : ∃ m ms, s.cur.members = m :: ms := by
  cases hm : s.cur.members with
  | nil => simp [State.issuer, hm] at h
  | cons m ms => exact ⟨m, ms, rfl⟩

/-- The instruction at a code address, decoded or unassigned, answers a next state where the issue names a group. -/
theorem exec_fetched_next (s0 : State) (g0 : Group) (pc : Word) {s : State} {g : Group} (hg : s.issuer = some g) :
    ∃ t, exec (s0.fetched g0 pc) s = .next t := by
  unfold State.fetched
  split
  · next i hi =>
    obtain ⟨c, hc⟩ := ctl_of_decodeWords hi
    exact exec_encoded_next hc hg
  · obtain ⟨m, ms, hm⟩ := State.issuer_members hg
    exact ⟨_, by simp only [exec_unassignedEncoding, execUnassignedEncoding, hm]; rfl⟩

/- ### Moves -/

/-- The move answers a next state. -/
def State.Performs (s : State) (m : Move) : Prop := ∃ t, s.perform1 m = .next t

theorem State.performs_of_enabled {s : State} {i : Instr} (h : s.enabled i = true) : s.Performs (.exec i Issue.idle) := by
  unfold State.enabled at h
  split at h
  · next t ht => exact ⟨t, ht⟩
  · cases h

theorem State.group?_isSome_of_mem {s : State} {g : Group} (h : g ∈ s.groups) : ∃ x, s.group? g.key = some x := by
  rw [← Option.isSome_iff_exists, State.group?, List.find?_isSome]
  exact ⟨g, h, beq_self_eq_true _⟩

/-- A group's own move is the issue of what stands there, or an event or stop of the part. -/
theorem State.groupMove_issue_eq {s : State} {g : Group} {k : GKey} {i : Instr} {cur : Issue} (h : s.groupMove g = some (.issue k i cur)) :
    ∃ pc p, k = g.key ∧ i = s.fetched g pc ∧ cur = s.issueAt g pc p := by
  unfold State.groupMove at h
  split at h
  · cases h
  · next pc pos _ =>
    split at h
    · cases h
    · next p _ =>
      split at h
      · cases h
      · split at h
        · cases h
        · cases h; exact ⟨pc, p, rfl, rfl, rfl⟩

/-- The issue of a group's own instruction answers a next state. -/
theorem State.performs_issue {s : State} {g : Group} {k : GKey} {i : Instr} {cur : Issue} (hg : g ∈ s.groups)
    (h : s.groupMove g = some (.issue k i cur)) : s.Performs (.issue k i cur) := by
  obtain ⟨pc, p, rfl, rfl, rfl⟩ := State.groupMove_issue_eq h
  obtain ⟨x, hx⟩ := State.group?_isSome_of_mem hg
  have hi : (s.atIssue g.key (s.issueAt g pc p)).issuer = some { x with heldSince := none } :=
    State.group?_modGroup_same (f := fun g => { g with heldSince := none }) (fun _ => rfl) hx
  exact exec_fetched_next s g pc hi

/-- Complete lanes of a wider scope that may issue do (R98). -/
theorem State.performs_instance {s : State} {n : Nat} {x : Instance} (hs : s.issuing = none) (hx : s.instances[n]? = some x)
    (hm : s.instanceMay x = true) : s.Performs (.exec (.instanceIssue n) Issue.idle) := by
  have h1 : ({ s with cur := Issue.idle, issuing := none } : State).instanceMay x = true := by
    rw [← hm, ← hs]; rfl
  exact ⟨_, by simp only [State.perform1, exec_instanceIssue, execInstanceIssue, hx, h1]; rfl⟩

theorem State.performs_of_instanceComer {s : State} {p : PKey} (hs : s.issuing = none) {x : Group × Move} (hx : x ∈ s.instanceComers p) :
    s.Performs x.2 := by
  obtain ⟨⟨y, n⟩, hy, he⟩ := List.mem_filterMap.1 hx
  split at he
  · split at he
    · next hc =>
      cases he
      simp only [Bool.and_eq_true] at hc
      obtain ⟨⟨⟨_, hmay⟩, _⟩, _⟩ := hc
      exact State.performs_instance hs (List.mem_zipIdx_iff_getElem?.1 hy) hmay
    · cases he
  · cases he

/-- Every group that comes to its partition's choice has a move that answers a next state. -/
theorem State.performs_of_comer {s : State} {p : PKey} (hs : s.issuing = none) {x : Group × Move} (hx : x ∈ s.comers p) :
    s.Performs x.2 := by
  unfold State.comers at hx
  split at hx
  · cases hx
  · simp only at hx
    split at hx
    · cases hx
    · next hall =>
      rcases List.mem_append.1 hx with hx | hx
      · have hnot := hall
        rw [Bool.not_eq_true, List.any_eq_false] at hnot
        have hm := hnot x hx
        obtain ⟨g, hg, he⟩ := List.mem_filterMap.1 hx
        obtain ⟨m, hgm, rfl⟩ := Option.map_eq_some_iff.1 he
        cases m with
        | issue k i cur => exact State.performs_issue (List.mem_filter.1 hg).1 hgm
        | _ => simp at hm
      · exact State.performs_of_instanceComer hs hx

theorem State.choose_mem {s : State} {p : PKey} {r : List (Group × Move)} {x : Group × Move} (h : s.choose p r = some x) : x ∈ r := by
  obtain ⟨j, _, hj⟩ := List.exists_of_findSome?_eq_some h
  have h1 := (List.mem_filter.1 (List.mem_of_find?_eq_some hj)).1
  split at h1
  · exact (List.mem_filter.1 h1).1
  · exact h1

/-- What a partition may choose is the move of one that comes to its choice. -/
theorem State.partMoves_comers {s : State} {p : PKey} {m : Move} (h : m ∈ s.partMoves p) : ∃ x ∈ s.comers p, x.2 = m := by
  unfold State.partMoves at h
  extract_lets holds at h
  split at h
  · next x hx =>
    split at h
    · cases h
    · exact ⟨x, by rw [hx]; exact List.mem_singleton_self x, (List.mem_singleton.1 h).symm⟩
  · rcases List.mem_append.1 h with h | h
    · obtain ⟨x, hx, rfl⟩ := Option.map_eq_some_iff.1 (Option.mem_toList.1 h)
      exact ⟨x, (List.mem_filter.1 (State.choose_mem hx)).1, rfl⟩
    · obtain ⟨x, hx, rfl⟩ := List.mem_map.1 h
      exact ⟨x, (List.mem_filter.1 (List.mem_filter.1 hx).1).1, rfl⟩

theorem State.performs_of_side {s : State} {m : Move} (h : m ∈ s.sideMoves) : s.Performs m := by
  obtain ⟨g, _, he⟩ := List.mem_filterMap.1 h
  split at he
  · split at he
    · split at he
      · next hen => cases he; exact State.performs_of_enabled hen
      · cases he
    · cases he
  · cases he

theorem State.performs_of_event {s : State} {m : Move} (h : m ∈ s.eventMoves) : s.Performs m := by
  obtain ⟨i, hi, rfl⟩ := List.mem_map.1 h
  have := (List.mem_filter.1 hi).2
  simp only [Bool.and_eq_true] at this
  exact State.performs_of_enabled this.1.1

theorem State.performs_of_memory {s : State} {m : Move} (h : m ∈ s.memoryMoves) : s.Performs m := by
  rcases List.mem_append.1 h with h | h
  · obtain ⟨g, _, h⟩ := List.mem_flatMap.1 h
    split at h
    · cases h
    · obtain ⟨n, _, he⟩ := List.mem_filterMap.1 h
      split at he
      · split at he
        · cases he; exact ⟨_, rfl⟩
        · cases he
      · cases he
  · obtain ⟨c, _, h⟩ := List.mem_flatMap.1 h
    obtain ⟨b, _, he⟩ := List.mem_filterMap.1 h
    split at he
    · split at he
      · cases he; exact ⟨_, rfl⟩
      · cases he
    · cases he

/-- A command answers a next state where none is under way. -/
theorem command_next {x : Cmd} {s : State} {f : State → State × Option Nat} (h : s.cmdBusy = false) : ∃ t, command x s f = .next t := by
  unfold command
  rw [h]
  simp only [Bool.false_eq_true, if_false]
  split
  · exact ⟨_, rfl⟩
  · split <;> exact ⟨_, rfl⟩

/-- The instruction of a CODE is a command, which answers a next state where none is under way. -/
theorem exec_cmdInstr_next {code : Nat} {x : Cmd} {i : Instr} {s : State} (hi : cmdInstr code x = some i) (h : s.cmdBusy = false) :
    ∃ t, exec i s = .next t := by
  unfold cmdInstr at hi
  split at hi <;> cases hi <;>
    simp only [exec_ctxCreate, exec_ctxHalt, exec_ctxDestroy, exec_ctxAnnex, exec_slotLoad, exec_frameRef, exec_bufAdopt,
      execCtxCreate, execCtxHalt, execCtxDestroy, execCtxAnnex, execSlotLoad, execFrameRef, execBufAdopt, command_next h]

theorem State.performs_of_command {s : State} {m : Move} (h : m ∈ s.commandMoves) : s.Performs m := by
  unfold State.commandMoves at h
  split at h
  · cases h
  · split at h
    · cases h
    · next bs hbs =>
      have hb : s.cmdBusy = false := by
        cases hb : s.cmdBusy with
        | false => rfl
        | true => simp [State.cmdNext, hb] at hbs
      split at h
      · next i hi =>
        cases List.mem_singleton.1 h
        exact exec_cmdInstr_next (s := { s with cur := Issue.idle, issuing := none }) hi hb
      · cases List.mem_singleton.1 h
        exact ⟨_, rfl⟩

theorem State.performs_of_landing {s : State} {m : Move} {n : Nat} {l : List Outside} (h : m ∈ s.landsFrom n l) : s.Performs m := by
  induction l generalizing n with
  | nil => cases h
  | cons x t ih =>
    unfold State.landsFrom at h
    split at h
    · cases List.mem_singleton.1 h
      exact ⟨_, rfl⟩
    · exact ih h

/-- Whatever can happen at a step answers a next state. -/
theorem State.performs_of_move {s : State} {m : Move} (h : m ∈ s.moves) : s.Performs m := by
  unfold State.moves at h
  split at h
  · exact State.performs_of_landing h
  · split at h
    · next iss _ =>
      split at h
      · next g hg =>
        cases List.mem_singleton.1 h
        obtain ⟨x, hx, hg⟩ := Option.bind_eq_some_iff.1 hg
        have hi : ({ s with cur := iss, issuing := none } : State).issuer = some g := by
          obtain ⟨ms, hms⟩ : ∃ ms, iss.members = x :: ms := by
            cases hm : iss.members with
            | nil => simp [hm] at hx
            | cons y ms => simp [hm] at hx; exact ⟨ms, by rw [hx]⟩
          simp only [State.issuer, hms]
          exact hg
        exact exec_fetched_next s g iss.pc hi
      · cases h
    · next hs =>
      simp only [List.mem_append] at h
      rcases h with ((((h | h) | h) | h) | h) | h
      · obtain ⟨p, _, h⟩ := List.mem_flatMap.1 h
        obtain ⟨x, hx, rfl⟩ := State.partMoves_comers h
        exact State.performs_of_comer hs hx
      · exact State.performs_of_side h
      · exact State.performs_of_memory h
      · exact State.performs_of_event h
      · exact State.performs_of_command h
      · exact State.performs_of_landing h

/-- A step answers a next state. -/
theorem State.steps (s : State) : s.Steps := by
  unfold State.Steps
  cases hm : s.land.nextMove? with
  | none => exact ⟨s.land.tickOn, by simp only [step, hm]⟩
  | some m =>
    obtain ⟨t, ht⟩ := State.performs_of_move (List.mem_of_getElem? hm)
    exact ⟨_, step_of_move hm ht⟩

/-- A machine that steps from every state runs on. -/
theorem State.runsOn (s : State) : s.RunsOn := by
  intro k
  induction k generalizing s with
  | zero => exact ⟨s, rfl⟩
  | succ k ih =>
    obtain ⟨t, ht⟩ := s.steps
    obtain ⟨u, hu⟩ := ih t
    have hc : Sys2Proof.core.step s = .next t := ht
    exact ⟨u, by simp only [Host.Core.run, hc, hu]⟩

/-- Settles O56: each move that can be chosen answers a next state, so that a step does, and a run step by step. -/
theorem stepNeverStops : Obligations.StepNeverStops := by
  unfold Obligations.StepNeverStops
  exact fun s => ⟨s.steps, s.runsOn⟩

end Sys2Proof.Machine
end

section
/-! SUPPORT. The words of the spec's own tables and examples (R28, R44, R45). -/

namespace Sys2Proof

/-- Settles O52: the decoder, run on each of the words. -/
theorem specWordsDecode : Obligations.SpecWordsDecode := by
  unfold Obligations.SpecWordsDecode
  decide

end Sys2Proof
end

section
/-! SUPPORT. The events by which something arrives, where each can occur: results, checks, walks, instances, read copies and table
loads (R37, R88, R98, R164, R211, R319). -/

namespace Sys2Proof.Machine

/-- The writes with which an instruction in flight lands: those of its entry after its pending accesses, if it still stands there. -/
def State.landing (s : State) (k : GKey) (n : Nat) (e : InFlight) : List Write :=
  match (s.group? k).bind (fun g => g.inFlight[n]?) with
  | some e1 => e1.writes
  | none => e.writes

theorem execResultWrite_next {s : State} {k : GKey} {n : Nat} {g : Group} {e : InFlight} (hg : s.group? k = some g)
    (he : g.inFlight[n]? = some e) (hd : e.due = none) (ht : e.token = none) :
    exec (.resultWrite k n) s = .next (((s.performIssue k e.issue).modGroup k (fun g => Write.applyAll
      { g with inFlight := g.inFlight.eraseIdx n, sb := modAt g.sb e.sb (fun x => x - 1) }
      ((s.performIssue k e.issue).landing k n e))).settle k) := by
  simp only [exec_resultWrite, execResultWrite, hg, he, hd, ht, Option.bind_some, Option.isSome_none, Bool.or_self, Bool.false_eq_true, if_false]
  rfl

theorem execChecksDecided_next {s : State} {k : GKey} {g : Group} (hg : s.group? k = some g) (hc : g.checks = true)
    (hd : g.deciding = none) :
    exec (.checksDecided k) s = .next ((s.devLoadsFirst k allLanes).modGroup k (fun g => { g with checks := false })) := by
  simp only [exec_checksDecided, execChecksDecided, hg, hc, hd, Bool.not_true, Bool.false_eq_true, if_false]

/-- A walk's next step is fetched behind the acquires of its group, from the lines that it reaches. -/
theorem State.qFetch_eq {s : State} {k : GKey} {g : Group} (hg : s.group? k = some g) (n : Nat) (b : QBind) :
    s.qFetch k n b = ((s.letPass k allLanes (fun _ => true)).qReach g b.fetching).modGroup k (fun h =>
      { h with q := setAt h.q n (some { b with ahead := b.ahead ++
        [((s.letPass k allLanes (fun _ => true)).qReach g b.fetching).qFetchFrom g b.fetching (List.range W)] }) }) := by
  simp only [State.qFetch, hg]

theorem execStreamPrefetch_next {s : State} {k : GKey} {g : Group} {q : QReg} {b : QBind} (hg : s.group? k = some g)
    (hq : regQ g q.toNat = some b) (hb : b.empty = false) (hr : g.resident = true) (ht : s.qTransit g b = false) :
    exec (.streamPrefetch k q) s = .next (s.qFetch k q.toNat b) := by
  simp only [exec_streamPrefetch, execStreamPrefetch, hg, hq, hb, hr, ht, Bool.not_true, Bool.or_self, Bool.false_eq_true, if_false]

theorem execInstanceIssue_next {s : State} {n : Nat} {i : Instance} (hi : s.instances[n]? = some i) (hm : s.instanceMay i = true) :
    exec (.instanceIssue n) s = .next { s with issuing := some i.iss, instances := s.instances.eraseIdx n } := by
  simp only [exec_instanceIssue, execInstanceIssue, hi, hm, if_true]

theorem execTblldLoadComplete_next {s : State} {ck : CKey} {bank : Nat} {l : TblLoad} (hl : firstLoad (s.core ck).loads bank = some l)
    (hr : l.running = true) :
    exec (.tblldLoadComplete ck bank) s = .next ((s.setCore { s.core ck with
      tables := modAt (s.core ck).tables bank (fun _ => ⟨some l.ctx, (List.range tableBytes).foldl (fun m j =>
        Sparse.set (0 : Byte) m j (Sparse.get (0 : Byte) (s.core ck).sp (l.off + j))) []⟩)
      loads := (s.core ck).loads.map (fun x => if x == l then { x with running := false, done := true } else x) }).modGroup l.key
        (fun g => { g with heldSince := none })) := by
  simp only [exec_tblldLoadComplete, execTblldLoadComplete, hl, hr, Bool.not_true, Bool.false_eq_true, if_false]

/-- Settles O40: each event's condition, and the state that it then leaves. -/
theorem arrivalEvents : Obligations.ArrivalEvents := by
  unfold Obligations.ArrivalEvents
  refine ⟨?result, ?checks, ?prefetch, ?issue, ?copy, ?load⟩
  case result => exact fun s k n g e hg he hd ht => execResultWrite_next hg he hd ht
  case checks => exact fun s k g hg hc hd => execChecksDecided_next hg hc hd
  case prefetch =>
    intro s k g q b hg hq hb hr ht
    rw [execStreamPrefetch_next hg hq hb hr ht, State.qFetch_eq hg]
  case issue => exact fun s n i hi hm => execInstanceIssue_next hi hm
  case copy =>
    intro s die line h
    simp only [exec_readCopyExpiry, execReadCopyExpiry, h, if_true]
  case load => exact fun s ck bank l hl hr => execTblldLoadComplete_next hl hr

end Sys2Proof.Machine
end

section
/-! SUPPORT. The checks before an issue, in their order: the registers within the budget and the party's, what a handler may run,
the scopes, and the scoreboard (R38, R43, R107, R109, R322, R393). -/

namespace Sys2Proof.Machine

/- ### The registers of a field -/

/-- The v and s registers of a field lie within the budget, or none of them is read or written (R393). -/
def SlotInBudget (g : Group) (x : Slot) : Prop :=
  x.use = .none ∨ ((∀ n, x.opd = some (.v n) → n.toNat + x.run ≤ g.nv) ∧ (∀ n, x.opd = some (.s n) → n.toNat + x.run ≤ g.ns))

/-- The y registers of a field are the party's (R107). -/
def SlotInParty (g : Group) (x : Slot) : Prop := ∀ n, x.opd = some (.y n) → n.toNat + x.run ≤ g.ny

theorem slotBudget_of_v {g : Group} {x : Slot} {n : BitVec 8} (hu : x.use ≠ .none) (ho : x.opd = some (.v n)) (hn : g.nv < n.toNat + x.run) :
    slotBudget g x = some (max n.toNat g.nv) := by simp [slotBudget, hu, ho, hn]

theorem slotBudget_of_s {g : Group} {x : Slot} {n : SReg} (hu : x.use ≠ .none) (ho : x.opd = some (.s n)) (hn : g.ns < n.toNat + x.run) :
    slotBudget g x = some (0x100 + max n.toNat g.ns) := by simp [slotBudget, hu, ho, hn]

theorem slotParty_of_y {g : Group} {x : Slot} {n : BitVec 6} (ho : x.opd = some (.y n)) (hn : g.ny < n.toNat + x.run) :
    slotParty g x = some (0x300 + max n.toNat g.ny) := by simp [slotParty, ho, hn]

theorem slotBudget_eq_none {g : Group} {x : Slot} (h : SlotInBudget g x) : slotBudget g x = none := by
  unfold slotBudget
  rcases h with hu | ⟨hv, hs⟩
  · simp [hu]
  · split
    · rfl
    · split
      · next n ho => exact if_neg (Nat.not_lt.2 (hv n ho))
      · next n ho => exact if_neg (Nat.not_lt.2 (hs n ho))
      · rfl

theorem slotParty_eq_none {g : Group} {x : Slot} (h : SlotInParty g x) : slotParty g x = none := by
  unfold slotParty
  split
  · next n ho => exact if_neg (Nat.not_lt.2 (h n ho))
  · rfl

/-- The first field that a check finds, behind fields that it passes. -/
theorem findSome?_append_cons {f : Slot → Option Nat} {pre post : List Slot} {x : Slot} {r : Nat} (hp : ∀ y ∈ pre, f y = none)
    (hx : f x = some r) : (pre ++ x :: post).findSome? f = some r := by
  rw [List.findSome?_append, List.findSome?_eq_none_iff.2 hp, Option.none_or, List.findSome?_cons, hx]

/- ### The order of the checks -/

section order
variable {i : Instr} {c : Ctl} {d : Desc} {s : State} {g : Group}

/-- The core has the units that the instruction needs. -/
def HasUnit (d : Desc) (s : State) (g : Group) : Prop := classOf d.op = some 3 → s.coreClass g.core % 2 = 0

/-- The instruction passes the checks that raise ILLEGAL_ENC. -/
structure LegalHere (i : Instr) (c : Ctl) (d : Desc) (s : State) (g : Group) : Prop where
  unit : HasUnit d s g
  budget : ∀ x ∈ s.budgetSlots g i c d, SlotInBudget g x
  rte : isRte i = true → s.cur.phase = .handler
  recon : s.reconOdd c i = false
  handler : s.cur.phase = .handler →
    notInHandler i = false ∧ classOf d.op ≠ some 3 ∧ (vectorForm d = true → isLaneReach i = true)

theorem HasUnit.check (hu : HasUnit d s g) : (classOf d.op == some 3 && s.coreClass g.core % 2 == 1) = false := by
  by_cases h : classOf d.op = some 3
  · simp [hu h]
  · simp [h]

theorem findSome?_slotBudget_eq_none (hb : ∀ x ∈ s.budgetSlots g i c d, SlotInBudget g x) :
    (s.budgetSlots g i c d).findSome? (slotBudget g) = none := List.findSome?_eq_none_iff.2 fun x hx => slotBudget_eq_none (hb x hx)

theorem precheck_of_budget {r : Nat} (hu : HasUnit d s g) (hr : (s.budgetSlots g i c d).findSome? (slotBudget g) = some r) :
    precheck i c d s g = some (s.pointFault .illegalEnc r 0) := by
  simp only [precheck, hu.check, hr, Bool.false_eq_true, if_false]

theorem precheck_of_rte (hu : HasUnit d s g) (hb : ∀ x ∈ s.budgetSlots g i c d, SlotInBudget g x) (hi : isRte i = true)
    (hh : s.cur.phase ≠ .handler) : precheck i c d s g = some (s.pointFault .illegalEnc 0 0) := by
  simp [precheck, hu.check, findSome?_slotBudget_eq_none hb, hi, hh]

theorem precheck_of_notInHandler (hu : HasUnit d s g) (hb : ∀ x ∈ s.budgetSlots g i c d, SlotInBudget g x)
    (hh : s.cur.phase = .handler) (hi : notInHandler i = true) : precheck i c d s g = some (s.pointFault .illegalEnc 0 0) := by
  simp [precheck, hu.check, findSome?_slotBudget_eq_none hb, hi, hh]

/-- Of a legal instruction the scopes are checked, then the party's registers, then the scoreboard. -/
theorem LegalHere.precheck_eq (h : LegalHere i c d s g) : precheck i c d s g =
    if s.cur.phase == .handler && c.scope != .lane then some (s.pointFault .scopeIllegal 0 0)
    else match (s.budgetSlots g i c d).findSome? (slotParty g) with
    | some r => some (s.pointFault .scopeIllegal r 0)
    | none =>
      if !d.scopes.contains c.scope then some (s.pointFault .scopeIllegal 0 0)
      else if c.await && d.await == .once then some (s.pointFault .scopeIllegal 0 0)
      else if s.stallchk g.ctx then (stallShort g (s.seesWrite g c) c (s.stallSlots g i c d)).map (s.stallFault c d)
      else none := by
  obtain ⟨hu, hb, hr, ho, hh⟩ := h
  have h1 : (isRte i && !(s.cur.phase == .handler)) = false := by
    cases hi : isRte i with
    | false => rfl
    | true => simp [hr hi]
  have h2 : (s.cur.phase == .handler && (notInHandler i || classOf d.op == some 3)) = false := by
    by_cases hp : s.cur.phase = .handler
    · simp [(hh hp).1, (hh hp).2.1]
    · simp [hp]
  have h3 : (s.cur.phase == .handler && vectorForm d && !isLaneReach i) = false := by
    by_cases hp : s.cur.phase = .handler
    · cases hv : vectorForm d with
      | false => simp
      | true => simp [(hh hp).2.2 hv]
    · simp [hp]
  simp only [precheck, hu.check, findSome?_slotBudget_eq_none hb, h1, ho, h2, h3, Bool.false_eq_true, if_false]
  cases stallShort g (s.seesWrite g c) c (s.stallSlots g i c d) <;> rfl

theorem LegalHere.precheck_of_wide (h : LegalHere i c d s g) (hh : s.cur.phase = .handler) (hs : c.scope ≠ .lane) :
    precheck i c d s g = some (s.pointFault .scopeIllegal 0 0) := by
  rw [h.precheck_eq]
  simp [hh, hs]

theorem LegalHere.precheck_of_party {r : Nat} (h : LegalHere i c d s g) (hs : s.cur.phase = .handler → c.scope = .lane)
    (hr : (s.budgetSlots g i c d).findSome? (slotParty g) = some r) : precheck i c d s g = some (s.pointFault .scopeIllegal r 0) := by
  rw [h.precheck_eq, if_neg (by simpa using hs), hr]

theorem LegalHere.precheck_of_scope (h : LegalHere i c d s g) (hs : s.cur.phase = .handler → c.scope = .lane)
    (hp : ∀ x ∈ s.budgetSlots g i c d, SlotInParty g x) (hc : d.scopes.contains c.scope = false) :
    precheck i c d s g = some (s.pointFault .scopeIllegal 0 0) := by
  rw [h.precheck_eq, if_neg (by simpa using hs), List.findSome?_eq_none_iff.2 fun x hx => slotParty_eq_none (hp x hx)]
  simp only [hc, Bool.not_false, if_true]

/- ### The faults that a check may raise -/

theorem firstFault_mem {ms : List Member} {fs : List LaneFault} {f : LaneFault} (h : firstFault ms fs = some f) : f ∈ fs := by
  simp only [firstFault, Option.orElse_eq_orElse, Option.orElse_eq_or, Option.or_eq_some_iff] at h
  rcases h with h | ⟨-, h⟩
  · obtain ⟨m, -, hm⟩ := List.mem_flatMap.1 (List.mem_of_mem_head? h)
    obtain ⟨j, -, hj⟩ := List.mem_filterMap.1 hm
    exact List.mem_of_find?_eq_some hj
  · exact List.mem_of_mem_head? h

theorem State.markerFaults_code (g : Group) (b : Bool) {f : LaneFault} (xs : List (Nat × Opd)) :
    ∀ m, f ∈ s.markerFaults g b m xs → f.code = .snanUninit := by
  induction xs with
  | nil => intro m h; cases h
  | cons x xs ih =>
    intro m h
    rcases List.mem_append.1 h with h | h
    · split at h
      · cases h
      · rw [List.mem_singleton.1 h]
    · exact ih _ h

theorem State.fpMarkers_code {f : LaneFault} (h : f ∈ s.fpMarkers c d) : f.code = .snanUninit := by
  unfold State.fpMarkers at h
  split at h
  · cases h
  · obtain ⟨x, -, hx⟩ := List.mem_flatMap.1 h
    split at hx
    · cases hx
    · exact s.markerFaults_code _ _ _ _ hx

theorem markersFirst_code {P : FaultCode → Prop} {mk fs : List LaneFault} (hm : ∀ x ∈ mk, P x.code) (hf : ∀ x ∈ fs, P x.code)
    {f : LaneFault} (h : f ∈ markersFirst mk fs) : P f.code := by
  rcases List.mem_append.1 h with h | h
  · exact hm f h
  · obtain ⟨y, hy, rfl⟩ := List.mem_map.1 (List.mem_filter.1 h).1
    exact hf y hy

/-- The scoreboard's check raises STALL_SHORT, or the marker's fault that goes before it. -/
theorem State.stallFault_code (s : State) (c : Ctl) (d : Desc) (r : Nat) :
    (s.stallFault c d r).code = .stallShort ∨ (s.stallFault c d r).code = .snanUninit := by
  simp only [State.stallFault]
  split
  · next f hf =>
    refine markersFirst_code (P := fun x => x = .stallShort ∨ x = .snanUninit) (fun x hx => Or.inr (s.fpMarkers_code hx)) ?_
      (firstFault_mem hf)
    intro x hx
    obtain ⟨y, -, rfl⟩ := List.mem_map.1 hx
    exact Or.inl rfl
  · exact Or.inl rfl

/-- Every fault of a check has the property. -/
def FaultsOnly (P : FaultInfo → Prop) (o : Option FaultInfo) : Prop := ∀ f, o = some f → P f

theorem FaultsOnly.some {P : FaultInfo → Prop} {x : FaultInfo} (hx : P x) : FaultsOnly P (some x) := by rintro _ ⟨⟩; exact hx

theorem FaultsOnly.ite {P : FaultInfo → Prop} {p : Prop} [Decidable p] {x : FaultInfo} {o : Option FaultInfo} (hx : P x)
    (ho : FaultsOnly P o) : FaultsOnly P (if p then .some x else o) := by
  split
  · exact .some hx
  · exact ho

theorem precheck_code : FaultsOnly (fun f => f.code = .illegalEnc ∨ f.code = .scopeIllegal ∨
    ((f.code = .stallShort ∨ f.code = .snanUninit) ∧ s.stallchk g.ctx = true)) (precheck i c d s g) := by
  have ill : FaultCode.illegalEnc = .illegalEnc := rfl
  have wide : FaultCode.scopeIllegal = .scopeIllegal := rfl
  simp only [precheck]
  refine .ite (.inl ill) ?_
  split
  · exact .some (.inl ill)
  · refine .ite (.inl ill) (.ite (.inl ill) (.ite (.inl ill) (.ite (.inl ill) (.ite (.inr (.inl wide)) ?_))))
    split
    · exact .some (.inr (.inl wide))
    · refine .ite (.inr (.inl wide)) (.ite (.inr (.inl wide)) ?_)
      split
      · next hs =>
        split
        · exact .some (.inr (.inr ⟨s.stallFault_code _ _ _, hs⟩))
        · rintro _ ⟨⟩
      · rintro _ ⟨⟩

end order

/-- A failed check at an instruction's own issue is all that the issue comes to. -/
theorem exec_of_precheck {i : Instr} {c : Ctl} {d : Desc} {s : State} {m : Member} {ms : List Member} {g : Group} {f : FaultInfo}
    (hc : i.ctl = some c) (hd : i.desc = some d) (hm : s.cur.members = m :: ms) (hg : s.group? m.key = some g)
    (hp : s.cur.phase ≠ .instance_) (hf : precheck i c d s g = some f) : exec i s = .next ((s.takeFault f).settle m.key) := by
  obtain ⟨b, eff, he⟩ := exec_eq_issueWith hc s
  have hi : s.issuer = some g := by simp only [State.issuer, hm, hg]
  have hp' : (s.cur.phase == Phase.instance_) = false := by simpa using hp
  simp only [he, issueWith, hd, hm, hi, hp', hf, Bool.false_eq_true, if_false]

/-- Settles O37: the checks in their order, each behind those before it. -/
theorem checksBeforeTheIssue : Obligations.ChecksBeforeTheIssue := by
  unfold Obligations.ChecksBeforeTheIssue
  refine ⟨fun i c d s m ms g f hc hd hm hg hp hf => exec_of_precheck hc hd hm hg hp hf, ?_⟩
  intro i c d s g _ _ raises fields inBudget inParty unit legal
  have raise {code : FaultCode} {r : Nat} (h : precheck i c d s g = some (s.pointFault code r 0)) : raises code r := ⟨_, h, rfl, rfl⟩
  have legalHere (h : legal) : LegalHere i c d s g := by
    obtain ⟨hu, hb, hr, ho, hh⟩ := h
    exact ⟨hu, hb, hr, ho, hh⟩
  refine ⟨?budget, ?handler, ?wide, ?scope, precheck_code⟩
  case budget =>
    intro pre x post hf hpre hx hu
    have found {r : Nat} (h : slotBudget g x = some r) : (s.budgetSlots g i c d).findSome? (slotBudget g) = some r := by
      have hf : s.budgetSlots g i c d = pre ++ x :: post := hf
      rw [hf]
      exact findSome?_append_cons (fun y hy => slotBudget_eq_none (hpre y hy)) h
    exact ⟨fun n ho hn => raise (precheck_of_budget hu (found (slotBudget_of_v hx ho hn))),
      fun n ho hn => raise (precheck_of_budget hu (found (slotBudget_of_s hx ho hn)))⟩
  case handler =>
    intro hu hb
    exact ⟨fun hi hh => raise (precheck_of_rte hu hb hi hh), fun hh hi => raise (precheck_of_notInHandler hu hb hh hi)⟩
  case wide => exact fun hl hh hs => raise ((legalHere hl).precheck_of_wide hh hs)
  case scope =>
    intro hl hs
    refine ⟨?_, fun hp hc => raise ((legalHere hl).precheck_of_scope hs hp hc)⟩
    intro pre x post n hf hpre ho hn
    have hf : s.budgetSlots g i c d = pre ++ x :: post := hf
    refine raise ((legalHere hl).precheck_of_party hs ?_)
    rw [hf]
    exact findSome?_append_cons (fun y hy => slotParty_eq_none (hpre y hy)) (slotParty_of_y ho hn)

end Sys2Proof.Machine
end

section
/-! SUPPORT. The fetch of a clause: lanes past the image, a header that fails its checks, and lanes that come to the first
instruction; which words may stand in a clause (R24, R25, R40, R41, R63). -/

namespace Sys2Proof.Machine

/- ### Groups that move -/

theorem nth_replicate {α : Type} (d x : α) {n i : Nat} (h : i < n) : nth d (List.replicate n x) i = x := by
  rw [nth_eq_getElem d _ i (by simpa using h), List.getElem_replicate]

/-- Lanes of the mask come to the address, the others stay. -/
theorem Group.nth_moveLanes_pcs {g : Group} (hl : g.pcs.length = W) (m : Mask) (pc : Word) (pos : Option ClausePos) {i : Nat} (hi : i < W) :
    nth 0 (g.moveLanes m pc pos).pcs i = if laneBit m i then pc else nth 0 g.pcs i := by
  have h := nth_mergeLanes m g.pcs (List.replicate W pc) i (by rw [hl, List.length_replicate]) (by rw [hl]; exact hi)
  rwa [nth_replicate (0 : Word) pc hi] at h

/-- Levels that are popped are all that changes of a group. -/
theorem Group.normLevels_eq (g : Group) : ∃ ls, g.normLevels = { g with levels := ls } := by
  unfold Group.normLevels
  split
  · exact ⟨g.levels, rfl⟩
  · split
    · exact ⟨_, rfl⟩
    · exact ⟨g.levels, rfl⟩

@[simp] theorem Group.normLevels_key (g : Group) : g.normLevels.key = g.key := by obtain ⟨ls, h⟩ := g.normLevels_eq; rw [h]
@[simp] theorem Group.normLevels_v (g : Group) : g.normLevels.v = g.v := by obtain ⟨ls, h⟩ := g.normLevels_eq; rw [h]
@[simp] theorem Group.normLevels_s (g : Group) : g.normLevels.s = g.s := by obtain ⟨ls, h⟩ := g.normLevels_eq; rw [h]
@[simp] theorem Group.normLevels_pcs (g : Group) : g.normLevels.pcs = g.pcs := by obtain ⟨ls, h⟩ := g.normLevels_eq; rw [h]

/-- A group at the first instruction of a clause that passed its checks. -/
def Group.enterClause (lanes : Mask) (pc : Word) (p : ClausePos) (g : Group) : Group :=
  if g.inh then { g with hpc := pc + 4, hpos := some p } else (g.moveLanes lanes (pc + 4) (some p)).normLevels

section enter
variable (lanes : Mask) (pc : Word) (p : ClausePos) (g : Group)

@[simp] theorem Group.enterClause_key : (g.enterClause lanes pc p).key = g.key := by
  unfold Group.enterClause
  split
  · rfl
  · simp

@[simp] theorem Group.enterClause_v : (g.enterClause lanes pc p).v = g.v := by
  unfold Group.enterClause
  split
  · rfl
  · simp

@[simp] theorem Group.enterClause_s : (g.enterClause lanes pc p).s = g.s := by
  unfold Group.enterClause
  split
  · rfl
  · simp

end enter

/-- A handler comes to the first instruction by its own counter. -/
theorem Group.enterClause_of_inh {g : Group} (h : g.inh = true) (lanes : Mask) (pc : Word) (p : ClausePos) :
    g.enterClause lanes pc p = { g with hpc := pc + 4, hpos := some p } := if_pos h

/-- Lanes come to the first instruction by theirs. -/
theorem Group.nth_enterClause_pcs {g : Group} (h : g.inh = false) (hl : g.pcs.length = W) (lanes : Mask) (pc : Word) (p : ClausePos)
    {i : Nat} (hi : i < W) : nth 0 (g.enterClause lanes pc p).pcs i = if laneBit lanes i then pc + 4 else nth 0 g.pcs i := by
  rw [Group.enterClause, h, if_neg Bool.false_ne_true, Group.normLevels_pcs, Group.nth_moveLanes_pcs hl _ _ _ hi]

/- ### The fetch -/

section fetch
variable {k : GKey} {s : State} {g : Group} {pc : Word} {pos : Option ClausePos}

theorem execClauseFetch_past (hg : s.group? k = some g) (hn : g.nextPoint = some (pc, pos)) (hp : s.pastImage g pc pos.isSome = true) :
    exec (.clauseFetch k) s = .next (((s.toImageEnd g (if g.inh then 0 else g.pointLanes pc)).takeFault
      (placeFault g (if g.inh then 0 else g.pointLanes pc) .addrBounds (BitVec.ofNat 32 (s.codeLen g))
        (BitVec.ofNat 32 (s.codeLen g) + 4))).settle k) := by
  simp only [exec_clauseFetch, execClauseFetch, hg, hn, hp, if_true]

theorem execClauseFetch_bad (hg : s.group? k = some g) (hn : g.nextPoint = some (pc, none)) (hp : s.pastImage g pc false = false)
    (ho : s.clauseOk g pc = false) :
    exec (.clauseFetch k) s = .next ((s.takeFault (placeFault g (if g.inh then 0 else g.pointLanes pc) .illegalEnc pc
      (s.instrs g (pc + 4) (hdrN (s.codeWord g pc))).2)).settle k) := by
  simp only [exec_clauseFetch, execClauseFetch, hg, hn, hp, ho, Option.isSome_none, Bool.not_false, Bool.false_eq_true, if_false, if_true]

theorem execClauseFetch_good (hg : s.group? k = some g) (hn : g.nextPoint = some (pc, none)) (hp : s.pastImage g pc false = false)
    (ho : s.clauseOk g pc = true) :
    exec (.clauseFetch k) s = .next (s.modGroup k
      (Group.enterClause (if g.inh then 0 else g.pointLanes pc) pc ⟨pc, hdrN (s.codeWord g pc)⟩)) := by
  simp only [exec_clauseFetch, execClauseFetch, hg, hn, hp, ho, Option.isSome_none, Bool.not_true, Bool.false_eq_true, if_false]
  rfl

end fetch

/- ### The words of a clause -/

/-- A word may stand in a clause of the class, at its end or before it, where its results count on the scoreboard (R25, R41). -/
def ClauseWordOk (cls sb : Nat) (last : Prop) (w : Word) : Prop :=
  ∀ k, classOf (wOp w) = some k → (k = cls ∨ (last ∧ k = 4)) ∧
    (fnAssigned (wOp w) (wFn w) = true → (last ∨ isTransfer (wOp w) (wFn w) = false) ∧ (sb ≠ 7 ∨ latVar (wOp w) (wFn w) = false))

theorem clauseWordOk_iff (cls sb : Nat) (last : Bool) (w : Word) :
    clauseWordOk cls sb last w = true ↔ ClauseWordOk cls sb (last = true) w := by
  unfold clauseWordOk ClauseWordOk
  cases classOf (wOp w) with
  | none => simp
  | some k => cases fnAssigned (wOp w) (wFn w) <;> simp

theorem clauseWordsOk_iff (cls sb : Nat) (ws : List Word) :
    clauseWordsOk cls sb ws = true ↔ ∀ j w, ws[j]? = some w → ClauseWordOk cls sb (j + 1 = ws.length) w := by
  induction ws with
  | nil => simp [clauseWordsOk]
  | cons w t ih =>
    have hend : (t.isEmpty = true) = (0 + 1 = (w :: t).length) := by cases t <;> simp
    rw [clauseWordsOk, Bool.and_eq_true, clauseWordOk_iff, ih, hend]
    constructor
    · rintro ⟨hw, ht⟩ (_ | j) x hx
      · cases hx; exact hw
      · simpa using ht j x hx
    · intro h
      exact ⟨h 0 w rfl, fun j x hx => by simpa using h (j + 1) x hx⟩

/- ### The statement -/

theorem execUnassignedEncoding_next (w : Word) {s : State} {m : Member} {ms : List Member} (hm : s.cur.members = m :: ms) :
    exec (.unassignedEncoding w) s = .next ((s.takeFault (s.pointFault .illegalEnc 0 0)).settle m.key) := by
  simp only [exec_unassignedEncoding, execUnassignedEncoding, hm]

/-- Settles O39: the three ways of a fetch, the words of a clause by induction along it, and the fault of a word that is no instruction. -/
theorem clauseEvents : Obligations.ClauseEvents := by
  unfold Obligations.ClauseEvents
  refine ⟨?fetch, ?words, fun w s m ms hm => execUnassignedEncoding_next w hm⟩
  case fetch =>
    intro k s g pc pos hg hn lanes after e
    refine ⟨execClauseFetch_past hg hn, ?_, ?_⟩
    · rintro hp rfl ho
      exact execClauseFetch_bad hg hn hp ho
    · rintro hp rfl ho
      refine ⟨_, g.enterClause lanes pc ⟨pc, hdrN (s.codeWord g pc)⟩, execClauseFetch_good hg hn hp ho,
        State.group?_modGroup_same (fun _ => Group.enterClause_key _ _ _ _) hg, State.modGroup_mem s k _, Group.enterClause_v _ _ _ _,
        Group.enterClause_s _ _ _ _, ?_, fun hi hl j hj => Group.nth_enterClause_pcs hi hl _ _ _ hj⟩
      intro hi
      rw [Group.enterClause_of_inh hi]
      exact ⟨rfl, rfl, rfl⟩
  case words =>
    intro cls sb ws
    rw [clauseWordsOk_iff]
    exact ⟨fun h j w k hw hk => h j w hw k hk, fun h j w hw k hk => h j w k hw hk⟩

end Sys2Proof.Machine
end

section
/-! SUPPORT. The frame of an issue where nothing waits: what its stages leave alone, of the state, of each core and of each group
(R35, R36, R60, R117). -/

namespace Sys2Proof.Machine

/- ### What stays -/

/-- A group without what an issue may change of it: its place, its timing, and the results on their way. -/
def Group.still (g : Group) : Group :=
  { g with pcs := [], clause := [], wait := [], hpc := 0, hpos := none, nextIssue := 0, lastIssue := 0, heldSince := none, checks := false,
           drain := false, yielding := false, outgoing := false, stepOne := false, broke := false, inFlight := [] }

/-- A partition without its turn. -/
def Part.still (p : Part) : Part := { p with lastSlot := none, freeAt := 0 }

/-- A core without its partitions. -/
def Core.still (c : Core) : Core := { c with parts := [] }

/-- The state without its groups and cores. -/
def State.still (s : State) : State := { s with groups := [], cores := [] }

/-- A group is as it was but for its place, its timing and results that have come on their way, each of which satisfies `P`. -/
structure GroupKeeps (P : InFlight → Prop) (g h : Group) : Prop where
  still : h.still = g.still
  coming : ∃ es, h.inFlight = g.inFlight ++ es ∧ ∀ e ∈ es, P e
  calm : g.Calm → h.Calm

/-- A state is as it was but for the turns of its partitions and what `GroupKeeps` lets change of its groups. -/
structure Keeps (P : InFlight → Prop) (s t : State) : Prop where
  still : t.still = s.still
  core : ∀ k, (t.core k).still = (s.core k).still
  part : ∀ p, (t.part p).still = (s.part p).still
  groups : List.Forall₂ (GroupKeeps P) s.groups t.groups

section keeps
variable {P : InFlight → Prop}

/-- Nothing has come on its way. -/
theorem GroupKeeps.of_inFlight {g h : Group} (hs : h.still = g.still) (hi : h.inFlight = g.inFlight) (hc : g.Calm → h.Calm) :
    GroupKeeps P g h := ⟨hs, ⟨[], by simpa using hi, fun _ he => (List.not_mem_nil he).elim⟩, hc⟩

theorem GroupKeeps.refl (g : Group) : GroupKeeps P g g := .of_inFlight rfl rfl id

theorem GroupKeeps.key {g h : Group} (hk : GroupKeeps P g h) : h.key = g.key :=
  (congrArg Group.key hk.still :)

theorem GroupKeeps.trans {g h k : Group} (h1 : GroupKeeps P g h) (h2 : GroupKeeps P h k) : GroupKeeps P g k := by
  obtain ⟨es, he, hes⟩ := h1.coming
  obtain ⟨fs, hf, hfs⟩ := h2.coming
  refine ⟨h2.still.trans h1.still, ⟨es ++ fs, ?_, ?_⟩, h2.calm ∘ h1.calm⟩
  · rw [hf, he, List.append_assoc]
  · intro e hm
    rcases List.mem_append.1 hm with hm | hm
    · exact hes e hm
    · exact hfs e hm

theorem Keeps.refl (s : State) : Keeps P s s := ⟨rfl, fun _ => rfl, fun _ => rfl, List.forall₂_same.2 fun g _ => .refl g⟩

theorem forall₂_groupKeeps_trans {l m : List Group} (h : List.Forall₂ (GroupKeeps P) l m) :
    ∀ {n}, List.Forall₂ (GroupKeeps P) m n → List.Forall₂ (GroupKeeps P) l n := by
  induction h with
  | nil => exact fun h2 => h2
  | cons hab _ ih => rintro _ (_ | ⟨hbc, h2⟩); exact .cons (hab.trans hbc) (ih h2)

theorem Keeps.trans {s t u : State} (h1 : Keeps P s t) (h2 : Keeps P t u) : Keeps P s u :=
  ⟨h2.still.trans h1.still, fun k => (h2.core k).trans (h1.core k), fun p => (h2.part p).trans (h1.part p),
    forall₂_groupKeeps_trans h1.groups h2.groups⟩

theorem Keeps.clk {s t : State} (h : Keeps P s t) : t.clk = s.clk :=
  (congrArg State.clk h.still :)

/-- Stages that each keep the state they find keep it together. -/
theorem Keeps.foldl {α : Type} {f : State → α → State} {s : State} (hf : ∀ u, Keeps P s u → ∀ x, Keeps P u (f u x)) (l : List α) :
    ∀ u, Keeps P s u → Keeps P s (l.foldl f u) := by
  induction l with
  | nil => exact fun u hu => hu
  | cons x l ih => exact fun u hu => ih (f u x) (hu.trans (hf u hu x))

theorem Keeps.calm {s t : State} (h : Keeps P s t) (hs : s.Calm) : t.Calm := by
  intro x hx
  obtain ⟨i, hi, rfl⟩ := List.getElem_of_mem hx
  have hl := h.groups.length_eq
  exact (h.groups.get (hl ▸ hi) hi).calm (hs _ (List.getElem_mem _))

/-- A group is found again by its key. -/
theorem Keeps.group? {s t : State} (h : Keeps P s t) {k : GKey} {g : Group} (hg : s.group? k = some g) :
    ∃ x, t.group? k = some x ∧ GroupKeeps P g x := by
  obtain ⟨-, -, -, hl⟩ := h
  unfold State.group? at hg ⊢
  generalize s.groups = l, t.groups = m at hg hl ⊢
  induction hl with
  | nil => cases hg
  | @cons a b l l' hab _ ih =>
    have hk : b.key = a.key := hab.key
    rw [List.find?_cons] at hg ⊢
    rw [hk]
    split at hg
    · cases hg; exact ⟨b, rfl, hab⟩
    · exact ih hg

/- ### The stages of an issue -/

theorem Keeps.modGroups {s : State} {f : Group → Group} (hf : ∀ g ∈ s.groups, GroupKeeps P g (f g)) : Keeps P s (s.modGroups f) :=
  ⟨rfl, fun _ => rfl, fun _ => rfl, List.forall₂_map_right_iff.2 (List.forall₂_same.2 hf)⟩

theorem Keeps.modGroup {s : State} {k : GKey} {f : Group → Group} (hf : ∀ g ∈ s.groups, GroupKeeps P g (f g)) : Keeps P s (s.modGroup k f) :=
  Keeps.modGroups (f := fun g => if g.key == k then f g else g) fun g hg => by
    split
    · exact hf g hg
    · exact .refl g

theorem State.core_key (s : State) (k : CKey) : (s.core k).key = k := by
  unfold State.core
  cases h : s.cores.find? (fun c => c.key == k) with
  | none => rfl
  | some c => simpa using List.find?_some h

theorem State.still_setCore (s : State) (c : Core) : (s.setCore c).still = s.still := by
  unfold State.setCore
  split
  · rfl
  · rfl

/-- What an update of an entry leaves of the entry, it leaves of the list. -/
theorem nth_modAt_leaves {α β : Type} (d : α) (r : α → β) {f : α → α} (hf : ∀ x, r (f x) = r x) (l : List α) :
    ∀ n k, r (nth d (modAt l n f) k) = r (nth d l k) := by
  induction l with
  | nil => exact fun _ _ => rfl
  | cons x l ih =>
    rintro (_ | n) (_ | k)
    · exact hf x
    · rfl
    · rfl
    · exact ih n k

theorem State.core_modPart (s : State) (p : PKey) (f : Part → Part) (k : CKey) : (s.modPart p f).core k =
    if k = ⟨p.die, p.core⟩ then { s.core k with parts := modAt (s.core k).parts p.part f } else s.core k := by
  have key : ∀ c : Core, c.key = ⟨p.die, p.core⟩ → (s.setCore c).core k = if k = ⟨p.die, p.core⟩ then c else s.core k := by
    intro c hc
    split
    · next hk => rw [hk, ← hc, State.core_setCore_same]
    · next hk => exact State.core_setCore_other s c (hc ▸ hk)
  change (s.setCore _).core k = _
  rw [key { s.core ⟨p.die, p.core⟩ with parts := modAt (s.core ⟨p.die, p.core⟩).parts p.part f } (s.core_key _)]
  split
  · next hk => rw [hk]
  · rfl

/-- A partition's turn is all that its update changes. -/
theorem Keeps.modPart {s : State} {p : PKey} {f : Part → Part} (hf : ∀ x, (f x).still = x.still) : Keeps P s (s.modPart p f) := by
  refine ⟨s.still_setCore _, ?_, ?_, ?_⟩
  · intro k
    rw [State.core_modPart]
    split
    · rfl
    · rfl
  · intro q
    unfold State.part
    rw [State.core_modPart]
    split
    · exact nth_modAt_leaves _ Part.still hf _ _ _
    · rfl
  · rw [State.modPart_groups]
    exact List.forall₂_same.2 fun g _ => .refl g

/-- A result comes on its way. -/
theorem Keeps.putFixed {s : State} {k : GKey} {lat : Nat} {ws : List Write}
    (hP : P ⟨some (s.clk + lat), 0, ws, [], s.tick, none, none, [], s.cur.cls⟩) : Keeps P s (s.putFixed k lat ws) :=
  Keeps.modGroup fun _ _ => ⟨rfl, ⟨_, rfl, fun _ he => List.mem_singleton.1 he ▸ hP⟩, id⟩

theorem nth_map_const {α β : Type} {d : β} {f : α → β} (hf : ∀ x, f x = d) (l : List α) : ∀ i, nth d (l.map f) i = d := by
  induction l with
  | nil => exact fun _ => rfl
  | cons x l ih =>
    rintro (_ | i)
    · exact hf x
    · exact ih i

/-- Where no level is active, lanes that pass come to the next instruction. -/
theorem Group.pass_of_levels_nil {g : Group} (hg : g.levels = []) (m : Mask) (next : Word) (pos : Option ClausePos) :
    g.pass m next pos = g.moveLanes m next pos := by
  cases pos with
  | some p => rfl
  | none => simp [Group.pass, Group.endTest, hg]

theorem Group.Calm.pass_keeps {g : Group} (hg : g.Calm) (m : Mask) (next : Word) (pos : Option ClausePos) :
    GroupKeeps P g (g.pass m next pos) := by
  obtain ⟨hlevels, hwait, hsig⟩ := hg
  rw [Group.pass_of_levels_nil hlevels]
  refine .of_inFlight rfl rfl fun _ => ⟨hlevels, ?_, hsig⟩
  refine nth_map_const (fun i => ?_) _
  split
  · rfl
  · exact hwait i

theorem State.Calm.passAll_keeps {s : State} (hs : s.Calm) : Keeps P s s.passAll := by
  unfold State.passAll
  split
  · split
    · exact Keeps.modGroup fun _ _ => .of_inFlight rfl rfl id
    · exact .refl s
  · exact Keeps.foldl (fun u hu _ => Keeps.modGroup fun g hg => (hu.calm hs g hg).pass_keeps _ _ _) _ s (.refl s)

theorem GroupKeeps.ite {p : Prop} [Decidable p] {g h k : Group} (hh : GroupKeeps P g h) (hk : GroupKeeps P g k) :
    GroupKeeps P g (if p then h else k) := by
  split
  · exact hh
  · exact hk

theorem State.stampAll_keeps (s : State) (c : Ctl) (d : Desc) (pen : Nat) (yieldNow : Bool) : Keeps P s (s.stampAll c d pen yieldNow) := by
  unfold State.stampAll
  extract_lets ends keys pks all s1
  have stamped : Keeps P s s1 := Keeps.modGroups fun g _ => by
    extract_lets g1
    have timed : GroupKeeps P g g1 := .ite (.of_inFlight rfl rfl id) (.refl g)
    exact timed.trans (.ite (.of_inFlight rfl rfl id) (.ite (.of_inFlight rfl rfl id) (.refl g1)))
  split
  · exact Keeps.foldl (f := fun u p => u.modPart p.1 (fun x => { x with lastSlot := p.2 <|> x.lastSlot, freeAt := u.clk + 1 }))
      (fun u _ p => Keeps.modPart fun _ => rfl) pks s1 stamped
  · exact stamped

/-- Where nothing waits, settling the members changes nothing. -/
theorem State.Calm.settleAll_eq {s : State} (hs : s.Calm) : s.settleAll = s := by
  have h : ∀ l : List Member, l.foldl (fun s m => s.settle m.key) s = s := by
    intro l
    induction l with
    | nil => rfl
    | cons m l ih => rw [List.foldl_cons, State.settle_calm hs, ih]
  exact h s.cur.members

theorem State.onWalks_of_nil {d : Desc} (hd : d.walks = []) (s : State) (f : State → GKey → Nat → State) : s.onWalks d f = s := by
  simp [State.onWalks, hd]

/-- What follows an effect that has taken place keeps the state that it left. -/
theorem State.Calm.finish_done_keeps {s : State} (hs : s.Calm) (i : Instr) (c : Ctl) {d : Desc} (hd : d.walks = []) :
    Keeps P s (finish i c d (.done s)) := by
  have hk : Keeps P s (s.passAll.stampAll c d 0 (yieldsNow i)) := hs.passAll_keeps.trans (State.stampAll_keeps _ _ _ _ _)
  simp only [finish, State.onWalks_of_nil hd]
  rw [(hk.calm hs).settleAll_eq]
  exact hk

/-- Results of the member groups come on their way, due by their latency. -/
theorem State.perLane_keeps {s : State} {c : Ctl} {lat : Nat} {f : Group → Mask → List Write}
    (hP : ∀ g m tick cls, P ⟨some (s.clk + lat), 0, f g m, [], tick, none, none, [], cls⟩) : Keeps P s (s.perLane c lat f) := by
  refine Keeps.foldl (fun u hu x => ?_) _ _ (.refl s)
  split
  · exact .refl u
  · exact Keeps.putFixed (by rw [hu.clk]; exact hP _ _ _ _)

end keeps

/-- An instruction that reads no walk and accesses nothing acts in the state in which it issues. -/
theorem State.walked_of_nil {i : Instr} {d : Desc} (hi : directAccess i = false) (hd : d.walks = []) (s : State) : s.walked i d = s := by
  simp [State.walked, hi, State.onWalks_of_nil hd]

/-- The state that an instruction leaves whose effect has taken place at its issue. -/
theorem exec_done {i : Instr} {c : Ctl} {d : Desc} {s : State} {f : State → State}
    (hx : exec i s = issue i c s (fun s => .done (f s))) (hi : directAccess i = false) (hr : Ready i c d s) (hd : d.walks = []) :
    exec i s = .next (finish i c d (.done (f s))) := by
  rw [hx, issue_completes hr, State.walked_of_nil hi hd]

/- ### The integer instructions -/

/-- A result due at a time, which names registers of a list. -/
def DueIn (clk : Nat) (dst : List Nat) (e : InFlight) : Prop := e.due = some clk ∧ ∀ w ∈ e.writes, w.code ∈ dst

/-- The writes of a result name the register of the run that they give, or, of a loop counter, the only one. -/
def NamesRun (d : Opd) (j : Nat) (w : Write) : Prop := w.code = d.code + j ∨ w.code = d.code

theorem NamesRun.mem_runCodes {d : Opd} {j run : Nat} {w : Write} (h : NamesRun d j w) (hj : j ∈ List.range run) :
    w.code ∈ runCodes d run := by
  rcases h with h | h
  · exact List.mem_map.2 ⟨j, hj, h.symm⟩
  · exact List.mem_map.2 ⟨0, List.mem_range.2 (Nat.zero_lt_of_lt (List.mem_range.1 hj)), h.symm⟩

theorem writeVec_namesRun {d : Opd} {j : Nat} {m : Mask} {x : Lanes} {w : Write} (h : w ∈ writeVec d j m x) : NamesRun d j w := by
  unfold writeVec at h
  split at h
  · rw [List.mem_singleton.1 h]; exact .inl rfl
  · rw [List.mem_singleton.1 h]; exact .inl (Nat.add_assoc _ _ _).symm
  · split at h
    · cases h
    · rw [List.mem_singleton.1 h]; exact .inl (Nat.add_assoc _ _ _).symm
  · split at h
    · cases h
    · rw [List.mem_singleton.1 h]; exact .inr rfl
  · cases h

theorem writeScal_namesRun {d : Opd} {j : Nat} {x : Word} {w : Write} (h : w ∈ writeScal d j x) : NamesRun d j w := by
  unfold writeScal at h
  split at h
  · rw [List.mem_singleton.1 h]; exact .inl (Nat.add_assoc _ _ _).symm
  · rw [List.mem_singleton.1 h]; exact .inr rfl
  · cases h

theorem resWrites_code {d : Opd} {run : Nat} {m : Mask} {xs : List Nat} {w : Write} (h : w ∈ resWrites d run m xs) :
    w.code ∈ runCodes d run := by
  obtain ⟨j, hj, hw⟩ := List.mem_flatMap.1 h
  exact (writeVec_namesRun hw).mem_runCodes hj

theorem groupWrites_code {d : Opd} {run : Nat} {m : Mask} {v : Unit → List Nat} {x : Unit → Nat} {w : Write}
    (h : w ∈ groupWrites d run m v x) : w.code ∈ runCodes d run := by
  unfold groupWrites at h
  split at h
  · obtain ⟨j, hj, hw⟩ := List.mem_flatMap.1 h
    exact (writeScal_namesRun hw).mem_runCodes hj
  · exact resWrites_code h

theorem testWrites_code {d : Opd} {m : Mask} {v : Unit → List Bool} {x : Unit → Bool} {w : Write} (h : w ∈ testWrites d m v x) :
    w.code ∈ runCodes d 1 := by
  unfold testWrites at h
  split at h
  · rw [List.mem_singleton.1 h]; exact List.mem_singleton.2 rfl
  · exact groupWrites_code h

/-- The frame of an instruction whose results name registers of `dst`: nothing else changes at its issue but the place and
timing of its groups and the turn of its partition. -/
def Framed (c : Ctl) (i : Instr) (dst : List Nat) : Prop :=
  ∀ (d : Desc) (s t : State), Ready i c d s → d.walks = [] → s.Calm → exec i s = .next t → Keeps (DueIn (s.clk + 4) dst) s t

theorem framed_of_perLane {c : Ctl} {i : Instr} {dst : List Nat} {f : State → Group → Mask → List Write}
    (hx : ∀ s, exec i s = issue i c s (fun s => .done (s.perLane c 4 (f s)))) (hi : directAccess i = false)
    (hf : ∀ s g m, ∀ w ∈ f s g m, w.code ∈ dst) : Framed c i dst := by
  intro d s t hr hd hs ht
  have hput : Keeps (DueIn (s.clk + 4) dst) s (s.perLane c 4 (f s)) := State.perLane_keeps fun g m _ _ => ⟨rfl, hf s g m⟩
  rw [exec_done (hx s) hi hr hd] at ht
  cases ht
  exact hput.trans ((hput.calm hs).finish_done_keeps i c hd)

/-- Where a result is one register, its run is its code alone. -/
theorem runCodes_one (d : Opd) : runCodes d 1 = [d.code] := rfl

section fields
variable {P : InFlight → Prop}

theorem Keeps.fields {s t : State} (h : Keeps P s t) : t.mem = s.mem ∧ t.hostMem = s.hostMem ∧ t.peerMem = s.peerMem ∧ t.bufs = s.bufs ∧
    t.ctxs = s.ctxs ∧ t.cells = s.cells ∧ t.frames = s.frames ∧ t.poison = s.poison ∧ t.late = s.late :=
  ⟨(congrArg State.mem h.still :), (congrArg State.hostMem h.still :), (congrArg State.peerMem h.still :), (congrArg State.bufs h.still :),
    (congrArg State.ctxs h.still :), (congrArg State.cells h.still :), (congrArg State.frames h.still :), (congrArg State.poison h.still :),
    (congrArg State.late h.still :)⟩

theorem core_fields_of_still {x y : Core} (h : y.still = x.still) : y.sp = x.sp ∧ y.spPoison = x.spPoison ∧ y.segs = x.segs ∧
    y.tagTable = x.tagTable ∧ y.tags = x.tags ∧ y.kicks = x.kicks ∧ y.tables = x.tables ∧ y.loads = x.loads :=
  ⟨(congrArg Core.sp h :), (congrArg Core.spPoison h :), (congrArg Core.segs h :), (congrArg Core.tagTable h :), (congrArg Core.tags h :),
    (congrArg Core.kicks h :), (congrArg Core.tables h :), (congrArg Core.loads h :)⟩

theorem part_fields_of_still {x y : Part} (h : y.still = x.still) : y.mx = x.mx ∧ y.mxSaved = x.mxSaved :=
  ⟨(congrArg Part.mx h :), (congrArg Part.mxSaved h :)⟩

theorem Keeps.group_fields {s t : State} (hk : Keeps P s t) {k : GKey} {g : Group} (hg : s.group? k = some g) :
    ∃ h es, t.group? k = some h ∧ h.v = g.v ∧ h.s = g.s ∧ h.y = g.y ∧ h.m = g.m ∧ h.lc = g.lc ∧ h.q = g.q ∧ h.fpstat = g.fpstat ∧
      h.sb = g.sb ∧ h.fault = g.fault ∧ h.resume = g.resume ∧ h.arrivals = g.arrivals ∧ h.pending = g.pending ∧ h.live = g.live ∧
      h.levels = g.levels ∧ h.bank = g.bank ∧ h.inFlight = g.inFlight ++ es ∧ ∀ e ∈ es, P e := by
  obtain ⟨h, hh, hs, ⟨es, hi, hes⟩, -⟩ := hk.group? hg
  exact ⟨h, es, hh, (congrArg Group.v hs :), (congrArg Group.s hs :), (congrArg Group.y hs :), (congrArg Group.m hs :),
    (congrArg Group.lc hs :), (congrArg Group.q hs :), (congrArg Group.fpstat hs :), (congrArg Group.sb hs :), (congrArg Group.fault hs :),
    (congrArg Group.resume hs :), (congrArg Group.arrivals hs :), (congrArg Group.pending hs :), (congrArg Group.live hs :),
    (congrArg Group.levels hs :), (congrArg Group.bank hs :), hi, hes⟩

end fields

section framed
variable (c : Ctl) {i : Instr}

theorem framed_of_groupWrites {d : Opd} {run : Nat} {v : State → Group → Mask → Unit → List Nat} {x : State → Group → Mask → Unit → Nat}
    (hx : ∀ s, exec i s = issue i c s (fun s => .done (s.perLane c 4 (fun g m => groupWrites d run m (v s g m) (x s g m)))))
    (hi : directAccess i = false) : Framed c i (runCodes d run) :=
  framed_of_perLane hx hi fun _ _ _ _ => groupWrites_code

theorem framed_of_groupWrites_one {d : Opd} {v : State → Group → Mask → Unit → List Nat} {x : State → Group → Mask → Unit → Nat}
    (hx : ∀ s, exec i s = issue i c s (fun s => .done (s.perLane c 4 (fun g m => groupWrites d 1 m (v s g m) (x s g m)))))
    (hi : directAccess i = false) : Framed c i [d.code] :=
  runCodes_one d ▸ framed_of_groupWrites c hx hi

theorem framed_of_testWrites {d : Opd} {v : State → Group → Mask → Unit → List Bool} {x : State → Group → Mask → Unit → Bool}
    (hx : ∀ s, exec i s = issue i c s (fun s => .done (s.perLane c 4 (fun g m => testWrites d m (v s g m) (x s g m)))))
    (hi : directAccess i = false) : Framed c i [d.code] :=
  framed_of_perLane hx hi fun _ _ _ _ => testWrites_code

theorem framed_of_carryEff {it : IT} {d a b : Opd} {k : MReg} {op : Int → Int → Int → Int} {out : Int → Bool}
    (hx : ∀ s, exec i s = issue i c s (carryEff c it d a b k op out)) (hi : directAccess i = false) :
    Framed c i ((0x350 + k.val) :: runCodes d it.run) := by
  refine framed_of_perLane hx hi fun s g m w hw => ?_
  rcases List.mem_append.1 hw with hw | hw
  · exact List.mem_cons_of_mem _ (resWrites_code hw)
  · rw [List.mem_singleton.1 hw]
    exact List.mem_cons_self

end framed

/-- Settles O58: every integer instruction completes by results of its member groups, and the stages of its issue keep the rest. -/
theorem integerFrame : Obligations.IntegerFrame := by
  unfold Obligations.IntegerFrame
  intro frames c it src sat hi p k x imm m d a b e run mk
  have framed : ∀ {i : Instr} {dst : List Nat}, Framed c i dst → frames c i dst := by
    intro i dst h d s t hr hd hs ht
    have hk := h d s t hr hd hs ht
    obtain ⟨hmem, hhost, hpeer, hbufs, hctxs, hcells, hframes, hpoison, hlate⟩ := hk.fields
    exact ⟨hmem, hhost, hpeer, hbufs, hctxs, hcells, hframes, hpoison, hlate, fun k => core_fields_of_still (hk.core k),
      fun p => part_fields_of_still (hk.part p), fun k g hg => hk.group_fields hg⟩
  refine ⟨?iadd, ?isub, ?imul, ?imulh, ?imad, ?imin, ?imax, ?iabs, ?shl, ?shr, ?sar, ?rotl, ?bfx, ?bfi, ?brev, ?cvti, ?popc, ?clz, ?ctz,
    ?icmp, ?isel, ?mov, ?movw, ?movi, ?bitfn, ?iaddc, ?isubb⟩
  case icmp => exact framed (framed_of_testWrites c (fun _ => rfl) rfl)
  case iaddc => exact framed (framed_of_carryEff c (fun _ => rfl) rfl)
  case isubb => exact framed (framed_of_carryEff c (fun _ => rfl) rfl)
  case popc | clz | ctz | isel | mov | movw | movi | bitfn => exact framed (framed_of_groupWrites_one c (fun _ => rfl) rfl)
  all_goals exact framed (framed_of_groupWrites c (fun _ => rfl) rfl)

end Sys2Proof.Machine
end

section
/-! SUPPORT. What a lane of a 32-bit vector form receives: the exact integer result, kept to 32 bits (R118, R121, R122, R126, R128). -/

namespace Sys2Proof.Machine

/- ### Elements of lists -/

theorem nth_map {α β : Type} (d : α) (e : β) (f : α → β) (l : List α) {i : Nat} (hi : i < l.length) :
    nth e (l.map f) i = f (nth d l i) := by
  rw [nth_eq_getElem e _ i (by simpa using hi), nth_eq_getElem d l i hi, List.getElem_map]

theorem nth_zipWith {α β γ : Type} (d : α) (e : β) (z : γ) (f : α → β → γ) (l : List α) (k : List β) {i : Nat} (hl : i < l.length)
    (hk : i < k.length) : nth z (List.zipWith f l k) i = f (nth d l i) (nth e k i) := by
  rw [nth_eq_getElem z _ i (by simp [hl, hk]), nth_eq_getElem d l i hl, nth_eq_getElem e k i hk, List.getElem_zipWith]

theorem zip3_eq_zipWith {α β γ δ : Type} (f : α → β → γ → δ) (l : List α) (k : List β) (m : List γ) :
    zip3 f l k m = List.zipWith (fun g x => g x) (List.zipWith f l k) m := by
  induction l generalizing k m with
  | nil => rfl
  | cons a l ih =>
    cases k with
    | nil => rfl
    | cons b k =>
      cases m with
      | nil => rfl
      | cons x m => exact congrArg (f a b x :: ·) (ih k m)

/- ### Results of 32 bits -/

/-- Word 0 of a result at 32 bits is the result kept to 32 bits. -/
theorem halfWord_resNat_w32 (r : Int) : halfWord (resNat .w32 r) 0 = BitVec.ofInt 32 r := by
  apply BitVec.eq_of_toNat_eq
  simp only [halfWord, resNat, itExtend, lowBits, IT.signed, IT.bits, BitVec.toNat_ofNat, BitVec.toNat_ofInt, Bool.false_eq_true, if_false]
  omega

theorem halfWord_toNat (x : Word) : halfWord x.toNat 0 = x := by
  simp [halfWord]

/-- A word at 32 bits, unsigned, is its number. -/
theorem intVal_w32 (x : Word) : intVal .w32 x 0 = (x.toNat : Int) := by
  have h : x.toNat % 2 ^ 32 = x.toNat := Nat.mod_eq_of_lt x.isLt
  exact congrArg (Nat.cast : Nat → Int) h

theorem ofInt_toNat (x : Word) : BitVec.ofInt 32 x.toNat = x := by
  rw [BitVec.ofInt_natCast, BitVec.ofNat_toNat, BitVec.setWidth_eq]

theorem State.ints_w32 (s : State) (g : Group) (f : Nat) (o : Opd) : s.ints g f .w32 o = (s.vec g f 0 o).map (fun x => (x.toNat : Int)) := by
  simp only [State.ints, IT.bits, intVal_w32]
  rfl

/-- BITFN with the table of the conjunction, at one bit. -/
theorem bitfnAt_and (x y z i : Nat) : bitfnAt 0x88 x y z i = (x &&& y) / 2 ^ i % 2 := by
  rw [← Nat.toNat_testBit, Nat.testBit_land]
  simp only [bitfnAt, bitOf_eq_testBit]
  cases x.testBit i <;> cases y.testBit i <;> cases z.testBit i <;> decide

theorem bitfnNat_and (x y z n : Nat) : bitfnNat 0x88 x y z n = (x &&& y) % 2 ^ n := by
  induction n with
  | zero => simp [bitfnNat, Nat.mod_one]
  | succ n ih => rw [bitfnNat, ih, bitfnAt_and, Nat.mod_pow_succ, Nat.mul_comm, Nat.add_comm]

/-- Word 0 of the bits of two words' conjunction is the conjunction of the words. -/
theorem halfWord_bitfnNat_and (x y : Word) (z : Nat) : halfWord (bitfnNat 0x88 x.toNat y.toNat z 32) 0 = x &&& y := by
  rw [bitfnNat_and, ← BitVec.toNat_and, Nat.mod_eq_of_lt (x &&& y).isLt, halfWord_toNat]

/- ### The lane when its result lands -/

/-- The executing lanes of an issue of one group. -/
theorem State.execs_single {s : State} {m : Member} {g : Group} (c : Ctl) (hm : s.cur.members = [m]) (hg : s.group? m.key = some g) :
    s.execs c = [(g, s.execLanes c m)] := by
  simp [State.execs, hm, hg]

theorem State.perLane_single {s : State} {m : Member} {g : Group} {c : Ctl} {i : Nat} (hm : s.cur.members = [m])
    (hg : s.group? m.key = some g) (hi : laneBit (s.execLanes c m) i = true) (lat : Nat) (f : Group → Mask → List Write) :
    s.perLane c lat f = s.putFixed m.key lat (f g (s.execLanes c m)) := by
  have hne : (s.execLanes c m == 0) = false := by
    rw [beq_eq_false_iff_ne]
    intro h0
    simp [h0, laneBit] at hi
  rw [State.perLane, State.execs_single c hm hg, List.foldl_cons, List.foldl_nil, hne, if_neg Bool.false_ne_true, State.group?_key hg]

theorem State.group?_putFixed {s : State} {k : GKey} {g : Group} (hg : s.group? k = some g) (lat : Nat) (ws : List Write) :
    (s.putFixed k lat ws).group? k =
      some { g with inFlight := g.inFlight ++ [⟨some (s.clk + lat), 0, ws, [], s.tick, none, none, [], s.cur.cls⟩] } :=
  State.group?_modGroup_same (f := fun g =>
    { g with inFlight := g.inFlight ++ [⟨some (s.clk + lat), 0, ws, [], s.tick, none, none, [], s.cur.cls⟩] }) (fun _ => rfl) hg

/-- The write of a one-register vector result gives a lane of its mask the lane's word. -/
theorem writesV_groupWrites {n : VReg} {k : Mask} {i : Nat} (hk : laneBit k i = true) (v : Unit → List Nat) (x : Unit → Nat)
    (hi : i < (v ()).length) : writesV n.toNat i (groupWrites (.v n) 1 k v x) = some (halfWord (nth 0 (v ()) i) 0) := by
  have h1 : groupWrites (.v n) 1 k v x = [.v n.toNat k ((v ()).map (fun y => halfWord y 0))] := rfl
  rw [h1, writesV, if_pos ⟨rfl, hk⟩, nth_map 0 0 _ _ hi]

/-- The issue of one group where nothing waits: lane `i` of v `n` receives a word `r` by the newest result on its way. -/
def LaneGets (c : Ctl) (s : State) (m : Member) (n : VReg) (i : Nat) (j : Instr) (r : Word) : Prop :=
  ∀ d, Ready j c d s → d.walks = [] →
    ∃ t e, exec j s = .next t ∧ t.newest m.key = some e ∧ e.due = some (s.clk + 4) ∧ writesV n.toNat i e.writes = some r

theorem laneGets_of_groupWrites {c : Ctl} {s : State} {m : Member} {g : Group} {n : VReg} {i : Nat} {j : Instr}
    {v : State → Group → Mask → Unit → List Nat} {x : State → Group → Mask → Unit → Nat} (hm : s.cur.members = [m])
    (hg : s.group? m.key = some g) (hi : laneBit (s.execLanes c m) i = true) (hs : s.Calm)
    (hx : ∀ s, exec j s = issue j c s (fun s => .done (s.perLane c 4 (fun g k => groupWrites (.v n) 1 k (v s g k) (x s g k)))))
    (hj : directAccess j = false) (hl : i < (v s g (s.execLanes c m) ()).length) :
    LaneGets c s m n i j (halfWord (nth 0 (v s g (s.execLanes c m) ()) i) 0) := by
  intro d hr hd
  have he := exec_done (hx s) hj hr hd
  rw [State.perLane_single hm hg hi] at he
  generalize hw : groupWrites (.v n) 1 (s.execLanes c m) (v s g (s.execLanes c m)) (x s g (s.execLanes c m)) = ws at he
  have hput : (s.putFixed m.key 4 ws).Calm := (Keeps.putFixed (P := fun _ => True) trivial).calm hs
  obtain ⟨h, hh, -, ⟨es, hes, hnone⟩, -⟩ := (hput.finish_done_keeps (P := fun _ => False) j c hd).group? (State.group?_putFixed hg 4 ws)
  have hes0 : es = [] := List.eq_nil_iff_forall_not_mem.2 hnone
  refine ⟨_, ⟨some (s.clk + 4), 0, ws, [], s.tick, none, none, [], s.cur.cls⟩, he, ?_, rfl, ?_⟩
  · rw [State.newest, hh, Option.bind_some, hes, hes0, List.append_nil, List.getLast?_concat]
  · rw [← hw]
    exact writesV_groupWrites hi _ (x s g (s.execLanes c m)) hl

/-- Settles O2: each form's lanes hold the exact result of the sources' numbers, kept to 32 bits. -/
theorem integerLaneValues : Obligations.IntegerLaneValues := by
  unfold Obligations.IntegerLaneValues
  intro c n a b d s m g i hm hg hi hbit x gives hs ha hb hb3
  have ha' : i < (s.vec g 1 0 a).length := ha ▸ hi
  have hb' : i < (s.vec g 2 0 b).length := hb ▸ hi
  have hb3' : i < (s.vec g 3 0 b).length := hb3 ▸ hi
  have lane : ∀ {j : Instr} {r r' : Word}, LaneGets c s m n i j r → r = r' → gives j r' := by
    rintro j r _ h rfl
    exact h d
  have binary : ∀ (op : Int → Int → Int), halfWord (nth 0 (List.zipWith (fun p q => resNat .w32 (op p q)) (s.ints g 1 .w32 a)
      (s.ints g 2 .w32 b)) i) 0 = BitVec.ofInt 32 (op (x 1 a).toNat (x 2 b).toNat) := by
    intro op
    rw [State.ints_w32, State.ints_w32, nth_zipWith 0 0 _ _ _ _ (by simpa using ha') (by simpa using hb'), nth_map 0 0 _ _ ha',
      nth_map 0 0 _ _ hb', halfWord_resNat_w32]
  have len : ∀ (op : Int → Int → Nat), i < (List.zipWith op (s.ints g 1 .w32 a) (s.ints g 2 .w32 b)).length := by
    intro op
    simp [State.ints_w32, ha', hb']
  have get := @laneGets_of_groupWrites c s m g n i
  refine ⟨lane (get hm hg hbit hs (fun _ => rfl) rfl (len _)) ?add, lane (get hm hg hbit hs (fun _ => rfl) rfl (len _)) ?sub,
    lane (get hm hg hbit hs (fun _ => rfl) rfl (len _)) ?mul, lane (get hm hg hbit hs (fun _ => rfl) rfl ?movLen) ?mov,
    lane (get hm hg hbit hs (fun _ => rfl) rfl ?andLen) ?and⟩
  case add => exact (binary (fun p q => p + q)).trans (by rw [BitVec.ofInt_add, ofInt_toNat, ofInt_toNat])
  case sub => exact (binary (fun p q => p - q)).trans (by
    rw [Int.sub_eq_add_neg, BitVec.ofInt_add, BitVec.ofInt_neg, ofInt_toNat, ofInt_toNat, BitVec.sub_eq_add_neg])
  case mul => exact (binary (fun p q => p * q)).trans (by rw [BitVec.ofInt_mul, ofInt_toNat, ofInt_toNat])
  case movLen => simpa [State.raws] using ha'
  case mov => rw [State.raws, nth_map 0 0 _ _ ha', halfWord_toNat]
  case andLen => simp [zip3_eq_zipWith, State.raws, ha', hb', hb3']
  case and =>
    rw [zip3_eq_zipWith, nth_zipWith (fun _ => 0) 0 _ _ _ _ (by simp [State.raws, ha', hb']) (by simpa [State.raws] using hb3'),
      nth_zipWith 0 0 _ _ _ _ (by simpa [State.raws] using ha') (by simpa [State.raws] using hb'), State.raws, State.raws,
      nth_map 0 0 _ _ ha', nth_map 0 0 _ _ hb']
    exact halfWord_bitfnNat_and _ _ _

end Sys2Proof.Machine
end

section
/-! SUPPORT. Lanes that pass an instruction, the end test of a COUNT loop, and a group as it launches (R60 to R62, R80, R146). -/

namespace Sys2Proof.Machine

/- ### Lanes that move -/

theorem nth_map_range {α : Type} (d : α) (f : Nat → α) {n i : Nat} (hi : i < n) : nth d ((List.range n).map f) i = f i := by
  rw [nth_eq_getElem d _ i (by simpa using hi), List.getElem_map, List.getElem_range]

/-- Lanes of the mask stand in the clause place given, the others as they stood. -/
theorem Group.nth_moveLanes_clause (g : Group) (m : Mask) (pc : Word) (pos : Option ClausePos) {i : Nat} (hi : i < W) :
    nth none (g.moveLanes m pc pos).clause i = if laneBit m i then pos else nth none g.clause i := nth_map_range _ _ hi

/-- Lanes of the mask are free, the others wait as they waited. -/
theorem Group.nth_moveLanes_wait (g : Group) (m : Mask) (pc : Word) (pos : Option ClausePos) {i : Nat} (hi : i < W) :
    nth .free (g.moveLanes m pc pos).wait i = if laneBit m i then .free else nth .free g.wait i := nth_map_range _ _ hi

/- ### The end test (R80) -/

/-- A COUNT loop with more than one iteration left goes back to its start, its counter less one. -/
theorem Group.levelTest_of_count {g : Group} {k : Nat} {l : LoopLevel} (hl : l.kind = .count) (hk : 2 ≤ (regLc g k).toNat) :
    g.levelTest k l = ({ g with lc := setAt g.lc k (regLc g k - 1) }, true) := by
  have hmore : ¬ (regLc g k).toNat ≤ 1 := by omega
  have hgo : (regLc g k).toNat - 1 ≠ 0 := by omega
  have hless : BitVec.ofNat 32 ((regLc g k).toNat - 1) = regLc g k - 1 := by bv_omega
  simp [Group.levelTest, hl, hmore, hgo, hless]

/-- Lanes that come to the exit of such a loop, the innermost, go back to its start. -/
theorem Group.pass_of_count {g : Group} {l : LoopLevel} (hg : g.levels.getLast? = some l) (hl : l.kind = .count)
    (hk : 2 ≤ (regLc g (g.levels.length - 1)).toNat) (m : Mask) :
    g.pass m l.exit none =
      Group.moveLanes { g with lc := setAt g.lc (g.levels.length - 1) (regLc g (g.levels.length - 1) - 1) } m l.start none := by
  simp [Group.pass, Group.endTest, hg, Group.levelTest_of_count hl hk]

/-- Settles O60: without a level lanes come to the next instruction, and the end test of a COUNT loop that goes on takes them back. -/
theorem passingLanes : Obligations.PassingLanes := by
  unfold Obligations.PassingLanes
  intro g m next pos hpcs
  refine ⟨fun hnone i hi => ?_, ?_⟩
  · rw [Group.pass_of_levels_nil hnone]
    exact ⟨g.nth_moveLanes_pcs hpcs m next pos hi, g.nth_moveLanes_clause m next pos hi, g.nth_moveLanes_wait m next pos hi⟩
  · rintro l rfl hlast rfl hcount hthree hlc hmore
    rw [Group.pass_of_count hlast hcount hmore]
    have hin : g.levels.length - 1 < g.lc.length := by omega
    exact ⟨nth_setAt_same _ _ _ _ hin, rfl, fun i hi => Group.nth_moveLanes_pcs hpcs m l.start none hi⟩

/- ### A group at launch (R62) -/

/-- The group that a team's placing adds: a fresh one, in a debug stop where its context is. -/
theorem State.group?_placeGroup {s : State} {l : Launch} {team g : Nat} (core : CKey) (h : ∀ x ∈ s.groups, x.key ≠ ⟨l.id, team, g⟩) :
    ∃ slot stop, (s.placeGroup l team core g).group? ⟨l.id, team, g⟩ =
      some { Group.fresh ⟨l.id, team, g⟩ l.ctx core (l.d.part g) (l.d.party g) slot l.d.vregs l.d.sregs l.d.yregs l.d.entry
        (s.nomark l.ctx) l.inits s.clk with dstop := stop } := by
  have hnone : s.groups.find? (fun x => x.key == ⟨l.id, team, g⟩) = none := List.find?_eq_none.2 fun x hx => by simpa using h x hx
  have hfind : ∀ x : Group, x.key = ⟨l.id, team, g⟩ → (s.groups ++ [x]).find? (fun x => x.key == ⟨l.id, team, g⟩) = some x := by
    intro x hx
    rw [List.find?_append, hnone, Option.none_or, List.find?_cons_of_pos (by simp [hx])]
  exact ⟨_, _, (State.group?_modPart _ _ _ _).trans (hfind _ rfl)⟩

/-- A scalar that the launch does not give keeps the value that it had. -/
theorem nth_foldl_setAt_of_ne (d : Word) (n : Nat) (inits : List (SReg × Word)) (h : ∀ x ∈ inits, x.1.toNat ≠ n) :
    ∀ r : List Word, nth d (inits.foldl (fun l x => setAt l x.1.toNat x.2) r) n = nth d r n := by
  induction inits with
  | nil => exact fun _ => rfl
  | cons x inits ih =>
    intro r
    rw [List.foldl_cons, ih (fun y hy => h y (List.mem_cons_of_mem _ hy)), nth_setAt_other _ _ _ (h x List.mem_cons_self).symm]

/-- Settles O45: the group that the placing adds is a fresh one, whose fields and registers are those of R62. -/
theorem placedGroupIsFresh : Obligations.PlacedGroupIsFresh := by
  unfold Obligations.PlacedGroupIsFresh
  intro s l team g core h
  obtain ⟨slot, stop, hplaced⟩ := State.group?_placeGroup core h
  refine ⟨_, hplaced, rfl, rfl, rfl, rfl, fun i hi => ⟨nth_replicate _ _ hi, nth_replicate _ _ hi, nth_replicate _ _ hi⟩, ?vector, ?scalar,
    ?party, rfl, rfl, rfl, rfl, rfl, rfl, rfl, rfl⟩
  case vector => exact fun n hn => nth_map_range _ _ hn
  case scalar =>
    intro n hn hgiven
    rw [Nat.add_assoc]
    exact (nth_foldl_setAt_of_ne _ n _ hgiven _).trans (nth_map_range _ _ hn)
  case party =>
    intro n hn
    rw [Nat.add_assoc]
    exact nth_map_range _ _ hn

/-- Settles O51: each field is as reset leaves it, and an empty memory is in its canonical form. -/
theorem resetState : Obligations.ResetState :=
  ⟨⟨rfl, rfl, rfl⟩, rfl, rfl, rfl, rfl, rfl, rfl, rfl, rfl, rfl, rfl, rfl, rfl, rfl, rfl, rfl, rfl, rfl, rfl, rfl, rfl, rfl⟩

end Sys2Proof.Machine
end

section
/-! SUPPORT. The return from a fault: what passing, the walks of the faulting instruction and the end of the handler change of a
suspended group (R87, R111, R325). -/

namespace Sys2Proof.Machine

/-- The lanes of `h` may stand elsewhere than those of `g`, and loop levels may have ended: nothing else differs. -/
def Group.MovedTo (g h : Group) : Prop :=
  ∃ pcs clause wait lc levels, h = { g with pcs := pcs, clause := clause, wait := wait, lc := lc, levels := levels }

theorem Group.MovedTo.refl (g : Group) : g.MovedTo g := ⟨_, _, _, _, _, rfl⟩

theorem Group.MovedTo.trans {g h k : Group} (h1 : g.MovedTo h) (h2 : h.MovedTo k) : g.MovedTo k := by
  obtain ⟨_, _, _, _, _, rfl⟩ := h1
  obtain ⟨_, _, _, _, _, rfl⟩ := h2
  exact ⟨_, _, _, _, _, rfl⟩

theorem Group.movedTo_moveLanes (g : Group) (m : Mask) (pc : Word) (pos : Option ClausePos) : g.MovedTo (g.moveLanes m pc pos) :=
  ⟨_, _, _, _, _, rfl⟩

theorem Group.movedTo_levelTest (g : Group) (k : Nat) (l : LoopLevel) : g.MovedTo (g.levelTest k l).1 := by
  unfold Group.levelTest
  split
  · exact ⟨_, _, _, _, _, rfl⟩
  · exact ⟨_, _, _, _, _, rfl⟩

theorem Group.movedTo_endTest (exit : Word) (fuel : Nat) : ∀ g : Group, g.MovedTo (g.endTest exit fuel).1 := by
  induction fuel with
  | zero => exact .refl
  | succ fuel ih =>
    intro g
    unfold Group.endTest
    split
    · exact .refl g
    · next l _ =>
      split
      · exact .refl g
      · extract_lets r _ g1
        have tested : g.MovedTo r.1 := g.movedTo_levelTest _ l
        split
        · exact tested
        · have left : g.MovedTo (g1.endTest exit fuel).1 := (tested.trans ⟨_, _, _, _, _, rfl⟩).trans (ih g1)
          split
          · next h => rw [h] at left; exact left
          · next h => rw [h] at left; exact left

theorem Group.movedTo_pass (g : Group) (m : Mask) (next : Word) (pos : Option ClausePos) : g.MovedTo (g.pass m next pos) := by
  unfold Group.pass
  split
  · exact g.movedTo_moveLanes _ _ _
  · have tested := Group.movedTo_endTest next 3 g
    split
    · next h => rw [h] at tested; exact tested.trans (Group.movedTo_moveLanes _ _ _ _)
    · next h => rw [h] at tested; exact tested.trans (Group.movedTo_moveLanes _ _ _ _)

/-- The lanes of a suspended group for which the faulting instruction counts as issued. -/
def Group.goesOn (g : Group) : Rte → Mask
  | .skip => g.arrivedSet
  | .resume _ => g.arrivedSet &&& ~~~g.faultSet
  | .stay m => g.arrivedSet &&& ~~~(g.faultSet &&& m)
  | .replay _ => 0

/-- The end of the handler moves the lanes of a group, whose walks have advanced where lanes go on, and clears its handler bits. -/
theorem Group.endFault_eq (g : Group) (kind : Rte) (adv : Group → Group) (at_ : Nat) :
    ∃ h, (if g.goesOn kind = 0 then g else adv g).MovedTo h ∧
      g.endFault kind adv at_ = { h with inh := false, mask := false, susp := false, hpos := none, nextIssue := max h.nextIssue at_ } := by
  have passed : ∀ m : Mask,
      (if m = 0 then g else adv g).MovedTo (if m == 0 then g else (adv g).pass m g.faultNext g.faultPos) := by
    intro m
    by_cases hm : m = 0
    · rw [if_pos hm, if_pos (by simpa using hm)]
      exact .refl g
    · rw [if_neg hm, if_neg (by simpa using hm)]
      exact (adv g).movedTo_pass m g.faultNext g.faultPos
  cases kind with
  | skip => exact ⟨_, passed _, rfl⟩
  | resume t => exact ⟨_, (passed _).trans (Group.movedTo_moveLanes _ _ _ _), rfl⟩
  | stay m => exact ⟨_, (passed _).trans (Group.movedTo_moveLanes _ _ _ _), rfl⟩
  | replay sc => exact ⟨_, ⟨_, _, _, _, _, rfl⟩, rfl⟩

theorem Group.endFault_key {adv : Group → Group} (hadv : ∀ g, (adv g).key = g.key) (g : Group) (kind : Rte) (at_ : Nat) :
    (g.endFault kind adv at_).key = g.key := by
  obtain ⟨h, ⟨_, _, _, _, _, rfl⟩, he⟩ := g.endFault_eq kind adv at_
  rw [he]
  dsimp only
  split
  · rfl
  · exact hadv g

/-- Walks that advance are all that changes of a group. -/
theorem Group.foldl_qAdvance_eq (ns : List Nat) : ∀ g : Group, ∃ q, ns.foldl (fun h n => h.qAdvance n) g = { g with q := q } := by
  induction ns with
  | nil => exact fun g => ⟨g.q, rfl⟩
  | cons n ns ih =>
    intro g
    obtain ⟨q, hq⟩ := ih (g.qAdvance n)
    exact ⟨q, hq⟩

/-- The walks of a faulting instruction are all that its return may advance. -/
theorem State.advance_eq {s : State} {g : Group} {adv : Group → Group} (hadv : adv = id ∨ adv = s.faultWalks g) (h : Group) :
    adv h = { h with q := (adv h).q } := by
  have advanced : ∃ q, adv h = { h with q := q } := by
    rcases hadv with rfl | rfl
    · exact ⟨h.q, rfl⟩
    · exact Group.foldl_qAdvance_eq _ h
  obtain ⟨q, hq⟩ := advanced
  rw [hq]

theorem State.group?_returnFault {s : State} {k : GKey} {h : Group} (hh : s.group? k = some h) (g : Group) (kind : Rte)
    {adv : Group → Group} (hadv : ∀ x, (adv x).key = x.key) (at_ : Nat) : (s.returnFault g kind adv at_).group? k =
      some (if k ∈ (s.suspendedWith g).map (·.key) then h.endFault kind adv at_ else h) := by
  unfold State.returnFault
  rw [State.group?_modGroups, hh, Option.map_some, State.group?_key hh]
  · simp only [List.contains_iff_mem]
  · intro x
    split
    · exact x.endFault_key hadv kind at_
    · rfl

/-- Settles O36: a suspended group ends its handler as `Group.endFault_eq` says, every other group stays. -/
theorem returnClearsTheHandlerBits : Obligations.ReturnClearsTheHandlerBits := by
  unfold Obligations.ReturnClearsTheHandlerBits
  intro s g kind adv at_ k h hh hadv t past
  have hkey : ∀ x, (adv x).key = x.key := fun x => (congrArg Group.key (State.advance_eq hadv x) :)
  have hpast : past = h.goesOn kind := by cases kind <;> rfl
  have ht := State.group?_returnFault hh g kind hkey at_
  refine ⟨fun hk => ?_, fun hk => ?_, rfl⟩
  · rw [if_pos hk] at ht
    have advanced : (if h.goesOn kind = 0 then h else adv h) = { h with q := if h.goesOn kind = 0 then h.q else (adv h).q } := by
      split
      · rfl
      · exact State.advance_eq hadv h
    obtain ⟨x, moved, hx⟩ := h.endFault_eq kind adv at_
    rw [advanced] at moved
    obtain ⟨_, _, _, _, _, rfl⟩ := moved
    refine ⟨_, ht, ?_⟩
    rw [hx, hpast]
    exact ⟨rfl, rfl, rfl, le_max_right _ _, rfl, rfl, rfl, rfl, rfl, rfl, rfl, rfl, rfl, rfl, rfl, rfl, rfl⟩
  · rw [if_neg hk] at ht
    exact ht

end Sys2Proof.Machine
end

section
/-! SUPPORT. What a control instruction does where it is ready: the branches whose targets are good, and where each lane of a branch
stands when it has issued (R65 to R69, R81). -/

namespace Sys2Proof.Machine

/- ### Completing with an effect -/

/-- An instruction whose issue has an effect completes with every effect that agrees with it where `P` holds. -/
theorem completesIf_of_exec {i : Instr} {c : Ctl} {P : State → Prop} {eff eff' : State → Eff}
    (hx : ∀ s, exec i s = issue i c s eff) (h : ∀ s, P s → eff s = eff' s) : CompletesIf i c P eff' := by
  intro d s hr hP
  rw [hx, issue_completes hr, h _ hP]

theorem completes_of_exec {i : Instr} {c : Ctl} {eff : State → Eff} (hx : ∀ s, exec i s = issue i c s eff) : Completes i c eff :=
  completesIf_of_exec hx fun _ _ => rfl

/-- The effect on the group of an issue of one. -/
theorem onGroup_of_group? {c : Ctl} {s : State} {m : Member} {ms : List Member} {g : Group} (hm : s.cur.members = m :: ms)
    (hg : s.group? m.key = some g) (f : Group → Member → Mask → Eff) : onGroup c s f = f g m (s.execLanes c m) := by
  simp only [onGroup, hm, hg]

/- ### Branches whose targets are good -/

/-- Where every target is a word of the image, no lane of a branch faults (R63, R68). -/
theorem jumpEff_of_targetsGood {c : Ctl} {tgt : State → Group → Nat → Option Word} {s : State} (h : s.TargetsGood c tgt)
    (link : Mask → List Write) (pen : List Word → Nat → Nat) : jumpEff c tgt link pen s = branchTo c tgt link pen s := by
  refine onGroup_congr h fun g m e good => ?_
  have sound : ((lanesOf e).filterMap (fun i => (tgt s g i).map (fun t => (i, t)))).filterMap (fun x => (s.targetFault g x.2).map (fun f =>
      LaneFault.mk g.key (BitVec.ofNat 64 (2 ^ x.1)) f 0 (x.2.zeroExtend 64))) = [] := by
    rw [List.filterMap_eq_nil_iff]
    intro x hx
    obtain ⟨i, hi, hit⟩ := List.mem_filterMap.1 hx
    obtain ⟨t, ht, rfl⟩ := Option.map_eq_some_iff.1 hit
    rw [good i hi t ht, Option.map_none]
  dsimp only
  rw [sound]
  rfl

/-- Where no loop level is active, a branch to a register target, CALL and RET are branches (R81). -/
theorem noLoops_of_straight {c : Ctl} {s : State} (h : s.OnIssuer c (fun g _ _ => g.levels = [])) {eff : State → Eff}
    {f : Group → Member → Mask → Eff} (heff : eff s = onGroup c s f) : noLoops c eff s = eff s := by
  unfold noLoops
  cases hm : s.cur.members with
  | nil => simp only [heff, onGroup, hm]
  | cons m ms =>
    cases hg : s.group? m.key with
    | none => simp only [heff, onGroup, hm, hg]
    | some g => rw [onGroup_of_group? hm hg, if_pos (List.isEmpty_iff.2 (h m ms g hm hg))]

/-- Settles O4: the shared effect of the branches, where it faults in no lane. -/
theorem branchResults : Obligations.BranchResults := by
  unfold Obligations.BranchResults
  intro c neg dim hint off a k straight direct cond
  have outsideLoops : ∀ {tgt : State → Group → Nat → Option Word} {link : State → Mask → List Write} {pen : List Word → Nat → Nat}
      (s : State), straight s ∧ s.TargetsGood c tgt →
        noLoops c (fun s => jumpEff c tgt (link s) pen s) s = branchTo c tgt (link s) pen s := by
    rintro tgt link pen s ⟨hs, ht⟩
    exact (noLoops_of_straight hs rfl).trans (jumpEff_of_targetsGood ht _ _)
  refine ⟨?bra, ?brc, ?brx, ?call, ?callReg, ?ret⟩
  case bra => exact completesIf_of_exec (fun _ => rfl) fun s hs => jumpEff_of_targetsGood hs _ _
  case brc => exact completesIf_of_exec (fun _ => rfl) fun s hs => jumpEff_of_targetsGood hs _ _
  case brx => exact completesIf_of_exec (fun _ => rfl) outsideLoops
  case call => exact completesIf_of_exec (fun _ => rfl) outsideLoops
  case callReg => exact completesIf_of_exec (fun _ => rfl) outsideLoops
  case ret => exact completesIf_of_exec (fun _ => rfl) outsideLoops

/- ### Lanes that go to an address -/

theorem mem_lanesOf {m : Mask} {i : Nat} : i ∈ lanesOf m ↔ i < W ∧ laneBit m i = true := by
  rw [lanesOf, List.mem_filter, List.mem_range]

theorem laneBit_and (a b : Mask) (i : Nat) : laneBit (a &&& b) i = (laneBit a i && laneBit b i) := BitVec.getLsbD_and

/-- The mask of one lane. -/
theorem laneBit_two_pow (j : Nat) {i : Nat} (hi : i < W) : laneBit (BitVec.ofNat 64 (2 ^ j)) i = decide (j = i) := by
  rw [laneBit, BitVec.getLsbD_ofNat, decide_eq_true hi, Bool.true_and, Nat.testBit_two_pow]

theorem State.goTo_eq {s : State} (hp : s.cur.phase = .group) (k : GKey) (m : Mask) (t : Word) :
    s.goTo k m t = s.modGroup k (fun g => g.moveLanes (m &&& g.live) t none) := by
  simp [State.goTo, hp]

theorem State.goTo_cur (s : State) (k : GKey) (m : Mask) (t : Word) : (s.goTo k m t).cur = s.cur := by
  unfold State.goTo
  split
  · rfl
  · rfl

/-- The live lanes of a mask stand at the address to which they go. -/
theorem State.group?_goTo {s : State} {k : GKey} {g : Group} (hp : s.cur.phase = .group) (hg : s.group? k = some g) (m : Mask) (t : Word) :
    (s.goTo k m t).group? k = some (g.moveLanes (m &&& g.live) t none) := by
  rw [State.goTo_eq hp]
  exact State.group?_modGroup_same (f := fun g => g.moveLanes (m &&& g.live) t none) (fun _ => rfl) hg

theorem length_mergeFrom (m k : Nat) (o x : Lanes) : (mergeFrom m k o x).length = o.length := by
  induction o generalizing k x with
  | nil => rfl
  | cons a o ih => cases x with
    | nil => rfl
    | cons b x => exact congrArg (· + 1) (ih (k + 1) x)

theorem Group.length_moveLanes_pcs (g : Group) (m : Mask) (pc : Word) (pos : Option ClausePos) :
    (g.moveLanes m pc pos).pcs.length = g.pcs.length := length_mergeFrom _ _ _ _

theorem Group.Calm.moveLanes_keeps {P : InFlight → Prop} {g : Group} (hg : g.Calm) (m : Mask) (pc : Word) (pos : Option ClausePos) :
    GroupKeeps P g (g.moveLanes m pc pos) := by
  have passed : GroupKeeps P g (g.pass m pc pos) := hg.pass_keeps m pc pos
  obtain ⟨hlevels, -⟩ := hg
  rwa [Group.pass_of_levels_nil hlevels] at passed

/-- Where nothing waits, lanes that go to an address leave what an issue leaves. -/
theorem State.Calm.goTo_keeps {P : InFlight → Prop} {s : State} (hs : s.Calm) (k : GKey) (m : Mask) (t : Word) : Keeps P s (s.goTo k m t) := by
  unfold State.goTo
  split
  · exact Keeps.modGroup fun _ _ => .of_inFlight rfl rfl id
  · exact Keeps.modGroup fun g hg => (hs g hg).moveLanes_keeps _ _ _

/-- Lanes that go one by one to one address: the live ones stand there, no other lane moves. -/
theorem State.group?_goTo_foldl (k : GKey) (t : Word) (takes : List (Nat × Word)) : ∀ {s : State} {g : Group}, s.cur.phase = .group →
    s.group? k = some g → g.pcs.length = W → (∀ x ∈ takes, x.2 = t) →
    ∃ h, (takes.foldl (fun s x => s.goTo k (BitVec.ofNat 64 (2 ^ x.1)) x.2) s).group? k = some h ∧ ∀ i, i < W →
      nth 0 h.pcs i = if laneBit g.live i = true ∧ i ∈ takes.map (·.1) then t else nth 0 g.pcs i := by
  induction takes with
  | nil => exact fun _ hg _ _ => ⟨_, hg, fun i hi => by simp⟩
  | cons x takes ih =>
    intro s g hp hg hl ht
    obtain ⟨rfl, ht⟩ := List.forall_mem_cons.1 ht
    obtain ⟨h, hh, hpcs⟩ := ih (by rw [State.goTo_cur]; exact hp) (State.group?_goTo hp hg (BitVec.ofNat 64 (2 ^ x.1)) x.2)
      ((g.length_moveLanes_pcs _ _ _).trans hl) ht
    refine ⟨h, hh, fun i hi => ?_⟩
    have first : laneBit (BitVec.ofNat 64 (2 ^ x.1) &&& g.live) i = (decide (x.1 = i) && laneBit g.live i) := by
      rw [laneBit_and, laneBit_two_pow _ hi]
    rw [hpcs i hi, Group.nth_moveLanes_pcs hl _ _ _ hi, first]
    by_cases hlive : laneBit g.live i = true
    · by_cases hx : x.1 = i
      · simp [hlive, hx]
      · simp [hlive, hx, Ne.symm hx]
    · simp [hlive]

/- ### What follows a branch -/

/-- An update of every group that moves no lane. -/
theorem State.group?_modGroups_pcs {s : State} {f : Group → Group} (hf : ∀ x, (f x).key = x.key ∧ (f x).pcs = x.pcs) {k : GKey} {g : Group}
    (hg : s.group? k = some g) : ∃ h, (s.modGroups f).group? k = some h ∧ h.pcs = g.pcs :=
  ⟨f g, by rw [State.group?_modGroups s f (fun x => (hf x).1), hg]; rfl, (hf g).2⟩

/-- The stamps of an issue move no lane. -/
theorem State.group?_stampAll {s : State} {k : GKey} {g : Group} (hg : s.group? k = some g) (c : Ctl) (d : Desc) (pen : Nat)
    (yieldNow : Bool) : ∃ h, (s.stampAll c d pen yieldNow).group? k = some h ∧ h.pcs = g.pcs := by
  unfold State.stampAll
  extract_lets ends keys pks all s1
  have stamped : ∃ h, s1.group? k = some h ∧ h.pcs = g.pcs := by
    refine State.group?_modGroups_pcs (fun x => ?_) hg
    extract_lets x1
    have timed : x1.key = x.key ∧ x1.pcs = x.pcs := by unfold x1; split <;> exact ⟨rfl, rfl⟩
    split
    · exact timed
    · split
      · exact timed
      · exact timed
  split
  · refine List.foldlRecOn (motive := fun u : State => ∃ h, u.group? k = some h ∧ h.pcs = g.pcs) pks _ stamped fun u hu p _ => ?_
    rwa [State.group?_modPart]
  · exact stamped

/-- Where nothing waits and no walk is read, lanes that an instruction has moved stay where they are. -/
theorem State.Calm.finish_moved_eq {s : State} (hs : s.Calm) (i : Instr) (c : Ctl) {d : Desc} (hd : d.walks = []) (pen : Nat) :
    finish i c d (.moved s pen) = s.stampAll c d pen false := by
  simp only [finish, State.onWalks_of_nil hd]
  exact ((State.stampAll_keeps (P := fun _ => True) s c d pen false).calm hs).settleAll_eq

/-- The lanes that take a branch to one address, with that address. -/
theorem mem_takes {tgt : Nat → Option Word} {take : Nat → Bool} {t : Word} (htgt : ∀ i, tgt i = if take i = true then some t else none)
    {e : Mask} (x : Nat × Word) : x ∈ (lanesOf e).filterMap (fun i => (tgt i).map (fun t => (i, t))) ↔
      (x.1 < W ∧ laneBit e x.1 = true) ∧ take x.1 = true ∧ x.2 = t := by
  rw [List.mem_filterMap]
  constructor
  · rintro ⟨i, hi, hx⟩
    rw [htgt, Option.map_eq_some_iff] at hx
    obtain ⟨w, hw, rfl⟩ := hx
    split at hw
    · next htake => exact ⟨mem_lanesOf.1 hi, htake, (Option.some_inj.1 hw).symm⟩
    · cases hw
  · rintro ⟨hx, htake, rfl⟩
    exact ⟨x.1, mem_lanesOf.2 hx, by rw [htgt, if_pos htake, Option.map_some]⟩

/-- Where a branch of one group to one address has issued: its lanes that take it stand there, the others at the issue point at the
next instruction, and no other lane has moved (R67). -/
theorem finish_branchTo_pcs {c : Ctl} {d : Desc} {s : State} {m : Member} {g : Group} {tgt : State → Group → Nat → Option Word}
    {t : Word} {take : Nat → Bool} (hd : d.walks = []) (hs : s.Calm) (hp : s.cur.phase = .group) (hm : s.cur.members = [m])
    (hmay : m.may = m.lanes) (hg : s.group? m.key = some g) (hl : g.pcs.length = W)
    (htgt : ∀ i, tgt s g i = if take i = true then some t else none) (i : Instr) (pen : List Word → Nat → Nat) :
    ∃ h, (finish i c d (branchTo c tgt (fun _ => []) pen s)).group? m.key = some h ∧ ∀ i, i < W →
      nth 0 h.pcs i =
        if laneBit (m.lanes &&& g.live) i then (if laneBit (s.guardMask g c.guard) i ∧ take i = true then t else s.cur.next)
        else nth 0 g.pcs i := by
  have executing : s.execLanes c m = m.lanes &&& s.guardMask g c.guard := by simp [State.execLanes, hg, hp, hmay]
  unfold branchTo
  rw [onGroup_of_group? hm hg, State.group?_key hg]
  extract_lets takes s1
  have falling : (s1.goTo m.key m.lanes s.cur.next).group? m.key = some (g.moveLanes (m.lanes &&& g.live) s.cur.next none) :=
    State.group?_goTo hp hg _ _
  have mem : ∀ x, x ∈ takes ↔ (x.1 < W ∧ laneBit (m.lanes &&& s.guardMask g c.guard) x.1 = true) ∧ take x.1 = true ∧ x.2 = t := by
    rw [← executing]
    exact mem_takes htgt
  have taking : ∀ j, j < W → (j ∈ takes.map (·.1) ↔ laneBit (m.lanes &&& s.guardMask g c.guard) j = true ∧ take j = true) := by
    intro j hj
    simp [List.mem_map, mem, hj]
  obtain ⟨h, hh, hpcs⟩ := State.group?_goTo_foldl m.key t takes (by rw [State.goTo_cur]; exact hp) falling
    ((g.length_moveLanes_pcs _ _ _).trans hl) (fun x hx => ((mem x).1 hx).2.2)
  have calm : (takes.foldl (fun s x => s.goTo m.key (BitVec.ofNat 64 (2 ^ x.1)) x.2) (s1.goTo m.key m.lanes s.cur.next)).Calm :=
    (Keeps.foldl (P := fun _ => True) (fun u hu x => (hu.calm hs).goTo_keeps _ _ _) takes _ (hs.goTo_keeps _ _ _)).calm hs
  rw [calm.finish_moved_eq i c hd]
  obtain ⟨h', hh', hpcs'⟩ := State.group?_stampAll hh c d _ false
  refine ⟨h', hh', fun j hj => ?_⟩
  rw [hpcs', hpcs j hj, Group.nth_moveLanes_pcs hl _ _ _ hj]
  simp only [taking j hj, Group.moveLanes_live]
  by_cases hlive : laneBit g.live j = true
  · by_cases hat : laneBit m.lanes j = true
    · simp [laneBit_and, hlive, hat]
    · simp [laneBit_and, hlive, hat]
  · simp [laneBit_and, hlive]

/-- Settles O5: what O4 says that a BRA and a BRC leave, lane by lane. -/
theorem branchMovesItsLanes : Obligations.BranchMovesItsLanes := by
  unfold Obligations.BranchMovesItsLanes
  intro c neg dim a hint off d s m g target holds moves
  obtain ⟨hbra, hbrc, -⟩ := branchResults c neg dim hint off a a
  have moved : ∀ {x : Instr} {tgt : State → Group → Nat → Option Word} {pen : List Word → Nat → Nat} {take : Nat → Bool},
      CompletesIf x c (fun s => s.TargetsGood c tgt) (branchTo c tgt (fun _ => []) pen) → directAccess x = false →
      (∀ i, tgt s g i = if take i = true then some target else none) → moves x take := by
    intro x tgt pen take hx haccess htgt hr hd hs hp hm hmay hg hl hgood
    have hnext := hx d s hr
    rw [State.walked_of_nil haccess hd] at hnext
    have good : s.TargetsGood c tgt := by
      intro m' ms g' hm' hg' i hi t ht
      obtain rfl : m = m' := (List.cons.inj (hm.symm.trans hm')).1
      obtain rfl : g = g' := Option.some_inj.1 (hg.symm.trans hg')
      exact hgood m ms g hm' hg i hi t ((htgt i).symm.trans ht)
    obtain ⟨h, hh, hpcs⟩ := finish_branchTo_pcs hd hs hp hm hmay hg hl htgt x pen
    exact ⟨_, h, hnext good, hh, hpcs⟩
  have tests : ∀ i, brcTest s g neg dim.val a i = (holds i != neg) := fun i => by cases a <;> rfl
  exact ⟨moved hbra rfl fun _ => rfl, moved hbrc rfl fun i => by rw [tests i]; rfl⟩

end Sys2Proof.Machine
end

section
/-! SUPPORT. The other control instructions, each with its own effect where its setup is legal (R70 to R93). -/

namespace Sys2Proof.Machine

section effects
variable {c : Ctl}

/-- EXIT ends the group where no live lane is left (R70). -/
theorem exit_completes : Completes (.exit c) c (fun s => onGroup c s (fun g mb e =>
    let s1 := (s.goTo g.key (mb.lanes &&& ~~~e) s.cur.next).modGroup g.key (fun g => g.exitLanes e)
    .moved (if g.live &&& ~~~e = 0 then s1.groupEnded g else s1) 0)) := by
  refine completesIf_of_exec (fun _ => rfl) fun s _ => congrArg (onGroup c s) ?_
  funext g mb e
  simp only [beq_iff_eq]

/-- LOOP enters its level, or skips a body of no iterations (R79). -/
theorem loop_completes (lc : LcReg) (count : Opd) (len : BitVec 10) :
    CompletesIf (.loop c lc count len) c (fun s => s.OnIssuer c (fun g _ _ => s.loopOk g lc.val len.toNat true = true))
      (fun s => onGroup c s (fun g m _ =>
        .moved (s.enterLoop g m.lanes lc.val len.toNat (s.scal g 1 0 count == 0) .count (s.scal g 1 0 count)) 0)) :=
  completesIf_of_exec (fun _ => rfl) fun _ hs => onGroup_congr hs fun _ _ _ legal => if_pos legal

/-- LOOPQ enters its level, or skips a body whose walk is empty (R79). -/
theorem loopq_completes (lc : LcReg) (q : QReg) (len : BitVec 10) (dim : Fin 3) :
    CompletesIf (.loopq c lc q len dim) c
      (fun s => s.OnIssuer c (fun g _ _ => s.loopOk g lc.val len.toNat true = true ∧ regQ g q.toNat ≠ none))
      (fun s => onGroup c s (fun g m _ =>
        .moved (s.enterLoop g m.lanes lc.val len.toNat ((regQ g q.toNat).any QBind.empty) (.queue q dim) 0) 0)) := by
  refine completesIf_of_exec (fun _ => rfl) fun s hs => onGroup_congr hs ?_
  rintro g m e ⟨legal, hbound⟩
  cases hq : regQ g q.toNat with
  | none => exact absurd hq hbound
  | some b => exact if_pos legal

/-- LBRK of an active level goes to its exit (R82). -/
theorem lbrk_completes (n : Fin 3) :
    CompletesIf (.lbrk c n) c (fun s => s.OnIssuer c (fun g _ _ => n.val < g.levels.length))
      (fun s => onGroup c s (fun g m e =>
        let exit := match g.levels.reverse[n.val]? with | some l => l.exit | none => s.cur.next
        .moved ((s.goTo g.key m.lanes s.cur.next).goTo g.key e exit) 0)) := by
  refine completesIf_of_exec (fun _ => rfl) fun s hs => onGroup_congr hs fun g m e active => ?_
  have hlevel : g.levels.reverse[n.val]? = some (g.levels.reverse[n.val]'(by rwa [List.length_reverse])) := List.getElem?_eq_getElem _
  simp only [hlevel]

/-- The binding that QBIND makes of the scalars that it reads (R85, R86). -/
def State.boundBy (s : State) (g : Group) (h ds : SReg) (it : IT) : QBind :=
  let w := fun (j : Nat) => s.scal g 2 j (.s ds)
  let empty := w 2 == 0 || w 4 == 0 || w 6 == 0
  QBind.mk (s.scal g 1 0 (.s h)) it (w 0) (w 1) (w 2) (w 3) (w 4) (w 5) (w 6) (w 7) 0 0 0 empty empty empty []

/-- QBIND binds an empty walk, or one that its buffer admits (R86). -/
theorem qbind_completes (q : QReg) (h ds : SReg) (it : IT) :
    CompletesIf (.qbind c q h ds it) c
      (fun s => s.OnIssuer c (fun g _ e =>
        e ≠ 0 ∧ ((s.boundBy g h ds it).e0 = true ∨ s.bindFault g.ctx (s.boundBy g h ds it) = none)))
      (fun s => onGroup c s (fun g _ _ => .done (s.putVar g.key [.q q.toNat (some (s.boundBy g h ds it))]))) := by
  refine completesIf_of_exec (fun _ => rfl) fun s hs => onGroup_congr hs ?_
  rintro g m e ⟨executes, admitted⟩
  change (if e == 0 then _ else if (s.boundBy g h ds it).e0 then _ else match s.bindFault g.ctx (s.boundBy g h ds it) with
    | some _ => _ | none => _) = _
  rw [if_neg (by simpa using executes)]
  rcases admitted with hempty | hfits
  · rw [if_pos hempty]; rfl
  · rw [hfits]
    split <;> rfl

/-- QSKIP moves a walk on, but for an empty one (R91). -/
theorem qskip_completes (q : QReg) (n : Opd) : Completes (.qskip c q n) c (fun s => onGroup c s (fun g _ e =>
    let k := if e = 0 then 0 else (s.scal g 1 0 n).toNat
    .done (s.modGroup g.key (fun g => { g with q := modAt g.q q.toNat (fun x => x.map (fun b =>
      if k = 0 ∨ b.empty = true then b else { b.skip k with ahead := b.ahead.drop k })) })))) := by
  refine completesIf_of_exec (fun _ => rfl) fun s _ => congrArg (onGroup c s) ?_
  funext g m e
  simp only [beq_iff_eq, Bool.or_eq_true, decide_eq_true_eq]

end effects

/-- Settles O3: the effect that each instruction's issue has, where its setup is legal. -/
theorem controlResults : Obligations.ControlResults := by
  unfold Obligations.ControlResults
  refine ⟨fun c => ⟨completes_of_exec fun _ => rfl, completes_of_exec fun _ => rfl⟩, ?masks, ?loops, ?walks⟩
  case masks =>
    intro c op m ma mb d a
    exact ⟨exit_completes, completes_of_exec fun _ => rfl, completes_of_exec fun _ => rfl, completes_of_exec fun _ => rfl,
      completes_of_exec fun _ => rfl, completes_of_exec fun _ => rfl, completes_of_exec fun _ => rfl, completes_of_exec fun _ => rfl⟩
  case loops =>
    intro c lc count len q dim n
    exact ⟨loop_completes lc count len, loopq_completes lc q len dim, lbrk_completes n⟩
  case walks =>
    intro c q h ds it d n sel
    exact ⟨qbind_completes q h ds it, completes_of_exec fun _ => rfl, qskip_completes q n⟩

end Sys2Proof.Machine
end

section
/-! SUPPORT. SIGN at the issue point of its lanes, and the other convergence instructions where they are ready (R103, R112 to R116, R395). -/

namespace Sys2Proof.Machine

/-- The instruction counts on no scoreboard and reads no walk: where it issues nothing holds it back (R37, R87). -/
theorem run_of_no_walks {i : Instr} {d : Desc} (c : Ctl) (hi : directAccess i = false) (hl : d.lat ≠ .var) (hd : d.walks = []) (s : State)
    (eff : State → Eff) : run i c d s eff = finish i c d (eff s) := by
  have board : (d.lat == Lat.var) = false := by simpa using hl
  simp [run, hi, hd, State.onWalks_of_nil hd, State.walkFaults, State.walkTransit, board]

/-- SIGN acts at the issue point of its lanes, whatever its scope (R103). -/
theorem exec_sign {c : Ctl} {d : Desc} {s : State} {g : Group} {m : Member} {ms : List Member} (hd : (Instr.sign c).desc = some d)
    (hm : s.cur.members = m :: ms) (hg : s.group? m.key = some g) (hp : s.cur.phase ≠ .instance_)
    (hc : precheck (.sign c) c d s g = none) : exec (.sign c) s = .next (finish (.sign c) c d (signEff c s)) := by
  have hi : s.issuer = some g := by simp only [State.issuer, hm, hg]
  have phase : (s.cur.phase == Phase.instance_) = false := by simpa using hp
  have ran : exec (.sign c) s = .next (run (.sign c) c d s (signEff c)) := by
    change issueWith true _ _ _ _ = _
    simp only [issueWith, hd, hm, hi, phase, hc, Bool.or_true, Bool.false_eq_true, if_false, if_true]
  rw [ran, run_of_no_walks c rfl (by cases hd; decide) (by cases hd; rfl)]

/-- Settles O6: SIGN's effect in the lanes that have not signed the open generation, and where all have. -/
theorem signResult : Obligations.SignResult := by
  unfold Obligations.SignResult
  intro c d s g m ms i hd hm hg hp hc openGen held go
  rw [exec_sign hd hm hg hp hc]
  have effect : signEff c s = if go == 0 then .waits (s.modGroup m.key (fun g => g.setWait held (.sigHold c.scope openGen)))
      else .moved ((s.fenceTeam m.key go).modGroup m.key (fun g =>
        ((g.fillSig c.scope go (some openGen)).pass go s.cur.next s.cur.pos.after).setWait held (.sigHold c.scope openGen))) 0 := by
    simp only [signEff, hm, hg]
    rfl
  refine ⟨fun some_go => ?_, fun none_go => ?_⟩
  · rw [effect, if_neg (by simpa using some_go)]
  · rw [effect, if_pos (by simpa using none_go)]

/-- An effect that leaves the state as it is in the issuing group leaves it so where the issue names none too. -/
theorem onGroup_eq_done {c : Ctl} {s : State} {P : Group → Member → Mask → Prop} {f : Group → Member → Mask → Eff} (h : s.OnIssuer c P)
    (hf : ∀ g m e, P g m e → f g m e = .done s) : onGroup c s f = .done s := by
  rw [onGroup_congr h hf]
  unfold onGroup
  split
  · split <;> rfl
  · rfl

/-- A handler's CVWAIT completes once the generation of its register is another than the value that it names (R395). -/
theorem cvwait_completes (c : Ctl) (a : Opd) (sel : Fin 10) : CompletesIf (.cvwait c a sel) c
    (fun s => s.cur.phase ≠ .handler ∨
      s.OnIssuer c (fun g _ _ => s.gen (g.selReg sel.val) ≠ BitVec.ofNat 16 (nth 0 (s.vec g 1 0 a) 0).toNat))
    (fun s => if s.cur.phase = .handler then .done s else cvwaitEff c a sel s) := by
  refine completesIf_of_exec (fun _ => rfl) fun s hs => ?_
  by_cases handler : s.cur.phase = .handler
  · rw [if_pos handler]
    refine onGroup_eq_done (hs.resolve_left (not_not_intro handler)) fun g _ _ other => ?_
    have other : (s.gen (g.selReg sel.val) == BitVec.ofNat 16 (nth 0 (s.vec g 1 0 a) 0).toNat) = false := by simpa using other
    simp only [handler, other, beq_self_eq_true, if_true, Bool.false_eq_true, if_false]
  · rw [if_neg handler]

/-- Settles O7: the effect that each instruction's issue has, CVWAIT's where a handler's wait is over. -/
theorem convergenceResults : Obligations.ConvergenceResults := by
  unfold Obligations.ConvergenceResults
  intro c a d l sel
  exact ⟨cvwait_completes c a sel, completes_of_exec fun _ => rfl, completes_of_exec fun _ => rfl, completes_of_exec fun _ => rfl⟩

end Sys2Proof.Machine
end

section
/-! SUPPORT. The system instructions, each with its own effect (R111, R320, R324 to R330). -/

namespace Sys2Proof.Machine

section effects
variable {c : Ctl}

/-- An instruction that acts on the issuing group completes with every effect that agrees with its own where `P` holds. -/
theorem completesIf_onGroup {i : Instr} {P : State → Group → Member → Mask → Prop} {f f' : State → Group → Member → Mask → Eff}
    (hx : ∀ s, exec i s = issue i c s (fun s => onGroup c s (f s))) (hf : ∀ s g m x, P s g m x → f s g m x = f' s g m x) :
    CompletesIf i c (fun s => s.OnIssuer c (P s)) (fun s => onGroup c s (f' s)) :=
  completesIf_of_exec hx fun s hs => onGroup_congr hs (hf s)

theorem completes_onGroup {i : Instr} {f f' : State → Group → Member → Mask → Eff}
    (hx : ∀ s, exec i s = issue i c s (fun s => onGroup c s (f s))) (hf : ∀ s g m x, f s g m x = f' s g m x) :
    Completes i c (fun s => onGroup c s (f' s)) :=
  completesIf_of_exec hx fun s _ => congrArg (onGroup c s) (funext fun g => funext fun m => funext fun x => hf s g m x)

/-- An effect on the issuing group that does nothing where no lane executes leaves the state there (R324, R328). -/
theorem idle_completes {i : Instr} {f : State → Group → Member → Mask → Eff} (hx : ∀ s, exec i s = issue i c s (fun s => onGroup c s (f s)))
    (hf : ∀ s g m, f s g m 0 = .done s) : CompletesIf i c (fun s => s.OnIssuer c (fun _ _ x => x = 0)) .done := by
  refine completesIf_of_exec hx fun s hs => onGroup_eq_done hs ?_
  rintro g m x rfl
  exact hf s g m

/-- TRAP raises SOFT_TRAP with its word in FAULTADDR (R324). -/
theorem trap_completes (a : Opd) : CompletesIf (.trap c a) c (fun s => s.OnIssuer c (fun _ _ x => x ≠ 0 ∧ True))
    (fun s => onGroup c s (fun g m x => .fault s [⟨m.key, x, .softTrap, 0, (s.scal g 1 0 a).zeroExtend 64⟩])) := by
  refine completesIf_onGroup (fun _ => rfl) ?_
  rintro s g m x ⟨executes, -⟩
  exact if_neg (by simpa using executes)

/-- BRK raises SOFT_TRAP in a context that is not being debugged (R328). -/
theorem brk_traps : CompletesIf (.brk c) c (fun s => s.OnIssuer c (fun g _ x => x ≠ 0 ∧ s.dbg g.ctx = false))
    (fun s => onGroup c s (fun _ m x => .fault s [⟨m.key, x, .softTrap, 0, 0xFFFFFFFF⟩])) := by
  refine completesIf_onGroup (fun _ => rfl) ?_
  rintro s g m x ⟨executes, notDebugged⟩
  rw [if_neg (by simpa using executes), if_neg (by simp [notDebugged])]
  rfl

/-- BRK stops a context that is being debugged (R328). -/
theorem brk_stops : CompletesIf (.brk c) c (fun s => s.OnIssuer c (fun g _ x => x ≠ 0 ∧ s.dbg g.ctx = true))
    (fun s => onGroup c s (fun g _ _ => .done (s.debugStop g.ctx))) := by
  refine completesIf_onGroup (fun _ => rfl) ?_
  rintro s g m x ⟨executes, debugged⟩
  rw [if_neg (by simpa using executes), if_pos debugged]

/-- RTE.resume ends the handler where RESUMEPC lies in the image (R325). -/
theorem rteResume_completes : CompletesIf (.rteResume c) c (fun s => s.OnIssuer c (fun g _ _ => s.inImage g g.resume = true))
    (fun s => onGroup c s (fun g _ _ =>
      .moved (s.endHandler g (if g.resume = g.resume0 then .skip else .resume g.resume) (s.clk + 1 + c.stall.toNat)) 0)) := by
  refine completesIf_onGroup (fun _ => rfl) fun s g m x inside => ?_
  rw [if_neg (by simp [inside])]
  simp only [beq_iff_eq]
  rfl

end effects

/-- Settles O33: the effect that each instruction's issue has; GSR, SSR and HALT test for an executing lane. -/
theorem systemResults : Obligations.SystemResults := by
  unfold Obligations.SystemResults
  refine ⟨?traps, ?returns, ?registers⟩
  case traps =>
    intro c a
    exact ⟨trap_completes a, brk_traps, brk_stops, idle_completes (fun _ => rfl) fun _ _ _ => rfl,
      idle_completes (fun _ => rfl) fun _ _ _ => rfl⟩
  case returns =>
    intro c a
    exact ⟨completes_of_exec fun _ => rfl, completes_of_exec fun _ => rfl, rteResume_completes⟩
  case registers =>
    intro c r sel b d
    exact ⟨completes_onGroup (fun _ => rfl) fun _ _ _ _ => by simp only [beq_iff_eq],
      completes_onGroup (fun _ => rfl) fun _ _ _ _ => by simp only [beq_iff_eq],
      completes_onGroup (fun _ => rfl) fun _ _ _ _ => by simp only [beq_iff_eq], completes_of_exec fun _ => rfl⟩

end Sys2Proof.Machine
end

section
/-! SUPPORT. A fault that enters its handler: who handles it, and what it leaves in each of its groups and in the others (R110, R320,
R321). -/

namespace Sys2Proof.Machine

/- ### Members of a scope after an update of every group -/

section everyGroup
variable {u : Group → Group} (hkey : ∀ g, (u g).key = g.key)
include hkey

theorem State.teamGroups_modGroups (s : State) (k : GKey) : (s.modGroups u).teamGroups k = (s.teamGroups k).map u := by
  simp only [State.teamGroups, State.group?_modGroups s u hkey, List.map_filterMap]

theorem State.partyGroups_modGroups (hparty : ∀ g, (u g).party = g.party ∧ (u g).part = g.part) (s : State) (g : Group) :
    (s.modGroups u).partyGroups (u g) = (s.partyGroups g).map u := by
  simp only [State.partyGroups, hkey, (hparty _).1, (hparty _).2, State.teamGroups_modGroups hkey]
  cases g.party with
  | none => rfl
  | some p =>
    simp only [List.filter_map]
    congr 2
    funext x
    simp only [Function.comp, (hparty x).1, (hparty x).2]

theorem indexOfKey_map (k : GKey) (gs : List Group) : indexOfKey k (gs.map u) = indexOfKey k gs := by
  induction gs with
  | nil => rfl
  | cons g gs ih => simp only [List.map_cons, indexOfKey, hkey, ih]

/-- The number of a member stays where groups keep their parties (R110). -/
theorem State.selOf_modGroups (hparty : ∀ g, (u g).party = g.party ∧ (u g).part = g.part) (s : State) (g : Group) (sc : Scope) :
    (s.modGroups u).selOf (u g) sc = s.selOf g sc := by
  cases sc with
  | lane => rfl
  | group => rfl
  | party => simp only [State.selOf, State.memberIndex, State.partyGroups_modGroups hkey hparty, hkey, indexOfKey_map hkey]
  | team => simp only [State.selOf, hkey]

theorem State.arrivedGroups_modGroups (s : State) (f : FaultInfo) :
    f.arrived.filterMap (fun x => (s.modGroups u).group? x.1) = (f.arrived.filterMap (fun x => s.group? x.1)).map u := by
  simp only [State.group?_modGroups s u hkey, List.map_filterMap]

/-- The handling member stays where groups keep their live lanes (R110). -/
theorem State.handling_modGroups (hlive : ∀ g, (u g).live = g.live) (s : State) (f : FaultInfo) :
    (s.modGroups u).handling f = (s.handling f).map u := by
  rw [State.handling, State.arrivedGroups_modGroups hkey, List.find?_map]
  simp only [Function.comp_def, hlive, State.handling]

end everyGroup

/- ### The groups of a fault -/

/-- The fault is one of the group: lanes of it stand at the instruction (R110). -/
def FaultInfo.names (f : FaultInfo) (k : GKey) : Bool := f.arrived.any (fun x => x.1 == k)

theorem FaultInfo.names_of_mem {f : FaultInfo} {x : GKey × Mask} (hx : x ∈ f.arrived) : f.names x.1 = true :=
  List.any_eq_true.2 ⟨x, hx, beq_self_eq_true _⟩

theorem FaultInfo.names_eq_false {f : FaultInfo} {k : GKey} (h : ∀ x ∈ f.arrived, x.1 ≠ k) : f.names k = false :=
  List.any_eq_false.2 fun x hx => by simpa using h x hx

theorem State.handling_spec {s : State} {f : FaultInfo} {h : Group} (hh : s.handling f = some h) :
    s.group? h.key = some h ∧ f.names h.key = true := by
  obtain ⟨x, hx, found⟩ := List.mem_filterMap.1 (List.mem_of_find?_eq_some hh)
  rw [State.group?_key found]
  exact ⟨found, f.names_of_mem hx⟩

/-- A single step of the group is over where the fault is its own (R332). -/
def FaultInfo.stepEnded (f : FaultInfo) (g : Group) : Group := if f.names g.key then { g with stepOne := false } else g

theorem State.endSteps_eq (s : State) (f : FaultInfo) : s.endSteps f = s.modGroups f.stepEnded := rfl

@[simp] theorem FaultInfo.stepEnded_key (f : FaultInfo) (g : Group) : (f.stepEnded g).key = g.key := by unfold stepEnded; split <;> rfl
@[simp] theorem FaultInfo.stepEnded_ctx (f : FaultInfo) (g : Group) : (f.stepEnded g).ctx = g.ctx := by unfold stepEnded; split <;> rfl
@[simp] theorem FaultInfo.stepEnded_party (f : FaultInfo) (g : Group) : (f.stepEnded g).party = g.party := by unfold stepEnded; split <;> rfl
@[simp] theorem FaultInfo.stepEnded_part (f : FaultInfo) (g : Group) : (f.stepEnded g).part = g.part := by unfold stepEnded; split <;> rfl
@[simp] theorem FaultInfo.stepEnded_live (f : FaultInfo) (g : Group) : (f.stepEnded g).live = g.live := by unfold stepEnded; split <;> rfl
@[simp] theorem FaultInfo.stepEnded_mask (f : FaultInfo) (g : Group) : (f.stepEnded g).mask = g.mask := by unfold stepEnded; split <;> rfl
@[simp] theorem FaultInfo.stepEnded_susp (f : FaultInfo) (g : Group) : (f.stepEnded g).susp = g.susp := by unfold stepEnded; split <;> rfl

/-- Where a fault has a handler and no member among those at the instruction is masked or suspended, taking it writes the fault
registers and enters the handler (R321). -/
theorem State.takeFault_eq_enterHandler {s : State} {f : FaultInfo} {h : Group} {c : Ctx} (hh : s.handling f = some h)
    (hc : s.ctx? h.ctx = some c) (running : c.halt = none) (handler : c.trapvec ≠ 0) (code : f.code ≠ .dieLost)
    (unmasked : ∀ x ∈ f.arrived, ∀ g, s.group? x.1 = some g → g.mask = false ∧ g.susp = false) :
    s.takeFault f = ((s.endSteps f).writeFaultRegs f (s.selOf h f.scope)).enterHandler f h.key c.trapvec := by
  have handles : (s.endSteps f).handling f = some (f.stepEnded h) := by
    rw [State.endSteps_eq, State.handling_modGroups f.stepEnded_key f.stepEnded_live, hh, Option.map_some]
  have inContext : (s.endSteps f).ctx? (f.stepEnded h).ctx = some c := by rw [f.stepEnded_ctx]; exact hc
  have free : (f.arrived.filterMap (fun x => (s.endSteps f).group? x.1)).any (fun g => g.mask || g.susp) = false := by
    rw [State.endSteps_eq, State.arrivedGroups_modGroups f.stepEnded_key, List.any_map, List.any_eq_false]
    intro g hg
    obtain ⟨x, hx, found⟩ := List.mem_filterMap.1 hg
    obtain ⟨hm, hs⟩ := unmasked x hx g found
    simp [hm, hs]
  have number : (s.endSteps f).selOf (f.stepEnded h) f.scope = s.selOf h f.scope :=
    State.selOf_modGroups f.stepEnded_key (fun g => ⟨f.stepEnded_party g, f.stepEnded_part g⟩) s h f.scope
  have code : (f.code == FaultCode.dieLost) = false := by simpa using code
  have handler : (c.trapvec == 0) = false := by simpa using handler
  simp only [State.takeFault, handles, inContext, free, number, code, running, handler, Option.isSome_none,
    Bool.false_eq_true, if_false, f.stepEnded_key]

/-- The fault registers that a fault leaves in a group (R321). -/
def FaultInfo.regs (f : FaultInfo) (sel : Nat) (k : GKey) : FaultRegs :=
  { code := BitVec.ofNat 32 f.code.num, pc := f.pc, lanes := lanesFor k f.lanes, reg := BitVec.ofNat 32 f.reg, addr := f.addr,
    scope := BitVec.ofNat 32 (scopeFaultNum f.scope + sel * 2 ^ 8 + f.arrived.length * 2 ^ 16), groups := BitVec.ofNat 32 (groupsWord f.arrived) }

/-- A group that has taken a fault with a handler, `h` the handling member: its fault registers hold it, and it runs the handler or is
suspended (R110, R321). -/
def FaultInfo.entered (f : FaultInfo) (sel : Nat) (h : GKey) (vec : Word) (g : Group) : Group :=
  let g1 := { g with stepOne := false, fault := f.regs sel g.key, arrived := lanesFor g.key f.arrived, faultNext := f.next, faultPos := f.pos }
  if g.key = h then
    { g1 with resume := f.next, resume0 := f.next, inh := true, mask := true, entries := min (g.entries + 1) 65535, hpc := vec, hpos := none }
  else { g1 with susp := true }

/-- A group after an update of every group, by what the update does to a group of its name. -/
theorem State.group?_modGroups_of_key {u v : Group → Group} (hkey : ∀ g, (u g).key = g.key) {k : GKey} (huv : ∀ g, g.key = k → u g = v g)
    (s : State) : (s.modGroups u).group? k = (s.group? k).map v := by
  rw [State.group?_modGroups s u hkey]
  exact Option.map_congr fun g hg => huv g (State.group?_key hg)

theorem State.group?_endSteps (s : State) (f : FaultInfo) (k : GKey) :
    (s.endSteps f).group? k = (s.group? k).map (fun g => if f.names k then { g with stepOne := false } else g) := by
  rw [State.endSteps_eq]
  refine State.group?_modGroups_of_key f.stepEnded_key ?_ s
  rintro g rfl
  rfl

theorem State.group?_writeFaultRegs (s : State) (f : FaultInfo) (sel : Nat) (k : GKey) : (s.writeFaultRegs f sel).group? k =
    (s.group? k).map (fun g => if f.names k then
      { g with fault := f.regs sel k, arrived := lanesFor k f.arrived, faultNext := f.next, faultPos := f.pos } else g) := by
  refine State.group?_modGroups_of_key (fun g => by split <;> rfl) ?_ s
  rintro g rfl
  rfl

theorem State.group?_enterHandler (s : State) (f : FaultInfo) (h : GKey) (vec : Word) (k : GKey) : (s.enterHandler f h vec).group? k =
    (s.group? k).map (fun g =>
      if k = h then
        { g with resume := f.next, resume0 := f.next, inh := true, mask := true, entries := min (g.entries + 1) 65535, hpc := vec, hpos := none }
      else if f.names k then { g with susp := true }
      else g) := by
  refine State.group?_modGroups_of_key (fun g => ?_) ?_ s
  · split
    · rfl
    · split <;> rfl
  · rintro g rfl
    simp only [beq_iff_eq]
    rfl

/-- Where a fault enters the handler the groups of the fault change, and those alone (R110, R321). -/
theorem State.group?_entered (s : State) (f : FaultInfo) (sel : Nat) {h : GKey} (hh : f.names h = true) (vec : Word) (k : GKey) :
    (((s.endSteps f).writeFaultRegs f sel).enterHandler f h vec).group? k =
      (s.group? k).map (fun g => if f.names k then f.entered sel h vec g else g) := by
  rw [State.group?_enterHandler, State.group?_writeFaultRegs, State.group?_endSteps, Option.map_map, Option.map_map]
  refine Option.map_congr fun g hg => ?_
  obtain rfl := State.group?_key hg
  cases named : f.names g.key with
  | true => simp only [Function.comp, if_true, FaultInfo.entered]
  | false =>
    have other : g.key ≠ h := by
      rintro rfl
      rw [hh] at named
      cases named
    simp only [Function.comp, other, Bool.false_eq_true, if_false]

/-- Settles O34: taking the fault is entering the handler, which leaves in each group of the fault what `FaultInfo.entered` says. -/
theorem faultEntersTheHandler : Obligations.FaultEntersTheHandler := by
  unfold Obligations.FaultEntersTheHandler
  intro s f h c hh hc running handler code unmasked t same rec_
  obtain ⟨found, named⟩ := State.handling_spec hh
  have ht : t = ((s.endSteps f).writeFaultRegs f (s.selOf h f.scope)).enterHandler f h.key c.trapvec :=
    State.takeFault_eq_enterHandler hh hc running handler code unmasked
  have groups : ∀ k, t.group? k = (s.group? k).map (fun g => if f.names k then f.entered (s.selOf h f.scope) h.key c.trapvec g else g) := by
    rw [ht]
    exact State.group?_entered s f _ named _
  refine ⟨?handling, ?suspended, ?others, ?_⟩
  case handling =>
    have entered := groups h.key
    rw [found, Option.map_some, if_pos named] at entered
    refine ⟨_, entered, ?_⟩
    simp [FaultInfo.entered, FaultInfo.regs, same, rec_]
  case suspended =>
    intro x hx g hg other
    have entered := groups x.1
    rw [hg, Option.map_some, if_pos (FaultInfo.names_of_mem hx)] at entered
    refine ⟨_, entered, ?_⟩
    simp [FaultInfo.entered, FaultInfo.regs, same, rec_, State.group?_key hg, other]
  case others =>
    intro k away
    simp [groups, FaultInfo.names_eq_false away]
  rw [ht]
  exact ⟨rfl, rfl, rfl, rfl⟩

end Sys2Proof.Machine
end

section
/-! SUPPORT. The arrival at a wider scope, which also notes its tick in the group (R97, R99). -/

namespace Sys2Proof.Machine

/-- GROUP scope, with nothing else of R26. -/
def groupScope : Ctl := ⟨0, .group, none, false, false⟩

/-- A whole group has come to a NOP at GROUP scope, at tick 1. -/
def atGroupNop : State :=
  State.atIssue { State.reset.withProbe ((encode (.nop groupScope)).getD 0 0).toNat with tick := 1 } ⟨0, 0, 0⟩
    { Issue.idle with phase := .group, pc := 4, next := 8, pos := ⟨0, 1⟩, members := [⟨⟨0, 0, 0⟩, allLanes, allLanes⟩] }

/-- The state that O38 says an arrival leaves. -/
def State.statedArrival (s : State) (c : Ctl) (m : Member) (g : Group) : State :=
  let sg := s.signedLanes g c.scope m.lanes
  ((s.modGroup m.key (fun g =>
    { ((g.fillSig c.scope sg.2 none).setWait sg.1 (.sigHold c.scope (s.gen (g.convReg c.scope) + 1))).setWait
        (m.lanes &&& ~~~sg.1) (.held c.scope) with heldSince := none })).settle m.key).endStep m.key

/-- The tick at which lanes of group 0 last arrived, as the group notes it where an instruction has answered a next state (R99). -/
def arrivalNote : Host.Outcome State Fault Refusal → Option Nat
  | .next s => (s.group? ⟨0, 0, 0⟩).map (·.arrivedAt)
  | _ => none

theorem precheck_atGroupNop : ∀ g ∈ atGroupNop.group? ⟨0, 0, 0⟩, ∀ d ∈ (Instr.nop groupScope).desc,
    precheck (.nop groupScope) groupScope d atGroupNop g = none := by decide +kernel

/-- The arrival notes the tick at which it takes place. -/
theorem arrivalNote_atGroupNop : arrivalNote (exec (.nop groupScope) atGroupNop) = some 1 := by decide +kernel

/-- The state of O38 holds the note of an earlier time. -/
theorem arrivalNote_statedArrival : ∀ g ∈ atGroupNop.group? ⟨0, 0, 0⟩,
    arrivalNote (.next (atGroupNop.statedArrival groupScope ⟨⟨0, 0, 0⟩, allLanes, allLanes⟩ g)) = some 0 := by decide +kernel

/-- Refutes O38: the group also notes the tick at which its lanes arrived (`Group.arrivedAt`, by which R99 decides which writes are
seen), and the statement keeps the old note; a group that comes to a NOP at GROUP scope at tick 1 notes 1, where the statement has 0. -/
theorem not_widerScopeArrives : ¬ Obligations.WiderScopeArrives := by
  unfold Obligations.WiderScopeArrives
  intro h
  obtain ⟨g, hg⟩ : ∃ g, atGroupNop.group? ⟨0, 0, 0⟩ = some g := Option.isSome_iff_exists.1 (by decide +kernel)
  have stated : exec (.nop groupScope) atGroupNop = .next (atGroupNop.statedArrival groupScope ⟨⟨0, 0, 0⟩, allLanes, allLanes⟩ g) :=
    h (.nop groupScope) groupScope _ atGroupNop ⟨⟨0, 0, 0⟩, allLanes, allLanes⟩ [] g rfl rfl nofun rfl nofun rfl rfl hg
      (precheck_atGroupNop g hg _ rfl)
  have same : some 1 = some 0 :=
    arrivalNote_atGroupNop.symm.trans ((congrArg arrivalNote stated).trans (arrivalNote_statedArrival g hg))
  exact absurd same (by decide)

end Sys2Proof.Machine
end

section
/-! SUPPORT. The integer instructions, each with its exact result over the integers that its sources hold (R117, R118, R121 to R128). -/

namespace Sys2Proof.Machine

/- ### Numbers of `n` bits -/

/-- The low bits of an integer are its remainder. -/
theorem natCast_lowBits (n : Nat) (x : Int) : (lowBits n x : Int) = x % 2 ^ n := by
  have hpos : (0 : Int) < 2 ^ n := by positivity
  rw [lowBits, Nat.cast_pow, Nat.cast_ofNat, Int.toNat_of_nonneg (Int.emod_nonneg _ hpos.ne')]

/-- IABS's choice is the absolute value. -/
theorem natAbs_eq_ite (x : Int) : (if x < 0 then -x else x) = (x.natAbs : Int) := by
  split <;> omega

/- ### Effects that agree on every operand -/

section congr
variable {i : Instr} {c : Ctl} {d a b : Opd}

theorem completes_intUnary {src dst : IT} {op op' : Int → Int} (hx : ∀ s, exec i s = issue i c s (intUnary c src dst d a op))
    (hop : ∀ x, op x = op' x) : Completes i c (intUnary c src dst d a op') := by
  obtain rfl : op = op' := funext hop
  exact completes_of_exec hx

theorem completes_intBinary {it ib : IT} {sat : Bool} {op op' : Int → Int → Int}
    (hx : ∀ s, exec i s = issue i c s (intBinary c it ib sat d a b op)) (hop : ∀ x y, op x y = op' x y) :
    Completes i c (intBinary c it ib sat d a b op') := by
  obtain rfl : op = op' := funext₂ hop
  exact completes_of_exec hx

theorem completes_carryEff {it : IT} {k : MReg} {op : Int → Int → Int → Int} {out out' : Int → Bool}
    (hx : ∀ s, exec i s = issue i c s (carryEff c it d a b k op out)) (hout : ∀ r, out r = out' r) :
    Completes i c (carryEff c it d a b k op out') := by
  obtain rfl : out = out' := funext hout
  exact completes_of_exec hx

end congr

/- ### The forms whose result the statement writes over the integers -/

section forms
variable (c : Ctl) (it : IT) (d a b e : Opd)

/-- IMULH, the high half of the product (R122). -/
theorem imulh_completes : Completes (.imulh c it d a b) c (intBinary c it it false d a b (fun x y => x * y / 2 ^ it.bits)) :=
  completes_intBinary (fun _ => rfl) fun x y => by rw [Nat.cast_pow, Nat.cast_ofNat]

/-- IMIN (R122). -/
theorem imin_completes : Completes (.imin c it d a b) c (intBinary c it it false d a b (fun x y => if x ≤ y then x else y)) :=
  completes_intBinary (fun _ => rfl) Int.min_def

/-- IMAX (R122). -/
theorem imax_completes : Completes (.imax c it d a b) c (intBinary c it it false d a b (fun x y => if x ≤ y then y else x)) :=
  completes_intBinary (fun _ => rfl) Int.max_def

/-- SHL (R122). -/
theorem shl_completes : Completes (.shl c it d a b) c (intBinary c it .w32 false d a b (fun x y =>
    if it.bits ≤ shAmt y then 0 else x * 2 ^ shAmt y)) :=
  completes_intBinary (fun _ => rfl) fun x y => by rw [Nat.cast_pow, Nat.cast_ofNat]

/-- SHR, logical (R122). -/
theorem shr_completes : Completes (.shr c it d a b) c (intBinary c it .w32 false d a b (fun x y =>
    if it.bits ≤ shAmt y then 0 else x % 2 ^ it.bits / 2 ^ shAmt y)) :=
  completes_intBinary (fun _ => rfl) fun x y => by rw [Int.natCast_ediv, uns, natCast_lowBits, Nat.cast_pow, Nat.cast_ofNat]

/-- SAR, arithmetic (R122). -/
theorem sar_completes : Completes (.sar c it d a b) c (intBinary c it .w32 false d a b (fun x y =>
    sext it.bits (lowBits it.bits x) / 2 ^ min (shAmt y) it.bits)) :=
  completes_intBinary (fun _ => rfl) fun x y => by rw [Nat.cast_pow, Nat.cast_ofNat, uns]

/-- ROTL (R122). -/
theorem rotl_completes : Completes (.rotl c it d a b) c (intBinary c it .w32 false d a b (fun x y =>
    let k := shAmt y % it.bits
    x % 2 ^ it.bits * 2 ^ k % 2 ^ it.bits + x % 2 ^ it.bits / 2 ^ (it.bits - k))) :=
  completes_intBinary (fun _ => rfl) fun x y => by
    simp only [uns, Nat.cast_add, Int.natCast_ediv, Int.natCast_emod, Nat.cast_mul, natCast_lowBits, Nat.cast_pow, Nat.cast_ofNat]

/-- IADDC, whose carry is the bit past the type (R123). -/
theorem iaddc_completes (m : MReg) : Completes (.iaddc c it d a b m) c
    (carryEff c it d a b m (fun x y z => x + y + z) (fun r => decide (2 ^ it.bits ≤ r))) :=
  completes_carryEff (fun _ => rfl) fun r => by simp only [Nat.cast_pow, Nat.cast_ofNat]

/-- ISEL (R126). -/
theorem isel_completes : Completes (.isel c d a b e) c (fun s => .done (s.perLane c 4 (fun g l =>
    groupWrites d 1 l
      (fun _ => zip3 (fun x y z => if z = 0 then y else x) (s.raws g 1 a) (s.raws g 2 b) (s.raws g 3 e))
      (fun _ => if s.raw1 g 3 e = 0 then s.raw1 g 2 b else s.raw1 g 1 a)))) :=
  completesIf_of_exec (fun _ => rfl) fun s _ => by simp only [ite_not]

end forms

/-- Settles O1: every integer instruction completes with the effect that its exact result gives. -/
theorem integerResults : Obligations.IntegerResults := by
  unfold Obligations.IntegerResults
  refine ⟨?binary, ?others, ?carries⟩
  case binary =>
    intro c it sat d a b
    exact ⟨completes_of_exec fun _ => rfl, completes_of_exec fun _ => rfl, completes_of_exec fun _ => rfl, imulh_completes c it d a b,
      imin_completes c it d a b, imax_completes c it d a b, shl_completes c it d a b, shr_completes c it d a b, sar_completes c it d a b,
      rotl_completes c it d a b⟩
  case others =>
    intro c it src sat d a b e
    exact ⟨completes_intUnary (fun _ => rfl) natAbs_eq_ite, completes_of_exec fun _ => rfl, completes_of_exec fun _ => rfl,
      completes_of_exec fun _ => rfl, completes_of_exec fun _ => rfl, completes_of_exec fun _ => rfl, completes_of_exec fun _ => rfl,
      completes_of_exec fun _ => rfl, completes_of_exec fun _ => rfl⟩
  case carries =>
    intro c it p hi k imm16 imm m d a b e
    exact ⟨iaddc_completes c it d a b m, completes_of_exec fun _ => rfl, completes_of_exec fun _ => rfl, isel_completes c d a b e,
      completes_of_exec fun _ => rfl, completes_of_exec fun _ => rfl, completes_of_exec fun _ => rfl, completes_of_exec fun _ => rfl⟩

end Sys2Proof.Machine
end

section
/-! SUPPORT. The cross-lane instructions, each with its own effect over the span (R129 to R134). -/

namespace Sys2Proof.Machine

section forms
variable (c : Ctl)

/-- LGET: a lane of the span, or 0 beyond it (R134). -/
theorem lget_completes (r : SReg) (a b : Opd) : Completes (.lget c r a b) c (fun s => onGroup c s (fun g _ e =>
    .done (if e = 0 then s else s.putFixed g.key 4 [.s r.toNat
      (match s.laneReach g (s.scal g 2 0 b).toNat with | some (h, i) => nth 0 (s.vec h 1 0 a) i | none => 0)]))) :=
  completes_onGroup (fun _ => rfl) fun _ _ _ _ => congrArg Eff.done (if_congr beq_iff_eq rfl rfl)

/-- LPUT: one lane of the span is written, and none beyond it (R134). -/
theorem lput_completes (d a b : Opd) : Completes (.lput c d a b) c (fun s => onGroup c s (fun g _ e =>
    .done (match s.laneReach g (s.scal g 2 0 b).toNat with
      | some (h, i) => if e = 0 then s else
          s.putFixed h.key 4 (writeVec d 0 (BitVec.ofNat 64 (2 ^ i)) (List.replicate W (s.scal g 1 0 a)))
      | none => s))) := by
  refine completes_onGroup (fun _ => rfl) fun s g _ e => ?_
  cases s.laneReach g (s.scal g 2 0 b).toNat with
  | none => rfl
  | some x => exact congrArg Eff.done (if_congr beq_iff_eq rfl rfl)

/-- LRED: the members get the combined value of the executing lanes, and nothing where none executes (R132). -/
theorem lred_completes (op : RedOp) (it : IT) (d a : Opd) : Completes (.lred c op it d a) c (fun s =>
    let vals := (s.spanExec c).map (fun i => nth 0 (s.spanInts c 1 it a) i)
    .done (s.everyMember c none (fun _ m =>
      match vals with
      | [] => []
      | x :: t =>
        if d.isScalarDst then resWrites1 d it.run (resNat it (t.foldl (redOp op it) x))
        else if m == 0 then [] else resWrites d it.run m (List.replicate W (resNat it (t.foldl (redOp op it) x)))))) := by
  refine completesIf_of_exec (fun _ => rfl) fun s _ => ?_
  dsimp only
  cases (s.spanExec c).map (fun i => nth 0 (s.spanInts c 1 it a) i) with
  | nil => rfl
  | cons x t => rfl

end forms

/-- Settles O8: every cross-lane instruction completes with its results over the span. -/
theorem crossLaneResults : Obligations.CrossLaneResults := by
  unfold Obligations.CrossLaneResults
  refine ⟨?lanes, ?spans⟩
  case lanes =>
    intro c op d a b r
    exact ⟨completes_of_exec fun _ => rfl, completes_of_exec fun _ => rfl, lget_completes c r a b, lput_completes c d a b⟩
  case spans =>
    intro c op vo it excl d a
    exact ⟨lred_completes c op it d a, completes_of_exec fun _ => rfl, completes_of_exec fun _ => rfl, completes_of_exec fun _ => rfl⟩

end Sys2Proof.Machine
end

section
/-! SUPPORT. A relaxed load of device memory at its own die: the frame that it reaches, the bytes that it finds now, and those that it
finds when it is performed later (R206, R211, R215, R272, R281). -/

namespace Sys2Proof.Machine

/- ### Reaching a frame that its context holds -/

@[simp] theorem State.post_bufBase (s : State) (kind die ctx : Nat) (p0 : Word) (p1 : BitVec 64) :
    (s.post kind die ctx p0 p1).bufBase = s.bufBase := by
  simp only [State.post, State.ringEvent, State.setOverflow, apply_ite State.bufBase, ite_self]

@[simp] theorem State.checkHot_bufBase (s : State) (ctx die k : Nat) : (s.checkHot ctx die k).bufBase = s.bufBase := by
  simp only [State.checkHot, apply_ite State.bufBase, State.post_bufBase, ite_self]

@[simp] theorem State.countFrame_bufBase (s : State) (ctx die line : Nat) : (s.countFrame ctx die line).bufBase = s.bufBase := by
  simp only [State.countFrame, apply_ite State.bufBase, State.checkHot_bufBase, State.setFrame_bufBase, ite_self]

section held
variable {s : State} {ctx : Nat} {p : Phys}

/-- A context reaches a frame that it holds, and that no reset left: the die is touched and the access counted. -/
theorem State.reach_of_holdsFrame (hp : p.space = .dev) (hf : s.holdsFrame ctx p = true) (hr : frameKey p.addr ∉ s.retained) :
    s.reach ctx p = (s.touch ctx p.die).countFrame ctx p.die (p.addr / 256) := by
  have kept : (s.touch ctx p.die).ownFrame ctx (frameKey p.addr) = s.touch ctx p.die := by
    refine if_pos ?_
    change ((decide (frameOwner (s.frame (frameKey p.addr)) = ctx) && !s.retained.contains (frameKey p.addr)) ||
      framePinned (s.frame (frameKey p.addr))) = true
    simpa [State.holdsFrame, hp, hr] using hf
  simp only [State.reach, hp, kept]

theorem State.reach_mem_of_holdsFrame (hp : p.space = .dev) (hf : s.holdsFrame ctx p = true) (hr : frameKey p.addr ∉ s.retained) :
    (s.reach ctx p).mem = s.mem := by
  rw [State.reach_of_holdsFrame hp hf hr, State.countFrame_mem]
  rfl

/-- The tables of the part lie where they lay. -/
theorem State.reach_meetsTable_of_holdsFrame (hp : p.space = .dev) (hf : s.holdsFrame ctx p = true) (hr : frameKey p.addr ∉ s.retained)
    (a n : Nat) : (s.reach ctx p).meetsTable a n = s.meetsTable a n := by
  rw [State.reach_of_holdsFrame hp hf hr, State.meetsTable, State.countFrame_bufBase]
  rfl

end held

/- ### Nothing is pending -/

section idle
variable {s : State} (idle : ∀ h ∈ s.groups, h.pending = [])
include idle

/-- Where no access is pending, none is performed before another. -/
theorem State.pull_idle (k : GKey) (test : Pending → Bool) : s.pull k test = s := by
  have none_first : ∀ t : Group → Pending → Bool, s.pullIf t = s := by
    intro t
    have none : s.groups.filter (fun h => h.pending.any (t h)) = [] :=
      List.filter_eq_nil_iff.2 fun h hh => by simp [idle h hh]
    rw [State.pullIf, none]
    rfl
  unfold State.pull
  split
  · rfl
  · exact none_first _

theorem State.before_idle {k : GKey} {g : Group} (hg : s.group? k = some g) (p : Pending) : s.before k p = s := by
  rw [State.before, State.performNeed_empty hg (idle g (State.group?_mem hg)), State.pull_idle idle]

end idle

/- ### The bytes at the load's own die -/

section home
variable {s : State} {g : Group} {p : Phys} (hd : p.die = g.core.die)
include hd

/-- No read copy serves a load at the home of its line. -/
theorem State.fromCopy_home (who : Mask) (fresh : Bool) : s.fromCopy g who p fresh = none := by
  simp [State.fromCopy, hd]

theorem State.keepCopy_home (who : Mask) (fresh : Bool) : s.keepCopy g who p fresh = s := by
  simp [State.keepCopy, hd]

/-- Where no table lies, the load finds the bytes of the memory. -/
theorem State.loadBytes_home (hp : p.space = .dev) (ht : tierOf p.addr = 0) {n : Nat} (hm : s.meetsTable p.addr n = false) (who : Mask)
    (fresh : Bool) : s.loadBytes g who p n fresh = Memory.bytes s.mem p.addr n := by
  simp [State.loadBytes, State.fromCopy_home hd, hp, State.spaceBytes, State.devBytes, ht, hm]

end home

/- ### The load -/

/-- The pending access that a relaxed load issued now makes. -/
def State.relaxedLoad (s : State) (who : Mask) (p : Phys) (ctx : Nat) (it : IT) (dst : Opd) (lanes : Mask) : Pending :=
  ⟨who, p, ctx, .load it dst lanes, none, none, s.tick, [], none⟩

/-- A relaxed load of device memory is performed later or, by the same free choice, now. -/
theorem State.performLoad_relaxed {s : State} {k : GKey} {g : Group} {x : MemOpd} {p : Phys} (hg : s.group? k = some g) (hx : x.ord = .rlx)
    (hp : p.space = .dev) (who lanes : Mask) (a : Acc) (dst : Opd) :
    s.performLoad k who a x p dst lanes =
      let e := s.relaxedLoad who p g.ctx a.it dst lanes
      let t := (s.before k e).reach g.ctx p
      if Config.lateLoad s.tick p.addr then (s.pend k e, .late)
      else (t.keepCopy g who p false, .val (itExtend a.it (leNat (t.loadBytes g who p a.size false)))) := by
  have hcells : (p.space == Space.cells) = false := by rw [hp]; rfl
  have hplace : s.atReplica g p = p := by simp [State.atReplica, hcells]
  simp only [State.performLoad, hg, hx, hplace, State.laneLoad, hp]
  rfl

/-- An access that only reads is the last of its group's pending accesses. -/
theorem Group.addPending_pending_of_reads (g : Group) {p : Pending} (h : p.writes = false) :
    (g.addPending p).pending = g.pending ++ [p] := by
  simp [Group.addPending, h]

theorem Group.addPending_key (g : Group) (p : Pending) : (g.addPending p).key = g.key := by
  simp only [Group.addPending, Group.dropSteps, apply_ite Group.key, ite_self]

/-- An access that is pending from now on, where none was. -/
theorem State.pend_idle {s : State} (idle : ∀ h ∈ s.groups, h.pending = []) (k : GKey) (p : Pending) :
    s.pend k p = (s.reach p.ctx p.at_).modGroup k (fun g => g.addPending p) := by
  rw [State.pend, State.pull_idle idle]

/-- A relaxed load that is performed in a frame its context holds delivers the number of the bytes at its place. -/
theorem State.performOp_relaxedLoad {s t : State} {h : Group} {p : Phys} {ctx : Nat} {it : IT} (hd : p.die = h.core.die)
    (hp : p.space = .dev) (ht : tierOf p.addr = 0) (hhome : t.rehome p = p) (hf : t.holdsFrame ctx p = true)
    (hm : t.meetsTable p.addr (it.bits / 8) = false) (who lanes : Mask) (dst : Opd) :
    t.performOp h (s.relaxedLoad who p ctx it dst lanes) =
      t.deliver h.key s.tick (loadWrites dst it.run lanes (itExtend it (leNat (Memory.bytes t.mem p.addr (it.bits / 8))))) := by
  simp only [State.performOp, State.relaxedLoad, Pending.size, hhome, hf, if_true, State.keepCopy_home hd, State.loadBytes_home hd hp ht hm]

/-- Settles O17: a load issued where nothing is pending reaches its frame and reads or pends; a pending one reads as it is performed. -/
theorem loadReadsMemory : Obligations.LoadReadsMemory := by
  unfold Obligations.LoadReadsMemory
  intro s k who lanes a x p dst g hg hp ht hm hx hd idle hf hr e number r
  have reached : (s.reach g.ctx p).mem = s.mem := State.reach_mem_of_holdsFrame hp hf hr
  have performed : ∀ (t : State) (h : Group), h.core = g.core → t.rehome p = p → t.holdsFrame g.ctx p = true →
      t.meetsTable p.addr a.size = false → t.performOp h e = t.deliver h.key s.tick (loadWrites dst a.it.run lanes (number t)) :=
    fun t h hcore hhome held plain =>
      State.performOp_relaxedLoad (hd.trans (congrArg CKey.die hcore).symm) hp ht hhome held plain who lanes dst
  have load := State.performLoad_relaxed hg hx hp who lanes a dst
  by_cases late : Config.lateLoad s.tick p.addr = true
  case pos =>
    have pends : r = ((s.reach g.ctx p).modGroup k (fun g => g.addPending e), .late) := by
      rw [← State.pend_idle idle k e]
      exact load.trans (if_pos late)
    rw [pends]
    refine ⟨.inr ⟨rfl, g.addPending e, State.group?_modGroup_same (Group.addPending_key · e) ?found, ?last⟩, reached, performed⟩
    case found => simpa [State.group?] using hg
    case last => rw [Group.addPending_pending_of_reads g rfl, idle g (State.group?_mem hg), List.nil_append]
  case neg =>
    have reads : r = (s.reach g.ctx p, .val (number s)) := by
      refine (load.trans (if_neg late)).trans ?_
      rw [State.before_idle idle hg, State.keepCopy_home hd, State.loadBytes_home hd hp ht
        ((State.reach_meetsTable_of_holdsFrame hp hf hr _ _).trans hm), reached]
    rw [reads]
    exact ⟨.inl rfl, reached, performed⟩

end Sys2Proof.Machine
end

section
/-! SUPPORT. The floating-point, SFU and packed instructions: the shared effect where no lane faults on its values, and where lanes do
(R139 to R158, R166 to R173). -/

namespace Sys2Proof.Machine

/-- An instruction whose issue has the shared floating-point effect completes where no lane faults on its values, and where lanes do the
others complete (R145, R146, R148). -/
theorem fpCompletes_of_exec {i : Instr} {c : Ctl} {lat : Option Nat} {d : Opd} {how : FpDst} {srcs : List (Nat × Opd)}
    {out : State → Group → FpOut} (hx : ∀ s, exec i s = issue i c s (fpEff c lat d how srcs out)) :
    FpCompletes i c lat d how srcs out := by
  refine .intro (completesIf_of_exec hx fun s quiet => fpEff_quiet quiet) (completesIf_of_exec hx fun s faults => ?_)
  rw [fpEff_live, if_neg (by simpa only [List.isEmpty_iff] using faults)]

/-- An SFU instruction of one source completes with its function of that source (R156, R157). -/
theorem fpCompletes_of_sfuEff {i : Instr} {c : Ctl} {ft : FT} {n : Nat} {d a : Opd} (hx : ∀ s, exec i s = issue i c s (sfuEff c ft n d a a))
    (hn : n ≠ 2 := by decide) :
    FpCompletes i c none d (.run 1) [(1, a)] (fun s g => FpOut.mk
      (fun _ => List.zipWith (sfuOp ft n) (s.fvec g 1 (ftFmt ft) a) (s.fvec g 2 (ftFmt ft) a))
      (fun _ => sfuOp ft n (s.fscal g 1 (ftFmt ft) a) (s.fscal g 2 (ftFmt ft) a))) := by
  change ∀ s, exec i s = issue i c s (fpEff c none d (.run 1) (if n = 2 then _ else _) _) at hx
  rw [if_neg hn] at hx
  exact fpCompletes_of_exec hx

/-- Settles O9: every instruction has the shared floating-point effect with its own results. -/
theorem floatResults : Obligations.FloatResults := by
  unfold Obligations.FloatResults
  refine ⟨?arithmetic, ?others, ?special⟩
  case arithmetic =>
    intro c ft r sat d a b e
    exact ⟨fpCompletes_of_exec fun _ => rfl, fpCompletes_of_exec fun _ => rfl, fpCompletes_of_exec fun _ => rfl,
      fpCompletes_of_exec fun _ => rfl, fpCompletes_of_exec fun _ => rfl, fpCompletes_of_exec fun _ => rfl,
      fpCompletes_of_exec fun _ => rfl, fpCompletes_of_exec fun _ => rfl⟩
  case others =>
    intro c ft p dst src r sat d a b
    exact ⟨fpCompletes_of_exec fun _ => rfl, fpCompletes_of_exec fun _ => rfl, fpCompletes_of_exec fun _ => rfl,
      fpCompletes_of_exec fun _ => rfl, fpCompletes_of_exec fun _ => rfl, fpCompletes_of_exec fun _ => rfl⟩
  case special =>
    intro c ft d a b
    exact ⟨fpCompletes_of_sfuEff fun _ => rfl, fpCompletes_of_sfuEff fun _ => rfl, fpCompletes_of_exec fun _ => rfl,
      fpCompletes_of_sfuEff fun _ => rfl, fpCompletes_of_sfuEff fun _ => rfl, fpCompletes_of_sfuEff fun _ => rfl,
      fpCompletes_of_sfuEff fun _ => rfl, fpCompletes_of_sfuEff fun _ => rfl, fpCompletes_of_sfuEff fun _ => rfl⟩

/-- Settles O10: the forms on floating-point values have the shared effect with their own results, the others write theirs. -/
theorem packedResults : Obligations.PackedResults := by
  unfold Obligations.PackedResults
  refine ⟨?pairs, ?narrow⟩
  case pairs =>
    intro c ft r swb d a b e
    exact ⟨fpCompletes_of_exec fun _ => rfl, fpCompletes_of_exec fun _ => rfl, fpCompletes_of_exec fun _ => rfl⟩
  case narrow =>
    intro c sat ka kb one hi dst src r d a b e
    exact ⟨completes_of_exec fun _ => rfl, completes_of_exec fun _ => rfl, fpCompletes_of_exec fun _ => rfl,
      fpCompletes_of_exec fun _ => rfl, fpCompletes_of_exec fun _ => rfl, fpCompletes_of_exec fun _ => rfl,
      completes_of_exec fun _ => rfl⟩

end Sys2Proof.Machine
end

section
/-! SUPPORT. FACT where its bank may be read, TBLSEL, and TBLLD as it starts its load and as it passes it (R161 to R164). -/

namespace Sys2Proof.Machine

/- ### FACT -/

/-- What FACT's lanes compute from the bank that their group selects (R162). -/
def factOut (ft : FT) (a : Opd) (s : State) (g : Group) : FpOut where
  vec _ := (s.fvec g 1 (ftFmt ft) a).map (factOp (s.bankOf g) (ftFmt ft))
  scal _ := factOp (s.bankOf g) (ftFmt ft) (s.fscal g 1 (ftFmt ft) a)

@[simp] theorem fpState_cur (c : Ctl) (lat : Option Nat) (d : Opd) (how : FpDst) (out : State → Group → FpOut) (s : State) :
    (fpState c lat d how out s).cur = s.cur := by
  refine foldl_keeps State.cur _ (fun t x => ?_) _ s
  cases lat with
  | none => exact State.putVar_cur ..
  | some n => simp only [fpPut, apply_ite State.cur, State.putFixed_cur, ite_self]

theorem State.with_own_members {s : State} {ms : List Member} (h : s.cur.members = ms) :
    { s with cur := { s.cur with members := ms } } = s := by
  rw [← h]

/-- FACT of banks with no load, whose owner is the issuing context, in lanes that do not fault on their values (R162, R164). -/
theorem factEff_quiet {c : Ctl} {ft : FT} {d a : Opd} {s : State} (quiet : s.FpQuiet c d [(1, a)])
    (idle : ∀ x ∈ s.execs c, s.loadOn x.1.core (b2n x.1.bank) = false)
    (owned : ∀ x ∈ s.execs c, x.2 = 0 ∨ (s.bankOf x.1).owner = some x.1.ctx) :
    factEff c ft d a s = .done (s.cur.members.foldl (fun t m => t.modGroup m.key Group.markFact)
      (fpState c none d (.run 1) (factOut ft a) s)) := by
  have no_load : (s.execs c).any (fun x => s.loadOn x.1.core (b2n x.1.bank)) = false :=
    List.any_eq_false.2 fun x hx => by simp [idle x hx]
  have none_bad : (s.execs c).filter (fun x => x.2 != 0 && (s.bankOf x.1).owner != some x.1.ctx) = [] :=
    List.filter_eq_nil_iff.2 fun x hx => by rcases owned x hx with h | h <;> simp [h]
  have completes : fpEff c none d (.run 1) [(1, a)] (factOut ft a) s = .done (fpState c none d (.run 1) (factOut ft a) s) :=
    fpEff_quiet quiet
  unfold factOut at completes
  simp only [factEff, no_load, none_bad, completes, List.any_nil, Bool.false_eq_true, if_false, List.map_id', List.flatMap_nil,
    List.isEmpty_nil, if_true, State.with_own_members (congrArg Issue.members (fpState_cur ..))]
  rfl

/-- FACT completes where no lane faults and no load is on its bank (R162, R164). -/
theorem fact_completes (c : Ctl) (ft : FT) (d a : Opd) : CompletesIf (.fact c ft d a) c
    (fun s => s.FpQuiet c d [(1, a)] ∧ ∀ x ∈ s.execs c,
      s.loadOn x.1.core (b2n x.1.bank) = false ∧ (x.2 = 0 ∨ (s.bankOf x.1).owner = some x.1.ctx))
    (fun s => .done (s.cur.members.foldl (fun t m => t.modGroup m.key Group.markFact)
      (fpState c none d (.run 1) (factOut ft a) s))) :=
  completesIf_of_exec (fun _ => rfl) fun _ ⟨quiet, banks⟩ =>
    factEff_quiet quiet (fun x hx => (banks x hx).1) (fun x hx => (banks x hx).2)

/- ### TBLSEL and TBLLD -/

/-- TBLSEL selects a bank where a lane executes (R163). -/
theorem tblsel_completes (c : Ctl) (a : Opd) : Completes (.tblsel c a) c (fun s => onGroup c s (fun g _ e =>
    .done (if e = 0 then s else s.modGroup g.key (fun g => { g with bank := bitOf (s.scal g 1 0 a).toNat 0 })))) :=
  completes_onGroup (fun _ => rfl) fun _ _ _ _ => congrArg Eff.done (if_congr beq_iff_eq rfl rfl)

/-- TBLLD passes once its load is complete, which it then drops (R164). -/
theorem tblld_passes (c : Ctl) (a : Opd) (bank : Fin 2) : CompletesIf (.tblld c a bank) c
    (fun s => s.OnIssuer c (fun g _ e => e = 0 ∨
      ((s.core g.core).loads.find? (isLoadOf g.key s.cur.pc)).any (fun l => l.done) = true))
    (fun s => onGroup c s (fun g _ e => .done (if e = 0 then s else
      s.modCore g.core (fun k => { k with loads := k.loads.filter (fun x => !isLoadOf g.key s.cur.pc x) })))) := by
  refine completesIf_onGroup (fun _ => rfl) fun s g _ e complete => ?_
  by_cases idle : e = 0
  · rw [if_pos (beq_iff_eq.2 idle), if_pos idle]
  · obtain ⟨l, found, done⟩ := (Option.any_eq_true _ _).1 (complete.resolve_left idle)
    simp only [beq_iff_eq, idle, if_false, found, done, if_true]

/-- TBLLD of a table that passes its checks claims its segments and is held with its load (R164). -/
theorem tblld_starts (c : Ctl) (a : Opd) (bank : Fin 2) : CompletesIf (.tblld c a bank) c
    (fun s => s.OnIssuer c (fun g _ e => let off := (s.scal g 1 0 a).toNat
      e ≠ 0 ∧ (s.core g.core).loads.find? (isLoadOf g.key s.cur.pc) = none ∧ off % 16 = 0 ∧ off + tableBytes ≤ 524288 ∧
      (s.core g.core).segRefused g.ctx off tableBytes = false))
    (fun s => onGroup c s (fun g _ _ => let off := (s.scal g 1 0 a).toNat
      .hold (s.modCore g.core (fun k =>
        { k.claim g.ctx off tableBytes with loads := k.loads ++ [TblLoad.mk bank.val off g.ctx g.key s.cur.pc false false] })))) := by
  refine completesIf_onGroup (fun _ => rfl) ?_
  rintro s g m e ⟨executes, fresh, aligned, inside, granted⟩
  simp only [fresh, aligned, granted, beq_iff_eq, executes, Nat.not_lt.2 inside]
  rfl

/-- Settles O11: FACT where its banks may be read, TBLSEL, and TBLLD before and after its load. -/
theorem activationTableResults : Obligations.ActivationTableResults := by
  unfold Obligations.ActivationTableResults
  intro c ft d a bank
  exact ⟨fact_completes c ft d a, tblsel_completes c a, tblld_passes c a bank, tblld_starts c a bank⟩

end Sys2Proof.Machine
end

section
/-! SUPPORT. The partial sorts: the merge on the issuing group, said once for its markers and its lists, and ARGMX (R146, R174 to R177). -/

namespace Sys2Proof.Machine

/- ### The values that take part and are markers (R146) -/

/-- The fault of lanes whose value in a register is a marker, where there are such lanes. -/
def markFault (k : GKey) (lanes : Mask) (reg : Nat) : List LaneFault := if lanes = 0 then [] else [⟨k, lanes, .snanUninit, reg, 0⟩]

theorem markFault_eq_nil {k : GKey} {lanes : Mask} {reg : Nat} : markFault k lanes reg = [] ↔ lanes = 0 := by
  simp [markFault]

theorem markFault_eq_ite (k : GKey) (lanes : Mask) (reg : Nat) :
    (if lanes == 0 then [] else [LaneFault.mk k lanes .snanUninit reg 0]) = markFault k lanes reg :=
  if_congr beq_iff_eq rfl rfl

theorem markFault_eq_toList (k : GKey) (lanes : Mask) (reg : Nat) :
    (if lanes == 0 then none else some (LaneFault.mk k lanes .snanUninit reg 0)).toList = markFault k lanes reg := by
  rw [← markFault_eq_ite]
  split <;> rfl

/-- The first `n` lanes of a group. -/
def firstLanes (n : Nat) : Mask := maskOf (fun i => decide (i < n))

/-- The faults of a merge: of the markers in the first `n` places of the list at `d`, then of those in the lanes of `a` that take part. -/
def State.topMarks (s : State) (g : Group) (d a : VReg) (n : Nat) (taking : Mask) : List LaneFault :=
  markFault g.key (s.topMarkers g (firstLanes n) (s.vec g 0 0 (.v d))) d.toNat ++
    markFault g.key (s.topMarkers g taking (s.vec g 1 0 (.v a))) a.toNat

theorem State.topMarks_eq_nil {s : State} {g : Group} {d a : VReg} {n : Nat} {taking : Mask} : s.topMarks g d a n taking = [] ↔
    s.topMarkers g (firstLanes n) (s.vec g 0 0 (.v d)) = 0 ∧ s.topMarkers g taking (s.vec g 1 0 (.v a)) = 0 := by
  rw [State.topMarks, List.append_eq_nil_iff, markFault_eq_nil, markFault_eq_nil]

/- ### The merge (R175, R176) -/

/-- The first `n` entries of the list at `d` and some others, in the order of the key, are on their way to the list (R174). -/
def State.topKept (s : State) (asc : Bool) (d : VReg) (g : Group) (n : Nat) (others : List TopEntry) : Eff :=
  let sorted := topSort asc (topEntries fmtF32 0 (List.range n) (s.vec g 0 0 (.v d)) (s.vec g 0 1 (.v d)) ++ others)
  let place := fun (i : Nat) => if i < n then sorted[i]? else none
  .done (s.putVar g.key
    [.v d.toNat allLanes ((List.range W).map (fun i => match place i with | some x => x.bits | none => emptyValue fmtF32 asc)),
     .v (d.toNat + 1) allLanes ((List.range W).map (fun i => match place i with | some x => x.index | none => 0xFFFFFFFF))])

/-- The executing lanes of the issuing group are those of its first member. -/
theorem onGroup_eq_issuer (c : Ctl) (s : State) (f : Group → Mask → Eff) :
    onGroup c s (fun g _ e => f g e) = match s.issuer with | none => .done s | some g => f g (s.execOf c g.key) := by
  unfold onGroup State.issuer
  cases hm : s.cur.members with
  | nil => rfl
  | cons m ms =>
    cases hg : s.group? m.key with
    | none => simp only [hg]
    | some g =>
      have lanes : s.execOf c g.key = s.execLanes c m := by
        simp [State.execOf, hm, State.group?_key hg]
      simp only [hg, lanes]

section merge
variable {asc : Bool} {d a : VReg} {k : Nat} {other : State → Group → Mask → List TopEntry}
  {marks : State → Group → Mask → List LaneFault} {c : Ctl} {s : State} {taking : Mask → Mask}

/-- A merge of no entries writes nothing (R175, R176). -/
theorem topMerge_zero (hk : k = 0) : topMerge asc d k other marks c s = .done (s.perLaneVar c (fun _ _ => [])) := by
  subst hk
  rfl

variable (hk : min k W ≠ 0) (hmarks : ∀ g e, marks s g e = markFault g.key (s.topMarkers g (taking e) (s.vec g 1 0 (.v a))) a.toNat)
include hk hmarks

/-- The merge of one entry or more: the fault of the markers that take part, or the entries that it keeps. -/
theorem topMerge_eq_onGroup : topMerge asc d k other marks c s = onGroup c s (fun g _ e =>
    if s.topMarks g d a (min k W) (taking e) = [] then s.topKept asc d g (min k W) (other s g e)
    else .fault s (s.topMarks g d a (min k W) (taking e))) := by
  rw [onGroup_eq_issuer c s (fun g e => if s.topMarks g d a (min k W) (taking e) = [] then _ else _)]
  unfold topMerge
  rw [if_neg hk]
  cases s.issuer with
  | none => rfl
  | some g =>
    simp only [hmarks, markFault_eq_ite]
    change (if (!(s.topMarks g d a (min k W) (taking _)).isEmpty) = true then .fault s (s.topMarks g d a (min k W) (taking _))
      else s.topKept asc d g (min k W) (other s g _)) = _
    simp only [Bool.not_eq_true', List.isEmpty_eq_false_iff, ite_not]

theorem topMerge_unmarked (unmarked : s.OnIssuer c (fun g _ e =>
      s.topMarkers g (firstLanes (min k W)) (s.vec g 0 0 (.v d)) = 0 ∧ s.topMarkers g (taking e) (s.vec g 1 0 (.v a)) = 0)) :
    topMerge asc d k other marks c s = onGroup c s (fun g _ e => s.topKept asc d g (min k W) (other s g e)) :=
  (topMerge_eq_onGroup hk hmarks).trans (onGroup_congr unmarked fun _ _ _ none_marked => if_pos (State.topMarks_eq_nil.2 none_marked))

theorem topMerge_marked (marked : s.OnIssuer c (fun g _ e => s.topMarks g d a (min k W) (taking e) ≠ [])) :
    topMerge asc d k other marks c s = onGroup c s (fun g _ e => .fault s (s.topMarks g d a (min k W) (taking e))) :=
  (topMerge_eq_onGroup hk hmarks).trans (onGroup_congr marked fun _ _ _ some_marked => if_neg some_marked)

end merge

/- ### ARGMX (R177) -/

/-- The faults of the executing lanes of a span whose value is a marker. -/
def State.spanMarks (s : State) (c : Ctl) (a : Opd) : List LaneFault :=
  (s.execs c).flatMap (fun x => markFault x.1.key (s.topMarkers x.1 x.2 (s.vec x.1 1 0 a)) a.code)

theorem State.spanMarks_eq_filterMap (s : State) (c : Ctl) (a : Opd) : (s.execs c).filterMap (fun x =>
    if s.topMarkers x.1 x.2 (s.vec x.1 1 0 a) == 0 then none
    else some (LaneFault.mk x.1.key (s.topMarkers x.1 x.2 (s.vec x.1 1 0 a)) .snanUninit a.code 0)) = s.spanMarks c a := by
  simp only [List.filterMap_eq_flatMap_toList, markFault_eq_toList]
  rfl

theorem State.spanMarks_eq_nil {s : State} {c : Ctl} {a : Opd} :
    s.spanMarks c a = [] ↔ ∀ x ∈ s.execs c, s.topMarkers x.1 x.2 (s.vec x.1 1 0 a) = 0 := by
  simp only [State.spanMarks, List.flatMap_eq_nil_iff, markFault_eq_nil]

/-- The first entry of the span by the key, or an empty one where none takes part (R174, R177). -/
def State.spanFirst (s : State) (c : Ctl) (ft : FT) (asc : Bool) (a b : Opd) : Word × Word :=
  let entries := ((s.span c).zipIdx).flatMap (fun x =>
    (topEntries (ftFmt ft) 0 (lanesOf (s.execOf c x.1.key)) (s.vec x.1 1 0 a) (s.topIndices x.1 b (s.once 2 b) (x.2 * W))).map
      (fun t => { t with lane := x.2 * W + t.lane }))
  match (topSort asc entries).head? with
  | some x => (x.bits, x.index)
  | none => (emptyValue (ftFmt ft) asc, 0xFFFFFFFF)

/-- ARGMX's effect: the fault of the markers in the span, or its first entry to every member. -/
def argmxEff (c : Ctl) (ft : FT) (asc : Bool) (d a b : Opd) (s : State) : Eff :=
  if s.spanMarks c a = [] then
    .done (s.everyMember c none (fun _ m =>
      let r := s.spanFirst c ft asc a b
      if d.isScalarDst then writeScal d 0 r.1 ++ writeScal d 1 r.2
      else if m == 0 then [] else writeVec d 0 m (List.replicate W r.1) ++ writeVec d 1 m (List.replicate W r.2)))
  else .fault s (s.spanMarks c a)

theorem exec_argmx (c : Ctl) (ft : FT) (asc : Bool) (d a b : Opd) (s : State) :
    exec (.argmx c ft asc d a b) s = issue (.argmx c ft asc d a b) c s (argmxEff c ft asc d a b) := by
  refine congrArg (issue (.argmx c ft asc d a b) c s) ?_
  funext t
  simp only [State.spanMarks_eq_filterMap]
  unfold argmxEff
  cases t.spanMarks c a <;> rfl

/-- Settles O12: the merges by `topMerge_eq_onGroup`, ARGMX by `exec_argmx`, each where values that take part are markers and where none is. -/
theorem partialSortResults : Obligations.PartialSortResults := by
  unfold Obligations.PartialSortResults
  intro c asc ft d a b k dd av
  refine ⟨?list, ?pair, ?no_list, ?no_pair, ?list_marked, ?pair_marked, ?span_marked, ?span⟩
  case list =>
    exact completesIf_of_exec (fun _ => rfl) fun s ⟨some_kept, unmarked⟩ =>
      topMerge_unmarked some_kept (taking := id) (fun _ _ => markFault_eq_ite ..) unmarked
  case pair =>
    exact completesIf_of_exec (fun _ => rfl) fun s ⟨some_kept, unmarked⟩ =>
      topMerge_unmarked some_kept (taking := fun _ => firstLanes (min (s.once 2 k).toNat W)) (fun _ _ => markFault_eq_ite ..) unmarked
  case no_list => exact completesIf_of_exec (fun _ => rfl) fun _ none_kept => topMerge_zero none_kept
  case no_pair => exact completesIf_of_exec (fun _ => rfl) fun _ none_kept => topMerge_zero none_kept
  case list_marked =>
    exact completesIf_of_exec (fun _ => rfl) fun s ⟨some_kept, marked⟩ =>
      topMerge_marked some_kept (taking := id) (fun _ _ => markFault_eq_ite ..) marked
  case pair_marked =>
    exact completesIf_of_exec (fun _ => rfl) fun s ⟨some_kept, marked⟩ =>
      topMerge_marked some_kept (taking := fun _ => firstLanes (min (s.once 2 k).toNat W)) (fun _ _ => markFault_eq_ite ..) marked
  case span_marked => exact completesIf_of_exec (exec_argmx c ft asc dd av b) fun _ marked => if_neg marked
  case span => exact completesIf_of_exec (exec_argmx c ft asc dd av b) fun _ unmarked => if_pos (State.spanMarks_eq_nil.2 unmarked)

end Sys2Proof.Machine
end

section
/-! SUPPORT. The matrix instructions at their issue: the shared issue said once, then each instruction's entry or its fault (R182 to
R185, R188, R192, R195 to R199). -/

namespace Sys2Proof.Machine

/- ### The shared issue -/

theorem State.MxRoom.imp {s : State} {P Q : Group → Mx → Prop} (room : s.MxRoom P) (h : ∀ g m, P g m → Q g m) : s.MxRoom Q := by
  obtain ⟨g, m, reader, unit, free, holds⟩ := room
  exact ⟨g, m, reader, unit, free, h g m holds⟩

/-- A unit with room takes what the instruction's own part of the issue leaves. -/
theorem mxEff_eq_mxEnter {s : State} {P : Group → Mx → Prop} {f : State → Group → Mx → MxIssue}
    {f' : State → Group → Mx → State × MxOp × MxView} (room : s.MxRoom P)
    (enters : ∀ g m, P g m → f s g m = .enter (f' s g m).1 (f' s g m).2.1 (f' s g m).2.2) : mxEff f s = mxEnter f' s := by
  obtain ⟨g, m, reader, unit, free, holds⟩ := room
  simp only [mxEff, mxEnter, reader, unit, enters g m holds, if_neg (Nat.not_le.2 free)]

theorem mxCompletes_of_exec {i : Instr} {c : Ctl} {P : State → Group → Mx → Prop} {f : State → Group → Mx → MxIssue}
    {f' : State → Group → Mx → State × MxOp × MxView} (hx : ∀ s, exec i s = issue i c s (mxEff f))
    (enters : ∀ s g m, P s g m → f s g m = .enter (f' s g m).1 (f' s g m).2.1 (f' s g m).2.2) : MxCompletes i c P f' :=
  completesIf_of_exec hx fun s room => mxEff_eq_mxEnter room (enters s)

/-- An instruction whose own part of the issue fails faults whole, where the unit has room (R185). -/
theorem exec_eq_fault_of_mxEff {i : Instr} {c : Ctl} {d : Desc} {s : State} {g : Group} {m : Mx} {f : State → Group → Mx → MxIssue}
    {fs : List LaneFault} (hx : ∀ s, exec i s = issue i c s (mxEff f)) (ready : Ready i c d s)
    (reader : (s.walked i d).readerOf = some g) (unit : (s.walked i d).mxFor g.pkey g.ctx = some m) (free : m.queue.length < 16)
    (fails : f (s.walked i d) g m = .fault fs) : exec i s = .next (finish i c d (.fault (s.walked i d) fs)) := by
  have effect : mxEff f (s.walked i d) = .fault (s.walked i d) fs := by
    simp only [mxEff, reader, unit, fails, if_neg (Nat.not_le.2 free)]
  rw [hx, issue_completes ready, effect]

/-- An instruction that waits for the queue has its effect once the queue holds nothing that it waits for. -/
theorem mxWait_of_idle {s : State} {busy : List MxEntry → Bool} (f : State → State)
    (room : s.MxRoom (fun _ m => busy m.queue = false)) : mxWait busy f s = .done (f s) := by
  obtain ⟨g, m, reader, unit, free, idle⟩ := room
  simp [mxWait, reader, unit, idle, free]

/-- Settles O13: the instructions that check nothing enter as they stand, those with a range or a value to check where it passes, and
MWFM and MFIN are done with what they wait for. -/
theorem matrixInstructionsEnter : Obligations.MatrixInstructionsEnter := by
  unfold Obligations.MatrixInstructionsEnter
  intro c fmt ft raw t i n a b d row0 col
  refine ⟨?mwld, ?mwsw, ?mwfm, ?mfin, ?mzero, ?mrel, ?mrow, ?mcol, ?msca, ?mrda, ?mwra, ?msta, ?mlda⟩
  case mwsw | mzero | mrel | mrow | mcol | mrda | mwra => exact mxCompletes_of_exec (fun _ => rfl) fun _ _ _ _ => rfl
  case mwld =>
    refine mxCompletes_of_exec (fun _ => rfl) ?_
    rintro s g m ⟨weights, scales⟩
    by_cases scaled : fmt.mxScaled = true
    · simp only [scaled, if_true, weights, scales scaled, le_refl]
    · simp only [scaled, weights, le_refl, if_true, if_false, Bool.false_eq_true]
  case mwfm =>
    exact completesIf_of_exec (fun _ => rfl) fun _ room =>
      mxWait_of_idle id (room.imp fun _ _ loaded => by simpa using loaded)
  case mfin =>
    exact completesIf_of_exec (fun _ => rfl) fun _ room =>
      mxWait_of_idle State.mxAcquire (room.imp fun _ _ empty => by rw [empty]; rfl)
  case msca =>
    refine mxCompletes_of_exec (fun _ => rfl) fun s g m quiet => ?_
    cases a with
    | imm k => rfl
    | _ =>
      rcases quiet.resolve_left Bool.false_ne_true with unmarked | unchecked
      · simp only [unmarked, Bool.false_and, Bool.false_eq_true, if_false]
      · simp only [unchecked, Bool.not_true, Bool.and_false, Bool.false_eq_true, if_false]
  case msta | mlda => exact mxCompletes_of_exec (fun _ => rfl) fun _ _ _ inside => by simp only [inside]

/- ### MMA (R185, R190 to R192) -/

/-- The rows that an MMA reads from its registers at the issue (R189, R190). -/
def mmaReads (c : Ctl) (ka : AKind) (k : Nat) (a b e : Opd) (s : State) : List (Option (List Nat × List Nat)) :=
  (List.range 128).map (fun n => ((mmaRows s c (s.once 2 b).toNat).find? (fun x => x.1 == n)).map (fun x =>
    (aRow s x.2.1 ka k a x.2.2, if ka.scaled then aScales s x.2.1 k e x.2.2 else [])))

section mma
variable {c : Ctl} {ka : AKind} {reuse : Bool} {t : Tile} {i j : BitVec 2} {a b e : Opd} {s : State} {g : Group} {m : Mx} {fmt : TC}

theorem mmaIssue_unloaded (unloaded : m.view.activeFmt = none) :
    mmaIssue c ka reuse t i j a b e s g m = .fault (memberFaults c s .matrixState 0 1) := by
  simp only [mmaIssue, unloaded]

theorem mmaIssue_unpaired (loaded : m.view.activeFmt = some fmt) (unpaired : mxPairs ka fmt = false) :
    mmaIssue c ka reuse t i j a b e s g m = .fault (memberFaults c s .matrixState 0 2) := by
  simp only [mmaIssue, loaded, unpaired, Bool.not_false, if_true]

variable (loaded : m.view.activeFmt = some fmt) (paired : mxPairs ka fmt = true)
include loaded paired

theorem mmaIssue_other_latch {l : AKind × Nat} (held : m.view.latch = some l) (other : l ≠ (ka, mxK fmt)) :
    mmaIssue c ka reuse t i j a b e s g m = .fault (memberFaults c s .matrixState 0 3) := by
  have differs : (l.1 ≠ ka || l.2 ≠ mxK fmt) = true := by
    simpa [Prod.ext_iff, imp_iff_not_or] using other
  simp only [mmaIssue, loaded, paired, held, differs, Bool.not_true, Bool.false_eq_true, if_false, if_true]

theorem mmaIssue_latched (held : m.view.latch = some (ka, mxK fmt)) : mmaIssue c ka reuse t i j a b e s g m =
    .enter s (.mma ka reuse t i j true [] (nth 0 m.view.row i.toNat) (nth 0 m.view.col j.toNat) 0)
      (if reuse then m.view else { m.view with latch := none }) := by
  simp [mmaIssue, loaded, paired, held]

theorem mmaIssue_unlatched (empty : m.view.latch = none) (run : runFault g a (aRun ka (mxK fmt)) = none)
    (scale_run : runFault g e (scaleRun ka (mxK fmt) e) = none)
    (unmarked : mmaMarkers s (mmaRows s c (s.once 2 b).toNat) [(1, a, aRun ka (mxK fmt)), (3, e, scaleRun ka (mxK fmt) e)] = []) :
    mmaIssue c ka reuse t i j a b e s g m =
    .enter s (.mma ka reuse t i j false (mmaReads c ka (mxK fmt) a b e s) (nth 0 m.view.row i.toNat) (nth 0 m.view.col j.toNat) 0)
      (if reuse then { m.view with latch := some (ka, mxK fmt) } else m.view) := by
  simp [mmaIssue, mmaReads, loaded, paired, empty, run, scale_run, unmarked]

end mma

/- ### The kinds that pair with a format (R188) -/

theorem TC.mxScaled_iff_code (fmt : TC) : fmt.mxScaled = true ↔ 3 ≤ fmt.code ∧ fmt.code ≤ 7 := by cases fmt <;> decide
theorem TC.eq_bf16_iff_code (fmt : TC) : fmt = .bf16 ↔ fmt.code = 2 := by cases fmt <;> decide
theorem TC.eq_i32_iff_code (fmt : TC) : fmt = .i32 ↔ fmt.code = 10 := by cases fmt <;> decide

theorem mxPairs_iff_code (ka : AKind) (fmt : TC) : mxPairs ka fmt = true ↔
    (ka.code ≤ 4 ∧ 3 ≤ fmt.code ∧ fmt.code ≤ 7) ∨ (ka.code = 5 ∧ fmt.code = 2) ∨ (ka.code = 6 ∧ fmt.code = 10) := by
  cases ka with
  | bf16 => simp [mxPairs, AKind.code, TC.eq_bf16_iff_code]
  | i8 => simp [mxPairs, AKind.code, TC.eq_i32_iff_code]
  | _ => simp [mxPairs, AKind.code, TC.mxScaled_iff_code]

/-- Settles O14: each case of an MMA's own part of the issue, and the kinds by their codes. -/
theorem mmaResults : Obligations.MmaResults := by
  unfold Obligations.MmaResults
  refine ⟨?enters, ?faults, mxPairs_iff_code⟩
  case enters =>
    intro c ka reuse t i j a b e fmt
    constructor
    · refine mxCompletes_of_exec (fun _ => rfl) ?_
      rintro s g m ⟨loaded, paired, held⟩
      exact mmaIssue_latched loaded paired held
    · refine mxCompletes_of_exec (fun _ => rfl) ?_
      rintro s g m ⟨loaded, paired, empty, run, scale_run, unmarked⟩
      exact mmaIssue_unlatched loaded paired empty run scale_run unmarked
  case faults =>
    intro c ka reuse t i j a b e d s g m x stops ready reader unit free
    have stops_of {n : Nat} : mmaIssue c ka reuse t i j a b e (s.walked x d) g m =
        .fault (memberFaults c (s.walked x d) .matrixState 0 n) → stops n := exec_eq_fault_of_mxEff (fun _ => rfl) ready reader unit free
    exact ⟨fun unloaded => stops_of (mmaIssue_unloaded unloaded),
      fun _ loaded unpaired => stops_of (mmaIssue_unpaired loaded unpaired),
      fun _ _ loaded paired held other => stops_of (mmaIssue_other_latch loaded paired held other)⟩

end Sys2Proof.Machine
end

section
/-! SUPPORT. The events of a unit's two engines, each said once by the entry that its engine may run (R186, R187, R192, R194). -/

namespace Sys2Proof.Machine

section engines
variable {p : PKey} {s : State} {m : Mx} {e : MxEntry} {ld : Bool}

/- ### The weight loader (R195) -/

/-- The bank that a load leaves: the weights and scales that lie in the scratchpad as the unit's context sees it. -/
def State.loadedBank (s : State) (p : PKey) (ctx : Nat) (fmt : TC) (w sc : Nat) : MxBank :=
  let core := (s.core ⟨p.die, p.core⟩).seenBy ctx
  let bits := wSlotBits fmt
  let weight := fun (k : Nat) => leNat (core.spRead (w + k * bits / 8) ((bits + 7) / 8)) / 2 ^ (k * bits % 8) % 2 ^ bits
  ⟨some fmt, Sparse.mapFrom 0 (fun k _ => weight k) 0 (mxK fmt * colsOf p.die) [],
    Sparse.mapFrom 0 (fun k _ => leNat (core.spRead (sc + k) 1)) 0 (scaleBytes fmt (colsOf p.die)) []⟩

theorem exec_weightLoadComplete {fmt : TC} {w sc : Nat} (unit : (s.part p).mx = some m) (head : loaderHead m.queue = some e)
    (load : e.op = .mwld fmt w sc) : exec (.weightLoadComplete p) s =
      .next ((s.setMx p ((m.setInactive (s.loadedBank p m.ctx fmt w sc)).complete e 0)).freeMx p) := by
  change execWeightLoadComplete p s = _
  simp only [execWeightLoadComplete, unit, head, load, State.loadedBank]

theorem exec_weightLoadComplete_idle (unit : (s.part p).mx = some m) (idle : loaderHead m.queue = none) :
    exec (.weightLoadComplete p) s = .refused .eventNotEnabled := by
  change execWeightLoadComplete p s = _
  simp only [execWeightLoadComplete, unit, idle]

/- ### The array (R187, R196 to R199) -/

theorem exec_bankSwap (unit : (s.part p).mx = some m) (head : arrayHead false m.queue = some (e, ld)) : exec (.bankSwap p) s =
    if e.op = .mwsw && !ld then .next ((s.setMx p ({ m with active := !m.active }.complete e 0)).freeMx p)
    else .refused .eventNotEnabled := by
  change execBankSwap p s = _
  simp only [execBankSwap, unit, head]

theorem exec_arraySequenceStep (unit : (s.part p).mx = some m) (head : arrayHead false m.queue = some (e, ld)) :
    exec (.arraySequenceStep p) s =
      if arrayMayRun e.op then .next (e.op.writers.foldl State.settle
        (((arrayStep p m s e.op).1.setMx p ((arrayStep p m s e.op).2.complete e 0)).freeMx p))
      else .refused .eventNotEnabled := by
  change execArraySequenceStep p s = _
  simp only [execArraySequenceStep, unit, head]

/- ### The passes of an MMA (R192, R194) -/

/-- The rows that a latch holds. -/
def Mx.latchRows (m : Mx) : List (Option (List Nat × List Nat)) := match m.latch with | some l => l.rows | none => []

/-- The unit `m` of `n` columns after a pass, its queue aside: the tile takes the pass, and an MMA with
.reuse that read its own rows has set the latch. -/
def Mx.passed (m : Mx) (n : Nat) (ka : AKind) (fmt : TC) (reuse useLatch : Bool) (t : Tile) (rows : List (Option (List Nat × List Nat)))
    (rm cm : BitVec 128) (pass : Nat) : Mx :=
  let read := if useLatch then m.latchRows else rows
  let tiled := m.setTile t (mmaTile ka fmt m.activeBank n pass read rm cm (m.tile t))
  if reuse = true ∧ useLatch = false then { tiled with latch := some ⟨ka, mxK fmt, rows⟩ } else tiled

section pass
variable {ka : AKind} {reuse useLatch : Bool} {t : Tile} {i j : BitVec 2} {rows : List (Option (List Nat × List Nat))}
  {rm cm : BitVec 128} {pass : Nat} {fmt : TC}

theorem exec_mmaPass (unit : (s.part p).mx = some m) (head : arrayHead false m.queue = some (e, ld))
    (mma : e.op = .mma ka reuse t i j useLatch rows rm cm pass) (loaded : m.activeBank.fmt = some fmt) :
    let passed := m.passed (colsOf p.die) ka fmt reuse useLatch t rows rm cm pass
    exec (.mmaPass p) s =
      if pass + 1 < mxPasses ka fmt then .next (s.setMx p { passed with
        queue := replaceFirst e { e with op := .mma ka reuse t i j useLatch rows rm cm (pass + 1) } m.queue
        lastPc := e.pc, lastPasses := pass + 1 })
      else .next ((s.setMx p
        ((if useLatch = true ∧ reuse = false then { passed with latch := none } else passed).complete e (pass + 1))).freeMx p) := by
  intro passed
  change execMmaPass p s = _
  simp only [execMmaPass, unit, head, mma, loaded]
  -- The two flags decide what becomes of the latch.
  cases reuse <;> cases useLatch <;> rfl

end pass
end engines

/-- Settles O15: each event by the entry that its engine may run. -/
theorem matrixEngineSteps : Obligations.MatrixEngineSteps := by
  unfold Obligations.MatrixEngineSteps
  constructor
  · intro p s m e ld unit n core
    refine ⟨fun fmt w sc head load => exec_weightLoadComplete unit head load, exec_weightLoadComplete_idle unit, fun head => ?_⟩
    rw [exec_bankSwap unit head, exec_arraySequenceStep unit head]
    refine ⟨fun swap free => ?_, fun swap behind => ?_, fun runs => if_pos runs, fun waits => if_neg (by simp [waits])⟩
    · exact if_pos (by simp [swap, free])
    · exact if_neg (by simp [behind])
  · intro p s m e ld ka reuse useLatch t i j rows rm cm pass fmt unit head mma loaded read tiled latched
    have step := exec_mmaPass unit head mma loaded
    exact ⟨fun more => step.trans (if_pos more), fun last => step.trans (if_neg last)⟩

end Sys2Proof.Machine
end

section
/-! SUPPORT. The six access instructions, and the instructions on buffers and the scratchpad, where no lane fails a check (R209 to R222,
R247, R250, R252). -/

namespace Sys2Proof.Machine

/- ### The lane-by-lane effect where no lane fails -/

/-- Where no lane fails, the shared effect completes with the lanes' results. -/
theorem accessEff_of_no_faults {c : Ctl} {scalar : Bool} {reg : Nat} {dst : Option (Opd × Nat)}
    {f : GKey → State → Nat → Mask → State × LaneRes} {s : State} (h : (accessRun [] c scalar reg dst f s).2.2 = []) :
    accessEff c scalar reg dst f s = .done (accessDone dst (accessRun [] c scalar reg dst f s)) := by
  simp [accessEff, accessEffWith, h]

/-- An instruction whose issue has the shared effect completes where no lane fails. -/
theorem accessCompletes_of_exec {i : Instr} {c : Ctl} {P : State → Prop} {scalar : Bool} {reg : Nat} {dst : Option (Opd × Nat)}
    {f : State → GKey → State → Nat → Mask → State × LaneRes}
    (hx : ∀ s, exec i s = issue i c s (fun s => accessEff c scalar reg dst (f s) s)) : AccessCompletes i c P scalar reg dst f :=
  completesIf_of_exec hx fun _ ⟨_, sound⟩ => accessEff_of_no_faults sound

/- ### Loads and stores -/

/-- An access that no link and no line in transit holds back has the shared effect (R228, R385). -/
theorem memEff_of_reached {c : Ctl} {a : Acc} {d : Opd} {x : MemOpd} {s : State} (h : ∀ r ∈ s.allReach c a x d.isScalarDst, ∃ p,
      r = .at_ p ∧ (a.store = true ∨ p.space ≠ .dev ∨ s.inTransit p.buf p.line = false)) :
    memEff c a d x s =
      accessEff c d.isScalarDst x.h.code (if a.store then none else some (d, a.it.run)) (memLane a d x d.isScalarDst s) s.endSpanHold := by
  have links_up : s.spanWait (s.allReach c a x d.isScalarDst) = [] := by
    refine List.filter_eq_nil_iff.2 fun l hl => ?_
    obtain ⟨r, hr, waits⟩ := List.mem_filterMap.1 (List.mem_dedup.1 hl)
    obtain ⟨p, rfl, -⟩ := h r hr
    cases waits
  have lines_still : (!a.store && s.meetsTransit (s.allReach c a x d.isScalarDst)) = false := by
    cases store : a.store with
    | true => rfl
    | false =>
      refine List.any_eq_false.2 fun r hr => ?_
      obtain ⟨p, rfl, still⟩ := h r hr
      rcases still with hstore | hspace | hline
      · rw [store] at hstore; cases hstore
      · simp [hspace]
      · simp [hline]
  simp only [memEff, links_up, lines_still, bne_self_eq_false, Bool.false_eq_true, if_false]

/-- Settles O16: each of the six instructions has the effect of `memEff`, which nothing holds back and in which no lane fails. -/
theorem memoryAccessResults : Obligations.MemoryAccessResults := by
  unfold Obligations.MemoryAccessResults
  intro c it d x runs
  have completes : ∀ (i : Instr) (store map flat : Bool), (∀ s, exec i s = issue i c s (memEff c ⟨it, store, map, flat⟩ d x)) →
      runs i ⟨it, store, map, flat⟩ := fun i store map flat hx =>
    completesIf_of_exec hx fun s ⟨reached, sound⟩ => (memEff_of_reached reached).trans (accessEff_of_no_faults sound)
  exact ⟨completes _ _ _ _ fun _ => rfl, completes _ _ _ _ fun _ => rfl, completes _ _ _ _ fun _ => rfl,
    completes _ _ _ _ fun _ => rfl, completes _ _ _ _ fun _ => rfl, completes _ _ _ _ fun _ => rfl⟩

/- ### FENCE and BTRD -/

/-- A FENCE completes once nothing that it waits for is left (R220, R237). -/
theorem fence_completes (c : Ctl) (ord : Ordr) (scp : Scp) : CompletesIf (.fence c ord scp) c
    (fun s => ∀ x ∈ s.fenceLanes c, s.vstAwaited x.1 scp = false ∧ (ord = .acq ∨ x.1.inPlaceWaits (s.threads x.1 x.2) = false))
    (fun s => .done ((s.fenceLanes c).foldl (fun s x =>
      let s1 := if x.2 = 0 then s else s.fence x.1 (s.threads x.1 x.2) ord scp
      s1.modGroup x.1.key (fun g => { g with vsts := g.vsts.filter (fun v => !s.vstPresent v) })) s)) := by
  refine completesIf_of_exec (fun _ => rfl) fun s ends => ?_
  have none_waits : (s.fenceLanes c).any
      (fun x => s.vstAwaited x.1 scp || (ord != .acq && x.1.inPlaceWaits (s.threads x.1 x.2))) = false := by
    refine List.any_eq_false.2 fun x hx => ?_
    obtain ⟨present, acquires | performed⟩ := ends x hx
    · simp [present, acquires]
    · simp [present, performed]
  simp only [fenceEff, none_waits, Bool.false_eq_true, if_false, beq_iff_eq]

/-- Words of an entry that passes its checks in every group with an executing lane (R221, R233). -/
theorem entryEff_of_no_fault {c : Ctl} {d : Opd} {h : SReg} {s : State}
    (sound : ∀ x ∈ s.execs c, x.2 = 0 ∨ s.entryFault x.1.ctx (s.scal x.1 1 0 (.s h)) = none) (words : Entry → List Word) :
    entryEff c d h words s = .done (s.perLaneVar c (fun g m =>
      ((words (s.entry (hIndex (s.scal g 1 0 (.s h))))).zipIdx).flatMap (fun w =>
        if d.isScalarDst then writeScal d w.2 w.1 else writeVec d w.2 m (List.replicate W w.1)))) := by
  have none_bad : (s.execs c).filterMap (fun x => if x.2 == 0 then none else
      (s.entryFault x.1.ctx (s.scal x.1 1 0 (.s h))).map (fun f => LaneFault.mk x.1.key x.2 f (0x100 + h.toNat) 0)) = [] := by
    refine List.filterMap_eq_nil_iff.2 fun x hx => ?_
    rcases sound x hx with idle | passes
    · simp [idle]
    · simp [passes]
  simp only [entryEff, none_bad, List.isEmpty_nil, Bool.not_true, Bool.false_eq_true, if_false]

/-- Settles O20: the lane-by-lane instructions where no lane fails, FENCE where nothing holds it, and BTRD where its entry may be read. -/
theorem bufferAndScratchpadResults : Obligations.BufferAndScratchpadResults := by
  unfold Obligations.BufferAndScratchpadResults
  refine ⟨?order, ?tables, ?scratchpad⟩
  case order =>
    intro c h b off ord scp
    exact ⟨accessCompletes_of_exec fun _ => rfl, fence_completes c ord scp⟩
  case tables =>
    intro c d row val h w ind
    exact ⟨completesIf_of_exec (fun _ => rfl) fun s sound => entryEff_of_no_fault sound _, accessCompletes_of_exec fun _ => rfl⟩
  case scratchpad =>
    intro c it d a b slot key
    exact ⟨accessCompletes_of_exec fun _ => rfl, accessCompletes_of_exec fun _ => rfl, accessCompletes_of_exec fun _ => rfl,
      accessCompletes_of_exec fun _ => rfl, accessCompletes_of_exec fun _ => rfl⟩

end Sys2Proof.Machine
end

section
/-! SUPPORT. A pending store that is performed: nothing comes before it, and it writes its bytes (R211, R215, R277, R281). -/

namespace Sys2Proof.Machine

/- ### What comes before an access -/

/-- A pending access that may be performed is no fence, none of those before it bars it, and none of its lines is in transit. -/
theorem State.canPerform_inv {s : State} {k : GKey} {p : Pending} {before : List Pending} (h : s.canPerform k p before = true) :
    p.isFence = false ∧ (∀ e ∈ before, e.bars p = false) ∧
      ∀ x ∈ p.ranges, (x.1.space == .dev && s.inTransit x.1.buf x.1.line) = false := by
  simp only [State.canPerform, Bool.and_eq_true, List.all_eq_true, Bool.not_eq_true'] at h
  obtain ⟨⟨⟨fence, bars⟩, -⟩, still⟩ := h
  exact ⟨fence, bars, still⟩

/-- An access that does not acquire blocks no more than it bars (R19, R218). -/
theorem Pending.blocks_eq_bars {e p : Pending} (he : e.acq = none) (hp : p.isFence = false) : e.blocks p = e.bars p := by
  simp [Pending.blocks, Pending.blocksAt, he, hp]

/-- An access makes no release where it has none of its own and stands behind no fence. -/
theorem Group.releases_eq_nil {g : Group} {p : Pending} (hp : p.rel = none) (hg : ∀ f ∈ g.pending, f.isFence = false) :
    g.releases p = [] := by
  have no_fence : g.pending.filter (fun f => f.isFence && f.of p.lanes && f.issue < p.issue) = [] :=
    List.filter_eq_nil_iff.2 fun f hf => by simp [hg f hf]
  simp [Group.releases, hp, no_fence]

/-- What no release has shown comes before no access that makes none (R275, R277, R278). -/
theorem State.comesFirst_of_unseen {s : State} {h g : Group} {e p : Pending} (he : e.seen = []) (hp : g.releases p = []) :
    s.comesFirst h e g p = false := by
  simp [State.comesFirst, State.shownBy, State.shownAt, he, hp]

/- ### Performing one access -/

/-- The group without an access. -/
def Group.without (g : Group) (p : Pending) : Group := { g with pending := g.pending.eraseP p.same }

/-- The group without the fences that are over. -/
def Group.tidied (g : Group) : Group := if g.pending.any Pending.isFence then { g with pending := tidy [] g.pending } else g

theorem Group.tidied_of_no_fence {g : Group} (h : ∀ f ∈ g.pending, f.isFence = false) : g.tidied = g :=
  if_neg (by simpa using h)

theorem Group.tidied_key (g : Group) : g.tidied.key = g.key := by
  simp only [Group.tidied, apply_ite Group.key, ite_self]

theorem Group.without_key (g : Group) (p : Pending) : (g.without p).key = g.key := rfl

/-- What is pending in a group without an access was pending in it. -/
theorem Group.mem_of_mem_without {g : Group} {p e : Pending} (h : e ∈ (g.without p).pending) : e ∈ g.pending :=
  List.mem_of_mem_eraseP h

/-- An access with which no release has to do is performed alone. -/
theorem State.performWith_of_unseen {s : State} {k : GKey} {g : Group} {p : Pending} (first : GKey → (Pending → Bool) → State → State)
    (hg : s.group? k = some g) (hp : p ∈ g.pending) (unseen : ∀ h ∈ s.groups, ∀ e ∈ h.pending, e.seen = [])
    (released : g.releases p = []) :
    s.performWith first k p = ((s.modGroup k (fun g => g.without p)).performOne k p).modGroup k Group.tidied := by
  have still_there : g.pending.any p.same = true := List.any_eq_true.2 ⟨p, hp, by simp [Pending.same]⟩
  have none_first : (s.modGroup k (fun g => g.without p)).groups.filter
      (fun h => h.pending.any (fun e => (s.modGroup k (fun g => g.without p)).comesFirst h e g p)) = [] := by
    refine List.filter_eq_nil_iff.2 fun h hh => ?_
    obtain ⟨h, hs, rfl⟩ := List.mem_map.1 hh
    refine Bool.not_eq_true _ ▸ List.any_eq_false.2 fun e he => ?_
    have pended : e ∈ h.pending := by
      split at he
      · exact Group.mem_of_mem_without he
      · exact he
    simp [State.comesFirst_of_unseen (unseen h hs e pended) released]
  simp only [State.performWith, hg, still_there, Bool.not_true, Bool.false_eq_true, if_false]
  exact congrArg (fun u => (State.performOne u k p).modGroup k Group.tidied) (congrArg (List.foldl _ _) none_first)

/-- The way a place is homed changes neither its memory nor its address. -/
theorem State.rehome_space (s : State) (p : Phys) : (s.rehome p).space = p.space := by
  simp only [State.rehome, apply_ite Phys.space, ite_self]

theorem State.rehome_addr (s : State) (p : Phys) : (s.rehome p).addr = p.addr := by
  simp only [State.rehome, apply_ite Phys.addr, ite_self]

theorem State.holdsFrame_rehome (s : State) (ctx : Nat) (p : Phys) : s.holdsFrame ctx (s.rehome p) = s.holdsFrame ctx p := by
  simp only [State.holdsFrame, State.rehome_space, State.rehome_addr]

/-- A store that makes no release, of a line that stands still and in a frame that its context holds, writes its bytes where its place
is homed now. -/
theorem State.performOne_store {s : State} {k : GKey} {g : Group} {p : Pending} {bs : List Byte} (hg : s.group? k = some g)
    (hop : p.op = .store bs) (still : ∀ x ∈ p.ranges, (x.1.space == .dev && s.inTransit x.1.buf x.1.line) = false)
    (released : g.releases p = []) (held : s.holdsFrame p.ctx p.at_ = true) :
    s.performOne k p = s.perform g.core.die p.ctx (s.rehome p.at_) bs := by
  have range : p.ranges = [(p.at_, p.size)] := by simp [Pending.ranges, hop]
  have reads : p.reads = false := by simp [Pending.reads, hop]
  have line : (p.at_.space == .dev && s.inTransit p.at_.buf p.at_.line) = false := still (p.at_, p.size) (by simp [range])
  have writes : p.writes = true := by simp [Pending.writes, hop]
  have made : s.makeReleases g p = s := by simp [State.makeReleases, released]
  simp only [State.performOne, range, List.foldl_cons, List.foldl_nil, line, Bool.false_eq_true, if_false, hg, writes, if_true, made,
    State.performOp, hop, State.holdsFrame_rehome, held, reads]

/-- Without a release and an acquire, in a group without fences, a pending access that may be performed is performed alone. -/
theorem State.performNth_of_unseen {s : State} {k : GKey} {n : Nat} {g : Group} {p : Pending} (hg : s.group? k = some g)
    (hp : g.pending[n]? = some p) (may : s.canPerform k p (g.pending.take n) = true) (hrel : p.rel = none)
    (relaxed : ∀ f ∈ g.pending, f.isFence = false ∧ f.acq = none) (unseen : ∀ h ∈ s.groups, ∀ e ∈ h.pending, e.seen = []) :
    s.performNth k n = ((s.modGroup k (fun g => g.without p)).performOne k p).modGroup k Group.tidied := by
  obtain ⟨fence, bars, -⟩ := State.canPerform_inv may
  have none_blocks : (g.pending.take n).any (fun e => e.blocks p) = false := by
    refine List.any_eq_false.2 fun e he => ?_
    rw [Pending.blocks_eq_bars (relaxed e (List.mem_of_mem_take he)).2 fence, bars e he]
    exact Bool.false_ne_true
  simp only [State.performNth, hg, hp, may, none_blocks, if_true, Bool.false_eq_true, if_false]
  exact State.performWith_of_unseen _ hg (List.mem_of_getElem? hp) unseen
    (Group.releases_eq_nil hrel fun f hf => (relaxed f hf).1)

/- ### The bytes that a store writes -/

/-- A write of HBM4E where no table of the part lies stores its bytes in the memory, and ends the poison that it covers. -/
theorem State.putBytes_plain {s : State} {a : Nat} {bs : List Byte} (ht : tierOf a = 0) (plain : s.isPlain a bs.length = true) :
    ∃ poison, s.putBytes .dev a bs = { s with mem := Memory.store s.mem a bs, poison := poison } := by
  obtain ⟨tables, mailboxes⟩ : s.meetsTable a bs.length = false ∧ s.meetsMailboxes a bs.length = false := by
    simpa [State.isPlain] using plain
  exact ⟨_, (if_neg (not_not_intro ht)).trans ((if_neg (ne_true_of_eq_false tables)).trans
    (congrArg (State.putOwn _ a) (if_neg (ne_true_of_eq_false mailboxes))))⟩

/-- A store that is performed there writes its bytes, and leaves the other memories. -/
theorem State.perform_plain {s : State} {p : Phys} {bs : List Byte} (hp : p.space = .dev) (ht : tierOf p.addr = 0)
    (plain : s.isPlain p.addr bs.length = true) (die ctx : Nat) : let t := s.perform die ctx p bs
    t.mem = Memory.store s.mem p.addr bs ∧ t.hostMem = s.hostMem ∧ t.peerMem = s.peerMem := by
  obtain ⟨poison, put⟩ := State.putBytes_plain ht plain
  simp only [State.perform, hp, put]
  split <;> simp

/-- Settles O19: the store is performed alone, and writes its bytes where no table lies. -/
theorem performedStoreWritesItsBytes : Obligations.PerformedStoreWritesItsBytes := by
  unfold Obligations.PerformedStoreWritesItsBytes
  intro s k n g p bs hg hn may hop hp ht hrel relaxed unseen held plain wf t
  obtain ⟨-, -, still⟩ := State.canPerform_inv may
  let s1 := s.modGroup k (fun g => g.without p)
  have no_fence : ∀ f ∈ (g.without p).pending, f.isFence = false := fun f hf => (relaxed f (Group.mem_of_mem_without hf)).1
  have found : s1.group? k = some (g.without p) := State.group?_modGroup_same (Group.without_key · p) hg
  have performed : t = (s1.perform g.core.die p.ctx (s.rehome p.at_) bs).modGroup k Group.tidied :=
    (State.performNth_of_unseen hg hn may hrel relaxed unseen).trans (congrArg (State.modGroup · k Group.tidied)
      (State.performOne_store (g := g.without p) found hop still (Group.releases_eq_nil hrel no_fence) held))
  have groups : ∀ j, (s1.perform g.core.die p.ctx (s.rehome p.at_) bs).group? j = s1.group? j := fun j => by
    simp only [State.group?, State.perform_groups]
  obtain ⟨hmem, hhost, hpeer⟩ := State.perform_plain (s := s1) (p := s.rehome p.at_) (bs := bs) ((s.rehome_space _).trans hp)
    (by rwa [State.rehome_addr]) (by rwa [State.rehome_addr]) g.core.die p.ctx
  rw [performed]
  refine ⟨fun a => ?bytes, hhost, hpeer, ?own, fun j hj => ?others⟩
  case bytes =>
    rw [State.modGroup_mem, hmem, State.rehome_addr]
    exact Memory.get_store wf _ _ _
  case own =>
    rw [State.group?_modGroup_same Group.tidied_key ((groups k).trans found), Group.tidied_of_no_fence no_fence]
    rfl
  case others =>
    rw [State.group?_modGroup_other Group.tidied_key hj, groups]
    exact State.group?_modGroup_other (Group.without_key · p) hj

end Sys2Proof.Machine
end

section
/-! SUPPORT. A store at its issue, whose walks lose the steps fetched ahead of it (R88, R216, R281). -/

namespace Sys2Proof.Machine

/-- A walk of one word at the start of buffer 1, whose step has been fetched ahead (R85, R88). -/
def fetchedWalk : QBind :=
  ⟨1, .w32, 0, 4, 1, 0, 1, 0, 1, 0, 0, 0, 0, false, false, false, [.data (List.replicate W 0)]⟩

/-- A group that has bound the walk to q0. -/
def atFetchedWalk : State :=
  (State.reset.withProbe 0).modGroup ⟨0, 0, 0⟩ (fun g => { g with q := setAt g.q 0 (some fetchedWalk) })

/-- The state after a relaxed store of lane 0 to the word that the walk has fetched. -/
def storedIntoWalk : State :=
  atFetchedWalk.performStoreIssue ⟨0, 0, 0⟩ (oneLane 0) ⟨.w32, true, false, false⟩ ⟨.s 1, .imm 0, 0, .team, .rlx⟩
    ⟨.dev, 0x200000, 0, 1, 0⟩ 0

theorem walks_atFetchedWalk : ∀ g ∈ atFetchedWalk.group? ⟨0, 0, 0⟩, regQ g 0 = some fetchedWalk := by decide +kernel

/-- The store discards the step: a later read of the walk sees the stored bytes (R88). -/
theorem walks_storedIntoWalk : ∀ h ∈ storedIntoWalk.group? ⟨0, 0, 0⟩, regQ h 0 = some { fetchedWalk with ahead := [] } := by
  decide +kernel

/-- Refutes O18: a store into a walk's extent discards the steps that the walk has fetched ahead (R88), which the group holds in `q`, and
the statement keeps `q`: where q0 walks the first word of buffer 1 and has fetched it, a store to that word leaves no fetched step. -/
theorem not_storeOnlyPends : ¬ Obligations.StoreOnlyPends := by
  unfold Obligations.StoreOnlyPends
  intro stated
  obtain ⟨g, hg⟩ : ∃ g, atFetchedWalk.group? ⟨0, 0, 0⟩ = some g := Option.isSome_iff_exists.1 (by decide +kernel)
  have idle : ∀ h ∈ atFetchedWalk.groups, ∀ e ∈ h.pending, e.seen = [] := by decide +kernel
  obtain ⟨⟨h, hh, -, -, -, -, -, -, walks, -⟩, -⟩ := stated atFetchedWalk ⟨0, 0, 0⟩ (oneLane 0) ⟨.w32, true, false, false⟩
    ⟨.s 1, .imm 0, 0, .team, .rlx⟩ ⟨.dev, 0x200000, 0, 1, 0⟩ 0 g hg rfl rfl idle
  have kept : regQ h 0 = regQ g 0 := congrArg (nth none · 0) walks
  rw [walks_storedIntoWalk h hh, walks_atFetchedWalk g hg] at kept
  exact absurd kept (by decide)

end Sys2Proof.Machine
end

section
/-! SUPPORT. RESTRIPE, RSQRY, the in-place operations, NBKICK and NBSTAT where no check fails (R232 to R240, R245). -/

namespace Sys2Proof.Machine

/- The proofs of this section are elaborated one after another, which keeps the compile of the whole text within its memory. -/
set_option Elab.async false

/-- An accepted NBKICK: the operation on its tag, with its arguments and its controller's image, and its status (R240, R245). -/
def State.startKick (s : State) (g : Group) (h : Word) (slot tag : Nat) (args : List Word) : State :=
  let e := s.entry (hIndex h)
  let img := match s.slotAt slot e.stk0 with | some i => i.2 | none => 0
  (s.startTag g.core (s.newTag g tag .nbkick (.kick h e.pmap slot img args (List.range (kickSteps args)) [] 0))).modCore g.core
    (fun k => { k with kicks := k.kicks ++ [(tag, ⟨slot, false, 0, 0xFFFFFFFF, 0⟩)] })

section effects
variable {c : Ctl}

theorem restripe_completes (gathered : Bool) (h : SReg) (tag : BitVec 6) (pace : Opd) : CompletesIf (.restripe c gathered h tag pace) c
    (fun s => s.OnIssuer c (fun g _ e => e = 0 ∨ s.restripeFault g (s.scal g 1 0 (.s h)) gathered tag.toNat = none))
    (fun s => onGroup c s (fun g _ e => .done (if e = 0 then s else
      s.restripe g (s.scal g 1 0 (.s h)) gathered tag.toNat (s.scal g 3 0 pace).toNat))) := by
  refine completesIf_onGroup (P := fun s g _ e => e = 0 ∨ s.restripeFault g (s.scal g 1 0 (.s h)) gathered tag.toNat = none)
    (fun _ => rfl) fun s g m e accepted => ?_
  by_cases idle : e = 0
  · simp only [idle, beq_self_eq_true, if_true]
  · simp only [beq_eq_false_iff_ne.2 idle, accepted.resolve_left idle, idle, Bool.false_eq_true, if_false]

theorem nbkick_completes (h args : SReg) (slot : Opd) (tag : BitVec 6) : CompletesIf (.nbkick c h slot args tag) c
    (fun s => s.OnIssuer c (fun g _ x => x = 0 ∨ s.kickFault g (s.scal g 1 0 (.s h)) (s.scal g 2 0 slot).toNat tag.toNat
      ((List.range 14).map (fun j => s.scal g 3 j (.s args))) = none))
    (fun s => onGroup c s (fun g _ x => .done (if x = 0 then s else s.startKick g (s.scal g 1 0 (.s h)) (s.scal g 2 0 slot).toNat
      tag.toNat ((List.range 14).map (fun j => s.scal g 3 j (.s args)))))) := by
  refine completesIf_onGroup (P := fun s g _ x => x = 0 ∨ s.kickFault g (s.scal g 1 0 (.s h)) (s.scal g 2 0 slot).toNat tag.toNat
    ((List.range 14).map (fun j => s.scal g 3 j (.s args))) = none) (fun _ => rfl) fun s g m x accepted => ?_
  by_cases idle : x = 0
  · simp only [idle, beq_self_eq_true, if_true]
  · simp only [beq_eq_false_iff_ne.2 idle, accepted.resolve_left idle, idle, Bool.false_eq_true, if_false]
    rfl

/-- Where no lane fails a check of R235, an in-place operation's lanes wait until the accepted ones are performed (R234, R319). -/
theorem ipEff_of_no_faults {f : IpFn} {h : SReg} {dst a b : Opd} {s : State}
    (sound : (accessRun [] c false (0x100 + h.toNat) none (ipLane f h dst a b s) s).2.2 = []) :
    ipEff c f h dst a b s =
      if (s.execs c).all (fun x => x.2 == 0) then .done (accessRun [] c false (0x100 + h.toNat) none (ipLane f h dst a b s) s).1
      else .moved ((accessRun [] c false (0x100 + h.toNat) none (ipLane f h dst a b s) s).1.setDeciding
        (some ⟨s.cur, c.scope, 0x100 + h.toNat⟩)) 0 := by
  simp only [ipEff, accessEff_of_no_faults sound]
  rfl

/-- An instruction whose issue has the effect of the in-place operations completes where no lane fails. -/
theorem ip_completes {i : Instr} {f : IpFn} {h : SReg} {dst a b : Opd} (hx : ∀ s, exec i s = issue i c s (ipEff c f h dst a b)) :
    let acc := fun (s : State) => accessRun [] c false (0x100 + h.toNat) none (ipLane f h dst a b s) s
    CompletesIf i c (fun s => (acc s).2.2 = []) (fun s => if (s.execs c).all (fun x => x.2 == 0) then .done (acc s).1
      else .moved ((acc s).1.setDeciding (some ⟨s.cur, c.scope, 0x100 + h.toNat⟩)) 0) :=
  completesIf_of_exec hx fun _ sound => ipEff_of_no_faults sound

end effects

/-- Settles O22: the instructions that act once in the issuing group, the in-place operations by the effect that they share, and the
two that read. -/
theorem inMemoryResults : Obligations.InMemoryResults := by
  unfold Obligations.InMemoryResults
  refine ⟨fun c gathered h tag pace d => ?restripe, fun c it ft sat h dst a b => ?inPlace, fun c h args slot d tag => ?kicks⟩
  case restripe =>
    exact ⟨restripe_completes gathered h tag pace, completesIf_of_exec (fun _ => rfl) fun s sound => entryEff_of_no_fault sound _⟩
  case inPlace =>
    exact ⟨ip_completes fun _ => rfl, ip_completes fun _ => rfl, ip_completes fun _ => rfl, ip_completes fun _ => rfl,
      ip_completes fun _ => rfl, ip_completes fun _ => rfl⟩
  case kicks =>
    exact ⟨nbkick_completes h args slot tag, completes_of_exec fun _ => rfl⟩

end Sys2Proof.Machine
end

section
/-! SUPPORT. Line moves, kick steps and copy segments, each said once by the state in which it happens (R227, R230, R231, R242, R243,
R259 to R262, R343, R374). -/

namespace Sys2Proof.Machine

/- The proofs of this section are elaborated one after another, which keeps the compile of the whole text within its memory. -/
set_option Elab.async false

theorem exec_lineMoveStart (buf : Nat) (s : State) : exec (.lineMoveStart buf) s = execLineMoveStart buf s := rfl
theorem exec_lineMoveCommit (buf : Nat) (s : State) : exec (.lineMoveCommit buf) s = execLineMoveCommit buf s := rfl
theorem exec_kickStep (k : CKey) (tag : Nat) (s : State) : exec (.kickStep k tag) s = execKickStep k tag s := rfl
theorem exec_copySegment (k : CKey) (tag : Nat) (s : State) : exec (.copySegment k tag) s = execCopySegment k tag s := rfl
theorem exec_segholdRelease (ctx tag : Nat) (s : State) : exec (.segholdRelease ctx tag) s = execSegholdRelease ctx tag s := rfl

/- ### Line moves -/

section lines
variable {s : State} {buf : Nat}

/-- The owner of a buffer has touched some dies. -/
def State.touchAll (s : State) (ctx : Nat) (dies : List Nat) : State := dies.foldl (fun s d => s.touch ctx d) s

section touched
variable (s : State) (ctx : Nat) (dies : List Nat)

@[simp] theorem State.touchAll_mem : (s.touchAll ctx dies).mem = s.mem := foldl_keeps State.mem _ (fun a b => State.touch_mem a ctx b) _ _
@[simp] theorem State.touchAll_bufs : (s.touchAll ctx dies).bufs = s.bufs :=
  foldl_keeps State.bufs _ (fun a b => State.touch_bufs a ctx b) _ _
@[simp] theorem State.touchAll_groups : (s.touchAll ctx dies).groups = s.groups :=
  foldl_keeps State.groups _ (fun a b => State.touch_groups a ctx b) _ _
@[simp] theorem State.touchAll_transit : (s.touchAll ctx dies).transit = s.transit :=
  foldl_keeps State.transit _ (fun a b => State.touch_transit a ctx b) _ _
@[simp] theorem State.touchAll_moveAt : (s.touchAll ctx dies).moveAt = s.moveAt :=
  foldl_keeps State.moveAt _ (fun a b => State.touch_moveAt a ctx b) _ _
@[simp] theorem State.touchAll_clk : (s.touchAll ctx dies).clk = s.clk := foldl_keeps State.clk _ (fun a b => State.touch_clk a ctx b) _ _

end touched

/-- The next line of a restripe is in transit, and its homes are touched (R227, R342). -/
def State.startMove (s : State) (buf : Nat) : State :=
  let t := s.touchAll (s.entry buf).owner (s.moveHomes buf)
  { t with transit := t.transit ++ [buf], moveAt := t.moveAt.filter (fun x => x.1 != buf) ++ [(buf, t.clk, 0)] }

/-- A line move that may start does so where no home of its line is lost. -/
theorem exec_lineMoveStart_of_mayMove (may : s.mayMove buf = true) : exec (.lineMoveStart buf) s =
    match s.moveLost buf with
    | some d => .next (s.meetLost (s.entry buf).owner d)
    | none => .next (s.startMove buf) := by
  simp only [exec_lineMoveStart, execLineMoveStart, may, Bool.not_true, Bool.false_eq_true, if_false]
  rfl

theorem exec_lineMoveStart_of_not_mayMove (may : s.mayMove buf = false) : exec (.lineMoveStart buf) s = .refused .eventNotEnabled := by
  simp only [exec_lineMoveStart, execLineMoveStart, may, Bool.not_false, if_true]

/-- The line in transit has its new placement, which its new home holds as its own (R227, R228). -/
def State.placeLine (s : State) (buf : Nat) : State :=
  let e := s.entry buf
  let gone := fun (die line : Nat) => (s.lineFrames e e.milestone).contains line && die == e.dieOf e.target e.milestone
  { s.setEntry buf (e.put 160 32 (e.milestone + 1)) with
    transit := s.transit.filter (fun b => b != buf)
    dirty := s.dirty.filter (fun x => !gone x.die x.line)
    readCopies := s.readCopies.filter (fun x => !gone x.die x.line)
    moveAt := s.moveAt.map (fun x => if x.1 == buf then (x.1, x.2.1, s.clk + 1) else x) }

theorem not_mem_placeLine_transit : buf ∉ (s.placeLine buf).transit := by
  simp [State.placeLine]

/-- A line move that commits places its line, and the last one of a restripe ends it (R227, R230). -/
theorem exec_lineMoveCommit_of_transit (moving : buf ∈ s.transit) (here : s.moveLost buf = none) : exec (.lineMoveCommit buf) s =
    .next (if (s.entry buf).milestone + 1 = (s.entry buf).lines then (s.placeLine buf).endRestripe buf else s.placeLine buf) := by
  have no_home_lost : (s.moveHomes buf).any s.lost.contains = false := by
    simpa [State.moveLost, List.find?_eq_none] using here
  simp only [exec_lineMoveCommit, execLineMoveCommit, State.commitLine, List.contains_iff_mem.2 moving, here, no_home_lost, Bool.not_true,
    Option.isSome_none, Bool.or_self, Bool.false_eq_true, if_false]
  rfl

theorem exec_lineMoveCommit_refused (bad : buf ∉ s.transit ∨ (s.moveLost buf).isSome = true) :
    exec (.lineMoveCommit buf) s = .refused .eventNotEnabled :=
  if_pos (by simpa using bad)

theorem State.endRestripe_bufs (s : State) (buf : Nat) :
    (s.endRestripe buf).bufs = (s.setEntry buf (((s.entry buf).put 106 1 (s.entry buf).target).put 192 3 0)).bufs := by
  simp only [State.endRestripe]
  split
  · exact State.modCore_bufs _ _ _
  · rfl

theorem Entry.lines_le (e : Entry) : e.lines ≤ 2 ^ 24 := by
  have field : e.f 64 24 < 2 ^ 24 := Nat.mod_lt _ (Nat.two_pow_pos 24)
  simp only [Entry.lines]
  split <;> omega

/-- After the last line of a restripe the buffer stands in the placement that was asked for (R230). -/
theorem entry_of_restripe_over (wf : Sparse.wf (0 : BitVec 512) s.bufs = true)
    (last : (s.entry buf).milestone + 1 = (s.entry buf).lines) : let e := ((s.placeLine buf).endRestripe buf).entry buf
    e.rstate = 0 ∧ e.ilv = (s.entry buf).target ∧ e.milestone = (s.entry buf).lines := by
  have placed : (s.placeLine buf).entry buf = (s.entry buf).put 160 32 ((s.entry buf).milestone + 1) := State.setEntry_entry_same wf _ _
  have ended : ((s.placeLine buf).endRestripe buf).entry buf =
      (((s.placeLine buf).entry buf).put 106 1 ((s.placeLine buf).entry buf).target).put 192 3 0 := by
    rw [State.entry, State.endRestripe_bufs]
    exact State.setEntry_entry_same (s := s.placeLine buf) (Sparse.set_wf _ _ wf) _ _
  have target : (s.entry buf).target < 2 := Nat.mod_lt _ (by decide)
  have lines := (s.entry buf).lines_le
  intro e
  simp only [e, ended, placed, Entry.rstate, Entry.ilv, Entry.milestone, Entry.target, Entry.f_put_same, Entry.f_put_apart, Nat.reduceAdd,
    Nat.reduceLeDiff, or_true, true_or]
  exact ⟨rfl, Nat.mod_eq_of_lt target, by rw [show (s.entry buf).f 160 32 + 1 = _ from last]; omega⟩

end lines

/- ### Kick steps -/

section kicks
variable {k : CKey} {tag : Nat} {s : State} {t : Tag} {h : Word} {map slot : Nat} {img : BitVec 64} {args : List Word}
  {todo : List Nat} {runs : List KickRun} {done : Nat}

theorem exec_kickStep_of_none (idle : s.kickOf k tag = none) : exec (.kickStep k tag) s = .refused .eventNotEnabled := by
  simp only [exec_kickStep, execKickStep, idle]

/-- The core after a step of a kick that has just found one of its words in error (R243, R245). -/
def Core.noteBad (c : Core) (t : Tag) (tag j : Nat) : Core :=
  { c with kicks :=
      if t.orphan then c.kicks else c.kicks.map (fun (x : Nat × KickStat) => if x.1 == tag then (x.1, x.2.poisoned j) else x) }

/-- A running kick stops where its next step would reach a lost die, and takes the step otherwise (R242, R343). -/
theorem exec_kickStep_of_kick (running : s.kickOf k tag = some t) (kick : t.op = .kick h map slot img args todo runs done) :
    exec (.kickStep k tag) s = match (s.kickNext runs todo).bind (s.kickMeetsLost h map args) with
      | some d => .next (((s.meetLost t.ctx d).modCore k (fun c =>
          { c with tags := replaceTag t (some { t with err := true, stopped := true }) c.tags })).kickStopped t h done 2)
      | none =>
        let r := s.kickStep k t h map slot img args todo runs done
        let noted := match r.2.2 with
          | some j => r.1.modCore k (fun c => c.noteBad t tag j)
          | none => r.1
        .next (match r.2.1.op with
          | .kick _ _ _ _ _ [] [] n => (noted.modCore k (fun c => c.endTag t r.2.1)).kickStopped t h n 0
          | _ => noted.modCore k (fun c => { c with tags := replaceTag t (some r.2.1) c.tags })) := by
  cases reached : (s.kickNext runs todo).bind (s.kickMeetsLost h map args) with
  | some d => simp only [exec_kickStep, execKickStep, running, kick, reached]
  | none =>
    simp only [exec_kickStep, execKickStep, running, kick, reached]
    obtain ⟨u, v, j⟩ := s.kickStep k t h map slot img args todo runs done
    -- The kick is over once no step is to come and none is in progress.
    generalize v.op = op
    cases op with
    | kick _ _ _ _ _ todo runs _ => cases todo <;> cases runs <;> rfl
    | _ => rfl

end kicks

/- ### Copy segments -/

section segments
variable {k : CKey} {tag : Nat} {s : State} {t : Tag}

theorem exec_copySegment_of_none (idle : (s.core k).tags.find? (fun x => x.num == tag && s.maySegment k x) = none) :
    exec (.copySegment k tag) s = .refused .eventNotEnabled := by
  simp only [exec_copySegment, execCopySegment, idle]

/-- A tag with a segment to run writes the segment that it holds; one that holds none reads some of its words, and writes or holds
them, or stops (R259, R262, R374). -/
theorem exec_copySegment_of_some (found : (s.core k).tags.find? (fun x => x.num == tag && s.maySegment k x) = some t) :
    exec (.copySegment k tag) s = .next
      (match t.held with
        | some x => (s.segFinish k t t.op.segRest x).drained k t
        | none => match s.segRead k t (s.portion t) with
          | (s1, .ok x) =>
            if t.hold = some t.segs then s1.modCore k (fun c => { c with tags := replaceTag t (some { t with held := some x }) c.tags })
            else (s1.segFinish k t (s.portion t) x).drained k t
          | (s1, r) => (s1.segStop k t r).drained k t) := by
  simp only [exec_copySegment, execCopySegment, found]
  cases t.held with
  | some x => rfl
  | none =>
    rcases s.segRead k t (s.portion t) with ⟨s1, _ | _ | _⟩
    case ok x =>
      by_cases holds : t.hold = some t.segs
      · simp only [holds, beq_self_eq_true, if_true]
      · simp only [holds, beq_eq_false_iff_ne.2 holds, Bool.false_eq_true, if_false]
    case missing => rfl
    case lost => rfl

/-- The tag's held segment may go on. -/
def Tag.letGo (t : Tag) (ctx tag : Nat) : Tag := if t.ctx == ctx && t.num == tag && t.held.isSome then { t with released := true } else t

theorem Tag.letGo_released {t : Tag} {ctx tag : Nat} (hctx : (t.letGo ctx tag).ctx = ctx) (hnum : (t.letGo ctx tag).num = tag)
    (held : (t.letGo ctx tag).held.isSome = true) : (t.letGo ctx tag).released = true := by
  by_cases named : (t.ctx == ctx && t.num == tag && t.held.isSome) = true
  · rw [Tag.letGo, if_pos named]
  · have kept : t.letGo ctx tag = t := if_neg named
    rw [kept] at hctx hnum held
    exact absurd (by simp [hctx, hnum, held]) named

/-- A release lets every held segment of the context's tag go on (R374). -/
theorem exec_segholdRelease_of_held {ctx : Nat}
    (holds : ∃ c ∈ s.cores, ∃ x ∈ c.tags, x.ctx = ctx ∧ x.num = tag ∧ x.held.isSome = true ∧ x.released = false) :
    exec (.segholdRelease ctx tag) s =
      .next { s with cores := s.cores.map (fun c => { c with tags := c.tags.map (fun t => t.letGo ctx tag) }) } := by
  refine if_pos ?_
  obtain ⟨c, hc, x, hx, hctx, hnum, held, waits⟩ := holds
  exact List.any_eq_true.2 ⟨c, hc, List.any_eq_true.2 ⟨x, hx, by simp [hctx, hnum, held, waits]⟩⟩

end segments

/-- Settles O23: each event by the state in which it happens, with the state that it leaves. -/
theorem engineSteps : Obligations.EngineSteps := by
  unfold Obligations.EngineSteps
  refine ⟨fun buf s => ?moves, fun k tag s t h map slot img args todo runs done => ?kicks, fun k tag ctx s t => ?copies⟩
  case moves =>
    intro e
    refine ⟨exec_lineMoveStart_of_not_mayMove, fun d may lost => ?_, fun may here => ?starts, exec_lineMoveCommit_refused,
      fun moving here => ?commits⟩
    · rw [exec_lineMoveStart_of_mayMove may, lost]
    case starts =>
      refine ⟨s.startMove buf, by rw [exec_lineMoveStart_of_mayMove may, here], ?_⟩
      exact ⟨congrArg (· ++ [buf]) (State.touchAll_transit _ _ _), State.touchAll_mem _ _ _, State.touchAll_bufs _ _ _,
        State.touchAll_groups _ _ _, rfl, by simp [State.startMove]⟩
    case commits =>
      refine ⟨_, exec_lineMoveCommit_of_transit moving here, ?_⟩
      by_cases last : e.milestone + 1 = e.lines
      · rw [if_pos last]
        exact ⟨by rw [State.endRestripe_transit]; exact not_mem_placeLine_transit, State.endRestripe_mem _ _,
          State.endRestripe_groups _ _, fun more => absurd last more, fun _ wf => entry_of_restripe_over wf last⟩
      · rw [if_neg last]
        exact ⟨not_mem_placeLine_transit, rfl, rfl, fun _ => rfl, fun is_last => absurd is_last last⟩
  case kicks =>
    refine ⟨exec_kickStep_of_none, fun d running kick lost => ?_, fun running kick here => ?_⟩
    · rw [exec_kickStep_of_kick running kick, lost]
    · rw [exec_kickStep_of_kick running kick, here]
      rfl
  case copies =>
    refine ⟨exec_copySegment_of_some, exec_copySegment_of_none, fun holds => ⟨_, exec_segholdRelease_of_held holds, rfl, ?_⟩⟩
    intro c hc x hx hctx hnum held
    obtain ⟨c, -, rfl⟩ := List.mem_map.1 hc
    obtain ⟨y, -, rfl⟩ := List.mem_map.1 hx
    exact Tag.letGo_released hctx hnum held

end Sys2Proof.Machine
end

section
/-! SUPPORT. An in-place lane: accepted where its frames are its context's, performed on words that read well, and poisoned where one
reads with an error (R206, R235 to R238, R272). -/

namespace Sys2Proof.Machine

/- The proofs of this section are elaborated one after another, which keeps the compile of the whole text within its memory. -/
set_option Elab.async false

/- ### A frame that is reached stays its owner's -/

theorem frameOwner_frameRec {refs count owner : Nat} (pinned : Bool) (hr : refs < 4096) (hc : count < 2 ^ 16) (ho : owner < 2 ^ 16) :
    frameOwner (frameRec refs pinned count owner) = owner := by
  cases pinned <;> simp [frameOwner, frameRec, fld] <;> omega

/-- The count of a frame says nothing of its owner (R270, R272). -/
theorem frameOwner_counted (r : BitVec 64) :
    frameOwner (frameRec (frameRefs r) (framePinned r) (min (frameCount r + 1) 65535) (frameOwner r)) = frameOwner r :=
  frameOwner_frameRec _ (Nat.mod_lt _ (by decide)) (by omega) (Nat.mod_lt _ (by decide))

section count
variable {s : State} (wf : Sparse.wf (0 : BitVec 64) s.frames = true) (ctx die line : Nat)
include wf

theorem State.countFrame_frames_wf : Sparse.wf (0 : BitVec 64) (s.countFrame ctx die line).frames = true := by
  unfold State.countFrame
  split
  · exact wf
  · rw [State.checkHot_frames]
    exact Sparse.set_wf _ _ wf

/-- A request that is counted changes no frame's owner. -/
theorem State.frameOwner_countFrame (k : Nat) : frameOwner ((s.countFrame ctx die line).frame k) = frameOwner (s.frame k) := by
  unfold State.countFrame
  split
  · rfl
  · rw [State.frame, State.checkHot_frames]
    by_cases same : k = line / 256
    · subst same
      exact (congrArg frameOwner (Sparse.get_set_same (lo := 0) wf)).trans (frameOwner_counted _)
    · exact congrArg frameOwner (Sparse.get_set_other (lo := 0) wf same)

end count

/- ### Acceptance -/

/-- What reaching some places of frames that a context owns leaves: the memory, the poison, the groups and the owners. -/
structure State.ReachedFrom (s t : State) : Prop where
  mem : t.mem = s.mem
  poison : t.poison = s.poison
  groups : t.groups = s.groups
  retained : t.retained = s.retained
  frames : Sparse.wf (0 : BitVec 64) t.frames = true
  owner : ∀ k, frameOwner (t.frame k) = frameOwner (s.frame k)

theorem State.ReachedFrom.refl {s : State} (wf : Sparse.wf (0 : BitVec 64) s.frames = true) : s.ReachedFrom s :=
  ⟨rfl, rfl, rfl, rfl, wf, fun _ => rfl⟩

/-- Reaching one more place of such a frame leaves them too. -/
theorem State.ReachedFrom.reach {s t : State} (h : s.ReachedFrom t) {ctx : Nat} {p : Phys} (hp : p.space = .dev)
    (own : frameOwner (s.frame (frameKey p.addr)) = ctx) (fresh : frameKey p.addr ∉ s.retained) : s.ReachedFrom (t.reach ctx p) := by
  have held : t.holdsFrame ctx p = true := by simp [State.holdsFrame, h.owner, own]
  rw [State.reach_of_holdsFrame hp held (h.retained ▸ fresh)]
  constructor
  case mem => simpa using h.mem
  case poison => simpa using h.poison
  case groups => simpa using h.groups
  case retained => simpa using h.retained
  case frames => exact State.countFrame_frames_wf (s := t.touch ctx p.die) (by simpa using h.frames) _ _ _
  case owner =>
    intro k
    exact (State.frameOwner_countFrame (s := t.touch ctx p.die) (by simpa using h.frames) _ _ _ k).trans (h.owner k)

/-- The state in which an accepted lane has reached its words, each behind what it must follow (R237). -/
def State.ipReach (s : State) (k : GKey) (who : Mask) (ctx : Nat) (places : List Phys) : State :=
  places.foldl (fun s p =>
    ((s.performNeed k (fun e => e.of who && e.meetsAt p wordBytes)).pull k (fun e => e.meetsAt p wordBytes)).reach ctx p) s

/-- Where nothing is pending, a lane reaches its words in frames of its context and nothing else happens. -/
theorem State.ipReach_reached {s : State} {k : GKey} {g : Group} (hg : s.group? k = some g) (idle : ∀ j ∈ s.groups, j.pending = [])
    (who : Mask) {ctx : Nat} {places : List Phys} (own : ∀ p ∈ places, p.space = .dev ∧
      frameOwner (s.frame (frameKey p.addr)) = ctx ∧ frameKey p.addr ∉ s.retained) {t : State} (ht : s.ReachedFrom t) : s.ReachedFrom (t.ipReach k who ctx places) := by
  induction places generalizing t with
  | nil => exact ht
  | cons p ps ih =>
    obtain ⟨space, owner, fresh⟩ := own p (by simp)
    have hgt : t.group? k = some g := by rw [State.group?, ht.groups]; exact hg
    have none_first : (t.performNeed k (fun e => e.of who && e.meetsAt p wordBytes)).pull k (fun e => e.meetsAt p wordBytes) = t := by
      rw [State.performNeed_empty hgt (idle g (State.group?_mem hg)), State.pull_idle (by rw [ht.groups]; exact idle)]
    rw [State.ipReach, List.foldl_cons, none_first]
    exact ih (fun q hq => own q (by simp [hq])) (ht.reach space owner fresh)

/-- The words that an in-place lane uses. -/
def IpFn.used (f : IpFn) (dst a b : Nat) : List Nat := [dst, a] ++ (if f.op.usesB then [b] else [])

/-- The pending access of an accepted lane. -/
def State.ipPending (s : State) (who : Mask) (g : Group) (h : Word) (f : IpFn) (dst a b : Nat) : Pending :=
  let at_ := s.phys (s.entry (hIndex h)) h
  ⟨who, at_ dst, g.ctx, .inPlace f (at_ a) (at_ (if f.op.usesB then b else a)), none, none, s.tick, [], none⟩

theorem State.ipAccept_eq (s : State) (k : GKey) (who : Mask) (g : Group) (h : Word) (f : IpFn) (dst a b : Nat) :
    s.ipAccept k who g h f dst a b =
      (s.ipReach k who g.ctx ((f.used dst a b).map (s.phys (s.entry (hIndex h)) h))).modGroup k
        (fun j => j.addPending (s.ipPending who g h f dst a b)) := by
  simp only [State.ipAccept, State.ipReach, IpFn.used, State.ipPending, List.foldl_map]

theorem Group.addPending_pending (g : Group) (p : Pending) : (g.addPending p).pending = g.pending ++ [p] := by
  simp only [Group.addPending, Group.dropSteps, apply_ite Group.pending, ite_self]

/-- Where nothing is pending and the frames are the context's, an accepted lane is pending, and no memory has changed (R206, R237). -/
theorem State.ipAccept_pends {s : State} {k : GKey} {g : Group} (hg : s.group? k = some g) (idle : ∀ j ∈ s.groups, j.pending = [])
    (wf : Sparse.wf (0 : BitVec 64) s.frames = true) (who : Mask) (h : Word) (f : IpFn) {dst a b : Nat}
    (own : ∀ o ∈ f.used dst a b, frameOwner (s.frame (frameKey (s.phys (s.entry (hIndex h)) h o).addr)) = g.ctx ∧
      frameKey (s.phys (s.entry (hIndex h)) h o).addr ∉ s.retained) : let r := s.ipAccept k who g h f dst a b
    r.mem = s.mem ∧ r.poison = s.poison ∧ ∃ j, r.group? k = some j ∧ j.pending = [s.ipPending who g h f dst a b] := by
  have reached := State.ipReach_reached hg idle who (ctx := g.ctx) (places := (f.used dst a b).map (s.phys (s.entry (hIndex h)) h))
    (fun p hp => by
      obtain ⟨o, ho, rfl⟩ := List.mem_map.1 hp
      exact ⟨rfl, own o ho⟩) (State.ReachedFrom.refl wf)
  intro r
  have accepts : r = _ := State.ipAccept_eq s k who g h f dst a b
  rw [accepts]
  generalize s.ipReach k who g.ctx ((f.used dst a b).map (s.phys (s.entry (hIndex h)) h)) = t at reached ⊢
  have found : t.group? k = some g := by rw [State.group?, reached.groups]; exact hg
  refine ⟨reached.mem, reached.poison, _, State.group?_modGroup_same (Group.addPending_key · _) found, ?_⟩
  rw [Group.addPending_pending, idle g (State.group?_mem hg), List.nil_append]

/- ### The word that an in-place operation gives -/

theorem chunk_length (n k : Nat) (bs : List Byte) : (chunk n k bs).length = k := by
  induction k generalizing bs with
  | zero => rfl
  | succ k ih => simp [chunk, ih]

theorem zip3_length {α β γ δ : Type} (f : α → β → γ → δ) (as : List α) (bs : List β) (cs : List γ) :
    (zip3 f as bs cs).length = min as.length (min bs.length cs.length) := by
  induction as generalizing bs cs with
  | nil => simp [zip3]
  | cons a as ih =>
    cases bs with
    | nil => simp [zip3]
    | cons b bs =>
      cases cs with
      | nil => simp [zip3]
      | cons c cs => simp [zip3, ih]

theorem ipWords_length {n : Nat} (hn : wordBytes / n * n = wordBytes) (f : Nat → Nat → Nat → Nat) (d a b : List Byte) :
    (ipWords n f d a b).length = wordBytes := by
  simp [ipWords, List.length_flatMap, leBytes_length, zip3_length, chunk_length, hn]

/-- An in-place operation gives a whole column word (R236). -/
theorem IpFn.word_length (f : IpFn) (d b : List Byte) {a : List Byte} (ha : a.length = wordBytes) :
    (f.op.f d a b).length = wordBytes := by
  cases f with
  | add it sat => exact ipWords_length (by cases it <;> rfl) _ _ _ _
  | sub it sat => exact ipWords_length (by cases it <;> rfl) _ _ _ _
  | least it => exact ipWords_length (by cases it <;> rfl) _ _ _ _
  | greatest it => exact ipWords_length (by cases it <;> rfl) _ _ _ _
  | mac ft => exact ipWords_length (by cases ft <;> rfl) _ _ _ _
  | copy => exact ha

/-- Column words of HBM4E where no table lies read as they stand in memory. -/
theorem State.devBytes_plain {s : State} {a n : Nat} (ht : tierOf a = 0) (plain : s.isPlain a n = true) :
    s.devBytes a n = Memory.bytes s.mem a n := by
  have tables : s.meetsTable a n = false := by
    simp only [State.isPlain, Bool.and_eq_true, Bool.not_eq_true'] at plain
    exact plain.1
  simp only [State.devBytes, ht, tables, ne_eq, not_true_eq_false, Bool.false_eq_true, if_false]

/- ### Performing a lane -/

/-- The group notes a lane of its own that has met a bad word, with the offset of dst (R238). -/
def Group.noteBad (g : Group) (p : Pending) : Group :=
  { g with ipBad := g.ipBad ++ [(p.lanes, 256 * p.at_.line + p.at_.addr % 256)] }

section perform
variable {t : State} {g : Group} {p : Pending} {f : IpFn} {a b : Phys} (hop : p.op = .inPlace f a b) (home : t.rehome p.at_ = p.at_)
  (held : t.holdsFrame p.ctx p.at_ = true)
include hop home held

/-- A lane that meets a bad word leaves the poison syndrome at dst, and its group is told (R238). -/
theorem State.performOp_inPlace_bad (bad : t.ipWord f p.at_ a b = none) :
    t.performOp g p = (t.setPoison p.at_.addr).modGroup g.key (fun g => g.noteBad p) := by
  simp only [State.performOp, hop, home, held, bad, Bool.not_true, Bool.false_eq_true, if_false]
  rfl

/-- A lane that meets none writes its word at dst (R236, R237). -/
theorem State.performOp_inPlace_word {w : List Byte} (good : t.ipWord f p.at_ a b = some w) :
    t.performOp g p = (t.homeWrite p.at_.addr w).barCopyFor g p (p.at_.addr / 256) := by
  simp only [State.performOp, hop, home, held, good, Bool.not_true, Bool.false_eq_true, if_false]

end perform

theorem State.ipWord_of_poisoned {t : State} {f : IpFn} {d a b : Phys} (bad : (([a] ++ (if f.op.usesB then [b] else []) ++
    (if f.op.readsDst then [d] else [])).any (fun x => t.poisoned x.addr wordBytes)) = true) : t.ipWord f d a b = none :=
  if_pos bad

/-- The word of a lane whose words all read well (R236). -/
theorem State.ipWord_of_plain {t : State} {f : IpFn} {d a b : Phys}
    (plain : ∀ x ∈ [d, a, b], tierOf x.addr = 0 ∧ t.isPlain x.addr wordBytes = true ∧ t.poisoned x.addr wordBytes = false) :
    t.ipWord f d a b = some (f.op.f (Memory.bytes t.mem d.addr wordBytes) (Memory.bytes t.mem a.addr wordBytes)
      (Memory.bytes t.mem b.addr wordBytes)) := by
  have none_bad : ([a] ++ (if f.op.usesB then [b] else []) ++ (if f.op.readsDst then [d] else [])).any
      (fun x => t.poisoned x.addr wordBytes) = false := by
    refine List.any_eq_false.2 fun x hx => ?_
    have used : x ∈ [d, a, b] := by
      simp only [List.mem_append, List.mem_ite_nil_right, List.mem_singleton] at hx
      simp only [List.mem_cons, List.not_mem_nil, or_false]
      tauto
    rw [(plain x used).2.2]
    exact Bool.false_ne_true
  have reads : ∀ x ∈ [d, a, b], t.devBytes x.addr wordBytes = Memory.bytes t.mem x.addr wordBytes := fun x hx =>
    State.devBytes_plain (plain x hx).1 (plain x hx).2.1
  simp only [State.ipWord, none_bad, Bool.false_eq_true, if_false, reads d (by simp), reads a (by simp), reads b (by simp)]

/-- Settles O24: a lane is accepted, is performed with a bad word or without one, and its checks are decided. -/
theorem inPlaceLaneWritesOneWord : Obligations.InPlaceLaneWritesOneWord := by
  unfold Obligations.InPlaceLaneWritesOneWord
  refine ⟨?accepted, ?bad, ?decided, ?written⟩
  case accepted =>
    intro s k who h f dst a b g hg idle wf e at_ used own r
    exact State.ipAccept_pends hg idle wf who h f fun o ho => ⟨(own o ho).1, (own o ho).2.1⟩
  case bad =>
    intro t g j p f a b hop home held hj bad u
    have performed : u = _ := State.performOp_inPlace_bad hop home held (State.ipWord_of_poisoned bad)
    rw [performed]
    exact ⟨rfl, List.mem_append_right _ (List.mem_singleton_self _),
      State.group?_modGroup_same (f := fun g => g.noteBad p) (fun _ => rfl) hj⟩
  case decided =>
    intro s k g d hg checks deciding
    simp only [exec_checksDecided, execChecksDecided, hg, checks, deciding, Bool.not_true, Bool.false_eq_true, if_false]
    rfl
  case written =>
    intro t g p f a b hop home held wf plain rd x
    obtain ⟨tier, tables, -⟩ := plain p.at_ (by simp)
    have size : (f.op.f (rd p.at_) (rd a) (rd b)).length = wordBytes := f.word_length _ _ (Memory.bytes_length _ _ _)
    obtain ⟨poison, put⟩ := State.putBytes_plain (bs := f.op.f (rd p.at_) (rd a) (rd b)) tier (size ▸ tables)
    rw [State.performOp_inPlace_word hop home held (State.ipWord_of_plain plain), State.barCopyFor_mem, State.homeWrite, put,
      Memory.get_store wf, size]

end Sys2Proof.Machine
end

section
/-! SUPPORT. The Imfer commands, each said once by the check that it fails, or by what it carries out (R381 to R383). -/

namespace Sys2Proof.Machine

/- The proofs of this section are elaborated one after another, which keeps the compile of the whole text within its memory. -/
set_option Elab.async false

/- ### A command of the ring -/

/-- No reserved field is set, and the context's number has 16 bits. -/
theorem Cmd.wellFormed {x : Cmd} (formed : x.reserved = false) (small : x.ctx.toNat < 65536) :
    (x.reserved || decide (65536 ≤ x.ctx.toNat)) = false := by
  simpa [formed] using small

section command
variable {x : Cmd} {s t : State} {f : State → State × Option Nat} (idle : s.cmdBusy = false)
include idle

/-- A command with a reserved field set, or whose context's number has more than 16 bits, completes with code 1 (R381). -/
theorem command_illFormed (bad : x.reserved = true ∨ 65536 ≤ x.ctx.toNat) : command x s f = .next (s.complete 1) := by
  have refuses : (x.reserved || decide (65536 ≤ x.ctx.toNat)) = true := by simpa using bad
  simp only [command, idle, refuses, Bool.false_eq_true, if_false, if_true]

variable (formed : x.reserved = false) (small : x.ctx.toNat < 65536)
include formed small

/-- A well-formed command is carried out, and completes with its code. -/
theorem command_completes {i : Instr} (hx : exec i s = command x s f) {code : Nat} (done : f s = (t, some code)) :
    exec i s = .next (t.complete code) := by
  simp only [hx, command, idle, Cmd.wellFormed formed small, done, Bool.false_eq_true, if_false]

/-- A well-formed command that has no code yet goes on. -/
theorem command_goesOn {i : Instr} (hx : exec i s = command x s f) (waits : f s = (t, none)) : exec i s = .next t := by
  simp only [hx, command, idle, Cmd.wellFormed formed small, waits, Bool.false_eq_true, if_false]

end command

theorem State.ctx?_num {s : State} {n : Nat} {c : Ctx} (h : s.ctx? n = some c) : c.num = n := by
  simpa using List.find?_some h

theorem onCtx_of_none {x : Cmd} {s : State} (h : s.ctx? x.ctx.toNat = none) (f : Ctx → State × Option Nat) :
    onCtx x s f = (s, some 2) := by
  simp only [onCtx, h]

theorem onCtx_of_some {x : Cmd} {s : State} {c : Ctx} (h : s.ctx? x.ctx.toNat = some c) (f : Ctx → State × Option Nat) :
    onCtx x s f = f c := by
  simp only [onCtx, h]

theorem exec_contextRetire (n : Nat) (s : State) : exec (.contextRetire n) s = execContextRetire n s := rfl
theorem exec_slotLoadComplete (s : State) : exec .slotLoadComplete s = execSlotLoadComplete s := rfl

/-- An instruction with a CODE is a command of its operands. -/
theorem exec_of_cmdCode {i : Instr} {code : Nat} {x : Cmd} (h : cmdCode i = some (code, x)) : ∃ f, ∀ s, exec i s = command x s f := by
  cases i <;> cases h <;> exact ⟨_, fun _ => rfl⟩

/- ### Each command -/

/-- The number of a context that may be created. -/
theorem ctxCreate_named {n : Nat} {s : State} (pos : n ≠ 0) (le : n ≤ 4095) (free : s.ctx? n = none) :
    ¬ (decide (n = 0) || decide (4095 < n) || (s.ctx? n).isSome) = true := by
  simp [pos, le, free]

section commands
variable {x : Cmd} {s : State} (idle : s.cmdBusy = false) (formed : x.reserved = false) (small : x.ctx.toNat < 65536)
include idle formed small

/-- CTX_CREATE of a number that no context may have, or that one has (R381). -/
theorem ctxCreate_unnamed (bad : x.ctx.toNat = 0 ∨ 4095 < x.ctx.toNat ∨ (s.ctx? x.ctx.toNat).isSome = true) :
    exec (.ctxCreate x) s = .next (s.complete 2) :=
  command_completes idle formed small (exec_ctxCreate x s) (if_pos (by simpa [or_assoc] using bad))

section create
variable (pos : x.ctx.toNat ≠ 0) (le : x.ctx.toNat ≤ 4095) (free : s.ctx? x.ctx.toNat = none)
include pos le free

/-- CTX_CREATE of a descriptor that is none, or is another context's (R382). -/
theorem ctxCreate_refused (bad : x.p0.toNat % 64 ≠ 0 ∨ deviceBytes < x.p0.toNat + 64 ∨ ctxDescOk (s.memNat x.p0.toNat 64) = false ∨
    fld (s.memNat x.p0.toNat 64) 0 16 ≠ x.ctx.toNat) : exec (.ctxCreate x) s = .next (s.complete 3) :=
  command_completes idle formed small (exec_ctxCreate x s) ((if_neg (ctxCreate_named pos le free)).trans
    (if_pos (by simpa [or_assoc] using bad)))

/-- CTX_CREATE of a good descriptor: the context is there, and its mailbox table starts with empty queues (R304, R382). -/
theorem ctxCreate_created (aligned : x.p0.toNat % 64 = 0) (inside : x.p0.toNat + 64 ≤ deviceBytes)
    (good : ctxDescOk (s.memNat x.p0.toNat 64) = true) (own : fld (s.memNat x.p0.toNat 64) 0 16 = x.ctx.toNat) :
    exec (.ctxCreate x) s = .next ({ s with
      ctxs := s.ctxs ++ [Ctx.ofDesc (s.memNat x.p0.toNat 64)]
      mem := s.mem.filterMap (mbStart (fld (s.memNat x.p0.toNat 64) 128 56)) }.complete 0) :=
  command_completes idle formed small (exec_ctxCreate x s) ((if_neg (ctxCreate_named pos le free)).trans
    (if_neg (by simp [aligned, inside, good, own])))

end create

/-- A command on a context that is none completes with code 2 (R381). -/
theorem command_noContext (none_such : s.ctx? x.ctx.toNat = none) {i : Instr} {f : State → Ctx → State × Option Nat}
    (hx : exec i s = command x s (fun s => onCtx x s (f s))) : exec i s = .next (s.complete 2) :=
  command_completes idle formed small hx (onCtx_of_none none_such _)

section present
variable {c : Ctx} (found : s.ctx? x.ctx.toNat = some c)
include found

theorem ctxHalt_halts : exec (.ctxHalt x) s = .next ((s.haltCtx x.ctx.toNat 6 (FaultRec.byHost s.clk)).complete 0) := by
  refine command_completes idle formed small (exec_ctxHalt x s) ((onCtx_of_some found _).trans ?_)
  rw [State.ctx?_num found]

/-- CTX_DESTROY halts the context, and completes when it is retired (R381). -/
theorem ctxDestroy_halts : exec (.ctxDestroy x) s = .next
    ((s.haltCtx x.ctx.toNat 6 (FaultRec.byHost s.clk)).modCtx x.ctx.toNat (fun c => { c with destroying := true })) := by
  refine command_goesOn idle formed small (exec_ctxDestroy x s) ((onCtx_of_some found _).trans ?_)
  rw [State.ctx?_num found]

theorem ctxAnnex_moves (aligned : x.p0.toNat % 65536 = 0) (starts : x.p0.toNat < deviceBytes)
    (ends : x.p0.toNat + x.p1.toNat * 65536 ≤ deviceBytes) (short : x.p1.toNat < 2 ^ 32) : exec (.ctxAnnex x) s =
    .next ((s.modCtx x.ctx.toNat (fun c => { c with annex := x.p0.toNat, annexLen := x.p1.toNat, annexFull := false })).complete 0) := by
  refine command_completes idle formed small (exec_ctxAnnex x s) ((onCtx_of_some found _).trans ?_)
  rw [State.ctx?_num found]
  exact if_neg (by simpa [areaOk, aligned, starts, ends] using short)

theorem ctxAnnex_refused (bad : x.p0.toNat % 65536 ≠ 0 ∨ deviceBytes ≤ x.p0.toNat ∨
    deviceBytes < x.p0.toNat + x.p1.toNat * 65536 ∨ 2 ^ 32 ≤ x.p1.toNat) : exec (.ctxAnnex x) s = .next (s.complete 3) := by
  refine command_completes idle formed small (exec_ctxAnnex x s) ((onCtx_of_some found _).trans (if_pos ?_))
  simp only [areaOk, Bool.or_eq_true, Bool.not_eq_true', Bool.and_eq_false_iff, beq_eq_false_iff_ne, decide_eq_false_iff_not,
    decide_eq_true_eq]
  omega

theorem slotLoad_refused (bad : fld x.p0.toNat 6 2 ≠ 0 ∨ x.p0.toNat / 2 ^ 17 ≠ 0 ∨ fld x.p0.toNat 12 5 = 0 ∨
    16 < fld x.p0.toNat 12 5 ∨ slotImageOk x.p1.toNat = false) : exec (.slotLoad x) s = .next (s.complete 3) :=
  command_completes idle formed small (exec_slotLoad x s) ((onCtx_of_some found _).trans (if_pos (by simpa [or_assoc] using bad)))

/-- SLOT_LOAD of a good image: it loads a slot that no kick uses, and waits for another (R383). -/
theorem slotLoad_accepted (low : fld x.p0.toNat 6 2 = 0) (high : x.p0.toNat / 2 ^ 17 = 0) (some_stack : 1 ≤ fld x.p0.toNat 12 5)
    (fits : fld x.p0.toNat 12 5 ≤ 16) (image : slotImageOk x.p1.toNat = true) :
    (s.slotBusy (slotKeys x.p0.toNat) = false → exec (.slotLoad x) s = .next ((s.loadSlot x).complete 0)) ∧
    (s.slotBusy (slotKeys x.p0.toNat) = true → exec (.slotLoad x) s = .next { s with slotWait := [x] }) := by
  have good : ¬ (decide (fld x.p0.toNat 6 2 ≠ 0) || decide (x.p0.toNat / 2 ^ 17 ≠ 0) || decide (fld x.p0.toNat 12 5 = 0) ||
      decide (16 < fld x.p0.toNat 12 5) || !slotImageOk x.p1.toNat) = true := by
    simp only [low, high, image, ne_eq, not_true_eq_false, decide_false, Bool.false_or, Bool.not_true, Bool.or_false, Bool.or_eq_true,
      decide_eq_true_eq]
    omega
  refine ⟨fun free => ?_, fun busy => ?_⟩
  · exact command_completes idle formed small (exec_slotLoad x s)
      ((onCtx_of_some found _).trans ((if_neg good).trans (if_neg (ne_true_of_eq_false free))))
  · exact command_goesOn idle formed small (exec_slotLoad x s)
      ((onCtx_of_some found _).trans ((if_neg good).trans (if_pos busy)))

theorem bufAdopt_noBuffer (large : 2 ^ 20 ≤ x.p0.toNat) : exec (.bufAdopt x) s = .next (s.complete 3) :=
  command_completes idle formed small (exec_bufAdopt x s) ((onCtx_of_some found _).trans (if_pos large))

/-- BUF_ADOPT of a buffer whose owner is no halted context with stopped engines (R381). -/
theorem bufAdopt_ownerRuns (named : x.p0.toNat < 2 ^ 20) (runs : s.stoppedCtx (s.entry x.p0.toNat).owner = false) :
    exec (.bufAdopt x) s = .next (s.complete 4) :=
  command_completes idle formed small (exec_bufAdopt x s)
    ((onCtx_of_some found _).trans ((if_neg (not_le.2 named)).trans (if_pos (by simp [runs]))))

/-- BUF_ADOPT of a buffer of a context that has stopped: its frames and its objects are the new owner's (R231, R292, R381). -/
theorem bufAdopt_adopts (named : x.p0.toNat < 2 ^ 20) (stopped : s.stoppedCtx (s.entry x.p0.toNat).owner = true) :
    exec (.bufAdopt x) s = .next (((s.adoptFrames (s.entry x.p0.toNat)).foldl
      (fun t k => t.adoptFrame (s.entry x.p0.toNat).owner x.ctx.toNat k)
      ((s.adoptObjects x.p0.toNat x.ctx.toNat).setEntry x.p0.toNat ((s.entry x.p0.toNat).put 112 16 x.ctx.toNat))).complete 0) := by
  refine command_completes idle formed small (exec_bufAdopt x s) ((onCtx_of_some found _).trans ?_)
  rw [State.ctx?_num found]
  exact (if_neg (not_le.2 named)).trans (if_neg (by simp [stopped]))

end present

/-- FRAME_REF of a frame: one reference more or less (R271). -/
theorem frameRef_counts (form : x.p0.toNat / 2 ^ 34 = 0)
    (frame : bitOf x.p0.toNat 32 = true ∨ fld x.p0.toNat 0 32 * 65536 < deviceBytes) :
    let k := fld x.p0.toNat 32 1 * 2 ^ 40 + fld x.p0.toNat 0 32
    exec (.frameRef x) s = .next ((if bitOf x.p0.toNat 33 then s.dropRef k else s.addRef k).complete 0) := by
  refine command_completes idle formed small (exec_frameRef x s) (if_neg ?_)
  simp only [form, ne_eq, not_true_eq_false, decide_false, Bool.false_or, Bool.and_eq_true, Bool.not_eq_true', decide_eq_true_eq]
  rintro ⟨hbm, outside⟩
  exact frame.elim (ne_true_of_eq_false hbm) (not_lt.2 outside)

theorem frameRef_refused
    (bad : x.p0.toNat / 2 ^ 34 ≠ 0 ∨ (bitOf x.p0.toNat 32 = false ∧ deviceBytes ≤ fld x.p0.toNat 0 32 * 65536)) :
    exec (.frameRef x) s = .next (s.complete 3) :=
  command_completes idle formed small (exec_frameRef x s) (if_pos (by simpa using bad))

end commands

/- ### What completes a command later -/

theorem contextRetire_completes {s : State} {n : Nat} {c : Ctx} (found : s.ctx? n = some c) (destroying : c.destroying = true)
    (dumped : s.dumpDone n = true) : exec (.contextRetire n) s = .next ((s.dropCtx n).complete 0) := by
  simp only [exec_contextRetire, execContextRetire, found, destroying, dumped, Bool.and_self, if_true]

theorem slotLoadComplete_completes {s : State} {x : Cmd} {rest : List Cmd} (waits : s.slotWait = x :: rest)
    (free : s.slotBusy (slotKeys x.p0.toNat) = false) :
    exec .slotLoadComplete s = .next (({ s with slotWait := rest }.loadSlot x).complete 0) := by
  simp only [exec_slotLoadComplete, execSlotLoadComplete, waits, free, Bool.false_eq_true, if_false]

/-- Settles O47: a command is refused by its form, by its context, or by its own check, and is carried out otherwise. -/
theorem commandResults : Obligations.CommandResults := by
  unfold Obligations.CommandResults
  refine ⟨fun i code x s idle coded bad => ?form, fun x s idle formed small => ?_⟩
  case form =>
    obtain ⟨f, hf⟩ := exec_of_cmdCode coded
    exact (hf s).trans (command_illFormed idle bad)
  intro n p d k e
  refine ⟨ctxCreate_unnamed idle formed small, ctxCreate_refused idle formed small, ctxCreate_created idle formed small,
    fun absent => ?absent, fun c found => ?present, frameRef_counts idle formed small, frameRef_refused idle formed small,
    fun u m c => contextRetire_completes, fun u y rest => slotLoadComplete_completes⟩
  case absent =>
    have refuses {i : Instr} {f : State → Ctx → State × Option Nat} (hx : exec i s = command x s (fun s => onCtx x s (f s))) :
        exec i s = .next (s.complete 2) := command_noContext idle formed small absent hx
    exact ⟨refuses (exec_ctxHalt x s), refuses (exec_ctxDestroy x s), refuses (exec_ctxAnnex x s), refuses (exec_slotLoad x s),
      refuses (exec_bufAdopt x s)⟩
  case present =>
    exact ⟨ctxHalt_halts idle formed small found, ctxDestroy_halts idle formed small found, ctxAnnex_moves idle formed small found,
      ctxAnnex_refused idle formed small found, slotLoad_refused idle formed small found, slotLoad_accepted idle formed small found,
      bufAdopt_noBuffer idle formed small found, bufAdopt_ownerRuns idle formed small found, bufAdopt_adopts idle formed small found⟩

end Sys2Proof.Machine
end

section
/-! SUPPORT. Copies and shadow copies that pass their checks, and the instructions that read or clear completion tags (R254 to R258,
R263 to R265, R267). -/

namespace Sys2Proof.Machine

/- The proofs of this section are elaborated one after another, which keeps the compile of the whole text within its memory. -/
set_option Elab.async false

/- ### Operations that start on a tag -/

/-- An accepted COPY or COPY.shadow: its scratchpad rows are claimed, and it starts on its tag, DONE at once where it covers no byte
(R247, R257, R258). -/
def State.startCopy (s : State) (g : Group) (tag : Nat) (ar : CopyArgs) : State :=
  let srcH := nth (0 : Word) ar.w 1
  let dstH := nth (0 : Word) ar.w 3
  let s1 := if ar.kind = 0 then s.claimRows g ar.dst else if ar.kind = 1 then s.claimRows g ar.src else s
  s1.startOp g tag (if ar.shadow then .copyShadow else .copy)
    (.copy ar.kind srcH ((s.entry (hIndex srcH)).mapBase (hView srcH)) ar.src.start (if ar.shadow then shadowHandle dstH else dstH)
      ar.dst.start ar.src.len ar.src.rows ar.src.stride ar.dst.stride 0 0) (ar.src.len = 0)

/-- The offset of the block that a lane of a BLKCPY names (R263). -/
def State.blkOff (s : State) (g : Group) (idx : VReg) (a : SReg) (i : Nat) : Nat :=
  (s.scal g 3 2 (.s a)).toNat + (nth 0 (s.vec g 2 0 (.v idx)) i).toNat * (s.scal g 3 0 (.s a)).toNat

/-- A lane of a BLKCPY names a block (R263). -/
def State.blkWants (s : State) (g : Group) (x : Mask) (idx : VReg) (a : SReg) (i : Nat) : Bool :=
  laneBit x i && (nth 0 (s.vec g 2 0 (.v idx)) i).toNat < (s.scal g 3 1 (.s a)).toNat

/-- The rows of the row map that a BLKCPY looks up (R265). -/
def State.blkRows (s : State) (g : Group) (x : Mask) (h : SReg) (idx : VReg) (a : SReg) : Option (Nat × List (Nat × Nat)) :=
  let hd := s.scal g 1 0 (.s h)
  let e := s.entry (hIndex hd)
  let size := (s.scal g 3 0 (.s a)).toNat
  if hView hd = 0 && e.rmap ≠ 0 then
    some (e.rshift, ((List.range W).flatMap (fun i =>
      if s.blkWants g x idx a i && s.blkOff g idx a i + size ≤ e.len then s.rowsUsed e (s.blkOff g idx a i) size else [])).dedup)
  else none

/-- An accepted BLKCPY: the dies of its row-map words are touched, its scratchpad rows are claimed, and it starts on its tag with the
blocks that can be copied (R263 to R265, R342). -/
def State.startBlk (s : State) (g : Group) (x : Mask) (tag : Nat) (h : SReg) (idx : VReg) (a : SReg) : State :=
  let hd := s.scal g 1 0 (.s h)
  let e := s.entry (hIndex hd)
  let size := (s.scal g 3 0 (.s a)).toNat
  let d0 := (s.scal g 3 3 (.s a)).toNat
  let map := s.blkRows g x h idx a
  let blocks := (List.range W).map (fun i => if s.blkWants g x idx a i && s.blkLaneOk e hd map (s.blkOff g idx a i) size then
    some (nth 0 (s.vec g 2 0 (.v idx)) i).toNat else none)
  let s1 := ((e.rowDies map).foldl (fun s d => s.touch g.ctx d) s).claimRows g ⟨d0, 0, W * size, 1⟩
  s1.startTag g.core { s1.newTag g tag .blkcpy (.blk hd (e.mapBase (hView hd)) size (s.scal g 3 2 (.s a)).toNat d0 blocks map 0) with
    err := (lanesOf x).any (fun i => (nth none blocks i).isNone) }

theorem State.find?_lost_of_here {s : State} {dies : List Nat} (here : ∀ d ∈ dies, d ∉ s.lost) :
    dies.find? s.lost.contains = none := List.find?_eq_none.2 fun d hd => by simpa using here d hd

section starts
variable {c : Ctl}

/-- COPY and COPY.shadow, whose issues share their effect, complete where they pass their checks (R257, R258). -/
theorem copy_completes {i : Instr} {tag : BitVec 6} {a : SReg} {shadow : Bool}
    (hx : ∀ s, exec i s = issue i c s (copyEff c tag a shadow)) :
    let args := fun (s : State) (g : Group) => CopyArgs.mk ((List.range 9).map (fun j => s.scal g 1 j (.s a))) shadow
    CompletesIf i c (fun s => s.OnIssuer c (fun g _ x => x = 0 ∨ s.copyFault g tag.toNat (args s g) = none))
      (fun s => onGroup c s (fun g _ x => .done (if x = 0 then s else s.startCopy g tag.toNat (args s g)))) := by
  refine completesIf_onGroup (P := fun s g _ x => x = 0 ∨
    s.copyFault g tag.toNat ⟨(List.range 9).map (fun j => s.scal g 1 j (.s a)), shadow⟩ = none) hx fun s g m x accepted => ?_
  by_cases idle : x = 0
  · simp only [idle, beq_self_eq_true, if_true]
  · simp only [beq_eq_false_iff_ne.2 idle, accepted.resolve_left idle, idle, Bool.false_eq_true, if_false]
    rfl

/-- BLKCPY completes where it passes its checks and no row-map word that it looks up lies on a lost die (R263 to R265, R343). -/
theorem blkcpy_completes (tag : BitVec 6) (h : SReg) (idx : VReg) (a : SReg) : CompletesIf (.blkcpy c tag h idx a) c
    (fun s => s.OnIssuer c (fun g _ x => x = 0 ∨ s.blkFault g (s.scal g 1 0 (.s h)) tag.toNat (s.scal g 3 0 (.s a)).toNat
      (s.scal g 3 3 (.s a)).toNat (s.scal g 3 2 (.s a)).toNat = none ∧
      ∀ d ∈ (s.entry (hIndex (s.scal g 1 0 (.s h)))).rowDies (s.blkRows g x h idx a), d ∉ s.lost))
    (fun s => onGroup c s (fun g _ x => .done (if x = 0 then s else s.startBlk g x tag.toNat h idx a))) := by
  refine completesIf_onGroup (P := fun s g _ x => x = 0 ∨ s.blkFault g (s.scal g 1 0 (.s h)) tag.toNat (s.scal g 3 0 (.s a)).toNat
    (s.scal g 3 3 (.s a)).toNat (s.scal g 3 2 (.s a)).toNat = none ∧
    ∀ d ∈ (s.entry (hIndex (s.scal g 1 0 (.s h)))).rowDies (s.blkRows g x h idx a), d ∉ s.lost) (fun _ => rfl)
    fun s g m x accepted => ?_
  by_cases idle : x = 0
  · simp only [idle, beq_self_eq_true, if_true]
  · obtain ⟨sound, here⟩ := accepted.resolve_left idle
    simp only [beq_eq_false_iff_ne.2 idle, sound, idle, Bool.false_eq_true, if_false]
    split
    · next d lost => exact absurd ((State.find?_lost_of_here here).symm.trans lost) nofun
    · rfl

/-- SHADOW completes where it passes its checks (R267). -/
theorem shadow_completes (tag : BitVec 6) (h : SReg) (first count : Opd) : CompletesIf (.shadow c tag h first count) c
    (fun s => s.OnIssuer c (fun g _ x => x = 0 ∨
      s.shadowFault g (s.scal g 1 0 (.s h)) tag.toNat (s.scal g 2 0 first).toNat (s.scal g 3 0 count).toNat = none))
    (fun s => onGroup c s (fun g _ x =>
      let hd := s.scal g 1 0 (.s h)
      let f := (s.scal g 2 0 first).toNat
      let n := (s.scal g 3 0 count).toNat
      .done (if x = 0 then s else s.startOp g tag.toNat .shadow (.copy 2 (BitVec.ofNat 32 (hIndex hd)) (s.entry (hIndex hd)).pmap
        (f * 256) (shadowHandle hd) (f * 256) (n * 256) 1 0 0 0 0) (n = 0)))) := by
  refine completesIf_onGroup (P := fun s g _ x => x = 0 ∨
    s.shadowFault g (s.scal g 1 0 (.s h)) tag.toNat (s.scal g 2 0 first).toNat (s.scal g 3 0 count).toNat = none) (fun _ => rfl)
    fun s g m x accepted => ?_
  by_cases idle : x = 0
  · simp only [idle, beq_self_eq_true, if_true]
  · simp only [beq_eq_false_iff_ne.2 idle, accepted.resolve_left idle, idle, Bool.false_eq_true, if_false]

end starts

/-- Settles O25: each of the four instructions starts its operation where it passes its checks. -/
theorem copyStarts : Obligations.CopyStarts := by
  unfold Obligations.CopyStarts
  intro c tag a h idx first count
  exact ⟨copy_completes fun _ => rfl, copy_completes fun _ => rfl, blkcpy_completes tag h idx a, shadow_completes tag h first count⟩

/- ### Instructions on completion tags -/

section tags
variable {c : Ctl} {mask : Opd}

/-- The effect that the instructions on tags share, where a lane executes and no tag of the mask is another context's (R255). -/
theorem tagEff_of_own {s : State} {P : Group → Prop} {f : Group → Member → Mask → Core → BitVec 64 → Eff}
    {f' : Group → Member → Mask → Eff}
    (own : s.OnIssuer c (fun g _ x => x ≠ 0 ∧ (s.core g.core).tagIn (s.tagMask g mask) (fun t => t.ctx != g.ctx) = none ∧ P g))
    (hf : ∀ g m x, P g → f g m x (s.core g.core) (s.tagMask g mask) = f' g m x) : tagEff c mask s f = onGroup c s f' := by
  refine onGroup_congr own ?_
  rintro g m x ⟨executes, owned, holds⟩
  simp only [beq_eq_false_iff_ne.2 executes, owned, Bool.false_eq_true, if_false]
  exact hf g m x holds

/-- The tags of a mask that are DONE for the group (R255). -/
def State.tagsReady (s : State) (g : Group) (mask : Opd) : BitVec 64 := (s.core g.core).tagDone g.ctx &&& s.tagMask g mask

/-- A wait completes once enough of its tags is DONE (R255, R256). -/
theorem wait_completes {i : Instr} {d : SReg} {scp : Scp} {test : BitVec 64 → BitVec 64 → Bool}
    {enough : BitVec 64 → BitVec 64 → Prop}
    (hx : ∀ s, exec i s = issue i c s (waitEff c d mask scp test)) (htest : ∀ r bits, enough r bits → test r bits = true) :
    CompletesIf i c
      (fun s => (∃ x ∈ s.execs c, x.2 ≠ 0) ∧ s.OnIssuer c (fun g _ x => x ≠ 0 ∧
        (s.core g.core).tagIn (s.tagMask g mask) (fun t => t.ctx != g.ctx) = none ∧ enough (s.tagsReady g mask) (s.tagMask g mask)))
      (fun s => onGroup c s (fun g _ _ => .done (((s.acquire g.core.die g.ctx scp).tagsSeen g scp (s.tagsReady g mask)).putVar g.key
        [.s d.toNat (loWord (s.tagsReady g mask)), .s (d.toNat + 1) (hiWord (s.tagsReady g mask))]))) := by
  refine completesIf_of_exec hx ?_
  rintro s ⟨⟨y, hy, executes⟩, own⟩
  have someone : ¬ ((s.execs c).all (fun x => x.2 == 0)) = true := fun idle =>
    executes (beq_iff_eq.1 (List.all_eq_true.1 idle y hy))
  refine (if_neg someone).trans (tagEff_of_own own fun g m x done => if_neg ?_)
  exact ne_true_of_eq_false (congrArg not (htest _ _ done))

theorem ffrdy_completes (d : SReg) : CompletesIf (.ffrdy c d mask) c
    (fun s => s.OnIssuer c (fun g _ x => x ≠ 0 ∧ (s.core g.core).tagIn (s.tagMask g mask) (fun t => t.ctx != g.ctx) = none))
    (fun s => onGroup c s (fun g _ _ => .done (s.putFixed g.key 4
      [.s d.toNat (match lowestLane (s.tagsReady g mask) with | some n => BitVec.ofNat 32 n | none => 0xFFFFFFFF)]))) :=
  completesIf_of_exec (fun _ => rfl) fun _ own => tagEff_of_own (P := fun _ => True)
    (fun m ms g hm hg => ⟨(own m ms g hm hg).1, (own m ms g hm hg).2, trivial⟩) fun _ _ _ _ => rfl

/-- TAGCLR clears the tags of its mask where each is DONE (R255). -/
theorem tagclr_completes : CompletesIf (.tagclr c mask) c
    (fun s => s.OnIssuer c (fun g _ x => x ≠ 0 ∧ (s.core g.core).tagIn (s.tagMask g mask) (fun t => t.ctx != g.ctx) = none ∧
      (s.core g.core).tagIn (s.tagMask g mask) (fun t => !t.done) = none))
    (fun s => onGroup c s (fun g _ _ => .done (s.modCore g.core (fun k =>
      { k with tags := k.tags.filter (fun t => t.orphan || !(s.tagMask g mask).getLsbD t.num) })))) := by
  refine completesIf_of_exec (fun _ => rfl) fun s own => tagEff_of_own own fun g m x done => ?_
  simp only [done]

end tags

/-- Settles O26: the waits by the effect that they share, FFRDY and TAGCLR by the check that all four share. -/
theorem tagWaitResults : Obligations.TagWaitResults := by
  unfold Obligations.TagWaitResults
  intro c d mask scp
  refine ⟨wait_completes (enough := fun r bits => r ≠ 0 ∨ bits = 0) (fun _ => rfl) fun r bits some_done => ?any,
    wait_completes (enough := fun r bits => r = bits) (fun _ => rfl) fun r bits all_done => ?all, ffrdy_completes d, tagclr_completes⟩
  case any => simpa using some_done
  case all => simpa using all_done

end Sys2Proof.Machine
end

section
/-! SUPPORT. PUBLISH at its issue, once its exchange has taken effect, and the exchange (R268, R343). -/

namespace Sys2Proof.Machine

/- The proofs of this section are elaborated one after another, which keeps the compile of the whole text within its memory. -/
set_option Elab.async false

section issues
variable {c : Ctl} {h : SReg}

/-- PUBLISH completes once its exchange has taken effect (R268). -/
theorem publish_completes : CompletesIf (.publish c h) c
    (fun s => s.OnIssuer c (fun g _ x => x ≠ 0 ∧ ∃ b, g.publish = some (b, true)))
    (fun s => onGroup c s (fun g _ _ => .done (s.modGroup g.key (fun g => { g with publish := none })))) := by
  refine completesIf_onGroup (P := fun _ g _ x => x ≠ 0 ∧ ∃ b, g.publish = some (b, true)) (fun _ => rfl) ?_
  rintro s g m x ⟨executes, b, exchanged⟩
  simp only [beq_eq_false_iff_ne.2 executes, exchanged, Bool.false_eq_true, if_false]

/-- PUBLISH that passes its checks is held with its exchange outstanding (R268). -/
theorem publish_holds : CompletesIf (.publish c h) c
    (fun s => s.OnIssuer c (fun g _ x => x ≠ 0 ∧ g.publish = none ∧ s.publishFault g (s.scal g 1 0 (.s h)) = none))
    (fun s => onGroup c s (fun g _ _ =>
      .hold (s.modGroup g.key (fun g' => { g' with publish := some (hIndex (s.scal g 1 0 (.s h)), false) })))) := by
  refine completesIf_onGroup (P := fun s g _ x => x ≠ 0 ∧ g.publish = none ∧ s.publishFault g (s.scal g 1 0 (.s h)) = none)
    (fun _ => rfl) ?_
  rintro s g m x ⟨executes, fresh, sound⟩
  simp only [beq_eq_false_iff_ne.2 executes, fresh, sound, Bool.false_eq_true, if_false]

end issues

theorem exec_publishExchange (k : GKey) (s : State) : exec (.publishExchange k) s = execPublishExchange k s := rfl

/-- The state before the exchange of the maps: what the group has issued is released, and no copy of a frame of either map is kept. -/
def State.readyToExchange (s : State) (k : GKey) (buf : Nat) : State :=
  let s1 := s.releaseLanes k allLanes .system
  let fs := s1.bufFrames (s1.entry buf)
  { s1 with
    readCopies := s1.readCopies.filter (fun x => !fs.contains (x.line / 256))
    dirty := s1.dirty.filter (fun x => !fs.contains (x.line / 256)) }

section exchange
variable {s : State} {k : GKey} {g : Group} {buf : Nat} (hg : s.group? k = some g) (outstanding : g.publish = some (buf, false))
  (may : s.mayExchange g buf = true)
include hg outstanding may

/-- An exchange that would reach a lost die for the row maps halts the context (R343). -/
theorem publishExchange_lost {d : Nat} (lost : (s.entry buf).rowMapDies.find? s.lost.contains = some d) :
    exec (.publishExchange k) s = .next (s.meetLost g.ctx d) := by
  simp only [exec_publishExchange, execPublishExchange, hg, outstanding, may, lost, Bool.not_true, Bool.false_eq_true, if_false]

/-- An exchange that reaches no lost die exchanges the maps (R268). -/
theorem publishExchange_exchanges (here : ∀ d ∈ (s.entry buf).rowMapDies, d ∉ s.lost) :
    exec (.publishExchange k) s = .next (((s.readyToExchange k buf).exchange buf).modGroup k
      (fun g => { g with publish := some (buf, true), heldSince := none })) := by
  simp only [exec_publishExchange, execPublishExchange, hg, outstanding, may, State.find?_lost_of_here here,
    Bool.not_true, Bool.false_eq_true, if_false]
  rfl

end exchange

/-- Settles O27: PUBLISH is held, its exchange takes effect or meets a lost die, and then PUBLISH completes. -/
theorem publishSteps : Obligations.PublishSteps := by
  unfold Obligations.PublishSteps
  intro c h k s0 g0 buf
  exact ⟨publish_completes, publish_holds, fun d hg outstanding may lost => publishExchange_lost hg outstanding may lost,
    publishExchange_exchanges⟩

end Sys2Proof.Machine
end

section
/-! SUPPORT. The bytes and banks of a scratchpad, the segments that an access claims, and what one lane of LDSP or STSP does (R246,
R247, R250). -/

namespace Sys2Proof.Machine

/- The proofs of this section are elaborated one after another, which keeps the compile of the whole text within its memory. -/
set_option Elab.async false

/- ### Bytes and banks: a scratchpad is read and written as a memory is -/

theorem spStore_eq_store (m : List (Nat × Byte)) (o : Nat) (bs : List Byte) : spStore m o bs = Memory.store m o bs := by
  induction bs generalizing m o with
  | nil => rfl
  | cons x t ih => exact ih _ _

theorem Core.spRead_eq_bytes (c : Core) (o n : Nat) : c.spRead o n = Memory.bytes c.sp o n := by
  induction n generalizing o with
  | zero => rfl
  | succ n ih => exact congrArg _ (ih _)

theorem Memory.bytes_eq_map (m : List Host.Cell) (a n : Nat) : Memory.bytes m a n = (List.range n).map (fun j => Memory.get m (a + j)) := by
  induction n generalizing a with
  | zero => rfl
  | succ n ih => simp [Memory.bytes, ih, List.range_succ_eq_map, Nat.add_comm 1, Nat.add_assoc, Function.comp_def]

theorem Core.get_spWrite {c : Core} (wf : Sparse.wf (0 : Byte) c.sp = true) (o : Nat) (bs : List Byte) (b : Nat) :
    Sparse.get 0 (c.spWrite o bs).sp b = if o ≤ b ∧ b < o + bs.length then nth 0 bs (b - o) else Sparse.get 0 c.sp b := by
  rw [Core.spWrite, spStore_eq_store]
  exact Memory.get_store wf o b bs

section banks
variable {c : Core} (wf : Sparse.wf (0 : Byte) c.sp = true) {o : Nat} (aligned : o % 4 = 0) (x : Word)
include wf aligned

/-- A write of one aligned word changes the word of its data bank at its row, and no other (R246). -/
theorem Core.bankWord_spWrite {b : Nat} (hb : b < 32) (row : Nat) : (c.spWrite o (leBytes 4 x.toNat)).bankWord b row =
    if b = spBank o ∧ row = spRow o then x else c.bankWord b row := by
  have here : 128 * spRow o + 4 * spBank o = o := by simp only [spRow, spBank]; omega
  simp only [Core.bankWord, Core.spRead_eq_bytes, Core.spWrite, spStore_eq_store]
  split
  · next at_ =>
    obtain ⟨rfl, rfl⟩ := at_
    have stored := Memory.bytes_store (m := c.sp) wf o (leBytes 4 x.toNat)
    rw [leBytes_length] at stored
    rw [here, stored, leNat_leBytes _ _ (by omega), BitVec.ofNat_toNat, BitVec.setWidth_eq]
  · next elsewhere =>
    have apart : 128 * row + 4 * b + 4 ≤ o ∨ o + 4 ≤ 128 * row + 4 * b := by simp only [spRow, spBank] at elsewhere; omega
    congr 2
    rw [Memory.bytes_eq_map, Memory.bytes_eq_map]
    refine List.map_congr_left fun j hj => ?_
    rw [List.mem_range] at hj
    exact Memory.get_store_outside _ wf (by rw [leBytes_length]; omega)

/-- The parity bank of the word's group takes the change, and stays the exclusive-or of its data banks (R246). -/
theorem Core.parityWord_spWrite {g : Nat} (hg : g < 8) (row : Nat) : (c.spWrite o (leBytes 4 x.toNat)).parityWord g row =
    if g = spBank o / 4 ∧ row = spRow o then c.parityWord g row ^^^ c.bankWord (spBank o) row ^^^ x else c.parityWord g row := by
  simp only [Core.parityWord]
  rw [Core.bankWord_spWrite wf aligned x (by omega), Core.bankWord_spWrite wf aligned x (by omega),
    Core.bankWord_spWrite wf aligned x (by omega), Core.bankWord_spWrite wf aligned x (by omega)]
  by_cases at_ : g = spBank o / 4 ∧ row = spRow o
  · rw [if_pos at_]
    obtain ⟨rfl, rfl⟩ := at_
    have which : spBank o = 4 * (spBank o / 4) ∨ spBank o = 4 * (spBank o / 4) + 1 ∨ spBank o = 4 * (spBank o / 4) + 2 ∨
      spBank o = 4 * (spBank o / 4) + 3 := by omega
    have swapped : x = c.bankWord (spBank o) (spRow o) ^^^ (c.bankWord (spBank o) (spRow o) ^^^ x) := by
      rw [← BitVec.xor_assoc, BitVec.xor_self, BitVec.zero_xor]
    conv_lhs => rw [swapped]
    generalize spBank o / 4 = q at which
    rcases which with h | h | h | h <;> rw [h]
    · rw [if_pos ⟨rfl, rfl⟩, if_neg (by omega), if_neg (by omega), if_neg (by omega)]
      ac_rfl
    · rw [if_neg (by omega), if_pos ⟨rfl, rfl⟩, if_neg (by omega), if_neg (by omega)]
      ac_rfl
    · rw [if_neg (by omega), if_neg (by omega), if_pos ⟨rfl, rfl⟩, if_neg (by omega)]
      ac_rfl
    · rw [if_neg (by omega), if_neg (by omega), if_neg (by omega), if_pos ⟨rfl, rfl⟩]
      ac_rfl
  · rw [if_neg at_, if_neg (by omega), if_neg (by omega), if_neg (by omega), if_neg (by omega)]

end banks

/- ### Segments that an access claims -/

theorem Core.segOwner_append (c : Core) (j ctx i : Nat) (sp : List (Nat × Byte)) (poison : List Nat) :
    Core.segOwner { c with segs := c.segs ++ [(j, ctx)], sp := sp, spPoison := poison } i =
      (c.segOwner i).or (if j = i then some ctx else none) := by
  simp only [Core.segOwner, List.find?_append, List.find?_singleton]
  cases c.segs.find? (fun x => x.1 == i) <;> by_cases hj : j = i <;> simp [hj]

/-- A claimed segment keeps its owner, or has the one that claims it (R247). -/
theorem Core.segOwner_claim1 (c : Core) (ctx j i : Nat) :
    (c.claim1 ctx j).segOwner i = (c.segOwner i).or (if j = i then some ctx else none) := by
  unfold Core.claim1
  split
  · next w owned =>
    by_cases hj : j = i
    · subst hj; simp [owned]
    · simp [hj]
  · exact Core.segOwner_append c j ctx i _ _

theorem Core.claim1_wf {c : Core} (wf : Sparse.wf (0 : Byte) c.sp = true) (ctx j : Nat) :
    Sparse.wf (0 : Byte) (c.claim1 ctx j).sp = true := by
  unfold Core.claim1
  split
  · exact wf
  · exact Sparse.filter_wf _ wf

/-- Every byte of a segment that had no owner reads 0 once it is claimed (R247). -/
theorem Core.get_claim1 {c : Core} (wf : Sparse.wf (0 : Byte) c.sp = true) (ctx j b : Nat) : Sparse.get 0 (c.claim1 ctx j).sp b =
    if b / segBytes = j ∧ c.segOwner (b / segBytes) = none then 0 else Sparse.get 0 c.sp b := by
  unfold Core.claim1
  split
  · next w owned =>
    rw [if_neg]
    rintro ⟨rfl, free⟩
    simp [owned] at free
  · next free =>
    refine (Memory.get_filter (m := c.sp) wf (fun a => a / segBytes != j) b).trans ?_
    by_cases hj : b / segBytes = j
    · simp [hj, free]
    · simp [hj, Memory.get, Memory.unlisted]

/-- The core after claims of some segments. -/
def Core.claimAll (c : Core) (ctx : Nat) (js : List Nat) : Core := js.foldl (fun c j => c.claim1 ctx j) c

theorem Core.claim_eq_claimAll (c : Core) (ctx o n : Nat) : c.claim ctx o n = c.claimAll ctx (segsOf o n) := rfl

theorem Core.claimAll_wf {c : Core} (wf : Sparse.wf (0 : Byte) c.sp = true) (ctx : Nat) (js : List Nat) :
    Sparse.wf (0 : Byte) (c.claimAll ctx js).sp = true :=
  List.foldlRecOn (motive := fun (c : Core) => Sparse.wf (0 : Byte) c.sp = true) js _ wf fun _ h j _ => Core.claim1_wf h ctx j

theorem Core.claimAll_key (c : Core) (ctx : Nat) (js : List Nat) : (c.claimAll ctx js).key = c.key :=
  List.foldlRecOn (motive := fun (d : Core) => d.key = c.key) js _ rfl fun d h j _ => by
    unfold Core.claim1
    split <;> exact h

theorem Core.claim_wf {c : Core} (wf : Sparse.wf (0 : Byte) c.sp = true) (ctx o n : Nat) :
    Sparse.wf (0 : Byte) (c.claim ctx o n).sp = true := Core.claimAll_wf wf ctx _

theorem Core.claim_key (c : Core) (ctx o n : Nat) : (c.claim ctx o n).key = c.key := Core.claimAll_key c ctx _

theorem Core.segOwner_claimAll (c : Core) (ctx : Nat) (js : List Nat) (i : Nat) :
    (c.claimAll ctx js).segOwner i = (c.segOwner i).or (if i ∈ js then some ctx else none) := by
  induction js generalizing c with
  | nil => simp [Core.claimAll]
  | cons j js ih =>
    refine (ih _).trans ?_
    rw [Core.segOwner_claim1]
    by_cases hj : j = i
    · subst hj; cases c.segOwner j <;> simp
    · simp [hj, Ne.symm hj]

theorem Core.get_claimAll {c : Core} (wf : Sparse.wf (0 : Byte) c.sp = true) (ctx : Nat) (js : List Nat) (b : Nat) :
    Sparse.get 0 (c.claimAll ctx js).sp b =
      if b / segBytes ∈ js ∧ c.segOwner (b / segBytes) = none then 0 else Sparse.get 0 c.sp b := by
  induction js generalizing c with
  | nil => simp [Core.claimAll]
  | cons j js ih =>
    refine (ih (Core.claim1_wf wf ctx j)).trans ?_
    rw [Core.get_claim1 wf, Core.segOwner_claim1]
    by_cases hj : b / segBytes = j
    · subst hj; cases c.segOwner (b / segBytes) <;> simp
    · simp [hj, Ne.symm hj]

/- ### One lane -/

theorem typeBytes_pos (it : IT) : 0 < it.bits / 8 := by cases it <;> decide

/-- An access that passes its checks meets no segment of another context (R247). -/
theorem Core.segOwner_of_spCheck {c : Core} {ctx o z : Nat} {reads : Bool} (sound : c.spCheck ctx o z reads = none) {j w : Nat}
    (hj : j ∈ segsOf o z) (owned : c.segOwner j = some w) : w = ctx := by
  unfold Core.spCheck at sound
  split at sound
  · cases sound
  split at sound
  · cases sound
  split at sound
  · cases sound
  next allowed =>
    by_contra other
    exact allowed (List.any_eq_true.2 ⟨j, hj, by simpa [owned] using other⟩)

theorem first_mem_segsOf {o n : Nat} (hn : 0 < n) : o / segBytes ∈ segsOf o n := by
  rw [segsOf, if_neg (by omega)]
  exact List.mem_map.2 ⟨0, List.mem_range.2 (by omega), by simp⟩

/-- What a claim that passes the checks leaves of the owners: none is taken from another context, and the first segment is the
context's (R247). -/
theorem Core.claim_owners {c : Core} {ctx o z : Nat} {reads : Bool} (hz : 0 < z) (sound : c.spCheck ctx o z reads = none) :
    (∀ j n, c.segOwner j = some n → (c.claim ctx o z).segOwner j = some n) ∧
      (c.claim ctx o z).segOwner (o / segBytes) = some ctx := by
  simp only [Core.claim_eq_claimAll, Core.segOwner_claimAll]
  refine ⟨fun j n owned => by simp [owned], ?_⟩
  cases owned : c.segOwner (o / segBytes) with
  | none => simp [first_mem_segsOf hz]
  | some w => simp [Core.segOwner_of_spCheck sound (first_mem_segsOf hz) owned]

/-- The bytes that a claim leaves (R247). -/
theorem Core.get_claim {c : Core} (wf : Sparse.wf (0 : Byte) c.sp = true) (ctx o n b : Nat) : Sparse.get 0 (c.claim ctx o n).sp b =
    if ((segsOf o n).contains (b / segBytes) && (c.segOwner (b / segBytes)).isNone) = true then 0 else Sparse.get 0 c.sp b := by
  simp only [Core.claim_eq_claimAll, Core.get_claimAll wf, Bool.and_eq_true, List.contains_iff_mem, Option.isNone_iff_eq_none]

theorem Core.spWrite_key (c : Core) (o : Nat) (bs : List Byte) : (c.spWrite o bs).key = c.key := rfl

theorem State.core_setCore_of_key {c : Core} {k : CKey} (hk : c.key = k) (s : State) : (s.setCore c).core k = c := by
  subst hk
  exact State.core_setCore_same s c

section lane
variable {z : Nat} {it : IT} {o : Nat} {who : Mask} {g : Group} {s : State}

theorem spLane_store {x : Nat} (sound : (s.core g.core).spCheck g.ctx o z false = none) :
    (spLane z it o (some x) who g s).1.core g.core = ((s.core g.core).claim g.ctx o z).spWrite o (leBytes z x) := by
  simp only [spLane, Option.isNone_some, Bool.false_eq_true, if_false, sound]
  exact State.core_setCore_of_key 
    ((Core.spWrite_key _ _ _).trans ((Core.claim_key _ _ _ _).trans (State.core_key s g.core))) _

/-- Where no earlier content of its words is left, a load finds the scratchpad as it stands (R249). -/
theorem State.spView_of_no_late (none_late : ∀ w, s.lateOf g who w = []) : s.spView g who o z = s.core g.core := by
  unfold State.spView
  split
  · rfl
  · refine List.foldlRecOn (motive := fun c => c = s.core g.core) _ _ rfl fun c hc w _ => ?_
    have found : s.lateSkip g who w = 0 := by rw [State.lateSkip, none_late]; exact Nat.mod_one _
    simpa only [found] using hc

theorem State.core_spNote (k : CKey) : (s.spNote g who o z).core k = s.core k := by
  unfold State.spNote
  split <;> rfl

theorem spLane_load (sound : (s.core g.core).spCheck g.ctx o z true = none) (none_late : ∀ w, s.lateOf g who w = []) :
    spLane z it o none who g s = ((s.spNote g who o z).setCore ((s.core g.core).claim g.ctx o z),
      .val (itExtend it (leNat (((s.core g.core).claim g.ctx o z).spRead o z)))) := by
  simp only [spLane, Option.isNone_none, if_true, State.spView_of_no_late none_late, sound]

theorem core_spLane_load (sound : (s.core g.core).spCheck g.ctx o z true = none) (none_late : ∀ w, s.lateOf g who w = []) :
    (spLane z it o none who g s).1.core g.core = (s.core g.core).claim g.ctx o z := by
  rw [spLane_load sound none_late]
  exact State.core_setCore_of_key ((Core.claim_key _ _ _ _).trans (State.core_key s g.core)) _

end lane

/-- Settles O21: the banks by the bytes of one word, a lane by the segments that it claims and the bytes that it writes. -/
theorem scratchpadLaneReadsAndWrites : Obligations.ScratchpadLaneReadsAndWrites := by
  unfold Obligations.ScratchpadLaneReadsAndWrites
  refine ⟨?banks, ?store, ?load⟩
  case banks =>
    intro c o x aligned wf t
    exact ⟨fun b row hb => Core.bankWord_spWrite wf aligned x hb row, fun g row hg => Core.parityWord_spWrite wf aligned x hg row⟩
  case store =>
    intro it o x who g s z co sound t
    have stored : t = _ := spLane_store sound
    rw [stored]
    refine ⟨fun b wf => ?_, Core.claim_owners (typeBytes_pos it) sound⟩
    rw [Core.get_spWrite (Core.claim_wf wf _ _ _), leBytes_length, Core.get_claim wf]
  case load =>
    intro it o who g s z co sound none_late wf t
    have claimed : t = _ := core_spLane_load sound none_late
    rw [claimed]
    refine ⟨?_, Core.get_claim wf _ _ _, Core.claim_owners (typeBytes_pos it) sound⟩
    rw [spLane_load sound none_late, Core.spRead_eq_bytes, Memory.bytes_eq_map]
    rfl

end Sys2Proof.Machine
end

section
/-! SUPPORT. The fields of a frame record, references to a frame, and what the last one that is given up leaves of its bytes (R206,
R270, R271). -/

namespace Sys2Proof.Machine

/- The proofs of this section are elaborated one after another, which keeps the compile of the whole text within its memory. -/
set_option Elab.async false

/- ### Frame records -/

section fields
variable {refs count owner : Nat} (pinned : Bool) (hr : refs < 4096)
include hr

theorem frameRefs_frameRec : frameRefs (frameRec refs pinned count owner) = refs := by
  cases pinned <;> simp [frameRefs, frameRec, fld] <;> omega

theorem framePinned_frameRec : framePinned (frameRec refs pinned count owner) = pinned := by
  cases pinned <;> simp [framePinned, frameRec, bitOf] <;> omega

theorem frameCount_frameRec (hc : count < 2 ^ 16) : frameCount (frameRec refs pinned count owner) = count := by
  cases pinned <;> simp [frameCount, frameRec, fld] <;> omega

end fields

theorem frameRefs_lt (r : BitVec 64) : frameRefs r < 4096 := Nat.mod_lt _ (by decide)
theorem frameCount_lt (r : BitVec 64) : frameCount r < 2 ^ 16 := Nat.mod_lt _ (by decide)
theorem frameOwner_lt (r : BitVec 64) : frameOwner r < 2 ^ 16 := Nat.mod_lt _ (by decide)

theorem State.frame_setFrame_same {s : State} (wf : Sparse.wf (0 : BitVec 64) s.frames = true) (k : Nat) (r : BitVec 64) :
    (s.setFrame k r).frame k = r := Sparse.get_set_same (lo := 0) wf

theorem State.frame_setFrame_other {s : State} (wf : Sparse.wf (0 : BitVec 64) s.frames = true) {j k : Nat} (r : BitVec 64)
    (other : j ≠ k) : (s.setFrame k r).frame j = s.frame j := Sparse.get_set_other (lo := 0) wf other

/- ### References -/

@[simp] theorem State.post_audit (s : State) (kind die ctx : Nat) (p0 : Word) (p1 : BitVec 64) :
    (s.post kind die ctx p0 p1).audit = s.audit := by
  simp only [State.post, State.ringEvent, State.setOverflow, apply_ite State.audit, ite_self]

/-- Pinning a frame raises the audit interrupt (R271). -/
theorem State.pinFrame_audit (s : State) (k refs : Nat) : (s.pinFrame k refs).audit = s.audit + 1 := by
  simp only [State.pinFrame, State.post_audit]

section references
variable {s : State} {k : Nat} (wf : Sparse.wf (0 : BitVec 64) s.frames = true)
include wf

theorem State.frame_pinFrame (refs : Nat) :
    (s.pinFrame k refs).frame k = frameRec refs true (frameCount (s.frame k)) (frameOwner (s.frame k)) := by
  simp only [State.pinFrame, State.frame, State.post_frames]
  exact State.frame_setFrame_same wf k _

/-- A frame with a count that is pinned has that count, and is pinned (R271). -/
theorem State.pinFrame_pins {refs : Nat} (hr : refs < 4096) :
    frameRefs ((s.pinFrame k refs).frame k) = refs ∧ framePinned ((s.pinFrame k refs).frame k) = true ∧
      (s.pinFrame k refs).audit = s.audit + 1 := by
  rw [State.frame_pinFrame wf, frameRefs_frameRec _ hr,
    framePinned_frameRec _ hr, State.pinFrame_audit]
  exact ⟨rfl, rfl, rfl⟩

/-- A reference that does not bring the count of an unpinned frame to 4095 is counted (R271). -/
theorem State.addRef_counts (below : frameRefs (s.frame k) < 4094 ∨ (frameRefs (s.frame k) = 4094 ∧ framePinned (s.frame k) = true)) :
    frameRefs ((s.addRef k).frame k) = frameRefs (s.frame k) + 1 ∧ framePinned ((s.addRef k).frame k) = framePinned (s.frame k) ∧
      (s.addRef k).mem = s.mem ∧ frameOwner ((s.addRef k).frame k) = frameOwner (s.frame k) := by
  have counted : s.addRef k = s.setFrame k (frameRec (frameRefs (s.frame k) + 1) (framePinned (s.frame k)) (frameCount (s.frame k))
      (frameOwner (s.frame k))) := by
    have unsaturated : ¬ frameRefs (s.frame k) = 4095 := by omega
    have stays : ¬ (decide (frameRefs (s.frame k) = 4094) && !framePinned (s.frame k)) = true := by
      rcases below with low | ⟨-, pinned⟩
      · simp [Nat.ne_of_lt low]
      · simp [pinned]
    exact (if_neg unsaturated).trans (if_neg stays)
  have hr : frameRefs (s.frame k) + 1 < 4096 := by omega
  rw [counted, State.frame_setFrame_same wf, frameRefs_frameRec _ hr,
    framePinned_frameRec _ hr, frameOwner_frameRec _ hr (frameCount_lt _) (frameOwner_lt _)]
  exact ⟨rfl, rfl, rfl, rfl⟩

/-- A reference given up of an unpinned frame with more than one is counted (R271). -/
theorem State.dropRef_counts (unpinned : framePinned (s.frame k) = false) (several : 2 ≤ frameRefs (s.frame k)) :
    frameRefs ((s.dropRef k).frame k) = frameRefs (s.frame k) - 1 ∧ framePinned ((s.dropRef k).frame k) = false ∧
      (s.dropRef k).mem = s.mem := by
  have counted : s.dropRef k = s.setFrame k (frameRec (frameRefs (s.frame k) - 1) false (frameCount (s.frame k))
      (frameOwner (s.frame k))) := by
    simp only [State.dropRef, unpinned, show ¬ frameRefs (s.frame k) = 0 by omega, show ¬ frameRefs (s.frame k) = 1 by omega,
      Bool.false_eq_true, if_false]
  have hr : frameRefs (s.frame k) - 1 < 4096 := by have := frameRefs_lt (s.frame k); omega
  rw [counted, State.frame_setFrame_same wf, frameRefs_frameRec _ hr,
    framePinned_frameRec _ hr]
  exact ⟨rfl, rfl, rfl⟩

end references

theorem State.addRef_pins {s : State} {k : Nat} (full : frameRefs (s.frame k) = 4094) (unpinned : framePinned (s.frame k) = false) :
    s.addRef k = s.pinFrame k 4095 := by
  simp [State.addRef, full, unpinned]

theorem State.dropRef_pins {s : State} {k : Nat} (unpinned : framePinned (s.frame k) = false) (none_left : frameRefs (s.frame k) = 0) :
    s.dropRef k = s.pinFrame k 0 := by
  simp [State.dropRef, unpinned, none_left]

/- ### The bytes of a frame that is free -/

/-- The byte of device memory of either tier at an address, where no table lies. -/
def State.plainByte (s : State) (a : Nat) : Byte :=
  if tierOf a ≠ 0 then Memory.get s.hostMem (cxlAddr a) else Memory.get s.mem a

theorem State.devBytes_one {s : State} {a : Nat} (plain : s.meetsTable a 1 = false) : s.devBytes a 1 = [s.plainByte a] := by
  simp only [State.devBytes, State.plainByte, plain, Bool.false_eq_true, if_false]
  split <;> rfl

/-- No agent outside the part has written bytes of the frame for its next owner. -/
def State.NoneRenewed (s : State) (k : Nat) : Prop := ∀ x ∈ s.renewed, x.1 / 65536 ≠ k

theorem State.zeroFrame_renewed_subset (s : State) (k : Nat) : (s.zeroFrame k).renewed ⊆ s.renewed := by
  unfold State.zeroFrame
  split
  · exact List.filter_subset_self _
  · exact List.Subset.refl _

theorem State.zeroFrame_bufBase (s : State) (k : Nat) : (s.zeroFrame k).bufBase = s.bufBase := by
  unfold State.zeroFrame
  split <;> rfl

/-- In a frame of the CXL tier every byte of host memory that holds it reads 0. -/
theorem State.zeroFrame_get_hostMem {s : State} (wf : Memory.wf s.hostMem = true) (k b : Nat) : Memory.get (s.zeroFrame k).hostMem b =
    if 2 ^ 40 ≤ k ∧ cxlAddr (k * 65536) ≤ b ∧ b < cxlAddr (k * 65536) + 65536 then 0 else Memory.get s.hostMem b := by
  simp only [State.zeroFrame]
  by_cases hk : k < 2 ^ 40
  · rw [if_pos hk, if_neg (by omega)]
  · rw [if_neg hk]
    refine (Memory.get_filter wf (fun c => c < cxlAddr (k * 65536) || cxlAddr (k * 65536) + 65536 ≤ c) b).trans ?_
    by_cases inside : cxlAddr (k * 65536) ≤ b ∧ b < cxlAddr (k * 65536) + 65536
    · rw [if_neg (by simp; omega), if_pos ⟨by omega, inside⟩]
    · rw [if_pos (by simp; omega), if_neg (by omega)]

section bytes
variable {s : State} (can : s.Canonical) {k : Nat} (hk : k < 2 ^ 41) (none_renewed : s.NoneRenewed k) {a : Nat} (ha : a < 2 ^ 57)
include can hk none_renewed ha

/-- Every byte of a frame that is zeroed reads 0, and every other byte as before (R206). -/
theorem State.plainByte_zeroFrame : (s.zeroFrame k).plainByte a = if a / 65536 = k then 0 else s.plainByte a := by
  obtain ⟨mem, hostMem, -⟩ := can
  have unwritten : ¬ s.renewed.any (fun x => x.1 / 65536 == k && x.1 ≤ a && a < x.1 + x.2) = true := by
    rintro written
    obtain ⟨x, hx, at_⟩ := List.any_eq_true.1 written
    simp only [Bool.and_eq_true, beq_iff_eq] at at_
    exact none_renewed x hx at_.1.1
  unfold State.plainByte
  split
  · next cxl =>
    rw [State.zeroFrame_get_hostMem hostMem]
    have same_frame : (2 ^ 40 ≤ k ∧ cxlAddr (k * 65536) ≤ cxlAddr a ∧ cxlAddr a < cxlAddr (k * 65536) + 65536) ↔
        a / 65536 = k := by
      simp only [tierOf, cxlAddr] at cxl ⊢
      omega
    simp only [same_frame]
  · next hbm =>
    rw [State.zeroFrame_get mem]
    have same_frame : (k < 2 ^ 40 ∧ a / 65536 = k ∧
        ¬ s.renewed.any (fun x => x.1 / 65536 == k && x.1 ≤ a && a < x.1 + x.2) = true) ↔ a / 65536 = k := by
      simp only [tierOf] at hbm
      exact ⟨fun h => h.2.1, fun h => ⟨by omega, h, unwritten⟩⟩
    simp only [same_frame]

/-- A byte that reads 0 reads 0 whichever context reaches the frame (R206). -/
theorem State.plainByte_ownFrame_of_zero (zero : s.plainByte a = 0) (ctx : Nat) : (s.ownFrame ctx k).plainByte a = 0 := by
  simp only [State.ownFrame]
  split
  · exact zero
  · split
    · refine (State.plainByte_zeroFrame can hk none_renewed ha).trans ?_
      split
      · rfl
      · exact zero
    · exact zero

end bytes

theorem State.ownFrame_bufBase (s : State) (ctx k : Nat) : (s.ownFrame ctx k).bufBase = s.bufBase := by
  simp only [State.ownFrame]
  split
  · rfl
  · split
    · exact State.zeroFrame_bufBase s k
    · rfl

/-- Tables of the part lie in the same place where the buffer table does. -/
theorem State.meetsTable_of_bufBase {s t : State} (same : t.bufBase = s.bufBase) (a n : Nat) : t.meetsTable a n = s.meetsTable a n := by
  simp only [State.meetsTable, same]

/-- A frame is free: nothing is kept for its next owner, and its bytes are zeroed (R271). -/
def State.freeFrame (s : State) (k : Nat) : State :=
  ({ s with renewed := s.renewed.filter (fun x => x.1 / 65536 != k) }.zeroFrame k).setFrame k
    (frameRec 0 false (frameCount (s.frame k)) 0)

theorem State.dropRef_frees {s : State} {k : Nat} (unpinned : framePinned (s.frame k) = false) (last : frameRefs (s.frame k) = 1) :
    s.dropRef k = s.freeFrame k := by
  simp [State.dropRef, State.freeFrame, unpinned, last]

theorem State.frame_freeFrame {s : State} (wf : Sparse.wf (0 : BitVec 64) s.frames = true) (k : Nat) :
    (s.freeFrame k).frame k = frameRec 0 false (frameCount (s.frame k)) 0 :=
  State.frame_setFrame_same (by rw [State.zeroFrame_frames]; exact wf) k _

theorem State.freeFrame_bufBase (s : State) (k : Nat) : (s.freeFrame k).bufBase = s.bufBase := State.zeroFrame_bufBase _ k

theorem State.filtered_noneRenewed (s : State) (k : Nat) :
    State.NoneRenewed { s with renewed := s.renewed.filter (fun x => x.1 / 65536 != k) } k := fun x hx => by
  simpa using (List.mem_filter.1 hx).2

section freed
variable {s : State} (can : s.Canonical) {k : Nat} (hk : k < 2 ^ 41) {a : Nat} (ha : a < 2 ^ 57)
include can

theorem State.freeFrame_canonical : (s.freeFrame k).Canonical := State.zeroFrame_canonical (by exact can) k

include hk ha

theorem State.plainByte_freeFrame : (s.freeFrame k).plainByte a = if a / 65536 = k then 0 else s.plainByte a :=
  State.plainByte_zeroFrame (s := { s with renewed := s.renewed.filter (fun x => x.1 / 65536 != k) }) (by exact can) hk
    (s.filtered_noneRenewed k) ha

variable (plain : s.meetsTable a 1 = false)
include plain

/-- The bytes of a frame that was freed read 0 to whichever context reaches it next (R206, R271). -/
theorem State.freeFrame_reads_zero (here : a / 65536 = k) (ctx : Nat) : ((s.freeFrame k).ownFrame ctx k).devBytes a 1 = [0] := by
  have no_table : ((s.freeFrame k).ownFrame ctx k).meetsTable a 1 = false := by
    rw [State.meetsTable_of_bufBase ((State.ownFrame_bufBase _ ctx k).trans (s.freeFrame_bufBase k)), plain]
  have none_renewed : (s.freeFrame k).NoneRenewed k := fun x hx =>
    s.filtered_noneRenewed k x (State.zeroFrame_renewed_subset _ k hx)
  rw [State.devBytes_one no_table, State.plainByte_ownFrame_of_zero (s.freeFrame_canonical can) hk none_renewed ha ?_ ctx]
  rw [State.plainByte_freeFrame can hk ha, if_pos here]

/-- Freeing a frame changes no byte of another (R271). -/
theorem State.freeFrame_other_bytes (other : a / 65536 ≠ k) : (s.freeFrame k).devBytes a 1 = s.devBytes a 1 := by
  have no_table : (s.freeFrame k).meetsTable a 1 = false := by rw [State.meetsTable_of_bufBase (s.freeFrame_bufBase k), plain]
  rw [State.devBytes_one no_table, State.devBytes_one plain, State.plainByte_freeFrame can hk ha, if_neg other]

end freed

/-- Settles O48: a reference more or less is counted, pins the frame, leaves it as it is, or frees it. -/
theorem frameReferences : Obligations.FrameReferences := by
  unfold Obligations.FrameReferences
  intro s k wf can r up down
  refine ⟨State.addRef_counts wf, fun full unpinned => ?pinned, fun saturated => if_pos saturated, fun pinned => if_pos pinned,
    fun unpinned none_left => ?below, State.dropRef_counts wf, fun unpinned last => ?freed⟩
  case pinned =>
    have pins : up = _ := State.addRef_pins full unpinned
    rw [pins]
    exact State.pinFrame_pins wf (by decide)
  case below =>
    have pins : down = _ := State.dropRef_pins unpinned none_left
    rw [pins]
    exact State.pinFrame_pins wf (by decide)
  case freed =>
    have frees : down = _ := State.dropRef_frees unpinned last
    rw [frees, State.frame_freeFrame wf, frameRefs_frameRec _ (by decide),
      frameOwner_frameRec _ (by decide) (frameCount_lt _) (by decide)]
    exact ⟨rfl, rfl, fun hk a ha plain => ⟨State.freeFrame_reads_zero can hk ha plain, State.freeFrame_other_bytes can hk ha plain⟩⟩

end Sys2Proof.Machine
end

section
/-! SUPPORT. Accesses from outside, posts to mailboxes, counts and control registers as they are written, the overflow queues, span
links, throttling and the loss of power (R272, R344, R378, R379, R384, R385, R391). -/

namespace Sys2Proof.Machine

/- The proofs of this section are elaborated one after another, which keeps the compile of the whole text within its memory. -/
set_option Elab.async false

theorem exec_peerModuleRequest (n : Nat) (x : ExtAccess) (s : State) :
    exec (.peerModuleRequest n x) s = execPeerModuleRequest n x s := rfl
theorem exec_spanLinkDown (n : Nat) (s : State) : exec (.spanLinkDown n) s = execSpanLinkDown n s := rfl
theorem exec_spanLinkUp (n : Nat) (s : State) : exec (.spanLinkUp n) s = execSpanLinkUp n s := rfl
theorem exec_spanRequestTimeout (k : GKey) (s : State) : exec (.spanRequestTimeout k) s = execSpanRequestTimeout k s := rfl
theorem exec_acccntWrite (tier : Bool) (w : Word) (val : BitVec 16) (s : State) :
    exec (.acccntWrite tier w val) s = execAcccntWrite tier w val s := rfl
theorem exec_eventOverflowDelivery (n : Nat) (s : State) : exec (.eventOverflowDelivery n) s = execEventOverflowDelivery n s := rfl
theorem exec_hostPost (n : Nat) (bytes : List Byte) (s : State) : exec (.hostPost n bytes) s = execHostPost n bytes s := rfl
theorem exec_controlRegisterWrite (off : Nat) (v : BitVec 64) (s : State) :
    exec (.controlRegisterWrite off v) s = execControlRegisterWrite off v s := rfl

/- ### Span links -/

section links
variable {s : State} {n : Nat} (hn : n < 12)
include hn

/-- A link that is up carries requests, may go down, and does not come up (R385). -/
theorem link_up (up : bitOf s.regs.spanstat.toNat n = true) (x : ExtAccess) :
    exec (.peerModuleRequest n x) s = .next (s.extAccess x) ∧
    exec (.spanLinkDown n) s = .next ({ s with
      regs := { s.regs with spanstat := s.regs.spanstat &&& ~~~BitVec.ofNat 12 (2 ^ n) } }.post 10 0 0 (BitVec.ofNat 32 n) 0) ∧
    exec (.spanLinkUp n) s = .refused .eventNotEnabled := by
  simp only [exec_peerModuleRequest, execPeerModuleRequest, exec_spanLinkDown, execSpanLinkDown, exec_spanLinkUp, execSpanLinkUp, up,
    hn, decide_true, Bool.and_self, Bool.not_true, Bool.false_and, Bool.false_eq_true, if_true, if_false, and_self]

/-- A link that is down carries none and does not go down; as it comes up, the requests that it holds go on (R385). -/
theorem link_down (down : bitOf s.regs.spanstat.toNat n = false) (x : ExtAccess) :
    exec (.peerModuleRequest n x) s = .refused .eventNotEnabled ∧ exec (.spanLinkDown n) s = .refused .eventNotEnabled ∧
    exec (.spanLinkUp n) s = .next (({ s with
      regs := { s.regs with spanstat := s.regs.spanstat ||| BitVec.ofNat 12 (2 ^ n) } } : State).modGroups
        (fun g => g.linkUp n s.clk)) := by
  simp only [exec_peerModuleRequest, execPeerModuleRequest, exec_spanLinkDown, execSpanLinkDown, exec_spanLinkUp, execSpanLinkUp, down,
    hn, decide_true, Bool.and_true, Bool.not_false, Bool.false_eq_true, if_true, if_false, and_self]

end links

/-- The requests of the group whose 10 ms are over are to fault when they are tried again (R385). -/
def Group.expireHolds (s : State) (g : Group) : Group :=
  { g with spanHold := g.spanHold.map (fun h => if s.holdOver h then { h with expired := true } else h) }

theorem spanRequestTimeout_expires {s : State} {k : GKey} {g : Group} {h : SpanHold} (hg : s.group? k = some g) (held : h ∈ g.spanHold)
    (expires : s.holdOver h = true) : exec (.spanRequestTimeout k) s = .next (s.modGroup k (Group.expireHolds s)) := by
  have some_over : g.spanHold.any s.holdOver = true := List.any_eq_true.2 ⟨h, held, expires⟩
  simp only [exec_spanRequestTimeout, execSpanRequestTimeout, hg, some_over, if_true]
  rfl

/- ### Events that are posted -/

@[simp] theorem State.post_hot (s : State) (kind die ctx : Nat) (p0 : Word) (p1 : BitVec 64) :
    (s.post kind die ctx p0 p1).hot = s.hot := by
  simp only [State.post, State.ringEvent, State.setOverflow, apply_ite State.hot, ite_self]

/-- What a posted event leaves: the memory, the frame records, and the control registers but EVQ_TAIL and LOSTEV (R344, R379). -/
structure State.PostedFrom (s t : State) : Prop where
  mem : t.mem = s.mem
  frames : t.frames = s.frames
  regs : t.regs = { s.regs with evqTail := t.regs.evqTail, lostev := t.regs.lostev }

theorem State.PostedFrom.refl (s : State) : s.PostedFrom s := ⟨rfl, rfl, rfl⟩

theorem State.PostedFrom.trans {s t u : State} (h : s.PostedFrom t) (h' : t.PostedFrom u) : s.PostedFrom u where
  mem := h'.mem.trans h.mem
  frames := h'.frames.trans h.frames
  regs := by rw [h'.regs, h.regs]

theorem State.postedFrom_post (s : State) (kind die ctx : Nat) (p0 : Word) (p1 : BitVec 64) :
    s.PostedFrom (s.post kind die ctx p0 p1) where
  mem := State.post_mem ..
  frames := State.post_frames ..
  regs := by
    simp only [State.post]
    split
    · rfl
    · split <;> rfl

/-- The threshold of a frame's tier (R272). -/
def State.hotThreshold (s : State) (k : Nat) : Nat := (if k / 2 ^ 40 = 0 then s.regs.hotthr0 else s.regs.hotthr1).toNat

/-- The event of a hot frame is posted where the count has reached the threshold, and the frame has not had it (R272). -/
theorem State.checkHot_eq (s : State) (ctx die k : Nat) : s.checkHot ctx die k =
    if s.hotThreshold k ≠ 0 && s.hotThreshold k ≤ frameCount (s.frame k) && !s.hot.contains k then
      { s with hot := s.hot ++ [k] }.post 5 (die % 8) ctx (BitVec.ofNat 32 (k / 2 ^ 40)) (BitVec.ofNat 64 (k % 2 ^ 40))
    else s := rfl

theorem State.postedFrom_checkHot (s : State) (ctx die k : Nat) : s.PostedFrom (s.checkHot ctx die k) := by
  rw [State.checkHot_eq]
  split
  · obtain ⟨mem, frames, regs⟩ := State.postedFrom_post { s with hot := s.hot ++ [k] } 5 (die % 8) ctx (BitVec.ofNat 32 (k / 2 ^ 40))
      (BitVec.ofNat 64 (k % 2 ^ 40))
    exact ⟨mem, frames, regs⟩
  · exact .refl s

/-- A threshold that is written posts events alone (R272). -/
theorem State.postedFrom_checkTier (s : State) (tier : Nat) : s.PostedFrom (s.checkTier tier) :=
  List.foldlRecOn (motive := s.PostedFrom) _ _ (.refl s) fun t ht _ _ => ht.trans (t.postedFrom_checkHot _ _ _)

/- ### ACCCNT -/

/-- A frame whose count is checked has had its event where it had it, or where the count has reached the threshold (R272). -/
theorem State.mem_hot_checkHot (s : State) (ctx die k : Nat) :
    k ∈ (s.checkHot ctx die k).hot ↔ k ∈ s.hot ∨ (s.hotThreshold k ≠ 0 ∧ s.hotThreshold k ≤ frameCount (s.frame k)) := by
  rw [State.checkHot_eq]
  split
  · next reached =>
    simp only [Bool.and_eq_true, decide_eq_true_eq] at reached
    simp only [State.post_hot, List.mem_append, List.mem_singleton, or_true, true_iff]
    exact .inr reached.1
  · next quiet =>
    refine ⟨.inl, fun h => h.elim id fun reached => ?_⟩
    by_contra absent
    exact quiet (by simpa [absent] using reached)

section count
variable {s : State} {k n : Nat} (wf : Sparse.wf (0 : BitVec 64) s.frames = true)
include wf

theorem State.frame_setCount_same : (s.setCount k n).frame k =
    frameRec (frameRefs (s.frame k)) (framePinned (s.frame k)) n (frameOwner (s.frame k)) := by
  simp only [State.setCount, State.frame, State.checkHot_frames]
  exact Sparse.get_set_same (lo := 0) wf

theorem State.frame_setCount_other {j : Nat} (other : j ≠ k) : (s.setCount k n).frame j = s.frame j := by
  simp only [State.setCount, State.frame, State.checkHot_frames]
  exact Sparse.get_set_other (lo := 0) wf other

/-- A write of ACCCNT arms the frame's event, which is then posted where the count has reached the threshold (R272). -/
theorem State.mem_hot_setCount (hn : n < 2 ^ 16) :
    k ∈ (s.setCount k n).hot ↔ s.hotThreshold k ≠ 0 ∧ s.hotThreshold k ≤ n := by
  have written : frameCount (frameRec (frameRefs (s.frame k)) (framePinned (s.frame k)) n (frameOwner (s.frame k))) = n :=
    frameCount_frameRec _ (frameRefs_lt _) hn
  refine (State.mem_hot_checkHot _ _ _ k).trans ?_
  rw [State.frame_setFrame_same (by exact wf), written]
  simp only [State.setFrame_hot, List.mem_filter, bne_self_eq_false, Bool.false_eq_true, and_false, false_or]
  rfl

end count

/-- The threshold of the frame that a write of ACCCNT names. -/
theorem State.hotThreshold_key (s : State) (tier : Bool) (w : Word) :
    s.hotThreshold (b2n tier * 2 ^ 40 + w.toNat) = (if tier then s.regs.hotthr1 else s.regs.hotthr0).toNat := by
  have hw := w.isLt
  cases tier
  · rw [State.hotThreshold, if_pos (by simp [b2n]; omega)]; rfl
  · rw [State.hotThreshold, if_neg (by simp [b2n])]; rfl

/- ### The overflow queues and posts to mailboxes -/

theorem eventOverflowDelivery_delivers {s : State} {n : Nat} {e : Event} {rest : List Event} (queue : s.overflowOf n = e :: rest)
    (room : s.ringFull = false) : exec (.eventOverflowDelivery n) s = .next ((s.setOverflow n rest).ringEvent e) := by
  simp only [exec_eventOverflowDelivery, execEventOverflowDelivery, queue, room, Bool.false_eq_true, if_false]

/-- A post as R384 lays it out: 32 bytes at a multiple of 32, with a mailbox number of 10 bits and zeros after it. -/
def postFormed (n : Nat) (bytes : List Byte) : Prop :=
  bytes.length = 32 ∧ n % 32 = 0 ∧ bytes.drop 18 = List.replicate 14 0 ∧ postQueue bytes ≤ 1023

theorem postCheck_eq_false_iff (n : Nat) (bytes : List Byte) :
    (decide (bytes.length ≠ 32) || decide (n % 4096 % 32 ≠ 0) || (bytes.drop 18).any (fun b => b != 0) ||
      decide (1023 < postQueue bytes)) = false ↔ postFormed n bytes := by
  have modulo : n % 4096 % 32 = n % 32 := Nat.mod_mod_of_dvd _ (by decide)
  simp only [Bool.or_eq_false_iff, decide_eq_false_iff_not, not_not, not_lt, modulo, postFormed, and_assoc]
  refine and_congr_right fun length => and_congr_right fun _ => and_congr_left fun _ => ?_
  rw [List.any_eq_false, List.eq_replicate_iff]
  simp [length]

/-- A post of another form is refused with an event (R384). -/
theorem hostPost_illFormed {n : Nat} {bytes : List Byte} (bad : ¬ postFormed n bytes) (s : State) :
    exec (.hostPost n bytes) s = .next (s.post 8 0 (n / 4096) (BitVec.ofNat 32 (n % 4096)) 0) :=
  if_pos (by simpa only [← postCheck_eq_false_iff, Bool.not_eq_false] using bad)

section post
variable {n : Nat} {bytes : List Byte} (formed : postFormed n bytes) {s : State}
include formed

/-- A post to a mailbox of a context that is none (R384). -/
theorem hostPost_noContext (none_such : s.ctx? (n / 4096) = none) :
    exec (.hostPost n bytes) s = .next (s.post 7 0 (n / 4096) 0xFFFFFFFF 0) := by
  refine (if_neg (ne_true_of_eq_false ((postCheck_eq_false_iff n bytes).2 formed))).trans ?_
  simp only [none_such]

theorem hostPost_posts {c : Ctx} (found : s.ctx? (n / 4096) = some c) :
    exec (.hostPost n bytes) s = .next (s.postTo c (leNat ((bytes.drop 16).take 2))
      ((List.range 4).map (fun j => BitVec.ofNat 32 (leNat ((bytes.drop (4 * j)).take 4)))) (.hostPost n bytes)) := by
  refine (if_neg (ne_true_of_eq_false ((postCheck_eq_false_iff n bytes).2 formed))).trans ?_
  simp only [found]
  rfl

end post

/- ### Control registers -/

section registers
variable (s : State) (v : BitVec 64)

/-- A write of a die's LOSTEV clears it (R344, R379). -/
theorem controlRegisterWrite_lostev {d : Nat} (hd : d < 8) : exec (.controlRegisterWrite (0x40 + 4 * d) v) s = .next (s.clearLost d) := by
  interval_cases d <;> rfl

theorem nth_clearLost (d : Nat) : nth 0 (s.clearLost d).regs.lostev d = 0 := by
  by_cases hd : d < s.regs.lostev.length
  · exact nth_modAt_same 0 _ d _ hd
  · exact nth_beyond 0 _ d (by rw [State.clearLost, length_modAt]; omega)

/-- The thresholds of both tiers: a write posts the events of the frames whose counts have reached it, and changes nothing else (R272,
R379). -/
theorem controlRegisterWrite_hotthr0 : ∃ t, exec (.controlRegisterWrite 0x68 v) s = .next t ∧
    t.regs = { s.regs with hotthr0 := v.setWidth 16, evqTail := t.regs.evqTail, lostev := t.regs.lostev } ∧
    t.mem = s.mem ∧ t.frames = s.frames := by
  obtain ⟨mem, frames, regs⟩ := State.postedFrom_checkTier { s with regs := { s.regs with hotthr0 := BitVec.ofNat 16 v.toNat } } 0
  exact ⟨_, rfl, by rw [BitVec.ofNat_toNat] at regs; exact regs, mem, frames⟩

theorem controlRegisterWrite_hotthr1 : ∃ t, exec (.controlRegisterWrite 0x6C v) s = .next t ∧
    t.regs = { s.regs with hotthr1 := v.setWidth 16, evqTail := t.regs.evqTail, lostev := t.regs.lostev } ∧
    t.mem = s.mem ∧ t.frames = s.frames := by
  obtain ⟨mem, frames, regs⟩ := State.postedFrom_checkTier { s with regs := { s.regs with hotthr1 := BitVec.ofNat 16 v.toNat } } 1
  exact ⟨_, rfl, by rw [BitVec.ofNat_toNat] at regs; exact regs, mem, frames⟩

/-- The 32-bit registers take the low word (R379). -/
theorem controlRegisterWrite_words :
    exec (.controlRegisterWrite 0x10 v) s = .next { s with regs := { s.regs with cmdqTail := v.setWidth 32 } } ∧
    exec (.controlRegisterWrite 0x28 v) s = .next { s with regs := { s.regs with evqHead := v.setWidth 32 } } := by
  rw [← BitVec.ofNat_toNat]
  exact ⟨rfl, rfl⟩

/-- Registers that are read-only keep their values (R379). -/
theorem controlRegisterWrite_readOnly {off : Nat} (readOnly : off = 0x00 ∨ off = 0x14 ∨ off = 0x2C ∨ off = 0x60 ∨ off = 0x64) :
    exec (.controlRegisterWrite off v) s = .next s := by
  rcases readOnly with rfl | rfl | rfl | rfl | rfl <;> rfl

end registers

/-- Settles O49: each event by the state in which it happens, and the writes by what they name. -/
theorem hostAndLinkEvents : Obligations.HostAndLinkEvents := by
  unfold Obligations.HostAndLinkEvents
  intro s n w x
  refine ⟨rfl, fun hn up => link_up hn up x, fun hn down => link_down hn down x, fun k g h hg held fresh waits long down => ?timeout,
    fun tier val => ?count, fun e rest => eventOverflowDelivery_delivers, fun bytes bad => hostPost_illFormed ?_ s,
    fun bytes length aligned zeros queue => ?posts, rfl, rfl, fun v => ?registers, rfl, rfl, rfl, rfl, rfl⟩
  case timeout =>
    have expires : s.holdOver h = true := by
      simp only [State.holdOver, fresh, waits, down, tenMs, long, decide_true, Bool.not_false, Bool.and_self]
    refine ⟨_, _, spanRequestTimeout_expires hg held expires,
      State.group?_modGroup_same (f := Group.expireHolds s) (fun _ => rfl) hg, ?_, rfl, rfl, rfl⟩
    exact List.mem_map.2 ⟨h, held, if_pos expires⟩
  case count =>
    refine ⟨_, rfl, State.setCount_mem _ _ _, fun wf => ⟨?_, ?_⟩⟩
    · rw [State.mem_hot_setCount wf val.isLt, State.hotThreshold_key]
    · rw [State.frame_setCount_same wf, frameCount_frameRec _ (frameRefs_lt _) val.isLt,
        frameRefs_frameRec _ (frameRefs_lt _), frameOwner_frameRec _ (frameRefs_lt _) val.isLt (frameOwner_lt _)]
      exact ⟨rfl, rfl, rfl, fun j => State.frame_setCount_other wf⟩
  case posts =>
    have formed : postFormed n bytes := ⟨length, aligned, zeros, queue⟩
    exact ⟨hostPost_noContext formed, fun c => hostPost_posts formed⟩
  case registers =>
    exact ⟨rfl, (controlRegisterWrite_words s v).1, rfl, (controlRegisterWrite_words s v).2,
      fun d hd => ⟨controlRegisterWrite_lostev s v hd, nth_clearLost s d⟩, controlRegisterWrite_hotthr0 s v,
      controlRegisterWrite_hotthr1 s v, fun off => controlRegisterWrite_readOnly s v, rfl⟩
  · rintro ⟨length, aligned, zeros, queue⟩
    rcases bad with h | h | h | h
    exacts [h length, h aligned, h zeros, absurd h (not_lt.2 queue)]

end Sys2Proof.Machine
end

section
/-! SUPPORT. Atomics and REDOP where no check fails, and a read-modify-write as it is performed (R292, R295 to R300). -/

namespace Sys2Proof.Machine

/- The proofs of this section are elaborated one after another, which keeps the compile of the whole text within its memory. -/
set_option Elab.async false

/- ### The issue -/

/-- The sync objects that some places reached lie in, each with its die and its context: they need space in a lodge (R292). -/
def State.syncObjects (s : State) (ps : List (Group × Phys)) : List (Nat × Nat × ObjKey) :=
  ps.filterMap (fun p =>
    if (s.entry p.2.buf).kind = 2 then some (p.2.die, p.1.ctx, ObjKey.sync p.2.buf (p.2.offset / 16)) else none)

/-- Lanes whose datum is a marker where the operation checks it (R297). -/
def State.atomMarks (s : State) (c : Ctl) (op : AtomOp) (d : Opd) : List LaneFault :=
  if op.marks then (s.execs c).flatMap (fun g =>
    if s.nomark g.1.ctx then [] else s.markerFaults g.1 d.isScalarDst g.2 [(0, d)]) else []

theorem State.atomMarks_eq_nil {s : State} {c : Ctl} {op : AtomOp} {d : Opd} (unmarked : op.marks = false ∨
    ∀ g ∈ s.execs c, s.nomark g.1.ctx = true ∨ s.markerFaults g.1 d.isScalarDst g.2 [(0, d)] = []) : s.atomMarks c op d = [] := by
  rcases unmarked with unchecked | clean
  · simp [State.atomMarks, unchecked]
  · simp only [State.atomMarks, ite_eq_right_iff, List.flatMap_eq_nil_iff, ite_eq_left_iff]
    exact fun _ g hg => (clean g hg).resolve_left

/-- Atomics and REDOP whose lanes reach lines that stand still and sync objects with space, and in which no lane fails, have put each
lane's read-modify-write on its way (R298, R300). -/
theorem atomEff_of_reached {c : Ctl} {op : AtomOp} {d : Opd} {x : MemOpd} {s s1 : State}
    (still : ∀ p ∈ s.atomReaches c op.z x d.isScalarDst [], s.inTransit p.2.buf p.2.line = false) (unmarked : s.atomMarks c op d = [])
    (space : s.reserveAll (s.syncObjects (s.atomReaches c op.z x d.isScalarDst [])) = .ok s1) :
    atomEff c op d x s =
      accessEff c d.isScalarDst x.h.code (op.ret.map (fun n => (d, n))) (atomLane op d x d.isScalarDst s1) s1 := by
  have none_moves : (s.atomReaches c op.z x d.isScalarDst []).any (fun p => s.inTransit p.2.buf p.2.line) = false :=
    List.any_eq_false.2 fun p hp => ne_true_of_eq_false (still p hp)
  unfold State.atomMarks at unmarked
  unfold State.syncObjects at space
  simp only [atomEff, unmarked, none_moves, space, Bool.false_eq_true, if_false]
  rfl

/-- Settles O28: each of the ten instructions has the effect of `atomEff`, which nothing holds back and in which no lane fails. -/
theorem atomicResults : Obligations.AtomicResults := by
  unfold Obligations.AtomicResults
  intro c it ft t o d x runs
  have completes : ∀ (i : Instr) (op : AtomOp), (∀ s, exec i s = issue i c s (atomEff c op d x)) → runs i op := by
    intro i op hx
    refine completesIf_of_exec hx ?_
    rintro s ⟨still, unmarked, s1, space, sound⟩
    rw [atomEff_of_reached still (State.atomMarks_eq_nil unmarked) space, accessEff_of_no_faults sound, space]
  exact ⟨completes _ _ fun _ => rfl, completes _ _ fun _ => rfl, completes _ _ fun _ => rfl, completes _ _ fun _ => rfl,
    completes _ _ fun _ => rfl, completes _ _ fun _ => rfl, completes _ _ fun _ => rfl, completes _ _ fun _ => rfl,
    completes _ _ fun _ => rfl, completes _ _ fun _ => rfl⟩

/- ### The access as it is performed -/

/-- A write at the home, of HBM4E where no table of the part lies, stores its bytes in the memory, and touches the poison and the dirty
copies alone (R237, R298). -/
theorem State.homeWrite_plain {s : State} {a : Nat} {bs : List Byte} (ht : tierOf a = 0) (plain : s.isPlain a bs.length = true) :
    ∃ poison dirty, s.homeWrite a bs = { s with mem := Memory.store s.mem a bs, poison := poison, dirty := dirty } := by
  obtain ⟨poison, put⟩ := State.putBytes_plain ht plain
  rw [State.homeWrite, put]
  exact ⟨poison, _, rfl⟩

/-- The write of a read-modify-write at its home (R298, R300). -/
def State.rmwWrite (s : State) (g : Group) (p : Pending) (f : RmwFn) (z x y : Nat) : State :=
  (s.homeWrite p.at_.addr (leBytes z (f.new z (leNat (s.devBytes p.at_.addr z)) x y))).barCopyFor g p (p.at_.addr / 256)

/-- The old number of a read-modify-write is on its way to the registers that it names, if any (R296, R298). -/
def State.rmwReturn (s : State) (g : Group) (p : Pending) (ret : Option (Opd × Nat × Mask)) (old : Nat) : State :=
  match ret with
  | some (dst, run, lanes) => s.deliver g.key p.issue (loadWrites dst run lanes old)
  | none => s

/-- A read-modify-write of a frame that its context owns writes its new number and returns the old one (R298). -/
theorem State.performOp_rmw {s : State} {g : Group} {p : Pending} {f : RmwFn} {z x y : Nat} {ret : Option (Opd × Nat × Mask)}
    (hop : p.op = .rmw f z x y ret) (home : s.rehome p.at_ = p.at_) (held : s.holdsFrame p.ctx p.at_ = true) :
    s.performOp g p = (s.rmwWrite g p f z x y).rmwReturn g p ret (leNat (s.devBytes p.at_.addr z)) := by
  simp only [State.performOp, hop, home, held, if_true]
  rfl

/-- Settles O29: where no table lies the bytes read are those of the memory, and the write stores the new number there alone. -/
theorem readModifyWriteIsOneStep : Obligations.ReadModifyWriteIsOneStep := by
  unfold Obligations.ReadModifyWriteIsOneStep
  intro s g p f z x y ret hop home held tier plain wf old
  have read : leNat (s.devBytes p.at_.addr z) = old := congrArg leNat (State.devBytes_plain tier plain)
  obtain ⟨poison, dirty, written⟩ :=
    State.homeWrite_plain (bs := leBytes z (f.new z old x y)) tier (by rwa [leBytes_length])
  refine ⟨s.rmwWrite g p f z x y, ?performed, fun a => ?bytes, ?groups, ?host, ?peer⟩
  case performed =>
    rw [State.performOp_rmw hop home held, read]
    rfl
  case bytes =>
    rw [State.rmwWrite, State.barCopyFor_mem, read, written, Memory.get_store wf, leBytes_length]
  case groups => rw [State.rmwWrite, State.barCopyFor_groups, read, written]
  case host => rw [State.rmwWrite, State.barCopyFor_hostMem, read, written]
  case peer => rw [State.rmwWrite, State.barCopyFor_peerMem, read, written]

end Sys2Proof.Machine
end

section
/-! SUPPORT. BARR and BARW, and the mailbox instructions, where they pass their checks (R302 to R306). -/

namespace Sys2Proof.Machine

/- The proofs of this section are elaborated one after another, which keeps the compile of the whole text within its memory. -/
set_option Elab.async false

/- ### Barrier objects -/

/-- The place of the barrier object that a BARR or BARW of a group names, where it passes its checks (R302). -/
def State.barAt (s : State) (g : Group) (h : SReg) (off : Opd) : Except FaultCode Phys :=
  s.check (barReq g.ctx (s.scal g 1 0 (.s h)) (s.scal g 2 0 off).toNat)

section barriers
variable {c : Ctl} {h : SReg} {off : Opd}

/-- The effect that BARR and BARW share, where a lane executes and the object passes its checks (R302, R303). -/
theorem barEff_of_checked {s : State} {P : Group → Prop} {f : State → Group → Mask → Phys → Nat → Nat → Nat → Eff}
    {f' : Group → Member → Mask → Eff} (own : s.OnIssuer c (fun g _ x => x ≠ 0 ∧ P g))
    (hf : ∀ g, P g → ∃ p, s.barAt g h off = .ok p ∧ ∀ m x,
      f (s.barFirst g.key p) g x p (hIndex (s.scal g 1 0 (.s h))) (s.scal g 2 0 off).toNat (hView (s.scal g 1 0 (.s h))) = f' g m x) :
    barEff c h off s f = onGroup c s f' := by
  refine onGroup_congr own ?_
  rintro g m x ⟨executes, holds⟩
  obtain ⟨p, checked, acts⟩ := hf g holds
  have check : s.check (barReq g.ctx (s.scal g 1 0 (.s h)) (s.scal g 2 0 off).toNat) = .ok p := checked
  simp only [beq_eq_false_iff_ne.2 executes, check, Bool.false_eq_true, if_false]
  exact acts m x

/-- The state once a record of the group is emptied, with an acquire at package scope (R303). -/
def State.barEmptied (s : State) (g : Group) (a : Arrival) : State :=
  (s.acquire g.core.die g.ctx .package).modGroup g.key (fun g => { g with arrivals := dropArrival a g.arrivals })

theorem State.barWait_of_ended {s : State} {a : Arrival} (ended : s.barPhase a ≠ a.phase) (g : Group) :
    s.barWait g a = some (s.barEmptied g a) :=
  if_neg (by simpa using ended)

/-- The state once the record on which a BARR waits first is emptied (R303). -/
def State.barFreed (s : State) (g : Group) (buf off : Nat) : State :=
  match g.barFirst buf off with
  | none => s
  | some a => s.barEmptied g a

/-- The arrival of a BARR at an object whose line stands still and that has space in a lodge: a release at package scope, then the
arrival (R303). -/
theorem barrGo_of_room {s s1 : State} {g : Group} {x : Mask} {p : Phys} {buf o view : Nat} (still : s.inTransit p.buf p.line = false)
    (room : s.reserve p.die g.ctx (.sync buf (o / 16)) = some s1) : barrGo s g x p buf o view =
      .done (((s1.releaseLanes g.key (s1.threads g x) .package).modCtx g.ctx (fun c => { c with annexFull := false })).barArrive
        g p buf o view) := by
  simp only [barrGo, still, room, Bool.false_eq_true, if_false]

/-- A BARR of a checked object: it waits first for a record whose phase lasts (R303). -/
def barrStep (s : State) (g : Group) (x : Mask) (p : Phys) (buf o v : Nat) : Eff :=
  match g.barFirst buf o with
  | none => barrGo s g x p buf o v
  | some a =>
    match s.barWait g a with
    | none => .hold s
    | some s1 => barrGo s1 g x p buf o v

/-- A BARW of a checked object (R303). -/
def barwStep (s : State) (g : Group) (p : Phys) (buf o : Nat) : Eff :=
  match g.arrivals.find? (fun a => a.buf == buf && a.off == o) with
  | none => .done (s.touch g.ctx p.die)
  | some a =>
    let s0 := (s.touch g.ctx p.die).useObj p.die (.sync buf (o / 16))
    match s0.barWait g a with
    | none => .hold s0
    | some s1 => .done s1

section steps
variable {s : State} {g : Group} {p : Phys} {buf o : Nat}

/- In both proofs the wait on a record is an opaque function, which no comparison of effects then computes. -/

/-- BARR goes on where the phase of the record on which it waits first is over (R303). -/
theorem barrStep_goes (ended : ∀ a, g.barFirst buf o = some a → s.barPhase a ≠ a.phase) (x : Mask) (v : Nat) :
    barrStep s g x p buf o v = barrGo (s.barFreed g buf o) g x p buf o v := by
  obtain ⟨wait, hwait⟩ : ∃ wait, s.barWait g = wait := ⟨_, rfl⟩
  have waited : ∀ a, g.barFirst buf o = some a → wait a = some (s.barEmptied g a) := fun a first =>
    hwait ▸ State.barWait_of_ended (ended a first) g
  unfold barrStep State.barFreed
  rw [hwait]
  cases first : g.barFirst buf o with
  | none => rfl
  | some a => simp only [waited a first]

/-- BARW completes without a record (R303). -/
theorem barwStep_unrecorded (absent : g.arrivals.find? (fun a => a.buf == buf && a.off == o) = none) :
    barwStep s g p buf o = .done (s.touch g.ctx p.die) := by
  unfold barwStep
  rw [absent]

/-- BARW completes where the phase of its record is over (R303). -/
theorem barwStep_ended {a : Arrival} (recorded : g.arrivals.find? (fun a => a.buf == buf && a.off == o) = some a)
    (ended : ((s.touch g.ctx p.die).useObj p.die (.sync buf (o / 16))).barPhase a ≠ a.phase) : barwStep s g p buf o =
      .done (((s.touch g.ctx p.die).useObj p.die (.sync buf (o / 16))).barEmptied g a) := by
  obtain ⟨wait, hwait⟩ : ∃ wait, ((s.touch g.ctx p.die).useObj p.die (.sync buf (o / 16))).barWait g = wait := ⟨_, rfl⟩
  have waited : wait a = some _ := hwait ▸ State.barWait_of_ended ended g
  unfold barwStep
  dsimp only
  rw [hwait, recorded]
  simp only [waited]

end steps

theorem exec_barr (s : State) : exec (.barr c h off) s = issue (.barr c h off) c s (fun s => barEff c h off s barrStep) := rfl
theorem exec_barw (s : State) : exec (.barw c h off) s =
    issue (.barw c h off) c s (fun s => barEff c h off s (fun s g _ p buf o _ => barwStep s g p buf o)) := rfl

end barriers

/-- Settles O30: BARR and BARW by the effect that they share, each by the record that it waits on. -/
theorem barrierResults : Obligations.BarrierResults := by
  unfold Obligations.BarrierResults
  intro c h off at_ buf o place view past record freed
  have placed : ∀ {s g p}, s.barAt g h off = .ok p → p = place s g := fun {s g p} checked => by
    simp only [place, show s.check (barReq g.ctx (s.scal g 1 0 (.s h)) (s.scal g 2 0 off).toNat) = .ok p from checked]
  refine ⟨completesIf_of_exec exec_barr fun s own => barEff_of_checked own ?arrives,
    completesIf_of_exec exec_barw fun s own => barEff_of_checked own ?unrecorded,
    completesIf_of_exec exec_barw fun s own => barEff_of_checked own ?ended⟩
  case arrives =>
    rintro g ⟨ended, p, s1, checked, still, room⟩
    obtain rfl := placed checked
    refine ⟨_, checked, fun m x => (barrStep_goes ended x _).trans ((barrGo_of_room still room).trans ?_)⟩
    simp only [room, Option.getD_some]
    rfl
  case unrecorded =>
    rintro g ⟨none_there, p, checked⟩
    obtain rfl := placed checked
    exact ⟨_, checked, fun m x => barwStep_unrecorded none_there⟩
  case ended =>
    rintro g ⟨⟨a, there, ended⟩, p, checked⟩
    obtain rfl := placed checked
    refine ⟨_, checked, fun m x => (barwStep_ended there ended).trans ?_⟩
    simp only [there]
    rfl

/- ### Mailboxes -/

/-- The mailbox that an instruction of a group names passes its checks in the context `k` (R305). -/
def State.mbGood (s : State) (g : Group) (q : Opd) (k : Ctx) : Prop :=
  s.ctx? g.ctx = some k ∧ (s.scal g 1 0 q).toNat ≤ 1023 ∧ mbValid (s.mbEntry k (s.scal g 1 0 q).toNat) = true ∧
    s.lost.contains (mbHome (s.mbEntry k (s.scal g 1 0 q).toNat)) = false

section mailboxes
variable {c : Ctl} {q : Opd}

/-- The effect that the mailbox instructions share, where a lane executes and the mailbox passes its checks (R305). -/
theorem mbEff_of_good {s : State} {P : Group → Prop} {f : Group → Mask → Ctx → Nat → Nat → Eff} {f' : Group → Member → Mask → Eff}
    (own : s.OnIssuer c (fun g _ x => x ≠ 0 ∧ P g))
    (hf : ∀ g, P g → ∃ k, s.mbGood g q k ∧ ∀ m x,
      f g x k (s.scal g 1 0 q).toNat (s.mbEntry k (s.scal g 1 0 q).toNat) = f' g m x) : mbEff c q s f = onGroup c s f' := by
  refine onGroup_congr own ?_
  rintro g m x ⟨executes, holds⟩
  obtain ⟨k, ⟨found, small, valid, here⟩, acts⟩ := hf g holds
  simp only [beq_eq_false_iff_ne.2 executes, found, valid, here, decide_eq_false (not_lt.2 small), Bool.not_true, Bool.or_self,
    Bool.false_eq_true, if_false]
  exact acts m x

/-- A lane of some member executes. -/
theorem not_all_idle {s : State} (somewhere : ∃ x ∈ s.execs c, x.2 ≠ 0) : ¬ ((s.execs c).all (fun x => x.2 == 0)) = true := by
  obtain ⟨y, hy, executes⟩ := somewhere
  exact fun idle => executes (beq_iff_eq.1 (List.all_eq_true.1 idle y hy))

/-- An MBPUT to a mailbox that passes its checks (R306). -/
def mbputStep (a : SReg) (s : State) (g : Group) (x : Mask) (k : Ctx) (n e : Nat) : Eff :=
  let mb := k.mailbox n
  if mbDepth e ≤ mb.held then .hold (s.touch g.ctx (mbHome e))
  else match s.reserve (mbHome e) g.ctx (.mailbox g.ctx n) with
    | none => .hold (s.noteFull (mbHome e) g.ctx)
    | some s1 =>
      let msg := (List.range 4).map (fun j => s.scal g 2 j (.s a))
      .done ((((s1.releaseLanes g.key (s1.threads g x) .system).modCtx g.ctx (fun c => { c with annexFull := false })).touch g.ctx
        (mbHome e)).setMailbox g.ctx { mb with msgs := mb.msgs ++ [msg] })

/-- The place in the queue of the message that a get of a group takes: behind those of the gets that came before it (R306). -/
def Mailbox.place (mb : Mailbox) (k : GKey) : Nat := if mb.waiting.contains k then mb.waiting.idxOf k else mb.waiting.length

/-- An MBGET of a mailbox that passes its checks (R306). -/
def mbgetStep (d : SReg) (s : State) (g : Group) (k : Ctx) (n e : Nat) : Eff :=
  let mb := k.mailbox n
  let s := s.useObj (mbHome e) (.mailbox g.ctx n)
  match mb.msgs[mb.place g.key]? with
  | some msg => .done (s.mbReturn g mb (mb.place g.key) (mbHome e) (msgWrites d msg))
  | none => .hold ((s.touch g.ctx (mbHome e)).setMailbox g.ctx
      (if mb.waiting.contains g.key then mb else { mb with waiting := mb.waiting ++ [g.key] }))

/-- An MBTRY of a mailbox that passes its checks (R306). -/
def mbtryStep (d : SReg) (s : State) (g : Group) (k : Ctx) (n e : Nat) : Eff :=
  let mb := k.mailbox n
  let s := s.useObj (mbHome e) (.mailbox g.ctx n)
  match mb.msgs[mb.waiting.length]? with
  | some msg => .done (s.mbReturn g mb mb.waiting.length (mbHome e) (msgWrites d (msg ++ [1])))
  | none => .done ((s.touch g.ctx (mbHome e)).putVar g.key (msgWrites d [0, 0, 0, 0, 0]))

theorem exec_mbput (a : SReg) (s : State) : exec (.mbput c q a) s = issue (.mbput c q a) c s (fun s => mbEff c q s (mbputStep a s)) := rfl
theorem exec_mbget (d : SReg) (s : State) : exec (.mbget c d q) s = issue (.mbget c d q) c s (fun s =>
    if (s.execs c).all (fun x => x.2 == 0) then .done (s.perLaneVar c (fun _ _ => []))
    else mbEff c q s (fun g _ => mbgetStep d s g)) := rfl
theorem exec_mbtry (d : SReg) (s : State) : exec (.mbtry c d q) s = issue (.mbtry c d q) c s (fun s =>
    if (s.execs c).all (fun x => x.2 == 0) then .done (s.perLaneVar c (fun _ _ => []))
    else mbEff c q s (fun g _ => mbtryStep d s g)) := rfl

section steps
variable {s : State} {g : Group} {k : Ctx} {n e : Nat}

theorem mbputStep_appends {a : SReg} {s1 : State} (room : (k.mailbox n).held < mbDepth e)
    (space : s.reserve (mbHome e) g.ctx (.mailbox g.ctx n) = some s1) (x : Mask) : mbputStep a s g x k n e =
      .done ((((s1.releaseLanes g.key (s1.threads g x) .system).modCtx g.ctx (fun c => { c with annexFull := false })).touch g.ctx
        (mbHome e)).setMailbox g.ctx
          { k.mailbox n with msgs := (k.mailbox n).msgs ++ [(List.range 4).map (fun j => s.scal g 2 j (.s a))] }) := by
  simp only [mbputStep, not_le.2 room, space, if_false]

theorem mbgetStep_takes {d : SReg} {msg : List Word} (there : (k.mailbox n).msgs[(k.mailbox n).place g.key]? = some msg) :
    mbgetStep d s g k n e = .done ((s.useObj (mbHome e) (.mailbox g.ctx n)).mbReturn g (k.mailbox n) ((k.mailbox n).place g.key)
      (mbHome e) (msgWrites d msg)) := by
  simp only [mbgetStep, there]

theorem mbtryStep_takes {d : SReg} {msg : List Word} (there : (k.mailbox n).msgs[(k.mailbox n).waiting.length]? = some msg) :
    mbtryStep d s g k n e = .done ((s.useObj (mbHome e) (.mailbox g.ctx n)).mbReturn g (k.mailbox n) (k.mailbox n).waiting.length
      (mbHome e) (msgWrites d (msg ++ [1]))) := by
  simp only [mbtryStep, there]

theorem mbtryStep_empty {d : SReg} (empty : (k.mailbox n).msgs.length ≤ (k.mailbox n).waiting.length) : mbtryStep d s g k n e =
    .done (((s.useObj (mbHome e) (.mailbox g.ctx n)).touch g.ctx (mbHome e)).putVar g.key (msgWrites d [0, 0, 0, 0, 0])) := by
  simp only [mbtryStep, List.getElem?_eq_none empty]

end steps
end mailboxes

/-- Settles O31: each instruction by the effect that the three share, a get by the message that is its own. -/
theorem mailboxResults : Obligations.MailboxResults := by
  unfold Obligations.MailboxResults
  intro c q a d n good home box taking getAt somewhere
  have named : ∀ {s g k}, good s g k → home s g = mbHome (s.mbEntry k (n s g)) ∧ box s g = k.mailbox (n s g) := fun {s g k} sound => by
    simp only [home, box, sound.1, and_self]
  refine ⟨completesIf_of_exec (exec_mbput a) fun s own => mbEff_of_good own ?put, completesIf_of_exec (exec_mbget d) fun s own =>
    (if_neg (not_all_idle own.1)).trans (mbEff_of_good own.2 ?get), completesIf_of_exec (exec_mbtry d) fun s own =>
    (if_neg (not_all_idle own.1)).trans (mbEff_of_good own.2 ?taken), completesIf_of_exec (exec_mbtry d) fun s own =>
    (if_neg (not_all_idle own.1)).trans (mbEff_of_good own.2 ?empty)⟩
  case put =>
    rintro g ⟨k, s1, sound, room, space⟩
    obtain ⟨hhome, hbox⟩ := named sound
    rw [hhome] at space
    rw [hbox] at room
    refine ⟨k, sound, fun m x => (mbputStep_appends room space x).trans ?_⟩
    simp only [hhome, hbox, space, Option.getD_some]
  case get =>
    rintro g ⟨⟨k, sound⟩, has⟩
    obtain ⟨hhome, hbox⟩ := named sound
    rw [hbox] at has
    have there := List.getElem?_eq_getElem has
    refine ⟨k, sound, fun m x => (mbgetStep_takes there).trans ?_⟩
    simp only [hhome, hbox, there]
    rfl
  case taken =>
    rintro g ⟨⟨k, sound⟩, has⟩
    obtain ⟨hhome, hbox⟩ := named sound
    rw [hbox] at has
    have there := List.getElem?_eq_getElem has
    refine ⟨k, sound, fun m x => (mbtryStep_takes there).trans ?_⟩
    simp only [hhome, hbox, there]
    rfl
  case empty =>
    rintro g ⟨⟨k, sound⟩, none_left⟩
    obtain ⟨hhome, hbox⟩ := named sound
    rw [hbox] at none_left
    refine ⟨k, sound, fun m x => (mbtryStep_empty none_left).trans ?_⟩
    rw [hhome]

end Sys2Proof.Machine
end

section
/-! SUPPORT. VLD, VLDS, VST and RECON where no lane fails, and the arrival of siblings and the compaction of cells (R308 to R316). -/

namespace Sys2Proof.Machine

/- The proofs of this section are elaborated one after another, which keeps the compile of the whole text within its memory. -/
set_option Elab.async false

/- ### The issue -/

/-- The four instructions, where the cells that need space in a lodge have it, have the shared effect lane by lane (R292, R311). -/
theorem verEff_of_room {c : Ctl} {op : VerOp} {d : Opd} {h : SReg} {off : Opd} {load : Bool} {s s1 : State}
    (room : s.reserveAll (s.verSpace c op h off d.isScalarDst) = .ok s1) : verEff c op d h off load s =
      accessEff c d.isScalarDst (0x100 + h.toNat) (if load then some (d, 0) else none) (verLane op h off d.isScalarDst s1) s1 := by
  simp only [verEff, room]

/-- Settles O32: each of the four instructions has the effect of `verEff`, with its own act on a cell. -/
theorem versionedResults : Obligations.VersionedResults := by
  unfold Obligations.VersionedResults
  intro c w64 all rop d off e h w runs
  have completes : ∀ (i : Instr) (op : VerOp) (load : Bool), (∀ s, exec i s = issue i c s (verEff c op d h off load)) → runs i op load := by
    intro i op load hx
    refine completesIf_of_exec hx ?_
    rintro s ⟨s1, room, sound⟩
    rw [verEff_of_room room, accessEff_of_no_faults sound, room]
  exact ⟨completes _ _ _ fun _ => rfl, completes _ _ _ fun _ => rfl, completes _ _ _ fun _ => rfl, completes _ _ _ fun _ => rfl⟩

/- ### Siblings that arrive (R314) -/

theorem exec_siblingArrival (buf off src dst : Nat) (s : State) :
    exec (.siblingArrival buf off src dst) s = execSiblingArrival buf off src dst s := rfl
theorem exec_heldSiblingRelease (buf off src dst : Nat) (s : State) :
    exec (.heldSiblingRelease buf off src dst) s = execHeldSiblingRelease buf off src dst s := rfl
theorem exec_compaction (buf off : Nat) (s : State) : exec (.compaction buf off) s = execCompaction buf off s := rfl

@[simp] theorem Cell.setQueue_reps (c : Cell) (y : SibQueue) : (c.setQueue y).reps = c.reps := rfl

@[simp] theorem Cell.rep_setQueue (c : Cell) (y : SibQueue) (r : Nat) : (c.setQueue y).rep r = c.rep r := rfl

theorem Cell.rep_setRep_same {c : Cell} {r : Nat} (hr : r < c.reps.length) (x : Rep) : (c.setRep r x).rep r = x := nth_setAt_same _ _ _ _ hr

theorem Cell.rep_setRep_other {c : Cell} {q r : Nat} (hq : q ≠ r) (x : Rep) : (c.setRep r x).rep q = c.rep q := nth_setAt_other _ _ _ hq

/-- A queue that is put back with its siblings is in its place. -/
theorem Cell.mem_queues_setQueue {c : Cell} {y z : SibQueue} (hy : y ∈ c.queues) (same : z.src = y.src ∧ z.dst = y.dst)
    (left : z.sibs ≠ []) : z ∈ (c.setQueue z).queues := by
  refine List.mem_flatMap.2 ⟨y, hy, ?_⟩
  simp [same, left]

section arrival
variable {c : Cell} {y : SibQueue} {x : Sib} (rest : List Sib)

/-- The siblings of the destination that an arrival does not cover. -/
def Cell.uncovered (c : Cell) (y : SibQueue) (x : Sib) : List Sib :=
  (c.rep y.dst).sibs.filter (fun z => !covers x.vw (c.rep y.dst).era z)

/-- A sibling that the replica has seen is dropped. -/
theorem Cell.arrive_of_seen (seen : x.n ≤ nth 0 (c.rep y.dst).cv x.h) :
    c.arrive y x rest = c.setQueue { y with held := false, sibs := rest } :=
  if_pos seen

/-- A sibling that would be the ninth is held. -/
theorem Cell.arrive_of_full (new : nth 0 (c.rep y.dst).cv x.h < x.n) (full : (c.uncovered y x).length = 8) :
    c.arrive y x rest = c.setQueue { y with held := true } :=
  (if_neg (not_le.2 new)).trans (if_pos full)

/-- Another joins the vectors and takes its place in dot order. -/
theorem Cell.arrive_of_room (new : nth 0 (c.rep y.dst).cv x.h < x.n) (room : (c.uncovered y x).length ≠ 8) :
    c.arrive y x rest = (c.setRep y.dst { c.rep y.dst with
      cv := joinVec (joinVec (c.rep y.dst).cv x.vw) (setAt [0, 0, 0] x.h x.n), sibs := insertSib x (c.uncovered y x) }).setQueue
        { y with held := false, sibs := rest } :=
  (if_neg (not_le.2 new)).trans (if_neg room)

end arrival

/-- Settles O41: the events by the queue or the sibling that they find, an arrival by what its replica has seen and its room. -/
theorem cellEvents : Obligations.CellEvents := by
  unfold Obligations.CellEvents
  intro buf off src dst s c there
  refine ⟨fun y queued moves => ?arrives, fun y queued held room => ?released, fun y x rest => ?arrival,
    fun x compacts => ?compacts, fun stays => ?stays⟩
  case arrives =>
    simp only [exec_siblingArrival, execSiblingArrival, there, queued, moves, Bool.false_eq_true, if_false]
  case released =>
    simp only [exec_heldSiblingRelease, execHeldSiblingRelease, there, queued, held, room, decide_true, Bool.and_self, if_true]
  case arrival =>
    intro r keep
    refine ⟨fun seen => ?seen, fun new full => ⟨?same, fun hy left => ?held⟩, fun new room hr => ?joined⟩
    case seen => rw [Cell.arrive_of_seen rest seen, Cell.setQueue_reps]
    case same => rw [Cell.arrive_of_full rest new full, Cell.setQueue_reps]
    case held =>
      rw [Cell.arrive_of_full rest new full]
      exact Cell.mem_queues_setQueue hy ⟨rfl, rfl⟩ left
    case joined =>
      rw [Cell.arrive_of_room rest new room, Cell.rep_setQueue, Cell.rep_setRep_same hr]
      exact ⟨rfl, rfl, fun q other => Cell.rep_setRep_other other _⟩
  case compacts =>
    simp only [exec_compaction, execCompaction, there, compacts]
  case stays =>
    simp only [exec_compaction, execCompaction, there, stays]

end Sys2Proof.Machine
end

section
/-! SUPPORT. Contexts that halt: a fault without a handler or while traps are masked, a die that is met or lost, a handler's overrun,
the halt line, and the dump (R317, R323, R333 to R337, R340, R343, R345, R346). -/

namespace Sys2Proof.Machine

/- The proofs of this section are elaborated one after another, which keeps the compile of the whole text within its memory. -/
set_option Elab.async false

/- ### Contexts after an update, and the halt of one -/

@[simp] theorem State.ctx?_post (s : State) (kind die ctx : Nat) (p0 : Word) (p1 : BitVec 64) (n : Nat) :
    (s.post kind die ctx p0 p1).ctx? n = s.ctx? n := by
  rw [State.ctx?, State.post_ctxs]; rfl

@[simp] theorem State.ctx?_modGroups (s : State) (f : Group → Group) (n : Nat) : (s.modGroups f).ctx? n = s.ctx? n := rfl

theorem State.ctx?_modCtx_same {s : State} {n : Nat} {c : Ctx} {f : Ctx → Ctx} (hf : ∀ c, (f c).num = c.num) (h : s.ctx? n = some c) :
    (s.modCtx n f).ctx? n = some (f c) := by
  rw [State.ctx?_modCtx s n f hf, h, Option.map_some, if_pos (beq_iff_eq.2 (State.ctx?_num h))]

theorem State.halted_of_ctx? {s : State} {n : Nat} {c : Ctx} (h : s.ctx? n = some c) : s.halted n = c.halt.isSome := by
  simp only [State.halted, h]

/-- The halt of a context that runs, with its cause and its record (R333, R345). -/
theorem State.ctx?_haltCtx {s : State} {n : Nat} {c : Ctx} (h : s.ctx? n = some c) (running : c.halt = none) (cause : Nat) (p : FaultRec) :
    (s.haltCtx n cause p).ctx? n = some { c with halt := some (Halt.start cause s.clk p) } := by
  have runs : s.halted n = false := by rw [State.halted_of_ctx? h, running]; rfl
  rw [State.haltCtx, runs, if_neg Bool.false_ne_true, State.ctx?_post]
  exact State.ctx?_modCtx_same (f := fun c => { c with halt := some (Halt.start cause s.clk p) }) (fun _ => rfl) h

/- ### A fault that halts its context (R323, R333, R337) -/

/-- A member among those that stand at the instruction has its traps masked or is suspended. -/
def State.faultMasked (s : State) (f : FaultInfo) : Bool :=
  (f.arrived.filterMap (fun x => s.group? x.1)).any (fun g => g.mask || g.susp)

theorem State.faultMasked_iff (s : State) (f : FaultInfo) :
    s.faultMasked f = true ↔ ∃ x ∈ f.arrived, ∃ g, s.group? x.1 = some g ∧ (g.mask = true ∨ g.susp = true) := by
  simp only [State.faultMasked, List.any_eq_true, List.mem_filterMap, Bool.or_eq_true]
  constructor
  · rintro ⟨g, ⟨x, hx, found⟩, blocked⟩
    exact ⟨x, hx, g, found, blocked⟩
  · rintro ⟨x, hx, g, found, blocked⟩
    exact ⟨g, ⟨x, hx, found⟩, blocked⟩

theorem State.faultMasked_endSteps (s : State) (f : FaultInfo) : (s.endSteps f).faultMasked f = s.faultMasked f := by
  simp only [State.faultMasked, State.endSteps_eq, State.arrivedGroups_modGroups f.stepEnded_key, List.any_map, Function.comp_def,
    f.stepEnded_mask, f.stepEnded_susp]

/-- A group whose fault registers hold the fault (R321). -/
def FaultInfo.recorded (f : FaultInfo) (sel : Nat) (g : Group) : Group :=
  { g with stepOne := false, fault := f.regs sel g.key, arrived := lanesFor g.key f.arrived, faultNext := f.next, faultPos := f.pos }

theorem State.group?_recorded {s : State} {f : FaultInfo} {h : Group} (hh : s.handling f = some h) (sel : Nat) :
    ((s.endSteps f).writeFaultRegs f sel).group? h.key = some (f.recorded sel h) := by
  obtain ⟨found, named⟩ := State.handling_spec hh
  rw [State.group?_writeFaultRegs, State.group?_endSteps, found, Option.map_some, Option.map_some, if_pos named, if_pos named]
  rfl

/-- The record of a fault that the handling member `h` has (R337). -/
def State.faultRecOf (s : State) (f : FaultInfo) (h : Group) : FaultRec := (f.recorded (s.selOf h f.scope) h).faultRec s.clk

/-- Where members are masked, or there is no handler, a fault halts its context (R323). -/
theorem State.takeFault_eq_halt {s : State} {f : FaultInfo} {h : Group} {c : Ctx} {cause : Nat} (hh : s.handling f = some h)
    (hc : s.ctx? h.ctx = some c) (running : c.halt = none) (code : f.code ≠ .dieLost)
    (why : s.faultMasked f = true ∧ cause = 2 ∨ s.faultMasked f = false ∧ c.trapvec = 0 ∧ cause = 1) :
    s.takeFault f =
      (((s.endSteps f).writeFaultRegs f (s.selOf h f.scope)).haltCtx h.ctx cause (s.faultRecOf f h)).stopGroups f false := by
  have handles : (s.endSteps f).handling f = some (f.stepEnded h) := by
    rw [State.endSteps_eq, State.handling_modGroups f.stepEnded_key f.stepEnded_live, hh, Option.map_some]
  have inContext : (s.endSteps f).ctx? h.ctx = some c := hc
  have number : (s.endSteps f).selOf (f.stepEnded h) f.scope = s.selOf h f.scope :=
    State.selOf_modGroups f.stepEnded_key (fun g => ⟨f.stepEnded_party g, f.stepEnded_part g⟩) s h f.scope
  have code : (f.code == FaultCode.dieLost) = false := by simpa using code
  have masked : (f.arrived.filterMap (fun x => (s.endSteps f).group? x.1)).any (fun g => g.mask || g.susp) = s.faultMasked f :=
    s.faultMasked_endSteps f
  simp only [State.takeFault, handles, f.stepEnded_key, f.stepEnded_ctx, inContext, masked, number, State.group?_recorded hh, code, running,
    Option.isSome_none, Bool.false_eq_true, if_false]
  rcases why with ⟨blocked, rfl⟩ | ⟨free, unhandled, rfl⟩
  · rw [if_pos blocked]
    rfl
  · rw [if_neg (by simp [free]), if_pos (by simp [unhandled])]
    rfl

/-- The record holds the fault's code and its address (R337). -/
theorem State.faultRecOf_fields (s : State) (f : FaultInfo) (h : Group) :
    (s.faultRecOf f h).valid = true ∧ (s.faultRecOf f h).code = BitVec.ofNat 8 f.code.num ∧ (s.faultRecOf f h).pc = f.pc := by
  refine ⟨rfl, BitVec.eq_of_toNat_eq ?_, rfl⟩
  simp only [State.faultRecOf, FaultInfo.recorded, FaultInfo.regs, Group.faultRec, BitVec.toNat_ofNat]
  exact Nat.mod_mod_of_dvd _ (by decide)

/-- Groups of a fault that stops them issue nothing later (R319, R323). -/
theorem State.stopped_of_stopGroups {s : State} {f : FaultInfo} {late : Bool} {x : GKey × Mask} (hx : x ∈ f.arrived) {g : Group}
    (hg : (s.stopGroups f late).group? x.1 = some g) : g.stopped = true := by
  rw [State.stopGroups, State.group?_modGroups_of_key (v := fun g => { g with stopped := true, lateFault := g.lateFault || late })
    (fun g => by split <;> rfl) (fun g hk => if_pos (List.any_eq_true.2 ⟨x, hx, by simp [hk]⟩))] at hg
  obtain ⟨g0, -, rfl⟩ := Option.map_eq_some_iff.1 hg
  rfl

/-- Settles O35: the fault halts the context with its own record, and stops the groups that stand at it. -/
theorem faultHaltsTheContext : Obligations.FaultHaltsTheContext := by
  unfold Obligations.FaultHaltsTheContext
  intro s f h c hh hc running code masked halts
  have halts_of {cause : Nat} (why : s.faultMasked f = true ∧ cause = 2 ∨ s.faultMasked f = false ∧ c.trapvec = 0 ∧ cause = 1) :
      halts cause := by
    have taken := State.takeFault_eq_halt hh hc running code why
    have halted := State.ctx?_haltCtx (s := (s.endSteps f).writeFaultRegs f (s.selOf h f.scope)) hc running cause (s.faultRecOf f h)
    obtain ⟨valid, code, pc⟩ := s.faultRecOf_fields f h
    refine ⟨_, _, (congrArg (State.ctx? · h.ctx) taken).trans halted, rfl, rfl, rfl, valid, code, pc, fun x hx g hg => ?_⟩
    rw [taken] at hg
    exact State.stopped_of_stopGroups hx hg
  refine ⟨fun blocked => halts_of (.inl ⟨(s.faultMasked_iff f).2 blocked, rfl⟩), fun free unhandled => halts_of (.inr ⟨?_, unhandled, rfl⟩)⟩
  exact Bool.eq_false_iff.2 fun blocked => free ((s.faultMasked_iff f).1 blocked)

/- ### A die that is lost (R231, R317, R343) -/

theorem exec_dieLost (die : Nat) (s : State) : exec (.dieLost die) s = execDieLost die s := rfl
theorem exec_heartbeatTimeout (die : Nat) (s : State) : exec (.heartbeatTimeout die) s = execHeartbeatTimeout die s := rfl
theorem exec_handlerOverrun (k : GKey) (s : State) : exec (.handlerOverrun k) s = execHandlerOverrun k s := rfl
theorem exec_haltLineArrival (n die : Nat) (s : State) : exec (.haltLineArrival n die) s = execHaltLineArrival n die s := rfl
theorem exec_dumpWrite (n : Nat) (s : State) : exec (.dumpWrite n) s = execDumpWrite n s := rfl

@[simp] theorem State.addStop_lost (s : State) (n : Nat) (r : StopRec) : (s.addStop n r).lost = s.lost := rfl

@[simp] theorem State.dropQueues_lost (s : State) (die : Nat) : (s.dropQueues die).lost = s.lost := rfl

@[simp] theorem State.stopRestripe_lost (s : State) (ctx buf : Nat) : (s.stopRestripe ctx buf).lost = s.lost := by
  simp only [State.stopRestripe, apply_ite State.lost, State.addStop_lost, State.setEntry_lost, State.commitLine_lost, ite_self]

/-- A die that is declared lost is among the lost ones, once, and no other is. -/
theorem State.loseDie_lost (s : State) (die : Nat) : (s.loseDie die).lost = s.lost ++ [die] := by
  have stops (t : State) (ctx : State → Nat → Nat) (bufs : List Nat) :
      (bufs.foldl (fun s b => s.stopRestripe (ctx s b) b) t).lost = t.lost :=
    foldl_keeps State.lost _ (fun s b => State.stopRestripe_lost s _ b) _ _
  have meets (t : State) (cs : List Ctx) : (cs.foldl (fun s c => s.meetLost c.num die) t).lost = t.lost :=
    foldl_keeps State.lost _ (fun s c => State.meetLost_lost s _ die) _ _
  exact (foldl_keeps State.lost _ (fun t (c : Ctx) => stops t (fun _ _ => c.num) _) _ _).trans
    ((stops _ (fun s b => (s.entry b).owner) _).trans ((meets _ _).trans (State.post_lost ..)))

theorem dieLost_declared {s : State} {die : Nat} (small : die < 8) (here : die ∉ s.lost) :
    exec (.dieLost die) s = .next (s.loseDie die) ∧ exec (.heartbeatTimeout die) s = .next (s.loseDie die) := by
  have may : ¬ (s.lost.contains die || decide (8 ≤ die)) = true := by simp [here, small]
  exact ⟨(exec_dieLost die s).trans (if_neg may), (exec_heartbeatTimeout die s).trans (if_neg may)⟩

theorem dieLost_refused {s : State} {die : Nat} (bad : 8 ≤ die ∨ die ∈ s.lost) :
    exec (.dieLost die) s = .refused .eventNotEnabled ∧ exec (.heartbeatTimeout die) s = .refused .eventNotEnabled := by
  have may_not : (s.lost.contains die || decide (8 ≤ die)) = true := by
    simpa [or_comm] using bad
  exact ⟨(exec_dieLost die s).trans (if_pos may_not), (exec_heartbeatTimeout die s).trans (if_pos may_not)⟩

/-- A running context that meets a lost die has touched it and halts with cause 4 (R343). -/
theorem State.ctx?_meetLost {s : State} {n : Nat} {c : Ctx} (hc : s.ctx? n = some c) (running : c.halt = none) (die : Nat) :
    (s.meetLost n die).ctx? n = some { c with
      touched := c.touched ||| BitVec.ofNat 8 (2 ^ die)
      halt := some (Halt.start 4 s.clk (FaultRec.lostDie die s.clk)) } := by
  have runs : s.halted n = false := by rw [State.halted_of_ctx? hc, running]; rfl
  have touched : (s.touch n die).ctx? n = some { c with touched := c.touched ||| BitVec.ofNat 8 (2 ^ die) } :=
    State.ctx?_modCtx_same (f := fun c => { c with touched := c.touched ||| BitVec.ofNat 8 (2 ^ die) }) (fun _ => rfl) hc
  simp only [State.meetLost, State.meetLostAt, runs, Bool.false_eq_true, if_false]
  exact State.ctx?_haltCtx touched running 4 _

/- ### A handler that outlasts its bound (R346) -/

/-- The fault of a handler's overrun (R346). -/
def Group.overrunFault (g : Group) (k : GKey) : FaultInfo :=
  ⟨.lane, .handlerOverrun, g.hpc, 0, 0, [(k, 0)], [(k, g.arrived)], g.faultNext, g.faultPos⟩

/-- The group once its fault registers hold the overrun. -/
def Group.overrunRegs (g : Group) (k : GKey) : Group :=
  { g with fault := (g.overrunFault k).regs 0 k, arrived := lanesFor k [(k, g.arrived)], faultNext := g.faultNext, faultPos := g.faultPos }

theorem exec_handlerOverrun_of_overran {s : State} {k : GKey} {g : Group} (hg : s.group? k = some g) (late : s.overran g = true) :
    exec (.handlerOverrun k) s =
      .next ((s.writeFaultRegs (g.overrunFault k) 0).haltCtx g.ctx 5 ((g.overrunRegs k).faultRec s.clk)) := by
  have recorded : (s.writeFaultRegs (g.overrunFault k) 0).group? k = some (g.overrunRegs k) := by
    rw [State.group?_writeFaultRegs, hg, Option.map_some, if_pos (FaultInfo.names_of_mem (x := (k, g.arrived)) (List.mem_singleton_self _))]
    rfl
  have recorded : (s.writeFaultRegs ⟨.lane, .handlerOverrun, g.hpc, 0, 0, [(k, 0)], [(k, g.arrived)], g.faultNext, g.faultPos⟩ 0).group? k =
    some (g.overrunRegs k) := recorded
  simp only [exec_handlerOverrun, execHandlerOverrun, hg, late, recorded, Bool.not_true, Bool.false_eq_true, if_false]
  rfl

theorem State.running_of_overran {s : State} {g : Group} {c : Ctx} (late : s.overran g = true) (hc : s.ctx? g.ctx = some c) :
    c.halt = none := by
  simp only [State.overran, Bool.and_eq_true, Bool.not_eq_true', State.halted_of_ctx? hc, Option.isSome_eq_false_iff,
    Option.isNone_iff_eq_none] at late
  exact late.1.2

/- ### The halt line and the dump (R334, R336) -/

theorem mem_diesOf {m : BitVec 8} {d : Nat} : d ∈ diesOf m ↔ d < 8 ∧ m.getLsbD d = true := by
  rw [diesOf, List.mem_filter, List.mem_range]

section line
variable {s : State} {n : Nat} {c : Ctx} {h : Halt} (hc : s.ctx? n = some c) (hh : c.halt = some h)
include hc hh

/-- The halt line comes to a touched die that is not lost, once (R334). -/
theorem haltLineArrival_reaches {die : Nat} (small : die < 8) (touched : c.touched.getLsbD die = true) (fresh : die ∉ h.reached)
    (here : die ∉ s.lost) : exec (.haltLineArrival n die) s = .next ((s.modCtx n (fun c => { c with halt := c.halt.map (fun h =>
      { h with reached := h.reached ++ [die] }) })).stopDie n die) := by
  simp only [exec_haltLineArrival, execHaltLineArrival, hc, hh]
  exact if_neg (by simp [fresh, here, mem_diesOf, small, touched])

theorem haltLineArrival_refused {die : Nat} (bad : die ∈ h.reached ∨ c.touched.getLsbD die = false ∨ die ∈ s.lost) :
    exec (.haltLineArrival n die) s = .refused .eventNotEnabled := by
  simp only [exec_haltLineArrival, execHaltLineArrival, hc, hh]
  refine if_pos ?_
  rcases bad with reached | untouched | lost
  · simp [reached]
  · simp [mem_diesOf, untouched]
  · simp [lost]

/-- A context without a dump area posts its event once its engines have stopped (R336). -/
theorem dumpWrite_without_area (undumped : h.dumped = false) (stopped : s.allStopped c h = true) (area : c.dump = 0) :
    exec (.dumpWrite n) s =
      .next (((s.modCtx n (fun c => { c with halt := some { h with dumped := true } })).clearMx n).post 3 0 n 0 0) := by
  simp only [exec_dumpWrite, execDumpWrite, hc, hh, undumped, stopped, area, Bool.not_true, Bool.or_self, Bool.false_eq_true, if_false, if_true]

theorem dumpWrite_writes (undumped : h.dumped = false) (stopped : s.allStopped c h = true) (area : c.dump ≠ 0) :
    let ls := layOut (c.dumpLen * 65536) false 336 (s.sections n h ((diesOf c.touched).any s.lost.contains))
    let h1 := s.dumpFaults n h (c.dumpLen * 65536) ls
    exec (.dumpWrite n) s = .next ((((s.writeDump c ls h1 (c.dumpLen * 65536)).modCtx n (fun c =>
      { c with halt := some { h1 with dumped := true } })).clearMx n).post 2 0 n (BitVec.ofNat 32 (dumpEnd ls)) 0) := by
  simp only [exec_dumpWrite, execDumpWrite, hc, hh, undumped, stopped, area, Bool.not_true, Bool.or_self, Bool.false_eq_true, if_false]

theorem dumpWrite_refused (bad : h.dumped = true ∨ s.allStopped c h = false) : exec (.dumpWrite n) s = .refused .eventNotEnabled := by
  simp only [exec_dumpWrite, execDumpWrite, hc, hh]
  exact if_pos (by simpa using bad)

end line

/-- Settles O43: each event by the state in which it happens, and the halts with their causes and records. -/
theorem haltEvents : Obligations.HaltEvents := by
  unfold Obligations.HaltEvents
  refine ⟨?lost, ?met, ?overrun, ?line⟩
  case lost =>
    intro s die
    refine ⟨fun small here => ?_, dieLost_refused⟩
    obtain ⟨reported, silent⟩ := dieLost_declared small here
    exact ⟨reported, silent, s.loseDie_lost die⟩
  case met =>
    intro s n die c hc running
    have met := State.ctx?_meetLost hc running die
    exact ⟨_, _, met, rfl, rfl, rfl, rfl, rfl, rfl, rfl⟩
  case overrun =>
    intro s k g c hg late hc
    have halts := State.ctx?_haltCtx (s := s.writeFaultRegs (g.overrunFault k) 0) hc (State.running_of_overran late hc) 5
      ((g.overrunRegs k).faultRec s.clk)
    exact ⟨_, _, _, _, exec_handlerOverrun_of_overran hg late, rfl, halts, rfl, rfl, rfl, rfl, rfl, rfl, rfl, rfl, rfl⟩
  case line =>
    intro s n die c h hc hh
    exact ⟨haltLineArrival_reaches hc hh, haltLineArrival_refused hc hh, dumpWrite_without_area hc hh, dumpWrite_writes hc hh,
      dumpWrite_refused hc hh⟩

end Sys2Proof.Machine
end

section
/-! SUPPORT. The events of the debugger (R331, R332, R348). -/

namespace Sys2Proof.Machine

/- The proofs of this section are elaborated one after another, which keeps the compile of the whole text within its memory. -/
set_option Elab.async false

theorem exec_debugStop (n : Nat) (s : State) : exec (.debugStop n) s = execDebugStop n s := rfl
theorem exec_debugResume (n : Nat) (s : State) : exec (.debugResume n) s = execDebugResume n s := rfl
theorem exec_singleStep (k : GKey) (s : State) : exec (.singleStep k) s = execSingleStep k s := rfl
theorem exec_breakpointSet (n : Nat) (a : Word) (on : Bool) (s : State) : exec (.breakpointSet n a on) s = execBreakpointSet n a on s := rfl

/- ### Breakpoints (R331) -/

/-- The context with a breakpoint set or removed. -/
def Ctx.setBreak (c : Ctx) (a : Word) (on : Bool) : Ctx :=
  { c with breaks := c.breaks.filter (fun b => b != a) ++ (if on then [a] else []) }

theorem Ctx.mem_breaks_setBreak_same (c : Ctx) (a : Word) (on : Bool) : a ∈ (c.setBreak a on).breaks ↔ on = true := by
  simp [Ctx.setBreak]

theorem Ctx.mem_breaks_setBreak_other (c : Ctx) {a b : Word} (other : b ≠ a) (on : Bool) :
    b ∈ (c.setBreak a on).breaks ↔ b ∈ c.breaks := by
  simp [Ctx.setBreak, other]

theorem exec_breakpointSet_of_ctx? {s : State} {n : Nat} {c : Ctx} (hc : s.ctx? n = some c) (a : Word) (on : Bool) :
    exec (.breakpointSet n a on) s = .next (s.modCtx n (fun c => c.setBreak a on)) := by
  simp only [exec_breakpointSet, execBreakpointSet, hc, Option.isNone_some, Bool.false_eq_true, if_false]
  rfl

/- ### Single steps (R332) -/

section step
variable {s : State} {k : GKey} {g : Group} (hg : s.group? k = some g) (stands : g.dstop = true)
include hg stands

/-- What waits to issue for the group issues first. -/
theorem singleStep_instance (waits : s.instances.any (fun i => i.ownOf k) = true) : exec (.singleStep k) s =
    .next { s.modGroup k (fun g => { g with stepOne := true }) with
      instances := s.instances.map (fun (i : Instance) => if i.ownOf k then { i with step := true } else i) } := by
  simp only [exec_singleStep, execSingleStep, hg, stands, waits, Bool.not_true, Bool.false_eq_true, if_false, if_true]

theorem singleStep_group (idle : s.instances.any (fun i => i.ownOf k) = false) : exec (.singleStep k) s =
    .next (if g.nextPoint.isNone then s else s.modGroup k (fun g => { g with stepOne := true })) := by
  simp only [exec_singleStep, execSingleStep, hg, stands, idle, Bool.not_true, Bool.false_eq_true, if_false]

end step

/- ### Resume (R331) -/

/-- A group of a context as the context resumes from a stop: what it waits for is counted past the stop, and one that has stopped at a
breakpoint issues that instruction (R331, R352). -/
def State.resumed (s : State) (c : Ctx) (g : Group) : Group :=
  { g.afterStop c.stopAt s.clk with dstop := false, stepOne := g.broke && s.atBreak g, broke := false }

/-- A context that resumes resumes its groups, and no other. -/
theorem exec_debugResume_of_stopped {s : State} {n : Nat} {c : Ctx} (hc : s.ctx? n = some c) (stopped : c.stopped = true) :
    exec (.debugResume n) s = .next ((s.modCtx n (fun c => { c with stopped := false })).modGroups (fun g =>
      if g.ctx = n then s.resumed c g else g)) := by
  simp only [exec_debugResume, execDebugResume, hc, stopped, Bool.not_true, Bool.false_eq_true, if_false, beq_iff_eq]
  rfl

/-- Settles O42: each event by the state in which it happens; a resume group by group. -/
theorem debuggerEvents : Obligations.DebuggerEvents := by
  unfold Obligations.DebuggerEvents
  intro s n c k g a on
  refine ⟨fun hc => ?stop, fun hc => ?breakpoint, singleStep_instance, singleStep_group, fun hc stopped => ?resume⟩
  case stop => exact (exec_debugStop n s).trans (if_pos (by rw [hc]; rfl))
  case breakpoint =>
    exact ⟨_, _, exec_breakpointSet_of_ctx? hc a on, State.ctx?_modCtx_same (f := fun c => c.setBreak a on) (fun _ => rfl) hc,
      c.mem_breaks_setBreak_same a on, fun b other => c.mem_breaks_setBreak_other other on, rfl, rfl⟩
  case resume =>
    refine ⟨_, exec_debugResume_of_stopped hc stopped, rfl, fun j h hj => ⟨if h.ctx = n then s.resumed c h else h, ?_, ?_⟩⟩
    · rw [State.group?_modGroups _ _ (fun g => by split <;> rfl), State.group?_modCtx, hj, Option.map_some]
    · by_cases own : h.ctx = n
      · rw [if_pos own]
        exact ⟨rfl, rfl, rfl, fun _ => ⟨rfl, rfl⟩, fun other => absurd own other⟩
      · rw [if_neg own]
        exact ⟨rfl, rfl, rfl, fun mine => absurd mine own, fun _ => rfl⟩

end Sys2Proof.Machine
end

section
/-! SUPPORT. Groups that enter the active set, change places, go out with a victim and come back (R365, R367 to R371). -/

namespace Sys2Proof.Machine

/- The proofs of this section are elaborated one after another, which keeps the compile of the whole text within its memory. -/
set_option Elab.async false

theorem exec_pendingGroupEntry (p : PKey) (s : State) : exec (.pendingGroupEntry p) s = execPendingGroupEntry p s := rfl
theorem exec_groupExchange (p : PKey) (s : State) : exec (.groupExchange p) s = execGroupExchange p s := rfl
theorem exec_partialEviction (n : Nat) (s : State) : exec (.partialEviction n) s = execPartialEviction n s := rfl
theorem exec_partyRestore (k : CKey) (s : State) : exec (.partyRestore k) s = execPartyRestore k s := rfl

section active
variable {s : State} {p : PKey}

theorem pendingGroupEntry_enters {i : Nat} {q : Group} (slot : s.freeSlot p = some i) (entrant : s.anyOf (s.entrants p) = some q) :
    exec (.pendingGroupEntry p) s = .next (s.modGroup q.key (fun g => { g with slot := some i })) := by
  simp only [exec_pendingGroupEntry, execPendingGroupEntry, slot, entrant]

/-- A stalled group goes out for one that can enter (R365). -/
theorem groupExchange_swaps {q g : Group} (full : s.freeSlot p = none) (entrant : s.anyOf (s.entrants p) = some q)
    (out : firstOut s (((s.active p).filter (fun g => g.drained && !s.stopsFor g && !s.halted g.ctx)).filter s.stalled) = some g) :
    exec (.groupExchange p) s = .next (s.swapSlots g q) := by
  simp only [exec_groupExchange, execGroupExchange, full, entrant, out, Option.isSome_none, Bool.false_eq_true, if_false]

end active

section eviction
variable {s : State} {n : Nat} {l : Launch} (hl : s.launch? n = some l) (runs : s.halted l.ctx = false)
include hl runs

/-- A group of a victim that is ready goes out (R367, R368). -/
theorem partialEviction_saves {x : Plan} {rest : List Plan} {v : Victim} (planned : l.plan = x :: rest)
    (ready : (l.plan.flatMap (·.victims)).find? s.victimReady = some v) : exec (.partialEviction n) s = .next (s.saveVictim v) := by
  rw [planned] at ready
  simp only [exec_partialEviction, execPartialEviction, hl, runs, planned, ready, Bool.false_eq_true, if_false]

/-- A queued launch whose next team fits no core as it stands chooses the victims for it (R367). -/
theorem partialEviction_chooses {b : Block} {ptr : Nat} (unplanned : l.plan = []) (queued : l.resident = false) (left : l.next < l.d.nteams)
    (fits_none : s.scan l (s.candidates l.d) false l.next l.ptr s.rooms [] (s.candidates l.d).length = none)
    (chosen : s.scan l (s.candidates l.d) true l.next l.ptr s.rooms [] (s.candidates l.d).length = some (b, ptr)) :
    exec (.partialEviction n) s = .next (s.modLaunch n (fun x => { x with plan := b.plans, ptr := ptr })) := by
  simp only [exec_partialEviction, execPartialEviction, hl, runs, unplanned, queued, decide_eq_false (not_le.2 left), fits_none, chosen,
    Option.isSome_none, Bool.or_self, Bool.false_eq_true, if_false]

end eviction

/-- A party that fits its core comes back, with the matrix state of its context, and its groups settle (R181, R370). -/
theorem partyRestore_restores {s : State} {core : CKey} {e : Evicted} (next : s.restorable core = some e) : exec (.partyRestore core) s =
    .next (e.keys.foldl (fun s k => s.settle k) (e.keys.foldl State.restoreGroup
      ({ s with evicted := s.evicted.filter (fun x => x != e) }.restoreMx e.pkey e.ctx))) := by
  simp only [exec_partyRestore, execPartyRestore, next]

/-- Settles O46: each event by the state in which it happens. -/
theorem residencyEvents : Obligations.ResidencyEvents := by
  unfold Obligations.ResidencyEvents
  intro s p n core
  exact ⟨fun i q => pendingGroupEntry_enters, fun q g => groupExchange_swaps, fun l x rest v hl runs => partialEviction_saves hl runs,
    fun l b ptr hl runs => partialEviction_chooses hl runs, fun e => partyRestore_restores⟩

end Sys2Proof.Machine
end

section
/-! SUPPORT. Answers to attestation requests, BOOTSTAT as a cold reset leaves it, and the two resets (R387 to R390, R392). -/

namespace Sys2Proof.Machine

/- The proofs of this section are elaborated one after another, which keeps the compile of the whole text within its memory. -/
set_option Elab.async false

/- ### Attestation (R388) -/

theorem exec_getMeasurements (n : Nat) (s : State) : exec (.getMeasurements n) s = execGetMeasurements n s := rfl

theorem getMeasurements_answers {s : State} {n : Nat} {d : BitVec 512} (measured : s.measurements[n]? = some d) :
    exec (.getMeasurements (n + 1)) s =
      .next (s.respond (.measurement (n + 1) d (identitySign (leBytes 1 (n + 1) ++ leBytes 64 d.toNat)))) := by
  simp only [exec_getMeasurements, execGetMeasurements, measured]

theorem getMeasurements_beyond {s : State} {n : Nat} (none_there : s.measurements[n]? = none) :
    exec (.getMeasurements (n + 1)) s = .next (s.respond .error) := by
  simp only [exec_getMeasurements, execGetMeasurements, none_there]

/- ### Boot (R387, R389, R390) -/

/-- Every channel trains from its default repair in the configuration image. -/
def everyChannelTrains (x : BootImages) : Prop :=
  ∀ c, c < 1536 →
    (trainChannel x (c, BitVec.ofNat 16 (leNat (((bootImage x 1).drop (784 + 2 * c)).take 2)))).isSome = true

theorem trainedAll_any_isNone (x : BootImages) : (trainedAll x).any Option.isNone = true ↔ ¬ everyChannelTrains x := by
  simp only [trainedAll, repairBytes, everyChannelTrains, List.any_map, List.any_eq_true, List.mem_range, Function.comp,
    Option.isNone_iff_eq_none, Option.isSome_iff_ne_none, not_forall, not_not, exists_prop]

theorem configOk_iff (img : List Byte) : configOk img = true ↔
    layoutOk img = true ∧ binOk (coreBytes img) = true ∧ ∀ r ∈ repairBytes img, repairOk r.2 = true := by
  simp only [configOk, Bool.and_eq_true, List.all_eq_true, and_assoc]

section boot
variable {x : BootImages}

theorem bootStatus_of_firmware (bad : signed (bootImage x 0) = false) : bootStatus x = 2 := by
  simp only [bootStatus, bad, Bool.not_false, if_true]

theorem bootStatus_of_config (first : signed (bootImage x 0) = true)
    (bad : signed (bootImage x 1) = false ∨ configOk (bootImage x 1) = false) : bootStatus x = 3 := by
  have rejected : (!signed (bootImage x 1) || !configOk (bootImage x 1)) = true := by simpa using bad
  simp only [bootStatus, first, rejected, Bool.not_true, Bool.false_eq_true, if_false, if_true]

section accepted
variable (first : signed (bootImage x 0) = true) (config : signed (bootImage x 1) = true) (sound : configOk (bootImage x 1) = true)
include first config sound

theorem bootStatus_of_second (bad : signed (bootImage x 2) = false) : bootStatus x = 2 := by
  simp only [bootStatus, first, config, sound, bad, Bool.not_true, Bool.not_false, Bool.or_self, Bool.false_eq_true, if_false, if_true]

theorem bootStatus_of_images (second : signed (bootImage x 2) = true) :
    bootStatus x = if (trainedAll x).any Option.isNone then 4 else 1 := by
  simp only [bootStatus, first, config, sound, second, Bool.not_true, Bool.or_self, Bool.false_eq_true, if_false]

theorem bootStatus_of_untrained (second : signed (bootImage x 2) = true) (bad : ¬ everyChannelTrains x) : bootStatus x = 4 :=
  (bootStatus_of_images first config sound second).trans (if_pos ((trainedAll_any_isNone x).2 bad))

theorem bootStatus_of_trained (second : signed (bootImage x 2) = true) (trains : everyChannelTrains x) : bootStatus x = 1 :=
  (bootStatus_of_images first config sound second).trans (if_neg fun bad => (trainedAll_any_isNone x).1 bad trains)

end accepted

/-- The part comes up only where every stage passes. -/
theorem bootStatus_eq_one_iff : bootStatus x = 1 ↔ signed (bootImage x 0) = true ∧ signed (bootImage x 1) = true ∧
    signed (bootImage x 2) = true ∧ configOk (bootImage x 1) = true ∧ everyChannelTrains x := by
  refine ⟨fun up => ?_, fun ⟨first, config, second, sound, trains⟩ => bootStatus_of_trained first config sound second trains⟩
  have first : signed (bootImage x 0) = true := by
    by_contra bad
    exact absurd (up.symm.trans (bootStatus_of_firmware (Bool.eq_false_iff.2 bad))) (by decide)
  have config : signed (bootImage x 1) = true ∧ configOk (bootImage x 1) = true := by
    by_contra bad
    have bad : signed (bootImage x 1) = false ∨ configOk (bootImage x 1) = false := by
      simpa only [Bool.not_eq_true, not_and_or] using bad
    exact absurd (up.symm.trans (bootStatus_of_config first bad)) (by decide)
  have second : signed (bootImage x 2) = true := by
    by_contra bad
    exact absurd (up.symm.trans (bootStatus_of_second first config.1 config.2 (Bool.eq_false_iff.2 bad))) (by decide)
  refine ⟨first, config.1, second, config.2, ?_⟩
  by_contra bad
  exact absurd (up.symm.trans (bootStatus_of_untrained first config.1 config.2 second bad)) (by decide)

/-- BOOTSTAT holds the number of a stage. -/
theorem bootStatus_lt (x : BootImages) : bootStatus x < 2 ^ 32 := by
  unfold bootStatus
  split_ifs <;> decide

theorem ofNat_bootStatus_eq_one_iff : (BitVec.ofNat 32 (bootStatus x) = 1) ↔ bootStatus x = 1 := by
  rw [← BitVec.toNat_inj, BitVec.toNat_ofNat, Nat.mod_eq_of_lt (bootStatus_lt x)]
  rfl

end boot

/- ### Resets (R392) -/

theorem exec_coldReset (x : BootImages) (s : State) : exec (.coldReset x) s = execColdReset x s := rfl
theorem exec_warmReset (s : State) : exec .warmReset s = execWarmReset s := rfl

/-- A cold reset starts the machine anew with BOOTSTAT of the images, and takes over what these configure where the boot accepts them. -/
theorem coldReset_starts (x : BootImages) (s : State) : ∃ t, exec (.coldReset x) s = .next t ∧ t.mem = [] ∧ t.ctxs = [] ∧ t.groups = [] ∧
    t.cores = [] ∧ t.frames = [] ∧ t.powered = true ∧ t.regs.bootstat = BitVec.ofNat 32 (bootStatus x) ∧
    (bootStatus x = 1 → t.harvest = coreBytes (bootImage x 1) ∧ t.limits = powerLimits (bootImage x 1) ∧
      t.measurements = [digest (bootImage x 0), digest (bootImage x 1), digest (bootImage x 2),
        chain [digest (bootImage x 0), digest (bootImage x 1), digest (bootImage x 2)]]) := by
  rw [exec_coldReset]
  refine ⟨_, rfl, rfl, rfl, rfl, rfl, rfl, rfl, rfl, fun up => ⟨if_pos up, if_pos up, if_pos ?_⟩⟩
  rw [up]
  rfl

/-- Frames that hold a byte keep their contents for nobody over a warm reset (R206, R392). -/
theorem State.mem_keptFrames {s : State} {c : Host.Cell} (hc : c ∈ s.mem) : frameKey c.1 ∈ s.keptFrames := by
  simp only [State.keptFrames, List.mem_dedup, List.mem_append]
  exact .inl (.inl (.inl (List.mem_map_of_mem hc)))

/-- Settles O50: each request by its answer, BOOTSTAT stage by stage, and what each reset leaves. -/
theorem attestationAndResets : Obligations.AttestationAndResets := by
  unfold Obligations.AttestationAndResets
  intro s n answers key
  refine ⟨rfl, rfl, fun _ _ => rfl, rfl, rfl, fun _ => rfl, rfl, fun d => getMeasurements_answers, getMeasurements_beyond, fun x => ?cold, ?warm⟩
  case cold =>
    obtain ⟨t, starts, mem, ctxs, groups, cores, frames, powered, status, configured⟩ := coldReset_starts x s
    refine ⟨t, starts, mem, ctxs, groups, cores, frames, powered, ?_⟩
    intro image trains
    rw [status, ofNat_bootStatus_eq_one_iff]
    refine ⟨?up, fun bad => congrArg _ (bootStatus_of_firmware bad), fun first bad => congrArg _ (bootStatus_of_config first bad),
      fun first config sound bad => congrArg _ (bootStatus_of_second first config sound bad),
      fun first config sound second bad => congrArg _ (bootStatus_of_untrained first config sound second bad), configured⟩
    rw [bootStatus_eq_one_iff, configOk_iff, and_assoc, and_assoc]
    exact Iff.rfl
  case warm =>
    exact ⟨_, exec_warmReset s, rfl, rfl, rfl, rfl, rfl, rfl, rfl, rfl, rfl, rfl, rfl, rfl, fun c => State.mem_keptFrames⟩

end Sys2Proof.Machine
end
